-- ==== Sys2Proof/Word.lean ====
section
/-! DEFINITION. The machine's words: bytes, 64-bit scalars, 512-bit vectors, and the 32-bit instruction word. -/

namespace Sys2Proof

/-- A byte of memory. -/
abbrev Byte := BitVec 8

/-- A scalar value (R58). -/
abbrev Word := BitVec 64

/-- A 512-bit vector, a flit payload or a granule (R16, R191); bits [7:0] are the lowest byte (R5). -/
abbrev Vec := BitVec 512

/-- An instruction word (R55). -/
abbrev IWord := BitVec 32

end Sys2Proof
end

