-- ==== Sys2Proof/Syntax.lean ====
section
/-! DEFINITION. The one inductive of operations: 209 instruction rows and 82 rows for the part's own steps and events. -/

namespace Sys2Proof

/-- Predication field PR (R55, R56); code 11 has no constructor, it is IllegalEncoding. -/
inductive Pred where
  | always | onTrue | onFalse
  deriving DecidableEq, Repr

/-- Operand ports of an instruction (R59). -/
inductive Port where
  | a | b | c | p
  deriving DecidableEq, Repr

/-- A 9-bit consumer field (R59). `orig` is code 0x40 or 0x41, which only an inserted word may hold (R151);
`reserved` is every other special code, which is BadSlot. -/
inductive Target where
  | slot (n : Fin 64) (q : Port)
  | discard
  | keep (n : Fin 16)
  | out (h : Fin 16)
  | orig (second : Bool)
  | reserved (code : BitVec 8)
  deriving DecidableEq, Repr

/-- The TY codes that name a type (R69); code 15 has no constructor. -/
inductive Ty where
  | i8 | n8 | i16 | n16 | i32 | n32 | i64 | n64 | f32 | bf16 | f16 | e4m3 | e5m2 | i4 | n4
  deriving DecidableEq, Repr

/-- Rounding modes (R39). -/
inductive Rnd where
  | rne | rtz | rdn | rup
  deriving DecidableEq, Repr

/-- Access mode of a global load (R235). -/
inductive LdMode where
  | plain | ge | eq
  deriving DecidableEq, Repr

/-- Atomic operation (R299). -/
inductive AtomOp where
  | add | and | or | xor | min | max | swap
  deriving DecidableEq, Repr

/-- Reduction operation of VRED and FRED (R202, R258). -/
inductive RedOp where
  | add | min | max
  deriving DecidableEq, Repr

/-- Scale mode of MSCALE (R281). -/
inductive ScaleSel where
  | bfp | mx | none
  deriving DecidableEq, Repr

/-- The prefixes (R76 to R80). They are words of a block and no rows of the opcode table. -/
inductive Pfx where
  | sat
  | rnd (m : Rnd)
  | seq (chain : Fin 1024) (step : Fin 4096)
  | scp (acq rel : Bool) (scope : Fin 8)
  deriving DecidableEq, Repr

/-- What the SECDED check of a flit or a memory word finds (R17, R227). -/
inductive SoftErr where
  | clean | single | double
  deriving DecidableEq, Repr

/-- What a PROT check of an edge finds (R17): flit `n` of its link, the oldest being 0, without an error or with a single or an uncorrectable
one; or such an error in the flit that slot `n` of its FIFO holds, counted from the head. -/
inductive FlitErr where
  | clean (n : Nat) | single (n : Nat) | double (n : Nat)
  | router (n rank : Nat) | slotSingle (n : Nat) | slotDouble (n : Nat)
  deriving DecidableEq, Repr

/-- An RSA public key (R154, R365). -/
structure PubKey where
  modulus  : Nat
  exponent : Nat
  deriving DecidableEq, Repr, Inhabited

/-- A command as it arrives on a command channel (R365): `chan` is the partition's number or 32 for the module channel, `hdr` the 64-byte header,
`body` the body, and `sig` the 512 bytes of its signature. -/
structure Cmd where
  chan : Nat
  hdr  : BitVec 512
  body : List Byte
  sig  : List Byte
  deriving DecidableEq, Repr

/-- A command less its body, which its constructor of `Instr` carries beside it where the manual lays the body out. -/
structure CmdHead where
  chan : Nat
  hdr  : BitVec 512
  sig  : List Byte
  deriving DecidableEq, Repr

/-- The command of a head and a body. -/
def CmdHead.cmd (h : CmdHead) (body : List Byte) : Cmd := { chan := h.chan, hdr := h.hdr, body, sig := h.sig }

/-- The head of a command. -/
def Cmd.head (c : Cmd) : CmdHead := { chan := c.chan, hdr := c.hdr, sig := c.sig }

/-- A partition in the configuration record (R106, R229, R317, R332, R365, R369, R372): its pairs, home range, stash share, the offsets of its
trap queue and deadlock ring, and its channel's key. -/
structure PartCfg where
  pairs    : List Nat
  homeBase : Nat
  homeLen  : Nat
  stash    : Nat
  trapOff  : Nat
  dlkOff   : Nat
  key      : PubKey
  deriving DecidableEq, Repr, Inhabited

/-- What a QUERY asks for (R365, R368, R352). On the module channel `part` names the partition of a snapshot set or of the counters. -/
inductive QueryKind where
  | status (lid : Nat) | ready | snapshot (part : Nat) | lastSeq | counters (part : Nat)
  deriving DecidableEq, Repr

/-- A flit on its way: the edge, and its number on the link, the oldest being 0 (R135). -/
structure FlitAt where
  edge : Nat
  n    : Nat
  deriving DecidableEq, Repr

/-- What a SET of the tick period carries: the period in cycles, and the port that faces the grandmaster where the host names one (R121, R367). -/
structure TickSetting where
  cycles : Nat
  port   : Option Nat
  deriving DecidableEq, Repr

/-- A window of an endpoint or peer queue (R364), or of a partition's GLOBAL space (R363, R365). -/
structure Window where
  base : Nat
  len  : Nat
  deriving DecidableEq, Repr

/-- What a window opens: the partition's GLOBAL space, an endpoint, or a peer queue. -/
inductive WindowOf where
  | global | endpoint (i : Nat) | peer (i : Nat)
  deriving DecidableEq, Repr

/-- What the records of one collective must agree in (R321): the instruction, COUNT, OP, ETY, WTY and ROOT. -/
structure CollHead where
  kind  : Nat
  count : Nat
  op    : Nat
  ety   : Nat
  wty   : Nat
  root  : Nat
  deriving DecidableEq, Repr

/-- What a BIND creates or destroys (R365, R364, R348). -/
inductive BindReq where
  | endpoint (i : Nat) (rev : BitVec 16) (ws : List Window)
  | dropEndpoint (i : Nat)
  | queue (i : Nat) (rev : BitVec 16) (ws : List Window)
  | dropQueue (i : Nat)
  | peerSet (n : Nat) (queues : List Nat)
  | dropPeerSet (n : Nat)
  | replicaSet (n size index : Nat)
  | dropReplicaSet (n : Nat)
  | window (o : WindowOf) (w : Window)
  | dropWindow (o : WindowOf) (w : Window)
  deriving DecidableEq, Repr

/-- A packet that arrives at an Ultra Ethernet port (R363, R366). -/
inductive Packet where
  | readReply (req : Nat) (bytes : List Byte)
  | writeAck (req : Nat)
  | declined (req : Nat)
  | rdmaWrite (part off : Nat) (bytes : List Byte)
  | rdmaRead (part off len : Nat)
  | collective (part pset cseq pos : Nat) (head : CollHead) (wire : List Byte)
  | digest (part rset dseq index : Nat) (value : Word)
  | otherRevision (part : Nat) (id : Nat) (got bound : BitVec 16)
  | unsupported (port : Nat)
  deriving DecidableEq, Repr

/-- A packet as it arrives: one of a DET stream names the quantum that its sender released it in, and whether it is the last of that quantum (R324). -/
structure UePacket where
  pkt     : Packet
  quantum : Option (Nat × Bool)
  deriving DecidableEq, Repr

/-- What Ridge chooses when it places a launch (R108, R22, R23, R136): the origin of each group's region in clusters,
each shingle's origin in elements relative to its region, the die-code offset in 64-byte units per die, and for each edge
the ranks its stitched path visits; and the length of the image object as the loader learns it (log entry 79). -/
structure Place where
  origins  : List (Nat × Nat)
  shingles : List (Nat × Nat)
  cbase    : List (Nat × Nat)
  paths    : List (List Nat)
  len      : Nat := 2 ^ 26
  deriving DecidableEq, Repr

/-- A function whose READY bit is set at bring-up (R368). -/
inductive ReadyFn where
  | die (d : Nat) | stack (i : Nat) | port (j : Nat) | attestKey
  deriving DecidableEq, Repr

/-- One constructor per row of the opcode table. `p` is the predicate, `t` a type, `a` and `b` the consumers T0 and T1;
the other operands carry the names of the row's rule. Event rows carry what they act on, and the choices that the manual
leaves to firmware or to the outside. -/
inductive Instr where
  /-- Does nothing; a predicated NOP waits for its P value and then does nothing (R73). -/
  | nop (p : Pred)
  /-- Delivers the constant held in its literal words to two consumers (R74). -/
  | lit (p : Pred) (t : Ty) (a b : Target) (v : Word)
  /-- Delivers imm9 wrapped or converted to TY (R75). -/
  | imm (p : Pred) (t : Ty) (a : Target) (i : BitVec 9)
  /-- Copies a scalar or vector value from port A to two consumers (R184). -/
  | mov (p : Pred) (v : Bool) (a b : Target)
  /-- Delivers A when C is nonzero and B otherwise (R184). -/
  | sel (p : Pred) (v : Bool) (a b : Target)
  /-- Delivers a keep register as it stood at the start of the firing (R184). -/
  | rdk (p : Pred) (a : Target) (x : Bool) (n : Fin 16)
  /-- Holds a write of A to a keep register until commit (R184). -/
  | wrk (p : Pred) (x : Bool) (n : Fin 16)
  /-- Delivers a special register (R181). -/
  | rdsr (p : Pred) (a : Target) (r : BitVec 9)
  /-- Holds a write to a writable special register until commit (R182). -/
  | wrsr (p : Pred) (r : BitVec 9)
  /-- Branches to the block whose header is the literal word index, or raises BadTarget (R184). -/
  | br (p : Pred) (w : IWord)
  /-- Branches to the block whose header word index is on port A (R184). -/
  | bri (p : Pred)
  /-- Ends the firing with an immediate next phase (R184). -/
  | exit (p : Pred) (n : Fin 8)
  /-- Ends the firing with the next phase taken from port A (R184). -/
  | exitv (p : Pred)
  /-- Ends the firing and, if it commits, retires the actor (R184). -/
  | retire (p : Pred)
  /-- Raises SoftwareTrap with a 9-bit code (R184). -/
  | trap (p : Pred) (c : BitVec 9)
  /-- Ends the firing in the same phase and yields the next selection (R184). -/
  | yield (p : Pred)
  /-- Delivers the output of a LUT patch function for inputs A and B (R186). -/
  | xop (p : Pred) (n : Fin 8) (a b : Target)
  /-- Installs a patch bitstream from local memory at commit and clears the flip-flops (R186). -/
  | xopLoad (p : Pred)
  /-- Integer addition (R187). -/
  | add (p : Pred) (t : Ty) (a b : Target)
  /-- Integer subtraction (R187). -/
  | sub (p : Pred) (t : Ty) (a b : Target)
  /-- Adds a signed immediate (R187). -/
  | addi (p : Pred) (t : Ty) (a : Target) (i : BitVec 9)
  /-- Integer multiplication, low half (R187). -/
  | mul (p : Pred) (t : Ty) (a b : Target)
  /-- Integer multiplication, high half (R187). -/
  | mulh (p : Pred) (t : Ty) (a b : Target)
  /-- Integer multiply-add (R187). -/
  | mad (p : Pred) (t : Ty) (a b : Target)
  /-- Truncating integer division, defined for b = 0 (R187). -/
  | div (p : Pred) (t : Ty) (a b : Target)
  /-- Integer remainder, defined for b = 0 (R187). -/
  | rem (p : Pred) (t : Ty) (a b : Target)
  /-- Integer negation (R187). -/
  | neg (p : Pred) (t : Ty) (a b : Target)
  /-- Integer absolute value (R187). -/
  | abs (p : Pred) (t : Ty) (a b : Target)
  /-- Integer minimum (R187). -/
  | min (p : Pred) (t : Ty) (a b : Target)
  /-- Integer maximum (R187). -/
  | max (p : Pred) (t : Ty) (a b : Target)
  /-- Clamps a between b and c (R187). -/
  | clamp (p : Pred) (t : Ty) (a b : Target)
  /-- Bitwise AND (R187). -/
  | and (p : Pred) (t : Ty) (a b : Target)
  /-- Bitwise OR (R187). -/
  | or (p : Pred) (t : Ty) (a b : Target)
  /-- Bitwise XOR (R187). -/
  | xor (p : Pred) (t : Ty) (a b : Target)
  /-- Bitwise NOT (R187). -/
  | not (p : Pred) (t : Ty) (a b : Target)
  /-- a AND NOT b (R187). -/
  | andn (p : Pred) (t : Ty) (a b : Target)
  /-- Shift left by a port count (R187). -/
  | shl (p : Pred) (t : Ty) (a b : Target)
  /-- Logical shift right by a port count (R187). -/
  | shr (p : Pred) (t : Ty) (a b : Target)
  /-- Arithmetic shift right by a port count (R187). -/
  | sar (p : Pred) (t : Ty) (a b : Target)
  /-- Rotate left (R187). -/
  | rot (p : Pred) (t : Ty) (a b : Target)
  /-- Shift left by an immediate (R187). -/
  | shli (p : Pred) (t : Ty) (a : Target) (i : BitVec 9)
  /-- Logical shift right by an immediate (R187). -/
  | shri (p : Pred) (t : Ty) (a : Target) (i : BitVec 9)
  /-- Arithmetic shift right by an immediate (R187). -/
  | sari (p : Pred) (t : Ty) (a : Target) (i : BitVec 9)
  /-- Counts leading zeros (R187). -/
  | clz (p : Pred) (t : Ty) (a b : Target)
  /-- Counts trailing zeros (R187). -/
  | ctz (p : Pred) (t : Ty) (a b : Target)
  /-- Counts one bits (R187). -/
  | popc (p : Pred) (t : Ty) (a b : Target)
  /-- Extracts a bit field (R187). -/
  | bfx (p : Pred) (t : Ty) (a b : Target)
  /-- Inserts a bit field (R187). -/
  | bfi (p : Pred) (t : Ty) (a b : Target)
  /-- Sign-extends from n bits (R187). -/
  | sext (p : Pred) (t : Ty) (a b : Target)
  /-- Zero-extends from n bits (R187). -/
  | zext (p : Pred) (t : Ty) (a b : Target)
  /-- Integer equality compare (R188). -/
  | cmpeq (p : Pred) (t : Ty) (a b : Target)
  /-- Integer inequality compare (R188). -/
  | cmpne (p : Pred) (t : Ty) (a b : Target)
  /-- Integer less-than compare (R188). -/
  | cmplt (p : Pred) (t : Ty) (a b : Target)
  /-- Integer less-or-equal compare (R188). -/
  | cmple (p : Pred) (t : Ty) (a b : Target)
  /-- Compares with an immediate for equality (R188). -/
  | cmpeqi (p : Pred) (t : Ty) (a : Target) (i : BitVec 9)
  /-- Compares with an immediate for less-than (R188). -/
  | cmplti (p : Pred) (t : Ty) (a : Target) (i : BitVec 9)
  /-- Tests one bit of A (R188). -/
  | testb (p : Pred) (a : Target) (i : BitVec 9)
  /-- Predicate NOT (R188). -/
  | pnot (p : Pred) (a b : Target)
  /-- Predicate AND (R188). -/
  | pand (p : Pred) (a b : Target)
  /-- Predicate OR (R188). -/
  | por (p : Pred) (a b : Target)
  /-- Adds a scaled index to a pointer offset (R217). -/
  | lea (p : Pred) (s : BitVec 4) (a b : Target)
  /-- Builds a tagged pointer from space, owner and offset (R217). -/
  | ptag (p : Pred) (a b : Target)
  /-- Extracts the space field of a pointer (R217). -/
  | pspc (p : Pred) (a b : Target)
  /-- Extracts the owner field of a pointer (R217). -/
  | pown (p : Pred) (a b : Target)
  /-- Adds a scaled immediate to a pointer offset (R217). -/
  | padd (p : Pred) (s : BitVec 4) (a : Target) (i : BitVec 9)
  /-- Extracts the offset field of a pointer (R217). -/
  | poff (p : Pred) (a b : Target)
  /-- Rounded float addition (R194). -/
  | fadd (p : Pred) (t : Ty) (a b : Target)
  /-- Rounded float subtraction (R194). -/
  | fsub (p : Pred) (t : Ty) (a b : Target)
  /-- Rounded float multiplication (R194). -/
  | fmul (p : Pred) (t : Ty) (a b : Target)
  /-- Fused multiply-add rounded once (R194). -/
  | ffma (p : Pred) (t : Ty) (a b : Target)
  /-- Rounded float division (R194). -/
  | fdiv (p : Pred) (t : Ty) (a b : Target)
  /-- Float minimum with its NaN rules (R195). -/
  | fmin (p : Pred) (t : Ty) (a b : Target)
  /-- Float maximum with its NaN rules (R195). -/
  | fmax (p : Pred) (t : Ty) (a b : Target)
  /-- Clears the sign of a float (R194). -/
  | fabs (p : Pred) (t : Ty) (a b : Target)
  /-- Inverts the sign of a float (R194). -/
  | fneg (p : Pred) (t : Ty) (a b : Target)
  /-- Rounded square root (R194). -/
  | fsqrt (p : Pred) (t : Ty) (a b : Target)
  /-- Rounded reciprocal (R194). -/
  | frcp (p : Pred) (t : Ty) (a b : Target)
  /-- Rounded reciprocal square root (R194). -/
  | frsq (p : Pred) (t : Ty) (a b : Target)
  /-- Rounded 2 to the power a (R194). -/
  | fex2 (p : Pred) (t : Ty) (a b : Target)
  /-- Rounded base-2 logarithm (R194). -/
  | flg2 (p : Pred) (t : Ty) (a b : Target)
  /-- Delivers a one-hot class mask of a float (R196). -/
  | fcls (p : Pred) (t : Ty) (a b : Target)
  /-- Converts a scalar between types (R198). -/
  | cvt (p : Pred) (t : Ty) (a : Target) (s : Ty)
  /-- Ordered float equality compare (R197). -/
  | fcmpeq (p : Pred) (t : Ty) (a b : Target)
  /-- Ordered float less-than compare (R197). -/
  | fcmplt (p : Pred) (t : Ty) (a b : Target)
  /-- Ordered float less-or-equal compare (R197). -/
  | fcmple (p : Pred) (t : Ty) (a b : Target)
  /-- Unordered float compare (R197). -/
  | fcmpun (p : Pred) (t : Ty) (a b : Target)
  /-- Reads an unconsumed input token at an offset (R185). -/
  | peek (p : Pred) (t : BitVec 4) (a : Target) (v : Bool) (h o : Fin 16)
  /-- Writes an unpublished output slot at an offset (R185). -/
  | poke (p : Pred) (v : Bool) (h o : Fin 16)
  /-- Adds to the pending advance of an input handle (R185). -/
  | advr (p : Pred) (d : Bool) (h : Fin 16) (n : Fin 32)
  /-- Adds to the pending advance of an output handle (R185). -/
  | advw (p : Pred) (d : Bool) (h : Fin 16) (n : Fin 32)
  /-- Schedules anti-tokens on an input handle at commit (R185). -/
  | anti (p : Pred) (d : Bool) (h : Fin 16) (n : Fin 32)
  /-- Delivers the filled count of an input (R185). -/
  | hcnt (p : Pred) (a : Target) (h : Fin 16)
  /-- Delivers the free count of an output (R185). -/
  | hfree (p : Pred) (a : Target) (h : Fin 16)
  /-- Delivers the tag and kind of an input token (R185). -/
  | tkind (p : Pred) (a : Target) (h o : Fin 16)
  /-- Writes an output slot with an explicit kind and tag (R185). -/
  | emit (p : Pred) (k : BitVec 4) (v : Bool) (h o : Fin 16)
  /-- Reads a flit of a whole-tile input burst (R185). -/
  | peekt (p : Pred) (t : BitVec 4) (a : Target) (v : Bool) (h o : Fin 16)
  /-- Writes a flit of an unpublished output burst (R185). -/
  | poket (p : Pred) (v : Bool) (h o : Fin 16)
  /-- Delivers counter-based random numbers from a key and counter (R206). -/
  | rngc (p : Pred) (v s : Bool) (a b : Target)
  /-- Lane-wise addition (R200). -/
  | vadd (p : Pred) (t : Ty) (a b : Target)
  /-- Lane-wise subtraction (R200). -/
  | vsub (p : Pred) (t : Ty) (a b : Target)
  /-- Lane-wise multiplication (R200). -/
  | vmul (p : Pred) (t : Ty) (a b : Target)
  /-- Lane-wise fused multiply-add (R200). -/
  | vfma (p : Pred) (t : Ty) (a b : Target)
  /-- Lane-wise minimum (R200). -/
  | vmin (p : Pred) (t : Ty) (a b : Target)
  /-- Lane-wise maximum (R200). -/
  | vmax (p : Pred) (t : Ty) (a b : Target)
  /-- Lane-wise absolute value (R200). -/
  | vabs (p : Pred) (t : Ty) (a b : Target)
  /-- Lane-wise negation (R200). -/
  | vneg (p : Pred) (t : Ty) (a b : Target)
  /-- 512-bit AND (R200). -/
  | vand (p : Pred) (a b : Target)
  /-- 512-bit OR (R200). -/
  | vor (p : Pred) (a b : Target)
  /-- 512-bit XOR (R200). -/
  | vxor (p : Pred) (a b : Target)
  /-- Lane-wise shift left (R200). -/
  | vshl (p : Pred) (t : Ty) (a b : Target)
  /-- Lane-wise logical shift right (R200). -/
  | vshr (p : Pred) (t : Ty) (a b : Target)
  /-- Lane-wise arithmetic shift right (R200). -/
  | vsar (p : Pred) (t : Ty) (a b : Target)
  /-- Lane-wise equality mask (R200). -/
  | vcmpeq (p : Pred) (t : Ty) (a b : Target)
  /-- Lane-wise less-than mask (R200). -/
  | vcmplt (p : Pred) (t : Ty) (a b : Target)
  /-- Lane-wise less-or-equal mask (R200). -/
  | vcmple (p : Pred) (t : Ty) (a b : Target)
  /-- Selects lanes of A or B by a mask (R201). -/
  | vsel (p : Pred) (t : Ty) (a b : Target)
  /-- Broadcasts a scalar into every lane (R201). -/
  | vbcast (p : Pred) (t : Ty) (a b : Target)
  /-- Extracts one lane as a scalar (R201). -/
  | vext (p : Pred) (t : Ty) (a b : Target)
  /-- Inserts a scalar into one lane (R201). -/
  | vins (p : Pred) (t : Ty) (a b : Target)
  /-- Permutes lanes by an index vector (R201). -/
  | vperm (p : Pred) (t : Ty) (a b : Target)
  /-- Shuffles lanes from two vectors by an index vector (R201). -/
  | vshuf (p : Pred) (t : Ty) (a b : Target)
  /-- Reduces a vector in a pairwise tree (R202). -/
  | vred (p : Pred) (t : Ty) (a : Target) (m : Bool) (o : RedOp)
  /-- Sequential prefix sums of a vector (R203). -/
  | vscan (p : Pred) (t : Ty) (a b : Target)
  /-- Converts vector lanes, optionally by stochastic rounding (R199). -/
  | vcvt (p : Pred) (t : Ty) (a : Target) (s : Bool) (q : Fin 16) (c : Ty)
  /-- Lane-wise 2 to the power a (R200). -/
  | vex2 (p : Pred) (t : Ty) (a b : Target)
  /-- Lane-wise reciprocal (R200). -/
  | vrcp (p : Pred) (t : Ty) (a b : Target)
  /-- Lane-wise reciprocal square root (R200). -/
  | vrsq (p : Pred) (t : Ty) (a b : Target)
  /-- Delivers the k largest lanes or their indices (R204). -/
  | vtopk (p : Pred) (t : Ty) (a : Target) (x : Bool) (k : Fin 128)
  /-- Compresses selected lanes to the bottom (R201). -/
  | vcmprs (p : Pred) (t : Ty) (a b : Target)
  /-- Expands low lanes into selected lanes (R201). -/
  | vexpnd (p : Pred) (t : Ty) (a b : Target)
  /-- Element-mode dot product with accumulator (R205). -/
  | vdot (p : Pred) (t : Ty) (a : Target) (m : Bool) (c : Ty)
  /-- Fills lanes with a plus the lane index (R201). -/
  | viota (p : Pred) (t : Ty) (a b : Target)
  /-- Counts nonzero lanes (R201). -/
  | vcnt (p : Pred) (t : Ty) (a b : Target)
  /-- Sets the lane-group width and step counts (R208). -/
  | lglen (p : Pred) (a : Target) (e : Bool) (w : Fin 4)
  /-- Hands out finished series and loads new ones into empty groups (R209). -/
  | lgpack (p : Pred) (a : Target) (i o : Fin 16)
  /-- Decrements the step counts of active groups (R208). -/
  | lgdone (p : Pred) (a b : Target)
  /-- Advances every active group by one affine step with a shared matrix (R210). -/
  | bmv (p : Pred) (a : Target)
  /-- Advances covered groups by one affine step with per-group matrices (R210). -/
  | bmm (p : Pred) (a : Target) (q : Fin 4)
  /-- Loads a scalar from the element's local memory (R225). -/
  | ldl (p : Pred) (t : Ty) (a b : Target)
  /-- Stores a scalar to the element's local memory (R225). -/
  | stl (p : Pred) (t : Ty)
  /-- Loads 64 bytes locally, optionally waiting for and clearing full-empty bits (R225). -/
  | ldlv (p : Pred) (c w : Bool) (a b : Target)
  /-- Stores 64 bytes locally, optionally setting full-empty bits (R225). -/
  | stlv (p : Pred) (s : Bool)
  /-- Sets full-empty bits (R225). -/
  | feset (p : Pred) (q : Bool)
  /-- Clears full-empty bits (R225). -/
  | feclr (p : Pred) (q : Bool)
  /-- Tests full-empty bits (R225). -/
  | fetest (p : Pred) (q : Bool) (a b : Target)
  /-- Sends a scalar load, plain or versioned, to the home bank (R235). -/
  | ldg (p : Pred) (t : Ty) (a : Target) (d : Bool) (m : LdMode)
  /-- Sends a scalar store to the home bank (R235). -/
  | stg (p : Pred) (t : Ty) (a b : Target)
  /-- Sends a 64-byte load, plain or versioned (R235). -/
  | ldgv (p : Pred) (d : Bool) (m : LdMode) (a b : Target)
  /-- Sends a 64-byte store, optionally byte-masked (R235). -/
  | stgv (p : Pred) (m : Bool) (a b : Target)
  /-- Gathers lanes from indexed addresses (R235). -/
  | gath (p : Pred) (t : Ty) (a b : Target)
  /-- Scatters lanes to indexed addresses (R235). -/
  | scat (p : Pred) (t : Ty) (a b : Target)
  /-- Retires older stashed versions of a granule (R235). -/
  | vrcl (p : Pred) (a b : Target)
  /-- Reads the current version of a granule (R235). -/
  | vqry (p : Pred) (a b : Target)
  /-- Atomic read-modify-write at the home bank, delivering a completion value (R300). -/
  | atom (p : Pred) (t : Ty) (a : Target) (o : AtomOp)
  /-- Atomic read-modify-write delivering the old value (R300). -/
  | atomr (p : Pred) (t : Ty) (a : Target) (o : AtomOp)
  /-- Compare-and-swap at the home bank (R300). -/
  | cas (p : Pred) (t : Ty) (a b : Target)
  /-- Applies an atomic op to up to 16 indexed lanes (R301). -/
  | vatom (p : Pred) (t : Ty) (a : Target) (o : AtomOp)
  /-- Atomic float add rounded in RNE (R300). -/
  | faadd (p : Pred) (t : Ty) (a : Target) (r : Bool)
  /-- Requests a lock token, granted at once or after a registered wait (R304). -/
  | lockt (p : Pred) (a b : Target)
  /-- Frees a held lock token after earlier requests are acknowledged (R304). -/
  | unlockt (p : Pred) (a b : Target)
  /-- Queues a strided copy command on a Quarry engine (R247). -/
  | qcopy (p : Pred) (x : Bool) (e : Fin 8) (a b : Target)
  /-- Queues an indexed row-gather command on a Quarry engine (R247). -/
  | qgath (p : Pred) (x : Bool) (e : Fin 8) (a b : Target)
  /-- Queues a convolution unfold command on a Quarry engine (R247). -/
  | qunf (p : Pred) (x : Bool) (e : Fin 8) (a b : Target)
  /-- Waits until an engine command is final and delivers its status (R247). -/
  | qwait (p : Pred) (a b : Target)
  /-- Delivers the current status of an engine command (R247). -/
  | qstat (p : Pred) (a b : Target)
  /-- Queues a weight load into T.LOAD of a region (R278). -/
  | mloadw (p : Pred) (a b : Target)
  /-- Queues a tile-register swap in a region (R281). -/
  | mswap (p : Pred) (a b : Target)
  /-- Queues a pass of activation rows through a region (R278). -/
  | mma (p : Pred) (a b : Target)
  /-- Queues a setting of the weight scales of T.LOAD (R281). -/
  | mscale (p : Pred) (t : ScaleSel) (a b : Target)
  /-- Reads 16 accumulator cells (R282). -/
  | accrd (p : Pred) (a b : Target)
  /-- Writes 16 accumulator cells (R282). -/
  | accwr (p : Pred) (a b : Target)
  /-- Zeroes accumulator rows (R282). -/
  | accz (p : Pred) (a b : Target)
  /-- Queues a promotion of staged block-FP32 sums (R278). -/
  | mpromo (p : Pred) (a b : Target)
  /-- Scans a compressed or dense tensor level into a fibre stream (R259). -/
  | fscan (p : Pred) (a b : Target) (ih oh : Fin 16) (d : Fin 4) (root : Bool)
  /-- Delivers one side's payload of the latched ISECT match (R256). -/
  | fisect (p : Pred) (t : BitVec 4) (a : Target) (v s : Bool)
  /-- Delivers the union value or match word of the latched match (R256). -/
  | funion (p : Pred) (t : BitVec 4) (a : Target) (v w : Bool)
  /-- Copies a level-0 fibre replacing each reference (R261). -/
  | frep (p : Pred) (a b : Target) (ih oh : Fin 16) (d : Fin 4)
  /-- Reduces the fibres of a stream sequentially (R262). -/
  | fred (p : Pred) (t : Ty) (a b : Target) (ih oh : Fin 16) (d : Fin 4) (e : Bool) (o : RedOp)
  /-- Writes a stop token to an output slot (R263). -/
  | fstop (p : Pred) (d k : Fin 4) (h o : Fin 16)
  /-- Classifies an input token as element or stop level (R263). -/
  | fchk (p : Pred) (d : Fin 4) (a : Target) (h o : Fin 16)
  /-- Delivers an input token's coordinate, ranking stops above all (R263). -/
  | fcrd (p : Pred) (d : Fin 4) (a : Target) (h o : Fin 16)
  /-- Arrives at a barrier granule and waits for the next generation (R309). -/
  | bar (p : Pred) (a b : Target)
  /-- Registers a manual wait or hold entry (R312). -/
  | wreg (p : Pred) (h : Bool) (a b : Target)
  /-- Removes a manual wait-for entry (R312). -/
  | wdrop (p : Pred) (a b : Target)
  /-- Queries a wait-for entry by handle (R312). -/
  | wqry (p : Pred) (a b : Target)
  /-- Sends an item on a channel, waiting for credit (R310). -/
  | chsend (p : Pred) (a b : Target)
  /-- Receives an item from a channel, waiting if empty (R310). -/
  | chrecv (p : Pred) (a b : Target)
  /-- Returns credits on a channel (R310). -/
  | chcred (p : Pred) (a b : Target)
  /-- Waits until a granule's version reaches a value (R311). -/
  | waitv (p : Pred) (a b : Target)
  /-- Waits until the tick number reaches A (R313). -/
  | tkwait (p : Pred) (a b : Target)
  /-- Delivers the 64-bit tick number (R313). -/
  | tkrd (p : Pred) (a b : Target)
  /-- Starts a reduction collective (R321). -/
  | cred (p : Pred) (a b : Target)
  /-- Starts a broadcast collective (R321). -/
  | cbcast (p : Pred) (a b : Target)
  /-- Starts a gather collective (R321). -/
  | cgath (p : Pred) (a b : Target)
  /-- Occupies a chain step and waits for earlier steps to be acknowledged at a scope (R314). -/
  | fence (p : Pred) (sc : Fin 8) (a b : Target) (chain : Fin 1024) (st : Fin 4096)
  /-- Reads a launch record, assigns an id and enqueues the launch (R124). -/
  | launch (p : Pred) (a b : Target)
  /-- Launches with a group count read by a versioned load (R125). -/
  | launchi (p : Pred) (a b : Target)
  /-- Launches a timed launch starting at a named tick (R126). -/
  | launcht (p : Pred) (a b : Target)
  /-- Launches a successor spliced onto a predecessor's regions (R127). -/
  | splice (p : Pred) (a b : Target)
  /-- Delivers a launch's status word (R132). -/
  | lstat (p : Pred) (a b : Target)
  /-- Cancels a launch and delivers its prior status (R132). -/
  | lcancel (p : Pred) (a b : Target)
  /-- Prefetches a block, optionally decoding it (R145). -/
  | ipf (p : Pred) (d : Bool)
  /-- Prefetches and pins a block's lines, optionally its decoded copy (R145). -/
  | ipin (p : Pred) (d : Bool)
  /-- Removes the actor's pins on a block (R145). -/
  | iunpin (p : Pred)
  /-- Drops decoded copies and pins of one block or of the whole image (R145). -/
  | iinv (p : Pred) (x : Bool)
  /-- Submits a Thatch image to Ridge and waits for its verification status (R157). -/
  | thatch (p : Pred) (a b : Target)
  /-- Requests a snapshot latch of the partition's counters (R353). -/
  | snap (p : Pred) (k : Bool) (a b : Target)
  /-- Forms the CRC-64 of listed extents and optionally enters a replica vote (R349). -/
  | digest (p : Pred) (a b : Target)
  /-- Queues a statistics flush in a region (R288). -/
  | statf (p : Pred) (a b : Target)
  /-- At the start tick, dispatch clears ARMED in every record of a timed launch (R123). -/
  | armedClear (lid : Nat)
  /-- At a tick boundary each DET stream releases its quantum in stage order (R324). -/
  | detQuantumRelease (e : Nat)
  /-- A launch without progress for WDT tick boundaries is stopped (R340). -/
  | watchdog (lid : Nat)
  /-- At a step boundary replicas compare digests and minorities halt (R351). -/
  | replicaVote (part rset dseq : Nat)
  /-- A trigger latches every snapshot register of the partition (R353). -/
  | snapshotLatch (part : Nat) (external : Bool)
  /-- A cut not complete within 1,024 ticks is abandoned (R344). -/
  | preemptionAbandon (lid : Nat)
  /-- An Ultra Ethernet packet arrives and is served or refused (R363); one of a DET stream becomes visible at a tick boundary (R324). -/
  | uePacketReceive (k : UePacket)
  /-- A trap record enters the partition's trap queue, waiting if the ring is full (R332). -/
  | trapRecordWrite (part : Nat)
  /-- Ridge logs a trap record and stops the launch or runs the handler (R333). -/
  | ridgeTrapNotify (part : Nat)
  /-- The scheduler chooses a fireable actor, snapshots its handles and enters its entry block (R159). -/
  | firingSelection (rank : Nat)
  /-- The block becomes quiescent and either branches or ends the firing (R164). -/
  | blockQuiescence (rank : Nat)
  /-- A cancellable idle actor whose outputs all owe cancels its next firing (R177). -/
  | firingCancellation (rank la : Nat)
  /-- An actor whose inputs all show EOS is retired, popping EOS and emitting EOS (R171). -/
  | actorRetirement (rank la : Nat)
  /-- A flit lands at a router or FIFO, is PROT-checked and burst-checked (R17). -/
  | flitArrival (e : Nat) (err : FlitErr)
  /-- An anti-token removes the oldest token of its edge or becomes owed (R174). -/
  | antiTokenArrival (e : Nat)
  /-- An ISECT or UNION input stage skips a head or latches a match (R254). -/
  | joinInputStep (rank la : Nat)
  /-- A FORK actor copies its input token to every output (R178). -/
  | forkCopy (rank la : Nat)
  /-- A TURN actor pops an input token into a free block buffer (R285). -/
  | turnTokenIntake (rank la : Nat)
  /-- A TURN actor publishes one transposed token of a complete block (R285). -/
  | turnTokenPublish (rank la : Nat)
  /-- An owner node applies one update token to its local range (R303). -/
  | ownerUpdate (rank la : Nat)
  /-- The cluster memory interface translates and forwards a request in chain order (R233). -/
  | memoryRequestForward (req : Nat)
  /-- A home bank performs one event on one granule (R290). -/
  | homeBankEvent (req : Nat) (err : SoftErr)
  /-- A request waiting at its home is re-examined and performed once its condition holds (R290). -/
  | waitingRequestPerform (req : Nat)
  /-- A load's answer returns and is delivered to its consumers (R235). -/
  | loadAnswer (req : Nat)
  /-- A completion value is delivered once the request is acknowledged (R231). -/
  | completionValueDelivery (req : Nat)
  /-- Ridge maps the missing page on demand and replays, or declines (R372). -/
  | translationMissDecision (req : Nat)
  /-- A tile invocation ends and its held stores are released in order (R237). -/
  | invocationEnd (lid g : Nat)
  /-- A waiting LDLV.WF completes once its granules are full (R225). -/
  | ldlvWfRelease (rank slot : Nat)
  /-- A freed lock token is granted to the highest-priority waiter (R304). -/
  | lockGrant (req : Nat)
  /-- UNLOCKT frees its token once earlier requests are acknowledged (R304). -/
  | unlockRelease (req : Nat)
  /-- FENCE delivers once earlier chain steps are acknowledged at its scope (R314). -/
  | fenceComplete (req : Nat)
  /-- TKWAIT completes when the tick number reaches its operand (R313). -/
  | tkwaitRelease (rank slot : Nat)
  /-- QWAIT delivers once its command is final (R247). -/
  | qwaitRelease (rank slot : Nat)
  /-- A waiting engine command enters its engine's queue when room appears (R240). -/
  | engineCommandEnqueue (rank slot : Nat)
  /-- A Quarry engine performs its next queued command (R242). -/
  | engineCommandExecute (die eng : Nat)
  /-- Engine bytes enter a region's feed while an ASRC MMA needs them (R283). -/
  | regionFeed (die eng : Nat)
  /-- A waiting matrix command enters its region's queue when room appears (R269). -/
  | regionCommandEnqueue (rank slot : Nat)
  /-- A region loads weights into T.LOAD of every element (R279). -/
  | mloadwExecute (rg : Nat)
  /-- A region sets the scales of T.LOAD (R281). -/
  | mscaleExecute (rg : Nat)
  /-- The MSWAP token passes each element, exchanging its tile registers (R270). -/
  | mswapExecute (rg : Nat)
  /-- A region runs M activation rows and updates accumulator cells (R280). -/
  | mmaExecute (rg : Nat)
  /-- A region promotes staged sums into destination rows (R280). -/
  | mpromoExecute (rg : Nat)
  /-- The statistics root writes a flush record (R288). -/
  | statfExecute (rg : Nat)
  /-- A queued ACCRD, ACCWR or ACCZ is performed after earlier commands (R282). -/
  | accQueuedAccess (rg : Nat)
  /-- A collective gathers, quantises, combines, writes and completes (R321). -/
  | collectiveExecution (c : Nat)
  /-- DIGEST delivers its CRC after earlier requests are acknowledged (R349). -/
  | digestComplete (rank slot : Nat)
  /-- Ridge verifies the next submitted Thatch image and reports its status (R154). -/
  | thatchVerification
  /-- A verified image replaces every cluster's slots at the next tick boundary (R155). -/
  | thatchTakeEffect
  /-- Ridge takes the best queue head, checks, places, installs and binds it (R114). -/
  | ridgePlacement (part : Nat) (ch : Place)
  /-- A WAITING record's dependence granule reaches its version and it becomes QUEUED (R115). -/
  | launchDependenceMet (lid : Nat)
  /-- An actor with RECONF at every input head finishes and forwards RECONF (R129). -/
  | reconfActorFinish (rank la : Nat)
  /-- An element whose actors are all finished installs the spliced successor (R129). -/
  | elementSuccessorInstall (rank : Nat)
  /-- Ridge ends a launch whose actors have retired and counts are zero (R359). -/
  | launchEnd (lid : Nat)
  /-- The exchange tick number advances on every die in one cycle (R121). -/
  | tickBoundary
  /-- A newly set tick period takes effect at the next boundary (R121). -/
  | tickPeriodChange
  /-- When a handler launch ends, Ridge applies its ACTION (R334). -/
  | handlerAction (part seq : Nat)
  /-- Ridge opens a marker epoch and sources emit MARKER (R342). -/
  | preemptionOpen (lid : Nat)
  /-- An input records a marker and its actor stops and forwards MARKER (R343). -/
  | markerRecord (e : Nat)
  /-- The complete cut is saved and the regions released (R344). -/
  | cutComplete (lid : Nat)
  /-- Saved state is written back and elements restart in stage order (R347). -/
  | preemptionResume (lid : Nat)
  /-- A detected link error replays flits from the failed one (R135). -/
  | bridgeReplay (f : FlitAt)
  /-- A PTP message adjusts the module's time and lock state (R367): the port it arrives at and the grandmaster's time in it. -/
  | ptpMessage (port time : Nat)
  /-- Host command writing body bytes into a GLOBAL window (R365). -/
  | load (c : Cmd) (ptr : Word) (bytes : List Byte)
  /-- Host command launching a root configuration from the launch record that is its body (R365). -/
  | start (c : CmdHead) (body : List Byte)
  /-- Host command cancelling one or every launch (R365). -/
  | stop (c : Cmd) (lid : Nat)
  /-- Host command returning status, ready words, snapshots and counters (R365). -/
  | query (c : Cmd) (q : QueryKind)
  /-- Host command returning a signed quote of the measurement; its body is the nonce (R370). -/
  | attest (c : CmdHead) (nonce : List Byte)
  /-- Host command submitting the Thatch image that is its body (R365). -/
  | thatchCommand (c : CmdHead) (image : List Byte)
  /-- Host command writing or clearing a page-table entry (R365). -/
  | mapPage (c : Cmd) (off level : Nat) (entry : Word)
  /-- Host SET of the tick period (R121), and of the port that faces the grandmaster where the command names one (R367). -/
  | setTickPeriod (c : Cmd) (period : TickSetting)
  /-- Host SET renumbering the ticks from an epoch (R367). -/
  | setTickEpoch (c : Cmd) (epoch : Nat)
  /-- Host SET of the watchdog period (R340). -/
  | setWdt (c : Cmd) (ticks : Nat)
  /-- Host SET of a tick-aligned snapshot trigger (R353). -/
  | setSnapshotTick (c : Cmd) (tick : Nat)
  /-- Host command creating or destroying endpoints, queues, windows and sets (R365). -/
  | bind (c : Cmd) (b : BindReq)
  /-- Host command registering the handler configuration and trap log base (R365). -/
  | handler (c : Cmd) (rec : Vec) (logBase : Nat)
  /-- Host command dropping every stash entry of a partition (R362). -/
  | reclaim (c : Cmd)
  /-- After reset the module verifies its firmware stages and record and reports readiness (R368). -/
  | moduleReset (modpos : BitVec 6) (bootsrc recov : Bool)
  /-- Input voltage outside 46 to 54 V powers the module off (R371). -/
  | powerLoss
  /-- A die at 105 °C lowers its arithmetic rate (R371). -/
  | thermalThrottle (die : Nat) (hot : Bool)
  /-- A die at 115 °C powers the module off without records (R371). -/
  | thermalShutdown
  /-- A function (a die, an HBM5 stack, an Ultra Ethernet port, the attestation key) finishes its bring-up and sets its READY bit, after which QUEUED launches on that die may be placed (R368). -/
  | functionReady (f : ReadyFn)
  /-- Background scrubbing of HBM5 finds an error, corrects a single-bit one or raises MemoryUncorrectable with LID 0 (R329). -/
  | memoryScrub (granule : Nat) (err : SoftErr)
  deriving DecidableEq, Repr

/-- One thing the machine can do next: an element issues the word of a slot of its running firing, or one of the
part's own steps or events takes place. -/
inductive Op where
  | issue (rank id : Nat)
  | event (i : Instr)
  deriving DecidableEq, Repr, Inhabited

/-- An operation, the reference-clock cycles that pass before it, and the granules of HBM5 in which an uncorrectable error comes up in that
time (R227). -/
structure Turn where
  op : Op
  dt : Nat
  upset : List Nat := []
  deriving DecidableEq, Repr, Inhabited

end Sys2Proof
end

