-- ==== Sys2Proof/Config.lean ====
section
/-! DEFINITION. What the manual leaves to an implementation or leaves open, as constants without a body: no proof can see a value,
and a claim holds whatever they are. Each is named in the assumption log. -/

namespace Sys2Proof.Config

/-- DESIGN CHOICE [1]: which operation comes next, and how many cycles pass, when the agenda names none (R24: nothing is
promised about timing). The argument counts the choices made so far. -/
opaque freeTurn : Nat → Turn

/-- UNVERIFIED [2]: whether an XOP bitstream has a valid header word (R186 gives no layout of it). -/
opaque xopValid : List Byte → Bool

/-- UNVERIFIED [2]: the output of patch function `n` for inputs A, B and the flip-flops (R186 gives no bitstream layout). -/
opaque xopOut (bitstream : List Byte) (n : Nat) (a b : Word) (ff : BitVec 128) : Word

/-- UNVERIFIED [2]: the flip-flops after patch function `n` (R186). -/
opaque xopFlops (bitstream : List Byte) (n : Nat) (a b : Word) (ff : BitVec 128) : BitVec 128

/-- UNVERIFIED [7]: output `sel` of a Thatch patch region for the inputs (w, b, p) (R148); LUTSZ = 0 never asks it (R153). -/
opaque thatchLut (patch : List Byte) (sel : Nat) (w : IWord) (bid part : Nat) : Bool

/-- UNVERIFIED [8]: the modulus of Krytlyn's RSA-4096 key, which the manual does not print (R154). -/
opaque krytlynModulus : Nat

/-- UNVERIFIED [8]: the exponent of Krytlyn's RSA-4096 key (R154). -/
opaque krytlynExponent : Nat

/-- UNVERIFIED [8]: the signature of a quote under the module's attestation key (R370). -/
opaque attestSign : List Byte → List Byte

/-- UNVERIFIED [8]: the module serial in a quote (R370). -/
opaque moduleSerial : Word

/-- DESIGN CHOICE [9]: which of the reads and writes that an engine command may make next it makes; outside a DET launch the order is open
(R242). The arguments are the command's serial and the number of its event. -/
opaque engineNext (serial turn : Nat) : Nat

/-- DESIGN CHOICE [23]: the group scale of an INT4 weight load that names no scale array (R51, R274, R279). -/
opaque groupScale (serial i : Nat) : BitVec 16

/-- DESIGN CHOICE [24]: the weight scale s_w of a column that a promotion reads where T.ACT holds no block-FP32 scales (R268, R280). -/
opaque promoScale (serial col : Nat) : BitVec 32

/-- DESIGN CHOICE [21]: whether a load of a read-only page is answered from the cluster's cache; the manual allows either (R222). -/
opaque rocAnswers : Nat → Bool

/-- UNVERIFIED [33]: what a LOAD of firmware in recovery leaves in flash (R368 gives no layout of it): whether stage 1 and the Ridge firmware
verify (index 0 and 1) after bytes were loaded at a pointer. -/
opaque firmwareOk (ptr : Word) (bytes : List Byte) (index : Nat) : Bool

/-- UNVERIFIED [33]: the digest of stage 1, the Ridge firmware or the configuration record (index 0 to 2) after such a load. -/
opaque firmwareDigest (ptr : Word) (bytes : List Byte) (index : Nat) : BitVec 512

/-- UNVERIFIED [33]: the partitions of the configuration record that such a load leaves in the bank, and the module channel's key in it. -/
opaque firmwareRecord (ptr : Word) (bytes : List Byte) : List (Nat × PartCfg) × PubKey

/-- UNVERIFIED [33]: the operator key under which the signature of that record verifies, 0 for none. -/
opaque firmwareRecordKey (ptr : Word) (bytes : List Byte) : Nat

/-- DESIGN CHOICE [82]: which of the eight ports the congestion control sends a message by (R364). The argument is the message's number. -/
opaque sendPort : Nat → Nat

/-- UNVERIFIED [77]: the PROT field of a flit, a SECDED code over KIND, TAG and PAYLOAD that R16 names and does not print. The argument is
bits [547:0] of the flit. -/
opaque protOf : BitVec 548 → BitVec 12

end Sys2Proof.Config
end

