-- ==== Sys2Proof/WellFormed.lean ====
section
/-! DEFINITION. Which instructions are well formed: the checks a decoder makes on one word and its literals, each from the
rule that names it (IllegalEncoding R54, R67, R143; BadSlot R59, R60), and the ranges of the event rows' operands. -/

namespace Sys2Proof

/-- Width in bits (R69). -/
def Ty.width : Ty → Nat
  | .i8 | .n8 | .e4m3 | .e5m2 => 8
  | .i16 | .n16 | .bf16 | .f16 => 16
  | .i32 | .n32 | .f32 => 32
  | .i64 | .n64 => 64
  | .i4 | .n4 => 4

/-- Lane count (R53). -/
def Ty.lanes (t : Ty) : Nat := 512 / t.width

/-- Signed integer types (R69). -/
def Ty.isSigned : Ty → Bool
  | .i8 | .i16 | .i32 | .i64 | .i4 => true
  | .n8 | .n16 | .n32 | .n64 | .n4 | .f32 | .bf16 | .f16 | .e4m3 | .e5m2 => false

/-- Float types (R69). -/
def Ty.isFloat : Ty → Bool
  | .f32 | .bf16 | .f16 | .e4m3 | .e5m2 => true
  | .i8 | .n8 | .i16 | .n16 | .i32 | .n32 | .i64 | .n64 | .i4 | .n4 => false

/-- Integer types (R187). -/
def Ty.isInt (t : Ty) : Bool := !t.isFloat

/-- The types of scalar and vector float arithmetic (R194, R200). -/
def Ty.isArith : Ty → Bool
  | .f32 | .bf16 | .f16 => true
  | .i8 | .n8 | .i16 | .n16 | .i32 | .n32 | .i64 | .n64 | .e4m3 | .e5m2 | .i4 | .n4 => false

/-- Types of 64 bits, whose LIT carries two literal words (R74). -/
def Ty.isWide (t : Ty) : Bool := t.width == 64

/-- A type whose width is whole bytes: memory instructions take TY 0..12 (R225, R235). -/
def Ty.isMem (t : Ty) : Bool := t.width != 4

/-- FP8 types (R205). -/
def Ty.isFp8 (t : Ty) : Bool := t == .e4m3 || t == .e5m2

/-- The TY code of a type (R69). -/
def Ty.code : Ty → BitVec 4
  | .i8 => 0 | .n8 => 1 | .i16 => 2 | .n16 => 3 | .i32 => 4 | .n32 => 5 | .i64 => 6 | .n64 => 7
  | .f32 => 8 | .bf16 => 9 | .f16 => 10 | .e4m3 => 11 | .e5m2 => 12 | .i4 => 13 | .n4 => 14

/-- The type a TY code names; code 15 names none (R69). -/
def Ty.ofCode (c : BitVec 4) : Option Ty :=
  match c.toNat with
  | 0 => some .i8 | 1 => some .n8 | 2 => some .i16 | 3 => some .n16 | 4 => some .i32 | 5 => some .n32
  | 6 => some .i64 | 7 => some .n64 | 8 => some .f32 | 9 => some .bf16 | 10 => some .f16 | 11 => some .e4m3
  | 12 => some .e5m2 | 13 => some .i4 | 14 => some .n4 | _ => none

/-- The literal of a LIT fits its type: sign extension for I types, zero extension otherwise (R74). -/
def litFits (t : Ty) (v : Word) : Bool :=
  t.isWide || (v.toNat < 2 ^ 32 &&
    (if t.isSigned then (v.setWidth 32 == ((v.setWidth t.width).signExtend 32)) else v.toNat < 2 ^ t.width))

/-- PEEK's and FISECT's TY: a type when V = 0, reserved when V = 1 (R185, R256). -/
def peekTyOk (t : BitVec 4) (v : Bool) : Bool := if v then t == 0 else t != 15

/-- VCVT's operand conditions (R199). -/
def vcvtOk (d : Ty) (st : Bool) (q : Nat) (s : Ty) : Bool :=
  (if s.lanes > d.lanes then q < s.lanes / d.lanes
   else if d.lanes > s.lanes then q < d.lanes / s.lanes else q == 0) &&
  (!st || (s == .f32 && (d == .bf16 || d == .f16 || d == .e4m3 || d == .e5m2)))

/-- VDOT's operand pairs (R205). -/
def vdotOk (a : Ty) (mx : Bool) (b : Ty) : Bool :=
  (a.isFp8 && b.isFp8) ||
  (!mx && ((a == .bf16 && b == .bf16) || ((a == .i8 || a == .n8) && (b == .i8 || b == .n8))))

/-- The types of scalar atomics, TY 4..7 (R299). -/
def atomTyOk (t : Ty) : Bool := t == .i32 || t == .n32 || t == .i64 || t == .n64

/-- Element ranks run 0..16383 (R6). -/
def rankOk (r : Nat) : Bool := r < 16384

/-- An element holds at most 8 actors (R9). -/
def laOk (la : Nat) : Bool := la < 8

/-- The word is no IllegalEncoding: types, reserved fields and operand ranges (R54, R67, R143), and, for an event row, its
operands name parts the module has. -/
def Instr.encOk : Instr → Bool
  | .add _ t _ _ | .sub _ t _ _ | .mul _ t _ _ | .mulh _ t _ _ | .mad _ t _ _ | .div _ t _ _ | .rem _ t _ _
    | .neg _ t _ _ | .abs _ t _ _ | .min _ t _ _ | .max _ t _ _ | .clamp _ t _ _ | .and _ t _ _ | .or _ t _ _
    | .xor _ t _ _ | .not _ t _ _ | .andn _ t _ _ | .shl _ t _ _ | .shr _ t _ _ | .sar _ t _ _ | .rot _ t _ _
    | .clz _ t _ _ | .ctz _ t _ _ | .popc _ t _ _ | .bfx _ t _ _ | .bfi _ t _ _ | .sext _ t _ _ | .zext _ t _ _
    | .cmpeq _ t _ _ | .cmpne _ t _ _ | .cmplt _ t _ _ | .cmple _ t _ _ | .vshl _ t _ _ | .vshr _ t _ _
    | .vsar _ t _ _ | .viota _ t _ _ => t.isInt
  | .addi _ t _ _ | .shli _ t _ _ | .shri _ t _ _ | .sari _ t _ _ | .cmpeqi _ t _ _ | .cmplti _ t _ _ => t.isInt
  | .fadd _ t _ _ | .fsub _ t _ _ | .fmul _ t _ _ | .ffma _ t _ _ | .fdiv _ t _ _ | .fmin _ t _ _ | .fmax _ t _ _
    | .fabs _ t _ _ | .fneg _ t _ _ | .fsqrt _ t _ _ | .frcp _ t _ _ | .frsq _ t _ _ | .fex2 _ t _ _ | .flg2 _ t _ _
    | .fcls _ t _ _ | .fcmpeq _ t _ _ | .fcmplt _ t _ _ | .fcmple _ t _ _ | .fcmpun _ t _ _ | .vex2 _ t _ _
    | .vrcp _ t _ _ | .vrsq _ t _ _ => t.isArith
  | .vadd _ t _ _ | .vsub _ t _ _ | .vmul _ t _ _ | .vfma _ t _ _ | .vmin _ t _ _ | .vmax _ t _ _ | .vabs _ t _ _
    | .vneg _ t _ _ | .vcmpeq _ t _ _ | .vcmplt _ t _ _ | .vcmple _ t _ _ | .vscan _ t _ _ | .vred _ t _ _ _
    | .fred _ t _ _ _ _ _ _ _ => t.isInt || t.isArith
  | .ldl _ t _ _ | .stl _ t | .ldg _ t _ _ _ | .stg _ t _ _ | .gath _ t _ _ | .scat _ t _ _ => t.isMem
  | .lit _ t _ _ v => litFits t v
  | .imm _ t _ _ => t.isInt || t.isArith
  | .rdsr _ _ r => r.toNat < 16
  | .wrsr _ r => r == 8 || r == 9 || r == 12
  | .testb _ _ i => i.toNat < 64
  | .lea _ s _ _ | .padd _ s _ _ => s.toNat < 7
  | .peek _ t _ v _ _ | .peekt _ t _ v _ _ => peekTyOk t v
  | .vcvt _ t _ s q c => vcvtOk t s q.val c
  | .vtopk _ t _ x k => (t.isInt || t.isArith) && k.val < t.lanes && !(x && t.width == 4)
  | .vdot _ t _ m c => vdotOk t m c
  | .lglen _ _ _ w => w.val != 3
  | .atom _ t _ _ | .atomr _ t _ _ => atomTyOk t
  | .cas _ t _ _ => atomTyOk t
  | .vatom _ t _ o => t == .i32 || t == .n32 || (t == .f32 && o == .add)
  | .faadd _ t _ _ => t == .f32 || t == .bf16
  | .fscan _ _ _ ih _ d root => if root then ih.val == 0 else d.val != 3
  | .fisect _ t _ v _ => peekTyOk t v
  | .funion _ t _ v w => !(v && w) && peekTyOk t (v || w)
  | .fstop _ d k _ _ => k.val ≤ d.val
  | .nop _ | .mov _ _ _ _ | .sel _ _ _ _ | .rdk _ _ _ _ | .wrk _ _ _ | .br _ _ | .bri _ | .exit _ _ | .exitv _
    | .retire _ | .trap _ _ | .yield _ | .xop _ _ _ _ | .xopLoad _ | .pnot _ _ _ | .pand _ _ _ | .por _ _ _
    | .ptag _ _ _ | .pspc _ _ _ | .pown _ _ _ | .poff _ _ _ | .cvt _ _ _ _ | .poke _ _ _ _ | .advr _ _ _ _
    | .advw _ _ _ _ | .anti _ _ _ _ | .hcnt _ _ _ | .hfree _ _ _ | .tkind _ _ _ _ | .emit _ _ _ _ _ | .poket _ _ _ _
    | .rngc _ _ _ _ _ | .vand _ _ _ | .vor _ _ _ | .vxor _ _ _ | .vsel _ _ _ _ | .vbcast _ _ _ _ | .vext _ _ _ _
    | .vins _ _ _ _ | .vperm _ _ _ _ | .vshuf _ _ _ _ | .vcmprs _ _ _ _ | .vexpnd _ _ _ _ | .vcnt _ _ _ _
    | .lgpack _ _ _ _ | .lgdone _ _ _ | .bmv _ _ | .bmm _ _ _ | .ldlv _ _ _ _ _ | .stlv _ _ | .feset _ _ | .feclr _ _
    | .fetest _ _ _ _ | .ldgv _ _ _ _ _ | .stgv _ _ _ _ | .vrcl _ _ _ | .vqry _ _ _ | .lockt _ _ _ | .unlockt _ _ _
    | .qcopy _ _ _ _ _ | .qgath _ _ _ _ _ | .qunf _ _ _ _ _ | .qwait _ _ _ | .qstat _ _ _ | .mloadw _ _ _
    | .mswap _ _ _ | .mma _ _ _ | .mscale _ _ _ _ | .accrd _ _ _ | .accwr _ _ _ | .accz _ _ _ | .mpromo _ _ _
    | .frep _ _ _ _ _ _ | .fchk _ _ _ _ _ | .fcrd _ _ _ _ _ | .bar _ _ _ | .wreg _ _ _ _ | .wdrop _ _ _ | .wqry _ _ _
    | .chsend _ _ _ | .chrecv _ _ _ | .chcred _ _ _ | .waitv _ _ _ | .tkwait _ _ _ | .tkrd _ _ _ | .cred _ _ _
    | .cbcast _ _ _ | .cgath _ _ _ | .fence _ _ _ _ _ _ | .launch _ _ _ | .launchi _ _ _ | .launcht _ _ _
    | .splice _ _ _ | .lstat _ _ _ | .lcancel _ _ _ | .ipf _ _ | .ipin _ _ | .iunpin _ | .iinv _ _ | .thatch _ _ _
    | .snap _ _ _ _ | .digest _ _ _ | .statf _ _ _ => true
  | .firingSelection rank | .blockQuiescence rank | .ldlvWfRelease rank _ | .tkwaitRelease rank _
    | .qwaitRelease rank _ | .engineCommandEnqueue rank _ | .regionCommandEnqueue rank _ | .digestComplete rank _
    | .elementSuccessorInstall rank => rankOk rank
  | .firingCancellation rank la | .actorRetirement rank la | .joinInputStep rank la | .forkCopy rank la
    | .turnTokenIntake rank la | .turnTokenPublish rank la | .ownerUpdate rank la | .reconfActorFinish rank la => rankOk rank && laOk la
  | .flitArrival _ _ | .antiTokenArrival _ | .memoryRequestForward _ | .homeBankEvent _ _ | .waitingRequestPerform _
    | .loadAnswer _ | .completionValueDelivery _ | .translationMissDecision _ | .invocationEnd _ _ | .lockGrant _
    | .unlockRelease _ | .fenceComplete _ | .mloadwExecute _ | .mscaleExecute _ | .mswapExecute _ | .mmaExecute _
    | .mpromoExecute _ | .statfExecute _ | .accQueuedAccess _ | .collectiveExecution _ | .thatchVerification
    | .thatchTakeEffect | .launchDependenceMet _ | .armedClear _ | .launchEnd _ | .tickBoundary | .tickPeriodChange
    | .detQuantumRelease _ | .watchdog _ | .preemptionOpen _ | .markerRecord _ | .cutComplete _ | .preemptionAbandon _
    | .preemptionResume _ | .bridgeReplay _ | .uePacketReceive _ | .ptpMessage _ _ | .moduleReset _ _ _ | .powerLoss
    | .thermalShutdown | .functionReady _ | .memoryScrub _ _ => true
  | .engineCommandExecute die eng | .regionFeed die eng => die < 64 && eng < 8
  | .ridgePlacement part _ | .trapRecordWrite part | .ridgeTrapNotify part | .handlerAction part _
    | .replicaVote part _ _ | .snapshotLatch part _ => part < 32
  | .start c _ | .attest c _ | .thatchCommand c _ => c.chan < 33
  | .load c _ _ | .stop c _ | .query c _ | .mapPage c _ _ _
    | .setTickPeriod c _ | .setTickEpoch c _ | .setWdt c _ | .setSnapshotTick c _ | .bind c _ | .handler c _ _
    | .reclaim c => c.chan < 33
  | .thermalThrottle die _ => die < 64

/-- The consumer fields of an instruction, T0 first (R59). -/
def Instr.targets : Instr → List Target
  | .lit _ _ a b _ | .mov _ _ a b | .sel _ _ a b | .xop _ _ a b | .add _ _ a b | .sub _ _ a b | .mul _ _ a b
    | .mulh _ _ a b | .mad _ _ a b | .div _ _ a b | .rem _ _ a b | .neg _ _ a b | .abs _ _ a b | .min _ _ a b
    | .max _ _ a b | .clamp _ _ a b | .and _ _ a b | .or _ _ a b | .xor _ _ a b | .not _ _ a b | .andn _ _ a b
    | .shl _ _ a b | .shr _ _ a b | .sar _ _ a b | .rot _ _ a b | .clz _ _ a b | .ctz _ _ a b | .popc _ _ a b
    | .bfx _ _ a b | .bfi _ _ a b | .sext _ _ a b | .zext _ _ a b | .cmpeq _ _ a b | .cmpne _ _ a b | .cmplt _ _ a b
    | .cmple _ _ a b | .pnot _ a b | .pand _ a b | .por _ a b | .lea _ _ a b | .ptag _ a b | .pspc _ a b | .pown _ a b
    | .poff _ a b | .fadd _ _ a b | .fsub _ _ a b | .fmul _ _ a b | .ffma _ _ a b | .fdiv _ _ a b | .fmin _ _ a b
    | .fmax _ _ a b | .fabs _ _ a b | .fneg _ _ a b | .fsqrt _ _ a b | .frcp _ _ a b | .frsq _ _ a b | .fex2 _ _ a b
    | .flg2 _ _ a b | .fcls _ _ a b | .fcmpeq _ _ a b | .fcmplt _ _ a b | .fcmple _ _ a b | .fcmpun _ _ a b
    | .rngc _ _ _ a b | .vadd _ _ a b | .vsub _ _ a b | .vmul _ _ a b | .vfma _ _ a b | .vmin _ _ a b | .vmax _ _ a b
    | .vabs _ _ a b | .vneg _ _ a b | .vand _ a b | .vor _ a b | .vxor _ a b | .vshl _ _ a b | .vshr _ _ a b
    | .vsar _ _ a b | .vcmpeq _ _ a b | .vcmplt _ _ a b | .vcmple _ _ a b | .vsel _ _ a b | .vbcast _ _ a b
    | .vext _ _ a b | .vins _ _ a b | .vperm _ _ a b | .vshuf _ _ a b | .vscan _ _ a b | .vex2 _ _ a b | .vrcp _ _ a b
    | .vrsq _ _ a b | .vcmprs _ _ a b | .vexpnd _ _ a b | .viota _ _ a b | .vcnt _ _ a b | .lgdone _ a b
    | .ldl _ _ a b | .ldlv _ _ _ a b | .fetest _ _ a b | .stg _ _ a b | .ldgv _ _ _ a b | .stgv _ _ a b
    | .gath _ _ a b | .scat _ _ a b | .vrcl _ a b | .vqry _ a b | .cas _ _ a b | .lockt _ a b | .unlockt _ a b
    | .qcopy _ _ _ a b | .qgath _ _ _ a b | .qunf _ _ _ a b | .qwait _ a b | .qstat _ a b | .mloadw _ a b
    | .mswap _ a b | .mma _ a b | .mscale _ _ a b | .accrd _ a b | .accwr _ a b | .accz _ a b | .mpromo _ a b
    | .fscan _ a b _ _ _ _ | .frep _ a b _ _ _ | .fred _ _ a b _ _ _ _ _ | .bar _ a b | .wreg _ _ a b | .wdrop _ a b
    | .wqry _ a b | .chsend _ a b | .chrecv _ a b | .chcred _ a b | .waitv _ a b | .tkwait _ a b | .tkrd _ a b
    | .cred _ a b | .cbcast _ a b | .cgath _ a b | .fence _ _ a b _ _ | .launch _ a b | .launchi _ a b
    | .launcht _ a b | .splice _ a b | .lstat _ a b | .lcancel _ a b | .thatch _ a b | .snap _ _ a b | .digest _ a b
    | .statf _ a b => [a, b]
  | .imm _ _ a _ | .rdk _ a _ _ | .rdsr _ a _ | .addi _ _ a _ | .shli _ _ a _ | .shri _ _ a _ | .sari _ _ a _
    | .cmpeqi _ _ a _ | .cmplti _ _ a _ | .testb _ a _ | .padd _ _ a _ | .cvt _ _ a _ | .peek _ _ a _ _ _
    | .hcnt _ a _ | .hfree _ a _ | .tkind _ a _ _ | .peekt _ _ a _ _ _ | .vred _ _ a _ _ | .vcvt _ _ a _ _ _
    | .vtopk _ _ a _ _ | .vdot _ _ a _ _ | .lglen _ a _ _ | .lgpack _ a _ _ | .bmv _ a | .bmm _ a _ | .ldg _ _ a _ _
    | .atom _ _ a _ | .atomr _ _ a _ | .vatom _ _ a _ | .faadd _ _ a _ | .fisect _ _ a _ _ | .funion _ _ a _ _
    | .fchk _ _ a _ _ | .fcrd _ _ a _ _ => [a]
  | .nop _ | .wrk _ _ _ | .wrsr _ _ | .br _ _ | .bri _ | .exit _ _ | .exitv _ | .retire _ | .trap _ _ | .yield _
    | .xopLoad _ | .poke _ _ _ _ | .advr _ _ _ _ | .advw _ _ _ _ | .anti _ _ _ _ | .emit _ _ _ _ _ | .poket _ _ _ _
    | .stl _ _ | .stlv _ _ | .feset _ _ | .feclr _ _ | .fstop _ _ _ _ _ | .ipf _ _ | .ipin _ _ | .iunpin _ | .iinv _ _
    | .firingSelection _ | .blockQuiescence _ | .firingCancellation _ _ | .actorRetirement _ _ | .flitArrival _ _
    | .antiTokenArrival _ | .joinInputStep _ _ | .forkCopy _ _ | .turnTokenIntake _ _ | .turnTokenPublish _ _
    | .ownerUpdate _ _ | .memoryRequestForward _ | .homeBankEvent _ _ | .waitingRequestPerform _ | .loadAnswer _
    | .completionValueDelivery _ | .translationMissDecision _ | .invocationEnd _ _ | .ldlvWfRelease _ _ | .lockGrant _
    | .unlockRelease _ | .fenceComplete _ | .tkwaitRelease _ _ | .qwaitRelease _ _ | .engineCommandEnqueue _ _
    | .engineCommandExecute _ _ | .regionFeed _ _ | .regionCommandEnqueue _ _ | .mloadwExecute _ | .mscaleExecute _
    | .mswapExecute _ | .mmaExecute _ | .mpromoExecute _ | .statfExecute _ | .accQueuedAccess _
    | .collectiveExecution _ | .digestComplete _ _ | .thatchVerification | .thatchTakeEffect | .ridgePlacement _ _
    | .launchDependenceMet _ | .armedClear _ | .reconfActorFinish _ _ | .elementSuccessorInstall _ | .launchEnd _
    | .tickBoundary | .tickPeriodChange | .detQuantumRelease _ | .watchdog _ | .trapRecordWrite _ | .ridgeTrapNotify _
    | .handlerAction _ _ | .preemptionOpen _ | .markerRecord _ | .cutComplete _ | .preemptionAbandon _
    | .preemptionResume _ | .replicaVote _ _ _ | .snapshotLatch _ _ | .bridgeReplay _ | .uePacketReceive _
    | .ptpMessage _ _ | .load _ _ _ | .start _ _ | .stop _ _ | .query _ _ | .attest _ _ | .thatchCommand _ _
    | .mapPage _ _ _ _ | .setTickPeriod _ _ | .setTickEpoch _ _ | .setWdt _ _ | .setSnapshotTick _ _ | .bind _ _
    | .handler _ _ _ | .reclaim _ | .moduleReset _ _ _ | .powerLoss | .thermalThrottle _ _ | .thermalShutdown
    | .functionReady _ | .memoryScrub _ _ => []

/-- A consumer field an ordinary word may hold: a listed special code or a slot (R59). -/
def Target.listed : Target → Bool
  | .slot _ _ | .discard | .keep _ | .out _ => true
  | .orig _ | .reserved _ => false

/-- Every check on one word passes. -/
def Instr.wf (i : Instr) : Bool := i.encOk && i.targets.all Target.listed

/-- A well-formed instruction: what the decoder answers, and what the encoder is the inverse of. -/
abbrev Instr.WellFormed (i : Instr) : Prop := i.wf = true

/-- The instruction rows' predicate (R56); event rows have none. -/
def Instr.pred : Instr → Pred
  | .nop p | .lit p _ _ _ _ | .imm p _ _ _ | .mov p _ _ _ | .sel p _ _ _ | .rdk p _ _ _ | .wrk p _ _ | .rdsr p _ _
    | .wrsr p _ | .br p _ | .bri p | .exit p _ | .exitv p | .retire p | .trap p _ | .yield p | .xop p _ _ _
    | .xopLoad p | .add p _ _ _ | .sub p _ _ _ | .addi p _ _ _ | .mul p _ _ _ | .mulh p _ _ _ | .mad p _ _ _
    | .div p _ _ _ | .rem p _ _ _ | .neg p _ _ _ | .abs p _ _ _ | .min p _ _ _ | .max p _ _ _ | .clamp p _ _ _
    | .and p _ _ _ | .or p _ _ _ | .xor p _ _ _ | .not p _ _ _ | .andn p _ _ _ | .shl p _ _ _ | .shr p _ _ _
    | .sar p _ _ _ | .rot p _ _ _ | .shli p _ _ _ | .shri p _ _ _ | .sari p _ _ _ | .clz p _ _ _ | .ctz p _ _ _
    | .popc p _ _ _ | .bfx p _ _ _ | .bfi p _ _ _ | .sext p _ _ _ | .zext p _ _ _ | .cmpeq p _ _ _ | .cmpne p _ _ _
    | .cmplt p _ _ _ | .cmple p _ _ _ | .cmpeqi p _ _ _ | .cmplti p _ _ _ | .testb p _ _ | .pnot p _ _ | .pand p _ _
    | .por p _ _ | .lea p _ _ _ | .ptag p _ _ | .pspc p _ _ | .pown p _ _ | .padd p _ _ _ | .poff p _ _
    | .fadd p _ _ _ | .fsub p _ _ _ | .fmul p _ _ _ | .ffma p _ _ _ | .fdiv p _ _ _ | .fmin p _ _ _ | .fmax p _ _ _
    | .fabs p _ _ _ | .fneg p _ _ _ | .fsqrt p _ _ _ | .frcp p _ _ _ | .frsq p _ _ _ | .fex2 p _ _ _ | .flg2 p _ _ _
    | .fcls p _ _ _ | .cvt p _ _ _ | .fcmpeq p _ _ _ | .fcmplt p _ _ _ | .fcmple p _ _ _ | .fcmpun p _ _ _
    | .peek p _ _ _ _ _ | .poke p _ _ _ | .advr p _ _ _ | .advw p _ _ _ | .anti p _ _ _ | .hcnt p _ _ | .hfree p _ _
    | .tkind p _ _ _ | .emit p _ _ _ _ | .peekt p _ _ _ _ _ | .poket p _ _ _ | .rngc p _ _ _ _ | .vadd p _ _ _
    | .vsub p _ _ _ | .vmul p _ _ _ | .vfma p _ _ _ | .vmin p _ _ _ | .vmax p _ _ _ | .vabs p _ _ _ | .vneg p _ _ _
    | .vand p _ _ | .vor p _ _ | .vxor p _ _ | .vshl p _ _ _ | .vshr p _ _ _ | .vsar p _ _ _ | .vcmpeq p _ _ _
    | .vcmplt p _ _ _ | .vcmple p _ _ _ | .vsel p _ _ _ | .vbcast p _ _ _ | .vext p _ _ _ | .vins p _ _ _
    | .vperm p _ _ _ | .vshuf p _ _ _ | .vred p _ _ _ _ | .vscan p _ _ _ | .vcvt p _ _ _ _ _ | .vex2 p _ _ _
    | .vrcp p _ _ _ | .vrsq p _ _ _ | .vtopk p _ _ _ _ | .vcmprs p _ _ _ | .vexpnd p _ _ _ | .vdot p _ _ _ _
    | .viota p _ _ _ | .vcnt p _ _ _ | .lglen p _ _ _ | .lgpack p _ _ _ | .lgdone p _ _ | .bmv p _ | .bmm p _ _
    | .ldl p _ _ _ | .stl p _ | .ldlv p _ _ _ _ | .stlv p _ | .feset p _ | .feclr p _ | .fetest p _ _ _
    | .ldg p _ _ _ _ | .stg p _ _ _ | .ldgv p _ _ _ _ | .stgv p _ _ _ | .gath p _ _ _ | .scat p _ _ _ | .vrcl p _ _
    | .vqry p _ _ | .atom p _ _ _ | .atomr p _ _ _ | .cas p _ _ _ | .vatom p _ _ _ | .faadd p _ _ _ | .lockt p _ _
    | .unlockt p _ _ | .qcopy p _ _ _ _ | .qgath p _ _ _ _ | .qunf p _ _ _ _ | .qwait p _ _ | .qstat p _ _
    | .mloadw p _ _ | .mswap p _ _ | .mma p _ _ | .mscale p _ _ _ | .accrd p _ _ | .accwr p _ _ | .accz p _ _
    | .mpromo p _ _ | .fscan p _ _ _ _ _ _ | .fisect p _ _ _ _ | .funion p _ _ _ _ | .frep p _ _ _ _ _
    | .fred p _ _ _ _ _ _ _ _ | .fstop p _ _ _ _ | .fchk p _ _ _ _ | .fcrd p _ _ _ _ | .bar p _ _ | .wreg p _ _ _
    | .wdrop p _ _ | .wqry p _ _ | .chsend p _ _ | .chrecv p _ _ | .chcred p _ _ | .waitv p _ _ | .tkwait p _ _
    | .tkrd p _ _ | .cred p _ _ | .cbcast p _ _ | .cgath p _ _ | .fence p _ _ _ _ _ | .launch p _ _ | .launchi p _ _
    | .launcht p _ _ | .splice p _ _ | .lstat p _ _ | .lcancel p _ _ | .ipf p _ | .ipin p _ | .iunpin p | .iinv p _
    | .thatch p _ _ | .snap p _ _ _ | .digest p _ _ | .statf p _ _ => p
  | .firingSelection _ | .blockQuiescence _ | .firingCancellation _ _ | .actorRetirement _ _ | .flitArrival _ _
    | .antiTokenArrival _ | .joinInputStep _ _ | .forkCopy _ _ | .turnTokenIntake _ _ | .turnTokenPublish _ _
    | .ownerUpdate _ _ | .memoryRequestForward _ | .homeBankEvent _ _ | .waitingRequestPerform _ | .loadAnswer _
    | .completionValueDelivery _ | .translationMissDecision _ | .invocationEnd _ _ | .ldlvWfRelease _ _ | .lockGrant _
    | .unlockRelease _ | .fenceComplete _ | .tkwaitRelease _ _ | .qwaitRelease _ _ | .engineCommandEnqueue _ _
    | .engineCommandExecute _ _ | .regionFeed _ _ | .regionCommandEnqueue _ _ | .mloadwExecute _ | .mscaleExecute _
    | .mswapExecute _ | .mmaExecute _ | .mpromoExecute _ | .statfExecute _ | .accQueuedAccess _
    | .collectiveExecution _ | .digestComplete _ _ | .thatchVerification | .thatchTakeEffect | .ridgePlacement _ _
    | .launchDependenceMet _ | .armedClear _ | .reconfActorFinish _ _ | .elementSuccessorInstall _ | .launchEnd _
    | .tickBoundary | .tickPeriodChange | .detQuantumRelease _ | .watchdog _ | .trapRecordWrite _ | .ridgeTrapNotify _
    | .handlerAction _ _ | .preemptionOpen _ | .markerRecord _ | .cutComplete _ | .preemptionAbandon _
    | .preemptionResume _ | .replicaVote _ _ _ | .snapshotLatch _ _ | .bridgeReplay _ | .uePacketReceive _
    | .ptpMessage _ _ | .load _ _ _ | .start _ _ | .stop _ _ | .query _ _ | .attest _ _ | .thatchCommand _ _
    | .mapPage _ _ _ _ | .setTickPeriod _ _ | .setTickEpoch _ _ | .setWdt _ _ | .setSnapshotTick _ _ | .bind _ _
    | .handler _ _ _ | .reclaim _ | .moduleReset _ _ _ | .powerLoss | .thermalThrottle _ _ | .thermalShutdown
    | .functionReady _ | .memoryScrub _ _ => .always

end Sys2Proof
end

