-- ==== Sys2Proof/Decode.lean ====
section
/-! DEFINITION. The decoder, total on any bytes, and the encoder written from the same encoding rules (R55 to R60, R69, R76 to R80,
and each instruction's own rule). -/

namespace Sys2Proof

/-- Why a word is no instruction. `illegal` is IllegalEncoding, `badSlot` BadSlot (R66 gives the order), `truncated` means that the
words end before the instruction does. -/
inductive DecodeErr where
  | illegal | badSlot | truncated
  deriving DecidableEq, Repr

/-- The five fields of an instruction word (R55). -/
structure Raw where
  op : Nat
  pr : Nat
  ty : Nat
  t0 : Nat
  t1 : Nat
  deriving DecidableEq, Repr

/-- Splits a word into its fields (R55). -/
def Raw.ofWord (w : IWord) : Raw :=
  let n := w.toNat
  ⟨n / 2 ^ 24, n / 2 ^ 22 % 4, n / 2 ^ 18 % 16, n / 2 ^ 9 % 512, n % 512⟩

/-- Joins the fields of a word (R55). -/
def Raw.toWord (r : Raw) : IWord :=
  BitVec.ofNat 32 (r.op * 2 ^ 24 + r.pr * 2 ^ 22 + r.ty * 2 ^ 18 + r.t0 * 2 ^ 9 + r.t1)

/-- Bit k of n. -/
def bitAt (n k : Nat) : Bool := n / 2 ^ k % 2 == 1

/-- The low bits of a field as a number below 4. -/
def fin4 (n : Nat) : Fin 4 := ⟨n % 4, Nat.mod_lt _ (by decide)⟩

/-- The low bits of a field as a number below 8. -/
def fin8 (n : Nat) : Fin 8 := ⟨n % 8, Nat.mod_lt _ (by decide)⟩

/-- The low bits of a field as a number below 16. -/
def fin16 (n : Nat) : Fin 16 := ⟨n % 16, Nat.mod_lt _ (by decide)⟩

/-- The low bits of a field as a number below 32. -/
def fin32 (n : Nat) : Fin 32 := ⟨n % 32, Nat.mod_lt _ (by decide)⟩

/-- The low bits of a field as a number below 64. -/
def fin64 (n : Nat) : Fin 64 := ⟨n % 64, Nat.mod_lt _ (by decide)⟩

/-- The low bits of a field as a number below 128. -/
def fin128 (n : Nat) : Fin 128 := ⟨n % 128, Nat.mod_lt _ (by decide)⟩

/-- The low bits of a field as a number below 1024. -/
def fin1024 (n : Nat) : Fin 1024 := ⟨n % 1024, Nat.mod_lt _ (by decide)⟩

/-- The low bits of a field as a number below 4096. -/
def fin4096 (n : Nat) : Fin 4096 := ⟨n % 4096, Nat.mod_lt _ (by decide)⟩

/-- PR: 11 is IllegalEncoding (R55, R56). -/
def Pred.ofCode : Nat → Option Pred
  | 0 => some .always | 1 => some .onTrue | 2 => some .onFalse | _ => none

/-- The PR code of a predicate (R55). -/
def Pred.code : Pred → Nat
  | .always => 0 | .onTrue => 1 | .onFalse => 2

/-- The port a PORT code names (R59). -/
def Port.ofCode (n : Nat) : Port :=
  match n with
  | 0 => .a | 1 => .b | 2 => .c | _ => .p

/-- The PORT code of a port (R59). -/
def Port.code : Port → Nat
  | .a => 0 | .b => 1 | .c => 2 | .p => 3

/-- The consumer a 9-bit field names (R59, R151). -/
def Target.ofCode (n : Nat) : Target :=
  if n < 256 then .slot (fin64 (n / 4)) (Port.ofCode (n % 4))
  else
    let c := n - 256
    if c == 0 then .discard
    else if c ≤ 0x10 then .keep (fin16 (c - 1))
    else if 0x20 ≤ c && c ≤ 0x2F then .out (fin16 (c - 0x20))
    else if c == 0x40 then .orig false
    else if c == 0x41 then .orig true
    else .reserved (BitVec.ofNat 8 c)

/-- The 9-bit field of a consumer (R59). -/
def Target.code : Target → Nat
  | .slot n q => n.val * 4 + q.code
  | .discard => 256
  | .keep n => 257 + n.val
  | .out h => 288 + h.val
  | .orig s => 320 + s.toNat
  | .reserved c => 256 + c.toNat

/-- Mode codes of global loads; 3 is IllegalEncoding (R235). -/
def LdMode.ofCode : Nat → Option LdMode
  | 0 => some .plain | 1 => some .ge | 2 => some .eq | _ => none

/-- The code of a load mode (R235). -/
def LdMode.code : LdMode → Nat
  | .plain => 0 | .ge => 1 | .eq => 2

/-- Atomic op codes; 7 to 15 are IllegalEncoding (R299). -/
def AtomOp.ofCode : Nat → Option AtomOp
  | 0 => some .add | 1 => some .and | 2 => some .or | 3 => some .xor | 4 => some .min | 5 => some .max | 6 => some .swap
  | _ => none

/-- The code of an atomic operation (R299). -/
def AtomOp.code : AtomOp → Nat
  | .add => 0 | .and => 1 | .or => 2 | .xor => 3 | .min => 4 | .max => 5 | .swap => 6

/-- Reduction codes; 3 is IllegalEncoding (R202, R258). -/
def RedOp.ofCode : Nat → Option RedOp
  | 0 => some .add | 1 => some .min | 2 => some .max | _ => none

/-- The code of a reduction (R202). -/
def RedOp.code : RedOp → Nat
  | .add => 0 | .min => 1 | .max => 2

/-- MSCALE's TY codes; others are IllegalEncoding (R277). -/
def ScaleSel.ofCode : Nat → Option ScaleSel
  | 0 => some .bfp | 1 => some .mx | 2 => some .none | _ => Option.none

/-- The code of a scale selection (R277). -/
def ScaleSel.code : ScaleSel → Nat
  | .bfp => 0 | .mx => 1 | .none => 2

/-- The prefix a word is, if its opcode is one of the prefixes; `some none` is an IllegalEncoding prefix word (R76 to R80). -/
def Pfx.ofRaw (r : Raw) : Option (Option Pfx) :=
  match r.op with
  | 0x10 => some (if r.pr == 0 && r.ty == 0 && r.t0 == 0 && r.t1 == 0 then some .sat else none)
  | 0x11 => some (if r.pr == 0 && r.ty == 0 && r.t0 == 0 && r.t1 < 4 then
      some (.rnd (match r.t1 with | 0 => .rne | 1 => .rtz | 2 => .rdn | _ => .rup)) else none)
  | 0x12 => some (if r.pr == 0 then
      let n := r.ty * 2 ^ 18 + r.t0 * 2 ^ 9 + r.t1
      some (.seq (fin1024 (n / 2 ^ 12)) (fin4096 n)) else none)
  | 0x13 => some (if r.pr == 0 && r.ty == 0 && r.t0 == 0 && r.t1 < 256 && r.t1 / 8 % 8 == 0 && r.t1 / 64 != 0 then
      some (.scp (bitAt r.t1 7) (bitAt r.t1 6) (fin8 r.t1)) else none)
  | _ => none

/-- The word of a prefix (R77 to R80). -/
def Pfx.toWord : Pfx → IWord
  | .sat => 0x10000000
  | .rnd m => 0x11000000 + (match m with | .rne => 0 | .rtz => 1 | .rdn => 2 | .rup => 3)
  | .seq c s => BitVec.ofNat 32 (0x12000000 + c.val * 2 ^ 12 + s.val)
  | .scp a r s => BitVec.ofNat 32 (0x13000000 + a.toNat * 128 + r.toNat * 64 + s.val)

/-- How many literal words follow a word (R57): LIT one or two, the other L-format opcodes one. An unassigned opcode has
none (R149). -/
def litWords (w : IWord) : Nat :=
  let r := Raw.ofWord w
  match r.op with
  | 0x01 => if r.ty == 6 || r.ty == 7 then 2 else 1
  | 0x09 | 0xC8 | 0xCB | 0xCC | 0xDD => 1
  | _ => 0

/-- Opcodes 0x00 to 0x0F (R70); `none` is IllegalEncoding. -/
def decodeRow0 (r : Raw) (p : Pred) (l0 l1 : Nat) : Option Instr :=
  match r.op % 16 with
  | 0x0 => if r.ty == 0 && r.t0 == 0 && r.t1 == 0 then some (.nop p) else none
  | 0x1 => (Ty.ofCode (BitVec.ofNat 4 (r.ty))).bind fun t => some (.lit p t (Target.ofCode r.t0) (Target.ofCode r.t1) (BitVec.ofNat 64 (if t.isWide then l0 + l1 * 2 ^ 32 else l0)))
  | 0x2 => (Ty.ofCode (BitVec.ofNat 4 (r.ty))).bind fun t => some (.imm p t (Target.ofCode r.t0) (BitVec.ofNat 9 (r.t1)))
  | 0x3 => if r.ty / 2 % 8 == 0 then some (.mov p (bitAt r.ty 0) (Target.ofCode r.t0) (Target.ofCode r.t1)) else none
  | 0x4 => if r.ty / 2 % 8 == 0 then some (.sel p (bitAt r.ty 0) (Target.ofCode r.t0) (Target.ofCode r.t1)) else none
  | 0x5 => if r.ty == 0 && r.t1 / 16 % 16 == 0 then some (.rdk p (Target.ofCode r.t0) (bitAt r.t1 8) (fin16 (r.t1))) else none
  | 0x6 => if r.ty == 0 && r.t0 == 256 && r.t1 / 16 % 16 == 0 then some (.wrk p (bitAt r.t1 8) (fin16 (r.t1))) else none
  | 0x7 => if r.ty == 0 then some (.rdsr p (Target.ofCode r.t0) (BitVec.ofNat 9 (r.t1))) else none
  | 0x8 => if r.ty == 0 && r.t0 == 256 then some (.wrsr p (BitVec.ofNat 9 (r.t1))) else none
  | 0x9 => if r.ty == 0 && r.t0 == 256 && r.t1 == 256 then some (.br p (BitVec.ofNat 32 l0)) else none
  | 0xA => if r.ty == 0 && r.t0 == 256 && r.t1 == 256 then some (.bri p) else none
  | 0xB => if r.ty == 0 && r.t0 == 256 && r.t1 / 8 % 64 == 0 then some (.exit p (fin8 (r.t1))) else none
  | 0xC => if r.ty == 0 && r.t0 == 256 && r.t1 == 256 then some (.exitv p) else none
  | 0xD => if r.ty == 0 && r.t0 == 256 && r.t1 == 256 then some (.retire p) else none
  | 0xE => if r.ty == 0 && r.t0 == 256 then some (.trap p (BitVec.ofNat 9 (r.t1))) else none
  | 0xF => if r.ty == 0 && r.t0 == 256 && r.t1 == 256 then some (.yield p) else none
  | _ => none

/-- Opcodes 0x10 to 0x1F (R70); `none` is IllegalEncoding. -/
def decodeRow1 (r : Raw) (p : Pred) : Option Instr :=
  match r.op % 16 with
  | 0x4 => if r.ty < 8 then if r.ty / 8 % 2 == 0 then some (.xop p (fin8 (r.ty)) (Target.ofCode r.t0) (Target.ofCode r.t1)) else none else if r.ty % 16 == 8 && r.t0 == 256 && r.t1 == 256 then some (.xopLoad p) else none
  | _ => none

/-- Opcodes 0x20 to 0x2F (R70); `none` is IllegalEncoding. -/
def decodeRow2 (r : Raw) (p : Pred) : Option Instr :=
  match r.op % 16 with
  | 0x0 => (Ty.ofCode (BitVec.ofNat 4 (r.ty))).bind fun t => some (.add p t (Target.ofCode r.t0) (Target.ofCode r.t1))
  | 0x1 => (Ty.ofCode (BitVec.ofNat 4 (r.ty))).bind fun t => some (.sub p t (Target.ofCode r.t0) (Target.ofCode r.t1))
  | 0x2 => (Ty.ofCode (BitVec.ofNat 4 (r.ty))).bind fun t => some (.addi p t (Target.ofCode r.t0) (BitVec.ofNat 9 (r.t1)))
  | 0x3 => (Ty.ofCode (BitVec.ofNat 4 (r.ty))).bind fun t => some (.mul p t (Target.ofCode r.t0) (Target.ofCode r.t1))
  | 0x4 => (Ty.ofCode (BitVec.ofNat 4 (r.ty))).bind fun t => some (.mulh p t (Target.ofCode r.t0) (Target.ofCode r.t1))
  | 0x5 => (Ty.ofCode (BitVec.ofNat 4 (r.ty))).bind fun t => some (.mad p t (Target.ofCode r.t0) (Target.ofCode r.t1))
  | 0x6 => (Ty.ofCode (BitVec.ofNat 4 (r.ty))).bind fun t => some (.div p t (Target.ofCode r.t0) (Target.ofCode r.t1))
  | 0x7 => (Ty.ofCode (BitVec.ofNat 4 (r.ty))).bind fun t => some (.rem p t (Target.ofCode r.t0) (Target.ofCode r.t1))
  | 0x8 => (Ty.ofCode (BitVec.ofNat 4 (r.ty))).bind fun t => some (.neg p t (Target.ofCode r.t0) (Target.ofCode r.t1))
  | 0x9 => (Ty.ofCode (BitVec.ofNat 4 (r.ty))).bind fun t => some (.abs p t (Target.ofCode r.t0) (Target.ofCode r.t1))
  | 0xA => (Ty.ofCode (BitVec.ofNat 4 (r.ty))).bind fun t => some (.min p t (Target.ofCode r.t0) (Target.ofCode r.t1))
  | 0xB => (Ty.ofCode (BitVec.ofNat 4 (r.ty))).bind fun t => some (.max p t (Target.ofCode r.t0) (Target.ofCode r.t1))
  | 0xC => (Ty.ofCode (BitVec.ofNat 4 (r.ty))).bind fun t => some (.clamp p t (Target.ofCode r.t0) (Target.ofCode r.t1))
  | 0xD => (Ty.ofCode (BitVec.ofNat 4 (r.ty))).bind fun t => some (.and p t (Target.ofCode r.t0) (Target.ofCode r.t1))
  | 0xE => (Ty.ofCode (BitVec.ofNat 4 (r.ty))).bind fun t => some (.or p t (Target.ofCode r.t0) (Target.ofCode r.t1))
  | 0xF => (Ty.ofCode (BitVec.ofNat 4 (r.ty))).bind fun t => some (.xor p t (Target.ofCode r.t0) (Target.ofCode r.t1))
  | _ => none

/-- Opcodes 0x30 to 0x3F (R70); `none` is IllegalEncoding. -/
def decodeRow3 (r : Raw) (p : Pred) : Option Instr :=
  match r.op % 16 with
  | 0x0 => (Ty.ofCode (BitVec.ofNat 4 (r.ty))).bind fun t => some (.not p t (Target.ofCode r.t0) (Target.ofCode r.t1))
  | 0x1 => (Ty.ofCode (BitVec.ofNat 4 (r.ty))).bind fun t => some (.andn p t (Target.ofCode r.t0) (Target.ofCode r.t1))
  | 0x2 => (Ty.ofCode (BitVec.ofNat 4 (r.ty))).bind fun t => some (.shl p t (Target.ofCode r.t0) (Target.ofCode r.t1))
  | 0x3 => (Ty.ofCode (BitVec.ofNat 4 (r.ty))).bind fun t => some (.shr p t (Target.ofCode r.t0) (Target.ofCode r.t1))
  | 0x4 => (Ty.ofCode (BitVec.ofNat 4 (r.ty))).bind fun t => some (.sar p t (Target.ofCode r.t0) (Target.ofCode r.t1))
  | 0x5 => (Ty.ofCode (BitVec.ofNat 4 (r.ty))).bind fun t => some (.rot p t (Target.ofCode r.t0) (Target.ofCode r.t1))
  | 0x6 => (Ty.ofCode (BitVec.ofNat 4 (r.ty))).bind fun t => some (.shli p t (Target.ofCode r.t0) (BitVec.ofNat 9 (r.t1)))
  | 0x7 => (Ty.ofCode (BitVec.ofNat 4 (r.ty))).bind fun t => some (.shri p t (Target.ofCode r.t0) (BitVec.ofNat 9 (r.t1)))
  | 0x8 => (Ty.ofCode (BitVec.ofNat 4 (r.ty))).bind fun t => some (.sari p t (Target.ofCode r.t0) (BitVec.ofNat 9 (r.t1)))
  | 0x9 => (Ty.ofCode (BitVec.ofNat 4 (r.ty))).bind fun t => some (.clz p t (Target.ofCode r.t0) (Target.ofCode r.t1))
  | 0xA => (Ty.ofCode (BitVec.ofNat 4 (r.ty))).bind fun t => some (.ctz p t (Target.ofCode r.t0) (Target.ofCode r.t1))
  | 0xB => (Ty.ofCode (BitVec.ofNat 4 (r.ty))).bind fun t => some (.popc p t (Target.ofCode r.t0) (Target.ofCode r.t1))
  | 0xC => (Ty.ofCode (BitVec.ofNat 4 (r.ty))).bind fun t => some (.bfx p t (Target.ofCode r.t0) (Target.ofCode r.t1))
  | 0xD => (Ty.ofCode (BitVec.ofNat 4 (r.ty))).bind fun t => some (.bfi p t (Target.ofCode r.t0) (Target.ofCode r.t1))
  | 0xE => (Ty.ofCode (BitVec.ofNat 4 (r.ty))).bind fun t => some (.sext p t (Target.ofCode r.t0) (Target.ofCode r.t1))
  | 0xF => (Ty.ofCode (BitVec.ofNat 4 (r.ty))).bind fun t => some (.zext p t (Target.ofCode r.t0) (Target.ofCode r.t1))
  | _ => none

/-- Opcodes 0x40 to 0x4F (R70); `none` is IllegalEncoding. -/
def decodeRow4 (r : Raw) (p : Pred) : Option Instr :=
  match r.op % 16 with
  | 0x0 => (Ty.ofCode (BitVec.ofNat 4 (r.ty))).bind fun t => some (.cmpeq p t (Target.ofCode r.t0) (Target.ofCode r.t1))
  | 0x1 => (Ty.ofCode (BitVec.ofNat 4 (r.ty))).bind fun t => some (.cmpne p t (Target.ofCode r.t0) (Target.ofCode r.t1))
  | 0x2 => (Ty.ofCode (BitVec.ofNat 4 (r.ty))).bind fun t => some (.cmplt p t (Target.ofCode r.t0) (Target.ofCode r.t1))
  | 0x3 => (Ty.ofCode (BitVec.ofNat 4 (r.ty))).bind fun t => some (.cmple p t (Target.ofCode r.t0) (Target.ofCode r.t1))
  | 0x4 => (Ty.ofCode (BitVec.ofNat 4 (r.ty))).bind fun t => some (.cmpeqi p t (Target.ofCode r.t0) (BitVec.ofNat 9 (r.t1)))
  | 0x5 => (Ty.ofCode (BitVec.ofNat 4 (r.ty))).bind fun t => some (.cmplti p t (Target.ofCode r.t0) (BitVec.ofNat 9 (r.t1)))
  | 0x6 => if r.ty == 0 then some (.testb p (Target.ofCode r.t0) (BitVec.ofNat 9 (r.t1))) else none
  | 0x7 => if r.ty == 0 then some (.pnot p (Target.ofCode r.t0) (Target.ofCode r.t1)) else none
  | 0x8 => if r.ty == 0 then some (.pand p (Target.ofCode r.t0) (Target.ofCode r.t1)) else none
  | 0x9 => if r.ty == 0 then some (.por p (Target.ofCode r.t0) (Target.ofCode r.t1)) else none
  | 0xA => some (.lea p (BitVec.ofNat 4 (r.ty)) (Target.ofCode r.t0) (Target.ofCode r.t1))
  | 0xB => if r.ty == 0 then some (.ptag p (Target.ofCode r.t0) (Target.ofCode r.t1)) else none
  | 0xC => if r.ty == 0 then some (.pspc p (Target.ofCode r.t0) (Target.ofCode r.t1)) else none
  | 0xD => if r.ty == 0 then some (.pown p (Target.ofCode r.t0) (Target.ofCode r.t1)) else none
  | 0xE => some (.padd p (BitVec.ofNat 4 (r.ty)) (Target.ofCode r.t0) (BitVec.ofNat 9 (r.t1)))
  | 0xF => if r.ty == 0 then some (.poff p (Target.ofCode r.t0) (Target.ofCode r.t1)) else none
  | _ => none

/-- Opcodes 0x50 to 0x5F (R70); `none` is IllegalEncoding. -/
def decodeRow5 (r : Raw) (p : Pred) : Option Instr :=
  match r.op % 16 with
  | 0x0 => (Ty.ofCode (BitVec.ofNat 4 (r.ty))).bind fun t => some (.fadd p t (Target.ofCode r.t0) (Target.ofCode r.t1))
  | 0x1 => (Ty.ofCode (BitVec.ofNat 4 (r.ty))).bind fun t => some (.fsub p t (Target.ofCode r.t0) (Target.ofCode r.t1))
  | 0x2 => (Ty.ofCode (BitVec.ofNat 4 (r.ty))).bind fun t => some (.fmul p t (Target.ofCode r.t0) (Target.ofCode r.t1))
  | 0x3 => (Ty.ofCode (BitVec.ofNat 4 (r.ty))).bind fun t => some (.ffma p t (Target.ofCode r.t0) (Target.ofCode r.t1))
  | 0x4 => (Ty.ofCode (BitVec.ofNat 4 (r.ty))).bind fun t => some (.fdiv p t (Target.ofCode r.t0) (Target.ofCode r.t1))
  | 0x5 => (Ty.ofCode (BitVec.ofNat 4 (r.ty))).bind fun t => some (.fmin p t (Target.ofCode r.t0) (Target.ofCode r.t1))
  | 0x6 => (Ty.ofCode (BitVec.ofNat 4 (r.ty))).bind fun t => some (.fmax p t (Target.ofCode r.t0) (Target.ofCode r.t1))
  | 0x7 => (Ty.ofCode (BitVec.ofNat 4 (r.ty))).bind fun t => some (.fabs p t (Target.ofCode r.t0) (Target.ofCode r.t1))
  | 0x8 => (Ty.ofCode (BitVec.ofNat 4 (r.ty))).bind fun t => some (.fneg p t (Target.ofCode r.t0) (Target.ofCode r.t1))
  | 0x9 => (Ty.ofCode (BitVec.ofNat 4 (r.ty))).bind fun t => some (.fsqrt p t (Target.ofCode r.t0) (Target.ofCode r.t1))
  | 0xA => (Ty.ofCode (BitVec.ofNat 4 (r.ty))).bind fun t => some (.frcp p t (Target.ofCode r.t0) (Target.ofCode r.t1))
  | 0xB => (Ty.ofCode (BitVec.ofNat 4 (r.ty))).bind fun t => some (.frsq p t (Target.ofCode r.t0) (Target.ofCode r.t1))
  | 0xC => (Ty.ofCode (BitVec.ofNat 4 (r.ty))).bind fun t => some (.fex2 p t (Target.ofCode r.t0) (Target.ofCode r.t1))
  | 0xD => (Ty.ofCode (BitVec.ofNat 4 (r.ty))).bind fun t => some (.flg2 p t (Target.ofCode r.t0) (Target.ofCode r.t1))
  | 0xE => (Ty.ofCode (BitVec.ofNat 4 (r.ty))).bind fun t => some (.fcls p t (Target.ofCode r.t0) (Target.ofCode r.t1))
  | 0xF => (Ty.ofCode (BitVec.ofNat 4 (r.ty))).bind fun t => (Ty.ofCode (BitVec.ofNat 4 (r.t1))).bind fun s => if r.t1 / 16 % 32 == 0 then some (.cvt p t (Target.ofCode r.t0) s) else none
  | _ => none

/-- Opcodes 0x60 to 0x6F (R70); `none` is IllegalEncoding. -/
def decodeRow6 (r : Raw) (p : Pred) : Option Instr :=
  match r.op % 16 with
  | 0x0 => (Ty.ofCode (BitVec.ofNat 4 (r.ty))).bind fun t => some (.fcmpeq p t (Target.ofCode r.t0) (Target.ofCode r.t1))
  | 0x1 => (Ty.ofCode (BitVec.ofNat 4 (r.ty))).bind fun t => some (.fcmplt p t (Target.ofCode r.t0) (Target.ofCode r.t1))
  | 0x2 => (Ty.ofCode (BitVec.ofNat 4 (r.ty))).bind fun t => some (.fcmple p t (Target.ofCode r.t0) (Target.ofCode r.t1))
  | 0x3 => (Ty.ofCode (BitVec.ofNat 4 (r.ty))).bind fun t => some (.fcmpun p t (Target.ofCode r.t0) (Target.ofCode r.t1))
  | 0x4 => some (.peek p (BitVec.ofNat 4 (r.ty)) (Target.ofCode r.t0) (bitAt r.t1 8) (fin16 (r.t1 / 16)) (fin16 (r.t1)))
  | 0x5 => if r.ty == 0 && r.t0 == 256 then some (.poke p (bitAt r.t1 8) (fin16 (r.t1 / 16)) (fin16 (r.t1))) else none
  | 0x6 => if r.ty / 2 % 8 == 0 && r.t0 == 256 then some (.advr p (bitAt r.ty 0) (fin16 (r.t1 / 32)) (fin32 (r.t1))) else none
  | 0x7 => if r.ty / 2 % 8 == 0 && r.t0 == 256 then some (.advw p (bitAt r.ty 0) (fin16 (r.t1 / 32)) (fin32 (r.t1))) else none
  | 0x8 => if r.ty / 2 % 8 == 0 && r.t0 == 256 then some (.anti p (bitAt r.ty 0) (fin16 (r.t1 / 32)) (fin32 (r.t1))) else none
  | 0x9 => if r.ty == 0 && r.t1 / 256 % 2 == 0 && r.t1 % 16 == 0 then some (.hcnt p (Target.ofCode r.t0) (fin16 (r.t1 / 16))) else none
  | 0xA => if r.ty == 0 && r.t1 / 256 % 2 == 0 && r.t1 % 16 == 0 then some (.hfree p (Target.ofCode r.t0) (fin16 (r.t1 / 16))) else none
  | 0xB => if r.ty == 0 && r.t1 / 256 % 2 == 0 then some (.tkind p (Target.ofCode r.t0) (fin16 (r.t1 / 16)) (fin16 (r.t1))) else none
  | 0xC => if r.t0 == 256 then some (.emit p (BitVec.ofNat 4 (r.ty)) (bitAt r.t1 8) (fin16 (r.t1 / 16)) (fin16 (r.t1))) else none
  | 0xD => some (.peekt p (BitVec.ofNat 4 (r.ty)) (Target.ofCode r.t0) (bitAt r.t1 8) (fin16 (r.t1 / 16)) (fin16 (r.t1)))
  | 0xE => if r.ty == 0 && r.t0 == 256 then some (.poket p (bitAt r.t1 8) (fin16 (r.t1 / 16)) (fin16 (r.t1))) else none
  | 0xF => if r.ty / 4 % 4 == 0 then some (.rngc p (bitAt r.ty 1) (bitAt r.ty 0) (Target.ofCode r.t0) (Target.ofCode r.t1)) else none
  | _ => none

/-- Opcodes 0x70 to 0x7F (R70); `none` is IllegalEncoding. -/
def decodeRow7 (r : Raw) (p : Pred) : Option Instr :=
  match r.op % 16 with
  | 0x0 => (Ty.ofCode (BitVec.ofNat 4 (r.ty))).bind fun t => some (.vadd p t (Target.ofCode r.t0) (Target.ofCode r.t1))
  | 0x1 => (Ty.ofCode (BitVec.ofNat 4 (r.ty))).bind fun t => some (.vsub p t (Target.ofCode r.t0) (Target.ofCode r.t1))
  | 0x2 => (Ty.ofCode (BitVec.ofNat 4 (r.ty))).bind fun t => some (.vmul p t (Target.ofCode r.t0) (Target.ofCode r.t1))
  | 0x3 => (Ty.ofCode (BitVec.ofNat 4 (r.ty))).bind fun t => some (.vfma p t (Target.ofCode r.t0) (Target.ofCode r.t1))
  | 0x4 => (Ty.ofCode (BitVec.ofNat 4 (r.ty))).bind fun t => some (.vmin p t (Target.ofCode r.t0) (Target.ofCode r.t1))
  | 0x5 => (Ty.ofCode (BitVec.ofNat 4 (r.ty))).bind fun t => some (.vmax p t (Target.ofCode r.t0) (Target.ofCode r.t1))
  | 0x6 => (Ty.ofCode (BitVec.ofNat 4 (r.ty))).bind fun t => some (.vabs p t (Target.ofCode r.t0) (Target.ofCode r.t1))
  | 0x7 => (Ty.ofCode (BitVec.ofNat 4 (r.ty))).bind fun t => some (.vneg p t (Target.ofCode r.t0) (Target.ofCode r.t1))
  | 0x8 => if r.ty == 0 then some (.vand p (Target.ofCode r.t0) (Target.ofCode r.t1)) else none
  | 0x9 => if r.ty == 0 then some (.vor p (Target.ofCode r.t0) (Target.ofCode r.t1)) else none
  | 0xA => if r.ty == 0 then some (.vxor p (Target.ofCode r.t0) (Target.ofCode r.t1)) else none
  | 0xB => (Ty.ofCode (BitVec.ofNat 4 (r.ty))).bind fun t => some (.vshl p t (Target.ofCode r.t0) (Target.ofCode r.t1))
  | 0xC => (Ty.ofCode (BitVec.ofNat 4 (r.ty))).bind fun t => some (.vshr p t (Target.ofCode r.t0) (Target.ofCode r.t1))
  | 0xD => (Ty.ofCode (BitVec.ofNat 4 (r.ty))).bind fun t => some (.vsar p t (Target.ofCode r.t0) (Target.ofCode r.t1))
  | 0xE => (Ty.ofCode (BitVec.ofNat 4 (r.ty))).bind fun t => some (.vcmpeq p t (Target.ofCode r.t0) (Target.ofCode r.t1))
  | 0xF => (Ty.ofCode (BitVec.ofNat 4 (r.ty))).bind fun t => some (.vcmplt p t (Target.ofCode r.t0) (Target.ofCode r.t1))
  | _ => none

/-- Opcodes 0x80 to 0x8F (R70); `none` is IllegalEncoding. -/
def decodeRow8 (r : Raw) (p : Pred) : Option Instr :=
  match r.op % 16 with
  | 0x0 => (Ty.ofCode (BitVec.ofNat 4 (r.ty))).bind fun t => some (.vcmple p t (Target.ofCode r.t0) (Target.ofCode r.t1))
  | 0x1 => (Ty.ofCode (BitVec.ofNat 4 (r.ty))).bind fun t => some (.vsel p t (Target.ofCode r.t0) (Target.ofCode r.t1))
  | 0x2 => (Ty.ofCode (BitVec.ofNat 4 (r.ty))).bind fun t => some (.vbcast p t (Target.ofCode r.t0) (Target.ofCode r.t1))
  | 0x3 => (Ty.ofCode (BitVec.ofNat 4 (r.ty))).bind fun t => some (.vext p t (Target.ofCode r.t0) (Target.ofCode r.t1))
  | 0x4 => (Ty.ofCode (BitVec.ofNat 4 (r.ty))).bind fun t => some (.vins p t (Target.ofCode r.t0) (Target.ofCode r.t1))
  | 0x5 => (Ty.ofCode (BitVec.ofNat 4 (r.ty))).bind fun t => some (.vperm p t (Target.ofCode r.t0) (Target.ofCode r.t1))
  | 0x6 => (Ty.ofCode (BitVec.ofNat 4 (r.ty))).bind fun t => some (.vshuf p t (Target.ofCode r.t0) (Target.ofCode r.t1))
  | 0x7 => (Ty.ofCode (BitVec.ofNat 4 (r.ty))).bind fun t => (RedOp.ofCode (r.t1 % 4)).bind fun o => if r.t1 / 8 % 64 == 0 then some (.vred p t (Target.ofCode r.t0) (bitAt r.t1 2) o) else none
  | 0x8 => (Ty.ofCode (BitVec.ofNat 4 (r.ty))).bind fun t => some (.vscan p t (Target.ofCode r.t0) (Target.ofCode r.t1))
  | 0x9 => (Ty.ofCode (BitVec.ofNat 4 (r.ty))).bind fun t => (Ty.ofCode (BitVec.ofNat 4 (r.t1))).bind fun c => some (.vcvt p t (Target.ofCode r.t0) (bitAt r.t1 8) (fin16 (r.t1 / 16)) c)
  | 0xA => (Ty.ofCode (BitVec.ofNat 4 (r.ty))).bind fun t => some (.vex2 p t (Target.ofCode r.t0) (Target.ofCode r.t1))
  | 0xB => (Ty.ofCode (BitVec.ofNat 4 (r.ty))).bind fun t => some (.vrcp p t (Target.ofCode r.t0) (Target.ofCode r.t1))
  | 0xC => (Ty.ofCode (BitVec.ofNat 4 (r.ty))).bind fun t => some (.vrsq p t (Target.ofCode r.t0) (Target.ofCode r.t1))
  | 0xD => (Ty.ofCode (BitVec.ofNat 4 (r.ty))).bind fun t => if r.t1 / 256 % 2 == 0 then some (.vtopk p t (Target.ofCode r.t0) (bitAt r.t1 7) (fin128 (r.t1))) else none
  | 0xE => (Ty.ofCode (BitVec.ofNat 4 (r.ty))).bind fun t => some (.vcmprs p t (Target.ofCode r.t0) (Target.ofCode r.t1))
  | 0xF => (Ty.ofCode (BitVec.ofNat 4 (r.ty))).bind fun t => some (.vexpnd p t (Target.ofCode r.t0) (Target.ofCode r.t1))
  | _ => none

/-- Opcodes 0x90 to 0x9F (R70); `none` is IllegalEncoding. -/
def decodeRow9 (r : Raw) (p : Pred) : Option Instr :=
  match r.op % 16 with
  | 0x0 => (Ty.ofCode (BitVec.ofNat 4 (r.ty))).bind fun t => (Ty.ofCode (BitVec.ofNat 4 (r.t1))).bind fun c => if r.t1 / 32 % 16 == 0 then some (.vdot p t (Target.ofCode r.t0) (bitAt r.t1 4) c) else none
  | 0x1 => (Ty.ofCode (BitVec.ofNat 4 (r.ty))).bind fun t => some (.viota p t (Target.ofCode r.t0) (Target.ofCode r.t1))
  | 0x2 => (Ty.ofCode (BitVec.ofNat 4 (r.ty))).bind fun t => some (.vcnt p t (Target.ofCode r.t0) (Target.ofCode r.t1))
  | 0x3 => if r.ty == 0 && r.t1 / 8 % 64 == 0 then some (.lglen p (Target.ofCode r.t0) (bitAt r.t1 2) (fin4 (r.t1))) else none
  | 0x4 => if r.ty == 0 && r.t1 / 256 % 2 == 0 then some (.lgpack p (Target.ofCode r.t0) (fin16 (r.t1 / 16)) (fin16 (r.t1))) else none
  | 0x5 => if r.ty == 0 then some (.lgdone p (Target.ofCode r.t0) (Target.ofCode r.t1)) else none
  | 0x6 => if r.ty % 16 == 8 && r.t1 == 0 then some (.bmv p (Target.ofCode r.t0)) else none
  | 0x7 => if r.ty % 16 == 8 && r.t1 / 4 % 128 == 0 then some (.bmm p (Target.ofCode r.t0) (fin4 (r.t1))) else none
  | _ => none

/-- Opcodes 0xA0 to 0xAF (R70); `none` is IllegalEncoding. -/
def decodeRowA (r : Raw) (p : Pred) : Option Instr :=
  match r.op % 16 with
  | 0x0 => (Ty.ofCode (BitVec.ofNat 4 (r.ty))).bind fun t => some (.ldl p t (Target.ofCode r.t0) (Target.ofCode r.t1))
  | 0x1 => (Ty.ofCode (BitVec.ofNat 4 (r.ty))).bind fun t => if r.t0 == 256 && r.t1 == 256 then some (.stl p t) else none
  | 0x2 => if r.ty / 4 % 4 == 0 then some (.ldlv p (bitAt r.ty 1) (bitAt r.ty 0) (Target.ofCode r.t0) (Target.ofCode r.t1)) else none
  | 0x3 => if r.ty / 2 % 8 == 0 && r.t0 == 256 && r.t1 == 256 then some (.stlv p (bitAt r.ty 0)) else none
  | 0x4 => if r.ty / 2 % 8 == 0 && r.t0 == 256 && r.t1 == 256 then some (.feset p (bitAt r.ty 0)) else none
  | 0x5 => if r.ty / 2 % 8 == 0 && r.t0 == 256 && r.t1 == 256 then some (.feclr p (bitAt r.ty 0)) else none
  | 0x6 => if r.ty / 2 % 8 == 0 then some (.fetest p (bitAt r.ty 0) (Target.ofCode r.t0) (Target.ofCode r.t1)) else none
  | 0x8 => (Ty.ofCode (BitVec.ofNat 4 (r.ty))).bind fun t => (LdMode.ofCode (r.t1 % 4)).bind fun m => if r.t1 / 8 % 64 == 0 then some (.ldg p t (Target.ofCode r.t0) (bitAt r.t1 2) m) else none
  | 0x9 => (Ty.ofCode (BitVec.ofNat 4 (r.ty))).bind fun t => some (.stg p t (Target.ofCode r.t0) (Target.ofCode r.t1))
  | 0xA => (LdMode.ofCode (r.ty % 4)).bind fun m => if r.ty / 8 % 2 == 0 then some (.ldgv p (bitAt r.ty 2) m (Target.ofCode r.t0) (Target.ofCode r.t1)) else none
  | 0xB => if r.ty / 2 % 8 == 0 then some (.stgv p (bitAt r.ty 0) (Target.ofCode r.t0) (Target.ofCode r.t1)) else none
  | 0xC => (Ty.ofCode (BitVec.ofNat 4 (r.ty))).bind fun t => some (.gath p t (Target.ofCode r.t0) (Target.ofCode r.t1))
  | 0xD => (Ty.ofCode (BitVec.ofNat 4 (r.ty))).bind fun t => some (.scat p t (Target.ofCode r.t0) (Target.ofCode r.t1))
  | 0xE => if r.ty == 0 then some (.vrcl p (Target.ofCode r.t0) (Target.ofCode r.t1)) else none
  | 0xF => if r.ty == 0 then some (.vqry p (Target.ofCode r.t0) (Target.ofCode r.t1)) else none
  | _ => none

/-- Opcodes 0xB0 to 0xBF (R70); `none` is IllegalEncoding. -/
def decodeRowB (r : Raw) (p : Pred) : Option Instr :=
  match r.op % 16 with
  | 0x0 => (Ty.ofCode (BitVec.ofNat 4 (r.ty))).bind fun t => (AtomOp.ofCode (r.t1 % 16)).bind fun o => if r.t1 / 16 % 32 == 0 then some (.atom p t (Target.ofCode r.t0) o) else none
  | 0x1 => (Ty.ofCode (BitVec.ofNat 4 (r.ty))).bind fun t => (AtomOp.ofCode (r.t1 % 16)).bind fun o => if r.t1 / 16 % 32 == 0 then some (.atomr p t (Target.ofCode r.t0) o) else none
  | 0x2 => (Ty.ofCode (BitVec.ofNat 4 (r.ty))).bind fun t => some (.cas p t (Target.ofCode r.t0) (Target.ofCode r.t1))
  | 0x3 => (Ty.ofCode (BitVec.ofNat 4 (r.ty))).bind fun t => (AtomOp.ofCode (r.t1 % 16)).bind fun o => if r.t1 / 16 % 32 == 0 then some (.vatom p t (Target.ofCode r.t0) o) else none
  | 0x4 => (Ty.ofCode (BitVec.ofNat 4 (r.ty))).bind fun t => if r.t1 / 2 % 256 == 0 then some (.faadd p t (Target.ofCode r.t0) (bitAt r.t1 0)) else none
  | 0x5 => if r.ty == 0 then some (.lockt p (Target.ofCode r.t0) (Target.ofCode r.t1)) else none
  | 0x6 => if r.ty == 0 then some (.unlockt p (Target.ofCode r.t0) (Target.ofCode r.t1)) else none
  | 0x8 => some (.qcopy p (bitAt r.ty 3) (fin8 (r.ty)) (Target.ofCode r.t0) (Target.ofCode r.t1))
  | 0x9 => some (.qgath p (bitAt r.ty 3) (fin8 (r.ty)) (Target.ofCode r.t0) (Target.ofCode r.t1))
  | 0xA => some (.qunf p (bitAt r.ty 3) (fin8 (r.ty)) (Target.ofCode r.t0) (Target.ofCode r.t1))
  | 0xB => if r.ty == 0 then some (.qwait p (Target.ofCode r.t0) (Target.ofCode r.t1)) else none
  | 0xC => if r.ty == 0 then some (.qstat p (Target.ofCode r.t0) (Target.ofCode r.t1)) else none
  | _ => none

/-- Opcodes 0xC0 to 0xCF (R70); `none` is IllegalEncoding. -/
def decodeRowC (r : Raw) (p : Pred) (l0 : Nat) : Option Instr :=
  match r.op % 16 with
  | 0x0 => if r.ty == 0 then some (.mloadw p (Target.ofCode r.t0) (Target.ofCode r.t1)) else none
  | 0x1 => if r.ty == 0 then some (.mswap p (Target.ofCode r.t0) (Target.ofCode r.t1)) else none
  | 0x2 => if r.ty == 0 then some (.mma p (Target.ofCode r.t0) (Target.ofCode r.t1)) else none
  | 0x3 => (ScaleSel.ofCode (r.ty % 16)).bind fun t => some (.mscale p t (Target.ofCode r.t0) (Target.ofCode r.t1))
  | 0x4 => if r.ty == 0 then some (.accrd p (Target.ofCode r.t0) (Target.ofCode r.t1)) else none
  | 0x5 => if r.ty == 0 then some (.accwr p (Target.ofCode r.t0) (Target.ofCode r.t1)) else none
  | 0x6 => if r.ty == 0 then some (.accz p (Target.ofCode r.t0) (Target.ofCode r.t1)) else none
  | 0x7 => if r.ty == 0 then some (.mpromo p (Target.ofCode r.t0) (Target.ofCode r.t1)) else none
  | 0x8 => if r.ty == 0 && l0 % 2097152 == 0 then some (.fscan p (Target.ofCode r.t0) (Target.ofCode r.t1) (fin16 (l0 / 268435456)) (fin16 (l0 / 16777216)) (fin4 (l0 / 4194304)) (bitAt l0 21)) else none
  | 0x9 => if r.t1 / 2 % 128 == 0 then some (.fisect p (BitVec.ofNat 4 (r.ty)) (Target.ofCode r.t0) (bitAt r.t1 8) (bitAt r.t1 0)) else none
  | 0xA => if r.t1 / 2 % 128 == 0 then some (.funion p (BitVec.ofNat 4 (r.ty)) (Target.ofCode r.t0) (bitAt r.t1 8) (bitAt r.t1 0)) else none
  | 0xB => if r.ty == 0 && l0 % 4194304 == 0 then some (.frep p (Target.ofCode r.t0) (Target.ofCode r.t1) (fin16 (l0 / 268435456)) (fin16 (l0 / 16777216)) (fin4 (l0 / 4194304))) else none
  | 0xC => (Ty.ofCode (BitVec.ofNat 4 (r.ty))).bind fun t => (RedOp.ofCode (l0 / 262144 % 4)).bind fun o => if l0 / 2097152 % 2 == 0 && l0 % 262144 == 0 then some (.fred p t (Target.ofCode r.t0) (Target.ofCode r.t1) (fin16 (l0 / 268435456)) (fin16 (l0 / 16777216)) (fin4 (l0 / 4194304)) (bitAt l0 20) o) else none
  | 0xD => if r.t0 == 256 && r.t1 / 256 % 2 == 0 then some (.fstop p (fin4 (r.ty / 4)) (fin4 (r.ty)) (fin16 (r.t1 / 16)) (fin16 (r.t1))) else none
  | 0xE => if r.ty / 4 % 4 == 0 && r.t1 / 256 % 2 == 0 then some (.fchk p (fin4 (r.ty)) (Target.ofCode r.t0) (fin16 (r.t1 / 16)) (fin16 (r.t1))) else none
  | 0xF => if r.ty / 4 % 4 == 0 && r.t1 / 256 % 2 == 0 then some (.fcrd p (fin4 (r.ty)) (Target.ofCode r.t0) (fin16 (r.t1 / 16)) (fin16 (r.t1))) else none
  | _ => none

/-- Opcodes 0xD0 to 0xDF (R70); `none` is IllegalEncoding. -/
def decodeRowD (r : Raw) (p : Pred) (l0 : Nat) : Option Instr :=
  match r.op % 16 with
  | 0x0 => if r.ty == 0 then some (.bar p (Target.ofCode r.t0) (Target.ofCode r.t1)) else none
  | 0x1 => if r.ty / 2 % 8 == 0 then some (.wreg p (bitAt r.ty 0) (Target.ofCode r.t0) (Target.ofCode r.t1)) else none
  | 0x2 => if r.ty == 0 then some (.wdrop p (Target.ofCode r.t0) (Target.ofCode r.t1)) else none
  | 0x3 => if r.ty == 0 then some (.wqry p (Target.ofCode r.t0) (Target.ofCode r.t1)) else none
  | 0x4 => if r.ty == 0 then some (.chsend p (Target.ofCode r.t0) (Target.ofCode r.t1)) else none
  | 0x5 => if r.ty == 0 then some (.chrecv p (Target.ofCode r.t0) (Target.ofCode r.t1)) else none
  | 0x6 => if r.ty == 0 then some (.chcred p (Target.ofCode r.t0) (Target.ofCode r.t1)) else none
  | 0x7 => if r.ty == 0 then some (.waitv p (Target.ofCode r.t0) (Target.ofCode r.t1)) else none
  | 0x8 => if r.ty == 0 then some (.tkwait p (Target.ofCode r.t0) (Target.ofCode r.t1)) else none
  | 0x9 => if r.ty == 0 then some (.tkrd p (Target.ofCode r.t0) (Target.ofCode r.t1)) else none
  | 0xA => if r.ty == 0 then some (.cred p (Target.ofCode r.t0) (Target.ofCode r.t1)) else none
  | 0xB => if r.ty == 0 then some (.cbcast p (Target.ofCode r.t0) (Target.ofCode r.t1)) else none
  | 0xC => if r.ty == 0 then some (.cgath p (Target.ofCode r.t0) (Target.ofCode r.t1)) else none
  | 0xD => if r.ty / 8 % 2 == 0 && l0 / 4194304 % 1024 == 0 then some (.fence p (fin8 (r.ty)) (Target.ofCode r.t0) (Target.ofCode r.t1) (fin1024 (l0 / 4096)) (fin4096 (l0))) else none
  | _ => none

/-- Opcodes 0xE0 to 0xEF (R70); `none` is IllegalEncoding. -/
def decodeRowE (r : Raw) (p : Pred) : Option Instr :=
  match r.op % 16 with
  | 0x0 => if r.ty == 0 then some (.launch p (Target.ofCode r.t0) (Target.ofCode r.t1)) else none
  | 0x1 => if r.ty == 0 then some (.launchi p (Target.ofCode r.t0) (Target.ofCode r.t1)) else none
  | 0x2 => if r.ty == 0 then some (.launcht p (Target.ofCode r.t0) (Target.ofCode r.t1)) else none
  | 0x3 => if r.ty == 0 then some (.splice p (Target.ofCode r.t0) (Target.ofCode r.t1)) else none
  | 0x4 => if r.ty == 0 then some (.lstat p (Target.ofCode r.t0) (Target.ofCode r.t1)) else none
  | 0x5 => if r.ty == 0 then some (.lcancel p (Target.ofCode r.t0) (Target.ofCode r.t1)) else none
  | 0x8 => if r.ty / 2 % 8 == 0 && r.t0 == 256 && r.t1 == 256 then some (.ipf p (bitAt r.ty 0)) else none
  | 0x9 => if r.ty / 2 % 8 == 0 && r.t0 == 256 && r.t1 == 256 then some (.ipin p (bitAt r.ty 0)) else none
  | 0xA => if r.ty == 0 && r.t0 == 256 && r.t1 == 256 then some (.iunpin p) else none
  | 0xB => if r.ty / 2 % 8 == 0 && r.t0 == 256 && r.t1 == 256 then some (.iinv p (bitAt r.ty 0)) else none
  | _ => none

/-- Opcodes 0xF0 to 0xFF (R70); `none` is IllegalEncoding. -/
def decodeRowF (r : Raw) (p : Pred) : Option Instr :=
  match r.op % 16 with
  | 0x0 => if r.ty == 0 then some (.thatch p (Target.ofCode r.t0) (Target.ofCode r.t1)) else none
  | 0x1 => if r.ty / 2 % 8 == 0 then some (.snap p (bitAt r.ty 0) (Target.ofCode r.t0) (Target.ofCode r.t1)) else none
  | 0x2 => if r.ty == 0 then some (.digest p (Target.ofCode r.t0) (Target.ofCode r.t1)) else none
  | 0x3 => if r.ty == 0 then some (.statf p (Target.ofCode r.t0) (Target.ofCode r.t1)) else none
  | _ => none

/-- Decodes a word with its literal words, without the range checks of `Instr.encOk`. An unassigned opcode is no
instruction (R68). -/
def decodeRow (r : Raw) (p : Pred) (l0 l1 : Nat) : Option Instr :=
  match r.op / 16 with
  | 0x0 => decodeRow0 r p l0 l1
  | 0x1 => decodeRow1 r p
  | 0x2 => decodeRow2 r p
  | 0x3 => decodeRow3 r p
  | 0x4 => decodeRow4 r p
  | 0x5 => decodeRow5 r p
  | 0x6 => decodeRow6 r p
  | 0x7 => decodeRow7 r p
  | 0x8 => decodeRow8 r p
  | 0x9 => decodeRow9 r p
  | 0xA => decodeRowA r p
  | 0xB => decodeRowB r p
  | 0xC => decodeRowC r p l0
  | 0xD => decodeRowD r p l0
  | 0xE => decodeRowE r p
  | 0xF => decodeRowF r p
  | _ => none

/-- Decodes one instruction word with its literal words under the IllegalEncoding checks (R54, R56, R67, R68, R143). -/
def decodeIns (w l0 l1 : IWord) : Option Instr :=
  let r := Raw.ofWord w
  ((Pred.ofCode r.pr).bind fun p => decodeRow r p l0.toNat l1.toNat).filter Instr.encOk

/-- Decodes the instruction at the head of a list of code words: IllegalEncoding before BadSlot (R66). -/
def decodeWords : List IWord → Except DecodeErr (Instr × List IWord)
  | [] => .error .truncated
  | w :: rest =>
    let n := litWords w
    if rest.length < n then .error .truncated
    else
      match decodeIns w (rest.getD 0 0) (rest.getD 1 0) with
      | none => .error .illegal
      | some i => if i.targets.all Target.listed then .ok (i, rest.drop n) else .error .badSlot

/-- Code words of little-endian bytes (R5). -/
def wordsOfBytes : List Byte → List IWord
  | a :: b :: c :: d :: rest => (d ++ c ++ b ++ a : BitVec 32) :: wordsOfBytes rest
  | _ => []

/-- The four bytes of a code word, lowest address first (R5). -/
def bytesOfWord (w : IWord) : List Byte :=
  [w.extractLsb' 0 8, w.extractLsb' 8 8, w.extractLsb' 16 8, w.extractLsb' 24 8]

/-- Decodes the instruction at the head of a list of bytes, and answers the bytes after it. -/
def decodeBytes (bs : List Byte) : Except DecodeErr (Instr × List Byte) :=
  match decodeWords (wordsOfBytes bs) with
  | .error e => .error e
  | .ok (i, rest) => .ok (i, bs.drop (bs.length - bs.length % 4 - 4 * rest.length))

/-- The three code words of an instruction of `nbits` bits, numbered as the opcode table numbers them; bits above are 0. -/
def tableWords (nbits w : Nat) : List IWord :=
  let n := w % 2 ^ nbits
  [BitVec.ofNat 32 n, BitVec.ofNat 32 (n / 2 ^ 32), BitVec.ofNat 32 (n / 2 ^ 64)]

/-- The instruction the decoder reads from an instruction whose bits are w. -/
def decodeTableWord (nbits w : Nat) : Option Instr :=
  match decodeBytes ((tableWords nbits w).flatMap bytesOfWord) with
  | .ok (i, _) => some i
  | .error _ => none

/-- The fields of an instruction's word; event rows have no word. -/
def Instr.raw : Instr → Option Raw
  | .nop p => some ⟨0x00, p.code, 0, 0, 0⟩
  | .lit p t a b _ => some ⟨0x01, p.code, t.code.toNat, a.code, b.code⟩
  | .imm p t a i => some ⟨0x02, p.code, t.code.toNat, a.code, i.toNat⟩
  | .mov p v a b => some ⟨0x03, p.code, v.toNat, a.code, b.code⟩
  | .sel p v a b => some ⟨0x04, p.code, v.toNat, a.code, b.code⟩
  | .rdk p a x n => some ⟨0x05, p.code, 0, a.code, x.toNat * 256 + n.val⟩
  | .wrk p x n => some ⟨0x06, p.code, 0, 256, x.toNat * 256 + n.val⟩
  | .rdsr p a r => some ⟨0x07, p.code, 0, a.code, r.toNat⟩
  | .wrsr p r => some ⟨0x08, p.code, 0, 256, r.toNat⟩
  | .br p _ => some ⟨0x09, p.code, 0, 256, 256⟩
  | .bri p => some ⟨0x0A, p.code, 0, 256, 256⟩
  | .exit p n => some ⟨0x0B, p.code, 0, 256, n.val⟩
  | .exitv p => some ⟨0x0C, p.code, 0, 256, 256⟩
  | .retire p => some ⟨0x0D, p.code, 0, 256, 256⟩
  | .trap p c => some ⟨0x0E, p.code, 0, 256, c.toNat⟩
  | .yield p => some ⟨0x0F, p.code, 0, 256, 256⟩
  | .xop p n a b => some ⟨0x14, p.code, n.val, a.code, b.code⟩
  | .xopLoad p => some ⟨0x14, p.code, 8, 256, 256⟩
  | .add p t a b => some ⟨0x20, p.code, t.code.toNat, a.code, b.code⟩
  | .sub p t a b => some ⟨0x21, p.code, t.code.toNat, a.code, b.code⟩
  | .addi p t a i => some ⟨0x22, p.code, t.code.toNat, a.code, i.toNat⟩
  | .mul p t a b => some ⟨0x23, p.code, t.code.toNat, a.code, b.code⟩
  | .mulh p t a b => some ⟨0x24, p.code, t.code.toNat, a.code, b.code⟩
  | .mad p t a b => some ⟨0x25, p.code, t.code.toNat, a.code, b.code⟩
  | .div p t a b => some ⟨0x26, p.code, t.code.toNat, a.code, b.code⟩
  | .rem p t a b => some ⟨0x27, p.code, t.code.toNat, a.code, b.code⟩
  | .neg p t a b => some ⟨0x28, p.code, t.code.toNat, a.code, b.code⟩
  | .abs p t a b => some ⟨0x29, p.code, t.code.toNat, a.code, b.code⟩
  | .min p t a b => some ⟨0x2A, p.code, t.code.toNat, a.code, b.code⟩
  | .max p t a b => some ⟨0x2B, p.code, t.code.toNat, a.code, b.code⟩
  | .clamp p t a b => some ⟨0x2C, p.code, t.code.toNat, a.code, b.code⟩
  | .and p t a b => some ⟨0x2D, p.code, t.code.toNat, a.code, b.code⟩
  | .or p t a b => some ⟨0x2E, p.code, t.code.toNat, a.code, b.code⟩
  | .xor p t a b => some ⟨0x2F, p.code, t.code.toNat, a.code, b.code⟩
  | .not p t a b => some ⟨0x30, p.code, t.code.toNat, a.code, b.code⟩
  | .andn p t a b => some ⟨0x31, p.code, t.code.toNat, a.code, b.code⟩
  | .shl p t a b => some ⟨0x32, p.code, t.code.toNat, a.code, b.code⟩
  | .shr p t a b => some ⟨0x33, p.code, t.code.toNat, a.code, b.code⟩
  | .sar p t a b => some ⟨0x34, p.code, t.code.toNat, a.code, b.code⟩
  | .rot p t a b => some ⟨0x35, p.code, t.code.toNat, a.code, b.code⟩
  | .shli p t a i => some ⟨0x36, p.code, t.code.toNat, a.code, i.toNat⟩
  | .shri p t a i => some ⟨0x37, p.code, t.code.toNat, a.code, i.toNat⟩
  | .sari p t a i => some ⟨0x38, p.code, t.code.toNat, a.code, i.toNat⟩
  | .clz p t a b => some ⟨0x39, p.code, t.code.toNat, a.code, b.code⟩
  | .ctz p t a b => some ⟨0x3A, p.code, t.code.toNat, a.code, b.code⟩
  | .popc p t a b => some ⟨0x3B, p.code, t.code.toNat, a.code, b.code⟩
  | .bfx p t a b => some ⟨0x3C, p.code, t.code.toNat, a.code, b.code⟩
  | .bfi p t a b => some ⟨0x3D, p.code, t.code.toNat, a.code, b.code⟩
  | .sext p t a b => some ⟨0x3E, p.code, t.code.toNat, a.code, b.code⟩
  | .zext p t a b => some ⟨0x3F, p.code, t.code.toNat, a.code, b.code⟩
  | .cmpeq p t a b => some ⟨0x40, p.code, t.code.toNat, a.code, b.code⟩
  | .cmpne p t a b => some ⟨0x41, p.code, t.code.toNat, a.code, b.code⟩
  | .cmplt p t a b => some ⟨0x42, p.code, t.code.toNat, a.code, b.code⟩
  | .cmple p t a b => some ⟨0x43, p.code, t.code.toNat, a.code, b.code⟩
  | .cmpeqi p t a i => some ⟨0x44, p.code, t.code.toNat, a.code, i.toNat⟩
  | .cmplti p t a i => some ⟨0x45, p.code, t.code.toNat, a.code, i.toNat⟩
  | .testb p a i => some ⟨0x46, p.code, 0, a.code, i.toNat⟩
  | .pnot p a b => some ⟨0x47, p.code, 0, a.code, b.code⟩
  | .pand p a b => some ⟨0x48, p.code, 0, a.code, b.code⟩
  | .por p a b => some ⟨0x49, p.code, 0, a.code, b.code⟩
  | .lea p s a b => some ⟨0x4A, p.code, s.toNat, a.code, b.code⟩
  | .ptag p a b => some ⟨0x4B, p.code, 0, a.code, b.code⟩
  | .pspc p a b => some ⟨0x4C, p.code, 0, a.code, b.code⟩
  | .pown p a b => some ⟨0x4D, p.code, 0, a.code, b.code⟩
  | .padd p s a i => some ⟨0x4E, p.code, s.toNat, a.code, i.toNat⟩
  | .poff p a b => some ⟨0x4F, p.code, 0, a.code, b.code⟩
  | .fadd p t a b => some ⟨0x50, p.code, t.code.toNat, a.code, b.code⟩
  | .fsub p t a b => some ⟨0x51, p.code, t.code.toNat, a.code, b.code⟩
  | .fmul p t a b => some ⟨0x52, p.code, t.code.toNat, a.code, b.code⟩
  | .ffma p t a b => some ⟨0x53, p.code, t.code.toNat, a.code, b.code⟩
  | .fdiv p t a b => some ⟨0x54, p.code, t.code.toNat, a.code, b.code⟩
  | .fmin p t a b => some ⟨0x55, p.code, t.code.toNat, a.code, b.code⟩
  | .fmax p t a b => some ⟨0x56, p.code, t.code.toNat, a.code, b.code⟩
  | .fabs p t a b => some ⟨0x57, p.code, t.code.toNat, a.code, b.code⟩
  | .fneg p t a b => some ⟨0x58, p.code, t.code.toNat, a.code, b.code⟩
  | .fsqrt p t a b => some ⟨0x59, p.code, t.code.toNat, a.code, b.code⟩
  | .frcp p t a b => some ⟨0x5A, p.code, t.code.toNat, a.code, b.code⟩
  | .frsq p t a b => some ⟨0x5B, p.code, t.code.toNat, a.code, b.code⟩
  | .fex2 p t a b => some ⟨0x5C, p.code, t.code.toNat, a.code, b.code⟩
  | .flg2 p t a b => some ⟨0x5D, p.code, t.code.toNat, a.code, b.code⟩
  | .fcls p t a b => some ⟨0x5E, p.code, t.code.toNat, a.code, b.code⟩
  | .cvt p t a s => some ⟨0x5F, p.code, t.code.toNat, a.code, s.code.toNat⟩
  | .fcmpeq p t a b => some ⟨0x60, p.code, t.code.toNat, a.code, b.code⟩
  | .fcmplt p t a b => some ⟨0x61, p.code, t.code.toNat, a.code, b.code⟩
  | .fcmple p t a b => some ⟨0x62, p.code, t.code.toNat, a.code, b.code⟩
  | .fcmpun p t a b => some ⟨0x63, p.code, t.code.toNat, a.code, b.code⟩
  | .peek p t a v h o => some ⟨0x64, p.code, t.toNat, a.code, v.toNat * 256 + h.val * 16 + o.val⟩
  | .poke p v h o => some ⟨0x65, p.code, 0, 256, v.toNat * 256 + h.val * 16 + o.val⟩
  | .advr p d h n => some ⟨0x66, p.code, d.toNat, 256, h.val * 32 + n.val⟩
  | .advw p d h n => some ⟨0x67, p.code, d.toNat, 256, h.val * 32 + n.val⟩
  | .anti p d h n => some ⟨0x68, p.code, d.toNat, 256, h.val * 32 + n.val⟩
  | .hcnt p a h => some ⟨0x69, p.code, 0, a.code, h.val * 16⟩
  | .hfree p a h => some ⟨0x6A, p.code, 0, a.code, h.val * 16⟩
  | .tkind p a h o => some ⟨0x6B, p.code, 0, a.code, h.val * 16 + o.val⟩
  | .emit p k v h o => some ⟨0x6C, p.code, k.toNat, 256, v.toNat * 256 + h.val * 16 + o.val⟩
  | .peekt p t a v h o => some ⟨0x6D, p.code, t.toNat, a.code, v.toNat * 256 + h.val * 16 + o.val⟩
  | .poket p v h o => some ⟨0x6E, p.code, 0, 256, v.toNat * 256 + h.val * 16 + o.val⟩
  | .rngc p v s a b => some ⟨0x6F, p.code, v.toNat * 2 + s.toNat, a.code, b.code⟩
  | .vadd p t a b => some ⟨0x70, p.code, t.code.toNat, a.code, b.code⟩
  | .vsub p t a b => some ⟨0x71, p.code, t.code.toNat, a.code, b.code⟩
  | .vmul p t a b => some ⟨0x72, p.code, t.code.toNat, a.code, b.code⟩
  | .vfma p t a b => some ⟨0x73, p.code, t.code.toNat, a.code, b.code⟩
  | .vmin p t a b => some ⟨0x74, p.code, t.code.toNat, a.code, b.code⟩
  | .vmax p t a b => some ⟨0x75, p.code, t.code.toNat, a.code, b.code⟩
  | .vabs p t a b => some ⟨0x76, p.code, t.code.toNat, a.code, b.code⟩
  | .vneg p t a b => some ⟨0x77, p.code, t.code.toNat, a.code, b.code⟩
  | .vand p a b => some ⟨0x78, p.code, 0, a.code, b.code⟩
  | .vor p a b => some ⟨0x79, p.code, 0, a.code, b.code⟩
  | .vxor p a b => some ⟨0x7A, p.code, 0, a.code, b.code⟩
  | .vshl p t a b => some ⟨0x7B, p.code, t.code.toNat, a.code, b.code⟩
  | .vshr p t a b => some ⟨0x7C, p.code, t.code.toNat, a.code, b.code⟩
  | .vsar p t a b => some ⟨0x7D, p.code, t.code.toNat, a.code, b.code⟩
  | .vcmpeq p t a b => some ⟨0x7E, p.code, t.code.toNat, a.code, b.code⟩
  | .vcmplt p t a b => some ⟨0x7F, p.code, t.code.toNat, a.code, b.code⟩
  | .vcmple p t a b => some ⟨0x80, p.code, t.code.toNat, a.code, b.code⟩
  | .vsel p t a b => some ⟨0x81, p.code, t.code.toNat, a.code, b.code⟩
  | .vbcast p t a b => some ⟨0x82, p.code, t.code.toNat, a.code, b.code⟩
  | .vext p t a b => some ⟨0x83, p.code, t.code.toNat, a.code, b.code⟩
  | .vins p t a b => some ⟨0x84, p.code, t.code.toNat, a.code, b.code⟩
  | .vperm p t a b => some ⟨0x85, p.code, t.code.toNat, a.code, b.code⟩
  | .vshuf p t a b => some ⟨0x86, p.code, t.code.toNat, a.code, b.code⟩
  | .vred p t a m o => some ⟨0x87, p.code, t.code.toNat, a.code, m.toNat * 4 + o.code⟩
  | .vscan p t a b => some ⟨0x88, p.code, t.code.toNat, a.code, b.code⟩
  | .vcvt p t a s q c => some ⟨0x89, p.code, t.code.toNat, a.code, s.toNat * 256 + q.val * 16 + c.code.toNat⟩
  | .vex2 p t a b => some ⟨0x8A, p.code, t.code.toNat, a.code, b.code⟩
  | .vrcp p t a b => some ⟨0x8B, p.code, t.code.toNat, a.code, b.code⟩
  | .vrsq p t a b => some ⟨0x8C, p.code, t.code.toNat, a.code, b.code⟩
  | .vtopk p t a x k => some ⟨0x8D, p.code, t.code.toNat, a.code, x.toNat * 128 + k.val⟩
  | .vcmprs p t a b => some ⟨0x8E, p.code, t.code.toNat, a.code, b.code⟩
  | .vexpnd p t a b => some ⟨0x8F, p.code, t.code.toNat, a.code, b.code⟩
  | .vdot p t a m c => some ⟨0x90, p.code, t.code.toNat, a.code, m.toNat * 16 + c.code.toNat⟩
  | .viota p t a b => some ⟨0x91, p.code, t.code.toNat, a.code, b.code⟩
  | .vcnt p t a b => some ⟨0x92, p.code, t.code.toNat, a.code, b.code⟩
  | .lglen p a e w => some ⟨0x93, p.code, 0, a.code, e.toNat * 4 + w.val⟩
  | .lgpack p a i o => some ⟨0x94, p.code, 0, a.code, i.val * 16 + o.val⟩
  | .lgdone p a b => some ⟨0x95, p.code, 0, a.code, b.code⟩
  | .bmv p a => some ⟨0x96, p.code, 8, a.code, 0⟩
  | .bmm p a q => some ⟨0x97, p.code, 8, a.code, q.val⟩
  | .ldl p t a b => some ⟨0xA0, p.code, t.code.toNat, a.code, b.code⟩
  | .stl p t => some ⟨0xA1, p.code, t.code.toNat, 256, 256⟩
  | .ldlv p c w a b => some ⟨0xA2, p.code, c.toNat * 2 + w.toNat, a.code, b.code⟩
  | .stlv p s => some ⟨0xA3, p.code, s.toNat, 256, 256⟩
  | .feset p q => some ⟨0xA4, p.code, q.toNat, 256, 256⟩
  | .feclr p q => some ⟨0xA5, p.code, q.toNat, 256, 256⟩
  | .fetest p q a b => some ⟨0xA6, p.code, q.toNat, a.code, b.code⟩
  | .ldg p t a d m => some ⟨0xA8, p.code, t.code.toNat, a.code, d.toNat * 4 + m.code⟩
  | .stg p t a b => some ⟨0xA9, p.code, t.code.toNat, a.code, b.code⟩
  | .ldgv p d m a b => some ⟨0xAA, p.code, d.toNat * 4 + m.code, a.code, b.code⟩
  | .stgv p m a b => some ⟨0xAB, p.code, m.toNat, a.code, b.code⟩
  | .gath p t a b => some ⟨0xAC, p.code, t.code.toNat, a.code, b.code⟩
  | .scat p t a b => some ⟨0xAD, p.code, t.code.toNat, a.code, b.code⟩
  | .vrcl p a b => some ⟨0xAE, p.code, 0, a.code, b.code⟩
  | .vqry p a b => some ⟨0xAF, p.code, 0, a.code, b.code⟩
  | .atom p t a o => some ⟨0xB0, p.code, t.code.toNat, a.code, o.code⟩
  | .atomr p t a o => some ⟨0xB1, p.code, t.code.toNat, a.code, o.code⟩
  | .cas p t a b => some ⟨0xB2, p.code, t.code.toNat, a.code, b.code⟩
  | .vatom p t a o => some ⟨0xB3, p.code, t.code.toNat, a.code, o.code⟩
  | .faadd p t a r => some ⟨0xB4, p.code, t.code.toNat, a.code, r.toNat⟩
  | .lockt p a b => some ⟨0xB5, p.code, 0, a.code, b.code⟩
  | .unlockt p a b => some ⟨0xB6, p.code, 0, a.code, b.code⟩
  | .qcopy p x e a b => some ⟨0xB8, p.code, x.toNat * 8 + e.val, a.code, b.code⟩
  | .qgath p x e a b => some ⟨0xB9, p.code, x.toNat * 8 + e.val, a.code, b.code⟩
  | .qunf p x e a b => some ⟨0xBA, p.code, x.toNat * 8 + e.val, a.code, b.code⟩
  | .qwait p a b => some ⟨0xBB, p.code, 0, a.code, b.code⟩
  | .qstat p a b => some ⟨0xBC, p.code, 0, a.code, b.code⟩
  | .mloadw p a b => some ⟨0xC0, p.code, 0, a.code, b.code⟩
  | .mswap p a b => some ⟨0xC1, p.code, 0, a.code, b.code⟩
  | .mma p a b => some ⟨0xC2, p.code, 0, a.code, b.code⟩
  | .mscale p t a b => some ⟨0xC3, p.code, t.code, a.code, b.code⟩
  | .accrd p a b => some ⟨0xC4, p.code, 0, a.code, b.code⟩
  | .accwr p a b => some ⟨0xC5, p.code, 0, a.code, b.code⟩
  | .accz p a b => some ⟨0xC6, p.code, 0, a.code, b.code⟩
  | .mpromo p a b => some ⟨0xC7, p.code, 0, a.code, b.code⟩
  | .fscan p a b _ _ _ _ => some ⟨0xC8, p.code, 0, a.code, b.code⟩
  | .fisect p t a v s => some ⟨0xC9, p.code, t.toNat, a.code, v.toNat * 256 + s.toNat⟩
  | .funion p t a v w => some ⟨0xCA, p.code, t.toNat, a.code, v.toNat * 256 + w.toNat⟩
  | .frep p a b _ _ _ => some ⟨0xCB, p.code, 0, a.code, b.code⟩
  | .fred p t a b _ _ _ _ _ => some ⟨0xCC, p.code, t.code.toNat, a.code, b.code⟩
  | .fstop p d k h o => some ⟨0xCD, p.code, d.val * 4 + k.val, 256, h.val * 16 + o.val⟩
  | .fchk p d a h o => some ⟨0xCE, p.code, d.val, a.code, h.val * 16 + o.val⟩
  | .fcrd p d a h o => some ⟨0xCF, p.code, d.val, a.code, h.val * 16 + o.val⟩
  | .bar p a b => some ⟨0xD0, p.code, 0, a.code, b.code⟩
  | .wreg p h a b => some ⟨0xD1, p.code, h.toNat, a.code, b.code⟩
  | .wdrop p a b => some ⟨0xD2, p.code, 0, a.code, b.code⟩
  | .wqry p a b => some ⟨0xD3, p.code, 0, a.code, b.code⟩
  | .chsend p a b => some ⟨0xD4, p.code, 0, a.code, b.code⟩
  | .chrecv p a b => some ⟨0xD5, p.code, 0, a.code, b.code⟩
  | .chcred p a b => some ⟨0xD6, p.code, 0, a.code, b.code⟩
  | .waitv p a b => some ⟨0xD7, p.code, 0, a.code, b.code⟩
  | .tkwait p a b => some ⟨0xD8, p.code, 0, a.code, b.code⟩
  | .tkrd p a b => some ⟨0xD9, p.code, 0, a.code, b.code⟩
  | .cred p a b => some ⟨0xDA, p.code, 0, a.code, b.code⟩
  | .cbcast p a b => some ⟨0xDB, p.code, 0, a.code, b.code⟩
  | .cgath p a b => some ⟨0xDC, p.code, 0, a.code, b.code⟩
  | .fence p sc a b _ _ => some ⟨0xDD, p.code, sc.val, a.code, b.code⟩
  | .launch p a b => some ⟨0xE0, p.code, 0, a.code, b.code⟩
  | .launchi p a b => some ⟨0xE1, p.code, 0, a.code, b.code⟩
  | .launcht p a b => some ⟨0xE2, p.code, 0, a.code, b.code⟩
  | .splice p a b => some ⟨0xE3, p.code, 0, a.code, b.code⟩
  | .lstat p a b => some ⟨0xE4, p.code, 0, a.code, b.code⟩
  | .lcancel p a b => some ⟨0xE5, p.code, 0, a.code, b.code⟩
  | .ipf p d => some ⟨0xE8, p.code, d.toNat, 256, 256⟩
  | .ipin p d => some ⟨0xE9, p.code, d.toNat, 256, 256⟩
  | .iunpin p => some ⟨0xEA, p.code, 0, 256, 256⟩
  | .iinv p x => some ⟨0xEB, p.code, x.toNat, 256, 256⟩
  | .thatch p a b => some ⟨0xF0, p.code, 0, a.code, b.code⟩
  | .snap p k a b => some ⟨0xF1, p.code, k.toNat, a.code, b.code⟩
  | .digest p a b => some ⟨0xF2, p.code, 0, a.code, b.code⟩
  | .statf p a b => some ⟨0xF3, p.code, 0, a.code, b.code⟩
  | .firingSelection _
  | .blockQuiescence _
  | .firingCancellation _ _
  | .actorRetirement _ _
  | .flitArrival _ _
  | .antiTokenArrival _
  | .joinInputStep _ _
  | .forkCopy _ _
  | .turnTokenIntake _ _
  | .turnTokenPublish _ _
  | .ownerUpdate _ _
  | .memoryRequestForward _
  | .homeBankEvent _ _
  | .waitingRequestPerform _
  | .loadAnswer _
  | .completionValueDelivery _
  | .translationMissDecision _
  | .invocationEnd _ _
  | .ldlvWfRelease _ _
  | .lockGrant _
  | .unlockRelease _
  | .fenceComplete _
  | .tkwaitRelease _ _
  | .qwaitRelease _ _
  | .engineCommandEnqueue _ _
  | .engineCommandExecute _ _
  | .regionFeed _ _
  | .regionCommandEnqueue _ _
  | .mloadwExecute _
  | .mscaleExecute _
  | .mswapExecute _
  | .mmaExecute _
  | .mpromoExecute _
  | .statfExecute _
  | .accQueuedAccess _
  | .collectiveExecution _
  | .digestComplete _ _
  | .thatchVerification
  | .thatchTakeEffect
  | .ridgePlacement _ _
  | .launchDependenceMet _
  | .armedClear _
  | .reconfActorFinish _ _
  | .elementSuccessorInstall _
  | .launchEnd _
  | .tickBoundary
  | .tickPeriodChange
  | .detQuantumRelease _
  | .watchdog _
  | .trapRecordWrite _
  | .ridgeTrapNotify _
  | .handlerAction _ _
  | .preemptionOpen _
  | .markerRecord _
  | .cutComplete _
  | .preemptionAbandon _
  | .preemptionResume _
  | .replicaVote _ _ _
  | .snapshotLatch _ _
  | .bridgeReplay _
  | .uePacketReceive _
  | .ptpMessage _ _
  | .load _ _ _
  | .start _ _
  | .stop _ _
  | .query _ _
  | .attest _ _
  | .thatchCommand _ _
  | .mapPage _ _ _ _
  | .setTickPeriod _ _
  | .setTickEpoch _ _
  | .setWdt _ _
  | .setSnapshotTick _ _
  | .bind _ _
  | .handler _ _ _
  | .reclaim _
  | .moduleReset _ _ _
  | .powerLoss
  | .thermalThrottle _ _
  | .thermalShutdown
  | .functionReady _
  | .memoryScrub _ _ => none

/-- The literal words of an instruction (R57, R74, R184, R258, R314). -/
def Instr.lits : Instr → List IWord
  | .lit _ t _ _ v => if t.isWide then [v.setWidth 32, (v >>> 32).setWidth 32] else [v.setWidth 32]
  | .br _ w => [w]
  | .fscan _ _ _ ih oh d root => [BitVec.ofNat 32 (ih.val * 268435456 + oh.val * 16777216 + d.val * 4194304 + root.toNat * 2097152)]
  | .frep _ _ _ ih oh d => [BitVec.ofNat 32 (ih.val * 268435456 + oh.val * 16777216 + d.val * 4194304)]
  | .fred _ _ _ _ ih oh d e o => [BitVec.ofNat 32 (ih.val * 268435456 + oh.val * 16777216 + d.val * 4194304 + e.toNat * 1048576 + o.code * 262144)]
  | .fence _ _ _ _ chain st => [BitVec.ofNat 32 (chain.val * 4096 + st.val)]
  | .nop _ | .imm _ _ _ _ | .mov _ _ _ _ | .sel _ _ _ _ | .rdk _ _ _ _ | .wrk _ _ _ | .rdsr _ _ _ | .wrsr _ _ | .bri _
    | .exit _ _ | .exitv _ | .retire _ | .trap _ _ | .yield _ | .xop _ _ _ _ | .xopLoad _ | .add _ _ _ _
    | .sub _ _ _ _ | .addi _ _ _ _ | .mul _ _ _ _ | .mulh _ _ _ _ | .mad _ _ _ _ | .div _ _ _ _ | .rem _ _ _ _
    | .neg _ _ _ _ | .abs _ _ _ _ | .min _ _ _ _ | .max _ _ _ _ | .clamp _ _ _ _ | .and _ _ _ _ | .or _ _ _ _
    | .xor _ _ _ _ | .not _ _ _ _ | .andn _ _ _ _ | .shl _ _ _ _ | .shr _ _ _ _ | .sar _ _ _ _ | .rot _ _ _ _
    | .shli _ _ _ _ | .shri _ _ _ _ | .sari _ _ _ _ | .clz _ _ _ _ | .ctz _ _ _ _ | .popc _ _ _ _ | .bfx _ _ _ _
    | .bfi _ _ _ _ | .sext _ _ _ _ | .zext _ _ _ _ | .cmpeq _ _ _ _ | .cmpne _ _ _ _ | .cmplt _ _ _ _ | .cmple _ _ _ _
    | .cmpeqi _ _ _ _ | .cmplti _ _ _ _ | .testb _ _ _ | .pnot _ _ _ | .pand _ _ _ | .por _ _ _ | .lea _ _ _ _
    | .ptag _ _ _ | .pspc _ _ _ | .pown _ _ _ | .padd _ _ _ _ | .poff _ _ _ | .fadd _ _ _ _ | .fsub _ _ _ _
    | .fmul _ _ _ _ | .ffma _ _ _ _ | .fdiv _ _ _ _ | .fmin _ _ _ _ | .fmax _ _ _ _ | .fabs _ _ _ _ | .fneg _ _ _ _
    | .fsqrt _ _ _ _ | .frcp _ _ _ _ | .frsq _ _ _ _ | .fex2 _ _ _ _ | .flg2 _ _ _ _ | .fcls _ _ _ _ | .cvt _ _ _ _
    | .fcmpeq _ _ _ _ | .fcmplt _ _ _ _ | .fcmple _ _ _ _ | .fcmpun _ _ _ _ | .peek _ _ _ _ _ _ | .poke _ _ _ _
    | .advr _ _ _ _ | .advw _ _ _ _ | .anti _ _ _ _ | .hcnt _ _ _ | .hfree _ _ _ | .tkind _ _ _ _ | .emit _ _ _ _ _
    | .peekt _ _ _ _ _ _ | .poket _ _ _ _ | .rngc _ _ _ _ _ | .vadd _ _ _ _ | .vsub _ _ _ _ | .vmul _ _ _ _
    | .vfma _ _ _ _ | .vmin _ _ _ _ | .vmax _ _ _ _ | .vabs _ _ _ _ | .vneg _ _ _ _ | .vand _ _ _ | .vor _ _ _
    | .vxor _ _ _ | .vshl _ _ _ _ | .vshr _ _ _ _ | .vsar _ _ _ _ | .vcmpeq _ _ _ _ | .vcmplt _ _ _ _
    | .vcmple _ _ _ _ | .vsel _ _ _ _ | .vbcast _ _ _ _ | .vext _ _ _ _ | .vins _ _ _ _ | .vperm _ _ _ _
    | .vshuf _ _ _ _ | .vred _ _ _ _ _ | .vscan _ _ _ _ | .vcvt _ _ _ _ _ _ | .vex2 _ _ _ _ | .vrcp _ _ _ _
    | .vrsq _ _ _ _ | .vtopk _ _ _ _ _ | .vcmprs _ _ _ _ | .vexpnd _ _ _ _ | .vdot _ _ _ _ _ | .viota _ _ _ _
    | .vcnt _ _ _ _ | .lglen _ _ _ _ | .lgpack _ _ _ _ | .lgdone _ _ _ | .bmv _ _ | .bmm _ _ _ | .ldl _ _ _ _
    | .stl _ _ | .ldlv _ _ _ _ _ | .stlv _ _ | .feset _ _ | .feclr _ _ | .fetest _ _ _ _ | .ldg _ _ _ _ _
    | .stg _ _ _ _ | .ldgv _ _ _ _ _ | .stgv _ _ _ _ | .gath _ _ _ _ | .scat _ _ _ _ | .vrcl _ _ _ | .vqry _ _ _
    | .atom _ _ _ _ | .atomr _ _ _ _ | .cas _ _ _ _ | .vatom _ _ _ _ | .faadd _ _ _ _ | .lockt _ _ _ | .unlockt _ _ _
    | .qcopy _ _ _ _ _ | .qgath _ _ _ _ _ | .qunf _ _ _ _ _ | .qwait _ _ _ | .qstat _ _ _ | .mloadw _ _ _
    | .mswap _ _ _ | .mma _ _ _ | .mscale _ _ _ _ | .accrd _ _ _ | .accwr _ _ _ | .accz _ _ _ | .mpromo _ _ _
    | .fisect _ _ _ _ _ | .funion _ _ _ _ _ | .fstop _ _ _ _ _ | .fchk _ _ _ _ _ | .fcrd _ _ _ _ _ | .bar _ _ _
    | .wreg _ _ _ _ | .wdrop _ _ _ | .wqry _ _ _ | .chsend _ _ _ | .chrecv _ _ _ | .chcred _ _ _ | .waitv _ _ _
    | .tkwait _ _ _ | .tkrd _ _ _ | .cred _ _ _ | .cbcast _ _ _ | .cgath _ _ _ | .launch _ _ _ | .launchi _ _ _
    | .launcht _ _ _ | .splice _ _ _ | .lstat _ _ _ | .lcancel _ _ _ | .ipf _ _ | .ipin _ _ | .iunpin _ | .iinv _ _
    | .thatch _ _ _ | .snap _ _ _ _ | .digest _ _ _ | .statf _ _ _ | .firingSelection _ | .blockQuiescence _
    | .firingCancellation _ _ | .actorRetirement _ _ | .flitArrival _ _ | .antiTokenArrival _ | .joinInputStep _ _
    | .forkCopy _ _ | .turnTokenIntake _ _ | .turnTokenPublish _ _ | .ownerUpdate _ _ | .memoryRequestForward _
    | .homeBankEvent _ _ | .waitingRequestPerform _ | .loadAnswer _ | .completionValueDelivery _
    | .translationMissDecision _ | .invocationEnd _ _ | .ldlvWfRelease _ _ | .lockGrant _ | .unlockRelease _
    | .fenceComplete _ | .tkwaitRelease _ _ | .qwaitRelease _ _ | .engineCommandEnqueue _ _
    | .engineCommandExecute _ _ | .regionFeed _ _ | .regionCommandEnqueue _ _ | .mloadwExecute _ | .mscaleExecute _
    | .mswapExecute _ | .mmaExecute _ | .mpromoExecute _ | .statfExecute _ | .accQueuedAccess _
    | .collectiveExecution _ | .digestComplete _ _ | .thatchVerification | .thatchTakeEffect | .ridgePlacement _ _
    | .launchDependenceMet _ | .armedClear _ | .reconfActorFinish _ _ | .elementSuccessorInstall _ | .launchEnd _
    | .tickBoundary | .tickPeriodChange | .detQuantumRelease _ | .watchdog _ | .trapRecordWrite _ | .ridgeTrapNotify _
    | .handlerAction _ _ | .preemptionOpen _ | .markerRecord _ | .cutComplete _ | .preemptionAbandon _
    | .preemptionResume _ | .replicaVote _ _ _ | .snapshotLatch _ _ | .bridgeReplay _ | .uePacketReceive _
    | .ptpMessage _ _ | .load _ _ _ | .start _ _ | .stop _ _ | .query _ _ | .attest _ _ | .thatchCommand _ _
    | .mapPage _ _ _ _ | .setTickPeriod _ _ | .setTickEpoch _ _ | .setWdt _ _ | .setSnapshotTick _ _ | .bind _ _
    | .handler _ _ _ | .reclaim _ | .moduleReset _ _ _ | .powerLoss | .thermalThrottle _ _ | .thermalShutdown
    | .functionReady _ | .memoryScrub _ _ => []

/-- The code words of an instruction: its word and its literals (R57). Event rows have none. -/
def encode (i : Instr) : List IWord :=
  match i.raw with
  | some r => r.toWord :: i.lits
  | none => []

end Sys2Proof
end

