-- ==== Sys2Proof/Machine/State.lean ====
section
/-! DEFINITION. The state of the module as plain data, the reasons a step can stop, and the state right after reset.
Each field cites the rule that names it; INVENTORY.md lists them with their reset values. -/

namespace Sys2Proof.Machine

/-- Why a step stops. -/
inductive Fault where
  /-- The module is powered off (R371): `step` raises it for every operation but MODULE_RESET. It keeps no state, so nothing can
  go on; stopping is safe. -/
  | poweredOff
  deriving DecidableEq, Repr

/-- Why an operation has no meaning. -/
inductive Refusal where
  /-- `exec` raises it for a constructor that has no meaning yet; safe. -/
  | notModelled (mnemonic : String)
  deriving DecidableEq, Repr

/-- The fault codes 0x01 to 0x19 (R328). -/
inductive TrapCode where
  | illegalEncoding | illegalPrefix | badTarget | badSlot | noExit | multiExit | rateViolation | translationMiss
  | permission | spaceViolation | alignment | versionReclaimed | malformedStream | antiOverflow | storeHoldOverflow
  | layoutMismatch | deadlock | patchTrap | softwareTrap | digestMismatch | memoryUncorrectable | linkFailure
  | watchdog | waitTableIncomplete | privilege
  deriving DecidableEq, Repr

/-- A value on a port: 64 bits or 512 bits, at the width its producer made (R191). -/
inductive Value where
  | s (w : Word)
  | v (x : Vec)
  deriving DecidableEq, Repr

/-- Token kinds (R18). -/
inductive Kind where
  | data | head | body | tail | stop (k : Fin 4) | eos | reconf | marker | mswap | ord | stat
  deriving DecidableEq, Repr

/-- A token: one flit. Its PROT field is a function of the others (`Token.prot`), and an error that the check finds is an operand of
FLIT_ARRIVAL (R16, R17; log entry 77). -/
structure Token where
  kind : Kind
  tag  : BitVec 32
  pay  : Vec
  deriving DecidableEq, Repr

/-- A token in a FIFO with its position, counted from 0 at install (R252). -/
structure Queued where
  tok : Token
  pos : Nat
  deriving DecidableEq, Repr

/-- A flit still travelling: bridges left to cross, link replays (R135), whether the consumer annihilates it when it lands (R174), and
whether its next bridge's sender has sent it and waits for the acknowledgement (R134, R135). -/
structure Flight where
  tok     : Token
  hops    : Nat
  retries : Nat
  marked  : Bool
  sent    : Bool := false
  deriving DecidableEq, Repr

/-- A handle word (R30). -/
structure HandleWord where
  used : Bool
  out  : Bool
  var  : Bool
  tile : Bool
  rate : Nat
  max  : Nat
  deriving DecidableEq, Repr

/-- Join modes (R29). -/
inductive Join where
  | all | early | isect | union
  deriving DecidableEq, Repr

/-- Built-in kinds of actors (R29). -/
inductive ActorKind where
  | ordinary | fork | turn | own
  deriving DecidableEq, Repr

/-- An actor descriptor (R29). -/
structure ActorDesc where
  entry    : List Nat
  hnd      : List HandleWord
  keepMask : BitVec 16
  keepIdx  : Nat
  prio     : Nat
  stage    : Nat
  stauto   : Bool
  join     : Join
  sel      : Nat
  dmask    : BitVec 16
  eosph    : Nat
  eosv     : Bool
  kind     : ActorKind
  isPure   : Bool
  shg      : Nat
  px       : Nat
  py       : Nat
  kparam   : BitVec 32
  deriving DecidableEq, Repr

/-- An edge-table entry (R31). -/
structure EdgeDesc where
  pact    : Nat
  ph      : Nat
  cact    : Nat
  chnd    : Nat
  depth   : Nat
  init    : Nat
  initIdx : Nat
  deriving DecidableEq, Repr

/-- A shingle-table entry with its port list and route table (R32). -/
structure ShingleDesc where
  w      : Nat
  h      : Nat
  align  : Nat
  matrix : Bool
  ports  : List (BitVec 32)
  routes : List Byte
  deriving DecidableEq, Repr

/-- A segment of a data object (R105): space 0 GLOBAL, 1 DIEMEM, 2 LOCAL. -/
structure Segment where
  space : Nat
  actor : Nat
  off   : Nat
  bytes : List Byte
  deriving DecidableEq, Repr

/-- A chained instruction of an image: its chain, step, and actor (R79, R233). -/
structure ChainStep where
  chain : Nat
  step  : Nat
  actor : Nat
  deriving DecidableEq, Repr

/-- A configuration image as the loader reads it (R28 to R33, R64, R65, R232). -/
structure Image where
  grade     : Nat
  code      : List IWord
  starts    : List Bool
  actors    : List ActorDesc
  edges     : List EdgeDesc
  shingles  : List ShingleDesc
  nchain    : Nat
  invm      : Bool
  ppi       : Nat
  ext       : List Nat
  nohold    : List Bool
  initToks  : List Token
  keepInit  : List Word
  relocs    : List Word
  blocks    : List (Nat × Nat)
  ranges    : List (Nat × Nat)
  steps     : List ChainStep
  reps      : List Nat
  stages    : List Nat
  deriving DecidableEq, Repr

/-- Lane-group state (R207): G = 2 ^ `w`. -/
structure LaneGroups where
  w    : Nat
  occ  : BitVec 16
  step : List (BitVec 32)
  sid  : List (BitVec 32)
  deriving DecidableEq, Repr

/-- A latched ISECT or UNION match (R255, R256). -/
structure JoinMatch where
  stop  : Bool
  k     : Nat
  coord : BitVec 32
  pa    : Bool
  pb    : Bool
  va    : Vec
  vb    : Vec
  deriving DecidableEq, Repr

/-- An installed actor (R29, R39, R43, R159, R169, R171, R181, R207, R251, R255, R262, R285, R303, R333). `eosOut` and `recOut` say which outputs
have carried EOS, and RECONF (R129, R173). -/
structure Actor where
  lid     : Nat
  g       : Nat
  aidx    : Nat
  desc    : ActorDesc
  stage   : Nat
  range   : Nat × Nat
  reps    : Nat
  keep    : List Word
  phase   : Nat
  rnd     : BitVec 2
  flags   : BitVec 5
  seed    : Word
  pass    : Nat
  yld     : Bool
  retired : Bool
  susp    : Option Nat
  flushed : Bool
  done    : Bool
  lg      : LaneGroups
  facc    : Word
  fn      : BitVec 32
  depths  : List (Option Nat)
  seqs    : List (BitVec 32)
  eosOut  : List Bool
  latch   : Option JoinMatch
  fcount  : Nat
  marked  : Bool
  turnIn  : List Token
  turnOut : List (List Token)
  ownNext : Nat
  recOut  : BitVec 16 := 0
  deriving DecidableEq, Repr

/-- What stands in a slot of a decoded block: an instruction word, a literal, a prefix, or a word that an EMULATE slot claims
(Thatch slot, number of inserted words, INMAP; R150, R151). -/
inductive SlotKind where
  | ins | lit | pfx
  | emu (tslot : Nat) (inmap : BitVec 12)
  deriving DecidableEq, Repr

/-- A slot of the block a firing runs: 0..63, and 64 + 4n + j for inserted word j of slot n; its ports and whether it has issued in
this entry of the block (R59, R61, R163). `fed` is the word whose result arrived last: words that one result readies are ready in the same
cycle. -/
structure Slot where
  id     : Nat
  kind   : SlotKind
  word   : IWord
  a      : Option Value
  b      : Option Value
  c      : Option Value
  p      : Option Value
  issued : Bool
  fed    : Option Nat := none
  deriving DecidableEq, Repr

/-- What the issued exit-class instruction asks for (R184). -/
inductive ExitReq where
  | branch (word : Nat)
  | exit (phase : Nat)
  | retire
  | yield
  deriving DecidableEq, Repr

/-- A held write, with the block entry and slot that order it (R61, R182). -/
structure HeldWrite where
  reg   : Nat
  entry : Nat
  slot  : Nat
  val   : Word
  deriving DecidableEq, Repr

/-- An unpublished output slot (R185): flit number for a tile handle, 0 otherwise. -/
structure OutWrite where
  h     : Nat
  off   : Nat
  flit  : Nat
  entry : Nat
  slot  : Nat
  kind  : Kind
  tag   : Option (BitVec 32)
  pay   : Vec
  deriving DecidableEq, Repr

/-- A read of an FSCAN (R260): its pointer, its bytes, and the number of input tokens that the scan had read when it came to it. -/
structure FibAsk where
  ptr : Word
  n   : Nat
  at_ : Nat
  deriving DecidableEq, Repr

/-- An FSCAN that has issued (R258, R259): its handles, the depth of its output and the bounds, and its ports A and B. -/
structure ScanJob where
  ih     : Nat
  oh     : Nat
  root   : Bool
  d      : Nat
  bi     : Nat
  bo     : Nat
  ptr    : Word
  cursor : Word
  deriving DecidableEq, Repr

/-- What a waiting instruction that sends no memory request waits for (R164). -/
inductive WaitFor where
  | fullEmpty (off : Nat) (clear : Bool)
  | tick (t : Word) (det : Bool)
  | engineStatus (id : Word)
  | engineRoom (die eng kind : Nat) (rec : Vec) (follow : Option Vec) (seq : Nat) (before : List Nat)
  | regionRoom (origin op ty : Nat) (rec : Vec) (b ptr : Word) (seq : Nat)
  | regionDone (origin serial : Nat)
  | thatch
  | digest (rec : Vec) (before : List Nat)
  | request (id : Nat)
  | scan (job : ScanJob) (want : List (FibAsk × Nat)) (got : List (FibAsk × Nat))
  deriving DecidableEq, Repr

/-- A value due to the firing (R164). -/
structure Due where
  slot : Nat
  dst  : List Target
  what : WaitFor
  deriving DecidableEq, Repr

/-- A firing in progress (R158 to R166). `snap` holds F or FR of each handle at selection (R160); `fid` tells firings apart; `exitBy` is the
word that asked for the exit (R151, R164); `took` is the cycle in which a word last issued, with the classes of the words that issued in it (R163). -/
structure Firing where
  fid      : Nat
  la       : Nat
  phase    : Nat
  flushing : Bool
  inv      : Nat
  snap     : List Nat
  chosen   : Option Nat
  entry    : Nat
  hdr      : Nat
  bid      : Nat
  slots    : List Slot
  exit     : Option ExitReq
  exitBy   : Nat := 0
  keepW    : List HeldWrite
  srW      : List HeldWrite
  flags    : BitVec 5
  pend     : List Nat
  antis    : List Nat
  outs     : List OutWrite
  lgW      : Option LaneGroups
  frW      : Option (Word × BitVec 32)
  lgUsed   : Bool
  fibUsed  : Bool
  tickh    : Option (BitVec 32)
  due      : List Due
  nlst     : Nat
  nmem     : Nat
  nlau     : Nat
  cancel   : Bool
  xopLoad  : Option Nat
  took     : Nat × List Nat := (0, [])
  deriving DecidableEq, Repr

/-- Outcome of decoding a block (R66, R141): clean, or the first fault with its slot, inserted word, Thatch slot and detail. -/
structure DecodeOutcome where
  code  : Option TrapCode
  slot  : Nat
  emui  : Nat
  tslot : Nat
  tcode : Nat
  word  : IWord
  deriving DecidableEq, Repr

/-- A decoded block in an element's cache, most recently used first (R140, R141, R146). -/
structure DecodedBlock where
  lid   : Nat
  hdr   : Nat
  gen   : Nat
  lines : Nat
  out   : DecodeOutcome
  pins  : List (Nat × Nat)
  deriving DecidableEq, Repr

/-- An element that holds actors (R9, R159, R186, R352). -/
structure Elem where
  actors  : List Actor
  firing  : Option Firing
  rot     : List (Nat × Nat)
  agedRot : Nat
  xopOff  : Option Nat
  xopBits : List Byte
  xopFf   : BitVec 128
  dec     : List DecodedBlock
  deriving DecidableEq, Repr

/-- An open burst on an edge (R21): data flits named by the HEAD and data flits seen. -/
structure Burst where
  ndata : Nat
  seen  : Nat
  deriving DecidableEq, Repr

/-- An edge (R13, R14, R21, R174, R176, R252, R324, R342). Its ends are (rank, element-local actor, handle). -/
structure Edge where
  lid      : Nat
  g        : Nat
  eidx     : Nat
  prank    : Nat
  pla      : Nat
  ph       : Nat
  crank    : Nat
  cla      : Nat
  ch       : Nat
  depth    : Nat
  bridges  : List Nat
  fifo     : List Queued
  link     : List Flight
  arrived  : Nat
  burst    : Option Burst
  owed     : Nat
  antis    : Nat
  lastCrd  : Option (BitVec 32)
  lastKind : Option Kind
  marker   : Option (Nat × Nat)
  dropping : Bool
  det      : Bool
  quantum  : Bool
  deriving DecidableEq, Repr

/-- A line of a cluster code cache, most recently used first, with the pins of each actor (R139, R146). -/
structure CodeLine where
  line : Nat
  pins : List (Nat × Nat)
  deriving DecidableEq, Repr

/-- A store event in a held-store buffer (R238, R346). -/
structure HeldEvent where
  req  : Nat
  lid  : Nat
  g    : Nat
  inv  : Nat
  ptr  : Word
  gran : Nat
  mask : BitVec 64
  data : Vec
  deriving DecidableEq, Repr

/-- A translation held in a TLB (R221): partition, page offset, page size, entry. -/
structure TlbEntry where
  part : Nat
  base : Nat
  size : Nat
  pte  : Word
  deriving DecidableEq, Repr

/-- What each cluster holds (R139, R146, R221, R222, R238). -/
structure Cluster where
  code   : List CodeLine
  pinRef : Nat
  held   : List HeldEvent
  tlb    : List TlbEntry
  roc    : List (Nat × Nat × Vec)
  deriving DecidableEq, Repr

/-- A chain's position at its cluster memory interface (R233): round, index of the next step, requests sent per step, and the
last forwarded non-null request with its home (R292). -/
structure ChainPos where
  lid   : Nat
  g     : Nat
  chain : Nat
  steps : List (Nat × Nat)
  round : Nat
  at_   : Nat
  sent  : List Nat
  last  : Option (Nat × Nat)
  deriving DecidableEq, Repr

/-- The memory operations a request can carry (R235, R299, R308, R125). -/
inductive ReqKind where
  | ldg (t : Ty) (m : LdMode) (v : BitVec 16)
  | ldgv (m : LdMode) (v : BitVec 16)
  | stg (t : Ty) (x : Word)
  | stgv (x : Vec) (mask : BitVec 64)
  | gath (t : Ty) (idx : Vec)
  | scat (t : Ty) (idx x : Vec)
  | vrcl (v : BitVec 16)
  | vqry
  | atom (ret : Bool) (o : AtomOp) (t : Ty) (x : Word)
  | cas (t : Ty) (old new : Word)
  | vatom (o : AtomOp) (t : Ty) (idx x : Vec)
  | faadd (ret : Bool) (t : Ty) (x : Word)
  | lockt | unlockt
  | bar (i : Nat)
  | chsend (x : Vec) | chrecv | chcred (n : Word)
  | waitv (v : BitVec 16)
  | launchi (rec : Vec) (params : List Word) (v : BitVec 16)
  | fence (scope : Nat)
  | null
  deriving DecidableEq, Repr

/-- Where a request stands. -/
inductive Stage where
  | queued | missed | remote | home | waiting | held | done
  deriving DecidableEq, Repr

/-- A request of a memory node or a synchronisation instruction (R230 to R239, R290, R304, R308). `released` says of a store that the held-store
buffer took that its invocation has ended (R238). -/
structure Req where
  id    : Nat
  fid   : Nat
  rank  : Nat
  la    : Nat
  lid   : Nat
  g     : Nat
  slot  : Nat
  dst   : List Target
  ptr   : Word
  kind  : ReqKind
  chain : Option (Nat × Nat × Nat)
  scp   : Option (Bool × Bool × Nat)
  inv   : Nat
  stage : Stage
  next  : Nat
  pas   : List (Option Nat)
  out   : Vec
  ver   : BitVec 16
  count : Nat
  arr   : Nat
  sub   : Nat
  released : Bool := false
  deriving DecidableEq, Repr

/-- Command kinds of a Quarry engine (R242 to R244). -/
inductive EngKind where
  | copy | gath | unf
  deriving DecidableEq, Repr

/-- A remote read that an engine command has sent: its id, the first of the moves it reads for, its pointer and how many bytes (R242). -/
structure EngAsk where
  id    : Nat
  first : Nat
  ptr   : Word
  len   : Nat
  deriving DecidableEq, Repr

/-- A queued engine command (R240 to R246). `ent` numbers its entry into its queue (R283, R323), and `failed` is the fault of a command whose remote
writes are still to be acknowledged (R247, R360). A QGATH has read the indexes `idxs`, by row; of the command's moves the bytes `rd` have been
read, by number, and the moves `wr` are written; `turn` counts its events. `miss` is the page that it waits for, with its arrival (R221), and `want`
the issue of a follow-on that waits for room (R246). -/
structure EngCmd where
  serial : Nat
  seq    : Nat
  kind   : EngKind
  recd    : Vec
  follow : Option Vec
  rank   : Nat
  la     : Nat
  lid    : Nat
  g      : Nat
  det    : Bool
  before : List Nat
  sent   : Nat
  asked  : List EngAsk
  got    : List (Nat × List Byte)
  acks   : List Nat
  ran    : Bool
  fol    : Option (Nat × Nat)
  ent    : Nat := 0
  failed : Option TrapCode := none
  idxs   : List (Nat × Nat) := []
  rd     : List (Nat × Byte) := []
  wr     : List Nat := []
  turn   : Nat := 0
  miss   : Option (Nat × Nat × Nat) := none
  want   : Option Nat := none
  deriving DecidableEq, Repr

/-- The status of an engine command (R247). -/
structure EngStat where
  serial : Nat
  part   : Nat
  state  : Nat
  code   : Nat
  deriving DecidableEq, Repr

/-- A Quarry engine (R240, R247). `last` is the element whose command entered its queue last, behind which the rotation of R118 goes on. -/
structure Engine where
  queue  : List EngCmd
  serial : Nat
  stats  : List EngStat
  last   : Nat := 0
  deriving DecidableEq, Repr

/-- A tile register with its tags and scales (R268). -/
structure TileReg where
  bits  : BitVec 4096
  ty    : Ty
  smode : Nat
  mx    : List Byte
  bfp   : List (BitVec 32)
  deriving DecidableEq, Repr

/-- Merged statistics counts (R286, R287). -/
structure Stats where
  nan   : Nat
  ovf   : Nat
  ufz   : Nat
  wrap  : Nat
  maxe  : Nat
  tiles : Nat
  deriving DecidableEq, Repr

/-- A command in a region's queue (R269, R277, R346). `started` says that it has started; `tiles` are the tile registers of a started MMA that
an MSWAP behind it has passed (R270). -/
structure RegCmd where
  op     : Nat
  ty     : Nat
  recd    : Vec
  b      : Word
  ptr    : Word
  serial : Nat
  rank   : Nat
  la     : Nat
  fid    : Nat
  slot   : Nat
  dst    : List Target
  detach : Bool
  lid    : Nat
  g      : Nat
  started : Bool := false
  tiles  : Option (List TileReg) := none
  deriving DecidableEq, Repr

/-- A matrix region (R266 to R289). `last` is the element whose command entered its queue last (R118). -/
structure Region where
  lid    : Nat
  g      : Nat
  rgn    : Nat
  origin : Nat
  w      : Nat
  h      : Nat
  act    : List TileReg
  load   : List TileReg
  queue  : List RegCmd
  serial : Nat
  stats  : Stats
  statp  : Word
  seq    : Nat
  feed   : List Byte
  feeder : Option (Nat × Nat × Nat)
  last   : Nat := 0
  deriving DecidableEq, Repr

/-- A stashed version (R229). -/
structure StashEntry where
  stack : Nat
  part  : Nat
  gran  : Nat
  ver   : BitVec 16
  data  : Vec
  deriving DecidableEq, Repr

/-- A wait-for entry (R306, R307). -/
structure WaitEntry where
  idx    : Nat
  serial : Nat
  kind   : Nat
  obj    : Word
  wlid   : Nat
  wrank  : Nat
  wact   : Nat
  wl     : Bool
  wprio  : Nat
  man    : Bool
  hlid   : Nat
  hrank  : Nat
  hact   : Nat
  ha     : Bool
  spill  : Bool
  req    : Option Nat
  frozen : Bool
  deriving DecidableEq, Repr

/-- A trap record's fields (R330), with the entries of a deadlock's cycle, and whether Ridge formed it (R332). -/
structure Trap where
  seq    : Nat
  code   : TrapCode
  ocode  : TrapCode
  precise : Bool
  fatal  : Bool
  handled : Bool
  remap  : Option Nat
  esc    : Bool
  invv   : Bool
  skid   : Nat
  part   : Nat
  lid    : Nat
  g      : Nat
  rank   : Nat
  actor  : Nat
  phase  : Nat
  slot   : Nat
  emui   : Nat
  tslot  : Nat
  bid    : Nat
  detail : Nat
  ivec   : List Nat
  natom  : Nat
  neng   : Nat
  nlst   : Nat
  nmem   : Nat
  nlau   : Nat
  cbase  : Nat
  addr   : Word
  aux    : Word
  cyc    : Nat
  cycle  : List WaitEntry
  ridge  : Bool
  deriving DecidableEq, Repr

/-- States of a launch (R112). -/
inductive LState where
  | queued | waiting | loading | running | done | rejected | cancelled | faulted
  deriving DecidableEq, Repr

/-- A bind record (R117). -/
structure BindRec where
  die    : Nat
  slot   : Nat
  lid    : Nat
  g      : Nat
  ngroup : Nat
  part   : Nat
  prio   : Nat
  iprio  : Nat
  valid  : Bool
  matrix : Bool
  det    : Bool
  armed  : Bool
  succ   : Bool
  rx     : Nat
  ry     : Nat
  rw     : Nat
  rh     : Nat
  imgp   : Word
  tickb  : Word
  deriving DecidableEq, Repr

/-- What a pre-empted launch keeps aside (R345, R346): its parts as the model holds them; `records`, the saved-state records laid out as the rules
give them; its bind records; and, in a splice wavefront, the launch it was saved together with (R129). -/
structure Saved where
  elems    : List (Nat × Elem)
  edges    : List Edge
  localMem : List Host.Cell
  full     : List Nat
  held     : List (Nat × List HeldEvent)
  chains   : List ChainPos
  regions  : List Region
  mate     : Option Nat := none
  records  : List (Nat × List Byte) := []
  binds    : List BindRec := []
  deriving DecidableEq, Repr

/-- A launch (R110 to R133). `recd` is its record, `params` the launch's own copy of its parameters, `queueAt` the
queue it stands in, and `globDone` says that its `.glob` segments have been written (R89). -/
structure Launch where
  lid      : Nat
  part     : Nat
  st       : LState
  late     : Bool
  vany     : Bool
  spliced  : Bool
  reason   : Nat
  vread    : BitVec 16
  recd      : Vec
  params   : List Word
  img      : Option Image
  segs     : List Segment
  origins  : List (Nat × Nat)
  shingles : List (Nat × Nat)
  cbase    : List (Nat × Nat)
  armed    : Option Nat
  succ     : Option Nat
  imgIdx   : Nat
  idle     : Nat
  moved    : Bool
  headAt   : Nat
  handles  : Option Nat
  saved    : Option Saved
  ended    : List Nat
  atoms    : List (Nat × Nat)
  engs     : List (Nat × Nat)
  dieDone  : List Nat
  timed    : Bool
  queueAt  : Nat := 0
  globDone : Bool := false
  deriving DecidableEq, Repr

/-- A latched set of snapshot registers (R352). -/
structure Snapshot where
  serial   : Nat
  cycle    : Nat
  tick     : Nat
  softErr  : List (Nat × Nat)
  discards : List (Nat × Nat)
  pinRef   : List (Nat × Nat)
  suppress : List (Nat × Nat)
  stash    : List (Nat × Nat)
  refused  : List (Nat × Nat)
  counters : List Nat
  deriving DecidableEq, Repr

/-- A host endpoint or peer queue (R364, R366). -/
structure Endpoint where
  id      : Nat
  rev     : BitVec 16
  windows : List Window
  deriving DecidableEq, Repr

/-- A replica set (R348). -/
structure ReplicaSet where
  id    : Nat
  size  : Nat
  index : Nat
  deriving DecidableEq, Repr

/-- A trap record that Ridge has logged and a handler may act on (R333, R334, R339). -/
structure Logged where
  trap    : Trap
  gaddr   : Nat
  handler : Nat
  action  : Option Nat
  deriving DecidableEq, Repr

/-- A pre-emption in progress (R342, R344). -/
structure Preempt where
  lid   : Nat
  epoch : Nat
  since : Nat
  deriving DecidableEq, Repr

/-- A trigger of a snapshot that waits (R353): a SNAP that names its latch cycle, a SNAP.TICK that waits for the next boundary, each with the serial
it has delivered, or a tick that the host named. -/
inductive SnapTrig where
  | atCycle (cycle serial : Nat)
  | atBoundary (serial : Nat)
  | atTick (tick : Nat)
  deriving DecidableEq, Repr

/-- A pre-emption has not made its cut within 1,024 ticks (R344). -/
def Preempt.late (x : Preempt) (tick : Nat) : Bool := decide (1024 ≤ (2 ^ 64 + tick - x.since) % 2 ^ 64)

/-- A partition's changing state (R106, R111, R114, R229, R315, R317, R319, R330, R332, R340, R352, R353, R363, R364, R372). `walks` are the
wait-for entries that this cycle inserted or whose holder it changed, not walked yet (R316). -/
structure Part where
  lidSerial : Nat
  trapSeq   : Nat
  dlkSeq    : Nat
  pending   : List Trap
  ring      : List Trap
  ringNext  : Nat
  logBase   : Option Nat
  logCount  : Nat
  handler   : Option Vec
  logged    : List Logged
  wdt       : Nat
  waits     : List WaitEntry
  waitSer   : Nat
  wtInc     : Bool
  walkTrunc : Nat
  untracked : Nat
  trapDrop  : Nat
  snapDrop  : Nat
  snapSer   : Nat
  latched   : List Snapshot
  trigs     : List SnapTrig
  queues    : List (Nat × List Nat)
  endpoints : List Endpoint
  peers     : List Endpoint
  peerSets  : List (Nat × List Nat)
  replicas  : List ReplicaSet
  epoch     : Nat
  preempt   : Option Preempt
  mapped    : List (Nat × Nat × Bool)
  ptRoot    : Option Nat
  ptNext    : Nat
  walks     : List Nat := []
  windows   : List Window := []
  deriving DecidableEq, Repr

/-- A bank of flash (R368, R369): whether stage 1 and the Ridge firmware verify, the digests that the measurement takes, and the configuration
record: its partitions, the module channel's key, and the operator key under which its signature verifies (0 for none). -/
structure FlashBank where
  stage1Ok  : Bool
  ridgeOk   : Bool
  digests   : List (BitVec 512)
  record    : List (Nat × PartCfg)
  modKey    : PubKey
  recordKey : Nat
  deriving DecidableEq, Repr

/-- What flash holds (R365, R368, R369): the die map (grade, disabled dies, whether Krytlyn's signature verifies, the operator key enrolled in it),
the two banks that BOOTSRC selects, and per channel the last accepted SEQ and the key that the count belongs to. -/
structure Flash where
  grade    : Nat
  disabled : List Nat
  mapOk    : Bool
  opKey    : Nat
  bankA    : FlashBank
  bankB    : FlashBank
  lastSeq  : List (Nat × Nat)
  seqKey   : List (Nat × PubKey)
  deriving DecidableEq, Repr

/-- The module's clock (R121, R181, R367, R371). `ptpOff` is PTP time less the cycle number, in cycles of 0.5 ns; `perDue` says that
a new period takes effect at the boundary just passed; `renum` that an epoch has named the number of the next boundary; `gmPort` is the port that
faces the grandmaster. -/
structure Clock where
  cycle   : Nat
  tick    : Nat
  nextAt  : Nat
  period  : Nat
  newPer  : Option Nat
  perDue  : Bool
  epoch   : Option Nat
  n0      : Nat
  t0      : Nat
  locked  : Bool
  ptpOff  : Int
  renum   : Bool := false
  gmPort  : Nat := 0
  deriving DecidableEq, Repr

/-- Bring-up and readiness (R368, R370), and the key of the module channel in force (R365, R369). -/
structure Boot where
  stage    : Nat
  recovery : Bool
  modpos   : BitVec 6
  bootsrc  : Bool
  recov    : Bool
  dieReady : BitVec 64
  hbm      : BitVec 24
  port     : BitVec 8
  crec     : Bool
  akey     : Bool
  meas     : BitVec 512
  measN    : Nat
  modKey   : PubKey := ⟨0, 0⟩
  deriving DecidableEq, Repr

/-- A submitted Thatch image (R154, R157): its bytes, and the waiting THATCH if one submitted it. -/
structure ThatchSub where
  image : List Byte
  rank  : Nat
  fid   : Nat
  slot  : Nat
  dst   : List Target
  cmd   : Option Cmd
  deriving DecidableEq, Repr

/-- The Thatch slots in force, the same in every cluster (R147, R152, R155, R156). `counts` holds the SUPPRESS counts of the fault-path slots per
partition, cluster and slot (`supKey`). -/
structure Thatch where
  dec     : List (BitVec 512)
  flt     : List (BitVec 256)
  lut     : List Byte
  counts  : List (Nat × Nat)
  gen     : Nat
  iver    : Nat
  subs    : List ThatchSub
  pending : List (List Byte)
  due     : Bool
  deriving DecidableEq, Repr

/-- A lock token that is held (R304). -/
structure Lock where
  bank : Nat
  tok  : Nat
  lid  : Nat
  rank : Nat
  la   : Nat
  deriving DecidableEq, Repr

/-- A group's part in a collective (R320, R321). -/
structure CollPart where
  kind : Nat
  g    : Nat
  rank : Nat
  la   : Nat
  recd  : Vec
  before : List Nat
  deriving DecidableEq, Repr

/-- A collective in progress (R321): the local participants' records and the wire values received from other modules. -/
structure Coll where
  id    : Nat
  kind  : Nat
  part  : Nat
  lid   : Nat
  pset  : Nat
  cseq  : Nat
  parts : List CollPart
  wires : List (Nat × CollHead × List Byte)
  deriving DecidableEq, Repr

/-- A group's contribution to a digest (R349). -/
structure DigestPart where
  g     : Nat
  rank  : Nat
  la    : Nat
  cmpl  : Word
  bytes : List Byte
  deriving DecidableEq, Repr

/-- A launch's digest for one DSEQ (R349 to R351). -/
structure DigestSet where
  lid    : Nat
  part   : Nat
  rset   : Nat
  dseq   : Nat
  sk     : Nat
  parts  : List DigestPart
  value  : Option Word
  remote : List (Nat × Word)
  voteAt : Option Nat
  deriving DecidableEq, Repr

/-- What the module sends out (R134, R360, R365, R370): a reply (its 64 bytes, and a result too long for them), a quote, or a packet to an endpoint
or peer; `via` is the edge bridge that a request or a wire value leaves by, and a byte of a write that its mask leaves out is none. -/
inductive OutMsg where
  | reply (chan : Nat) (packet : Vec) (body : List Word)
  | quote (meas : BitVec 512) (n : Nat) (nonce : Vec) (serial : Word) (sig : List Byte)
  | remoteRead (via req : Nat) (ptr : Word) (len : Nat)
  | remoteWrite (via req : Nat) (ptr : Word) (bytes : List (Option Byte))
  | rdmaData (part off : Nat) (bytes : List Byte)
  | rdmaAck (part off len : Nat)
  | rdmaDecline (part off len : Nat)
  | collective (via pset cseq : Nat) (head : CollHead) (wire : List Byte)
  | digest (rset dseq : Nat) (value : Word)
  deriving DecidableEq, Repr

/-- A message of a DET launch that waits for a tick boundary at its port (R324): the stage of the actor that sent it, the stream it belongs to
(launch, sending actor's rank and number, queue or peer set), and the bytes that no boundary has released yet. -/
structure Parked where
  stage  : Nat
  stream : Nat × Nat × Nat × Nat
  left   : Nat
  msg    : OutMsg
  deriving DecidableEq, Repr

/-- A packet of a DET stream that has arrived over Ultra Ethernet and is not visible yet (R324): the quantum that it was released in, as its
sender numbers them, and whether it is the last of that quantum. -/
structure Arrived where
  quantum : Nat
  last    : Bool
  pkt     : Packet
  deriving DecidableEq, Repr

/-- The element and slot whose word `exec` runs: set by `step` when an element issues. -/
structure Focus where
  rank : Nat
  id   : Nat
  deriving DecidableEq, Repr

/-- The state of the module. -/
structure State where
  /-- powered (R371) -/
  power    : Bool
  boot     : Boot
  flash    : Flash
  /-- the configuration record in force (R369) -/
  cfg      : List (Nat × PartCfg)
  clock    : Clock
  throttle : List Nat
  /-- every byte the spaces hold; an unlisted address reads 0 (R120, R227, R267) -/
  mem      : List Host.Cell
  /-- versions that are not 0, by granule (R226, R227) -/
  vers     : List (Nat × BitVec 16)
  /-- FE granules of local memory that are full (R224) -/
  full     : List Nat
  stash    : List StashEntry
  stashOut : List (Nat × Nat)
  parts    : List (Nat × Part)
  elems    : List (Nat × Elem)
  softErr  : List (Nat × Nat)
  discards : List (Nat × Nat)
  edges    : List Edge
  clusters : List (Nat × Cluster)
  dieTlb   : List (Nat × List TlbEntry)
  chains   : List ChainPos
  engines  : List (Nat × Engine)
  regions  : List Region
  launches : List Launch
  binds    : List BindRec
  reqs     : List Req
  locks    : List Lock
  thatch   : Thatch
  colls    : List Coll
  digests  : List DigestSet
  refused  : List (Nat × Nat)
  outbox   : List OutMsg
  /-- HBM5 granules that hold an uncorrectable error (R227) -/
  faulty   : List Nat
  /-- messages of DET launches that wait at a port for a tick boundary (R324) -/
  parked   : List Parked
  /-- packets of DET streams that wait for a tick boundary to become visible (R324) -/
  inbox    : List Arrived
  /-- the model's own: a serial for firings, requests and arrivals -/
  serial   : Nat
  /-- the model's own: which operations come next [1] -/
  agenda   : List Turn
  /-- the model's own: how many free choices have been made [1] -/
  stepNo   : Nat
  /-- the model's own: the element and slot that issue -/
  focus    : Focus
  deriving DecidableEq, Repr

/-- DESIGN CHOICE [4]: the key of a channel as delivered: a modulus of 4,096 bits and the usual exponent. -/
def PubKey.standard (chan : Nat) : PubKey := ⟨2 ^ 4095 + 2 * chan + 1, 65537⟩

/-- DESIGN CHOICE [4]: the partitions of the record as delivered: partition n is pair n (R1); HBM5 less the top GiB is
divided evenly in 64 MiB units (R372); 2,048 stash entries (R229); trap queue at 0xDFC000 (R332), ring at 0xDF8000 (R317). -/
def PartCfg.standard (n : Nat) : PartCfg :=
  let units := (24 * 2 ^ 36 - 2 ^ 30) / 2 ^ 26 / 32
  { pairs := [n], homeBase := n * units * 2 ^ 26, homeLen := units * 2 ^ 26, stash := 2048, trapOff := 0xDFC000,
    dlkOff := 0xDF8000, key := PubKey.standard n }

/-- A partition with no launch (R111, R315, R330, R340: WDT is 2 ^ 20 ticks). -/
def Part.fresh : Part :=
  { lidSerial := 0, trapSeq := 0, dlkSeq := 0, pending := [], ring := [], ringNext := 0, logBase := none, logCount := 0,
    handler := none, logged := [], wdt := 2 ^ 20, waits := [], waitSer := 0, wtInc := false, walkTrunc := 0,
    untracked := 0, trapDrop := 0, snapDrop := 0, snapSer := 0, latched := [], trigs := [], queues := [], endpoints := [],
    peers := [], peerSets := [], replicas := [], epoch := 0, preempt := none, mapped := [], ptRoot := none, ptNext := 0 }

/-- An element that holds no actor: no patch is loaded, so every function returns 0 (R186). -/
def Elem.empty : Elem :=
  { actors := [], firing := none, rot := [], agedRot := 0, xopOff := none, xopBits := [], xopFf := 0, dec := [] }

/-- A cluster with empty caches and buffers. -/
def Cluster.empty : Cluster := { code := [], pinRef := 0, held := [], tlb := [], roc := [] }

/-- An engine with an empty queue (R240). -/
def Engine.idle : Engine := { queue := [], serial := 0, stats := [] }

/-- A tile register at install (R268). -/
def TileReg.zero : TileReg :=
  { bits := 0, ty := .e4m3, smode := 0, mx := List.replicate 16 0, bfp := List.replicate 16 0 }

/-- Statistics counts just reset (R287). -/
def Stats.zero : Stats := { nan := 0, ovf := 0, ufz := 0, wrap := 0, maxe := 0, tiles := 0 }

/-- Lane-group state at install (R207). -/
def LaneGroups.fresh : LaneGroups :=
  { w := 0, occ := 0, step := List.replicate 16 0, sid := List.replicate 16 0 }

/-- No Thatch slot is in force after bring-up, and the IVER in force is 0 (R156). -/
def Thatch.empty : Thatch :=
  { dec := [], flt := [], lut := [], counts := [], gen := 0, iver := 0, subs := [], pending := [],
    due := false }

/-- The clock right after reset: cycle 0 (R181), tick 0 (R367), a period of 4,000 cycles (R121). DESIGN CHOICE [5]: the first
boundary after reset is at cycle 4,000; MODULE_RESET sets it from the cycle in which the record is verified. -/
def Clock.fresh : Clock :=
  { cycle := 0, tick := 0, nextAt := 4000, period := 4000, newPer := none, perDue := false, epoch := none, n0 := 0, t0 := 0,
    locked := false, ptpOff := 0 }

/-- Nothing verified and nothing ready (R368); the measurement starts at 64 zero bytes (R370). DESIGN CHOICE [3]: straps read 0
until MODULE_RESET reads them. -/
def Boot.fresh : Boot :=
  { stage := 0, recovery := false, modpos := 0, bootsrc := false, recov := false, dieReady := 0, hbm := 0, port := 0,
    crec := false, akey := false, meas := 0, measN := 0 }

/-- DESIGN CHOICE [4]: a bank as delivered: 32 partitions of one pair, everything verifies, and the keys are `PubKey.standard`. -/
def FlashBank.standard : FlashBank :=
  { stage1Ok := true, ridgeOk := true, digests := [0, 0, 0], record := (List.range 32).map fun n => (n, PartCfg.standard n), modKey := PubKey.standard 32,
    recordKey := 34 }

/-- DESIGN CHOICE [4]: flash as delivered: grade B64, no die disabled, both banks alike, no SEQ accepted on any channel. -/
def Flash.standard : Flash :=
  { grade := 64, disabled := [], mapOk := true, opKey := 34, bankA := FlashBank.standard, bankB := FlashBank.standard, lastSeq := [], seqKey := [] }

/-- The module right after a reset with the given flash: memory lists nothing, nothing is installed, and bring-up has not
begun (R120, R156, R181, R227, R368). -/
def State.afterReset (f : Flash) : State :=
  { power := true, boot := Boot.fresh, flash := f, cfg := [], clock := Clock.fresh, throttle := [], mem := [], vers := [],
    full := [], stash := [], stashOut := [], parts := [], elems := [], softErr := [], discards := [], edges := [],
    clusters := [], dieTlb := [], chains := [], engines := [], regions := [], launches := [], binds := [], reqs := [],
    locks := [], thatch := Thatch.empty, colls := [], digests := [], refused := [], outbox := [], faulty := [], parked := [], inbox := [], serial := 1,
    agenda := [], stepNo := 0, focus := { rank := 0, id := 0 } }

/-- The module right after its first reset. -/
def State.reset : State := State.afterReset Flash.standard

end Sys2Proof.Machine
end

