-- ==== Sys2Proof/Machine/Base.lean ====
section
/-! DEFINITION. The named operations under all others: lists keyed by a number, memory, pointers, the parts of the state, launch fields,
firings, handles and edges as they stand. -/

namespace Sys2Proof.Machine

/-- What a step answers. -/
abbrev Result := Host.Outcome State Fault Refusal

/-! ## Lists keyed by a number, and bit fields -/

/-- The entry of a key. -/
def alGet {α : Type} : List (Nat × α) → Nat → Option α
  | [], _ => none
  | (k, v) :: r, x => if k = x then some v else alGet r x

/-- Sets the entry of a key. -/
def alSet {α : Type} : List (Nat × α) → Nat → α → List (Nat × α)
  | [], x, v => [(x, v)]
  | (k, w) :: r, x, v => if k = x then (k, v) :: r else (k, w) :: alSet r x v

/-- Removes the entries of a key. -/
def alDel {α : Type} (l : List (Nat × α)) (x : Nat) : List (Nat × α) := l.filter fun e => e.1 != x

/-- Adds to a counter. -/
def alAdd (l : List (Nat × Nat)) (x n : Nat) : List (Nat × Nat) := alSet l x ((alGet l x).getD 0 + n)

/-- Changes the members of a list that meet a test. -/
def modWhere {α : Type} (p : α → Bool) (f : α → α) (l : List α) : List α := l.map fun x => if p x then f x else x

/-- Bits [hi:lo] of a number (R5). -/
def bits (n hi lo : Nat) : Nat := n / 2 ^ lo % 2 ^ (hi + 1 - lo)

/-- Bits [hi:lo] of a word (R71 `field`). -/
def bf {w : Nat} (v : BitVec w) (hi lo : Nat) : Nat := bits v.toNat hi lo

/-- Reads an unsigned w-bit number as signed (R53 `sext`). -/
def toSigned (w n : Nat) : Int := if n % 2 ^ w < 2 ^ (w - 1) then (n % 2 ^ w : Nat) else ((n % 2 ^ w : Nat) : Int) - 2 ^ w

/-- An integer modulo 2^w (R53 `wrap`). -/
def wrapNat (w : Nat) (x : Int) : Nat := (x % (2 ^ w : Int)).toNat

/-- The k low bytes of a number, lowest first (R5). -/
def bytesOfNat (k n : Nat) : List Byte := (List.range k).map fun i => BitVec.ofNat 8 (n / 2 ^ (8 * i))

/-- The number of little-endian bytes (R5). -/
def natOfBytes : List Byte → Nat
  | [] => 0
  | b :: r => b.toNat + 256 * natOfBytes r

/-- A 64-byte payload of bytes. -/
def vecOfBytes (l : List Byte) : Vec := BitVec.ofNat 512 (natOfBytes l)

/-- The 64 bytes of a payload. -/
def vecBytes (v : Vec) : List Byte := bytesOfNat 64 v.toNat

/-- Lane i of a vector in lanes of w bits (R53). -/
def laneW (w : Nat) (v : Vec) (i : Nat) : Nat := v.toNat / 2 ^ (w * i) % 2 ^ w

/-- Lane i of a vector in a type (R53). -/
def lane (t : Ty) (v : Vec) (i : Nat) : Nat := laneW t.width v i

/-- A serial that skips 0 modulo 2^w (R111, R317, R330, R353). -/
def nextSerial (w n : Nat) : Nat := if (n + 1) % 2 ^ w = 0 then 1 else (n + 1) % 2 ^ w

/-- version_ge (R53). -/
def versionGe (a b : BitVec 16) : Bool := (a - b).toNat < 2 ^ 15

/-! ## Memory -/

/-- The bytes of every space in one canonical list: addresses rise strictly and no entry is 0, which is what an unlisted address
reads as (R120, R227, R267; log entry 6). -/
abbrev Memory := List Host.Cell

/-- The canonical form. -/
def Memory.wf : Memory → Bool
  | [] => true
  | [(_, v)] => v != 0
  | (a, v) :: (b, w) :: r => v != 0 && decide (a < b) && Memory.wf ((b, w) :: r)

/-- The byte at a key. -/
def Memory.read : Memory → Nat → Byte
  | [], _ => 0
  | (k, v) :: r, a => if k = a then v else Memory.read r a

/-- Writes the byte at a key, keeping the canonical form. -/
def Memory.write : Memory → Nat → Byte → Memory
  | [], a, v => if v = 0 then [] else [(a, v)]
  | (k, w) :: r, a, v =>
    if a < k then (if v = 0 then (k, w) :: r else (a, v) :: (k, w) :: r)
    else if k = a then (if v = 0 then r else (a, v) :: r)
    else (k, w) :: Memory.write r a v

/-- Writes consecutive bytes. -/
def Memory.writes : Memory → Nat → List Byte → Memory
  | m, _, [] => m
  | m, a, b :: r => Memory.writes (Memory.write m a b) (a + 1) r

/-- Reads n consecutive bytes. -/
def Memory.reads (m : Memory) (a n : Nat) : List Byte := (List.range n).map fun i => Memory.read m (a + i)

/-- Keys of HBM5 are physical addresses; the other spaces follow above 1.5 TiB. Byte `off` of a die's memory (R226). -/
def dieKey (die off : Nat) : Nat := 2 ^ 48 + 2 ^ 24 * die + off

/-- Byte `off` of an element's local memory (R223). -/
def localKey (rank off : Nat) : Nat := 2 ^ 49 + 2 ^ 15 * rank + off

/-- Byte `off` of a cluster's accumulator store (R267). -/
def accKey (cluster off : Nat) : Nat := 2 ^ 50 + 2 ^ 18 * cluster + off

/-- HBM5 holds 1.5 TiB (R3, R227). -/
def hbmSize : Nat := 24 * 2 ^ 36

def State.readBytes (s : State) (key n : Nat) : List Byte := Memory.reads s.mem key n

def State.writeBytes (s : State) (key : Nat) (bs : List Byte) : State := { s with mem := Memory.writes s.mem key bs }

/-- A little-endian number of n bytes. -/
def State.readNat (s : State) (key n : Nat) : Nat := natOfBytes (s.readBytes key n)

/-- The 64 bytes at a key. -/
def State.readVec (s : State) (key : Nat) : Vec := vecOfBytes (s.readBytes key 64)

/-! ## Pointers (R8, R214) -/

def ptrSpace (p : Word) : Nat := bf p 63 60
def ptrOwner (p : Word) : Nat := bf p 59 46
def ptrOff (p : Word) : Nat := bf p 45 0

/-- Joins the fields of a pointer. -/
def mkPtr (space owner off : Nat) : Word := BitVec.ofNat 64 (2 ^ 60 * (space % 16) + 2 ^ 46 * (owner % 2 ^ 14) + off % 2 ^ 46)

/-- The pointer with its offset moved, modulo 2^46 (R217). -/
def ptrAdd (p : Word) (n : Int) : Word := mkPtr (ptrSpace p) (ptrOwner p) (wrapNat 46 ((ptrOff p : Int) + n))

/-! ## Parts of the state -/

def State.part (s : State) (p : Nat) : Part := (alGet s.parts p).getD Part.fresh
def State.modPart (s : State) (p : Nat) (f : Part → Part) : State := { s with parts := alSet s.parts p (f (s.part p)) }
def State.elem (s : State) (r : Nat) : Elem := (alGet s.elems r).getD Elem.empty
def State.modElem (s : State) (r : Nat) (f : Elem → Elem) : State := { s with elems := alSet s.elems r (f (s.elem r)) }
def State.cluster (s : State) (c : Nat) : Cluster := (alGet s.clusters c).getD Cluster.empty
def State.modCluster (s : State) (c : Nat) (f : Cluster → Cluster) : State :=
  { s with clusters := alSet s.clusters c (f (s.cluster c)) }
def State.engine (s : State) (die e : Nat) : Engine := (alGet s.engines (die * 8 + e)).getD Engine.idle
def State.modEngine (s : State) (die e : Nat) (f : Engine → Engine) : State :=
  { s with engines := alSet s.engines (die * 8 + e) (f (s.engine die e)) }
def State.launch? (s : State) (lid : Nat) : Option Launch := s.launches.find? fun l => l.lid == lid
def State.modLaunch (s : State) (lid : Nat) (f : Launch → Launch) : State :=
  { s with launches := modWhere (fun l => l.lid == lid) f s.launches }
def State.req? (s : State) (id : Nat) : Option Req := s.reqs.find? fun q => q.id == id
def State.modReq (s : State) (id : Nat) (f : Req → Req) : State := { s with reqs := modWhere (fun q => q.id == id) f s.reqs }
def State.dropReq (s : State) (id : Nat) : State := { s with reqs := s.reqs.filter fun q => q.id != id }
def State.edge? (s : State) (e : Nat) : Option Edge := s.edges[e]?
def State.modEdge (s : State) (e : Nat) (f : Edge → Edge) : State := { s with edges := s.edges.modify e f }
def State.region? (s : State) (rg : Nat) : Option Region := s.regions[rg]?
def State.modRegion (s : State) (rg : Nat) (f : Region → Region) : State := { s with regions := s.regions.modify rg f }

/-- Appends a message to what the module sends out. -/
def State.send (s : State) (m : OutMsg) : State := { s with outbox := s.outbox ++ [m] }

/-- Puts operations that must come next at the head of the agenda (log entry 1). -/
def State.soon (s : State) (l : List Instr) : State := { s with agenda := (l.map fun i => ⟨.event i, 0, []⟩) ++ s.agenda }

/-- A fresh serial of the model's own. -/
def State.fresh (s : State) : Nat × State := (s.serial, { s with serial := s.serial + 1 })

/-- The partition in a launch id (R111). -/
def lidPart (lid : Nat) : Nat := lid / 2 ^ 27

/-- A launch that its groups may fire for (R112). -/
def State.running (s : State) (lid : Nat) : Bool :=
  match s.launch? lid with | some l => l.st == .running | none => false

/-- A record of the launch waits for a slot of a full trap queue, and the launch is frozen meanwhile (R332). -/
def State.ringFrozen (s : State) (lid : Nat) : Bool :=
  let p := s.part (lidPart lid)
  decide (256 ≤ p.ring.length) && p.pending.any fun t => t.lid == lid

/-- A launch that acts: it runs, and no full trap queue freezes it (R112, R332). -/
def State.live (s : State) (lid : Nat) : Bool := s.running lid && !s.ringFrozen lid

/-- A pre-empted launch keeps its state aside (R345). -/
def State.shelved (s : State) (lid : Nat) : Bool :=
  match s.launch? lid with | some l => l.saved.isSome | none => false

/-- The partition that owns a die, if any (R106). -/
def State.partOfDie (s : State) (die : Nat) : Option Nat := (s.cfg.find? fun e => e.2.pairs.contains (die / 2)).map (·.1)

def State.partCfg (s : State) (p : Nat) : PartCfg := (alGet s.cfg p).getD (PartCfg.standard p)

/-- A die that the signed die map leaves enabled (R2). -/
def State.dieEnabled (s : State) (die : Nat) : Bool := decide (die < 64) && !s.flash.disabled.contains die

/-- The lowest-numbered die of a partition (R332). -/
def State.lowDie (s : State) (p : Nat) : Nat := ((s.partCfg p).pairs.foldl Nat.min 31) * 2

/-- Column and row of a cluster in the module-wide grid (R6, R107). -/
def clusterCol (c : Nat) : Nat := c / 16 % 8 * 4 + c % 4
def clusterRow (c : Nat) : Nat := c / 16 / 8 * 4 + c % 16 / 4

/-- The cluster at a column and row (R107). -/
def clusterAt (col row : Nat) : Nat := (row / 4 * 8 + col / 4) * 16 + row % 4 * 4 + col % 4

/-- Column and row of an element in the module-wide grid (R6). -/
def elemCol (r : Nat) : Nat := clusterCol (r / 16) * 4 + r % 4
def elemRow (r : Nat) : Nat := clusterRow (r / 16) * 4 + r % 16 / 4

/-- The element at a column and row (R6). -/
def elemAt (col row : Nat) : Nat := clusterAt (col / 4) (row / 4) * 16 + row % 4 * 4 + col % 4

/-- A bind record covers a cluster (R107, R117). -/
def BindRec.covers (b : BindRec) (c : Nat) : Bool :=
  b.valid && decide (b.rx ≤ clusterCol c) && decide (clusterCol c ≤ b.rx + b.rw) &&
    decide (b.ry ≤ clusterRow c) && decide (clusterRow c ≤ b.ry + b.rh)

/-- The bind record of a cluster (R107). -/
def State.bindAt (s : State) (c : Nat) : Option BindRec := s.binds.find? fun b => b.covers c

/-- A cluster is powered while a valid bind record holds one of its elements (R120). -/
def State.powered (s : State) (c : Nat) : Bool := (s.bindAt c).isSome

/-- A launch and the successors that have taken over its bind records (R130), at most n of them. -/
def State.heirs (s : State) : Nat → Nat → List Nat
  | 0, lid => [lid]
  | n + 1, lid =>
    match (s.launch? lid).bind fun l => l.succ.bind s.launch? with
    | some t => if t.st = .running ∨ t.st = .done then lid :: State.heirs s n t.lid else [lid]
    | none => [lid]

/-- The bind record of a launch's group, which a successor's element install may have renamed (R130). -/
def State.bindOf (s : State) (lid g : Nat) : Option BindRec := s.binds.find? fun b => b.g == g && (s.heirs 8 lid).contains b.lid

/-- The successor of a launch once SUCC is set: staged, or taking elements over (R128, R129). -/
def State.staged (s : State) (lid : Nat) : Option Launch :=
  match (s.launch? lid).bind fun l => l.succ.bind s.launch? with
  | some t => if t.st = .loading ∨ t.st = .running then some t else none
  | none => none

/-- The elements of a launch. -/
def State.ranksOf (s : State) (lid : Nat) : List Nat :=
  (s.elems.filter fun e => e.2.actors.any fun a => a.lid == lid).map (·.1)

/-- STATE codes (R112). -/
def LState.code : LState → Nat
  | .queued => 0 | .waiting => 1 | .loading => 2 | .running => 3 | .done => 4 | .rejected => 5 | .cancelled => 6 | .faulted => 7

/-- A launch that has reached its end state (R131). -/
def LState.final : LState → Bool
  | .done | .rejected | .cancelled | .faulted => true
  | .queued | .waiting | .loading | .running => false

/-- Fields of a launch record (R110). -/
def Launch.imgp (l : Launch) : Word := BitVec.ofNat 64 (bf l.recd 511 448)
def Launch.datap (l : Launch) : Word := BitVec.ofNat 64 (bf l.recd 447 384)
def Launch.cmplp (l : Launch) : Word := BitVec.ofNat 64 (bf l.recd 319 256)
def Launch.depp (l : Launch) : Word := BitVec.ofNat 64 (bf l.recd 255 192)
def Launch.tick (l : Launch) : Nat := bf l.recd 191 128
def Launch.pred (l : Launch) : Nat := bf l.recd 127 96
def Launch.depv (l : Launch) : BitVec 16 := BitVec.ofNat 16 (bf l.recd 95 80)
def Launch.ngroup (l : Launch) : Nat := bf l.recd 79 64
def Launch.rwm1 (l : Launch) : Nat := bf l.recd 63 59
def Launch.rhm1 (l : Launch) : Nat := bf l.recd 58 54
def Launch.prio (l : Launch) : Nat := bf l.recd 53 50
def Launch.queue (l : Launch) : Nat := bf l.recd 49 44
def Launch.det (l : Launch) : Bool := bf l.recd 43 43 == 1
def Launch.depk (l : Launch) : Nat := bf l.recd 42 41

/-- Repetition count q of an actor: firings per invocation (R25, R237). -/
def Launch.perInv (l : Launch) (aidx : Nat) : Nat :=
  match l.img with
  | some im => if im.invm then Nat.max 1 (im.reps.getD aidx 1 * im.ppi) else 0
  | none => 0

/-- The invocation of firing number n of an actor (R237). -/
def Launch.invOf (l : Launch) (aidx n : Nat) : Nat := if l.perInv aidx = 0 then 0 else n / l.perInv aidx

/-- Invocations of a group that have ended. -/
def Launch.endedOf (l : Launch) (g : Nat) : Nat := l.ended.getD g 0

/-- The element at the north-west corner of a group's shingle (R22, R108); a launch holds the places of each group's shingles in turn. -/
def Launch.shingleOrigin (l : Launch) (g k : Nat) : Option Nat :=
  let n := match l.img with | some im => im.shingles.length | none => 0
  match l.origins[g]?, l.shingles[g * n + k]? with
  | some o, some p => some (elemAt (4 * o.1 + p.1) (4 * o.2 + p.2))
  | _, _ => none

/-- The element on which an actor of a group is placed (R29, R108). -/
def Launch.actorRank (l : Launch) (g aidx : Nat) : Option Nat :=
  match l.img.bind fun im => im.actors[aidx]? with
  | some d => (l.shingleOrigin g d.shg).map fun o => elemAt (elemCol o + d.px) (elemRow o + d.py)
  | none => none

def State.firing? (s : State) (rank : Nat) : Option Firing := (s.elem rank).firing
def State.modFiring (s : State) (rank : Nat) (f : Firing → Firing) : State :=
  s.modElem rank fun e => { e with firing := e.firing.map f }
def State.actor? (s : State) (rank la : Nat) : Option Actor := (s.elem rank).actors[la]?
def State.modActor (s : State) (rank la : Nat) (f : Actor → Actor) : State :=
  s.modElem rank fun e => { e with actors := e.actors.modify la f }

/-- The firing in progress on an element with its actor. -/
def State.active (s : State) (rank : Nat) : Option (Firing × Actor) :=
  match s.firing? rank with
  | some f => (s.actor? rank f.la).map fun a => (f, a)
  | none => none

def Firing.slotAt (f : Firing) (id : Nat) : Option Slot := f.slots.find? fun sl => sl.id == id

/-- Changes a slot of a firing. -/
def Firing.modSlot (f : Firing) (id : Nat) (g : Slot → Slot) : Firing :=
  { f with slots := modWhere (fun sl => sl.id == id) g f.slots }

/-- The edge into an input handle, and its index. -/
def State.inEdge (s : State) (rank la h : Nat) : Option (Nat × Edge) :=
  (s.edges.zipIdx.find? fun e => e.1.crank == rank && e.1.cla == la && e.1.ch == h).map fun e => (e.2, e.1)

/-- The edge out of an output handle, and its index. -/
def State.outEdge (s : State) (rank la h : Nat) : Option (Nat × Edge) :=
  (s.edges.zipIdx.find? fun e => e.1.prank == rank && e.1.pla == la && e.1.ph == h).map fun e => (e.2, e.1)

/-- Handle n of an actor. -/
def ActorDesc.handle (d : ActorDesc) (h : Nat) : HandleWord :=
  d.hnd.getD h { used := false, out := false, var := false, tile := false, rate := 0, max := 0 }

/-- Used input handles, and used output handles, in ascending order. -/
def ActorDesc.ins (d : ActorDesc) : List Nat := (List.range 16).filter fun h => (d.handle h).used && !(d.handle h).out
def ActorDesc.outs (d : ActorDesc) : List Nat := (List.range 16).filter fun h => (d.handle h).used && (d.handle h).out

/-- DMASK names a handle. -/
def ActorDesc.joined (d : ActorDesc) (h : Nat) : Bool := d.dmask.getLsbD h && d.join != .all

/-- A handle of an ISECT or UNION join (R168). -/
def ActorDesc.inJoin (d : ActorDesc) (h : Nat) : Bool := d.dmask.getLsbD h && (d.join == .isect || d.join == .union)

/-- Data handle k of an EARLY join, in ascending handle number (R162). -/
def ActorDesc.dataHandle (d : ActorDesc) (k : Nat) : Option Nat := ((List.range 16).filter fun h => d.dmask.getLsbD h)[k]?

/-- Token kind codes (R18). -/
def Kind.code : Kind → Nat
  | .data => 0 | .head => 1 | .body => 2 | .tail => 3 | .stop k => 4 + k.val | .eos => 8 | .reconf => 9 | .marker => 10
  | .mswap => 11 | .ord => 12 | .stat => 13

/-- The kind of a code; 0xE and 0xF are reserved (R18). -/
def Kind.ofCode : Nat → Option Kind
  | 0 => some .data | 1 => some .head | 2 => some .body | 3 => some .tail | 4 => some (.stop 0) | 5 => some (.stop 1)
  | 6 => some (.stop 2) | 7 => some (.stop 3) | 8 => some .eos | 9 => some .reconf | 10 => some .marker | 11 => some .mswap
  | 12 => some .ord | 13 => some .stat | _ => none

/-- Bits [547:0] of a flit: KIND, TAG and PAYLOAD (R16). -/
def Token.bits (t : Token) : BitVec 548 := BitVec.ofNat 4 t.kind.code ++ t.tag ++ t.pay

/-- PROT of a flit (R16; log entry 77). -/
def Token.prot (t : Token) : BitVec 12 := Config.protOf t.bits

/-- The 560 bits of a flit, as links, FIFO slots and saved state hold it (R16). -/
def Token.flit (t : Token) : BitVec 560 := t.prot ++ t.bits

/-- NDATA of a HEAD (R20). -/
def headNdata (pay : Vec) : Nat := bf pay 503 492

/-- Effective priority of an actor: its PRIO or the inherited priority of its bind record (R118). -/
def State.effPrio (s : State) (a : Actor) : Nat :=
  Nat.max a.desc.prio (match s.bindOf a.lid a.g with | some b => b.iprio | none => 0)

/-- What a shared arbiter looks at first in a request of an actor: PRIO or IPRIO of its bind record, the greater (R118). -/
def State.arbPrio (s : State) (a : Actor) : Nat :=
  match s.bindOf a.lid a.g with | some b => Nat.max b.prio b.iprio | none => 0

/-! ## What leaves the module (R134, R324, R364) -/

/-- The bridge of edge bridge e: the edge of the package clockwise from the north side of die 0 (R134). -/
def edgeBridge (e : Nat) : Nat :=
  if e < 8 then 4 * e
  else if e < 16 then 4 * (8 * (e - 8) + 7) + 1
  else if e < 24 then 4 * (63 - (e - 16)) + 2
  else 4 * (56 - 8 * (e - 24)) + 3

/-- The middle of a bridge's side, in half clusters of the module-wide grid. -/
def bridgePos (b : Nat) : Nat × Nat :=
  let x := 8 * (b / 4 % 8)
  let y := 8 * (b / 4 / 8)
  match b % 4 with | 0 => (x + 4, y) | 1 => (x + 8, y + 4) | 2 => (x + 4, y + 8) | _ => (x, y + 4)

/-- How far a cluster is from a bridge along rows and columns (DESIGN CHOICE, log entry 82). -/
def bridgeDist (c b : Nat) : Nat :=
  let p := bridgePos b
  let d := fun (x y : Nat) => (x - y) + (y - x)
  d (2 * clusterCol c + 1) p.1 + d (2 * clusterRow c + 1) p.2

/-- The edge bridge by which a request of a cluster reaches a port: of the port's four the nearest, and the lowest on a tie (R134). -/
def portBridge (port c : Nat) : Nat :=
  let e := 4 * (port % 8)
  [e + 1, e + 2, e + 3].foldl (fun best x => if bridgeDist c (edgeBridge x) < bridgeDist c (edgeBridge best) then x else best) e

/-- The edge bridge of the next message from a cluster; the congestion control chooses its port (R364). -/
def State.via (s : State) (cluster : Nat) : Nat := portBridge (Config.sendPort (s.outbox.length + s.parked.length)) cluster

/-- An actor's message leaves the module; in a DET launch it waits at its port for a tick boundary (R324; log entry 82). `dest` names the queue or
peer set, `n` is the message's length in bytes. -/
def State.sendFor (s : State) (lid rank la dest n : Nat) (m : OutMsg) : State :=
  if (s.launch? lid).any Launch.det then
    let stage := match (s.elem rank).actors[la]? with | some a => a.stage | none => 0
    { s with parked := s.parked ++ [{ stage, stream := (lid, rank, la, dest), left := Nat.max 64 ((n + 63) / 64 * 64), msg := m }] }
  else s.send m

end Sys2Proof.Machine
end

