-- ==== Sys2Proof/Machine/Pieces.lean ====
section
/-! DEFINITION. The pieces of a memory request: the events it makes, what each writes and where its bytes land, what a waiting request waits for,
the spaces an access may reach, and the messages of a remote request (R106, R136, R215, R228, R235, R236, R299 to R311, R364). -/

namespace Sys2Proof.Machine

/-- The mask of n bytes from byte `o` of a granule. -/
def maskAt (o n : Nat) : BitVec 64 := BitVec.ofNat 64 ((2 ^ n - 1) * 2 ^ o)

/-- A value placed at byte `o` of a granule. -/
def placeAt (o : Nat) (n : Nat) : Vec := BitVec.ofNat 512 (n * 2 ^ (8 * o))

/-- The bytes of a granule with those that a mask selects replaced. -/
def mergeVec (mask : BitVec 64) (new old : Vec) : Vec :=
  vecOfBytes ((List.range 64).map fun i => if mask.getLsbD i then (vecBytes new).getD i 0 else (vecBytes old).getD i 0)

/-! ## Pieces of a request -/

/-- One event of a request: where, how many bytes, and which lane or byte of the vector it moves (R235, R236, R301). -/
structure Piece where
  ptr  : Word
  n    : Nat
  lane : Nat
  deriving DecidableEq, Repr

/-- A 64-byte access cut at the granule boundary (R236). -/
def splitPieces (p : Word) : List Piece :=
  let o := ptrOff p % 64
  if o = 0 then [⟨p, 64, 0⟩] else [⟨p, 64 - o, 0⟩, ⟨ptrAdd p (64 - o : Nat), o, 64 - o⟩]

/-- The lanes of a gather, scatter or VATOM that are not skipped (R235, R301). -/
def lanePieces (p : Word) (t : Ty) (idx : Vec) (n : Nat) : List Piece :=
  (List.range n).filterMap fun i =>
    let x := toSigned 32 (laneW 32 idx i)
    if x = -(2 ^ 31 : Int) then none else some ⟨ptrAdd p (x * (t.width / 8 : Nat)), t.width / 8, i⟩

/-- The events that a request makes, in order; a FENCE, an FSCAN and a null request make none of these. -/
def ReqKind.pieces (k : ReqKind) (p : Word) : List Piece :=
  match k with
  | .ldg t _ _ | .stg t _ | .atom _ _ t _ | .cas t _ _ | .faadd _ t _ => [⟨p, t.width / 8, 0⟩]
  | .ldgv .plain _ | .stgv _ _ => splitPieces p
  | .ldgv .ge _ | .ldgv .eq _ | .vrcl _ | .vqry | .bar _ | .chsend _ | .chrecv | .chcred _ | .waitv _ => [⟨p, 64, 0⟩]
  | .launchi _ _ _ => [⟨p, 4, 0⟩]
  | .gath t idx => lanePieces p t idx (Nat.min 16 t.lanes)
  | .scat t idx _ => lanePieces p t idx (Nat.min 16 t.lanes)
  | .vatom _ t idx _ => lanePieces p t idx 16
  | .lockt | .unlockt => [⟨p, 1, 0⟩]
  | .fence _ | .null => []

/-- The access reads, and writes (R220, R299). -/
def ReqKind.reads : ReqKind → Bool
  | .stg _ _ | .stgv _ _ | .scat _ _ _ => false
  | _ => true
def ReqKind.writes : ReqKind → Bool
  | .stg _ _ | .stgv _ _ | .scat _ _ _ | .atom _ _ _ _ | .cas _ _ _ | .vatom _ _ _ _ | .faadd _ _ _ | .lockt | .unlockt
    | .bar _ | .chsend _ | .chrecv | .chcred _ => true
  | _ => false

/-- HOST and PEER are among the spaces of a kind (R235, R299, R308). -/
def ReqKind.remote : ReqKind → Bool
  | .ldg _ .plain _ | .ldgv .plain _ | .stg _ _ | .stgv _ _ | .gath _ _ | .scat _ _ _ | .vrcl _ => true
  | _ => false

/-- Alignment of the base pointer of a kind, in bytes (R216, R235, R299, R308). -/
def ReqKind.align : ReqKind → Nat
  | .ldg t _ _ | .stg t _ | .atom _ _ t _ | .cas t _ _ | .faadd _ t _ | .gath t _ | .scat t _ _ | .vatom _ t _ _ => t.width / 8
  | .ldgv .plain _ | .stgv _ _ => 16
  | .lockt | .unlockt | .fence _ | .null => 1
  | .launchi _ _ _ => 4
  | _ => 64

/-- A request that its firing never waits for: a store, scatter or VRCL whose targets are both discard (R164, R231). -/
def ReqKind.letGo (k : ReqKind) (dst : List Target) : Bool :=
  (match k with | .stg _ _ | .stgv _ _ | .scat _ _ _ | .vrcl _ => true | _ => false) && dst.all (· == .discard)

/-- The bytes that a store piece writes: mask and data on its granule. -/
def ReqKind.storeOf (k : ReqKind) (x : Piece) : BitVec 64 × Vec :=
  let o := ptrOff x.ptr % 64
  match k with
  | .stg t v => (maskAt o x.n, placeAt o (v.toNat % 2 ^ t.width))
  | .scat t _ v => (maskAt o x.n, placeAt o (lane t v x.lane))
  | .stgv v m =>
    let part := v.toNat / 2 ^ (8 * x.lane) % 2 ^ (8 * x.n)
    (BitVec.ofNat 64 (m.toNat / 2 ^ x.lane % 2 ^ x.n * 2 ^ o), placeAt o part)
  | _ => (0, 0)

/-- Where the bytes of a piece stand in the value of a load. -/
def ReqKind.outPos (k : ReqKind) (x : Piece) : Nat :=
  match k with | .gath t _ => 8 * (x.lane * (t.width / 8)) | .ldgv _ _ => 8 * x.lane | _ => 0

/-- The value of a load with the bytes of a piece put in, taken from its granule. -/
def ReqKind.fill (k : ReqKind) (x : Piece) (gran out : Vec) : Vec :=
  out ||| BitVec.ofNat 512 (gran.toNat / 2 ^ (8 * (ptrOff x.ptr % 64)) % 2 ^ (8 * x.n) * 2 ^ k.outPos x)

/-! ## Versions and waits -/

def State.ver (s : State) (gran : Nat) : BitVec 16 := (alGet s.vers gran).getD 0
def State.setVer (s : State) (gran : Nat) (v : BitVec 16) : State :=
  { s with vers := if v = 0 then alDel s.vers gran else alSet s.vers gran v }

/-- A byte lies in an HBM5 granule that holds an uncorrectable error (R227). -/
def State.uncorrectable (s : State) (key : Nat) : Bool := decide (key < hbmSize) && s.faulty.contains (key / 64)

/-- A request that waits at its home for a version (R235, R311, R125) and the version it names. -/
def ReqKind.versionWait : ReqKind → Option (LdMode × BitVec 16)
  | .ldg _ .ge v | .ldgv .ge v | .waitv v | .launchi _ _ v => some (.ge, v)
  | .ldg _ .eq v | .ldgv .eq v => some (.eq, v)
  | .ldg _ .plain _ | .ldgv .plain _ | .stg _ _ | .stgv _ _ | .gath _ _ | .scat _ _ _ | .vrcl _ | .vqry | .atom _ _ _ _
    | .cas _ _ _ | .vatom _ _ _ _ | .faadd _ _ _ | .lockt | .unlockt | .bar _ | .chsend _ | .chrecv | .chcred _
    | .fence _ | .null => none

/-- A version wait is satisfied (R53, R235). -/
def versionMet (m : LdMode) (v cur : BitVec 16) : Bool :=
  match m with | .plain => true | .ge => versionGe cur v | .eq => cur == v

/-- How far one 32-bit count of a channel is ahead of another (R310). -/
def ringDiff (a b : Nat) : Nat := (2 ^ 32 + a - b) % 2 ^ 32

/-- The condition of a waiting request holds now (R235, R309 to R311); a lock waits for its grant. -/
def State.condMet (s : State) (q : Req) : Bool :=
  match q.pas.head? with
  | some (some key) =>
    let gran := key / 64
    let c := s.readVec (gran * 64)
    match q.kind.versionWait with
    | some (.eq, v) => s.ver gran == v || versionGe (s.ver gran) v
    | some (m, v) => versionMet m v (s.ver gran)
    | none =>
      match q.kind with
      | .bar i => if q.sub / 2 = 1 then bf c 31 0 != q.count else bf c (40 + i) (40 + i) == 0
      | .chsend _ => decide (ringDiff (bf c 415 384) (bf c 351 320) < bf c 447 432)
      | .chrecv => decide (ringDiff (bf c 415 384) (bf c 383 352) ≠ 0)
      | _ => false
  | _ => false

/-! ## Page tables (R218, R219) -/

/-- What a walk finds. -/
inductive Walk where
  | hit (pa size : Nat) (pte : Word)
  | miss
  | malformed
  deriving DecidableEq, Repr

def pteV (e : Word) : Bool := e.getLsbD 0
def pteR (e : Word) : Bool := e.getLsbD 1
def pteW (e : Word) : Bool := e.getLsbD 2
def pteX (e : Word) : Bool := e.getLsbD 3
def pteLeaf (e : Word) : Bool := e.getLsbD 4
def pteRet (e : Word) : Bool := e.getLsbD 5
def pteRoc (e : Word) : Bool := e.getLsbD 6
def pteAddr (e : Word) : Nat := bf e 47 12 * 4096

/-- A valid entry that R219 calls malformed, at a level whose leaf maps 2^sh bytes. -/
def pteMalformed (level sh : Nat) (e : Word) : Bool :=
  bf e 63 48 != 0 || bf e 11 7 != 0 || (!pteLeaf e && level == 1) ||
  (!pteLeaf e && (pteR e || pteW e || pteX e || pteRet e || pteRoc e)) ||
  (pteAddr e) % (if pteLeaf e then 2 ^ sh else 8192) != 0 || decide (hbmSize ≤ pteAddr e) || (pteRoc e && pteW e)

/-- Walks the levels that are left; each is its number and the bits below its index. -/
def State.walkFrom (s : State) (off : Nat) : List (Nat × Nat) → Nat → Walk
  | [], _ => .miss
  | (level, sh) :: rest, table =>
    let e : Word := BitVec.ofNat 64 (s.readNat (table + off / 2 ^ sh % 1024 * 8) 8)
    if !pteV e then .miss
    else if pteMalformed level sh e then .malformed
    else if pteLeaf e then .hit (pteAddr e + off % 2 ^ sh) (2 ^ sh) e
    else State.walkFrom s off rest (pteAddr e)

/-- The three levels (R218). -/
def ptLevels : List (Nat × Nat) := [(3, 36), (2, 26), (1, 16)]

def State.walk (s : State) (part off : Nat) : Walk :=
  match (s.part part).ptRoot with
  | none => .miss
  | some root => s.walkFrom off ptLevels root

/-! ## Checks of a pointer (R106, R136, R215, R317, R332, R364) -/

/-- Some windows cover every offset of a run of bytes; windows may lie side by side (R364). -/
def windowsCover (ws : List Window) : Nat → Nat → Nat → Bool
  | 0, _, n => n == 0
  | k + 1, off, n =>
    n == 0 || (match ws.find? fun w => decide (w.base ≤ off) && decide (off < w.base + w.len) with
      | some w => windowsCover ws k (w.base + w.len) (off + n - (w.base + w.len))
      | none => false)

/-- A HOST or PEER pointer lies in registered windows of the partition; of an empty run the offset itself (R215, R364). -/
def State.remoteOk (s : State) (part : Nat) (p : Word) (n : Nat) : Bool :=
  let l := if ptrSpace p = 5 then (s.part part).endpoints else (s.part part).peers
  (ptrSpace p == 5 || ptrSpace p == 6) && l.any fun e => e.id == ptrOwner p &&
    windowsCover e.windows (e.windows.length + 1) (ptrOff p) (Nat.max 1 n)

/-- A span of a die's memory meets its partition's trap queue or deadlock ring, which only the hardware writes (R317, R332). -/
def State.meetsRings (s : State) (part die off n : Nat) : Bool :=
  let c := s.partCfg part
  let hit := fun (b : Nat) => decide (off < b + 16384) && decide (b < off + n)
  die == s.lowDie part && (hit c.trapOff || hit c.dlkOff)

/-- The space rule of an access of n bytes by an agent of a partition: the fault it raises. -/
def State.spaceFault (s : State) (part : Nat) (p : Word) (n : Nat) (remote write : Bool) : Option TrapCode :=
  match ptrSpace p with
  | 0 => if ptrOwner p = 0 then none else some .spaceViolation
  | 1 =>
    let die := ptrOwner p / 256
    if ptrOwner p % 256 ≠ 0 ∨ !s.dieEnabled die then some .spaceViolation
    else if s.partOfDie die ≠ some part then some .permission
    else if 0xE00000 < ptrOff p + n then some .spaceViolation
    else if write && s.meetsRings part die (ptrOff p) n then some .permission
    else none
  | 5 | 6 => if remote && s.remoteOk part p n then none else some .spaceViolation
  | _ => some .spaceViolation

/-! ## Remote requests -/

/-- The queue that a HOST or PEER pointer names. -/
def remoteDest (p : Word) : Nat := p.toNat / 2 ^ 46

/-- The bytes of a store piece at its pointer; a byte that the mask leaves out is none. -/
def ReqKind.remoteBytes (k : ReqKind) (x : Piece) : List (Option Byte) :=
  let st := k.storeOf x
  (List.range x.n).map fun i =>
    if st.1.getLsbD (ptrOff x.ptr % 64 + i) then some ((vecBytes st.2).getD (ptrOff x.ptr % 64 + i) 0) else none

/-- Sends the message of a remote request's next piece; VRCL has nothing to send. -/
def State.sendRemote (s : State) (q : Req) : State :=
  match (q.kind.pieces q.ptr)[q.next]? with
  | none => s.modReq q.id fun q => { q with stage := .done }
  | some x =>
    match q.kind with
    | .ldg _ _ _ | .ldgv _ _ | .gath _ _ => s.sendFor q.lid q.rank q.la (remoteDest x.ptr) 0 (.remoteRead (s.via (q.rank / 16)) q.id x.ptr x.n)
    | .stg _ _ | .stgv _ _ | .scat _ _ _ =>
      s.sendFor q.lid q.rank q.la (remoteDest x.ptr) x.n (.remoteWrite (s.via (q.rank / 16)) q.id x.ptr (q.kind.remoteBytes x))
    | _ => s.modReq q.id fun q => { q with stage := .done }

end Sys2Proof.Machine
end

