-- ==== Sys2Proof/Machine/Ready.lean ====
section
/-! DEFINITION. What the hardware reads off the state without changing it: filled and free counts, heads and join steps, which actors are
fireable, when a launch is stalled, and the wait-for relation (R11, R158 to R162, R170 to R177, R254, R315 to R318). -/

namespace Sys2Proof.Machine

/-! ## Filled and free counts -/

/-- A flit that follows the HEAD of a burst. -/
def Queued.inBurst (q : Queued) : Bool := q.tok.kind == .body || q.tok.kind == .tail

/-- Groups flits as a TILE handle counts them: one whole burst, from HEAD to TAIL, is one token, and nothing else is one (R11, R170). The
first argument is how many data flits the open burst lacks. A token of another kind that stands on the edge leaves it with the burst behind
it (DESIGN CHOICE, log entry 74). -/
def unitsGo : Nat → List Queued → List Queued → List (List Queued)
  | _, _, [] => []
  | n + 1, cur, q :: r =>
    if !q.inBurst then unitsGo (n + 1) (cur ++ [q]) r
    else if n = 0 then (cur ++ [q]) :: unitsGo 0 [] r else unitsGo n (cur ++ [q]) r
  | 0, cur, q :: r => unitsGo (if q.tok.kind = .head then headNdata q.tok.pay else 0) (cur ++ [q]) r

/-- The flits of a token as a firing reads them: of a burst, its HEAD and data flits. -/
def flitsRead (tile : Bool) (l : List Queued) : List Queued := if tile then l.filter fun q => q.inBurst || q.tok.kind == .head else l

/-- The tokens of a handle, each with its flits. -/
def unitsOf (tile : Bool) (l : List Queued) : List (List Queued) := if tile then unitsGo 0 [] l else l.map fun q => [q]

/-- A token that ends what F counts: EOS (R170), or the RECONF behind which a successor's tokens stand (R129; DEDUCED, log entry 16). -/
def stopsCount (q : Queued) : Bool := q.tok.kind == .eos || q.tok.kind == .reconf

/-- The tokens that a handle may still consume. -/
def liveUnits (tile : Bool) (l : List Queued) : List (List Queued) := unitsOf tile (l.takeWhile fun q => !stopsCount q)

/-- F of an input edge (R170). -/
def filledOf (tile : Bool) (e : Edge) : Nat := (liveUnits tile e.fifo).length

/-- FR of an output edge in slots; a MARKER takes none (R160, R185, R342). -/
def freeOf (e : Edge) : Nat := e.depth - (e.fifo.length + (e.link.filter fun f => f.tok.kind != .marker).length)

/-- The position that the next token pushed on an edge takes: a MARKER takes none (R252, R343). -/
def Edge.nextPos (e : Edge) : Nat := e.arrived + (e.link.filter fun f => f.tok.kind != .marker).length

/-- F or FR of every handle of an actor (R160). -/
def State.snapshot (s : State) (rank la : Nat) (d : ActorDesc) : List Nat :=
  (List.range 16).map fun h =>
    let w := d.handle h
    if !w.used then 0
    else if w.out then (match s.outEdge rank la h with | some (_, e) => freeOf e | none => 0)
    else match s.inEdge rank la h with | some (_, e) => filledOf w.tile e | none => 0

/-- Flits of the token at an offset of an input handle, with the positions (R185). -/
def State.unitAt (s : State) (rank la h off : Nat) (tile : Bool) : List Queued :=
  match s.inEdge rank la h with
  | some (_, e) => flitsRead tile ((liveUnits tile e.fifo).getD off [])
  | none => []

/-! ## Heads and joins -/

/-- The head of an input FIFO. -/
def State.headOf (s : State) (rank la h : Nat) : Option Queued :=
  match s.inEdge rank la h with | some (_, e) => e.fifo.head? | none => none

def State.headKind (s : State) (rank la h : Nat) : Option Kind := (s.headOf rank la h).map fun q => q.tok.kind

/-- Every input of an actor shows a kind at its head, and it has an input (R129, R171). -/
def State.allHeads (s : State) (rank la : Nat) (d : ActorDesc) (k : Kind) : Bool :=
  !d.ins.isEmpty && d.ins.all fun h => s.headKind rank la h == some k

/-- The data handle that the head of the select handle chooses (R162): `none` when there is no DATA head or k is out of range. -/
def State.earlyChoice (s : State) (rank la : Nat) (d : ActorDesc) : Option Nat :=
  match s.headOf rank la d.sel with
  | some q => if q.tok.kind = .data then d.dataHandle (bf q.tok.pay 31 0) else none
  | none => none

/-- What the heads of an ISECT or UNION join ask for. -/
inductive JoinStep where
  | wait
  | skip (second : Bool)
  | fire (m : JoinMatch)
  deriving DecidableEq, Repr

/-- The match of one or both element heads. -/
def elemMatch (c : BitVec 32) (pa pb : Bool) (va vb : Vec) : JoinMatch := { stop := false, k := 0, coord := c, pa, pb, va, vb }

/-- A row of the table of R254, decided by two heads. -/
def joinRow (isect : Bool) (x y : Token) : JoinStep :=
  match x.kind, y.kind with
  | .data, .data =>
    if x.tag < y.tag then (if isect then .skip false else .fire (elemMatch x.tag true false x.pay 0))
    else if y.tag < x.tag then (if isect then .skip true else .fire (elemMatch y.tag false true 0 y.pay))
    else .fire (elemMatch x.tag true true x.pay y.pay)
  | .data, .stop _ => if isect then .skip false else .fire (elemMatch x.tag true false x.pay 0)
  | .stop _, .data => if isect then .skip true else .fire (elemMatch y.tag false true 0 y.pay)
  | .stop j, .stop k =>
    if j = k then .fire { stop := true, k := j.val, coord := 0, pa := false, pb := false, va := 0, vb := 0 } else .wait
  | _, _ => .wait

/-- The join step of an actor now; an empty side waits. -/
def State.joinStep (s : State) (rank la : Nat) (d : ActorDesc) : JoinStep :=
  match d.ins.filter d.inJoin with
  | [x, y] => match s.headOf rank la x, s.headOf rank la y with
    | some p, some q => joinRow (d.join == .isect) p.tok q.tok
    | _, _ => .wait
  | _ => .wait

/-- The configurations of a splice wavefront that hold elements together with some of its launches, found in at most n steps (R129, R133). A
pre-empted wavefront is set aside whole. -/
def State.waveLids (s : State) : Nat → List Nat → List Nat
  | 0, l => l
  | n + 1, l =>
    let kin := s.launches.filter fun x => !l.contains x.lid && (x.st == .running || x.saved.isSome) &&
      (x.succ.any l.contains || s.launches.any fun y => l.contains y.lid && y.succ == some x.lid)
    State.waveLids s n (l ++ kin.map (·.lid))

/-- The launches of the wavefront that a launch belongs to; usually itself alone. -/
def State.wave (s : State) (lid : Nat) : List Nat := s.waveLids s.launches.length [lid]

/-- The marker epoch that stops an actor: its launch, or the wavefront it belongs to, is being pre-empted, and it is a source or an input has
recorded the marker. -/
def State.markEpoch (s : State) (rank la : Nat) (a : Actor) : Option Nat :=
  match (s.part (lidPart a.lid)).preempt with
  | none => none
  | some x =>
    if !(s.wave x.lid).contains a.lid then none
    else if a.desc.ins.isEmpty || a.desc.ins.any (fun h => match s.inEdge rank la h with
        | some (_, e) => e.marker.any fun m => m.2 == x.epoch
        | none => false) then some x.epoch
    else none

/-- A source actor has no input (R129, R342). -/
def ActorDesc.isSource (d : ActorDesc) : Bool := d.ins.isEmpty

/-- An output of an actor has carried the end of its stream (R129, R173). -/
def Actor.closed (a : Actor) (h : Nat) : Bool := a.eosOut.getD h false || a.recOut.getLsbD h

/-! ## Fireable actors (R158, R161, R162, R171, R177, R335) -/

/-- Slots that an output handle needs before a firing: its rate, or its max when it is `var`, and 17 for a burst (R158, R185). -/
def HandleWord.needs (w : HandleWord) : Nat := (if w.var then w.max else w.rate) * (if w.tile then 17 else 1)

/-- Every output handle has the free slots that a firing needs (R158). -/
def State.outsFree (s : State) (rank la : Nat) (d : ActorDesc) : Bool :=
  d.outs.all fun h => match s.outEdge rank la h with | some (_, e) => decide ((d.handle h).needs ≤ freeOf e) | none => true

/-- F of an input handle of an actor (R170). -/
def State.filledAt (s : State) (rank la : Nat) (d : ActorDesc) (h : Nat) : Nat :=
  match s.inEdge rank la h with | some (_, e) => filledOf (d.handle h).tile e | none => 0

/-- The join condition (R161, R162, R255). An EARLY select token that names no data handle lets the firing be selected, and the firing
faults. -/
def State.joinHolds (s : State) (rank la : Nat) (d : ActorDesc) : Bool :=
  let full := fun h => decide ((d.handle h).rate ≤ s.filledAt rank la d h)
  match d.join with
  | .all => d.ins.all full
  | .early =>
    s.headKind rank la d.sel == some .data &&
      (match s.earlyChoice rank la d with | some h => decide (1 ≤ s.filledAt rank la d h) | none => true) &&
      d.ins.all fun h => h == d.sel || d.dmask.getLsbD h || full h
  | .isect | .union =>
    (match s.joinStep rank la d with | .fire _ => true | .wait | .skip _ => false) &&
      d.ins.all fun h => d.inJoin h || full h

/-- Actors that an image's edges reach in one more step. -/
def reachStep (es : List EdgeDesc) (l : List Nat) : List Nat :=
  l ++ ((es.filter fun e => l.contains e.pact && !l.contains e.cact).map (·.cact)).eraseDups

/-- An actor lies on a directed cycle of its configuration. -/
def Image.onCycle (im : Image) (a : Nat) : Bool :=
  let start := ((im.edges.filter fun e => e.pact == a).map (·.cact)).eraseDups
  ((List.range im.actors.length).foldl (fun l _ => reachStep im.edges l) start).contains a

/-- A cancellable actor (R177). -/
def State.cancellable (s : State) (a : Actor) : Bool :=
  let d := a.desc
  d.isPure && d.kind == .ordinary && d.join == .all && !d.outs.isEmpty &&
    (d.ins ++ d.outs).all (fun h => !(d.handle h).var && !(d.handle h).tile) && d.outs.all (fun h => (d.handle h).rate == 1) &&
    !((s.launch? a.lid).bind fun l => l.img).any fun im => im.onCycle a.aidx

/-- The next firing of an actor is cancelled: every output edge owes an anti-token (R177). -/
def State.owesAll (s : State) (rank la : Nat) (d : ActorDesc) : Bool :=
  d.outs.all fun h => match s.outEdge rank la h with | some (_, e) => e.owed != 0 | none => false

/-- Under INVM = 1 at most three invocations of a group are open (R335). -/
def State.inWindow (s : State) (a : Actor) : Bool :=
  match s.launch? a.lid with
  | some l => l.perInv a.aidx == 0 || decide (l.invOf a.aidx a.fcount ≤ l.endedOf a.g + 2)
  | none => false

/-- The flushing firing of an actor is still to run: EOSV asks for one, and only a kind that runs code has it (R171, R285, R303; DEDUCED for
FORK, log entry 78). -/
def Actor.toFlush (a : Actor) : Bool := a.desc.eosv && !a.flushed && a.desc.kind == .ordinary

/-- Whether an actor is fireable, and whether its next firing is the flushing one (R158, R171). An actor of a built-in kind runs no firing
(R178, R285, R303). -/
def State.fireKind (s : State) (rank la : Nat) (a : Actor) : Option Bool :=
  let d := a.desc
  if a.retired || a.done || a.susp.isSome || d.kind != .ordinary || !s.live a.lid || !s.outsFree rank la d ||
      !s.inWindow a || (s.markEpoch rank la a).isSome then none
  else if s.allHeads rank la d .eos || s.allHeads rank la d .reconf then (if a.toFlush then some true else none)
  else if s.cancellable a && s.owesAll rank la d then none
  else if s.joinHolds rank la d then some false
  else none

/-- The fireable actors of an element with their indexes. -/
def State.fireables (s : State) (rank : Nat) : List (Nat × Actor) :=
  ((s.elem rank).actors.zipIdx.filter fun x => (s.fireKind rank x.2 x.1).isSome).map fun x => (x.2, x.1)

/-! ## Actors of a built-in kind (R178, R285, R303) -/

/-- An actor of a kind that may act: its launch is live, and neither its end nor a marker has stopped it. -/
def State.builtin (s : State) (rank la : Nat) (a : Actor) (k : ActorKind) : Bool :=
  a.desc.kind == k && s.live a.lid && !a.retired && !a.done && (s.markEpoch rank la a).isNone

/-- What a FORK copies next: the token at its head, or the burst (R178). -/
def State.forkUnit (s : State) (rank la : Nat) (a : Actor) : List Queued :=
  match s.inEdge rank la 0 with | some (_, e) => (liveUnits (a.desc.handle 0).tile e.fifo).headD [] | none => []

/-- A FORK can copy: it has a token or a burst, and every output has room for it (R178). -/
def State.forkCopies (s : State) (rank la : Nat) (a : Actor) : Bool :=
  let u := s.forkUnit rank la a
  !u.isEmpty && a.desc.outs.all fun h => match s.outEdge rank la h with | some (_, e) => decide (u.length ≤ freeOf e) | none => true

/-- Both blocks of a TURN are in use (R285). -/
def Actor.turnFull (a : Actor) : Bool := a.turnIn.isEmpty && decide (2 ≤ a.turnOut.length)

/-- A TURN can take in the token at its head. -/
def State.turnTakes (s : State) (rank la : Nat) (a : Actor) : Bool := s.headKind rank la 0 == some .data && !a.turnFull

/-- A TURN's output has a free slot. -/
def State.turnRoom (s : State) (rank la : Nat) : Bool := match s.outEdge rank la 1 with | some (_, e) => decide (1 ≤ freeOf e) | none => true

/-- The inputs in the order in which an owner looks at them, from the one after the input served last. -/
def ownOrder (d : ActorDesc) (next : Nat) : List Nat :=
  (List.range 4).filterMap fun i => let h := (next + i) % 4; if d.kparam.getLsbD (22 + h) then some h else none

/-- The input that an owner serves now: in DET the first one that is not at its end, which may be empty; otherwise the first with a token
(R303). -/
def State.ownInput (s : State) (rank la : Nat) (a : Actor) (det : Bool) : Option (Nat × Queued) :=
  let live := (ownOrder a.desc a.ownNext).filter fun h =>
    match s.headKind rank la h with
    | some .eos | some .reconf => false
    | some _ => true
    | none => det
  match live with
  | [] => none
  | h :: _ => (s.headOf rank la h).map fun q => (h, q)

/-- An actor of a built-in kind can act now, as an ordinary one can fire (R158, R178, R285, R303, R315). -/
def State.builtinActs (s : State) (rank la : Nat) (a : Actor) : Bool :=
  s.builtin rank la a a.desc.kind && (match a.desc.kind with
    | .ordinary => false
    | .fork => s.owesAll rank la a.desc || s.forkCopies rank la a
    | .turn => s.turnTakes rank la a || (!a.turnOut.isEmpty && s.turnRoom rank la)
    | .own => (s.ownInput rank la a ((s.launch? a.lid).any Launch.det)).isSome)

/-! ## The wait-for relation (R315 to R318) -/

/-- The actor is the waiter of an entry. -/
def WaitEntry.ofActor (w : WaitEntry) (lid rank la : Nat) : Bool := !w.wl && w.wlid == lid && w.wrank == rank && w.wact == la

/-- Every entry of a partition, in the table and in the spill region. -/
def State.waitsOf (s : State) (part : Nat) : List WaitEntry := (s.part part).waits

/-- The waiter of an entry is blocked: a wait whose condition has come to hold ends by itself, unless the waiter is frozen (R316, R317). -/
def State.blocked (s : State) (w : WaitEntry) : Bool :=
  let dep := fun (l : Launch) => match s.walk l.part (ptrOff l.depp) with
    | .hit pa _ _ => versionGe (s.ver (pa / 64)) l.depv
    | .miss | .malformed => false
  w.frozen || !((w.req.bind s.req?).any s.condMet || (w.kind == 5 && (s.launch? w.wlid).any dep))

/-- A firing of a launch is held in a registered wait, or no firing of it is in progress on the element (R315). -/
def State.heldFiring (s : State) (lid rank : Nat) : Bool :=
  match s.active rank with
  | none => true
  | some (f, a) => a.lid != lid || (s.waitsOf (lidPart lid)).any fun w => !w.man && w.ofActor lid rank f.la && s.blocked w

/-- A launch is stalled (R315). -/
def State.stalled (s : State) (lid : Nat) : Bool :=
  (s.ranksOf lid).all (fun r => s.heldFiring lid r && (s.fireables r).all fun x =>
      x.2.lid != lid || (s.firing? r).any fun f => f.la == x.1) &&
    (s.ranksOf lid).all (fun r => (s.elem r).actors.zipIdx.all fun x => x.1.lid != lid || !s.builtinActs r x.2 x.1) &&
    s.edges.all (fun e => e.lid != lid || e.link.isEmpty) &&
    s.engines.all (fun e => e.2.queue.all fun c => c.lid != lid) &&
    s.regions.all (fun r => r.lid != lid || r.queue.isEmpty) &&
    s.colls.all (fun c => c.lid != lid)

/-- The successors of an entry (R316): each of their waiters is blocked. -/
def State.successors (s : State) (part : Nat) (w : WaitEntry) : List WaitEntry :=
  if w.hlid = 0 then []
  else if w.ha then (s.waitsOf part).filter fun x => x.ofActor w.hlid w.hrank w.hact && s.blocked x
  else if s.stalled w.hlid then (s.waitsOf part).filter fun x => x.wlid == w.hlid && s.blocked x
  else []

/-- The entries reached from some entries by paths of at most n more entries. -/
def State.reach (s : State) (part : Nat) : Nat → List WaitEntry → List WaitEntry
  | 0, l => l
  | n + 1, l => State.reach s part n (l ++ ((l.flatMap (s.successors part)).filter fun x => !l.any fun y => y.serial == x.serial).eraseDups)

/-- The inherited priority of a launch (R318): the greatest WPRIO of the entries that reach it as a holder within 16 entries. -/
def State.inherited (s : State) (part lid : Nat) : Nat :=
  (s.waitsOf part).foldl (fun m w => if (s.reach part 15 [w]).any fun x => x.hlid == lid then Nat.max m w.wprio else m) 0

/-- IPRIO is recomputed on every insertion and removal (R318). -/
def State.inherit (s : State) (part : Nat) : State :=
  { s with binds := s.binds.map fun b => if b.part = part then { b with iprio := s.inherited part b.lid } else b }

/-- Entries leave the wait-for table (R315). -/
def State.dropWaits (s : State) (part : Nat) (p : WaitEntry → Bool) : State :=
  if (s.waitsOf part).any p then
    (s.modPart part fun x => { x with waits := x.waits.filter fun w => !p w }).inherit part
  else s

end Sys2Proof.Machine
end

