-- ==== Sys2Proof/Machine/Ops.lean ====
section
/-! DEFINITION. The named operations that every meaning is built from: versions and the stash, translation, firings and ports, trap
records and stopping a launch, and taking a precise or a fatal fault. -/

namespace Sys2Proof.Machine

/-! ## Versions and the stash -/

/-- Puts a granule's old bytes and version into its partition's share of the stash, dropping and counting the oldest entry of a full
share (R229). -/
def State.stashPut (s : State) (part gran : Nat) : State :=
  let stack := gran % 24
  let mine := fun (e : StashEntry) => e.stack == stack && e.part == part
  let new : StashEntry := { stack, part, gran, ver := s.ver gran, data := s.readVec (gran * 64) }
  let l := s.stash ++ [new]
  if (l.filter mine).length ≤ (s.partCfg part).stash then { s with stash := l }
  else { s with stash := l.eraseP mine, stashOut := alAdd s.stashOut stack 1 }

/-- A request of an actor that a deadlock froze: every wait of the actor stays pending, also one that began after the freeze (R317). -/
def State.frozenReq (s : State) (q : Req) : Bool := (s.part (lidPart q.lid)).waits.any fun w => w.frozen && w.ofActor q.lid q.rank q.la

/-- Removes the wait-for entries of a request (R315). -/
def State.endWait (s : State) (part id : Nat) : State := s.dropWaits part fun w => w.req == some id

/-- Answers the EQ loads at a granule that wait for the version this event makes, with the bytes of the event (R235, R290). Every other
request that waits there is performed later, as its own event. -/
def State.answerVersion (s : State) (gran : Nat) : State :=
  let cur := s.ver gran
  let data := s.readVec (gran * 64)
  let hit := fun (q : Req) => q.stage == .waiting && q.pas.head? == some (some (gran * 64 + (ptrOff q.ptr) % 64)) &&
    !s.frozenReq q && (match q.kind.versionWait with | some (.eq, v) => cur == v | _ => false)
  let ids := (s.reqs.filter hit).map (·.id)
  let s1 := ids.foldl (fun s id => match s.req? id with | some q => s.endWait (lidPart q.lid) id | none => s) s
  let out := fun (q : Req) => match (q.kind.pieces q.ptr).head? with | some x => q.kind.fill x data 0 | none => 0
  { s1 with reqs := modWhere (fun q => ids.contains q.id) (fun q => { q with stage := .done, out := out q, ver := cur }) s1.reqs }

/-- One store event on a granule: the bytes that the mask selects are written and the version is bumped; with `ret` the old bytes
and version go to the stash first. A mask that selects nothing makes no event (R228, R229). An event that writes the whole granule writes its
check bits too, and so ends an uncorrectable error there (R227; DESIGN CHOICE, log entry 81). -/
def State.storeEvent (s : State) (part : Nat) (ret : Bool) (gran : Nat) (mask : BitVec 64) (data : Vec) : State :=
  if mask = 0 then s
  else
    let s1 := if ret then s.stashPut part gran else s
    let new := vecBytes (mergeVec mask data (s1.readVec (gran * 64)))
    let s2 : State := { s1 with faulty := if mask = BitVec.allOnes 64 then s1.faulty.filter fun g => g != gran else s1.faulty }
    ((s2.writeBytes (gran * 64) new).setVer gran (s2.ver gran + 1)).answerVersion gran

/-! ## Translation (R218 to R222, R372) -/

/-- A table page of Ridge's own memory: 4,096 for each partition from 1 GiB below the top (DESIGN CHOICE, log entry 10). -/
def ptPage (part n : Nat) : Nat := hbmSize - 2 ^ 30 + 2 ^ 25 * (part % 32) + 8192 * (n % 4096)

/-- Writes the entry that maps `off` at `level`, making the tables above it; `none` when Ridge has no table page left. -/
def State.ptWrite (s : State) (part off level : Nat) (entry : Word) : List (Nat × Nat) → Nat → Option State
  | [], _ => none
  | (l, sh) :: rest, table =>
    let a := table + off / 2 ^ sh % 1024 * 8
    let e : Word := BitVec.ofNat 64 (s.readNat a 8)
    if l = level then some (s.writeBytes a (bytesOfNat 8 entry.toNat))
    else if pteV e && !pteLeaf e then State.ptWrite s part off level entry rest (pteAddr e)
    else if 4096 ≤ (s.part part).ptNext then none
    else
      let page := ptPage part (s.part part).ptNext
      let s1 := (s.writeBytes a (bytesOfNat 8 (page + 1))).modPart part fun p => { p with ptNext := p.ptNext + 1 }
      State.ptWrite s1 part off level entry rest page

/-- The partition's root table, made on first use. -/
def State.ptRooted (s : State) (part : Nat) : Nat × State :=
  match (s.part part).ptRoot with
  | some r => (r, s)
  | none =>
    let page := ptPage part (s.part part).ptNext
    (page, s.modPart part fun p => { p with ptRoot := some page, ptNext := p.ptNext + 1 })

/-- Firmware invalidates the TLB and read-only cache entries of a changed page before it acknowledges (R221, R222). -/
def State.tlbFlush (s : State) (part base size : Nat) : State :=
  let keep := fun (t : TlbEntry) => t.part != part || decide (t.base + t.size ≤ base) || decide (base + size ≤ t.base)
  { s with
    dieTlb := s.dieTlb.map fun d => (d.1, d.2.filter keep),
    clusters := s.clusters.map fun c => (c.1, { c.2 with
      tlb := c.2.tlb.filter keep,
      roc := c.2.roc.filter fun e => e.1 != part || decide (e.2.1 < base) || decide (base + size ≤ e.2.1) }) }

/-- Sets a page-table entry (R221, R372). -/
def State.ptSet (s : State) (part off level : Nat) (entry : Word) : Option State :=
  let (root, s1) := s.ptRooted part
  (s1.ptWrite part off level entry ptLevels root).map fun s2 =>
    let sh := 6 + 10 * level
    s2.tlbFlush part (off / 2 ^ sh * 2 ^ sh) (2 ^ sh)

/-- The page that Ridge maps on demand for an offset: the largest leaf inside the home range that meets no entry written by MAP
(R372). -/
def State.demandLevel (s : State) (part off : Nat) : Option Nat :=
  let len := (s.partCfg part).homeLen
  let ok := fun level =>
    let size := 2 ^ (6 + 10 * level)
    let base := off / size * size
    !((s.part part).mapped.any fun m =>
        let msz := 2 ^ (6 + 10 * m.2.1)
        decide (m.1 < base + size) && decide (base < m.1 + msz)) &&
      decide (base + size ≤ len) && ((s.partCfg part).homeBase + base) % size == 0
  [3, 2, 1].find? ok

/-- Ridge's decision on a miss: the state with the page mapped, or a decline (R372). -/
def State.decideMiss (s : State) (part off : Nat) : Option State :=
  match s.demandLevel part off with
  | none => none
  | some level =>
    let size := 2 ^ (6 + 10 * level)
    let pa := (s.partCfg part).homeBase + off / size * size
    s.ptSet part off level (BitVec.ofNat 64 (pa + 0x1F))

/-- The physical address and entry of a GLOBAL offset for one of the part's own writes, with Ridge's decision on a miss (R220). -/
def State.globalXlate (s : State) (part off : Nat) : State × Option (Nat × Word) :=
  match s.walk part off with
  | .hit pa _ e => (s, some (pa, e))
  | .malformed => (s, none)
  | .miss =>
    match s.decideMiss part off with
    | none => (s, none)
    | some s1 => match s1.walk part off with
      | .hit pa _ e => (s1, some (pa, e))
      | .miss | .malformed => (s1, none)

/-! ## Launch status and trap records -/

/-- Codes of R328. -/
def TrapCode.num : TrapCode → Nat
  | .illegalEncoding => 0x01 | .illegalPrefix => 0x02 | .badTarget => 0x03 | .badSlot => 0x04 | .noExit => 0x05
  | .multiExit => 0x06 | .rateViolation => 0x07 | .translationMiss => 0x08 | .permission => 0x09 | .spaceViolation => 0x0A
  | .alignment => 0x0B | .versionReclaimed => 0x0C | .malformedStream => 0x0D | .antiOverflow => 0x0E
  | .storeHoldOverflow => 0x0F | .layoutMismatch => 0x10 | .deadlock => 0x11 | .patchTrap => 0x12 | .softwareTrap => 0x13
  | .digestMismatch => 0x14 | .memoryUncorrectable => 0x15 | .linkFailure => 0x16 | .watchdog => 0x17
  | .waitTableIncomplete => 0x18 | .privilege => 0x19

/-- The code of a number; numbers outside 0x01 to 0x19 do not occur in an accepted Thatch image (R154 step 5). -/
def TrapCode.ofNum : Nat → TrapCode
  | 0x01 => .illegalEncoding | 0x02 => .illegalPrefix | 0x03 => .badTarget | 0x04 => .badSlot | 0x05 => .noExit
  | 0x06 => .multiExit | 0x07 => .rateViolation | 0x08 => .translationMiss | 0x09 => .permission | 0x0A => .spaceViolation
  | 0x0B => .alignment | 0x0C => .versionReclaimed | 0x0D => .malformedStream | 0x0E => .antiOverflow
  | 0x0F => .storeHoldOverflow | 0x10 => .layoutMismatch | 0x11 => .deadlock | 0x12 => .patchTrap | 0x13 => .softwareTrap
  | 0x14 => .digestMismatch | 0x15 => .memoryUncorrectable | 0x16 => .linkFailure | 0x17 => .watchdog
  | 0x18 => .waitTableIncomplete | _ => .privilege

/-- The status word of a launch (R112). -/
def Launch.status (l : Launch) : Word :=
  BitVec.ofNat 64 (l.st.code * 2 ^ 60 + l.late.toNat * 2 ^ 59 + l.vany.toNat * 2 ^ 58 + l.spliced.toNat * 2 ^ 57 +
    (if l.st = .rejected ∨ l.st = .faulted then l.reason % 256 else 0) * 2 ^ 48 + l.vread.toNat * 2 ^ 32 + l.lid % 2 ^ 32)

/-- The status word of an id as a partition reads it: UNKNOWN for another partition's id, id 0, and an id that is not among the 4,096
most recent (R112). -/
def State.statusOf (s : State) (part lid : Nat) : Word :=
  match ((s.launches.filter fun l => l.part == part).reverse.take 4096).find? fun l => l.lid == lid with
  | some l => l.status
  | none => BitVec.ofNat 64 (8 * 2 ^ 60)

/-- A record that the hardware forms, with every field its code gives no meaning zero (R330). -/
def State.mkTrap (s : State) (part lid g rank : Nat) (code : TrapCode) (detail : Nat) (addr aux : Word) : Trap :=
  { seq := 0, code, ocode := code, precise := false, fatal := false, handled := false, remap := none, esc := false,
    invv := false, skid := 0, part, lid, g, rank, actor := 0, phase := 0, slot := 0, emui := 0, tslot := 0, bid := 0, detail,
    ivec := [0, 0, 0, 0, 0], natom := 0, neng := 0, nlst := 0, nmem := 0, nlau := 0, cbase := 0, addr, aux,
    cyc := s.clock.cycle, cycle := [], ridge := false }

/-- The Thatch slot that acts among those that match: highest PRIO, then the lower number (R149). -/
def pickSlot : List (Nat × Nat) → Option Nat
  | [] => none
  | (i, pr) :: r =>
    match pickSlot r with
    | none => some i
    | some j => match r.find? fun e => e.1 == j with
      | some (_, pj) => if pj ≤ pr then some i else some j
      | none => some i

/-- The fault-path slot that acts on a code in a partition (R152). -/
def State.fltSlot (s : State) (code part : Nat) : Option (Nat × BitVec 256) :=
  let hit := fun (v : BitVec 256) => bf v 215 213 != 0 && bf v 255 248 == code && v.getLsbD (216 + part)
  let cands := (s.thatch.flt.zipIdx.filter fun e => hit e.1).map fun e => (e.2, bf e.1 212 210)
  (pickSlot cands).map fun i => (i, s.thatch.flt.getD i 0)

/-- Puts a formed record behind those of its partition that wait for the trap queue, with the next SEQ (R330, R332). An unhandled
precise fault stops its launch, so its record reads FATAL 1 (DEDUCED, log entry 12). -/
def State.pushTrap (s : State) (t : Trap) : State × Trap :=
  let t1 := { t with seq := nextSerial 32 (s.part t.part).trapSeq, fatal := t.fatal || (t.precise && !t.handled) }
  (s.modPart t.part fun p => { p with trapSeq := t1.seq, pending := p.pending ++ [t1] }, t1)

/-- The key of a fault-path slot's SUPPRESS count: its partition, cluster and number (R152, R352). -/
def supKey (part cluster slot : Nat) : Nat := (part * 1024 + cluster) * 16 + slot

/-- The CODE of a stopping record, or of the one with the lowest SEQ among those of its launch and cycle that stop the launch (R337). -/
def State.reasonOf (s : State) (t : Trap) : Nat :=
  let p := s.part t.part
  let same := (p.ring ++ p.pending).filter fun u => u.lid == t.lid && u.cyc == t.cyc && u.fatal
  (same.foldl (fun b u => if (b.seq + 2 ^ 32 - u.seq) % 2 ^ 32 < 2 ^ 31 then u else b) t).code.num

/-- Forms a trap record: the fault-path slots are tried under the original code (R152, R341). A handler launch's own precise fault does
not invoke HANDLE for the code it handles (R337). -/
def State.formTrap (s : State) (t : Trap) : State × Trap :=
  match s.fltSlot t.code.num t.part with
  | none => s.pushTrap t
  | some (i, v) =>
    match bf v 215 213 with
    | 1 =>
      let esc := v.getLsbD 209
      s.pushTrap { t with code := TrapCode.ofNum (bf v 208 201), remap := some i, tslot := i, esc, fatal := t.fatal || esc }
    | 2 =>
      if t.precise && (s.part t.part).logged.any (fun g => g.handler == t.lid && g.trap.ocode == t.ocode) then s.pushTrap t
      else s.pushTrap { t with handled := true, tslot := i }
    | 3 =>
      let k := supKey t.part (t.rank / 16) i
      ({ s with thatch := { s.thatch with counts := alSet s.thatch.counts k (Nat.min (2 ^ 32 - 1) ((alGet s.thatch.counts k).getD 0 + 1)) } }, t)
    | _ => s.pushTrap t

/-- A record that Ridge forms for a launch (R332); FATAL is set where the launch has begun to stop (R337). -/
def State.ridgeTrap (s : State) (lid : Nat) (code : TrapCode) (addr : Word) : State :=
  let fatal := (s.launch? lid).any fun l => l.st == .faulted || l.st == .cancelled
  (s.formTrap { s.mkTrap (lidPart lid) lid 0 0 code 0 addr 0 with ridge := true, fatal }).1

/-- The cluster from which a launch's completion write leaves: the north-west one of its first region (DESIGN CHOICE, log entry 82). -/
def Launch.homeCluster (l : Launch) : Nat := match l.origins.head? with | some o => clusterAt o.1 o.2 | none => 0

/-- The completion write: one store event of the final status word, or one write to the HOST endpoint (R131, R360). A pointer of another space, or
of GLOBAL with an owner, is a SpaceViolation when it is used, and a misaligned one Alignment (R8, R216); Ridge forms the record. -/
def State.completionWrite (s : State) (lid : Nat) : State :=
  match s.launch? lid with
  | none => s
  | some l =>
    let p := l.cmplp
    if p = 0 then s
    else if (ptrSpace p ≠ 0 ∨ ptrOwner p ≠ 0) ∧ ptrSpace p ≠ 5 then s.ridgeTrap lid .spaceViolation p
    else if ptrOff p % 64 ≠ 0 then s.ridgeTrap lid .alignment p
    else if ptrSpace p = 0 then
      match s.globalXlate l.part (ptrOff p) with
      | (s1, some (pa, e)) =>
        if pteW e then s1.storeEvent l.part (pteRet e) (pa / 64) (BitVec.allOnes 64) (placeAt 0 l.status.toNat)
        else s1.ridgeTrap lid .permission (BitVec.ofNat 64 (ptrOff p))
      | (s1, none) => s1.ridgeTrap lid .permission (BitVec.ofNat 64 (ptrOff p))
    else if s.remoteOk l.part p 64 then s.send (.remoteWrite (s.via (l.homeCluster)) 0 p ((bytesOfNat 64 l.status.toNat).map some))
    else s.ridgeTrap lid .spaceViolation p

/-- Takes a record out of its launch queue; a record that comes to the head begins its time there (R114). -/
def State.unqueue (s : State) (part lid : Nat) : State :=
  let heads := (s.part part).queues.filterMap fun q => if q.2.head? = some lid then q.2[1]? else none
  let s1 := s.modPart part fun p => { p with queues := p.queues.map fun q => (q.1, q.2.filter fun x => x != lid) }
  heads.foldl (fun s x => s.modLaunch x fun l => { l with headAt := s.clock.cycle }) s1

/-- Ends a launch that has installed nothing (R113, R132). -/
def State.endQueued (s : State) (lid : Nat) (st : LState) (reason : Nat) : State :=
  match s.launch? lid with
  | none => s
  | some l =>
    (((s.unqueue l.part lid).dropWaits l.part fun w => w.wl && w.wlid == lid).modLaunch lid fun x =>
      { x with st, reason, cbase := [], origins := [] }).completionWrite lid

/-- Requests whose acknowledgement a launch's end waits for (R358). -/
def ReqKind.counted : ReqKind → Bool
  | .stg _ _ | .stgv _ _ | .scat _ _ _ | .atom _ _ _ _ | .cas _ _ _ | .vatom _ _ _ _ | .faadd _ _ _ => true
  | .ldg _ _ _ | .ldgv _ _ | .gath _ _ | .vrcl _ | .vqry | .lockt | .unlockt | .bar _ | .chsend _ | .chrecv | .chcred _
    | .waitv _ | .launchi _ _ _ | .fence _ | .null => false

/-- WaitTableIncomplete stays set until its partition has no running launch (R319). -/
def State.settleTable (s : State) (part : Nat) : State :=
  if s.launches.any fun l => l.part == part && l.st == .running then s else s.modPart part fun p => { p with wtInc := false }

/-- The regions of a pre-empted launch come back, and the launch leaves its queue. -/
def State.unshelve (s : State) (lid : Nat) : State :=
  match (s.launch? lid).bind fun l => l.saved with
  | none => s
  | some x =>
    let s1 := s.unqueue (lidPart lid) lid
    State.modLaunch { s1 with regions := s1.regions ++ x.regions } lid fun l => { l with saved := none }

/-- One request stands before another in their chain. -/
def chainBefore (r q : Req) : Bool :=
  match r.chain, q.chain with
  | some (c, st, rd), some (c', st', rd') =>
    r.lid == q.lid && r.g == q.g && c == c' && (decide (rd < rd') || (rd == rd' && decide (st < st')))
  | _, _ => false

/-- Under INVM = 1 the interface holds the stores of a chain without NOHOLD until their invocation ends (R232, R238). A store that reaches it when
its invocation has ended goes on to its home (DEDUCED, log entry 84). -/
def State.holds (s : State) (q : Req) : Bool :=
  (match q.kind with | .stg _ _ | .stgv _ _ | .scat _ _ _ => true | _ => false) &&
    (s.launch? q.lid).any fun l => decide (l.endedOf q.g ≤ q.inv) && l.img.any fun im =>
      im.invm && !(match q.chain with | some (c, _, _) => im.nohold.getD c false | none => false)

/-- A store of an invocation that has not ended, which a stop discards wherever it stands (R133, R336). -/
def State.unended (s : State) (q : Req) : Bool := s.holds q && !q.released

/-- The interface has not let a request go yet. -/
def Req.atInterface (q : Req) : Bool := q.stage == .queued || q.stage == .missed

/-- What a launch has issued drains when it stops (R133): its stores and atomics, but for stores of invocations that have not ended and for what stands
behind one of them in its chain (R292; DEDUCED, log entry 84). Null requests keep their places. -/
def State.drains (s : State) (q : Req) : Bool :=
  q.kind == .null || (q.kind.counted && q.stage != .waiting && !s.unended q &&
    !(q.atInterface && s.reqs.any fun r => s.unended r && chainBefore r q))

/-- A running launch stops (R133): its firings are dropped, its held stores discarded, its waits leave the table, and what it has
already issued drains until LAUNCH_END clears its bind records. What a pre-empted launch saved is dropped, but for its regions (R361). -/
def State.stopOne (s0 : State) (lid : Nat) (st : LState) (reason : Nat) : State :=
  let s := s0.unshelve lid
  let drop := fun (e : Elem) =>
    match e.firing with
    | some f => match e.actors[f.la]? with
      | some a => if a.lid == lid then { e with firing := none } else e
      | none => e
    | none => e
  let part := lidPart lid
  let s1 : State := { s with
    elems := s.elems.map fun e => (e.1, drop e.2),
    clusters := s.clusters.map fun c => (c.1, { c.2 with held := c.2.held.filter fun h => h.lid != lid || (s.req? h.req).any fun q => q.released }),
    reqs := s.reqs.filter fun q => q.lid != lid || s.drains q }
  (((s1.dropWaits part fun w => w.wlid == lid && !w.man).modPart part fun p => { p with
      preempt := match p.preempt with | some x => if (s.wave x.lid).contains lid then none else some x | none => none }).modLaunch lid
    fun l => { l with st, reason, succ := none }) |>.settleTable part

/-- The successors that wait behind a launch become REJECTED with reason 0x25 (R128, R132). -/
def State.rejectSucc (s : State) : Nat → Option Nat → State
  | 0, _ => s
  | _, none => s
  | n + 1, some lid =>
    match s.launch? lid with
    | none => s
    | some l => if l.st.final || l.st == .running then s else State.rejectSucc (s.endQueued lid .rejected 0x25) n l.succ

/-- The other configurations of the splice wavefront that a running or set-aside launch belongs to (R133, R337). -/
def State.wavefront (s : State) (l : Launch) : List Launch :=
  if l.st = .running ∨ l.saved.isSome then s.launches.filter fun x => x.lid != l.lid && (s.wave l.lid).contains x.lid else []

/-- Stops a launch that has not ended (R132, R133, R337): a running or installed one drains, together with its splice wavefront; any
other leaves its queue. -/
def State.stopLaunch (s : State) (lid : Nat) (st : LState) (reason : Nat) : State :=
  match s.launch? lid with
  | none => s
  | some l =>
    let n := s.launches.length
    if l.st.final then s
    else if l.st = .running ∨ (l.st = .loading ∧ l.timed) ∨ l.saved.isSome then
      let both := l :: s.wavefront l
      (both.foldl (fun s x => s.stopOne x.lid st reason) s) |> fun s => both.foldl (fun s x => s.rejectSucc n x.succ) s
    else
      let s1 : State := { s with
        binds := s.binds.map fun b =>
          if s.launches.any (fun x => x.lid == b.lid && x.succ == some lid) then { b with succ := false } else b }
      (s1.endQueued lid st reason).rejectSucc n l.succ

/-! ## Invocations and held stores (R237, R238, R336) -/

/-- The iteration vector of an invocation (R237). -/
def iterVec (ext : List Nat) (n : Nat) : List Nat :=
  let e := fun k => Nat.max 1 (ext.getD k 1)
  [n % e 0, n / e 0 % e 1, n / (e 0 * e 1) % e 2, n / (e 0 * e 1 * e 2) % e 3, n / (e 0 * e 1 * e 2 * e 3)]

/-- The held stores of a group's invocations below n may leave the held-store buffer (R238); MEMORY_REQUEST_FORWARD lets them go one by one. -/
def State.releaseHeld (s : State) (lid g n : Nat) : State :=
  { s with reqs := modWhere (fun q => q.stage == .held && q.lid == lid && q.g == g && decide (q.inv < n)) (fun q => { q with released := true }) s.reqs }

/-- The highest invocation of a group that a firing has started. -/
def State.topInv (s : State) (l : Launch) (g : Nat) : Nat :=
  let acts := s.elems.flatMap fun e => e.2.actors.filter fun a => a.lid == l.lid && a.g == g
  let done := acts.map fun a => if a.fcount = 0 then 0 else l.invOf a.aidx (a.fcount - 1)
  let now := s.elems.filterMap fun e => match e.2.firing with
    | some f => match e.2.actors[f.la]? with
      | some a => if a.lid == l.lid && a.g == g then some f.inv else none
      | none => none
    | none => none
  (done ++ now).foldl Nat.max 0

/-- A fault that stops its context (R328, R329, R336, R337): held stores of ended invocations are released, the record is formed, and the
launch stops FAULTED with REASON the record's CODE, or that of an earlier one of the cycle. A fault of a launch that is stopping, or of none, only writes its record. -/
def State.fatalTrap (s : State) (t : Trap) : State :=
  match s.launch? t.lid with
  | none => (s.formTrap { t with lid := 0 }).1
  | some l =>
    if l.st = .running then
      let inv := match l.img with | some im => im.invm | none => false
      let b := l.endedOf t.g
      let groups := (List.range l.ngroup).map fun g => (g, l.endedOf g)
      let s1 := if inv then groups.foldl (fun s g => s.releaseHeld t.lid g.1 g.2) s else s
      let ext := match l.img with | some im => im.ext | none => []
      let past := fun (x : List (Nat × Nat)) => (x.filter fun e => e.1 == t.g && decide (b ≤ e.2)).length
      let t1 := if inv then
          { t with
            fatal := true, invv := true, ivec := (iterVec ext b).map (· % 65536), skid := Nat.min 2 (s.topInv l t.g - b),
            natom := Nat.min 0xFFFF (past l.atoms), neng := Nat.min 0xFF (past l.engs) }
        else { t with fatal := true }
      let (s2, t2) := s1.formTrap t1
      s2.stopLaunch t.lid .faulted (s2.reasonOf t2)
    else if l.st.final then (s.formTrap { t with fatal := true }).1
    else
      let (s2, t2) := s.formTrap { t with fatal := true }
      s2.stopLaunch t.lid .faulted (s2.reasonOf t2)

/-- A REMAP slot with ESC stops the launch whose record was formed (R152, R341). -/
def State.escalate (r : State × Trap) : State :=
  if r.2.esc && r.1.running r.2.lid then r.1.stopLaunch r.2.lid .faulted (r.1.reasonOf r.2) else r.1

/-- A notice of a launch, or of none (R328). -/
def State.notice (s : State) (t : Trap) : State := State.escalate (s.formTrap t)

/-- A fatal fault detected for a launch's group outside any firing. -/
def State.fatalAt (s : State) (lid g rank : Nat) (code : TrapCode) (detail : Nat) (addr aux : Word) : State :=
  s.fatalTrap (s.mkTrap (lidPart lid) lid g rank code detail addr aux)

/-! ## Firings, slots and ports -/

/-- The slot number of a slot or of an inserted word (R151). -/
def slotNo (id : Nat) : Nat := if id < 64 then id else (id - 64) / 4

/-- The inserted-word index, 0 for a slot. -/
def slotEmui (id : Nat) : Nat := if id < 64 then 0 else (id - 64) % 4

/-- The order of slots in a block, inserted words in place of their slot (R61). -/
def slotKey (id : Nat) : Nat := slotNo id * 4 + slotEmui id

/-- The Thatch slot that claimed a slot by EMULATE. -/
def Firing.tslotOf (f : Firing) (id : Nat) : Nat :=
  if id < 64 then 0 else match f.slotAt (slotNo id) with
    | some { kind := .emu t _, .. } => t
    | _ => 0

/-- The prefix in a slot. -/
def Firing.pfxAt (f : Firing) (id : Nat) : Option Pfx :=
  match f.slotAt id with
  | some sl => if sl.kind = .pfx then (Pfx.ofRaw (Raw.ofWord sl.word)).join else none
  | none => none

/-- The prefixes of the instruction in a slot: at most two words before it (R76). -/
def Firing.pfxs (f : Firing) (id : Nat) : List Pfx :=
  let first := if id < 64 then 0 else id - (id - 64) % 4
  if id ≤ first then []
  else match f.pfxAt (id - 1) with
    | none => []
    | some p => if id - 1 ≤ first then [p] else match f.pfxAt (id - 2) with
      | none => [p]
      | some q => [p, q]

/-- The chain and step of an instruction: its PFX.SEQ (R79), or the literal of a FENCE (R314). -/
def Firing.seqOf (f : Firing) (id : Nat) : Option (Nat × Nat) :=
  match (f.pfxs id).findSome? fun p => match p with
    | .seq c st => some (c.val, st.val)
    | .sat | .rnd _ | .scp _ _ _ => none with
  | some x => some x
  | none =>
    match f.slotAt id, f.slotAt (id + 1) with
    | some sl, some l =>
      if sl.kind = .ins ∧ (Raw.ofWord sl.word).op = 0xDD then some (bf l.word 21 12, bf l.word 11 0) else none
    | _, _ => none

/-- Acquire, release and scope of an instruction (R80). -/
def Firing.scpOf (f : Firing) (id : Nat) : Option (Bool × Bool × Nat) :=
  (f.pfxs id).findSome? fun p => match p with
    | .scp a r s => some (a, r, s.val)
    | .sat | .rnd _ | .seq _ _ => none

/-- The value on a port of a slot. -/
def Slot.port (sl : Slot) : Port → Option Value
  | .a => sl.a | .b => sl.b | .c => sl.c | .p => sl.p

/-- A slot with a value put on a port. -/
def Slot.setPort (sl : Slot) (q : Port) (v : Value) : Slot :=
  match q with
  | .a => { sl with a := some v } | .b => { sl with b := some v } | .c => { sl with c := some v } | .p => { sl with p := some v }

/-- The CODE pointer of slot n of the block that a firing runs, and the CBASE of its image's copy in 64-byte units (R137, R330). -/
def State.codePtr (s : State) (rank : Nat) (a : Actor) (word : Nat) : Word × Nat :=
  let die := rank / 256
  let cb := match s.launch? a.lid with | some l => (alGet l.cbase die).getD 0 | none => 0
  (mkPtr 4 (die * 256) (cb * 64 + 4 * word), cb)

/-- The chain position of a request for a step: its k-th request belongs to round k (R233). -/
def State.chainTake (s : State) (lid g chain step : Nat) : (Nat × Nat × Nat) × State :=
  let mine := fun (c : ChainPos) => c.lid == lid && c.g == g && c.chain == chain
  match s.chains.find? mine with
  | none => ((chain, step, 0), s)
  | some c =>
    let k := c.steps.findIdx fun x => x.1 == step
    ((chain, step, c.sent.getD k 0), { s with chains := modWhere mine (fun c => { c with sent := c.sent.modify k (· + 1) }) s.chains })

/-- A null request fills a chain step and performs nothing (R233). -/
def State.nullRequest (s : State) (rank la : Nat) (a : Actor) (chain step : Nat) : State :=
  let (id, s1) := s.fresh
  let (pos, s2) := s1.chainTake a.lid a.g chain step
  let q : Req := {
    id, fid := 0, rank, la, lid := a.lid, g := a.g, slot := 0, dst := [], ptr := 0, kind := .null,
    chain := some pos, scp := none, inv := 0, stage := .queued, next := 0, pas := [], out := 0, ver := 0, count := 0,
    arr := id, sub := 0 }
  { s2 with reqs := s2.reqs ++ [q] }

/-- Null requests for the chained instructions of the block that have not issued (R233). -/
def State.nullBlock (s : State) (rank : Nat) (f : Firing) (a : Actor) : State :=
  f.slots.foldl (fun s sl =>
    if sl.kind = .ins && !sl.issued then
      match f.seqOf sl.id with | some (c, st) => s.nullRequest rank f.la a c st | none => s
    else s) s

/-- The fields that a record takes from the firing in progress (R330). -/
def Trap.ofFiring (t : Trap) (f : Firing) (id : Nat) : Trap :=
  { t with
    actor := f.la, phase := f.phase, slot := slotNo id, emui := slotEmui id, tslot := f.tslotOf id, bid := f.bid,
    nlst := Nat.min f.nlst 0xFF, nmem := Nat.min f.nmem 0xFF, nlau := Nat.min f.nlau 15 }

/-- TAKING A PRECISE FAULT (R167, R328, R330, R333, R337). The firing ends and commits nothing, the record is formed with the effects that
remain counted, and the actor is suspended under its SEQ. A launch that is stopping, or whose firing cancelled it, changes nothing else;
a pending cancel of the own launch takes effect (R132). A REMAP slot with ESC stops the launch (R152). What the actor waited for leaves the
wait-for table (R315). -/
def State.preciseTrap (s : State) (rank : Nat) (f : Firing) (a : Actor) (t : Trap) : State :=
  let stopping := !s.running a.lid
  let quiet := stopping || f.cancel
  let t1 := { t with precise := true, fatal := quiet }
  let s1 := ((s.nullBlock rank f a).modElem rank fun e => { e with firing := none }).dropWaits (lidPart a.lid) fun w =>
    !w.man && w.ofActor a.lid rank f.la
  let (s2, t2) := s1.formTrap t1
  if quiet then (if f.cancel then s2.stopLaunch a.lid .cancelled 0 else s2)
  else
    let s3 := s2.modActor rank f.la fun x => { x with susp := some t2.seq }
    let s4 := s3.modPart (lidPart a.lid) fun p => { p with preempt := match p.preempt with
      | some x => if (s3.wave x.lid).contains a.lid then none else some x | none => none }
    if t2.esc then s4.stopLaunch a.lid .faulted (s4.reasonOf t2) else s4

/-- A precise fault of the word in a slot, at issue (`detail` 1) or at arrival (2), or with its own DETAIL (R143, R331). -/
def State.precise (s : State) (rank id : Nat) (code : TrapCode) (detail : Nat) (aux : Word) : State :=
  match s.active rank with
  | none => s
  | some (f, a) =>
    let (addr, cb) := s.codePtr rank a (f.hdr + 1 + slotNo id)
    let t := ((s.mkTrap (lidPart a.lid) a.lid a.g rank code detail addr aux).ofFiring f id)
    s.preciseTrap rank f a { t with cbase := cb }

/-- A precise fault of the whole firing, at its end: the record names the block header (R331). -/
def State.preciseEnd (s : State) (rank : Nat) (code : TrapCode) (detail : Nat) : State :=
  match s.active rank with
  | none => s
  | some (f, a) =>
    let (addr, cb) := s.codePtr rank a f.hdr
    let t := ((s.mkTrap (lidPart a.lid) a.lid a.g rank code detail addr 0).ofFiring f 0)
    s.preciseTrap rank f a { t with cbase := cb }

/-- TAKING A FATAL FAULT raised by the word in a slot, with its ADDR and AUX (R133, R331, R336). -/
def State.fatalAux (s : State) (rank id : Nat) (code : TrapCode) (addr aux : Word) : State :=
  match s.active rank with
  | none => s
  | some (f, a) =>
    s.fatalTrap (((s.mkTrap (lidPart a.lid) a.lid a.g rank code 0 addr aux).ofFiring f id))

/-- A fatal fault with no AUX. -/
def State.fatal (s : State) (rank id : Nat) (code : TrapCode) (addr : Word) : State := s.fatalAux rank id code addr 0

/-! ## Handles and edges -/

/-- The offset bound of a handle (R185); a flushing firing has 0 on every input (R171). -/
def handleBound (f : Firing) (d : ActorDesc) (h : Nat) : Nat :=
  let w := d.handle h
  if w.out then (if w.var then w.max else w.rate)
  else if f.flushing then 0
  else if d.join = .early && h == d.sel then 1
  else if d.join = .early && d.dmask.getLsbD h then (if f.chosen = some h then 1 else 0)
  else if w.var then Nat.min (f.snap.getD h 0) w.max
  else w.rate

/-- Writes an unpublished output slot (R185). -/
def State.putOut (s : State) (rank id h off flit : Nat) (kind : Kind) (tag : Option (BitVec 32)) (pay : Vec) : State :=
  s.modFiring rank fun f => { f with outs := f.outs ++ [{ h, off, flit, entry := f.entry, slot := slotKey id, kind, tag, pay }] }

/-- A write to a slot of an output handle at an offset, or RateViolation beyond its bound (R185). -/
def State.poke (s : State) (rank id h off : Nat) (kind : Kind) (tag : Option (BitVec 32)) (pay : Vec) : State :=
  match s.active rank with
  | none => s
  | some (f, a) =>
    if handleBound f a.desc h ≤ off then s.precise rank id .rateViolation 1 (BitVec.ofNat 64 off)
    else s.putOut rank id h off 0 kind tag pay

/-- An actor as the loader installs it: phase 0, RNE, no flags, SEED 0, G = 1, sequence counters 0 and its keep registers as the
image gives them (R29, R39, R43, R169, R181, R207). -/
def Actor.install (lid g aidx : Nat) (desc : ActorDesc) (stage : Nat) (range : Nat × Nat) (reps : Nat) (keep : List Word) : Actor :=
  { lid, g, aidx, desc, stage, range, reps, keep, phase := 0, rnd := 0, flags := 0, seed := 0, pass := 0, yld := false,
    retired := false, susp := none, flushed := false, done := false, lg := LaneGroups.fresh, facc := 0, fn := 0,
    depths := List.replicate 16 none, seqs := List.replicate 16 0, eosOut := List.replicate 16 false, latch := none, fcount := 0,
    marked := false, turnIn := [], turnOut := [], ownNext := 0 }

/-- A firing just selected, before it enters a block. -/
def Firing.select (fid la phase : Nat) (flushing : Bool) (inv : Nat) (snap : List Nat) (chosen : Option Nat) : Firing :=
  { fid, la, phase, flushing, inv, snap, chosen, entry := 0, hdr := 0, bid := 0, slots := [], exit := none, keepW := [], srW := [],
    flags := 0, pend := List.replicate 16 0, antis := List.replicate 16 0, outs := [], lgW := none, frW := none, lgUsed := false,
    fibUsed := false, tickh := none, due := [], nlst := 0, nmem := 0, nlau := 0, cancel := false, xopLoad := none }

/-- An actor descriptor that uses no handle. -/
def ActorDesc.blank : ActorDesc :=
  { entry := List.replicate 8 0xFFFF, hnd := [], keepMask := 0, keepIdx := 0, prio := 0, stage := 0, stauto := false, join := .all,
    sel := 0, dmask := 0, eosph := 0, eosv := false, kind := .ordinary, isPure := false, shg := 0, px := 0, py := 0, kparam := 0 }

/-! ## Values and delivery (R58 to R61, R191) -/

/-- A value as a scalar port reads it: a vector gives its low 64 bits (R183, R191). -/
def Value.scalar : Value → Word
  | .s w => w
  | .v x => x.setWidth 64

/-- A value as a vector port reads it: a scalar stands in the low 64 bits with zeros above (R191). -/
def Value.vec : Value → Vec
  | .s w => w.setWidth 512
  | .v x => x

/-- The value that a P port takes is true when its 64 bits are not all zero; of a vector the port takes the low 64 bits (R56, R191). -/
def Value.isTrue (v : Value) : Bool := v.scalar != 0

/-- Puts a value on a port of a slot; a second arrival is BadSlot (R61). -/
def State.arriveAt (s : State) (rank id : Nat) (q : Port) (v : Value) : State :=
  match s.firing? rank with
  | none => s
  | some f =>
    match f.slotAt id with
    | none => s
    | some sl =>
      if (sl.port q).isSome then s.precise rank id .badSlot 2 v.scalar
      else s.modFiring rank fun f => f.modSlot id fun sl => sl.setPort q v

/-- The predicate of a word does not match the value on its P port (R56). -/
def senseWrong (w : IWord) (v : Value) : Bool :=
  match (Raw.ofWord w).pr with | 1 => !v.isTrue | 2 => v.isTrue | _ => false

/-- The chained words that a slot stands for: itself, or the words inserted for it. -/
def Firing.wordsOf (f : Firing) (id : Nat) : List Nat :=
  match f.slotAt id with
  | some { kind := .emu _ _, .. } => (List.range 4).map fun i => 64 + 4 * id + i
  | some { kind := .ins, .. } => [id]
  | some { kind := .lit, .. } | some { kind := .pfx, .. } | none => []

/-- A predicate that arrives with the wrong sense sends a null request for each chained word that it stops (R233). -/
def State.nullWords (s : State) (rank id : Nat) : State :=
  match s.active rank with
  | none => s
  | some (f, a) =>
    (f.wordsOf id).foldl (fun s n =>
      match f.slotAt n, f.seqOf n with
      | some { kind := .ins, .. }, some (c, st) =>
        (s.nullRequest rank f.la a c st).modFiring rank fun f => f.modSlot n fun sl => { sl with issued := true }
      | _, _ => s) s

/-- The inserted words whose port takes the original's port (R147 INMAP, R151). -/
def emuInputs (inmap : BitVec 12) (id : Nat) (q : Port) : List Nat :=
  match q with
  | .p => []
  | .a | .b | .c =>
    (List.range 4).filterMap fun i => if inmap.getLsbD (3 * i + q.code) then some (64 + 4 * id + i) else none

/-- A value arrives at a port (R61). The inputs of an emulated word go on to its inserted words (R151), and a predicate of the
wrong sense fills the chain steps it stops (R233). -/
def State.arrive (s : State) (rank id : Nat) (q : Port) (v : Value) : State :=
  let s1 := s.arriveAt rank id q v
  match (s.firing? rank).bind fun f => f.slotAt id with
  | none => s1
  | some sl =>
    if (sl.port q).isSome then s1
    else if q = .p then (if senseWrong sl.word v then s1.nullWords rank id else s1)
    else match sl.kind with
      | .emu _ inmap => (emuInputs inmap id q).foldl (fun s n => s.arriveAt rank n q v) s1
      | .ins | .lit | .pfx => s1

/-- Holds a write of a keep register until commit (R61, R184). -/
def State.holdKeep (s : State) (rank id n : Nat) (v : Word) : State :=
  s.modFiring rank fun f => { f with keepW := f.keepW ++ [{ reg := n, entry := f.entry, slot := slotKey id, val := v }] }

/-- A slot, and the words inserted for it, take a result of the word `src` (R163). -/
def Firing.feed (f : Firing) (id src : Nat) : Firing :=
  { f with slots := modWhere (fun sl => sl.id == id || (f.wordsOf id).contains sl.id) (fun sl => { sl with fed := some src }) f.slots }

/-- Delivers to a consumer that is no code of an inserted word (R59). `base` is the first slot that slot
targets count from; `ord` is the tag with which a completion value is published as ORD (R231). -/
def State.deliverAt (s : State) (rank id base : Nat) (ord : Option (BitVec 32)) (t : Target) (v : Value) : State :=
  match t with
  | .slot n q => (s.modFiring rank fun f => f.feed (base + n.val) id).arrive rank (base + n.val) q v
  | .discard => s
  | .keep n => s.holdKeep rank id n.val v.scalar
  | .out h =>
    match ord with
    | some o => s.poke rank id h.val 0 .ord (some o) (v.scalar.setWidth 512)
    | none => s.poke rank id h.val 0 .data none (v.scalar.setWidth 512)
  | .orig _ | .reserved _ => s

/-- The consumer fields of a word as it stands (R55). -/
def wordTargets (w : IWord) : Target × Target := (Target.ofCode (Raw.ofWord w).t0, Target.ofCode (Raw.ofWord w).t1)

/-- `deliver(t, v)` from the word in a slot (R71); an inserted word's slot targets name inserted words, and codes 0x40 and 0x41 the
original's consumers (R151). -/
def State.deliverOrd (s : State) (rank id : Nat) (ord : Option (BitVec 32)) (t : Target) (v : Value) : State :=
  if id < 64 then s.deliverAt rank id 0 ord t v
  else
    match t with
    | .orig second =>
      match (s.firing? rank).bind fun f => f.slotAt (slotNo id) with
      | some sl =>
        let ts := wordTargets sl.word
        s.deliverAt rank id 0 ord (if second then ts.2 else ts.1) v
      | none => s
    | .slot _ _ | .discard | .keep _ | .out _ | .reserved _ => s.deliverAt rank id (64 + 4 * slotNo id) ord t v

/-- Delivers a value to every consumer in order. -/
def State.deliverAll (s : State) (rank id : Nat) (ord : Option (BitVec 32)) : List Target → Value → State
  | [], _ => s
  | t :: r, v => State.deliverAll (s.deliverOrd rank id ord t v) rank id ord r v

/-- Delivers a scalar from the word that issues to its two consumers. -/
def State.out2 (s : State) (a b : Target) (w : Word) : State := s.deliverAll s.focus.rank s.focus.id none [a, b] (.s w)

/-- Delivers a scalar from the word that issues to its one consumer. -/
def State.out1 (s : State) (a : Target) (w : Word) : State := s.deliverAll s.focus.rank s.focus.id none [a] (.s w)

/-- Delivers a vector from the word that issues to its two consumers. -/
def State.outV2 (s : State) (a b : Target) (x : Vec) : State := s.deliverAll s.focus.rank s.focus.id none [a, b] (.v x)

/-- Delivers a vector from the word that issues to its one consumer. -/
def State.outV1 (s : State) (a : Target) (x : Vec) : State := s.deliverAll s.focus.rank s.focus.id none [a] (.v x)

/-- The word that issues takes a precise fault at issue: it has sent nothing, so its chain step gets a null request like those of the words
that have not issued (R233). -/
def State.faultHere (s : State) (code : TrapCode) (aux : Word) : State :=
  (s.modFiring s.focus.rank fun f => f.modSlot s.focus.id fun sl => { sl with issued := false }).precise s.focus.rank s.focus.id code (if code = .privilege then 0 else 1) aux

/-- The word that issues takes a fatal fault with a pointer. -/
def State.fatalHere (s : State) (code : TrapCode) (addr : Word) : State := s.fatal s.focus.rank s.focus.id code addr

/-- Flags raised by the word that issues (R43). -/
def State.raise (s : State) (fl : BitVec 5) : State := s.modFiring s.focus.rank fun f => { f with flags := f.flags ||| fl }

/-- The firing and actor of the word that issues. -/
def State.here (s : State) : Option (Firing × Actor) := s.active s.focus.rank

/-- The launch of the word that issues. -/
def State.hereLaunch (s : State) : Option Launch := s.here.bind fun x => s.launch? x.2.lid

/-- The issuing launch is deterministic (R323). -/
def State.hereDet (s : State) : Bool := match s.hereLaunch with | some l => l.det | none => false

/-- The partition of the word that issues (SR.PART). -/
def State.herePart (s : State) : Nat := match s.here with | some x => lidPart x.2.lid | none => 0

/-- The slot whose word issues. -/
def State.hereSlot (s : State) : Option Slot := (s.firing? s.focus.rank).bind fun f => f.slotAt s.focus.id

/-- Ports of the word that issues; the step issues a word only when every port it reads has its value (R163). -/
def State.portVal (s : State) (q : Port) : Option Value := s.hereSlot.bind fun sl => sl.port q
def State.portS (s : State) (q : Port) : Word := ((s.portVal q).getD (.s 0)).scalar
def State.portV (s : State) (q : Port) : Vec := ((s.portVal q).getD (.s 0)).vec

end Sys2Proof.Machine
end

