-- ==== Sys2Proof/Machine/Operands.lean ====
section
/-! DEFINITION. Operand forms: values of a type in a word or a lane, immediates, the effective rounding and saturation of a word, and
pointers as an instruction checks them (R53, R58, R71, R191, R225). -/

namespace Sys2Proof.Machine

/-- The unsigned low bits of a word in a type (R58). -/
def lowBits (t : Ty) (w : Word) : Nat := w.toNat % 2 ^ t.width

/-- The integer that the low bits of a number are in a type (R34, R187). -/
def intOf (t : Ty) (n : Nat) : Int := if t.isSigned then toSigned t.width n else ((n % 2 ^ t.width : Nat) : Int)

/-- The integer operand that a port gives (R187). -/
def intOperand (t : Ty) (w : Word) : Int := intOf t w.toNat

/-- `extend(v, TY)`: a value of a type held in 64 bits (R58). -/
def extendTo (t : Ty) (n : Nat) : Word :=
  if t.isSigned then BitVec.ofInt 64 (toSigned t.width n) else BitVec.ofNat 64 (n % 2 ^ t.width)

/-- The least and greatest values of an integer type (R34). -/
def tyMin (t : Ty) : Int := if t.isSigned then -(2 ^ (t.width - 1) : Int) else 0
def tyMax (t : Ty) : Int := if t.isSigned then (2 ^ (t.width - 1) : Int) - 1 else (2 ^ t.width : Int) - 1

/-- `sat(x, ty)` (R53). -/
def satInt (t : Ty) (x : Int) : Int := if x < tyMin t then tyMin t else if tyMax t < x then tyMax t else x

/-- The bits of an exact integer result: wrapped, or clamped under saturation (R35, R77). -/
def intBits (t : Ty) (sat : Bool) (x : Int) : Nat := wrapNat t.width (if sat then satInt t x else x)

/-- An exact integer result as it is delivered (R35, R58). -/
def intResult (t : Ty) (sat : Bool) (x : Int) : Word := extendTo t (intBits t sat x)

/-- Signed and unsigned immediates (R71). -/
def simm9 (i : BitVec 9) : Int := toSigned 9 i.toNat
def uimm9 (i : BitVec 9) : Nat := i.toNat

/-- The immediate of a compare in the signedness of its type (R188). -/
def immOf (t : Ty) (i : BitVec 9) : Int := if t.isSigned then simm9 i else (uimm9 i : Int)

/-- Every lane of a vector. -/
def lanes (t : Ty) (v : Vec) : List Nat := (List.range t.lanes).map fun i => lane t v i

/-- The number with the given lanes of w bits, lowest first. -/
def packNat (w : Nat) : List Nat → Nat
  | [] => 0
  | x :: r => x % 2 ^ w + 2 ^ w * packNat w r

/-- The vector with the given lanes of w bits. -/
def packW (w : Nat) (l : List Nat) : Vec := BitVec.ofNat 512 (packNat w l)

/-- The vector with the given lanes of a type; missing lanes are 0. -/
def packLanes (t : Ty) (l : List Nat) : Vec := packW t.width l

/-- PFX.SAT stands on the word that issues (R71 `eff_sat`). -/
def State.effSat (s : State) : Bool :=
  match s.firing? s.focus.rank with | some f => (f.pfxs s.focus.id).contains .sat | none => false

/-- A rounding mode from its code (R39). -/
def rndOf (v : BitVec 2) : Rnd :=
  match v.toNat with | 0 => .rne | 1 => .rtz | 2 => .rdn | _ => .rup

/-- The mode in force for the word that issues: its PFX.RND, or SR.RND (R71 `eff_mode`). -/
def State.effMode (s : State) : Rnd :=
  match s.here with
  | none => .rne
  | some (f, a) =>
    match (f.pfxs s.focus.id).findSome? fun p => match p with | .rnd m => some m | .sat | .seq _ _ | .scp _ _ _ => none with
    | some m => m
    | none => rndOf a.rnd

/-- FIFO slots of an element's incoming edges, 64 bytes each (R13, R223). -/
def State.fifoSlots (s : State) (rank : Nat) : Nat :=
  (s.edges.filter fun e => e.crank == rank).foldl (fun n e => n + e.depth) 0

/-- Where an element's FIFO area begins: above the LOCAL segments of its actors, at the next 64-byte boundary (R89, R223). -/
def State.fifoBase (s : State) (rank : Nat) : Nat :=
  let lids := (s.elem rank).actors.map fun a => (a.lid, a.g, a.aidx)
  let tops := s.launches.flatMap fun l => l.segs.filterMap fun sg =>
    if sg.space = 2 ∧ lids.any (fun x => x.1 == l.lid && x.2.2 == sg.actor) then some (sg.off + sg.bytes.length) else none
  (tops.foldl Nat.max 0 + 63) / 64 * 64

/-- A span of local memory meets the FIFO area (R223). -/
def State.meetsFifo (s : State) (rank off n : Nat) : Bool :=
  let b := s.fifoBase rank
  let k := s.fifoSlots rank * 64
  decide (0 < k) && decide (off < b + k) && decide (b < off + n)

/-- What a check of a pointer finds. -/
inductive PtrCheck where
  | ok (off : Nat)
  | bad (code : TrapCode)
  deriving DecidableEq, Repr

/-- A local access of the word that issues: LOCAL space with owner SR.RANK, alignment, range and FIFO area (R225). -/
def State.localCheck (s : State) (p : Word) (n align : Nat) : PtrCheck :=
  let o := ptrOff p
  if ptrSpace p ≠ 2 ∨ ptrOwner p ≠ s.focus.rank then .bad .spaceViolation
  else if o % align ≠ 0 then .bad .alignment
  else if 32768 < o + n then .bad .spaceViolation
  else if s.meetsFifo s.focus.rank o n then .bad .spaceViolation
  else .ok o

/-- A record in the issuing element's own local memory: LOCAL, owner SR.RANK, 64-byte aligned (R124, R247, R320, R348). -/
def State.recordCheck (s : State) (p : Word) : PtrCheck :=
  if ptrSpace p ≠ 2 ∨ ptrOwner p ≠ s.focus.rank then .bad .spaceViolation
  else if ptrOff p % 64 ≠ 0 then .bad .alignment
  else if 32768 < ptrOff p + 64 then .bad .spaceViolation
  else if s.meetsFifo s.focus.rank (ptrOff p) 64 then .bad .spaceViolation
  else .ok (ptrOff p)

/-- The record at a checked local offset of the issuing element. -/
def State.localVec (s : State) (off : Nat) : Vec := s.readVec (localKey s.focus.rank off)

end Sys2Proof.Machine
end

