-- ==== Sys2Proof/Machine/Flags.lean ====
section
/-! DEFINITION. Floating-point values, the one rounding of R40 with the flags it raises, and every float operation on exact values
(R36 to R51, R194 to R199). -/

namespace Sys2Proof.Machine

/-- The five sticky flags (R43). -/
abbrev Flags := BitVec 5

def flInvalid : Flags := 1
def flDivZero : Flags := 2
def flOverflow : Flags := 4
def flUnderflow : Flags := 8
def flInexact : Flags := 16

/-- A float value: `num z e` is z times 2^e with z not 0 (R36). -/
inductive FVal where
  | nan (sig : Bool)
  | inf (neg : Bool)
  | zero (neg : Bool)
  | num (z e : Int)
  deriving DecidableEq, Repr

/-- Exponent and mantissa bits of a float type (R36). -/
def Ty.expBits : Ty → Nat
  | .f32 | .bf16 => 8
  | .f16 | .e5m2 => 5
  | .e4m3 => 4
  | .i8 | .n8 | .i16 | .n16 | .i32 | .n32 | .i64 | .n64 | .i4 | .n4 => 1

def Ty.manBits (t : Ty) : Nat := t.width - 1 - Ty.expBits t

def Ty.bias (t : Ty) : Int := 2 ^ (Ty.expBits t - 1) - 1

/-- The canonical NaN of a format (R37). -/
def canonNan (t : Ty) : Nat :=
  match t with
  | .e4m3 => 0x7F
  | .f32 | .bf16 | .f16 | .e5m2 | .i8 | .n8 | .i16 | .n16 | .i32 | .n32 | .i64 | .n64 | .i4 | .n4 =>
    (2 ^ Ty.expBits t - 1) * 2 ^ Ty.manBits t + 2 ^ (Ty.manBits t - 1)

/-- The value of an encoding (R36). -/
def floatOf (t : Ty) (n : Nat) : FVal :=
  let mb := Ty.manBits t
  let m := n % 2 ^ mb
  let ex := n / 2 ^ mb % 2 ^ Ty.expBits t
  let neg := n / 2 ^ (t.width - 1) % 2 == 1
  let sg : Int := if neg then -1 else 1
  if ex = 2 ^ Ty.expBits t - 1 ∧ t ≠ .e4m3 then
    (if m = 0 then .inf neg else .nan (m / 2 ^ (mb - 1) % 2 == 0))
  else if t = .e4m3 ∧ ex = 15 ∧ m = 7 then .nan false
  else if ex = 0 then (if m = 0 then .zero neg else .num (sg * m) (1 - Ty.bias t - mb))
  else .num (sg * (2 ^ mb + m : Nat)) (ex - Ty.bias t - mb)

/-- The signalling NaNs raise invalid wherever they are read (R37). -/
def FVal.sigFlag : FVal → Flags
  | .nan true => flInvalid
  | .nan false | .inf _ | .zero _ | .num _ _ => 0

def FVal.isNan : FVal → Bool
  | .nan _ => true
  | .inf _ | .zero _ | .num _ _ => false

/-- The sign of a value. -/
def FVal.neg : FVal → Bool
  | .nan _ => false
  | .inf n | .zero n => n
  | .num z _ => decide (z < 0)

/-- A sign bit in its place. -/
def signBit (t : Ty) (neg : Bool) : Nat := neg.toNat * 2 ^ (t.width - 1)

/-- The encoding of the largest finite magnitude (R36). -/
def maxFinite (t : Ty) : Nat :=
  if t = .e4m3 then 0x7E else (2 ^ Ty.expBits t - 1) * 2 ^ Ty.manBits t - 1

/-- What rounding a magnitude up does in a mode, from the kept bits and the part cut off, in units of 2^d (R39). -/
def roundUp (mode : Rnd) (neg : Bool) (k rest d : Nat) : Bool :=
  match mode with
  | .rne => decide (2 ^ d < 2 * rest) || (2 * rest == 2 ^ d && k % 2 == 1)
  | .rtz => false
  | .rdn => neg && rest != 0
  | .rup => !neg && rest != 0

/-- The overflow results of R40. -/
def overflowTo (t : Ty) (mode : Rnd) (sat neg : Bool) : Nat × Flags :=
  let inf := (2 ^ Ty.expBits t - 1) * 2 ^ Ty.manBits t
  let r :=
    if sat then signBit t neg + maxFinite t
    else if t = .e4m3 then canonNan t
    else match mode with
      | .rne => signBit t neg + inf
      | .rtz => signBit t neg + maxFinite t
      | .rdn => if neg then signBit t true + inf else maxFinite t
      | .rup => if neg then signBit t true + maxFinite t else inf
  (r, flOverflow ||| flInexact)

/-- `round_to(x, fmt, mode, sat)` (R40): the encoding and the flags raised. -/
def roundTo (t : Ty) (mode : Rnd) (sat : Bool) (x : FVal) : Nat × Flags :=
  match x with
  | .nan _ => (canonNan t, 0)
  | .inf neg =>
    if t = .e4m3 then ((if sat then signBit t neg + maxFinite t else canonNan t), flOverflow ||| flInexact)
    else (signBit t neg + (2 ^ Ty.expBits t - 1) * 2 ^ Ty.manBits t, 0)
  | .zero neg => (signBit t neg, 0)
  | .num z e =>
    let neg := decide (z < 0)
    let m := z.natAbs
    let mb := Ty.manBits t
    let emin : Int := 1 - Ty.bias t
    let top : Int := e + Nat.log2 m
    let q : Int := (if top < emin then emin else top) - mb
    let d := (q - e).toNat
    let k := if q ≤ e then m * 2 ^ (e - q).toNat else m / 2 ^ d
    let rest := if q ≤ e then 0 else m % 2 ^ d
    let k1 := if roundUp mode neg k rest d then k + 1 else k
    let inexact := rest != 0
    let mx := maxFinite t % 2 ^ mb + 2 ^ mb
    let me : Int := (maxFinite t / 2 ^ mb : Nat) - Ty.bias t - mb
    if me < q ∨ (q = me ∧ mx < k1) then overflowTo t mode sat neg
    else
      let tiny := q = emin - mb ∧ k1 < 2 ^ mb
      let bits :=
        if tiny then k1
        else if k1 = 2 ^ (mb + 1) then (q + 1 + mb + Ty.bias t).toNat * 2 ^ mb
        else (q + mb + Ty.bias t).toNat * 2 ^ mb + (k1 - 2 ^ mb)
      (signBit t neg + bits,
        (if inexact then flInexact else 0) ||| (if inexact && decide tiny then flUnderflow else 0))

/-! ## Exact operations (R38, R45) -/

/-- An exact value from an integer and exponent; an exact zero takes the sign given. -/
def FVal.mk (z e : Int) (zeroNeg : Bool) : FVal := if z = 0 then .zero zeroNeg else .num z e

/-- The sum of two dyadics. -/
def dyAdd (z e z' e' : Int) : Int × Int :=
  if e ≤ e' then (z + z' * 2 ^ (e' - e).toNat, e) else (z * 2 ^ (e - e').toNat + z', e')

/-- a + b exactly, the sign of an exact zero as R38 gives, and the flags of the operands. -/
def fvAdd (mode : Rnd) (a b : FVal) : FVal × Flags :=
  let sf := a.sigFlag ||| b.sigFlag
  match a, b with
  | .nan _, _ | _, .nan _ => (.nan false, sf)
  | .inf n, .inf m => if n = m then (.inf n, sf) else (.nan false, sf ||| flInvalid)
  | .inf n, _ => (.inf n, sf)
  | _, .inf m => (.inf m, sf)
  | .zero n, .zero m => (.zero (if n = m then n else mode == .rdn), sf)
  | .zero _, .num z e | .num z e, .zero _ => (.num z e, sf)
  | .num z e, .num z' e' => let r := dyAdd z e z' e'; (FVal.mk r.1 r.2 (mode == .rdn), sf)

/-- −a; a NaN stays a NaN. -/
def fvNeg : FVal → FVal
  | .nan s => .nan s
  | .inf n => .inf (!n)
  | .zero n => .zero (!n)
  | .num z e => .num (-z) e

/-- a × b exactly. -/
def fvMul (a b : FVal) : FVal × Flags :=
  let sf := a.sigFlag ||| b.sigFlag
  let n := xor a.neg b.neg
  match a, b with
  | .nan _, _ | _, .nan _ => (.nan false, sf)
  | .inf _, .zero _ | .zero _, .inf _ => (.nan false, sf ||| flInvalid)
  | .inf _, _ | _, .inf _ => (.inf n, sf)
  | .zero _, _ | _, .zero _ => (.zero n, sf)
  | .num z e, .num z' e' => (.num (z * z') (e + e'), sf)

/-- a × b + c exactly; infinity times zero is invalid even when c is a NaN (R45). -/
def fvFma (mode : Rnd) (a b c : FVal) : FVal × Flags :=
  let p := fvMul a b
  let r := fvAdd mode p.1 c
  (r.1, p.2 ||| r.2)

/-- A value strictly between m and m + 1 units of 2^e, or m units exactly: rounds as the real does when m has bits to spare. -/
def sticky (neg exact : Bool) (m : Nat) (e : Int) : FVal :=
  let sg : Int := if neg then -1 else 1
  if exact then FVal.mk (sg * m) e neg else .num (sg * (2 * m + 1 : Nat)) (e - 1)

/-- a / b to at least 96 bits with the rest kept as a sticky half. -/
def fvDiv (a b : FVal) : FVal × Flags :=
  let sf := a.sigFlag ||| b.sigFlag
  let n := xor a.neg b.neg
  match a, b with
  | .nan _, _ | _, .nan _ => (.nan false, sf)
  | .inf _, .inf _ | .zero _, .zero _ => (.nan false, sf ||| flInvalid)
  | .inf _, _ => (.inf n, sf)
  | _, .inf _ => (.zero n, sf)
  | .zero _, _ => (.zero n, sf)
  | .num _ _, .zero _ => (.inf n, sf ||| flDivZero)
  | .num z e, .num z' e' =>
    let k := 96 + Nat.log2 z'.natAbs
    let m := z.natAbs * 2 ^ k
    (sticky n (m % z'.natAbs == 0) (m / z'.natAbs) (e - e' - k), sf)

/-- The bits k − 1 to 0 of the integer square root of n, below the bits r found so far. -/
def isqrtGo (n : Nat) : Nat → Nat → Nat
  | 0, r => r
  | k + 1, r => isqrtGo n k (if (r + 2 ^ k) * (r + 2 ^ k) ≤ n then r + 2 ^ k else r)

/-- The integer square root, bit by bit from above. -/
def isqrt (n : Nat) : Nat := isqrtGo n (Nat.log2 n / 2 + 1) 0

/-- √a (R45). -/
def fvSqrt (a : FVal) : FVal × Flags :=
  match a with
  | .nan _ => (.nan false, a.sigFlag)
  | .zero n => (.zero n, 0)
  | .inf false => (.inf false, 0)
  | .inf true => (.nan false, flInvalid)
  | .num z e =>
    if z < 0 then (.nan false, flInvalid)
    else
      let odd := (e % 2).toNat
      let m := z.natAbs * 2 ^ (odd + 192)
      let r := isqrt m
      (sticky false (r * r == m) r ((e - odd) / 2 - 96), 0)

/-- 1/√a (R45). -/
def fvRsq (a : FVal) : FVal × Flags :=
  match a with
  | .nan _ => (.nan false, a.sigFlag)
  | .zero n => (.inf n, flDivZero)
  | .inf false => (.zero false, 0)
  | .inf true => (.nan false, flInvalid)
  | .num z e =>
    if z < 0 then (.nan false, flInvalid)
    else
      let odd := (e % 2).toNat
      let m := z.natAbs * 2 ^ odd
      let r := isqrt (2 ^ 320 / m)
      (sticky false (r * r * m == 2 ^ 320) r (-((e - odd) / 2) - 160), 0)

/-- 2^(f / 2^n) in units of 2^-320 for the low n bits of f: the product of repeated square roots of 2 (R45; log entry 11). -/
def exp2Go : Nat → Nat → Nat → Nat → Nat
  | 0, _, _, acc => acc
  | n + 1, f, root, acc =>
    let r := isqrt (root * 2 ^ 320)
    exp2Go n f r (if f / 2 ^ n % 2 = 1 then acc * r / 2 ^ 320 else acc)

/-- 2^a (R45). Beyond the reach of every format the value is only bounded, which rounds the same. -/
def fvExp2 (a : FVal) : FVal × Flags :=
  match a with
  | .nan _ => (.nan false, a.sigFlag)
  | .inf n => (if n then .zero false else .inf false, 0)
  | .zero _ => (.num 1 0, 0)
  | .num z e =>
    if 0 ≤ e then
      let x := z * 2 ^ (Nat.min e.toNat 16)
      if e > 16 ∨ x > 1000 ∨ x < -1000 then (.num 3 (if z < 0 then -1000 else 1000), 0) else (.num 1 x, 0)
    else
      let n := (-e).toNat
      let i := z / 2 ^ n
      let f := (z % 2 ^ n).toNat
      if i > 1000 then (.num 3 1000, 0)
      else if i < -1000 then (.num 3 (-1000), 0)
      else if f = 0 then (.num 1 i, 0)
      else if 40 + Nat.log2 z.natAbs < n then (if 0 < z then (.num (2 ^ 40 + 1) (-40), 0) else (.num (2 ^ 40 - 1) (-40), 0))
      else (sticky false false (exp2Go n f (2 ^ 321) (2 ^ 320) / 2 ^ 200) (i - 120), 0)

/-- Bits of log2 of y / 2^320 for y in [2^320, 2^321): each squaring gives one bit (R45). -/
def log2Go : Nat → Nat → Nat → Nat
  | 0, _, acc => acc
  | n + 1, y, acc =>
    let q := y * y / 2 ^ 320
    if 2 ^ 321 ≤ q then log2Go n (q / 2) (2 * acc + 1) else log2Go n q (2 * acc)

/-- log2 a (R45). -/
def fvLog2 (a : FVal) : FVal × Flags :=
  match a with
  | .nan _ => (.nan false, a.sigFlag)
  | .zero _ => (.inf true, flDivZero)
  | .inf false => (.inf false, 0)
  | .inf true => (.nan false, flInvalid)
  | .num z e =>
    if z < 0 then (.nan false, flInvalid)
    else
      let k := Nat.log2 z.natAbs
      let i := e + k
      if z.natAbs = 2 ^ k then (FVal.mk i 0 false, 0)
      else
        let f := log2Go 128 (z.natAbs * 2 ^ 320 / 2 ^ k) 0
        if 0 ≤ i then (sticky false false (i.toNat * 2 ^ 128 + f) (-128), 0)
        else (sticky true false ((-i).toNat * 2 ^ 128 - f - 1) (-128), 0)

/-! ## Operations on encodings -/

/-- A rounded operation on exact values, with the flags of both parts (R194). -/
def roundOp (t : Ty) (mode : Rnd) (sat : Bool) (x : FVal × Flags) : Nat × Flags :=
  let r := roundTo t mode sat x.1
  (r.1, r.2 ||| x.2)

/-- Order key of an encoding that is no NaN, with −0 below +0 (R195, R204). -/
def orderKey (t : Ty) (n : Nat) : Int :=
  let mag := n % 2 ^ (t.width - 1)
  if n / 2 ^ (t.width - 1) % 2 = 1 then -(mag : Int) - 1 else mag

/-- Order key with −0 = +0 (R197). -/
def compareKey (t : Ty) (n : Nat) : Int :=
  let mag := n % 2 ^ (t.width - 1)
  if n / 2 ^ (t.width - 1) % 2 = 1 then -(mag : Int) else mag

/-- FMIN (`false`) and FMAX (`true`) (R195). -/
def floatMinMax (t : Ty) (max : Bool) (a b : Nat) : Nat × Flags :=
  let fa := floatOf t a
  let fb := floatOf t b
  let fl := fa.sigFlag ||| fb.sigFlag
  if fa.isNan then (if fb.isNan then (canonNan t, fl) else (b, fl))
  else if fb.isNan then (a, fl)
  else
    let less := decide (orderKey t a ≤ orderKey t b)
    ((if xor less max then a else b), fl)

/-- FABS and FNEG (R194, R195): the sign is cleared or inverted; a NaN gives the canonical NaN. -/
def floatSign (t : Ty) (negate : Bool) (a : Nat) : Nat × Flags :=
  let fa := floatOf t a
  if fa.isNan then (canonNan t, fa.sigFlag)
  else
    let mag := a % 2 ^ (t.width - 1)
    (if negate then mag + signBit t (a / 2 ^ (t.width - 1) % 2 == 0) else mag, 0)

/-- The class mask of FCLS (R196). -/
def floatClass (t : Ty) (a : Nat) : Nat :=
  let neg := a / 2 ^ (t.width - 1) % 2 == 1
  match floatOf t a with
  | .nan sig => if sig then 2 ^ 8 else 2 ^ 9
  | .inf n => if n then 2 ^ 0 else 2 ^ 7
  | .zero n => if n then 2 ^ 3 else 2 ^ 4
  | .num _ _ =>
    let sub := a / 2 ^ Ty.manBits t % 2 ^ Ty.expBits t == 0
    if neg then (if sub then 2 ^ 2 else 2 ^ 1) else (if sub then 2 ^ 5 else 2 ^ 6)

/-- Float compares: equal, less, less or equal, unordered (R197). -/
inductive FCmp where
  | eq | lt | le | un
  deriving DecidableEq, Repr

/-- A float compare with its flags (R197). -/
def floatCmp (t : Ty) (c : FCmp) (a b : Nat) : Bool × Flags :=
  let fa := floatOf t a
  let fb := floatOf t b
  let nan := fa.isNan || fb.isNan
  let sig := fa.sigFlag ||| fb.sigFlag
  let ka := compareKey t a
  let kb := compareKey t b
  match c with
  | .eq => (!nan && decide (ka = kb), sig)
  | .lt => (!nan && decide (ka < kb), if nan then flInvalid else 0)
  | .le => (!nan && decide (ka ≤ kb), if nan then flInvalid else 0)
  | .un => (nan, sig)

/-- A lane or scalar that is moved: a NaN of a float type becomes the canonical NaN (R193). -/
def moveBits (t : Ty) (n : Nat) : Nat × Flags :=
  if t.isFloat then
    let f := floatOf t n
    if f.isNan then (canonNan t, f.sigFlag) else (n, 0)
  else (n, 0)

/-- A float to an integer type: rounded, saturating with invalid; a NaN gives 0 (R41). -/
def floatToInt (t : Ty) (mode : Rnd) (x : FVal) : Nat × Flags :=
  match x with
  | .nan _ => (0, flInvalid)
  | .inf n => (wrapNat t.width (if n then tyMin t else tyMax t), flInvalid)
  | .zero _ => (0, 0)
  | .num z e =>
    let d := (-e).toNat
    let m := z.natAbs
    let neg := decide (z < 0)
    let k := if 0 ≤ e then m * 2 ^ (Nat.min e.toNat 200) else m / 2 ^ d
    let rest := if 0 ≤ e then 0 else m % 2 ^ d
    let k1 := if roundUp mode neg k rest d then k + 1 else k
    let r : Int := if neg then -(k1 : Int) else k1
    if r < tyMin t then (wrapNat t.width (tyMin t), flInvalid)
    else if tyMax t < r then (wrapNat t.width (tyMax t), flInvalid)
    else (wrapNat t.width r, if rest = 0 then 0 else flInexact)

/-- A conversion between two types (R41, R198). -/
def convert (d src : Ty) (mode : Rnd) (sat : Bool) (n : Nat) : Nat × Flags :=
  if src.isFloat then
    let x := floatOf src n
    if d.isFloat then roundOp d mode sat (x, x.sigFlag) else floatToInt d mode x
  else if d.isFloat then roundTo d mode sat (FVal.mk (intOf src n) 0 false)
  else (intBits d sat (intOf src n), 0)

/-- Stochastic rounding of an F32 value with a random N32 (R42). -/
def stochastic (d : Ty) (sat : Bool) (n rand : Nat) : Nat × Flags :=
  let x := floatOf .f32 n
  match x with
  | .nan _ => (canonNan d, x.sigFlag)
  | .inf _ | .zero _ => roundTo d .rtz sat x
  | .num z e =>
    let m := z.natAbs
    let mb := Ty.manBits d
    let emin : Int := 1 - Ty.bias d
    let top : Int := e + Nat.log2 m
    let q : Int := (if top < emin then emin else top) - mb
    if q ≤ e ∨ m % 2 ^ (q - e).toNat = 0 then roundTo d .rtz sat x
    else
      let sh := (q - e).toNat
      let lo := m / 2 ^ sh
      let g := m % 2 ^ sh * 2 ^ 32 / 2 ^ sh
      let k := if rand < g then lo + 1 else lo
      let y := roundTo d .rtz sat (FVal.mk ((if z < 0 then -1 else 1) * (k : Int)) q (decide (z < 0)))
      let tiny := decide (q = emin - mb) && decide (k < 2 ^ mb)
      (y.1, y.2 ||| flInexact ||| (if tiny then flUnderflow else 0))

/-! ## Dot block (R46 to R48) -/

/-- The value 2^(e − 127) of a scale byte; `none` for 0xFF (R36). -/
def e8m0 (b : Nat) : Option Int := if b % 256 = 255 then none else some (b % 256 - 127)

/-- The exact sum of values: NaN, infinity or a dyadic, with the flags of the additions. -/
def fvSum : List FVal → FVal × Flags
  | [] => (.zero false, 0)
  | x :: r =>
    let s := fvSum r
    let t := fvAdd .rne x s.1
    (t.1, s.2 ||| t.2)

/-- Infinities of both signs stand among some values. -/
def bothInf (l : List FVal) : Bool := l.contains (.inf true) && l.contains (.inf false)

/-- The exact sum of the products of a block, without its scales: NaN with invalid, infinity, or a dyadic (R46). -/
def dotSum (l : List (FVal × FVal)) : FVal × Flags :=
  let ps := l.map fun e => fvMul e.1 e.2
  let s := fvSum (ps.map (·.1))
  let fl := ps.foldl (fun f p => f ||| p.2) s.2
  (s.1, if bothInf (ps.map (·.1)) then fl ||| flInvalid else fl)

/-- B_b: the block sum under its scales, rounded to F32 in RNE, with an exact zero +0 (R46). -/
def dotBlock (ea ew : Nat) (l : List (FVal × FVal)) : Nat × Flags :=
  let s := dotSum l
  match e8m0 ea, e8m0 ew with
  | some x, some y =>
    match s.1 with
    | .zero _ => (0, s.2)
    | .num z e => roundOp .f32 .rne false (.num z (e + x + y), s.2)
    | .nan _ | .inf _ => roundOp .f32 .rne false s
  | _, _ => (canonNan .f32, s.2)

/-- RNE(acc + x) in F32 (R47). -/
def f32Add (mode : Rnd) (a b : Nat) : Nat × Flags := roundOp .f32 mode false (fvAdd mode (floatOf .f32 a) (floatOf .f32 b))

/-- RNE(a × b) in F32 (R47). -/
def f32Mul (mode : Rnd) (a b : Nat) : Nat × Flags := roundOp .f32 mode false (fvMul (floatOf .f32 a) (floatOf .f32 b))

end Sys2Proof.Machine
end

