-- ==== Sys2Proof/Machine/Block.lean ====
section
/-! DEFINITION. Blocks: the decoder with its Thatch slots, the code caches, entering a block, and which words are ready (R55 to R68,
R76 to R81, R136 to R151, R163, R168, R191). -/

namespace Sys2Proof.Machine

/-- How an instruction reads a port (R191). -/
inductive PortUse where
  | none | scalar | vector
  deriving DecidableEq, Repr

/-- How each instruction reads its ports A, B and C, from the "Ports" columns of the instruction tables. -/
def Instr.portUse : Instr → PortUse × PortUse × PortUse
  | .mov _ v _ _ => (if v then .vector else .scalar, .none, .none)
  | .sel _ v _ _ => if v then (.vector, .vector, .vector) else (.scalar, .scalar, .scalar)
  | .rdk _ _ x _ => (if x then .scalar else .none, .none, .none)
  | .wrk _ x _ => (.scalar, if x then .scalar else .none, .none)
  | .advr _ d _ _ | .advw _ d _ _ | .anti _ d _ _ => (if d then .scalar else .none, .none, .none)
  | .poke _ v _ _ => (if v then .vector else .scalar, .none, .none)
  | .emit _ k v _ _ => (if v then .vector else .scalar, if k.toNat ≤ 3 then .scalar else .none, .none)
  | .poket _ v _ _ => (.scalar, if v then .vector else .scalar, .none)
  | .rngc _ _ s _ _ => (if s then .none else .scalar, .scalar, .none)
  | .vred _ _ _ m _ => (.vector, if m then .vector else .none, .none)
  | .vcvt _ t _ s _ c => (.vector, if t.lanes > c.lanes then .vector else .none, if s then .vector else .none)
  | .lglen _ _ e _ => (if e then .none else .vector, .none, .none)
  | .ldg _ _ _ d m => (.scalar, if m = .plain then .none else .scalar, if d then .scalar else .none)
  | .ldgv _ d m _ _ => (.scalar, if m = .plain then .none else .scalar, if d then .scalar else .none)
  | .stgv _ m _ _ => (.scalar, .vector, if m then .scalar else .none)
  | .wreg _ h _ _ => (.scalar, if h then .none else .scalar, .none)
  | .iinv _ x => (if x then .none else .scalar, .none, .none)
  | .vadd _ _ _ _ | .vsub _ _ _ _ | .vmul _ _ _ _ | .vmin _ _ _ _ | .vmax _ _ _ _ | .vand _ _ _ | .vor _ _ _
    | .vxor _ _ _ | .vshl _ _ _ _ | .vshr _ _ _ _ | .vsar _ _ _ _ | .vcmpeq _ _ _ _ | .vcmplt _ _ _ _
    | .vcmple _ _ _ _ | .vperm _ _ _ _ | .vcmprs _ _ _ _ | .vexpnd _ _ _ _ => (.vector, .vector, .none)
  | .vfma _ _ _ _ | .vsel _ _ _ _ | .vshuf _ _ _ _ | .bmv _ _ | .bmm _ _ _ => (.vector, .vector, .vector)
  | .vabs _ _ _ _ | .vneg _ _ _ _ | .vscan _ _ _ _ | .vex2 _ _ _ _ | .vrcp _ _ _ _ | .vrsq _ _ _ _ | .vtopk _ _ _ _ _
    | .vcnt _ _ _ _ | .lgpack _ _ _ _ => (.vector, .none, .none)
  | .vbcast _ _ _ _ | .viota _ _ _ _ => (.scalar, .none, .none)
  | .vext _ _ _ _ => (.vector, .scalar, .none)
  | .vins _ _ _ _ => (.vector, .scalar, .scalar)
  | .vdot _ _ _ _ _ => (.vector, .vector, .scalar)
  | .gath _ _ _ _ | .stlv _ _ | .chsend _ _ _ | .accwr _ _ _ => (.scalar, .vector, .none)
  | .scat _ _ _ _ | .vatom _ _ _ _ => (.scalar, .vector, .vector)
  | .sub _ _ _ _ | .add _ _ _ _ | .mul _ _ _ _ | .mulh _ _ _ _ | .div _ _ _ _ | .rem _ _ _ _ | .min _ _ _ _
    | .max _ _ _ _ | .and _ _ _ _ | .or _ _ _ _ | .xor _ _ _ _ | .andn _ _ _ _ | .shl _ _ _ _ | .shr _ _ _ _
    | .sar _ _ _ _ | .rot _ _ _ _ | .bfx _ _ _ _ | .sext _ _ _ _ | .zext _ _ _ _ | .cmpeq _ _ _ _ | .cmpne _ _ _ _
    | .cmplt _ _ _ _ | .cmple _ _ _ _ | .pand _ _ _ | .por _ _ _ | .lea _ _ _ _ | .fadd _ _ _ _ | .fsub _ _ _ _
    | .fmul _ _ _ _ | .fdiv _ _ _ _ | .fmin _ _ _ _ | .fmax _ _ _ _ | .fcmpeq _ _ _ _ | .fcmplt _ _ _ _
    | .fcmple _ _ _ _ | .fcmpun _ _ _ _ | .xop _ _ _ _ | .stl _ _ | .stg _ _ _ _ | .vrcl _ _ _ | .atom _ _ _ _
    | .atomr _ _ _ _ | .faadd _ _ _ _ | .mscale _ _ _ _ | .accz _ _ _ | .fscan _ _ _ _ _ _ _ | .bar _ _ _
    | .chcred _ _ _ | .waitv _ _ _ => (.scalar, .scalar, .none)
  | .mad _ _ _ _ | .clamp _ _ _ _ | .bfi _ _ _ _ | .ptag _ _ _ | .ffma _ _ _ _ | .cas _ _ _ _ | .launchi _ _ _ => (.scalar, .scalar, .scalar)
  | .nop _ | .lit _ _ _ _ _ | .imm _ _ _ _ | .rdsr _ _ _ | .br _ _ | .exit _ _ | .retire _ | .trap _ _ | .yield _
    | .peek _ _ _ _ _ _ | .hcnt _ _ _ | .hfree _ _ _ | .tkind _ _ _ _ | .lgdone _ _ _ | .tkrd _ _ _ | .snap _ _ _ _
    | .fence _ _ _ _ _ _ | .fisect _ _ _ _ _ | .funion _ _ _ _ _ | .fstop _ _ _ _ _ | .fchk _ _ _ _ _
    | .fcrd _ _ _ _ _ => (.none, .none, .none)
  | .wrsr _ _ | .bri _ | .exitv _ | .xopLoad _ | .addi _ _ _ _ | .neg _ _ _ _ | .abs _ _ _ _ | .not _ _ _ _
    | .shli _ _ _ _ | .shri _ _ _ _ | .sari _ _ _ _ | .clz _ _ _ _ | .ctz _ _ _ _ | .popc _ _ _ _ | .cmpeqi _ _ _ _
    | .cmplti _ _ _ _ | .testb _ _ _ | .pnot _ _ _ | .pspc _ _ _ | .pown _ _ _ | .padd _ _ _ _ | .poff _ _ _
    | .fabs _ _ _ _ | .fneg _ _ _ _ | .fsqrt _ _ _ _ | .frcp _ _ _ _ | .frsq _ _ _ _ | .fex2 _ _ _ _ | .flg2 _ _ _ _
    | .fcls _ _ _ _ | .cvt _ _ _ _ | .peekt _ _ _ _ _ _ | .ldl _ _ _ _ | .ldlv _ _ _ _ _ | .feset _ _ | .feclr _ _
    | .fetest _ _ _ _ | .vqry _ _ _ | .lockt _ _ _ | .unlockt _ _ _ | .qcopy _ _ _ _ _ | .qgath _ _ _ _ _
    | .qunf _ _ _ _ _ | .qwait _ _ _ | .qstat _ _ _ | .mloadw _ _ _ | .mswap _ _ _ | .mma _ _ _ | .accrd _ _ _
    | .mpromo _ _ _ | .frep _ _ _ _ _ _ | .fred _ _ _ _ _ _ _ _ _ | .wdrop _ _ _ | .wqry _ _ _ | .chrecv _ _ _
    | .tkwait _ _ _ | .cred _ _ _ | .cbcast _ _ _ | .cgath _ _ _ | .launch _ _ _ | .launcht _ _ _ | .splice _ _ _
    | .lstat _ _ _ | .lcancel _ _ _ | .ipf _ _ | .ipin _ _ | .iunpin _ | .thatch _ _ _ | .digest _ _ _ | .statf _ _ _ => (.scalar, .none, .none)
  | .firingSelection _ | .blockQuiescence _ | .firingCancellation _ _ | .actorRetirement _ _ | .flitArrival _ _
    | .antiTokenArrival _ | .joinInputStep _ _ | .forkCopy _ _ | .turnTokenIntake _ _ | .turnTokenPublish _ _
    | .ownerUpdate _ _ | .memoryRequestForward _ | .homeBankEvent _ _ | .waitingRequestPerform _ | .loadAnswer _
    | .completionValueDelivery _ | .translationMissDecision _ | .invocationEnd _ _ | .ldlvWfRelease _ _ | .lockGrant _
    | .unlockRelease _ | .fenceComplete _ | .tkwaitRelease _ _ | .qwaitRelease _ _ | .engineCommandEnqueue _ _
    | .engineCommandExecute _ _ | .regionFeed _ _ | .regionCommandEnqueue _ _ | .mloadwExecute _ | .mscaleExecute _
    | .mswapExecute _ | .mmaExecute _ | .mpromoExecute _ | .statfExecute _ | .accQueuedAccess _
    | .collectiveExecution _ | .digestComplete _ _ | .thatchVerification | .thatchTakeEffect | .ridgePlacement _ _
    | .launchDependenceMet _ | .armedClear _ | .reconfActorFinish _ _ | .elementSuccessorInstall _ | .launchEnd _
    | .tickBoundary | .tickPeriodChange | .detQuantumRelease _ | .watchdog _ | .trapRecordWrite _ | .ridgeTrapNotify _
    | .handlerAction _ _ | .preemptionOpen _ | .markerRecord _ | .cutComplete _ | .preemptionAbandon _
    | .preemptionResume _ | .replicaVote _ _ _ | .snapshotLatch _ _ | .bridgeReplay _ | .uePacketReceive _
    | .ptpMessage _ _ | .load _ _ _ | .start _ _ | .stop _ _ | .query _ _ | .attest _ _ | .thatchCommand _ _
    | .mapPage _ _ _ _ | .setTickPeriod _ _ | .setTickEpoch _ _ | .setWdt _ _ | .setSnapshotTick _ _ | .bind _ _
    | .handler _ _ _ | .reclaim _ | .moduleReset _ _ _ | .powerLoss | .thermalThrottle _ _ | .thermalShutdown
    | .functionReady _ | .memoryScrub _ _ => (.none, .none, .none)

/-- How an instruction reads a port; P counts as read only when it is predicated (R60). -/
def portUseOf (i : Instr) (q : Port) : PortUse :=
  match q with
  | .a => (Instr.portUse i).1
  | .b => (Instr.portUse i).2.1
  | .c => (Instr.portUse i).2.2
  | .p => if i.pred = .always then .none else .scalar

/-! ## Prefix acceptance and class bits -/

/-- Opcodes that take PFX.SEQ and PFX.SCP (R79, R80). -/
def takesSeq (r : Raw) : Bool := (decide (0xA8 ≤ r.op) && decide (r.op ≤ 0xAF)) || (decide (0xB0 ≤ r.op) && decide (r.op ≤ 0xB4))

/-- The TY field names a float type (R69). -/
def rawFloat (r : Raw) : Bool := match Ty.ofCode (BitVec.ofNat 4 r.ty) with | some t => t.isFloat | none => false

/-- Words that take PFX.SAT (R77). An opcode that takes it under some TY passes the prefix whatever its TY holds, so an illegal TY is
IllegalEncoding at the instruction's own slot (DESIGN CHOICE, log entry 75). -/
def takesSat (r : Raw) : Bool :=
  [0x20, 0x21, 0x22, 0x23, 0x25, 0x28, 0x29, 0x32, 0x36, 0x50, 0x51, 0x52, 0x53, 0x54, 0x5F, 0x70, 0x71, 0x72, 0x73, 0x7B,
    0x89].contains r.op || ((r.op == 0x76 || r.op == 0x77) && !rawFloat r)

/-- Words that take PFX.RND (R78). -/
def takesRnd (r : Raw) : Bool :=
  let srcFloat := match Ty.ofCode (BitVec.ofNat 4 r.t1) with | some t => t.isFloat | none => false
  ([0x50, 0x51, 0x52, 0x53, 0x54, 0x59, 0x5A, 0x5B, 0x5C, 0x5D, 0x70, 0x71, 0x72, 0x73, 0x87, 0x88, 0x8A, 0x8B,
    0x8C].contains r.op && rawFloat r) || r.op == 0x96 || r.op == 0x97 ||
  (r.op == 0x5F && (rawFloat r || srcFloat)) || (r.op == 0x89 && (rawFloat r || srcFloat) && !bitAt r.t1 8)

/-- A word accepts a prefix kind, named by its opcode (R77 to R80). -/
def accepts (r : Raw) (pfxOp : Nat) : Bool :=
  match pfxOp with
  | 0x10 => takesSat r
  | 0x11 => takesRnd r
  | _ => takesSeq r

/-- Class bits that an opcode requires: MEM, VEC, ATOM (R63). -/
def classBits (op : Nat) : Bool × Bool × Bool :=
  let r := fun (a b : Nat) => decide (a ≤ op) && decide (op ≤ b)
  (r 0xA0 0xBC || r 0xC0 0xC7 || r 0xD0 0xDD || r 0xE0 0xE5, r 0x70 0x97, r 0xB0 0xB6)

/-- Format of an opcode: 0 D, 1 I, 2 L (R57, R149). -/
def formatOf (op : Nat) : Nat :=
  if [0x01, 0x09, 0xC8, 0xCB, 0xCC, 0xDD].contains op then 2
  else if [0x02, 0x05, 0x06, 0x07, 0x08, 0x0B, 0x0E, 0x22, 0x36, 0x37, 0x38, 0x44, 0x45, 0x46, 0x4E, 0x5F, 0x87, 0x89, 0x8D, 0x90,
    0x93, 0x94, 0x96, 0x97, 0xA8, 0xB0, 0xB1, 0xB3, 0xB4, 0xC9, 0xCA, 0xCD, 0xCE, 0xCF].contains op then 1
  else if decide (0x64 ≤ op) && decide (op ≤ 0x6E) then 1
  else 0

/-- The word is a prefix (R76). -/
def isPfxWord (w : IWord) : Bool := let op := (Raw.ofWord w).op; decide (0x10 ≤ op) && decide (op ≤ 0x13)

/-- An opcode of the map of R70. -/
def assigned (op : Nat) : Bool :=
  let r := fun (a b : Nat) => decide (a ≤ op) && decide (op ≤ b)
  r 0x00 0x14 || r 0x20 0x97 || r 0xA0 0xA6 || r 0xA8 0xB6 || r 0xB8 0xBC || r 0xC0 0xDD || r 0xE0 0xE5 || r 0xE8 0xEB || r 0xF0 0xF3

/-- A replacement word has the shape that R149 and R150 ask for: a prefix for a prefix, and for an instruction one of its format and literal
count. A word of an unassigned opcode takes any replacement of format D or I with no literal. -/
def sameShape (old new : IWord) : Bool :=
  let fmt := fun (w : IWord) => formatOf (Raw.ofWord w).op
  isPfxWord new == isPfxWord old &&
    (isPfxWord new ||
      if assigned (Raw.ofWord old).op then fmt new == fmt old && litWords new == litWords old else fmt new != 2)

/-- A slot that holds a word and has received nothing. -/
def Slot.fresh (id : Nat) (kind : SlotKind) (word : IWord) : Slot :=
  { id, kind, word, a := none, b := none, c := none, p := none, issued := false }

/-- Lays words out as instructions, prefixes and literals, from a slot id on; `lits` literal words come first (R57, R149). -/
def layOut : Nat → Nat → List IWord → List Slot
  | _, _, [] => []
  | id, n + 1, w :: r => Slot.fresh id .lit w :: layOut (id + 1) n r
  | id, 0, w :: r =>
    if isPfxWord w then Slot.fresh id .pfx w :: layOut (id + 1) 0 r
    else Slot.fresh id .ins w :: layOut (id + 1) (litWords w) r

/-! ## Thatch decode slots (R147 to R151) -/

/-- A decode slot matches a word (R148). -/
def decMatch (lut : List Byte) (v : BitVec 512) (w : IWord) (bid part : Nat) : Bool :=
  let m := bf v 479 448
  bf v 383 382 != 0 && (w.toNat &&& m) == (bf v 511 480 &&& m) && v.getLsbD (416 + part) && decide (bf v 415 400 ≤ bid) &&
    decide (bid ≤ bf v 399 384) && (!v.getLsbD 376 || (!lut.isEmpty && Config.thatchLut lut (bf v 375 370) w bid part))

/-- The decode slot that claims a word; EMULATE passes over prefixes and L-format words (R148, R149). -/
def claimOf (dec : List (BitVec 512)) (lut : List Byte) (w : IWord) (bid part : Nat) : Option (Nat × BitVec 512) :=
  let noEmu := isPfxWord w || formatOf (Raw.ofWord w).op == 2
  let hit := fun (v : BitVec 512) => decMatch lut v w bid part && !(noEmu && bf v 383 382 == 3)
  let c := (dec.zipIdx.filter fun e => hit e.1).map fun e => (e.2, bf e.1 381 379)
  (pickSlot c).map fun i => (i, dec.getD i 0)

/-- A slot after the patches: the words inserted for it, and the fault that its patch raises. -/
structure Patched where
  slot   : Slot
  ins    : List Slot
  claim  : Option Nat
  tcode  : Nat
  fault  : Option TrapCode
  deriving DecidableEq, Repr

/-- Applies the claiming slot to an instruction or prefix word (R150). -/
def patchSlot (dec : List (BitVec 512)) (lut : List Byte) (bid part : Nat) (sl : Slot) : Patched :=
  let plain : Patched := { slot := sl, ins := [], claim := none, tcode := 0, fault := none }
  if sl.kind = .lit then plain
  else
    match claimOf dec lut sl.word bid part with
    | none => plain
    | some (i, v) =>
      match bf v 383 382 with
      | 1 => { plain with claim := some i, tcode := bf v 351 336, fault := some .patchTrap }
      | 2 =>
        let w0 : IWord := BitVec.ofNat 32 (bf v 255 224)
        { plain with slot := { sl with word := w0 }, claim := some i,
                     fault := if sameShape sl.word w0 then none else some .illegalEncoding }
      | _ =>
        let ws : List IWord := [BitVec.ofNat 32 (bf v 255 224), BitVec.ofNat 32 (bf v 223 192), BitVec.ofNat 32 (bf v 191 160),
          BitVec.ofNat 32 (bf v 159 128)]
        { plain with
          slot := { sl with kind := .emu i (BitVec.ofNat 12 (bf v 369 358)) }
          ins := layOut (64 + 4 * sl.id) 0 (ws.take (bf v 378 377 + 1)), claim := some i }

/-! ## The checks on the words (R60, R66, R76 to R80, R151, R168) -/

/-- What the checks on a block know: the actor, NCHAIN, the class bits that hold, and every word as patched. -/
structure BlockCtx where
  desc   : ActorDesc
  nchain : Nat
  mem    : Bool
  vec    : Bool
  atom   : Bool
  words  : List Patched
  deriving DecidableEq, Repr

/-- Every slot with the inserted words in place. -/
def BlockCtx.slots (c : BlockCtx) : List Slot := c.words.flatMap fun p => p.slot :: p.ins

def BlockCtx.at (c : BlockCtx) (id : Nat) : Option Slot := c.slots.find? fun sl => sl.id == id

/-- The instruction of a slot with its literals. -/
def BlockCtx.instrAt (c : BlockCtx) (id : Nat) : Option Instr :=
  match c.at id with
  | some sl =>
    let l := fun n => match c.at (id + n) with | some x => x.word | none => 0
    decodeIns sl.word (l 1) (l 2)
  | none => none

/-- How the word in a slot reads a port: an emulated word reads what its own instruction reads and what INMAP passes on (DEDUCED,
log entry 13); `none` when the word is no instruction. -/
def BlockCtx.useOf (c : BlockCtx) (id : Nat) (q : Port) : Option PortUse :=
  match c.at id with
  | some sl =>
    match sl.kind with
    | .ins => (c.instrAt id).map fun i => portUseOf i q
    | .emu _ inmap =>
      if q = .p then some (if (Raw.ofWord sl.word).pr = 0 then .none else .scalar)
      else
        let own := match c.instrAt id with | some i => portUseOf i q | none => .none
        let fed := (emuInputs inmap id q).filterMap fun n => (c.instrAt n).map fun i => portUseOf i q
        some (if own = .vector ∨ fed.contains .vector then .vector
          else if own = .scalar ∨ !(emuInputs inmap id q).isEmpty then .scalar else .none)
    | .lit | .pfx => some .none
  | none => some .none

/-- A consumer field that delivers to a slot's port passes R60. A target that names a word which is itself no instruction passes, so the
fault reported is that word's own (DESIGN CHOICE, log entry 75). -/
def BlockCtx.portOk (c : BlockCtx) (id : Nat) (q : Port) : Bool :=
  match c.at id with
  | some sl => sl.kind != .lit && sl.kind != .pfx && c.useOf id q != some .none
  | none => false

/-- A consumer field of an ordinary word passes R59 and R60; an output handle that is TILE takes no POKE (R168). -/
def BlockCtx.targetOk (c : BlockCtx) (id : Nat) (t : Target) : Bool :=
  match t with
  | .slot n q => n.val != id && decide (n.val < 64) && c.portOk n.val q
  | .discard | .keep _ => true
  | .out h => let w := c.desc.handle h.val; w.used && w.out && !w.tile
  | .orig _ | .reserved _ => false

/-- A consumer field of an inserted word (R151). -/
def BlockCtx.insTargetOk (c : BlockCtx) (id : Nat) (t : Target) : Bool :=
  let base := 64 + 4 * slotNo id
  match t with
  | .slot n q => decide (slotEmui id < n.val) && decide (n.val < 4) && c.portOk (base + n.val) q
  | .orig second =>
    match c.at (slotNo id) with
    | some sl =>
      let ts := wordTargets sl.word
      if second then formatOf (Raw.ofWord sl.word).op == 0 && c.targetOk (slotNo id) ts.2 else c.targetOk (slotNo id) ts.1
    | none => false
  | .discard | .keep _ | .out _ | .reserved _ => c.targetOk id t

/-- A handle of any join (R162, R168). -/
def ActorDesc.joinHandle (d : ActorDesc) (h : Nat) : Bool := d.joined h || (d.join == .early && h == d.sel)

/-- The handles that an instruction names are used, of the right direction and kind (R168, R209, R258, R263). -/
def handlesOk (d : ActorDesc) (i : Instr) : Bool :=
  let inn := fun (h : Fin 16) => let w := d.handle h.val; w.used && !w.out && !d.inJoin h.val
  let out := fun (h : Fin 16) => let w := d.handle h.val; w.used && w.out
  let tile := fun (h : Fin 16) => (d.handle h.val).tile
  let free := fun (h : Fin 16) => !d.joinHandle h.val
  let var := fun (h : Fin 16) => (d.handle h.val).var
  match i with
  | .peek _ _ _ _ h _ | .tkind _ _ h _ => inn h && !tile h
  | .poke _ _ h _ | .emit _ _ _ h _ | .fstop _ _ _ h _ => out h && !tile h
  | .advr _ _ h _ | .anti _ _ h _ => inn h && free h
  | .advw _ _ h _ | .hfree _ _ h => out h
  | .hcnt _ _ h => inn h
  | .peekt _ _ _ _ h _ => inn h && tile h
  | .poket _ _ h _ => out h && tile h
  | .fchk _ _ _ h _ | .fcrd _ _ _ h _ => inn h && !tile h && free h
  | .lgpack _ _ i o | .frep _ _ _ i o _ | .fred _ _ _ _ i o _ _ _ =>
    inn i && !tile i && free i && var i && out o && !tile o && var o
  | .fscan _ _ _ i o _ root => (root || (inn i && !tile i && free i && var i)) && out o && !tile o && var o
  | _ => true

/-- Exit-class kinds: 1 branch, 2 another exit-class instruction, 0 none (R164). R151 asks for an original of the same kind and does not say which
instructions are of one kind: BR and BRI are one, the others another (DESIGN CHOICE, log entry 85). -/
def ctlKind (w : IWord) : Nat :=
  match (Raw.ofWord w).op with
  | 0x09 | 0x0A => 1
  | 0x0B | 0x0C | 0x0D | 0x0E | 0x0F => 2
  | _ => 0

/-- The consumer fields of the word in a slot: those that its instruction has, so that a reserved T0 or T1 is none (R60, R67, R73). Of a claimed
word that is no instruction they are those of format D (R149). -/
def BlockCtx.fields (c : BlockCtx) (sl : Slot) : List Target :=
  match sl.kind with
  | .lit | .pfx => []
  | .ins => ((c.instrAt sl.id).map fun i => i.targets).getD []
  | .emu _ _ => ((c.instrAt sl.id).map fun i => i.targets).getD [(wordTargets sl.word).1, (wordTargets sl.word).2]

/-- Consumer fields of the word in a slot that name a port read as a vector (R191). -/
def BlockCtx.vecFields (c : BlockCtx) (sl : Slot) : Nat :=
  let base := if sl.id < 64 then 0 else 64 + 4 * slotNo sl.id
  ((c.fields sl).filter fun t => match t with
    | .slot n q => c.useOf (base + n.val) q == some .vector
    | .discard | .keep _ | .out _ | .orig _ | .reserved _ => false).length

/-- The prefix run that ends just below an id, nearest first. -/
def BlockCtx.runBelow (c : BlockCtx) : Nat → Nat → List IWord
  | 0, _ => []
  | n + 1, id =>
    if id = 0 ∨ (64 ≤ id ∧ slotEmui id = 0) then []
    else match c.at (id - 1) with
      | some sl => if sl.kind = .pfx then sl.word :: c.runBelow n (id - 1) else []
      | none => []

/-- The instruction that a prefix in a slot applies to; a prefix in the block's last slot, or in an emulation's last word, has none. -/
def BlockCtx.pfxIns (c : BlockCtx) : Nat → Nat → Option Slot
  | 0, _ => none
  | n + 1, id =>
    match c.at (id + 1) with
    | some sl =>
      if (64 ≤ sl.id ∧ slotNo sl.id ≠ slotNo id) ∨ (id < 64 ∧ 64 ≤ sl.id) then none
      else if sl.kind = .pfx then c.pfxIns n (id + 1) else some sl
    | none => none

/-- IllegalPrefix of a prefix word (R76). Before an instruction whose Thatch slot faults (R81), a prefix of a kind already there and a third
prefix are still IllegalPrefix at their own slots, while a prefix that the trapped word does not accept gives way to its fault
(DESIGN CHOICE, log entry 75). -/
def BlockCtx.pfxBad (c : BlockCtx) (sl : Slot) : Bool :=
  let op := (Raw.ofWord sl.word).op
  let below := c.runBelow 64 sl.id
  match c.pfxIns 64 sl.id with
  | none => true
  | some i =>
    let run := c.runBelow 64 i.id
    let faulty := c.words.any fun p => p.slot.id == i.id && p.fault.isSome
    match i.kind with
    | .emu _ _ => false
    | .ins | .lit | .pfx =>
      decide (2 ≤ below.length) || below.any (fun w => (Raw.ofWord w).op == op) ||
        (!faulty && (!accepts (Raw.ofWord i.word) op || (op == 0x13 && !run.any fun w => (Raw.ofWord w).op == 0x12)))

/-- IllegalEncoding of a word (R143); `n` consumer fields that name vector ports come before it. An L-format word whose literal words lie past
the block's last word is IllegalEncoding at that word (DESIGN CHOICE, log entry 75), and a prefix word is checked for itself also where a claim on its
instruction covers or drops it (DESIGN CHOICE, log entry 85). -/
def BlockCtx.encBad (c : BlockCtx) (sl : Slot) (n : Nat) : Bool :=
  let r := Raw.ofWord sl.word
  match sl.kind with
  | .lit => false
  | .pfx =>
    match Pfx.ofRaw r with
    | some (some (.seq ch _)) => decide (c.nchain ≤ ch.val)
    | some (some _) => false
    | some none | none => true
  | .emu _ _ => decide (32 < n + c.vecFields sl) || r.pr == 3
  | .ins =>
    let cb := classBits r.op
    let lits := (List.range (litWords sl.word)).all fun k => match c.at (sl.id + 1 + k) with
      | some l => l.kind == .lit | none => false
    let ctl := decide (64 ≤ sl.id) && ctlKind sl.word != 0 && (match c.at (slotNo sl.id) with
      | some o => ctlKind o.word != ctlKind sl.word | none => true)
    !lits || (cb.1 && !c.mem) || (cb.2.1 && !c.vec) || (cb.2.2 && !c.atom) || ctl || decide (32 < n + c.vecFields sl) ||
      (match c.instrAt sl.id with
      | none => true
      | some (.fisect _ _ _ _ _) | some (.funion _ _ _ _ _) => c.desc.join != .isect && c.desc.join != .union
      | some (.fence _ _ _ _ ch _) => decide (c.nchain ≤ ch.val)
      | some _ => false)

/-- BadSlot of an instruction word. The consumer fields of a word that EMULATE claims are checked only where an inserted word delivers to them
(DESIGN CHOICE, log entry 85). -/
def BlockCtx.slotBad (c : BlockCtx) (sl : Slot) : Bool :=
  match sl.kind with
  | .lit | .pfx | .emu _ _ => false
  | .ins =>
    match c.instrAt sl.id with
    | none => false
    | some i => !i.targets.all (fun t => if sl.id < 64 then c.targetOk sl.id t else c.insTargetOk sl.id t) ||
      !handlesOk c.desc i

/-- The first fault of a word, in the order of R66. -/
def BlockCtx.wordFault (c : BlockCtx) (sl : Slot) (n : Nat) : Option TrapCode :=
  if c.encBad sl n then some .illegalEncoding
  else if sl.kind = .pfx ∧ c.pfxBad sl then some .illegalPrefix
  else if c.slotBad sl then some .badSlot
  else none

/-- No fault. -/
def DecodeOutcome.clean : DecodeOutcome := { code := none, slot := 0, emui := 0, tslot := 0, tcode := 0, word := 0 }

/-- Scans the words of a slot and those inserted for it. -/
def BlockCtx.scanIns (c : BlockCtx) (p : Patched) : List Slot → Nat → Option DecodeOutcome × Nat
  | [], n => (none, n)
  | sl :: r, n =>
    match c.wordFault sl n with
    | some code => (some ⟨some code, slotNo sl.id, slotEmui sl.id, if sl.id < 64 then 0 else p.claim.getD 0, 0, sl.word⟩, n)
    | none => c.scanIns p r (n + c.vecFields sl)

/-- Scans the block in ascending slot order and answers the first fault (R66). -/
def BlockCtx.scan (c : BlockCtx) : List Patched → Nat → DecodeOutcome
  | [], _ => DecodeOutcome.clean
  | p :: r, n =>
    match p.fault with
    | some code =>
      ⟨some code, slotNo p.slot.id, 0, if code = .patchTrap then p.claim.getD 0 else 0, p.tcode, p.slot.word⟩
    | none =>
      match c.scanIns p (p.slot :: p.ins) n with
      | (some o, _) => o
      | (none, m) => c.scan r m

/-- Decodes a block: its slots as patched, and the outcome (R142). The header's fault stands at slot 64; ATOM without MEM is one of the header, found
before any word is scanned, and a block counts as patched when a slot claims any of its words, whatever the slot does (R63; DESIGN CHOICE, log
entry 85). -/
def decodeBlock (d : ActorDesc) (nchain codeWords part : Nat) (dec : List (BitVec 512)) (lut : List Byte) (hdrAt : Nat)
    (hdr : IWord) (body : List IWord) : List Slot × DecodeOutcome :=
  let n := bf hdr 27 22 + 1
  let bad : DecodeOutcome := { code := some .illegalEncoding, slot := 64, emui := 0, tslot := 0, tcode := 0, word := hdr }
  if bf hdr 31 28 ≠ 13 ∨ bf hdr 18 16 ≠ 0 ∨ codeWords < hdrAt + 1 + n then ([], bad)
  else
    let ps := (layOut 0 0 (body.take n)).map (patchSlot dec lut (bf hdr 15 0) part)
    let patched := ps.any fun p => p.claim.isSome
    let c : BlockCtx := {
      desc := d, nchain, mem := patched || bf hdr 21 21 == 1, vec := patched || bf hdr 20 20 == 1,
      atom := patched || bf hdr 19 19 == 1, words := ps }
    (c.slots, if !patched && bf hdr 19 19 == 1 && bf hdr 21 21 == 0 then bad else c.scan ps 0)

/-! ## Code memory and the caches (R136 to R141, R146) -/

/-- Byte offset in the die's code region of code word `w` of a launch's copy. -/
def State.codeRel (s : State) (lid die w : Nat) : Nat :=
  64 * (match s.launch? lid with | some l => (alGet l.cbase die).getD 0 | none => 0) + 4 * w

/-- Its byte offset in die memory. -/
def State.codeOff (s : State) (lid die w : Nat) : Nat := 0xE00000 + s.codeRel lid die w

/-- Code word `w` of the copy on the element's die. -/
def State.codeWord (s : State) (rank lid w : Nat) : IWord :=
  BitVec.ofNat 32 (s.readNat (dieKey (rank / 256) (s.codeOff lid (rank / 256) w)) 4)

/-- The 64-bit value that a relocation entry writes for a group (R33). -/
def Launch.relocValue (l : Launch) (g : Nat) (low : Nat) (e : Word) : Nat :=
  let arg := bf e 27 0
  let rank := (l.actorRank g arg).getD 0
  match bf e 31 28 with
  | 0 => (mkPtr 2 rank low).toNat
  | 1 => (mkPtr 1 (rank / 256 * 256) 0).toNat
  | 2 => rank
  | _ => (l.params.getD arg 0).toNat

/-- Code word `w` as an actor reads it: the copy holds the image's code, and the words that a relocation patches read as the value for the
actor's own group (R33, R136; DEDUCED, log entry 30). -/
def State.codeWordOf (s : State) (rank : Nat) (a : Actor) (w : Nat) : IWord :=
  let raw := s.codeWord rank a.lid w
  match s.launch? a.lid with
  | none => raw
  | some l =>
    match (match l.img with | some im => im.relocs | none => []).find? fun e => bf e 63 32 == w || bf e 63 32 + 1 == w with
    | some e =>
      let v := l.relocValue a.g (if bf e 63 32 = w then raw.toNat else (s.codeWord rank a.lid (w - 1)).toNat) e
      BitVec.ofNat 32 (if bf e 63 32 = w then v else v / 2 ^ 32)
    | none => raw

/-- Decodes the block whose header is word `w` as an actor of an element enters it now. -/
def State.decodeAt (s : State) (rank : Nat) (a : Actor) (w : Nat) : List Slot × DecodeOutcome :=
  let hdr := s.codeWord rank a.lid w
  let (nch, len) := match s.launch? a.lid with
    | some l => match l.img with | some im => (im.nchain, im.code.length) | none => (0, 0)
    | none => (0, 0)
  decodeBlock a.desc nch len (lidPart a.lid) s.thatch.dec s.thatch.lut w hdr
    ((List.range 64).map fun k => s.codeWordOf rank a (w + 1 + k))

/-- The 64-byte lines of a block in its die's code region, each numbered from the die's region. -/
def State.blockLines (s : State) (rank lid w : Nat) : List Nat :=
  let die := rank / 256
  let n := bf (s.codeWord rank lid w) 27 22 + 2
  let lo := s.codeRel lid die w / 64
  let hi := (s.codeRel lid die (w + n) - 1) / 64
  (List.range (hi + 1 - lo)).map fun k => lo + k

/-- Some actor pins it. -/
def pinned (pins : List (Nat × Nat)) : Bool := pins.any fun p => p.2 != 0

/-- Brings a line into a cluster's cache: 128 sets of 8 ways, replaced least recently used among unpinned lines (R139). The lines of one set are those
whose numbers agree modulo 128 (DESIGN CHOICE, log entry 83). -/
def touchLine (l : List CodeLine) (line : Nat) : List CodeLine :=
  let old := l.find? fun c => c.line == line
  let rest := l.filter fun c => c.line != line
  let new : CodeLine := match old with | some c => c | none => { line, pins := [] }
  let sameSet := rest.filter fun c => c.line % 128 == line % 128
  if sameSet.length < 8 then new :: rest
  else match (sameSet.filter fun c => !pinned c.pins).getLast? with
    | some v => new :: rest.filter fun c => c.line != v.line
    | none => rest

/-- Brings the lines of a block into the element's cluster cache. -/
def State.touchLines (s : State) (rank : Nat) (lines : List Nat) : State :=
  s.modCluster (rank / 16) fun c => { c with code := lines.foldl touchLine c.code }

/-- Drops least recently used unpinned blocks until at most 64 lines are held (R140). -/
def evictBlocks : Nat → List DecodedBlock → List DecodedBlock
  | 0, l => l
  | n + 1, l =>
    if l.foldl (fun k b => k + b.lines) 0 ≤ 64 then l
    else match (l.filter fun b => !pinned b.pins).getLast? with
      | some v => evictBlocks n (l.filter fun b => b.lid != v.lid || b.hdr != v.hdr)
      | none => l

/-- Files a decoded block under its key, most recently used first (R140, R141). -/
def State.fileBlock (s : State) (rank lid w : Nat) (out : DecodeOutcome) : State :=
  let lines := (bf (s.codeWord rank lid w) 27 22 + 2 + 15) / 16
  s.modElem rank fun e =>
    let old := e.dec.find? fun b => b.lid == lid && b.hdr == w
    let new : DecodedBlock := {
      lid, hdr := w, gen := s.thatch.gen, lines, out, pins := match old with | some b => b.pins | none => [] }
    { e with dec := evictBlocks 64 (new :: e.dec.filter fun b => b.lid != lid || b.hdr != w) }

/-- Raises a decode fault of the block that the firing has entered (R66, R143, R331). -/
def State.decodeFault (s : State) (rank : Nat) (code : TrapCode) (o : DecodeOutcome) : State :=
  match s.active rank with
  | none => s
  | some (f, a) =>
    let (addr, cb) := s.codePtr rank a (if o.slot = 64 then f.hdr else f.hdr + 1 + o.slot)
    let t := (s.mkTrap (lidPart a.lid) a.lid a.g rank code o.tcode addr (o.word.setWidth 64)).ofFiring f 0
    s.preciseTrap rank f a
      { t with cbase := cb, slot := (if o.slot = 64 then 0 else o.slot), emui := o.emui, tslot := o.tslot }

/-- The firing enters the block whose header is word `w`: the block is decoded as a whole, and a decode fault belongs to the firing.
Operand values do not carry over; the handle snapshot, pending advances and held writes do (R142, R163, R165). -/
def State.enterBlock (s : State) (rank w : Nat) : State :=
  match s.active rank with
  | none => s
  | some (_, a) =>
    let (slots, out) := s.decodeAt rank a w
    let s1 := (s.touchLines rank (s.blockLines rank a.lid w)).fileBlock rank a.lid w out
    let s2 := s1.modFiring rank fun f =>
      { f with entry := f.entry + 1, hdr := w, bid := bf (s.codeWord rank a.lid w) 15 0, slots := slots, exit := none }
    match out.code with
    | some c => s2.decodeFault rank c out
    | none => s2

/-! ## Readiness (R56, R163) -/

/-- The instruction in a slot of the running block, with its literals. -/
def Firing.instrAt (f : Firing) (id : Nat) : Option Instr :=
  match f.slotAt id with
  | some sl =>
    match sl.kind with
    | .ins =>
      let l := fun n => match f.slotAt (id + n) with | some x => x.word | none => 0
      decodeIns sl.word (l 1) (l 2)
    | .lit | .pfx | .emu _ _ => none
  | none => none

/-- The predicate of a word has arrived with the matching sense, or it has none (R56). -/
def predMet (w : IWord) (p : Option Value) : Bool :=
  match (Raw.ofWord w).pr, p with
  | 0, _ => true
  | _, some v => !senseWrong w v
  | _, none => false

/-- Every port that an instruction reads has its value. -/
def portsMet (i : Instr) (sl : Slot) : Bool :=
  let need := fun q => portUseOf i q == .none || (sl.port q).isSome
  need .a && need .b && need .c

/-- The predicate of the original gates every word inserted for it (R151). -/
def Firing.gateMet (f : Firing) (id : Nat) : Bool :=
  if id < 64 then true else match f.slotAt (slotNo id) with
    | some o => predMet o.word o.p
    | none => false

/-- The word in a slot is ready: it has not issued in this entry, its ports are filled and its predicate matches (R163). -/
def Firing.ready (f : Firing) (id : Nat) : Bool :=
  match f.slotAt id, f.instrAt id with
  | some sl, some i => !sl.issued && portsMet i sl && predMet sl.word sl.p && f.gateMet id
  | _, _ => false

/-- Issue classes: 0 scalar, 1 scalar that reads a FIFO, 2 scalar that writes one, 3 vector, 4 memory (R63, R163, R192). -/
def issueClass (op : Nat) : Nat :=
  let cb := classBits op
  if cb.1 then 4 else if cb.2.1 then 3 else if [0x64, 0x6B, 0x6D].contains op then 1 else if [0x65, 0x6C, 0x6E].contains op then 2 else 0

/-- The issue group of a class: scalar, vector or memory (R163). -/
def issueGroup (x : Nat) : Nat := if x ≤ 2 then 0 else x

/-- A word of class `x` finds its slot class full in a cycle in which words of some classes have issued: at most 2 scalar, 1 vector and 1 memory
instruction issue in a cycle, and at most one reads a FIFO and one writes one (R163). -/
def classFull (l : List Nat) (x : Nat) : Bool :=
  if x ≤ 2 then decide (2 ≤ (l.filter fun y => decide (y ≤ 2)).length) || (x != 0 && l.contains x) else l.contains x

/-- The issue class of the word in a slot. -/
def Slot.cls (sl : Slot) : Nat := issueClass (Raw.ofWord sl.word).op

/-- The classes of the words that a firing has issued in a cycle. -/
def Firing.takenIn (f : Firing) (cycle : Nat) : List Nat := if f.took.1 = cycle then f.took.2 else []

/-- A firing issues a word of a class in a cycle. -/
def Firing.take (f : Firing) (cycle x : Nat) : Firing := { f with took := (cycle, f.takenIn cycle ++ [x]) }

/-- The word in a slot is ready from the block's first cycle on: it reads no port, and neither does the word whose emulation it belongs to
(R151, R163). -/
def Firing.fromStart (f : Firing) (id : Nat) : Bool :=
  (match f.instrAt id with | some i => i.pred == .always && (Instr.portUse i) == (.none, .none, .none) | none => false) &&
    (decide (id < 64) || match f.slotAt (slotNo id) with | some o => (Raw.ofWord o.word).pr == 0 | none => false)

/-- A word that is ready in the same cycle as another: from the start, or made ready by the same result. -/
def Firing.readyWith (f : Firing) (x sl : Slot) : Bool := f.ready x.id && (f.fromStart x.id || (x.fed.isSome && x.fed == sl.fed))

/-- Requests that wait at a cluster memory interface, for their turn or on a miss (R233). -/
def State.waitingAt (s : State) (cluster : Nat) : Nat :=
  (s.reqs.filter fun q => q.rank / 16 == cluster && (q.stage == .queued || q.stage == .missed) && q.kind != .null).length

/-- The operations that a request counts for: a scatter counts its lanes (R358). -/
def ReqKind.ackCount (k : ReqKind) (p : Word) : Nat := match k with | .scat _ _ _ => (k.pieces p).length | _ => 1

/-- The acknowledgement count of a launch in a cluster memory interface (R358). -/
def State.ackCount (s : State) (lid c : Nat) : Nat :=
  let sum := fun (l : List Nat) => l.foldl (· + ·) 0
  let waits := fun (d : Due) => match d.what with
    | .engineRoom _ _ _ r _ _ _ => bf r 16 16 == 0 | .regionRoom _ _ _ _ _ _ _ | .digest _ _ => true | _ => false
  sum ((s.reqs.filter fun q => q.lid == lid && q.rank / 16 == c && q.kind.counted && q.stage != .done).map fun q => q.kind.ackCount q.ptr) +
    sum (s.engines.map fun e => (e.2.queue.filter fun x => x.lid == lid && x.rank / 16 == c && bf x.recd 16 16 == 0).length) +
    sum (s.regions.map fun r => (r.queue.filter fun x => x.lid == lid && x.rank / 16 == c && !x.detach).length) +
    sum (s.colls.map fun x => if x.lid = lid then (x.parts.filter fun p => p.rank / 16 == c).length else 0) +
    sum (s.digests.map fun x => if x.lid = lid then (x.parts.filter fun p => p.rank / 16 == c).length else 0) +
    sum (s.elems.map fun e => match s.active e.1 with
      | some (f, a) => if e.1 / 16 = c ∧ a.lid = lid then (f.due.filter waits).length else 0
      | none => 0)

/-- The scalar and the vector that a port of a word holds. -/
def State.wordS (s : State) (rank id : Nat) (q : Port) : Word :=
  (((s.firing? rank).bind fun f => (f.slotAt id).bind fun sl => sl.port q).getD (.s 0)).scalar
def State.wordV (s : State) (rank id : Nat) (q : Port) : Vec :=
  (((s.firing? rank).bind fun f => (f.slotAt id).bind fun sl => sl.port q).getD (.s 0)).vec

/-- The operations that the word in a slot adds to an acknowledgement count (R358): a detached engine command adds none. -/
def State.addsAcks (s : State) (rank id : Nat) (i : Instr) : Nat :=
  let p := s.wordS rank id .a
  match i with
  | .stg _ _ _ _ | .stgv _ _ _ _ | .atom _ _ _ _ | .atomr _ _ _ _ | .cas _ _ _ _ | .vatom _ _ _ _ | .faadd _ _ _ _ | .mloadw _ _ _ | .mswap _ _ _
    | .mma _ _ _ | .mscale _ _ _ _ | .mpromo _ _ _ | .statf _ _ _ | .accrd _ _ _ | .accwr _ _ _ | .accz _ _ _ | .cred _ _ _ | .cbcast _ _ _
    | .cgath _ _ _ | .digest _ _ _ => 1
  | .scat _ t _ _ => ReqKind.ackCount (.scat t (s.wordV rank id .b) 0) p
  | .qcopy _ _ _ _ _ | .qgath _ _ _ _ _ | .qunf _ _ _ _ _ => 1 - bf (s.readVec (localKey rank (ptrOff p))) 16 16
  | _ => 0

/-- The word in a slot stalls at issue. A memory node stalls while 256 requests wait at its cluster's interface (R233), an operation that would
bring an acknowledgement count to 2^24 until it may be counted (R358), and a local access and an FSCAN behind an LDLV.WF that waits (R225, R260). -/
def State.stalls (s : State) (rank id : Nat) (i : Instr) : Bool :=
  let full := decide (256 ≤ s.waitingAt (rank / 16))
  let local_ := (s.firing? rank).any fun f => f.due.any fun d => match d.what with | .fullEmpty _ _ => true | _ => false
  let adds := s.addsAcks rank id i
  let count := adds != 0 && (s.active rank).any fun x => decide (2 ^ 24 ≤ s.ackCount x.2.lid (rank / 16) + adds)
  count || match i with
  | .ldg _ _ _ _ _ | .stg _ _ _ _ | .ldgv _ _ _ _ _ | .stgv _ _ _ _ | .gath _ _ _ _ | .scat _ _ _ _ | .vrcl _ _ _ | .vqry _ _ _
    | .atom _ _ _ _ | .atomr _ _ _ _ | .cas _ _ _ _ | .vatom _ _ _ _ | .faadd _ _ _ _ | .fence _ _ _ _ _ _ => full
  | .ldl _ _ _ _ | .stl _ _ | .ldlv _ _ _ _ _ | .stlv _ _ | .feset _ _ | .feclr _ _ | .fetest _ _ _ _ | .fscan _ _ _ _ _ _ _ => local_
  | _ => false

/-- The word in a slot stalls. -/
def State.stallsAt (s : State) (rank : Nat) (f : Firing) (id : Nat) : Bool := (f.instrAt id).any fun i => s.stalls rank id i

/-- The turn of the word in a slot has come: its slot class has room in this cycle, and of the earlier words that are ready in the same cycle each
has issued, or finds its class full, or stalls in another group (R163). -/
def State.inTurn (s : State) (rank : Nat) (f : Firing) (id : Nat) : Bool :=
  let done := f.takenIn s.clock.cycle
  match f.slotAt id with
  | none => false
  | some sl =>
    !classFull done sl.cls && f.slots.all fun x =>
      !(x.kind == .ins && decide (slotKey x.id < slotKey id) && f.readyWith x sl) || classFull done x.cls ||
        (issueGroup x.cls != issueGroup sl.cls && s.stallsAt rank f x.id)

/-- The word in a slot issues now: it is ready, its turn has come and it does not stall; the answer is its instruction. -/
def State.issues (s : State) (rank id : Nat) : Option Instr :=
  match s.active rank with
  | none => none
  | some (f, a) => if f.ready id ∧ s.inTurn rank f id ∧ s.live a.lid then (f.instrAt id).filter fun i => !s.stalls rank id i else none

/-- Some word of the block is ready; a firing of a launch that no longer runs has none. -/
def Firing.anyReady (f : Firing) : Bool := f.slots.any fun sl => f.ready sl.id

end Sys2Proof.Machine
end

