-- ==== Sys2Proof/Machine/Local.lean ====
section
/-! DEFINITION. Local memory and its full-empty bits (R223 to R225). -/

namespace Sys2Proof.Machine

/-- The FE granules of a span of local memory, numbered over all elements (R224). -/
def feSpan (rank off n : Nat) : List Nat := (List.range ((off + n - 1) / 16 + 1 - off / 16)).map fun k => rank * 2048 + off / 16 + k

/-- Adds a granule to a sorted list of full ones. -/
def insFull (x : Nat) : List Nat → List Nat
  | [] => [x]
  | y :: r => if x < y then x :: y :: r else if x = y then y :: r else y :: insFull x r

/-- Sets granules full, or clears them. -/
def State.feSet (s : State) (gs : List Nat) : State := { s with full := gs.foldl (fun l g => insFull g l) s.full }
def State.feClear (s : State) (gs : List Nat) : State := { s with full := s.full.filter fun g => !gs.contains g }
def State.feFull (s : State) (gs : List Nat) : Bool := gs.all fun g => s.full.contains g

/-- A checked local access of the word that issues: `k` takes the offset; a failed check is a fatal fault with the pointer (R225). -/
def State.localAccess (s : State) (n : Nat) (k : Nat → State) : Result :=
  match s.localCheck (s.portS .a) n n with
  | .ok o => .next (k o)
  | .bad c => .next (s.fatalHere c (s.portS .a))

/-- Writes local bytes of the issuing element, counted among the firing's local stores (R225, R330). -/
def State.localStore (s : State) (o : Nat) (bs : List Byte) : State :=
  (s.writeBytes (localKey s.focus.rank o) bs).modFiring s.focus.rank fun f => { f with nlst := f.nlst + 1 }

/-- A value comes due to the word that issues (R164). -/
def State.addDue (s : State) (dst : List Target) (w : WaitFor) : State :=
  s.modFiring s.focus.rank fun f => { f with due := f.due ++ [{ slot := s.focus.id, dst, what := w }] }

/-- R225. -/
def execLdl (_p : Pred) (t : Ty) (a b : Target) (s : State) : Result :=
  s.localAccess (t.width / 8) fun o => s.out2 a b (extendTo t (s.readNat (localKey s.focus.rank o) (t.width / 8)))

/-- R225. -/
def execStl (_p : Pred) (t : Ty) (s : State) : Result :=
  s.localAccess (t.width / 8) fun o => s.localStore o (bytesOfNat (t.width / 8) (s.portS .b).toNat)

/-- Reads 64 local bytes and clears their granules in the same access if asked (R225). -/
def State.takeLocal (s : State) (rank o : Nat) (clear : Bool) : Vec × State :=
  (s.readVec (localKey rank o), if clear then s.feClear (feSpan rank o 64) else s)

/-- R225; a WF that is not met waits with the firing open. -/
def execLdlv (_p : Pred) (c w : Bool) (a b : Target) (s : State) : Result :=
  s.localAccess 64 fun o =>
    if w && !s.feFull (feSpan s.focus.rank o 64) then s.addDue [a, b] (.fullEmpty o c)
    else
      let r := s.takeLocal s.focus.rank o c
      r.2.outV2 a b r.1

/-- R225. -/
def execStlv (_p : Pred) (q : Bool) (s : State) : Result :=
  s.localAccess 64 fun o =>
    let s1 := s.localStore o (vecBytes (s.portV .b))
    if q then s1.feSet (feSpan s.focus.rank o 64) else s1

/-- Bytes of the full-empty instructions (R225). -/
def feBytes (q : Bool) : Nat := if q then 64 else 16

/-- R225. -/
def execFeset (_p : Pred) (q : Bool) (s : State) : Result :=
  s.localAccess (feBytes q) fun o => s.feSet (feSpan s.focus.rank o (feBytes q))

/-- R225. -/
def execFeclr (_p : Pred) (q : Bool) (s : State) : Result :=
  s.localAccess (feBytes q) fun o => s.feClear (feSpan s.focus.rank o (feBytes q))

/-- R225. -/
def execFetest (_p : Pred) (q : Bool) (a b : Target) (s : State) : Result :=
  s.localAccess (feBytes q) fun o => s.out2 a b (if s.feFull (feSpan s.focus.rank o (feBytes q)) then 1 else 0)

/-- The value due to a slot of the firing on an element. -/
def State.dueAt (s : State) (rank slot : Nat) : Option Due := (s.firing? rank).bind fun f => f.due.find? fun d => d.slot == slot

/-- Takes away what was due to a slot. -/
def State.dropDue (s : State) (rank slot : Nat) : State :=
  s.modFiring rank fun f => { f with due := f.due.eraseP fun d => d.slot == slot }

/-- A due value arrives: it is delivered to the consumers of its instruction. -/
def State.payDue (s : State) (rank : Nat) (d : Due) (v : Value) : State :=
  (s.dropDue rank d.slot).deliverAll rank d.slot none d.dst v

/-- R225: the read and the clear are one access. -/
def execLdlvWfRelease (rank slot : Nat) (s : State) : Result :=
  match s.dueAt rank slot with
  | some d =>
    match d.what with
    | .fullEmpty o c =>
      if s.feFull (feSpan rank o 64) then
        let r := s.takeLocal rank o c
        .next (r.2.payDue rank d (.v r.1))
      else .next s
    | _ => .next s
  | none => .next s

end Sys2Proof.Machine
end

