-- ==== Sys2Proof/Machine/Program.lean ====
section
/-! DEFINITION. Constants, moves, keep and special registers, the exit-class instructions, and the LUT patch (R73 to R75, R181 to
R186). -/

namespace Sys2Proof.Machine

/-- R73. -/
def execNop (_p : Pred) (s : State) : Result := .next s

/-- R74. -/
def execLit (_p : Pred) (t : Ty) (a b : Target) (v : Word) (s : State) : Result := .next (s.out2 a b (extendTo t v.toNat))

/-- The bits of an IMM in its type (R75). -/
def immBits (t : Ty) (i : BitVec 9) : Nat :=
  if t.isSigned then wrapNat t.width (simm9 i)
  else if t.isFloat then (roundTo t .rne false (FVal.mk (simm9 i) 0 false)).1
  else uimm9 i % 2 ^ t.width

/-- R75. -/
def execImm (_p : Pred) (t : Ty) (a : Target) (i : BitVec 9) (s : State) : Result := .next (s.out1 a (extendTo t (immBits t i)))

/-- R184. -/
def execMov (_p : Pred) (v : Bool) (a b : Target) (s : State) : Result :=
  .next (if v then s.outV2 a b (s.portV .a) else s.out2 a b (s.portS .a))

/-- R184. -/
def execSel (_p : Pred) (v : Bool) (a b : Target) (s : State) : Result :=
  .next (if v then s.outV2 a b (if s.portV .c = 0 then s.portV .b else s.portV .a)
    else s.out2 a b (if s.portS .c = 0 then s.portS .b else s.portS .a))

/-- Keep register n of the issuing actor as it stood at the start of the firing (R184). -/
def State.keepReg (s : State) (n : Nat) : Word := match s.here with | some (_, a) => a.keep.getD n 0 | none => 0

/-- R184. -/
def execRdk (_p : Pred) (a : Target) (x : Bool) (n : Fin 16) (s : State) : Result :=
  .next (s.out1 a (s.keepReg (if x then bf (s.portS .a) 3 0 else n.val)))

/-- R184. -/
def execWrk (_p : Pred) (x : Bool) (n : Fin 16) (s : State) : Result :=
  .next (s.holdKeep s.focus.rank s.focus.id (if x then bf (s.portS .b) 3 0 else n.val) (s.portS .a))

/-! ## Special registers (R181, R182) -/

/-- The value that RDSR delivers; SR.TICKH is what the last RDSR of SR.TICK in the firing latched (R181). -/
def State.specialReg (s : State) (f : Firing) (a : Actor) (r : Nat) : Nat :=
  let l := s.launch? a.lid
  match r with
  | 0 => s.focus.rank
  | 1 => a.stage
  | 2 => a.g
  | 3 => match l with | some l => l.ngroup | none => 0
  | 4 => f.phase
  | 5 => lidPart a.lid
  | 6 => s.clock.tick % 2 ^ 32
  | 7 => match f.tickh with | some t => t.toNat | none => s.clock.tick / 2 ^ 32 % 2 ^ 32
  | 8 => a.rnd.toNat
  | 9 => a.flags.toNat
  | 10 => a.lid
  | 11 => f.inv % 2 ^ 32
  | 12 => a.seed.toNat
  | 13 => s.clock.cycle % 2 ^ 64
  | 14 => s.effPrio a
  | _ => match l with | some l => l.det.toNat | none => 0

/-- R181; in a DET launch SR.TICK, SR.TICKH and SR.CYCLE raise Privilege (R323). -/
def execRdsr (_p : Pred) (a : Target) (r : BitVec 9) (s : State) : Result :=
  match s.here with
  | none => .next s
  | some (f, x) =>
    if s.hereDet ∧ (r = 6 ∨ r = 7 ∨ r = 13) then .next (s.faultHere .privilege 0)
    else
      let s1 := if r = 6 then s.modFiring s.focus.rank fun f => { f with tickh := some (BitVec.ofNat 32 (s.clock.tick / 2 ^ 32)) } else s
      .next (s1.out1 a (BitVec.ofNat 64 (s.specialReg f x r.toNat)))

/-- Width of a writable special register (R181). -/
def srWidth (r : Nat) : Nat := match r with | 8 => 2 | 9 => 5 | _ => 64

/-- R182: the write is held until commit and keeps the register's width. -/
def execWrsr (_p : Pred) (r : BitVec 9) (s : State) : Result :=
  let v := BitVec.ofNat 64 ((s.portS .a).toNat % 2 ^ srWidth r.toNat)
  .next (s.modFiring s.focus.rank fun f =>
    { f with srW := f.srW ++ [{ reg := r.toNat, entry := f.entry, slot := slotKey s.focus.id, val := v }] })

/-! ## Exit-class instructions (R164, R184) -/

/-- MultiExit of a second exit-class instruction; the record names the block header (R164, R331). -/
def State.multiExit (s : State) : State :=
  match s.here with
  | none => s
  | some (f, a) =>
    let (addr, cb) := s.codePtr s.focus.rank a f.hdr
    let t := (s.mkTrap (lidPart a.lid) a.lid a.g s.focus.rank .multiExit 0 addr 0).ofFiring f s.focus.id
    s.preciseTrap s.focus.rank f a { t with cbase := cb }

/-- Two words inserted for one slot: for exit counting their emulation counts as the original (R151). -/
def sameEmulation (x y : Nat) : Bool := decide (64 ≤ x) && decide (64 ≤ y) && slotNo x == slotNo y

/-- Another exit-class instruction has issued in this entry, in another slot (R151, R164). -/
def State.exited (s : State) : Bool :=
  match s.here with | some (f, _) => f.exit.isSome && !sameEmulation f.exitBy s.focus.id | none => false

/-- The first exit-class instruction of an entry asks for `x`; a second one raises MultiExit at once (R164). Of several words inserted for one
slot the highest-numbered stands (DEDUCED, log entry 76). -/
def State.askExit (s : State) (x : ExitReq) : State :=
  match s.here with
  | none => s
  | some (f, _) =>
    if s.exited then s.multiExit
    else if f.exit.isSome ∧ slotKey s.focus.id < slotKey f.exitBy then s
    else s.modFiring s.focus.rank fun f => { f with exit := some x, exitBy := s.focus.id }

/-- A branch to a code word, which must be a block header in the actor's range (R65, R184). -/
def State.branchTo (s : State) (w : Nat) : State :=
  match s.here with
  | none => s
  | some (_, a) =>
    let ok := match (s.launch? a.lid).bind fun l => l.img with
      | some im => decide (w < im.code.length) && decide (a.range.1 ≤ w) && decide (w < a.range.2) && im.starts.getD w false
      | none => false
    if s.exited then s.multiExit
    else if ok then s.askExit (.branch w) else s.faultHere .badTarget (BitVec.ofNat 64 w)

/-- An exit to a phase, whose entry must not be empty (R12, R184). -/
def State.exitTo (s : State) (x : ExitReq) (phase : Nat) : State :=
  match s.here with
  | none => s
  | some (_, a) =>
    if s.exited then s.multiExit
    else if a.desc.entry.getD phase 0xFFFF = 0xFFFF then s.faultHere .badTarget (BitVec.ofNat 64 phase)
    else s.askExit x

/-- The phase that the firing entered (R163). -/
def State.herePhase (s : State) : Nat := match s.here with | some (f, _) => f.phase | none => 0

/-- R184. -/
def execBr (_p : Pred) (w : IWord) (s : State) : Result := .next (s.branchTo w.toNat)

/-- R184. -/
def execBri (_p : Pred) (s : State) : Result := .next (s.branchTo (bf (s.portS .a) 31 0))

/-- R184. -/
def execExit (_p : Pred) (n : Fin 8) (s : State) : Result := .next (s.exitTo (.exit n.val) n.val)

/-- R184. -/
def execExitv (_p : Pred) (s : State) : Result :=
  .next (s.exitTo (.exit (bf (s.portS .a) 2 0)) (bf (s.portS .a) 2 0))

/-- R184; the next phase is SR.PHASE. -/
def execRetire (_p : Pred) (s : State) : Result := .next (s.exitTo .retire s.herePhase)

/-- R184: SoftwareTrap with DETAIL the code. -/
def execTrap (_p : Pred) (c : BitVec 9) (s : State) : Result :=
  .next (if s.exited then s.multiExit else s.precise s.focus.rank s.focus.id .softwareTrap c.toNat 0)

/-- R184; the next phase is SR.PHASE. -/
def execYield (_p : Pred) (s : State) : Result := .next (s.exitTo .yield s.herePhase)

/-- The slots whose exit-class word is emulated and has fired, with its operand in place, and whose inserted words asked for no exit: each
emulation counts as its original for exit counting (R151; DEDUCED, log entry 76). -/
def Firing.emulatedExits (f : Firing) : List Slot :=
  f.slots.filter fun sl => match sl.kind with
    | .emu _ _ => [0x0A, 0x0B, 0x0C, 0x0D, 0x0E, 0x0F].contains (Raw.ofWord sl.word).op && predMet sl.word sl.p &&
        (sl.a.isSome || ((Raw.ofWord sl.word).op != 0x0A && (Raw.ofWord sl.word).op != 0x0C)) &&
        !(f.exit.isSome && decide (64 ≤ f.exitBy) && slotNo f.exitBy == sl.id)
    | .ins | .lit | .pfx => false

/-- The word of an emulated slot asks for its exit as R184 gives it; where another exit has been asked for, it is a second one (R164). -/
def State.emulateExit (s : State) (rank : Nat) (sl : Slot) : State :=
  let s1 := { s with focus := ⟨rank, sl.id⟩ }
  if s1.exited then s1.multiExit
  else match (Raw.ofWord sl.word).op with
  | 0x0A => s1.branchTo (bf (s1.portS .a) 31 0)
  | 0x0B => s1.exitTo (.exit (bf sl.word 2 0)) (bf sl.word 2 0)
  | 0x0C => s1.exitTo (.exit (bf (s1.portS .a) 2 0)) (bf (s1.portS .a) 2 0)
  | 0x0D => s1.exitTo .retire s1.herePhase
  | 0x0E => s1.precise rank sl.id .softwareTrap (bf sl.word 8 0) 0
  | _ => s1.exitTo .yield s1.herePhase

/-! ## The LUT patch (R186) -/

/-- A patch function answers 0 before any load and under a bitstream whose header is not valid. -/
def Elem.xopLive (e : Elem) : Bool := !e.xopBits.isEmpty && Config.xopValid e.xopBits

/-- R186; what a function computes stands in the bitstream (log entry 2). -/
def execXop (_p : Pred) (n : Fin 8) (a b : Target) (s : State) : Result :=
  let e := s.elem s.focus.rank
  let x := s.portS .a
  let y := s.portS .b
  if e.xopLive then
    let s1 := s.modElem s.focus.rank fun e => { e with xopFf := Config.xopFlops e.xopBits n.val x y e.xopFf }
    .next (s1.out2 a b (Config.xopOut e.xopBits n.val x y e.xopFf))
  else .next (s.out2 a b 0)

/-- R186: the 8 KiB at A are installed at commit; a span that meets the FIFO area is SpaceViolation (R223). -/
def execXopLoad (_p : Pred) (s : State) : Result :=
  let p := s.portS .a
  let o := ptrOff p
  .next (if ptrSpace p ≠ 2 ∨ ptrOwner p ≠ s.focus.rank then s.fatalHere .spaceViolation p
    else if o % 64 ≠ 0 then s.fatalHere .alignment p
    else if 32768 < o + 8192 ∨ s.meetsFifo s.focus.rank o 8192 then s.fatalHere .spaceViolation p
    else s.modFiring s.focus.rank fun f => { f with xopLoad := some o })

end Sys2Proof.Machine
end

