-- ==== Sys2Proof/Machine/Integer.lean ====
section
/-! DEFINITION. Integer arithmetic, compares, predicates and pointer fields (R187, R188, R217). -/

namespace Sys2Proof.Machine

/-- Delivers the exact result of an integer instruction on the operands that ports A, B and C give, wrapped, or saturated when the
instruction takes PFX.SAT and has it (R77, R187). -/
def State.intOp (s : State) (t : Ty) (a b : Target) (takesSat : Bool) (f : Int → Int → Int → Int) : Result :=
  .next (s.out2 a b (intResult t (takesSat && s.effSat)
    (f (intOperand t (s.portS .a)) (intOperand t (s.portS .b)) (intOperand t (s.portS .c)))))

/-- The same with one consumer (format I). -/
def State.intOp1 (s : State) (t : Ty) (a : Target) (takesSat : Bool) (f : Int → Int) : Result :=
  .next (s.out1 a (intResult t (takesSat && s.effSat) (f (intOperand t (s.portS .a)))))

/-- The count on port B (R187 `zext(B, 64)`). -/
def State.count (s : State) : Nat := (s.portS .b).toNat

/-- The w-bit value of an integer. -/
def unsignedOf (t : Ty) (x : Int) : Nat := wrapNat t.width x

/-- x × 2^n, which is 0 on w bits from n = w on. Under PFX.SAT a bit shifted out saturates it (R77, R187; DEDUCED, log entry 15). -/
def shiftLeft (t : Ty) (x : Int) (n : Nat) : Int := x * 2 ^ Nat.min n (t.width + 1)

/-- Logical shift right. -/
def shiftRight (t : Ty) (x : Int) (n : Nat) : Int := if t.width ≤ n then 0 else (unsignedOf t x / 2 ^ n : Nat)

/-- Arithmetic shift right of the value sign-extended from w bits, also for N types. -/
def shiftArith (t : Ty) (x : Int) (n : Nat) : Int := toSigned t.width (unsignedOf t x) / 2 ^ Nat.min n (t.width - 1)

/-- Rotation to the left. -/
def rotateLeft (t : Ty) (x : Int) (n : Nat) : Int :=
  let u := unsignedOf t x
  let k := n % t.width
  (u * 2 ^ k + u / 2 ^ (t.width - k) : Nat)

/-- Quotient truncated toward zero; −1 or 2^w − 1 for a divisor of 0. -/
def divide (t : Ty) (x y : Int) : Int :=
  if y = 0 then (if t.isSigned then -1 else 2 ^ t.width - 1) else x.tdiv y

/-- Remainder of the truncated quotient; x for a divisor of 0. -/
def remainder (x y : Int) : Int := if y = 0 then x else x - y * x.tdiv y

/-- Leading zeros on w bits. -/
def leadingZeros (t : Ty) (x : Int) : Nat := if unsignedOf t x = 0 then t.width else t.width - 1 - Nat.log2 (unsignedOf t x)

/-- Trailing zeros of the low n bits of u. -/
def trailingZerosGo : Nat → Nat → Nat
  | 0, _ => 0
  | n + 1, u => if u % 2 = 1 then 0 else 1 + trailingZerosGo n (u / 2)

def trailingZeros (t : Ty) (x : Int) : Nat := trailingZerosGo t.width (unsignedOf t x)

/-- One bits of the low n bits of u. -/
def onesGo : Nat → Nat → Nat
  | 0, _ => 0
  | n + 1, u => u % 2 + onesGo n (u / 2)

def ones (t : Ty) (x : Int) : Nat := onesGo t.width (unsignedOf t x)

/-- Position and length of a bit field (R187). -/
def fieldPos (v : Word) : Nat := bf v 5 0
def fieldLen (v : Word) : Nat := Nat.min (bf v 12 6) 64

/-- BFX: bits above 63 of the operand extended to 64 bits read as its bit 63 (R187). -/
def bitExtract (t : Ty) (x : Int) (v : Word) : Int :=
  let y := toSigned 64 (extendTo t (unsignedOf t x)).toNat / 2 ^ fieldPos v
  let u := wrapNat (fieldLen v) y
  if fieldLen v = 0 then 0 else if t.isSigned then toSigned (fieldLen v) u else (u : Int)

/-- BFI: the field replaced by the low bits of y; bits at or above w are dropped by the wrap (R187). -/
def bitInsert (t : Ty) (x y : Int) (v : Word) : Int :=
  let u := unsignedOf t x
  let lo := 2 ^ fieldPos v
  let hi := 2 ^ (fieldPos v + fieldLen v)
  (u % lo + wrapNat (fieldLen v) y * lo + u / hi * hi : Nat)

/-- Bits to keep of SEXT and ZEXT (R187). -/
def extCount (v : Word) : Nat := Nat.min v.toNat 64

/-- SEXT: n = 0 gives 0. -/
def signExt (x : Int) (n : Nat) : Int := if n = 0 then 0 else toSigned n (wrapNat n x)

/-- ZEXT: n = 0 gives 0. -/
def zeroExt (x : Int) (n : Nat) : Int := wrapNat n x

/-- A bitwise operation on w bits. -/
def bitwise (t : Ty) (f : Nat → Nat → Nat) (x y : Int) : Int := f (unsignedOf t x) (unsignedOf t y)

/-- R187. -/
def execAdd (_p : Pred) (t : Ty) (a b : Target) (s : State) : Result :=
  s.intOp t a b true fun x y _ => x + y

/-- R187. -/
def execSub (_p : Pred) (t : Ty) (a b : Target) (s : State) : Result :=
  s.intOp t a b true fun x y _ => x - y

/-- R187. -/
def execMul (_p : Pred) (t : Ty) (a b : Target) (s : State) : Result :=
  s.intOp t a b true fun x y _ => x * y

/-- R187. -/
def execMulh (_p : Pred) (t : Ty) (a b : Target) (s : State) : Result :=
  s.intOp t a b false fun x y _ => x * y / 2 ^ t.width

/-- R187. -/
def execMad (_p : Pred) (t : Ty) (a b : Target) (s : State) : Result :=
  s.intOp t a b true fun x y z => x * y + z

/-- R187. -/
def execDiv (_p : Pred) (t : Ty) (a b : Target) (s : State) : Result :=
  s.intOp t a b false fun x y _ => divide t x y

/-- R187. -/
def execRem (_p : Pred) (t : Ty) (a b : Target) (s : State) : Result :=
  s.intOp t a b false fun x y _ => remainder x y

/-- R187. -/
def execNeg (_p : Pred) (t : Ty) (a b : Target) (s : State) : Result :=
  s.intOp t a b true fun x _ _ => -x

/-- R187. -/
def execAbs (_p : Pred) (t : Ty) (a b : Target) (s : State) : Result :=
  s.intOp t a b true fun x _ _ => if x < 0 then -x else x

/-- R187. -/
def execMin (_p : Pred) (t : Ty) (a b : Target) (s : State) : Result :=
  s.intOp t a b false fun x y _ => if x ≤ y then x else y

/-- R187. -/
def execMax (_p : Pred) (t : Ty) (a b : Target) (s : State) : Result :=
  s.intOp t a b false fun x y _ => if x ≤ y then y else x

/-- R187. -/
def execClamp (_p : Pred) (t : Ty) (a b : Target) (s : State) : Result :=
  s.intOp t a b false fun x y z => let m := if x ≤ y then y else x; if m ≤ z then m else z

/-- R187. -/
def execAnd (_p : Pred) (t : Ty) (a b : Target) (s : State) : Result :=
  s.intOp t a b false fun x y _ => bitwise t (· &&& ·) x y

/-- R187. -/
def execOr (_p : Pred) (t : Ty) (a b : Target) (s : State) : Result :=
  s.intOp t a b false fun x y _ => bitwise t (· ||| ·) x y

/-- R187. -/
def execXor (_p : Pred) (t : Ty) (a b : Target) (s : State) : Result :=
  s.intOp t a b false fun x y _ => bitwise t (· ^^^ ·) x y

/-- R187. -/
def execNot (_p : Pred) (t : Ty) (a b : Target) (s : State) : Result :=
  s.intOp t a b false fun x _ _ => 2 ^ t.width - 1 - (unsignedOf t x : Int)

/-- R187. -/
def execAndn (_p : Pred) (t : Ty) (a b : Target) (s : State) : Result :=
  s.intOp t a b false fun x y _ => bitwise t (fun u v => u &&& (2 ^ t.width - 1 - v)) x y

/-- R187. -/
def execShl (_p : Pred) (t : Ty) (a b : Target) (s : State) : Result :=
  s.intOp t a b true fun x _ _ => shiftLeft t x s.count

/-- R187. -/
def execShr (_p : Pred) (t : Ty) (a b : Target) (s : State) : Result :=
  s.intOp t a b false fun x _ _ => shiftRight t x s.count

/-- R187. -/
def execSar (_p : Pred) (t : Ty) (a b : Target) (s : State) : Result :=
  s.intOp t a b false fun x _ _ => shiftArith t x s.count

/-- R187. -/
def execRot (_p : Pred) (t : Ty) (a b : Target) (s : State) : Result :=
  s.intOp t a b false fun x _ _ => rotateLeft t x s.count

/-- R187. -/
def execClz (_p : Pred) (t : Ty) (a b : Target) (s : State) : Result :=
  s.intOp t a b false fun x _ _ => leadingZeros t x

/-- R187. -/
def execCtz (_p : Pred) (t : Ty) (a b : Target) (s : State) : Result :=
  s.intOp t a b false fun x _ _ => trailingZeros t x

/-- R187. -/
def execPopc (_p : Pred) (t : Ty) (a b : Target) (s : State) : Result :=
  s.intOp t a b false fun x _ _ => ones t x

/-- R187. -/
def execBfx (_p : Pred) (t : Ty) (a b : Target) (s : State) : Result :=
  s.intOp t a b false fun x _ _ => bitExtract t x (s.portS .b)

/-- R187. -/
def execBfi (_p : Pred) (t : Ty) (a b : Target) (s : State) : Result :=
  s.intOp t a b false fun x y _ => bitInsert t x y (s.portS .c)

/-- R187. -/
def execSext (_p : Pred) (t : Ty) (a b : Target) (s : State) : Result :=
  s.intOp t a b false fun x _ _ => signExt x (extCount (s.portS .b))

/-- R187. -/
def execZext (_p : Pred) (t : Ty) (a b : Target) (s : State) : Result :=
  s.intOp t a b false fun x _ _ => zeroExt x (extCount (s.portS .b))

/-- R187. -/
def execAddi (_p : Pred) (t : Ty) (a : Target) (i : BitVec 9) (s : State) : Result :=
  s.intOp1 t a true fun x => x + simm9 i

/-- R187. -/
def execShli (_p : Pred) (t : Ty) (a : Target) (i : BitVec 9) (s : State) : Result :=
  s.intOp1 t a true fun x => shiftLeft t x (uimm9 i)

/-- R187. -/
def execShri (_p : Pred) (t : Ty) (a : Target) (i : BitVec 9) (s : State) : Result :=
  s.intOp1 t a false fun x => shiftRight t x (uimm9 i)

/-- R187. -/
def execSari (_p : Pred) (t : Ty) (a : Target) (i : BitVec 9) (s : State) : Result :=
  s.intOp1 t a false fun x => shiftArith t x (uimm9 i)

/-! ## Compares and predicates (R188) -/

/-- A condition as the value 1 or 0. -/
def truth (c : Bool) : Word := if c then 1 else 0

/-- An integer compare of ports A and B. -/
def State.cmpOp (s : State) (t : Ty) (a b : Target) (f : Int → Int → Bool) : Result :=
  .next (s.out2 a b (truth (f (intOperand t (s.portS .a)) (intOperand t (s.portS .b)))))

/-- R188. -/
def execCmpeq (_p : Pred) (t : Ty) (a b : Target) (s : State) : Result := s.cmpOp t a b fun x y => decide (x = y)

/-- R188. -/
def execCmpne (_p : Pred) (t : Ty) (a b : Target) (s : State) : Result := s.cmpOp t a b fun x y => decide (x ≠ y)

/-- R188. -/
def execCmplt (_p : Pred) (t : Ty) (a b : Target) (s : State) : Result := s.cmpOp t a b fun x y => decide (x < y)

/-- R188. -/
def execCmple (_p : Pred) (t : Ty) (a b : Target) (s : State) : Result := s.cmpOp t a b fun x y => decide (x ≤ y)

/-- R188. -/
def execCmpeqi (_p : Pred) (t : Ty) (a : Target) (i : BitVec 9) (s : State) : Result :=
  .next (s.out1 a (truth (decide (intOperand t (s.portS .a) = immOf t i))))

/-- R188. -/
def execCmplti (_p : Pred) (t : Ty) (a : Target) (i : BitVec 9) (s : State) : Result :=
  .next (s.out1 a (truth (decide (intOperand t (s.portS .a) < immOf t i))))

/-- R188. -/
def execTestb (_p : Pred) (a : Target) (i : BitVec 9) (s : State) : Result :=
  .next (s.out1 a (truth ((s.portS .a).getLsbD i.toNat)))

/-- R188. -/
def execPnot (_p : Pred) (a b : Target) (s : State) : Result := .next (s.out2 a b (truth (s.portS .a == 0)))

/-- R188. -/
def execPand (_p : Pred) (a b : Target) (s : State) : Result :=
  .next (s.out2 a b (truth (s.portS .a != 0 && s.portS .b != 0)))

/-- R188. -/
def execPor (_p : Pred) (a b : Target) (s : State) : Result :=
  .next (s.out2 a b (truth (s.portS .a != 0 || s.portS .b != 0)))

/-! ## Pointer fields (R217) -/

/-- R217. -/
def execLea (_p : Pred) (sh : BitVec 4) (a b : Target) (s : State) : Result :=
  .next (s.out2 a b (ptrAdd (s.portS .a) ((s.portS .b).toInt * 2 ^ sh.toNat)))

/-- R217. -/
def execPtag (_p : Pred) (a b : Target) (s : State) : Result :=
  .next (s.out2 a b (mkPtr (bf (s.portS .a) 3 0) (bf (s.portS .b) 13 0) (bf (s.portS .c) 45 0)))

/-- R217. -/
def execPspc (_p : Pred) (a b : Target) (s : State) : Result := .next (s.out2 a b (BitVec.ofNat 64 (ptrSpace (s.portS .a))))

/-- R217. -/
def execPown (_p : Pred) (a b : Target) (s : State) : Result := .next (s.out2 a b (BitVec.ofNat 64 (ptrOwner (s.portS .a))))

/-- R217. -/
def execPadd (_p : Pred) (sh : BitVec 4) (a : Target) (i : BitVec 9) (s : State) : Result :=
  .next (s.out1 a (ptrAdd (s.portS .a) (simm9 i * 2 ^ sh.toNat)))

/-- R217. -/
def execPoff (_p : Pred) (a b : Target) (s : State) : Result := .next (s.out2 a b (BitVec.ofNat 64 (ptrOff (s.portS .a))))

end Sys2Proof.Machine
end

