-- ==== Sys2Proof/Machine/Float.lean ====
section
/-! DEFINITION. Scalar floating point, conversion and the counter-based generator (R194 to R198, R206). -/

namespace Sys2Proof.Machine

/-- The float that a port gives in a type (R58). -/
def State.floatPort (s : State) (t : Ty) (q : Port) : FVal := floatOf t (lowBits t (s.portS q))

/-- Delivers an encoding with zeros above, and raises flags (R43, R58). -/
def State.floatOut (s : State) (a b : Target) (r : Nat × Flags) : Result := .next ((s.raise r.2).out2 a b (BitVec.ofNat 64 r.1))

/-- A rounded operation under the effective mode and saturation (R194). -/
def State.roundOut (s : State) (t : Ty) (a b : Target) (x : FVal × Flags) : Result :=
  s.floatOut a b (roundOp t s.effMode s.effSat x)

/-- R194. -/
def execFadd (_p : Pred) (t : Ty) (a b : Target) (s : State) : Result :=
  s.roundOut t a b (fvAdd s.effMode (s.floatPort t .a) (s.floatPort t .b))

/-- R194: a − b is a + (−b), with the zero signs of R38. -/
def execFsub (_p : Pred) (t : Ty) (a b : Target) (s : State) : Result :=
  s.roundOut t a b (fvAdd s.effMode (s.floatPort t .a) (fvNeg (s.floatPort t .b)))

/-- R194. -/
def execFmul (_p : Pred) (t : Ty) (a b : Target) (s : State) : Result :=
  s.roundOut t a b (fvMul (s.floatPort t .a) (s.floatPort t .b))

/-- R194: rounded once. -/
def execFfma (_p : Pred) (t : Ty) (a b : Target) (s : State) : Result :=
  s.roundOut t a b (fvFma s.effMode (s.floatPort t .a) (s.floatPort t .b) (s.floatPort t .c))

/-- R194. -/
def execFdiv (_p : Pred) (t : Ty) (a b : Target) (s : State) : Result :=
  s.roundOut t a b (fvDiv (s.floatPort t .a) (s.floatPort t .b))

/-- R195. -/
def execFmin (_p : Pred) (t : Ty) (a b : Target) (s : State) : Result :=
  s.floatOut a b (floatMinMax t false (lowBits t (s.portS .a)) (lowBits t (s.portS .b)))

/-- R195. -/
def execFmax (_p : Pred) (t : Ty) (a b : Target) (s : State) : Result :=
  s.floatOut a b (floatMinMax t true (lowBits t (s.portS .a)) (lowBits t (s.portS .b)))

/-- R194, R195. -/
def execFabs (_p : Pred) (t : Ty) (a b : Target) (s : State) : Result :=
  s.floatOut a b (floatSign t false (lowBits t (s.portS .a)))

/-- R194, R195. -/
def execFneg (_p : Pred) (t : Ty) (a b : Target) (s : State) : Result :=
  s.floatOut a b (floatSign t true (lowBits t (s.portS .a)))

/-- R194. -/
def execFsqrt (_p : Pred) (t : Ty) (a b : Target) (s : State) : Result := s.roundOut t a b (fvSqrt (s.floatPort t .a))

/-- R194. -/
def execFrcp (_p : Pred) (t : Ty) (a b : Target) (s : State) : Result :=
  s.roundOut t a b (fvDiv (.num 1 0) (s.floatPort t .a))

/-- R194. -/
def execFrsq (_p : Pred) (t : Ty) (a b : Target) (s : State) : Result := s.roundOut t a b (fvRsq (s.floatPort t .a))

/-- R194. -/
def execFex2 (_p : Pred) (t : Ty) (a b : Target) (s : State) : Result := s.roundOut t a b (fvExp2 (s.floatPort t .a))

/-- R194. -/
def execFlg2 (_p : Pred) (t : Ty) (a b : Target) (s : State) : Result := s.roundOut t a b (fvLog2 (s.floatPort t .a))

/-- R196. -/
def execFcls (_p : Pred) (t : Ty) (a b : Target) (s : State) : Result :=
  .next (s.out2 a b (BitVec.ofNat 64 (floatClass t (lowBits t (s.portS .a)))))

/-- R198. -/
def execCvt (_p : Pred) (t : Ty) (a : Target) (src : Ty) (s : State) : Result :=
  let r := convert t src s.effMode s.effSat (lowBits src (s.portS .a))
  .next ((s.raise r.2).out1 a (extendTo t r.1))

/-- A float compare of ports A and B (R197). -/
def State.floatCmpOp (s : State) (t : Ty) (a b : Target) (c : FCmp) : Result :=
  let r := floatCmp t c (lowBits t (s.portS .a)) (lowBits t (s.portS .b))
  .next ((s.raise r.2).out2 a b (truth r.1))

/-- R197. -/
def execFcmpeq (_p : Pred) (t : Ty) (a b : Target) (s : State) : Result := s.floatCmpOp t a b .eq

/-- R197. -/
def execFcmplt (_p : Pred) (t : Ty) (a b : Target) (s : State) : Result := s.floatCmpOp t a b .lt

/-- R197. -/
def execFcmple (_p : Pred) (t : Ty) (a b : Target) (s : State) : Result := s.floatCmpOp t a b .le

/-- R197. -/
def execFcmpun (_p : Pred) (t : Ty) (a b : Target) (s : State) : Result := s.floatCmpOp t a b .un

/-- The rounds of `mix` (R206). -/
def mixRounds : Nat → BitVec 32 → BitVec 32 → BitVec 32 × BitVec 32
  | 0, x, y => (x, y)
  | n + 1, x, y =>
    let x1 := x + y
    let y1 := y.rotateLeft 13 ^^^ x1
    mixRounds n (x1.rotateLeft 17 + y1) y1

/-- `mix(K, C)` (R206). -/
def mix (k c : Word) : BitVec 32 :=
  let lo := fun (v : Word) => v.setWidth 32
  let hi := fun (v : Word) => (v >>> 32).setWidth 32
  let r := mixRounds 3 (lo k ^^^ lo c) (hi k ^^^ hi c ^^^ 0x9E3779B9)
  r.1 ^^^ r.2

/-- R206: the key is SR.SEED as it stood at the start of the firing, or port A. -/
def execRngc (_p : Pred) (v sd : Bool) (a b : Target) (s : State) : Result :=
  let key := if sd then (match s.here with | some (_, x) => x.seed | none => 0) else s.portS .a
  let c := s.portS .b
  .next (if v then s.outV2 a b (packW 32 ((List.range 16).map fun i => (mix key (c + BitVec.ofNat 64 i)).toNat))
    else s.out2 a b ((mix key c).setWidth 64))

end Sys2Proof.Machine
end

