-- ==== Sys2Proof/Machine/Vector.lean ====
section
/-! DEFINITION. Lane-wise vector operations, lane movement, reductions, selection, conversion and dot products (R191 to R205). -/

namespace Sys2Proof.Machine

/-- The flags of some lane results, ORed (R193). -/
def orFlags (l : List (Nat × Flags)) : Flags := l.foldl (fun f r => f ||| r.2) 0

/-- Delivers lane results to two consumers and raises their flags. -/
def State.lanesOut (s : State) (t : Ty) (a b : Target) (l : List (Nat × Flags)) : Result :=
  .next ((s.raise (orFlags l)).outV2 a b (packLanes t (l.map (·.1))))

/-- Delivers lane results to one consumer and raises their flags. -/
def State.lanesOut1 (s : State) (t : Ty) (a : Target) (l : List (Nat × Flags)) : Result :=
  .next ((s.raise (orFlags l)).outV1 a (packLanes t (l.map (·.1))))

/-- Lane i of ports A, B and C. -/
def State.laneA (s : State) (t : Ty) (i : Nat) : Nat := lane t (s.portV .a) i
def State.laneB (s : State) (t : Ty) (i : Nat) : Nat := lane t (s.portV .b) i
def State.laneC (s : State) (t : Ty) (i : Nat) : Nat := lane t (s.portV .c) i

/-- A lane-wise operation. -/
def State.laneOp (s : State) (t : Ty) (a b : Target) (f : Nat → Nat × Flags) : Result :=
  s.lanesOut t a b ((List.range t.lanes).map f)

/-- An integer lane result, wrapped or saturated (R193). -/
def State.intLane (s : State) (t : Ty) (x : Int) : Nat × Flags := (intBits t s.effSat x, 0)

/-- A float lane result, rounded once (R193). -/
def State.floatLane (s : State) (t : Ty) (x : FVal × Flags) : Nat × Flags := roundOp t s.effMode s.effSat x

/-- A lane-wise operation with an integer and a float form on ports A, B and C. -/
def State.arithLanes (s : State) (t : Ty) (a b : Target) (fi : Int → Int → Int → Int) (ff : FVal → FVal → FVal → FVal × Flags) :
    Result :=
  s.laneOp t a b fun i =>
    let x := s.laneA t i
    let y := s.laneB t i
    let z := s.laneC t i
    if t.isFloat then s.floatLane t (ff (floatOf t x) (floatOf t y) (floatOf t z))
    else s.intLane t (fi (intOf t x) (intOf t y) (intOf t z))

/-- R200. -/
def execVadd (_p : Pred) (t : Ty) (a b : Target) (s : State) : Result :=
  s.arithLanes t a b (fun x y _ => x + y) fun x y _ => fvAdd s.effMode x y

/-- R200. -/
def execVsub (_p : Pred) (t : Ty) (a b : Target) (s : State) : Result :=
  s.arithLanes t a b (fun x y _ => x - y) fun x y _ => fvAdd s.effMode x (fvNeg y)

/-- R200. -/
def execVmul (_p : Pred) (t : Ty) (a b : Target) (s : State) : Result :=
  s.arithLanes t a b (fun x y _ => x * y) fun x y _ => fvMul x y

/-- R200: one rounding or one wrap. -/
def execVfma (_p : Pred) (t : Ty) (a b : Target) (s : State) : Result :=
  s.arithLanes t a b (fun x y z => x * y + z) fun x y z => fvFma s.effMode x y z

/-- Minimum or maximum of two lanes (R195, R200). -/
def laneMinMax (t : Ty) (max : Bool) (x y : Nat) : Nat × Flags :=
  if t.isFloat then floatMinMax t max x y
  else (if xor (decide (intOf t x ≤ intOf t y)) max then x else y, 0)

/-- R200. -/
def execVmin (_p : Pred) (t : Ty) (a b : Target) (s : State) : Result :=
  s.laneOp t a b fun i => laneMinMax t false (s.laneA t i) (s.laneB t i)

/-- R200. -/
def execVmax (_p : Pred) (t : Ty) (a b : Target) (s : State) : Result :=
  s.laneOp t a b fun i => laneMinMax t true (s.laneA t i) (s.laneB t i)

/-- R200. -/
def execVabs (_p : Pred) (t : Ty) (a b : Target) (s : State) : Result :=
  s.laneOp t a b fun i =>
    let x := s.laneA t i
    if t.isFloat then floatSign t false x else s.intLane t (if intOf t x < 0 then -intOf t x else intOf t x)

/-- R200. -/
def execVneg (_p : Pred) (t : Ty) (a b : Target) (s : State) : Result :=
  s.laneOp t a b fun i => if t.isFloat then floatSign t true (s.laneA t i) else s.intLane t (-intOf t (s.laneA t i))

/-- R200. -/
def execVand (_p : Pred) (a b : Target) (s : State) : Result := .next (s.outV2 a b (s.portV .a &&& s.portV .b))

/-- R200. -/
def execVor (_p : Pred) (a b : Target) (s : State) : Result := .next (s.outV2 a b (s.portV .a ||| s.portV .b))

/-- R200. -/
def execVxor (_p : Pred) (a b : Target) (s : State) : Result := .next (s.outV2 a b (s.portV .a ^^^ s.portV .b))

/-- R200: the count is zext(b, w). -/
def execVshl (_p : Pred) (t : Ty) (a b : Target) (s : State) : Result :=
  s.laneOp t a b fun i => s.intLane t (shiftLeft t (intOf t (s.laneA t i)) (s.laneB t i))

/-- R200. -/
def execVshr (_p : Pred) (t : Ty) (a b : Target) (s : State) : Result :=
  s.laneOp t a b fun i => (intBits t false (shiftRight t (intOf t (s.laneA t i)) (s.laneB t i)), 0)

/-- R200. -/
def execVsar (_p : Pred) (t : Ty) (a b : Target) (s : State) : Result :=
  s.laneOp t a b fun i => (intBits t false (shiftArith t (intOf t (s.laneA t i)) (s.laneB t i)), 0)

/-- All ones or zero. -/
def laneMask (t : Ty) (c : Bool) : Nat := if c then 2 ^ t.width - 1 else 0

/-- A lane-wise compare (R197, R200). -/
def State.cmpLanes (s : State) (t : Ty) (a b : Target) (c : FCmp) (f : Int → Int → Bool) : Result :=
  s.laneOp t a b fun i =>
    if t.isFloat then let r := floatCmp t c (s.laneA t i) (s.laneB t i); (laneMask t r.1, r.2)
    else (laneMask t (f (intOf t (s.laneA t i)) (intOf t (s.laneB t i))), 0)

/-- R200. -/
def execVcmpeq (_p : Pred) (t : Ty) (a b : Target) (s : State) : Result := s.cmpLanes t a b .eq fun x y => decide (x = y)

/-- R200. -/
def execVcmplt (_p : Pred) (t : Ty) (a b : Target) (s : State) : Result := s.cmpLanes t a b .lt fun x y => decide (x < y)

/-- R200. -/
def execVcmple (_p : Pred) (t : Ty) (a b : Target) (s : State) : Result := s.cmpLanes t a b .le fun x y => decide (x ≤ y)

/-- R200. -/
def execVex2 (_p : Pred) (t : Ty) (a b : Target) (s : State) : Result :=
  s.laneOp t a b fun i => s.floatLane t (fvExp2 (floatOf t (s.laneA t i)))

/-- R200. -/
def execVrcp (_p : Pred) (t : Ty) (a b : Target) (s : State) : Result :=
  s.laneOp t a b fun i => s.floatLane t (fvDiv (.num 1 0) (floatOf t (s.laneA t i)))

/-- R200. -/
def execVrsq (_p : Pred) (t : Ty) (a b : Target) (s : State) : Result :=
  s.laneOp t a b fun i => s.floatLane t (fvRsq (floatOf t (s.laneA t i)))

/-! ## Moving lanes (R193, R201) -/

/-- R201. -/
def execVsel (_p : Pred) (t : Ty) (a b : Target) (s : State) : Result :=
  s.laneOp t a b fun i => moveBits t (if s.laneC t i = 0 then s.laneB t i else s.laneA t i)

/-- R201. -/
def execVbcast (_p : Pred) (t : Ty) (a b : Target) (s : State) : Result :=
  s.laneOp t a b fun _ => moveBits t (lowBits t (s.portS .a))

/-- R201. -/
def execVext (_p : Pred) (t : Ty) (a b : Target) (s : State) : Result :=
  let k := s.count
  let r := if k < t.lanes then moveBits t (s.laneA t k) else (0, 0)
  .next ((s.raise r.2).out2 a b (extendTo t r.1))

/-- R201. -/
def execVins (_p : Pred) (t : Ty) (a b : Target) (s : State) : Result :=
  s.laneOp t a b fun i => moveBits t (if i = (s.portS .c).toNat then lowBits t (s.portS .b) else s.laneA t i)

/-- R201. -/
def execVperm (_p : Pred) (t : Ty) (a b : Target) (s : State) : Result :=
  s.laneOp t a b fun i => let j := s.laneB t i; if j < t.lanes then moveBits t (s.laneA t j) else (0, 0)

/-- R201. -/
def execVshuf (_p : Pred) (t : Ty) (a b : Target) (s : State) : Result :=
  s.laneOp t a b fun i =>
    let j := s.laneC t i
    if j < t.lanes then moveBits t (s.laneA t j)
    else if j < 2 * t.lanes then moveBits t (s.laneB t (j - t.lanes)) else (0, 0)

/-- R201. -/
def execViota (_p : Pred) (t : Ty) (a b : Target) (s : State) : Result :=
  s.laneOp t a b fun i => ((lowBits t (s.portS .a) + i) % 2 ^ t.width, 0)

/-- R201. -/
def execVcnt (_p : Pred) (t : Ty) (a b : Target) (s : State) : Result :=
  .next (s.out2 a b (BitVec.ofNat 64 ((lanes t (s.portV .a)).filter fun x => x != 0).length))

/-- The lanes of A whose lane of B is set, in order. -/
def State.picked (s : State) (t : Ty) : List Nat :=
  ((List.range t.lanes).filter fun i => s.laneB t i != 0).map fun i => s.laneA t i

/-- R201. -/
def execVcmprs (_p : Pred) (t : Ty) (a b : Target) (s : State) : Result := s.lanesOut t a b ((s.picked t).map (moveBits t))

/-- Set lanes among the first i lanes of B. -/
def State.rankB (s : State) (t : Ty) (i : Nat) : Nat := ((List.range i).filter fun k => s.laneB t k != 0).length

/-- R201. -/
def execVexpnd (_p : Pred) (t : Ty) (a b : Target) (s : State) : Result :=
  s.laneOp t a b fun i => if s.laneB t i = 0 then (0, 0) else moveBits t (s.laneA t (s.rankB t i))

/-! ## Reductions, scans, selection (R49, R50, R202 to R204) -/

/-- One level of the pairwise tree (R49). -/
def treeLevel (f : Nat → Nat → Nat × Flags) : List Nat → List Nat × Flags
  | x :: y :: r =>
    let z := f x y
    let w := treeLevel f r
    (z.1 :: w.1, z.2 ||| w.2)
  | l => (l, 0)

/-- The pairwise tree; the first argument bounds its levels (R49). -/
def treeReduce (f : Nat → Nat → Nat × Flags) : Nat → List Nat → Nat × Flags
  | 0, l => (l.getD 0 0, 0)
  | n + 1, l =>
    let w := treeLevel f l
    let r := treeReduce f n w.1
    (r.1, w.2 ||| r.2)

/-- The type a reduction works in: F32 for floats (R49). -/
def reduceTy (t : Ty) : Ty := if t.isFloat then .f32 else t

/-- The identity of an operation (R49, R202). -/
def redIdentity (t : Ty) (o : RedOp) : Nat :=
  if t.isFloat then (match o with | .add => 0x80000000 | .min => 0x7F800000 | .max => 0xFF800000)
  else match o with | .add => 0 | .min => wrapNat t.width (tyMax t) | .max => wrapNat t.width (tyMin t)

/-- One combination of a reduction (R49, R195, R202). -/
def redCombine (t : Ty) (mode : Rnd) (o : RedOp) (x y : Nat) : Nat × Flags :=
  match o with
  | .add => if t.isFloat then f32Add mode x y else (intBits t false (intOf t x + intOf t y), 0)
  | .min => laneMinMax (reduceTy t) false x y
  | .max => laneMinMax (reduceTy t) true x y

/-- A lane as a float reduction takes it: exactly in F32 (R49, R50). -/
def redLane (t : Ty) (x : Nat) : Nat × Flags :=
  if t.isFloat && t != .f32 then convert .f32 t .rne false x else (x, 0)

/-- R202. -/
def execVred (_p : Pred) (t : Ty) (a : Target) (m : Bool) (o : RedOp) (s : State) : Result :=
  let xs := (List.range t.lanes).map fun i => if m ∧ s.laneB t i = 0 then (redIdentity t o, 0) else redLane t (s.laneA t i)
  let r := treeReduce (redCombine t s.effMode o) 7 (xs.map (·.1))
  let q := if t.isFloat then roundOp t s.effMode false (floatOf .f32 r.1, (floatOf .f32 r.1).sigFlag) else (r.1, 0)
  .next ((s.raise (orFlags xs ||| r.2 ||| q.2)).out1 a (extendTo t q.1))

/-- Prefix sums in F32; the list holds the sums so far with the flags of each step (R50). -/
def scanFloat (mode : Rnd) : Nat → List Nat → List (Nat × Flags)
  | _, [] => []
  | acc, x :: r => let y := f32Add mode acc x; y :: scanFloat mode y.1 r

/-- Prefix sums of integers, wrapped (R203). -/
def scanInt (t : Ty) : Int → List Nat → List (Nat × Flags)
  | _, [] => []
  | acc, x :: r => let y := intBits t false (acc + intOf t x); (y, 0) :: scanInt t (intOf t y) r

/-- R203. -/
def execVscan (_p : Pred) (t : Ty) (a b : Target) (s : State) : Result :=
  if t.isFloat then
    let xs := (lanes t (s.portV .a)).map (redLane t)
    let first := moveBits .f32 ((xs.map (·.1)).getD 0 0)
    let sums := first :: scanFloat s.effMode first.1 ((xs.map (·.1)).drop 1)
    let rs := sums.map fun y => let q := roundOp t s.effMode false (floatOf .f32 y.1, 0); (q.1, q.2 ||| y.2)
    .next ((s.raise (orFlags xs ||| orFlags rs)).outV2 a b (packLanes t (rs.map (·.1))))
  else s.lanesOut t a b (scanInt t 0 (lanes t (s.portV .a)))

/-- Key order of VTOPK: every NaN below −∞, and −0 below +0 (R204). -/
def topKey (t : Ty) (x : Nat) : Int :=
  if t.isFloat then (if (floatOf t x).isNan then -(2 ^ 64) else orderKey t x) else intOf t x

/-- Inserts a lane index behind every key that is not smaller. -/
def insertKey (k : Int × Nat) : List (Int × Nat) → List (Int × Nat)
  | [] => [k]
  | x :: r => if x.1 < k.1 then k :: x :: r else x :: insertKey k r

/-- R204; it raises no flag. -/
def execVtopk (_p : Pred) (t : Ty) (a : Target) (x : Bool) (k : Fin 128) (s : State) : Result :=
  let keys := (List.range t.lanes).map fun i => (topKey t (s.laneA t i), i)
  let order := (keys.foldl (fun l e => insertKey e l) []).map (·.2)
  let out := (order.take (k.val + 1)).map fun j => if x then j else (moveBits t (s.laneA t j)).1
  .next (s.outV1 a (packLanes t out))

/-! ## Conversion and dot products -/

/-- R199. -/
def execVcvt (_p : Pred) (t : Ty) (a : Target) (sd : Bool) (q : Fin 16) (c : Ty) (s : State) : Result :=
  let ns := c.lanes
  let nd := t.lanes
  let n := Nat.min ns nd
  let cv := (List.range n).map fun i =>
    let x := s.laneA c ((if nd < ns then q.val * n else 0) + i)
    if sd then stochastic t s.effSat x (laneW 32 (s.portV .c) i) else convert t c s.effMode s.effSat x
  let at_ := if ns < nd then q.val * n else 0
  let out := (List.range nd).map fun j =>
    if at_ ≤ j ∧ j < at_ + n then ((cv.map (·.1)).getD (j - at_) 0) else s.laneB t j
  .next ((s.raise (orFlags cv)).outV1 a (packLanes t out))

/-- The blocks of a float VDOT, in ascending order (R47, R205). -/
def State.dotBlocks (s : State) (t c : Ty) (mx : Bool) : List Nat → Nat → Nat × Flags
  | [], acc => (acc, 0)
  | b :: r, acc =>
    let cc := (s.portS .c).toNat
    let ea := if mx then bits cc (39 + 8 * b) (32 + 8 * b) else 127
    let ew := if mx then bits cc (55 + 8 * b) (48 + 8 * b) else 127
    let ps := (List.range 32).map fun i => (floatOf t (s.laneA t (32 * b + i)), floatOf c (s.laneB c (32 * b + i)))
    let x := dotBlock ea ew ps
    let y := f32Add .rne acc x.1
    let z := s.dotBlocks t c mx r y.1
    (z.1, x.2 ||| y.2 ||| z.2)

/-- R205. -/
def execVdot (_p : Pred) (t : Ty) (a : Target) (m : Bool) (c : Ty) (s : State) : Result :=
  let acc := bf (s.portS .c) 31 0
  if t.isFloat then
    let r := s.dotBlocks t c m (List.range (t.lanes / 32)) acc
    .next ((s.raise r.2).out1 a (BitVec.ofNat 64 r.1))
  else
    let sum := ((List.range 64).map fun i => intOf t (s.laneA t i) * intOf c (s.laneB c i)).foldl (· + ·) 0
    .next (s.out1 a (extendTo .i32 (wrapNat 32 (toSigned 32 acc + sum))))

end Sys2Proof.Machine
end

