-- ==== Sys2Proof/Machine/Handles.lean ====
section
/-! DEFINITION. The handle instructions, filled and free counts, and the lane-group instructions (R11, R170, R185, R207 to R210). -/

namespace Sys2Proof.Machine

/-- An imprecise fatal fault of an input edge: it names the consumer, the handle and the token position (R21, R331). -/
def State.streamFault (s : State) (code : TrapCode) (rank la h pos : Nat) : State :=
  match s.actor? rank la with
  | none => s
  | some a =>
    let addr := BitVec.ofNat 64 (a.aidx % 65536 * 2 ^ 48 + h % 16 * 2 ^ 44)
    s.fatalTrap { s.mkTrap (lidPart a.lid) a.lid a.g rank code 0 addr (BitVec.ofNat 64 pos) with actor := la }

/-! ## Handle instructions (R185) -/

/-- The payload that a POKE, POKET or EMIT writes: a vector, or a scalar in bytes 0 to 7. -/
def State.payload (s : State) (v : Bool) (q : Port) : Vec := if v then s.portV q else (s.portS q).setWidth 512

/-- A read at an offset is refused: in a DET launch for a `var` input at or past its rate (R323), and at or past the bound (R185). -/
def State.readCheck (s : State) (f : Firing) (a : Actor) (h off : Nat) : Option (TrapCode × Word) :=
  let w := a.desc.handle h
  if s.hereDet ∧ w.var ∧ w.rate ≤ off then some (.privilege, 0)
  else if handleBound f a.desc h ≤ off then some (.rateViolation, BitVec.ofNat 64 off)
  else none

/-- Performs `k` on the token at an offset of an input handle, after the checks. -/
def State.withToken (s : State) (h off : Nat) (k : Firing → Actor → List Queued → State) : Result :=
  match s.here with
  | none => .next s
  | some (f, a) =>
    match s.readCheck f a h off with
    | some (c, aux) => .next (s.faultHere c aux)
    | none => .next (k f a (s.unitAt s.focus.rank f.la h off (a.desc.handle h).tile))

/-- The payload of the n-th flit, or zero. -/
def flitPay (l : List Queued) (n : Nat) : Vec := match l[n]? with | some q => q.tok.pay | none => 0

/-- Delivers a flit as a vector, or its lane 0 in a type. -/
def State.flitOut (s : State) (t : BitVec 4) (a : Target) (v : Bool) (x : Vec) : State :=
  if v then s.outV1 a x else s.out1 a (match Ty.ofCode t with | some t => extendTo t (lane t x 0) | none => 0)

/-- R185. -/
def execPeek (_p : Pred) (t : BitVec 4) (a : Target) (v : Bool) (h o : Fin 16) (s : State) : Result :=
  s.withToken h.val o.val fun _ _ l => s.flitOut t a v (flitPay l 0)

/-- R185. -/
def execPoke (_p : Pred) (v : Bool) (h o : Fin 16) (s : State) : Result :=
  .next (s.poke s.focus.rank s.focus.id h.val o.val .data none (s.payload v .a))

/-- The count that ADVR, ADVW and ANTI take, or RateViolation for a port count above 63. -/
def State.withCount (s : State) (d : Bool) (n : Fin 32) (k : Nat → State) : Result :=
  .next (if d then (if 63 < (s.portS .a).toNat then s.faultHere .rateViolation (s.portS .a) else k (s.portS .a).toNat) else k n.val)

/-- Adds to the pending advance of a handle. -/
def State.addPend (s : State) (h n : Nat) : State :=
  s.modFiring s.focus.rank fun f => { f with pend := f.pend.modify h (· + n) }

/-- R185. -/
def execAdvr (_p : Pred) (d : Bool) (h : Fin 16) (n : Fin 32) (s : State) : Result := s.withCount d n fun c => s.addPend h.val c

/-- R185. -/
def execAdvw (_p : Pred) (d : Bool) (h : Fin 16) (n : Fin 32) (s : State) : Result := s.withCount d n fun c => s.addPend h.val c

/-- R185: the anti-tokens are sent at commit step 2. -/
def execAnti (_p : Pred) (d : Bool) (h : Fin 16) (n : Fin 32) (s : State) : Result :=
  s.withCount d n fun c => s.modFiring s.focus.rank fun f => { f with antis := f.antis.modify h.val (· + c) }

/-- Delivers a count of the snapshot; Privilege in a DET launch (R323). -/
def State.countOut (s : State) (a : Target) (n : Firing → Nat) : Result :=
  match s.here with
  | none => .next s
  | some (f, _) => .next (if s.hereDet then s.faultHere .privilege 0 else s.out1 a (BitVec.ofNat 64 (n f)))

/-- R185: 0 in a flushing firing, where EOS stands at the head (R171). -/
def execHcnt (_p : Pred) (a : Target) (h : Fin 16) (s : State) : Result := s.countOut a fun f => f.snap.getD h.val 0

/-- R185: flit slots for a TILE handle. -/
def execHfree (_p : Pred) (a : Target) (h : Fin 16) (s : State) : Result := s.countOut a fun f => f.snap.getD h.val 0

/-- R185. -/
def execTkind (_p : Pred) (a : Target) (h o : Fin 16) (s : State) : Result :=
  s.withToken h.val o.val fun _ _ l =>
    match l[0]? with
    | some q => s.out1 a (BitVec.ofNat 64 (q.tok.tag.toNat * 65536 + q.tok.kind.code))
    | none => s.out1 a 0

/-- A HEAD whose TY is 15 is IllegalEncoding where it is emitted (R20). -/
def badHead (k : Kind) (pay : Vec) : Bool := k == .head && bf pay 511 508 == 15

/-- R185: kinds above 8 are IllegalEncoding at issue (R19). -/
def execEmit (_p : Pred) (k : BitVec 4) (v : Bool) (h o : Fin 16) (s : State) : Result :=
  let pay := s.payload v .a
  match Kind.ofCode k.toNat with
  | some kd =>
    .next (if 8 < k.toNat ∨ badHead kd pay then s.faultHere .illegalEncoding 0
      else s.poke s.focus.rank s.focus.id h.val o.val kd (some (if k.toNat ≤ 3 then (s.portS .b).setWidth 32 else 0)) pay)
  | none => .next (s.faultHere .illegalEncoding 0)

/-- NDATA of a burst. -/
def unitNdata (l : List Queued) : Nat := l.length - 1

/-- R185: flit 0 is the HEAD. -/
def execPeekt (_p : Pred) (t : BitVec 4) (a : Target) (v : Bool) (h o : Fin 16) (s : State) : Result :=
  s.withToken h.val o.val fun _ _ l =>
    let j := (s.portS .a).toNat
    if unitNdata l < j then s.faultHere .rateViolation (s.portS .a) else s.flitOut t a v (flitPay l j)

/-- R185. -/
def execPoket (_p : Pred) (v : Bool) (h o : Fin 16) (s : State) : Result :=
  match s.here with
  | none => .next s
  | some (f, a) =>
    let j := (s.portS .a).toNat
    let pay := s.payload v .b
    .next (if handleBound f a.desc h.val ≤ o.val then s.faultHere .rateViolation (BitVec.ofNat 64 o.val)
      else if 16 < j then s.faultHere .rateViolation (s.portS .a)
      else if j = 0 ∧ badHead .head pay then s.faultHere .illegalEncoding 0
      else s.putOut s.focus.rank s.focus.id h.val o.val j (if j = 0 then .head else .body) none pay)

/-! ## Lane groups (R207 to R210) -/

/-- Groups of a width. -/
def LaneGroups.count (g : LaneGroups) : Nat := 16 / 2 ^ g.w

/-- Status word of lane-group state (R208). -/
def LaneGroups.status (g : LaneGroups) : Word :=
  let b := fun i => g.occ.getLsbD i
  let fin := ((List.range 16).filter fun i => b i && g.step.getD i 0 == 0).foldl (fun n i => n + 2 ^ i) 0
  let occ := ((List.range 16).filter b).foldl (fun n i => n + 2 ^ (16 + i)) 0
  BitVec.ofNat 64 (fin + occ)

/-- One of LGLEN, LGPACK and LGDONE writes in a firing; a second one is IllegalEncoding at its issue (R207). -/
def State.oneLg (s : State) (k : Firing → Actor → State) : Result :=
  match s.here with
  | none => .next s
  | some (f, a) => .next (if f.lgUsed then s.faultHere .illegalEncoding 0 else k f a)

/-- Holds the new lane-group state until commit. -/
def State.holdLg (s : State) (g : LaneGroups) : State :=
  s.modFiring s.focus.rank fun f => { f with lgW := some g, lgUsed := true }

/-- The state that LGLEN makes: every group of the new width is occupied, or none (R208). -/
def lgLen (w : Nat) (empty : Bool) (x : Vec) : LaneGroups :=
  { w, occ := (if empty then 0 else BitVec.ofNat 16 (2 ^ (16 / 2 ^ w) - 1)),
    step := (List.range 16).map fun g => if empty ∨ 16 / 2 ^ w ≤ g then 0 else BitVec.ofNat 32 (laneW 32 x g),
    sid := (List.range 16).map fun g => if 16 / 2 ^ w ≤ g then 0 else BitVec.ofNat 32 g }

/-- R208. -/
def execLglen (_p : Pred) (a : Target) (e : Bool) (w : Fin 4) (s : State) : Result :=
  s.oneLg fun _ _ =>
    let g := lgLen w.val e (s.portV .a)
    (s.holdLg g).out1 a g.status

/-- R208. -/
def execLgdone (_p : Pred) (a b : Target) (s : State) : Result :=
  s.oneLg fun _ x =>
    let g := { x.lg with step := x.lg.step.zipIdx.map fun e => if x.lg.occ.getLsbD e.2 && e.1 != 0 then e.1 - 1 else e.1 }
    (s.holdLg g).out2 a b g.status

/-- LGPACK as it goes through the groups: the vector, tokens taken, tokens handed out, the new state, and the output writes. -/
structure Packing where
  v    : List Nat
  t    : Nat
  e    : Nat
  lg   : LaneGroups
  outs : List (Nat × BitVec 32 × Vec)
  stop : Option (TrapCode × Nat)
  deriving DecidableEq, Repr

/-- One group of LGPACK (R209); `ins` are the tokens that the input bound admits, `bo` the output bound. -/
def packGroup (old : LaneGroups) (ins : List Queued) (bo : Nat) (p : Packing) (g : Nat) : Packing :=
  let n := 2 ^ old.w
  let mine := (List.range n).map fun i => p.v.getD (g * n + i) 0
  if p.stop.isSome then p
  else
    let done := old.occ.getLsbD g && old.step.getD g 0 == 0
    if done && decide (bo ≤ p.e) then { p with stop := some (.rateViolation, p.e) }
    else
      let p1 := if done then
          { p with
            e := p.e + 1, outs := p.outs ++ [(p.e, old.sid.getD g 0, packW 32 mine)]
            lg := { p.lg with occ := p.lg.occ &&& ~~~(BitVec.ofNat 16 (2 ^ g)) } }
        else p
      if p1.lg.occ.getLsbD g then p1
      else match ins[p1.t]? with
        | none => p1
        | some q =>
          if q.tok.kind ≠ .data then { p1 with stop := some (.malformedStream, q.pos) }
          else
            { p1 with
              t := p1.t + 1
              v := p1.v.zipIdx.map fun x => if g * n ≤ x.2 ∧ x.2 < g * n + n then laneW 32 q.tok.pay (x.2 - g * n) else x.1
              lg := { p1.lg with
                occ := p1.lg.occ ||| BitVec.ofNat 16 (2 ^ g), step := p1.lg.step.set g (BitVec.ofNat 32 (laneW 32 q.tok.pay 15)),
                sid := p1.lg.sid.set g q.tok.tag } }

/-- R209. -/
def execLgpack (_p : Pred) (a : Target) (i o : Fin 16) (s : State) : Result :=
  s.oneLg fun f x =>
    let ins := ((match s.inEdge s.focus.rank f.la i.val with | some (_, e) => e.fifo | none => []).take (handleBound f x.desc i.val))
    let p0 : Packing := {
      v := (List.range 16).map fun k => laneW 32 (s.portV .a) k, t := 0, e := 0, lg := x.lg, outs := [], stop := none }
    let p := (List.range x.lg.count).foldl (packGroup x.lg ins (handleBound f x.desc o.val)) p0
    match p.stop with
    | some (.malformedStream, pos) => s.streamFault .malformedStream s.focus.rank f.la i.val pos
    | some (c, n) => s.faultHere c (BitVec.ofNat 64 n)
    | none =>
      let s1 := p.outs.foldl (fun s w => s.putOut s.focus.rank s.focus.id o.val w.1 0 .data (some w.2.1) w.2.2) (s.holdLg p.lg)
      ((s1.addPend i.val p.t).addPend o.val p.e).outV1 a (packW 32 p.v)

/-- One row of an affine step: the addend and the columns in ascending order, each step rounded once (R210). -/
def rowStep (mode : Rnd) : List (Nat × Nat) → Nat → Nat × Flags
  | [], acc => (acc, 0)
  | (m, x) :: r, acc =>
    let y := roundOp .f32 mode false (fvFma mode (floatOf .f32 m) (floatOf .f32 x) (floatOf .f32 acc))
    let z := rowStep mode r y.1
    (z.1, y.2 ||| z.2)

/-- An affine step of the groups that are covered and active; `at_ g` is the lane of B where the matrix of group g begins. -/
def State.affine (s : State) (a : Target) (lg : LaneGroups) (cov : Nat → Bool) (at_ : Nat → Nat) : State :=
  let n := 2 ^ lg.w
  let rs := (List.range 16).map fun l =>
    let g := l / n
    let row := l % n
    if lg.occ.getLsbD g && lg.step.getD g 0 != 0 && cov g then
      rowStep s.effMode ((List.range n).map fun c => (laneW 32 (s.portV .b) (at_ g + row * n + c), laneW 32 (s.portV .a) (g * n + c)))
        (laneW 32 (s.portV .c) l)
    else (laneW 32 (s.portV .a) l, 0)
  (s.raise (orFlags rs)).outV1 a (packW 32 (rs.map (·.1)))

/-- R210. -/
def execBmv (_p : Pred) (a : Target) (s : State) : Result :=
  match s.here with
  | none => .next s
  | some (_, x) => .next (s.affine a x.lg (fun _ => true) fun _ => 0)

/-- R210: q at or above G is IllegalEncoding at issue. -/
def execBmm (_p : Pred) (a : Target) (q : Fin 4) (s : State) : Result :=
  match s.here with
  | none => .next s
  | some (_, x) =>
    let n := 2 ^ x.lg.w
    let pp := 16 / (n * n)
    .next (if n ≤ q.val then s.faultHere .illegalEncoding 0
      else s.affine a x.lg (fun g => decide (q.val * pp ≤ g) && decide (g < q.val * pp + pp)) fun g => (g - q.val * pp) * n * n)

end Sys2Proof.Machine
end

