-- ==== Sys2Proof/Machine/Streams.lean ====
section
/-! DEFINITION. Tokens on edges: publishing, landing with the checks of the input stage, anti-tokens, join steps, markers and end of
stream (R14 to R21, R129, R134, R135, R162, R169 to R180, R252 to R255, R342, R343). -/

namespace Sys2Proof.Machine

/-- An anti-token removes nothing when it meets such a token (R129, R174). -/
def Kind.stopsAnti : Kind → Bool
  | .stop _ | .eos | .reconf => true
  | .data | .head | .body | .tail | .marker | .mswap | .ord | .stat => false

/-- The consumer handle of an edge is TILE; such an edge is a TILE edge for its anti-tokens (R174; log entry 17). -/
def State.tileEdge (s : State) (e : Edge) : Bool :=
  match s.actor? e.crank e.cla with | some a => (a.desc.handle e.ch).tile | none => false

/-- Counts discarded anti-tokens of an element (R174; log entry 17). -/
def State.discardAnti (s : State) (rank n : Nat) : State := { s with discards := alAdd s.discards rank n }

/-- The output handle at the producer's end has carried EOS (R173). -/
def State.eosCarried (s : State) (e : Edge) : Bool :=
  match s.actor? e.prank e.pla with | some a => a.eosOut.getD e.ph false | none => false

/-- An imprecise fatal fault of an input edge that names a second edge (R331). -/
def State.streamFault2 (s : State) (rank la h h2 pos : Nat) : State :=
  match s.actor? rank la with
  | none => s
  | some a =>
    let addr := BitVec.ofNat 64
      (a.aidx % 65536 * 2 ^ 48 + h % 16 * 2 ^ 44 + a.aidx % 65536 * 2 ^ 24 + h2 % 16 * 2 ^ 20)
    s.fatalTrap { s.mkTrap (lidPart a.lid) a.lid a.g rank .malformedStream 0 addr (BitVec.ofNat 64 pos) with actor := la }

/-! ## Anti-tokens -/

/-- What an anti-token finds: it removed a token, met one that it cannot remove, or found none. -/
inductive AntiHit where
  | removed (e : Edge)
  | stopped
  | absent
  deriving DecidableEq, Repr

/-- Marks the first n flights that are neither marked nor MARKERs, and says how many were not there. -/
def markN : Nat → List Flight → List Flight × Nat
  | 0, l => (l, 0)
  | n + 1, [] => ([], n + 1)
  | n + 1, f :: r =>
    if f.marked || f.tok.kind == .marker then let x := markN (n + 1) r; (f :: x.1, x.2)
    else let x := markN n r; ({ f with marked := true } :: x.1, x.2)

/-- Flits of the token that begins with a flit; a burst is one token of a TILE edge (R11, R174). -/
def flitsOf (tile : Bool) (t : Token) : Nat := if tile && t.kind == .head then 1 + headNdata t.pay else 1

/-- The oldest token that is pushed but still travelling gets its arrival mark (R174); what is missing of a burst is annihilated
when it is pushed. -/
def Edge.antiLink (e : Edge) (tile : Bool) : AntiHit :=
  match e.link.find? fun f => !f.marked && f.tok.kind != .marker with
  | none => .absent
  | some f =>
    if f.tok.kind.stopsAnti then .stopped
    else let x := markN (flitsOf tile f.tok) e.link; .removed { e with link := x.1, dropping := e.dropping || x.2 != 0 }

/-- The oldest token in the FIFO is annihilated there (R174). Of a burst that has landed in part the rest goes too, so no burst stays open. -/
def Edge.antiFifo (e : Edge) (tile : Bool) : AntiHit :=
  match e.fifo with
  | [] => .absent
  | q :: _ =>
    if q.tok.kind.stopsAnti then .stopped
    else
      let n := flitsOf tile q.tok
      let x := markN (n - e.fifo.length) e.link
      .removed { e with
        fifo := e.fifo.drop n, link := x.1, dropping := e.dropping || x.2 != 0, burst := if e.fifo.length < n then none else e.burst }

/-- An anti-token is sent on an input handle (R174). One that finds no pushed token travels to the producer. -/
def State.sendAnti (s : State) (rank la h : Nat) : State :=
  match s.inEdge rank la h with
  | none => s
  | some (i, e) =>
    let travel := s.modEdge i fun e => { e with antis := e.antis + 1 }
    if e.antis ≠ 0 then travel
    else
      let tile := s.tileEdge e
      match (match e.antiFifo tile with | .absent => e.antiLink tile | .removed x => .removed x | .stopped => .stopped) with
      | .removed x => s.modEdge i fun _ => x
      | .stopped => s.discardAnti rank 1
      | .absent => travel

/-- Sends n anti-tokens. -/
def State.sendAntis (s : State) (rank la h : Nat) : Nat → State
  | 0 => s
  | n + 1 => State.sendAntis (s.sendAnti rank la h) rank la h n

/-- ANTI_TOKEN_ARRIVAL (R129, R174 to R176): an anti-token reaches the producer. -/
def execAntiTokenArrival (i : Nat) (s : State) : Result :=
  match s.edge? i with
  | none => .next s
  | some e =>
    if e.antis = 0 ∨ !s.running e.lid then .next s
    else
      let s1 := s.modEdge i fun e => { e with antis := e.antis - 1 }
      match ({ e with antis := e.antis - 1 } : Edge).antiLink (s.tileEdge e) with
      | .removed x => .next (s1.modEdge i fun _ => x)
      | .stopped => .next (s1.discardAnti e.prank 1)
      | .absent =>
        if s.eosCarried e then .next (s1.discardAnti e.prank 1)
        else if 255 ≤ e.owed then .next (s1.streamFault .antiOverflow e.crank e.cla e.ch 0)
        else .next (s1.modEdge i fun e => { e with owed := e.owed + 1 })

/-! ## Publishing -/

/-- Bridges and steps that a flit has before it when it is published: each bridge, and in a DET launch one boundary more (R324). -/
def Edge.hopsAll (e : Edge) : Nat := if e.det && e.bridges.length != 0 then e.bridges.length + 1 else e.bridges.length

/-- Puts a flit on the link of an edge. In a DET launch a flit that has crossed its last bridge waits for one more boundary before it is
visible (R324). -/
def Edge.sendFlit (e : Edge) (t : Token) : Edge :=
  { e with link := e.link ++ [{ tok := t, hops := e.hopsAll, retries := 0, marked := false }] }

/-- Publishes one flit on an edge; an owed anti-token annihilates it (R129, R173, R176). -/
def State.pushTok (s : State) (i : Nat) (t : Token) : State :=
  match s.edge? i with
  | none => s
  | some e =>
    match t.kind with
    | .eos =>
      ((s.discardAnti e.prank e.owed).modEdge i fun e => { e with owed := 0 }.sendFlit t).modActor e.prank e.pla
        fun a => { a with eosOut := a.eosOut.set e.ph true }
    | .reconf =>
      (s.modEdge i fun e => { e with owed := 0, dropping := false }.sendFlit t).modActor e.prank e.pla
        fun a => { a with recOut := a.recOut ||| BitVec.ofNat 16 (2 ^ e.ph) }
    | .stop _ | .marker => s.modEdge i fun e => e.sendFlit t
    | .data | .head | .body | .tail | .mswap | .ord | .stat =>
      if e.dropping && (t.kind == .body || t.kind == .tail) then s.modEdge i fun e => { e with dropping := t.kind == .body }
      else if e.owed = 0 then s.modEdge i fun e => e.sendFlit t
      else s.modEdge i fun x => { x with owed := x.owed - 1, dropping := s.tileEdge e && t.kind == .head }

/-- Publishes on an output handle. -/
def State.pushOut (s : State) (rank la h : Nat) (t : Token) : State :=
  match s.outEdge rank la h with | some (i, _) => s.pushTok i t | none => s

/-! ## The input stage -/

/-- A HEAD with a field that R20 and R21 do not allow on an edge. -/
def headBad (tile : Bool) (pay : Vec) : Bool :=
  let sm := bf pay 507 504
  let nd := headNdata pay
  bf pay 491 256 != 0 || (sm == 0 && bf pay 255 0 != 0) || (sm == 2 && bf pay 255 32 != 0) || decide (3 ≤ sm) ||
    bf pay 511 508 == 15 || nd == 0 || (decide (16 < nd) && (sm == 1 || tile))

/-- The burst check of a flit (R21): the burst that is open after it, or `none` for MalformedStream. -/
def burstStep (tile : Bool) (b : Option Burst) (t : Token) : Option (Option Burst) :=
  match t.kind, b with
  | .head, none => if headBad tile t.pay then none else some (some { ndata := headNdata t.pay, seen := 0 })
  | .head, some _ => none
  | .body, some x => if x.seen + 1 < x.ndata then some (some { x with seen := x.seen + 1 }) else none
  | .tail, some x => if x.seen + 1 = x.ndata then some none else none
  | .body, none | .tail, none => none
  | _, x => some x

/-- Join depth d (R251). -/
def ActorDesc.joinDepth (d : ActorDesc) : Nat := bf d.kparam 1 0 + 1

/-- The arrival check of a join handle (R252). -/
def joinBad (d : Nat) (e : Edge) (t : Token) : Bool :=
  match t.kind with
  | .data => match e.lastCrd with | some c => t.tag ≤ c | none => false
  | .stop k => d ≤ k.val
  | .eos => e.lastKind != (if h : d - 1 < 4 then some (.stop ⟨d - 1, h⟩) else none)
  | .reconf | .marker => false
  | .head | .body | .tail | .mswap | .ord | .stat => true

/-- What the input stage remembers of the stream after a token; EOS leaves the kind that stood before it. -/
def Edge.note (e : Edge) (t : Token) : Edge :=
  { e with
    lastCrd := match t.kind with | .data => some t.tag | .stop _ => none | _ => e.lastCrd,
    lastKind := if t.kind = .eos then e.lastKind else some t.kind }

/-- A token comes into a FIFO: the burst check, the arrival check of a join handle, and then its place in the queue (R14, R21, R252). A
token of a successor waits behind RECONF for the successor's own checks (R129), and a retired actor's tokens are dropped (R173). -/
def State.takeIn (s : State) (i : Nat) (e : Edge) (pos : Nat) (t : Token) : State :=
  match s.actor? e.crank e.cla with
  | none => s
  | some a =>
    let put := fun (x : Edge) => s.modEdge i fun _ => { x with fifo := x.fifo ++ [{ tok := t, pos }] }
    if e.lastKind = some .reconf then put e
    else if a.retired then s.modEdge i fun e => e.note t
    else
      let w := a.desc.handle e.ch
      match burstStep w.tile e.burst t with
      | none => s.streamFault .malformedStream e.crank e.cla e.ch pos
      | some b =>
        if a.desc.inJoin e.ch && joinBad a.desc.joinDepth e t then s.streamFault .malformedStream e.crank e.cla e.ch pos
        else put { e.note t with burst := b }

/-- The inputs that the actor's next firing needs a token from (R172). An OWN actor runs no firing and passes over an input that has ended
(R303). -/
def State.needs (s : State) (rank la : Nat) (d : ActorDesc) : List Nat :=
  if d.kind = .own then []
  else match d.join with
  | .all => d.ins.filter fun h => (d.handle h).rate != 0
  | .early => d.sel :: (s.earlyChoice rank la d).toList
  | .isect | .union => d.ins.filter fun h => (d.handle h).rate != 0 || d.inJoin h

/-- The recorded depth of a handle says that EOS at its head is out of place (R252). -/
def State.eosBad (s : State) (rank la h : Nat) (a : Actor) : Bool :=
  match a.depths.getD h none, s.inEdge rank la h with
  | some d, some (_, e) => e.fifo.head?.any (fun q => q.tok.kind == .eos) && !a.desc.inJoin h &&
      joinBad d e { kind := .eos, tag := 0, pay := 0 }
  | _, _ => false

/-- The first fault that the heads of an actor's inputs raise: the handle, a second handle, and the position (R162, R172, R252,
R254). -/
def State.headFault (s : State) (rank la : Nat) (a : Actor) : Option (Nat × Option Nat × Nat) :=
  let d := a.desc
  let pos := fun h => match s.headOf rank la h with | some q => q.pos | none => 0
  let other := fun h h2 => h2 != h && ((d.handle h2).rate != 0 || d.joined h2 || (d.join == .early && h2 == d.sel)) &&
    (match s.headKind rank la h2 with | some k => k != .eos | none => false)
  let starved := (s.needs rank la d).findSome? fun h =>
    if s.headKind rank la h = some .eos then (d.ins.find? (other h)).map fun h2 => (h, some h2, pos h) else none
  let sel := if d.join = .early then
      match s.headKind rank la d.sel with
      | some .data | some .eos | some .reconf | none => none
      | some _ => some (d.sel, none, pos d.sel)
    else none
  let clash := match d.ins.filter d.inJoin with
    | [x, y] => match s.headKind rank la x, s.headKind rank la y with
      | some (.stop j), some (.stop k) => if j ≠ k then some (x, some y, pos x) else none
      | _, _ => none
    | _ => none
  match starved, sel, clash with
  | some x, _, _ => some x
  | none, some x, _ => some x
  | none, none, some x => some x
  | none, none, none => (d.ins.find? fun h => s.eosBad rank la h a).map fun h => (h, none, pos h)

/-- The input stage of an actor that is not firing examines its heads. -/
def State.inputCheck (s : State) (rank la : Nat) : State :=
  match s.actor? rank la with
  | none => s
  | some a =>
    if a.retired || a.done || !s.live a.lid || (s.firing? rank).any fun f => f.la == la then s
    else match s.headFault rank la a with
      | some (h, some h2, pos) => s.streamFault2 rank la h h2 pos
      | some (h, none, pos) => s.streamFault .malformedStream rank la h pos
      | none => s

/-- A flit lands (R14, R174): an arrival mark or an anti-token that still travels annihilates it. Every anti-token that still travels when
a stop, EOS or RECONF lands has met it as the oldest token, and is discarded (R129, R174). -/
def State.landFlit (s : State) (i : Nat) (e : Edge) (f : Flight) : State :=
  let pos := e.arrived
  let hit : AntiHit := if e.antis = 0 ∨ f.marked then .absent else e.antiLink (s.tileEdge e)
  let e1 := match hit with
    | .removed x => { x with antis := e.antis - 1 }
    | .stopped => { e with antis := 0 }
    | .absent => e
  let gone := match e1.link with | x :: _ => x.marked | [] => f.marked
  let e2 := { e1 with link := e1.link.tail, arrived := pos + 1 }
  let s1 := s.modEdge i fun _ => e2
  let s2 := match hit with | .stopped => s1.discardAnti e.crank e.antis | .removed _ | .absent => s1
  if gone then s2 else (s2.takeIn i e2 pos f.tok).inputCheck e.crank e.cla

/-- The bridge that a travelling flit crosses next; `none` on the links within a die. -/
def Edge.bridgeOf (e : Edge) (f : Flight) : Option Nat := if f.hops = 0 then none else e.bridges[e.hopsAll - f.hops]?

/-- Where a corrected error is counted that the next bridge's router finds, numbered from 2 ^ 21, or that of the consumer's element (R17, R352). -/
def Edge.errorKey (e : Edge) (f : Flight) : Nat := match e.bridgeOf f with | some b => 2 ^ 21 + b | none => e.crank

/-- An element's router may lie on the way of an edge's flits: it is an element of the group's region. Which routers a stitched path crosses is open
(R17; DESIGN CHOICE, log entry 77). -/
def State.onRoute (s : State) (e : Edge) (rank : Nat) : Bool :=
  rank == e.prank || rank == e.crank || (s.bindAt (rank / 16)).any fun b => (s.heirs 8 e.lid).contains b.lid && b.g == e.g

/-- The partition whose queue takes a link fault: the launch's, or that of the consumer's die for a stream whose launch has ended (R329). -/
def State.edgePart (s : State) (e : Edge) : Nat := if e.lid = 0 then (s.partOfDie (e.crank / 256)).getD 0 else lidPart e.lid

/-- LinkFailure of a travelling flit names its bridge and its stream, and the flit is never delivered (R17, R135, R331). A link within a die
has no number: DETAIL is 0 (DESIGN CHOICE, log entry 77). A stream whose launch has ended gives a record with LID 0 (R329). -/
def State.linkFailure (s : State) (i : Nat) (e : Edge) (n : Nat) (f : Flight) (replays : Nat) : State :=
  (s.modEdge i fun e => { e with link := e.link.eraseIdx n }).fatalTrap (s.mkTrap (s.edgePart e) e.lid e.g e.crank .linkFailure
    ((e.bridgeOf f).getD 0) (BitVec.ofNat 64 e.eidx) (BitVec.ofNat 64 replays))

/-- The place in its ring of the head of a FIFO (DESIGN CHOICE, log entry 45). -/
def Edge.readPos (e : Edge) : Nat := (match e.fifo with | q :: _ => q.pos | [] => e.arrived) % e.depth

/-- An uncorrectable error in a FIFO slot: LinkFailure that names the slot, whose flit is never delivered (R17). ADDR holds the consumer actor,
its handle and the slot of the ring (DESIGN CHOICE, log entry 77). -/
def State.slotFailure (s : State) (i : Nat) (e : Edge) (n : Nat) : State :=
  match e.fifo[n]? with
  | none => s
  | some _ =>
    let aidx := match s.actor? e.crank e.cla with | some a => a.aidx | none => 0
    (s.modEdge i fun e => { e with fifo := e.fifo.eraseIdx n }).fatalTrap (s.mkTrap (s.edgePart e) e.lid e.g e.crank .linkFailure 0
      (BitVec.ofNat 64 (aidx % 65536 * 2 ^ 48 + e.ch % 16 * 2 ^ 44 + (e.readPos + n) % e.depth)) 0)

/-- Flits of an edge that hold a unit of the allowance of the bridge that flit `f` crosses next: those that its sender has sent, and those
that stand in the receiving bridge's buffer (R134). -/
def Edge.spent (e : Edge) (f : Flight) : Nat :=
  (e.link.filter fun x => (x.hops == f.hops && x.sent) || (x.hops + 1 == f.hops && !x.sent)).length

/-- Flits that a bridge direction has sent and that are not acknowledged (R135). -/
def State.unacked (s : State) (b : Nat) : Nat :=
  (s.edges.map fun e => (e.link.filter fun f => f.sent && e.bridgeOf f == some b).length).foldl (· + ·) 0

/-- The flit ahead of number `n` has left for or crossed the bridge that flit `f` waits for: flits of a stream keep their order (R135). -/
def Edge.ahead (e : Edge) (n : Nat) (f : Flight) : Bool :=
  n == 0 || match e.link[n - 1]? with
    | some x => decide (x.hops < f.hops) || (x.hops == f.hops && x.sent && !f.sent)
    | none => true

/-- A travelling flit moves on by one step (R134, R135): the sender of its next bridge sends it when the stream has a unit of allowance and
the retry buffer has room, or the receiver takes it and acknowledges it. -/
def State.moveFlit (s : State) (i : Nat) (e : Edge) (n : Nat) (f : Flight) : State :=
  if !e.ahead n f then s
  else if f.sent then s.modEdge i fun e => { e with link := e.link.set n { f with hops := f.hops - 1, retries := 0, sent := false } }
  else match e.bridgeOf f with
    | none => s
    | some b =>
      if Nat.min e.depth 32 ≤ e.spent f ∨ 256 ≤ s.unacked b then s
      else s.modEdge i fun e => { e with link := e.link.set n { f with sent := true } }

/-- FLIT_ARRIVAL (R17, R134): flit `n` of an edge goes one step over its next bridge, or the oldest lands; or a router on its way corrects an
error, or the check of a FIFO slot finds one. In a DET launch a flit crosses bridges only by DET_QUANTUM_RELEASE (R324), and a MARKER is recorded by MARKER_RECORD (R343). An
error is reported whether or not the launch still runs (R329). -/
def execFlitArrival (i : Nat) (err : FlitErr) (s : State) : Result :=
  match s.edge? i with
  | none => .next s
  | some e =>
    match err with
    | .router n rank =>
      .next (if (e.link[n]?).isSome && s.onRoute e rank then { s with softErr := alAdd s.softErr rank 1 } else s)
    | .slotSingle k => .next (if k < e.fifo.length then { s with softErr := alAdd s.softErr e.crank 1 } else s)
    | .slotDouble k => .next (s.slotFailure i e k)
    | .double n => match e.link[n]? with
      | some f => .next (s.linkFailure i e n f f.retries)
      | none => .next s
    | .clean n | .single n =>
      match e.link[n]? with
      | none => .next s
      | some f =>
        let s1 := if err = .single n then { s with softErr := alAdd s.softErr (e.errorKey f) 1 } else s
        if e.lid = 0 then .next (s1.modEdge i fun e => { e with link := e.link.eraseIdx n })
        else if !s.running e.lid then .next s1
        else if f.hops ≠ 0 then .next (if e.det then s1 else s1.moveFlit i e n f)
        else if n ≠ 0 ∨ f.tok.kind = .marker then .next s1
        else .next (s1.landFlit i e f)

/-- BRIDGE_REPLAY (R135): a detected link error replays the flits from the failed one; a fifth failure of a flit is LinkFailure. In a DET
launch the flits of a quantum cross together, and a failure may strike any that a bridge is before. -/
def execBridgeReplay (x : FlitAt) (s : State) : Result :=
  match s.edge? x.edge with
  | none => .next s
  | some e =>
    match e.link[x.n]? with
    | none => .next s
    | some f =>
      if (e.bridgeOf f).isNone ∨ (!f.sent ∧ !e.det) then .next s
      else if 4 ≤ f.retries then .next (s.linkFailure x.edge e x.n f 4)
      else .next (s.modEdge x.edge fun e => { e with link := e.link.set x.n { f with retries := f.retries + 1 } })

/-! ## Join steps (R254, R255) -/

/-- Pops n flits of an input. -/
def State.popIn (s : State) (rank la h n : Nat) : State :=
  match s.inEdge rank la h with
  | some (i, _) => s.modEdge i fun e => { e with fifo := e.fifo.drop n }
  | none => s

/-- JOIN_INPUT_STEP (R254, R255): a skip pops one token while the actor is neither firing nor selected. -/
def execJoinInputStep (rank la : Nat) (s : State) : Result :=
  match s.actor? rank la with
  | none => .next s
  | some a =>
    if a.retired || a.done || !s.live a.lid || (s.markEpoch rank la a).isSome || (s.firing? rank).any fun f => f.la == la then .next s
    else match s.joinStep rank la a.desc, a.desc.ins.filter a.desc.inJoin with
      | .skip b, [x, y] => .next ((s.popIn rank la (if b then y else x) 1).inputCheck rank la)
      | _, _ => .next (s.inputCheck rank la)

/-! ## Markers (R342, R343) -/

/-- An actor that must fire no more and is not firing emits one MARKER on every output (R342, R343). -/
def State.emitMarkers (s : State) (rank la : Nat) : State :=
  match s.actor? rank la with
  | none => s
  | some a =>
    match s.markEpoch rank la a with
    | none => s
    | some ep =>
      if a.marked || (s.firing? rank).any fun f => f.la == la then s
      else
        let t : Token := { kind := .marker, tag := BitVec.ofNat 32 ep, pay := 0 }
        (a.desc.outs.foldl (fun s h => s.pushOut rank la h t) s).modActor rank la fun x => { x with marked := true }

/-- MARKER_RECORD (R343): a MARKER lands and its input records the position after the last token ahead of it; one of an abandoned
epoch is dropped (R344). -/
def execMarkerRecord (i : Nat) (s : State) : Result :=
  match s.edge? i with
  | none => .next s
  | some e =>
    match e.link with
    | [] => .next s
    | f :: r =>
      if f.tok.kind ≠ .marker ∨ f.hops ≠ 0 ∨ !s.running e.lid then .next s
      else
        let s1 := s.modEdge i fun e => { e with link := r }
        match (s.part (lidPart e.lid)).preempt with
        | some x =>
          if (s.wave x.lid).contains e.lid ∧ x.epoch = f.tok.tag.toNat then
            .next ((s1.modEdge i fun e => { e with marker := some (e.arrived, x.epoch) }).emitMarkers e.crank e.cla)
          else .next s1
        | none => .next s1

end Sys2Proof.Machine
end

