-- ==== Sys2Proof/Machine/Fire.lean ====
section
/-! DEFINITION. Selecting a firing, the end of a block, the commit, retirement, cancellation, FORK actors and the end of a tile
invocation (R129, R158 to R180, R233, R237, R238, R335). -/

namespace Sys2Proof.Machine

/-! ## Selection (R158 to R163) -/

/-- The actor that rotation takes among some: the first at or after a start, else the lowest. -/
def rotate (start : Nat) (l : List Nat) : Option Nat :=
  match l.find? fun x => decide (start ≤ x) with
  | some x => some x
  | none => l.head?

/-- The actor that the scheduler takes among the fireable ones, and whether it is taken as aged (R159, R184). -/
def State.chooseActor (s : State) (rank : Nat) (l : List (Nat × Actor)) : Option (Nat × Bool) :=
  let e := s.elem rank
  let open_ := if l.any fun x => !x.2.yld then l.filter fun x => !x.2.yld else l
  let aged := open_.filter fun x => decide (64 ≤ x.2.pass)
  if aged.isEmpty then
    let top := open_.foldl (fun m x => Nat.max m (s.effPrio x.2)) 0
    (rotate ((alGet e.rot top).getD 0) ((open_.filter fun x => s.effPrio x.2 == top).map (·.1))).map fun x => (x, false)
  else (rotate e.agedRot (aged.map (·.1))).map fun x => (x, true)

/-- Pass counts and rotation after a choice (R159). An aged actor's firing moves the rotation of the aged ones, and not that of its priority (DESIGN
CHOICE, log entry 80). -/
def Elem.passed (e : Elem) (fireable : List Nat) (la prio : Nat) (aged : Bool) : Elem :=
  let upd := fun (a : Actor) (i : Nat) =>
    if i = la then { a with pass := 0, yld := false }
    else if fireable.contains i then { a with pass := Nat.min 64 (a.pass + 1), yld := false }
    else { a with yld := false }
  { e with
    actors := e.actors.zipIdx.map fun x => upd x.1 x.2,
    rot := if aged then e.rot else alSet e.rot prio (la + 1),
    agedRot := if aged then la + 1 else e.agedRot }

/-- The chosen EARLY data handle of an ordinary firing, or the select value that names none (R162). -/
def State.earlyPick (s : State) (rank la : Nat) (d : ActorDesc) (flushing : Bool) : Option Nat × Option Nat :=
  if flushing || d.join != .early then (none, none)
  else match s.earlyChoice rank la d with
    | some h => (some h, none)
    | none => (none, (s.headOf rank la d.sel).map fun q => bf q.tok.pay 31 0)

/-- The header word of a block id, which the loader resolves at install (R64). An empty entry names no block; a flushing firing whose EOSPH
entry is empty (R29 lets EOSV = 1 stand beside it) enters code word 0 (DESIGN CHOICE, log entry 75). -/
def State.headerOf (s : State) (lid id : Nat) : Nat :=
  match (s.launch? lid).bind fun l => l.img with
  | some im => match im.blocks.find? fun b => b.1 == id with | some b => b.2 | none => 0
  | none => 0

/-- Starts a firing of an actor: the snapshot, the latched match, and the entry block of its phase (R160, R163, R255). -/
def State.startFiring (s : State) (rank la : Nat) (a : Actor) (flushing : Bool) : State :=
  let d := a.desc
  let phase := if flushing then d.eosph else a.phase
  let inv := match s.launch? a.lid with | some l => l.invOf a.aidx a.fcount | none => 0
  let pick := s.earlyPick rank la d flushing
  let (fid, s1) := s.fresh
  let latch := match s.joinStep rank la d with | .fire m => if flushing then none else some m | .wait | .skip _ => none
  let entry := s.headerOf a.lid (d.entry.getD phase 0xFFFF)
  let f := { Firing.select fid la phase flushing inv (s.snapshot rank la d) pick.1 with hdr := entry }
  let s2 := s1.modElem rank fun e => { e with firing := some f, actors := e.actors.modify la fun a => { a with latch } }
  match pick.2 with
  | some k =>
    let (addr, cb) := s2.codePtr rank a entry
    let t := (s2.mkTrap (lidPart a.lid) a.lid a.g rank .rateViolation 1 addr (BitVec.ofNat 64 k)).ofFiring f 0
    s2.preciseTrap rank f a { t with cbase := cb }
  | none => s2.enterBlock rank entry

/-- FIRING_SELECTION (R158 to R163, R171, R335). -/
def execFiringSelection (rank : Nat) (s : State) : Result :=
  if (s.firing? rank).isSome then .next s
  else
    let s1 := (List.range (s.elem rank).actors.length).foldl (fun s la => s.inputCheck rank la) s
    let l := s1.fireables rank
    match s1.chooseActor rank l with
    | none => .next s1
    | some (la, aged) =>
      match s1.actor? rank la with
      | none => .next s1
      | some a =>
        let flushing := (s1.fireKind rank la a).getD false
        let s2 := s1.modElem rank fun e => e.passed (l.map (·.1)) la (s1.effPrio a) aged
        .next (s2.startFiring rank la a flushing)

/-! ## Totals and publishing (R166, R169, R173, R185) -/

/-- The held write of a register that takes effect: the last in block-entry and slot order (R61, R182). -/
def winner (l : List HeldWrite) (reg : Nat) : Option Word :=
  (l.foldl (fun (b : Option HeldWrite) w =>
    if w.reg ≠ reg then b
    else match b with
      | none => some w
      | some x => if w.entry < x.entry ∨ (w.entry = x.entry ∧ w.slot < x.slot) then b else some w) none).map (·.val)

/-- The write of an output slot, or of a flit of it, that stands (R185). -/
def outWinner (l : List OutWrite) (h off flit : Nat) : Option OutWrite :=
  l.foldl (fun b w =>
    if w.h ≠ h ∨ w.off ≠ off ∨ w.flit ≠ flit then b
    else match b with
      | none => some w
      | some x => if w.entry < x.entry ∨ (w.entry = x.entry ∧ w.slot < x.slot) then b else some w) none

/-- The automatic advance of a handle: 1 for the select and chosen handle of an EARLY join, and for the sides that a match pops. -/
def autoAdvance (f : Firing) (a : Actor) (h : Nat) : Nat :=
  let d := a.desc
  if f.flushing then 0
  else if d.join = .early then (if h == d.sel || f.chosen == some h then 1 else 0)
  else if d.inJoin h then
    match a.latch with
    | some m => if m.stop || (if (d.ins.filter d.inJoin).head? = some h then m.pa else m.pb) then 1 else 0
    | none => 0
  else 0

/-- t(h) (R166). -/
def totalOf (f : Firing) (a : Actor) (h : Nat) : Nat :=
  if a.desc.joinHandle h then autoAdvance f a h else f.pend.getD h 0

/-- The flits of the burst written at an offset of a TILE output, or `none` when NDATA is outside 1..16 or a flit is unwritten
(R185). -/
def burstOut (outs : List OutWrite) (h off : Nat) (tag : BitVec 32) : Option (List Token) :=
  match outWinner outs h off 0 with
  | none => none
  | some hd =>
    let nd := headNdata hd.pay
    let fl := (List.range nd).map fun j => outWinner outs h off (j + 1)
    if nd = 0 ∨ 16 < nd ∨ fl.any (·.isNone) then none
    else some ({ kind := .head, tag, pay := hd.pay } :: fl.zipIdx.map fun x =>
      { kind := if x.2 + 1 = nd then .tail else .body, tag, pay := (x.1.map (·.pay)).getD 0 })

/-- The flits published at an offset of an output (R166, R169). -/
def slotOut (f : Firing) (a : Actor) (h off : Nat) : Option (List Token) :=
  let tag := a.seqs.getD h 0 + BitVec.ofNat 32 off
  if (a.desc.handle h).tile then burstOut f.outs h off tag
  else match outWinner f.outs h off 0 with
    | some w => some [{ kind := w.kind, tag := w.tag.getD tag, pay := w.pay }]
    | none => some [{ kind := .data, tag, pay := 0 }]

/-- Every offset of an output in order. -/
def tokensOut (f : Firing) (a : Actor) (h : Nat) : List (Option (List Token)) :=
  (List.range (totalOf f a h)).map fun off => slotOut f a h off

/-- The totals of a handle break R166, R171, R173 or R185. -/
def totalBad (f : Firing) (a : Actor) (h : Nat) : Bool :=
  let d := a.desc
  let w := d.handle h
  let t := totalOf f a h
  let early := d.join == .early && (h == d.sel || d.dmask.getLsbD h) && f.pend.getD h 0 != 0
  if !w.used then false
  else if w.out then
    (if w.var then decide (w.max < t) else if f.flushing then decide (w.rate < t) else t != w.rate) ||
      (a.eosOut.getD h false && t != 0) || (tokensOut f a h).any (·.isNone)
  else if f.flushing then f.pend.getD h 0 != 0
  else early || (if w.var then decide (w.max < t) else if d.joinHandle h then false else t != w.rate) || decide (f.snap.getD h 0 < t)

/-- Pops t tokens of an input, with every flit of their bursts (R166 step 1). -/
def State.consume (s : State) (rank la h t : Nat) (tile : Bool) : State :=
  match s.inEdge rank la h with
  | some (_, e) => s.popIn rank la h (((unitsOf tile e.fifo).take t).foldl (fun n u => n + u.length) 0)
  | none => s

/-- Publishes an output's flits, and says at which position a token stands above an EOS (R252): the next one once everything up to the EOS is
pushed, since a push that an owed anti-token annihilates never arrives (R176). -/
def State.publish (s : State) (rank la h : Nat) (ts : List Token) : State × Option Nat :=
  match s.outEdge rank la h with
  | none => (s, none)
  | some (i, _) =>
    let k := ts.findIdx fun t => t.kind == .eos
    let s1 := (ts.take (k + 1)).foldl (fun s t => s.pushTok i t) s
    ((ts.drop (k + 1)).foldl (fun s t => s.pushTok i t) s1, if k + 1 < ts.length then (s1.edge? i).map Edge.nextPos else none)

/-- The phase and the fate that the exit names (R184). -/
def ExitReq.phase (x : ExitReq) (now : Nat) : Nat := match x with | .exit p => p | .branch _ | .retire | .yield => now

/-- The actor after the commit's steps 4 and 5 (R166, R169, R182, R207, R262). -/
def Actor.committed (a : Actor) (f : Firing) (x : ExitReq) : Actor :=
  { a with
    keep := a.keep.zipIdx.map fun k => (winner f.keepW k.2).getD k.1,
    rnd := match winner f.srW 8 with | some v => v.setWidth 2 | none => a.rnd,
    flags := (match winner f.srW 9 with | some v => v.setWidth 5 | none => a.flags) ||| f.flags,
    seed := (winner f.srW 12).getD a.seed,
    lg := f.lgW.getD a.lg,
    facc := match f.frW with | some w => w.1 | none => a.facc,
    fn := match f.frW with | some w => w.2 | none => a.fn,
    seqs := a.seqs.zipIdx.map fun q => if (a.desc.handle q.2).out then q.1 + BitVec.ofNat 32 (totalOf f a q.2) else q.1,
    phase := x.phase f.phase,
    flushed := a.flushed || f.flushing,
    latch := none,
    fcount := if f.flushing then a.fcount else a.fcount + 1,
    yld := x == .yield,
    pass := if x = .yield then 0 else a.pass }

/-- An XOP.LOAD takes effect at commit (R186). -/
def State.installXop (s : State) (rank : Nat) (o : Option Nat) : State :=
  match o with
  | none => s
  | some o => s.modElem rank fun e => { e with xopOff := some o, xopBits := s.readBytes (localKey rank o) 8192, xopFf := 0 }

/-! ## Retirement (R129, R171, R173) -/

/-- What an actor that ends its stream emits: EOS, or RECONF from a source whose launch has a successor staged (R129). -/
def State.endToken (s : State) (a : Actor) : Token :=
  let eos : Token := { kind := .eos, tag := 0, pay := 0 }
  match s.staged a.lid with
  | some t => if a.done || a.desc.isSource then { kind := .reconf, tag := BitVec.ofNat 32 t.imgIdx, pay := 0 } else eos
  | none => eos

/-- The sequence counter of an output handle counts the slots that the handle publishes (R169). -/
def State.countSlots (s : State) (rank la h n : Nat) : State :=
  s.modActor rank la fun a => { a with seqs := a.seqs.modify h (· + BitVec.ofNat 32 n) }

/-- Emits the end of stream on every output that has not carried one and has a slot free (R13, R129, R171 step 2). -/
def State.closeOuts (s : State) (rank la : Nat) : State :=
  match s.actor? rank la with
  | none => s
  | some a =>
    a.desc.outs.foldl (fun s h =>
      match s.actor? rank la, s.outEdge rank la h with
      | some x, some (i, e) =>
        if x.closed h || freeOf e == 0 then s else (s.pushTok i (s.endToken a)).countSlots rank la h 1
      | _, _ => s) s

/-- What is left of a FIFO behind the end of its stream. -/
def afterEnd : List Queued → List Queued
  | [] => []
  | q :: r => if q.tok.kind = .eos ∨ q.tok.kind = .reconf then r else afterEnd r

/-- An actor retires: its inputs' tokens are dropped up to the end of each stream, and its outputs end (R171, R173). Its waits leave the
table (R315). -/
def State.retireActor (s : State) (rank la : Nat) : State :=
  match s.actor? rank la with
  | none => s
  | some a =>
    let s1 := a.desc.ins.foldl (fun s h =>
      match s.inEdge rank la h with
      | some (i, _) => s.modEdge i fun e => { e with fifo := afterEnd e.fifo }
      | none => s) s
    ((s1.modActor rank la fun a => { a with retired := true }).closeOuts rank la).dropWaits (lidPart a.lid)
      fun w => !w.man && w.ofActor a.lid rank la

/-- ACTOR_RETIREMENT (R171): EOS stands at the head of every input and the flushing firing, if any, has run; an end of stream that found
no free slot is emitted when one is free. An actor that a MARKER has stopped does nothing more, so that its outputs end at the MARKER (R343). -/
def execActorRetirement (rank la : Nat) (s : State) : Result :=
  match s.actor? rank la with
  | none => .next s
  | some a =>
    if !s.live a.lid || (s.markEpoch rank la a).isSome || (s.firing? rank).any fun f => f.la == la then .next s
    else if a.retired then .next (s.closeOuts rank la)
    else if a.done || a.susp.isSome || !s.allHeads rank la a.desc .eos || a.toFlush ||
        !(a.turnIn.isEmpty && a.turnOut.isEmpty) then .next (s.inputCheck rank la)
    else if (s.headFault rank la a).isSome then .next (s.inputCheck rank la)
    else .next (s.retireActor rank la)

/-- RECONF_ACTOR_FINISH (R129): RECONF stands at the head of every input. -/
def execReconfActorFinish (rank la : Nat) (s : State) : Result :=
  match s.actor? rank la with
  | none => .next s
  | some a =>
    if !s.live a.lid || a.retired || (s.markEpoch rank la a).isSome || (s.firing? rank).any fun f => f.la == la then .next s
    else if a.done then .next (s.closeOuts rank la)
    else if a.susp.isSome || !s.allHeads rank la a.desc .reconf || a.toFlush ||
        !(a.turnIn.isEmpty && a.turnOut.isEmpty) then .next s
    else
      let s1 := a.desc.ins.foldl (fun s h => s.popIn rank la h 1) s
      .next ((s1.modActor rank la fun a => { a with done := true }).closeOuts rank la)

/-! ## The end of a block (R164 to R167) -/

/-- A firing's inputs are consumed, and the anti-tokens of an EARLY join and those of its ANTI instructions are sent (R166, R174). -/
def State.takeInputs (s : State) (rank : Nat) (f : Firing) (a : Actor) : State :=
  let d := a.desc
  let joinAnti := fun h => if f.flushing || d.join != .early || !d.dmask.getLsbD h || f.chosen == some h then 0 else 1
  let s1 := d.ins.foldl (fun s h => s.consume rank f.la h (totalOf f a h) (d.handle h).tile) s
  let s2 := d.ins.foldl (fun s h => s.sendAntis rank f.la h (joinAnti h)) s1
  d.ins.foldl (fun s h => s.sendAntis rank f.la h (f.antis.getD h 0)) s2

/-- The output tokens of a firing are published, handle by handle; the first position that breaks its stream's form is kept. -/
def State.publishOuts (s : State) (rank : Nat) (f : Firing) (a : Actor) : List Nat → State × Option (Nat × Nat)
  | [] => (s, none)
  | h :: hs =>
    let r := s.publish rank f.la h ((tokensOut f a h).flatMap fun t => t.getD [])
    let x := State.publishOuts r.1 rank f a hs
    (x.1, match r.2 with | some pos => some (h, pos) | none => x.2)

/-- The commit of a firing in one cycle (R166). -/
def State.commit (s : State) (rank : Nat) (f : Firing) (a : Actor) (x : ExitReq) : State :=
  let (s4, bad) := (s.takeInputs rank f a).publishOuts rank f a a.desc.outs
  let s5 := (s4.modElem rank fun e => { e with firing := none, actors := e.actors.modify f.la fun a => a.committed f x })
  let s6 := (s5.installXop rank f.xopLoad).modLaunch a.lid fun l => { l with moved := true }
  let s7 := if x = .retire then s6.retireActor rank f.la else s6
  let s8 := match bad with
    | none => s7
    | some (h, pos) => match s.outEdge rank f.la h with
      | some (_, e) => s7.streamFault .malformedStream e.crank e.cla e.ch pos
      | none => s7
  let s9 := (s8.inputCheck rank f.la).emitMarkers rank f.la
  if f.cancel then s9.stopLaunch a.lid .cancelled 0 else s9

/-- Chained words of the ended block count as sent before another block is entered (R165, R233). -/
def State.leaveBlock (s : State) (rank : Nat) (f : Firing) (a : Actor) : State :=
  (s.nullBlock rank f a).modFiring rank fun f => { f with entry := f.entry + 1, exit := none, slots := [] }

/-- BLOCK_QUIESCENCE (R164): no word is ready and no value is due. The first emulated exit whose words asked for none asks for the original's, and a
second exit is MultiExit (log entry 76). -/
def execBlockQuiescence (rank : Nat) (s : State) : Result :=
  match s.active rank with
  | none => .next s
  | some (f, a) =>
    if f.anyReady || !f.due.isEmpty || !s.live a.lid then .next s
    else match f.emulatedExits.find? (fun sl => !(f.exit.isSome && f.exitBy == sl.id)), f.exit with
      | some sl, _ => .next (s.emulateExit rank sl)
      | none, none => .next (s.preciseEnd rank .noExit 0)
      | none, some (.branch w) => .next ((s.leaveBlock rank f a).enterBlock rank w)
      | none, some x =>
        match (List.range 16).find? fun h => totalBad f a h with
        | some h => .next (s.preciseEnd rank .rateViolation h)
        | none => .next ((s.nullBlock rank f a).commit rank f a x)

/-! ## Cancellation and FORK (R177, R178) -/

/-- FIRING_CANCELLATION (R177). The output positions of a cancelled firing are passed, whether or not it was made, so the sequence counters
move over them: a position that no anti-token removes carries the same tag under any timing (R169, R180; DEDUCED, log entry 17). -/
def execFiringCancellation (rank la : Nat) (s : State) : Result :=
  match s.actor? rank la with
  | none => .next s
  | some a =>
    if !s.live a.lid || a.retired || a.done || a.susp.isSome || (s.markEpoch rank la a).isSome ||
        (s.firing? rank).any (fun f => f.la == la) || !s.cancellable a ||
        !s.owesAll rank la a.desc || s.allHeads rank la a.desc .eos || s.allHeads rank la a.desc .reconf then .next s
    else
      let s1 := a.desc.outs.foldl (fun s h =>
        match s.outEdge rank la h with
        | some (i, _) => s.modEdge i fun e => { e with owed := e.owed - 1 }
        | none => s) s
      let s2 := a.desc.outs.foldl (fun s h => s.countSlots rank la h 1) s1
      .next (a.desc.ins.foldl (fun s h => s.sendAntis rank la h (a.desc.handle h).rate) s2)

/-- FORK_COPY (R178): a token of h0 is copied to every output once all have room; when every branch owes, one anti-token goes on. -/
def execForkCopy (rank la : Nat) (s : State) : Result :=
  match s.actor? rank la with
  | none => .next s
  | some a =>
    if !s.builtin rank la a .fork then .next s
    else if s.owesAll rank la a.desc then
      let s1 := a.desc.outs.foldl (fun s h =>
        match s.outEdge rank la h with
        | some (i, _) => s.modEdge i fun e => { e with owed := e.owed - 1 }
        | none => s) s
      let s2 := a.desc.outs.foldl (fun s h => s.countSlots rank la h 1) s1
      .next (s2.sendAnti rank la 0)
    else
      let u := s.forkUnit rank la a
      if !s.forkCopies rank la a then .next s
      else
        let s1 := s.popIn rank la 0 u.length
        let s2 := a.desc.outs.foldl (fun s h => u.foldl (fun s q => s.pushOut rank la h q.tok) s) s1
        .next ((a.desc.outs.foldl (fun s h => s.countSlots rank la h 1) s2).inputCheck rank la)

/-! ## Tile invocations (R237, R238) -/

/-- Every actor of a group has committed its last firing of an invocation or has retired; built-in kinds run no firing (DEDUCED, log
entry 18). -/
def State.invDone (s : State) (l : Launch) (g n : Nat) : Bool :=
  s.elems.all fun e => e.2.actors.all fun a =>
    a.lid != l.lid || a.g != g || a.retired || a.done || a.desc.kind != .ordinary || decide ((n + 1) * l.perInv a.aidx ≤ a.fcount)

/-- INVOCATION_END (R237, R238): the lowest open invocation of a group ends and its held stores are released. -/
def execInvocationEnd (lid g : Nat) (s : State) : Result :=
  match s.launch? lid with
  | none => .next s
  | some l =>
    let n := l.endedOf g
    let inv := match l.img with | some im => im.invm | none => false
    let open_ := s.elems.any fun e => e.2.actors.any fun a => a.lid == lid && a.g == g && decide (n * l.perInv a.aidx < a.fcount)
    if !s.live lid ∨ !inv ∨ l.ngroup ≤ g ∨ !open_ ∨ !s.invDone l g n then .next s
    else
      let s1 := s.modLaunch lid fun l => { l with ended := (List.range l.ngroup).map fun k => if k = g then n + 1 else l.endedOf k }
      .next (s1.releaseHeld lid g (n + 1))

end Sys2Proof.Machine
end

