-- ==== Sys2Proof/Machine/Waits.lean ====
section
/-! DEFINITION. The wait-for table: entries, insertion, the walks at the end of the cycle, deadlock records, priority inheritance and spill (R306,
R307, R315 to R319, R338, R355). -/

namespace Sys2Proof.Machine

/-- An entry in the layout of R307. -/
def WaitEntry.word (w : WaitEntry) : BitVec 256 :=
  BitVec.ofNat 256 (w.obj.toNat / 64 * 64 * 2 ^ 192 + w.wlid % 2 ^ 32 * 2 ^ 160 + w.wrank % 2 ^ 14 * 2 ^ 146 + w.wact % 8 * 2 ^ 143 +
    w.wl.toNat * 2 ^ 142 + w.kind % 16 * 2 ^ 138 + w.wprio % 16 * 2 ^ 134 + w.man.toNat * 2 ^ 133 + w.hlid % 2 ^ 32 * 2 ^ 96 +
    w.hrank % 2 ^ 14 * 2 ^ 82 + w.hact % 8 * 2 ^ 79 + w.ha.toNat * 2 ^ 78 + w.serial % 2 ^ 32 * 2 ^ 32)

/-- Two entries have one waiter. -/
def WaitEntry.sameWaiter (w x : WaitEntry) : Bool := w.wlid == x.wlid && w.wl == x.wl && (w.wl || (w.wrank == x.wrank && w.wact == x.wact))

/-- Entries of the table, and of the spill region (R315, R319). -/
def tableSize : Nat := 2048
def spillSize : Nat := 2 ^ 20

/-- The lowest index from `i` that no entry of one store uses (DESIGN CHOICE, log entry 19). -/
def freeIdx (l : List WaitEntry) (spill : Bool) : Nat → Nat → Option Nat
  | 0, _ => none
  | n + 1, i => if l.any fun w => w.spill == spill && w.idx == i then freeIdx l spill n (i + 1) else some i

/-- Where a new entry goes: the table, the spill region, or nowhere. -/
def placeFor (l : List WaitEntry) : Option (Bool × Nat) :=
  let tab := (l.filter fun w => !w.spill).length
  let spl := l.length - tab
  if tab < tableSize then (freeIdx l false (tab + 1) 0).map fun i => (false, i)
  else if spl < spillSize then (freeIdx l true (spl + 1) 0).map fun i => (true, i)
  else none

/-- Inserts an entry in ascending order of store and index. -/
def insWait (w : WaitEntry) : List WaitEntry → List WaitEntry
  | [] => [w]
  | x :: r =>
    if 2 ^ 21 * w.spill.toNat + w.idx < 2 ^ 21 * x.spill.toNat + x.idx then w :: x :: r else x :: insWait w r

/-- A table with a new entry, to be walked when the cycle ends (R316); nothing changes where both stores are full (R319). A waiter that a deadlock
froze has its later entries frozen too (R317). -/
def Part.addWait (p : Part) (w : WaitEntry) : Part :=
  match placeFor p.waits with
  | some (spill, idx) =>
    let x := { w with idx, spill, serial := nextSerial 32 p.waitSer, frozen := p.waits.any fun y => y.frozen && y.sameWaiter w }
    { p with waitSer := x.serial, waits := insWait x p.waits, walks := p.walks ++ [x.serial] }
  | none => p

/-- A record about the waiter of an entry. -/
def State.waiterTrap (s : State) (part : Nat) (w : WaitEntry) (code : TrapCode) (detail : Nat) (addr : Word) : Trap :=
  let g := if w.wl then 0 else match s.actor? w.wrank w.wact with | some a => a.g | none => 0
  { s.mkTrap part w.wlid g w.wrank code detail addr 0 with actor := w.wact }

/-- A wait for which an entry found no room is counted, once; the first one is a notice (R319). -/
def State.untrackedWait (s : State) (part : Nat) (w : WaitEntry) : State :=
  let s1 := s.modPart part fun p => { p with untracked := p.untracked + 1, wtInc := true }
  if (s.part part).wtInc then s1
  else s1.notice (s1.waiterTrap part w .waitTableIncomplete 0 (BitVec.ofNat 64 ((s.part part).untracked + 1)))

/-- The walk from an entry (R316), depth first, the successors of each entry in ascending index: the cycle it finds, and the entries that it may
still examine. -/
def State.walkWaits (s : State) (part : Nat) (w0 : WaitEntry) : Nat → List WaitEntry → Nat → Option (List WaitEntry) × Nat
  | 0, _, b => (none, b)
  | n + 1, path, b =>
    match path, b with
    | [], _ => (none, b)
    | _, 0 => (none, 0)
    | w :: _, b + 1 =>
      (s.successors part w).foldl (fun acc x =>
        match acc with
        | (some c, b) => (some c, b)
        | (none, b) =>
          if x.sameWaiter w0 then (some path.reverse, b)
          else if path.any fun y => y.serial == x.serial then (none, b)
          else State.walkWaits s part w0 n (x :: path) b) (none, b)

/-- The deadlock record (R317). SPILL says that Ridge made the walk, as it does while the spill region holds any entry (R319). -/
def State.deadlockRecord (s : State) (part seq : Nat) (cycle : List WaitEntry) : List Byte :=
  let h := 0x4B56444C * 2 ^ 480 + seq % 2 ^ 32 * 2 ^ 448 + part % 32 * 2 ^ 443 + cycle.length % 32 * 2 ^ 438 +
    ((s.waitsOf part).any (·.spill)).toNat * 2 ^ 437 + (cycle.any (·.man)).toNat * 2 ^ 436 + s.clock.cycle % 2 ^ 64 * 2 ^ 320 +
    s.clock.tick % 2 ^ 64 * 2 ^ 256
  bytesOfNat 64 h ++ cycle.flatMap fun w => bytesOfNat 32 w.word.toNat

/-- DEADLOCK (R317, R338): the cycle's waiters are frozen, the record goes into the ring, and then the trap record is formed. It abandons the
pre-emption of a launch in the cycle, handled or not (R344). -/
def State.deadlock (s : State) (part : Nat) (cycle : List WaitEntry) : State :=
  match cycle with
  | [] => s
  | w :: _ =>
    let seq := nextSerial 32 (s.part part).dlkSeq
    let die := s.lowDie part
    let off := (s.partCfg part).dlkOff + seq % 16 * 1024
    let s1 := s.modPart part fun p => { p with
      dlkSeq := seq, waits := p.waits.map fun x => if cycle.any fun y => y.sameWaiter x then { x with frozen := true } else x
      preempt := p.preempt.filter fun x => !cycle.any fun y => (s.wave x.lid).contains y.wlid }
    let s2 := s1.writeBytes (dieKey die off) (s1.deadlockRecord part seq cycle)
    s2.notice { s2.waiterTrap part w .deadlock cycle.length (mkPtr 1 (die * 256) off) with cycle }

/-- Two cycles are one: the same entries, wherever they start. -/
def sameCycle (a b : List WaitEntry) : Bool := a.length == b.length && a.all fun x => b.any fun y => y.serial == x.serial

/-- Walks from some entries in ascending index; a cycle that one of them has closed already is not reported again, and an entry whose waiter is not
blocked closes none (R316). -/
def State.walkAll (s : State) (part : Nat) : List WaitEntry → List (List WaitEntry) → State
  | [], _ => s
  | w :: r, seen =>
    if !s.blocked w then State.walkAll s part r seen
    else match s.walkWaits part w 16 [w] 256 with
      | (some c, _) => if seen.any (sameCycle c) then State.walkAll s part r seen else State.walkAll (s.deadlock part c) part r (c :: seen)
      | (none, 0) => State.walkAll (s.modPart part fun p => { p with walkTrunc := p.walkTrunc + 1 }) part r seen
      | (none, _ + 1) => State.walkAll s part r seen

/-- The walks that a cycle leaves to make in a partition: over the table after the cycle's removals and with all its insertions, in ascending
index (R315, R316). -/
def State.walkPart (s : State) (part : Nat) : State :=
  if (s.part part).walks.isEmpty then s
  else (s.modPart part fun p => { p with walks := [] }).walkAll part ((s.waitsOf part).filter fun w => (s.part part).walks.contains w.serial) []

/-- The walks of every partition. -/
def State.walkCycle (s : State) : State := s.parts.foldl (fun s p => s.walkPart p.1) s

/-- A wait begins: its entries are inserted and priorities are inherited; the walks follow at the end of the cycle (R315, R316, R318). A wait that
the stores cannot hold whole is untracked, once (R319; DEDUCED, log entry 19). -/
def State.beginWait (s : State) (part : Nat) (ws : List WaitEntry) : State :=
  let s1 := s.modPart part fun p => ws.foldl Part.addWait p
  let lost := (s.part part).waits.length + ws.length != (s1.part part).waits.length
  (match ws with | w :: _ => if lost then s1.untrackedWait part w else s1 | [] => s1).inherit part

/-- An entry of a kind on an object, with its waiter and no holder yet. -/
def WaitEntry.blank (kind : Nat) (obj : Word) : WaitEntry :=
  { idx := 0, serial := 0, kind, obj := BitVec.ofNat 64 (obj.toNat / 64 * 64), wlid := 0, wrank := 0, wact := 0, wl := false,
    wprio := 0, man := false, hlid := 0, hrank := 0, hact := 0, ha := false, spill := false, req := none, frozen := false }

/-- The entry with an actor as its waiter (R307, R318). -/
def State.waitOf (s : State) (kind : Nat) (obj : Word) (lid rank la : Nat) (req : Option Nat) : WaitEntry :=
  { WaitEntry.blank kind obj with
    wlid := lid, wrank := rank, wact := la, req,
    wprio := match s.actor? rank la with | some a => s.effPrio a | none => 0 }

/-- One entry for each holding launch, or one without a holder (R306). -/
def WaitEntry.held (w : WaitEntry) (lids : List Nat) : List WaitEntry :=
  if lids.isEmpty then [w] else lids.map fun l => { w with hlid := l }

/-- The launches with a hold entry on a granule (R306). -/
def State.holdersOf (s : State) (part : Nat) (obj : Word) : List Nat :=
  (((s.waitsOf part).filter fun w => w.kind == 7 && w.obj == BitVec.ofNat 64 (obj.toNat / 64 * 64)).map (·.hlid)).eraseDups

/-- Some entries take a new holder, and are walked at the end of the cycle (R316, R318). -/
def State.rehold (s : State) (part : Nat) (hit : WaitEntry → Bool) (f : WaitEntry → WaitEntry) : State :=
  if !(s.waitsOf part).any hit then s
  else (s.modPart part fun p => { p with
      waits := modWhere hit f p.waits, walks := p.walks ++ (p.waits.filter hit).map (·.serial) }).inherit part

/-- The request of an entry waits at a home granule, by whichever offset or partition it has come there. -/
def State.waitsHome (s : State) (gran : Nat) (w : WaitEntry) : Bool :=
  (w.req.bind s.req?).any fun r => match r.pas.getD r.next none with | some k => k / 64 == gran | none => false

/-- The entries of a channel without a holder take the launch that sets SLID or RLID, in every partition that waits at the descriptor (R355). -/
def State.changeHolder (s : State) (kind gran lid : Nat) : State :=
  (s.parts.map (·.1)).foldl (fun u part => u.rehold part (fun w => w.kind == kind && w.hlid == 0 && s.waitsHome gran w) fun w => { w with hlid := lid }) s

end Sys2Proof.Machine
end

