-- ==== Sys2Proof/Machine/Memory.lean ====
section
/-! DEFINITION. Memory nodes: what an instruction checks and sends, the order in which the cluster memory interface forwards, held stores,
translation and misses (R215, R216, R218 to R222, R230 to R238, R292, R299, R323, R372). -/

namespace Sys2Proof.Machine

/-! ## Checks of a pointer (R106, R136, R215, R317, R332) -/

/-- The first fault of a request's pointers with the pointer as used: space, then alignment (R235). Where every lane is skipped, the base is left
to check: its space and owner, and of HOST or PEER its window. -/
def State.reqFault (s : State) (part : Nat) (k : ReqKind) (p : Word) : Option (TrapCode × Word) :=
  let ps := k.pieces p
  let base := if ps.isEmpty then
      s.spaceFault part (if ptrSpace p = 5 ∨ ptrSpace p = 6 then p else mkPtr (ptrSpace p) (ptrOwner p) 0) 0 k.remote k.writes
    else none
  match base with
  | some c => some (c, p)
  | none =>
    match ps.findSome? fun x => (s.spaceFault part x.ptr x.n k.remote k.writes).map fun c => (c, x.ptr) with
    | some r => some r
    | none => if ptrOff p % k.align ≠ 0 then some (.alignment, p) else none

/-! ## Issue -/

/-- A request that the trap record lists among the firing's memory requests (R330). -/
def ReqKind.listed : ReqKind → Bool
  | .waitv _ | .launchi _ _ _ | .fence _ | .null => false
  | _ => true

/-- The word that issues sends a request (R230): it takes its chain step, and a value comes due unless it is let go. -/
def State.sendReq (s : State) (dst : List Target) (ptr : Word) (kind : ReqKind) : State :=
  match s.here with
  | none => s
  | some (f, a) =>
    let scp := f.scpOf s.focus.id
    let (id, s1) := s.fresh
    let (chain, s2) := match f.seqOf s.focus.id with
      | some (c, st) => let r := s1.chainTake a.lid a.g c st; (some r.1, r.2)
      | none => (none, s1)
    let q : Req := {
      id, fid := f.fid, rank := s.focus.rank, la := f.la, lid := a.lid, g := a.g, slot := s.focus.id, dst, ptr, kind, chain, scp,
      inv := f.inv, stage := .queued, next := 0, pas := [], out := 0, ver := 0, count := 0, arr := id, sub := 0 }
    let s3 := { s2 with reqs := s2.reqs ++ [q] }.modFiring s.focus.rank fun f => { f with nmem := f.nmem + kind.listed.toNat }
    if kind.letGo dst then s3 else s3.addDue dst (.request id)

/-- The word that issues carries a PFX.SCP with a scope code above 4, which is IllegalEncoding at issue (R7). -/
def State.scopeBad (s : State) : Bool :=
  match s.here with | some (f, _) => (f.scpOf s.focus.id).any fun x => decide (4 < x.2.2) | none => false

/-- A checked request: a bad scope is IllegalEncoding with nothing performed (R7); a failed check is an imprecise fatal fault with the pointer. -/
def State.memIssue (s : State) (dst : List Target) (ptr : Word) (kind : ReqKind) : Result :=
  if s.scopeBad then .next (s.faultHere .illegalEncoding 0)
  else match s.reqFault s.herePart kind ptr with
  | some (c, p) => .next (s.fatalHere c p)
  | none => .next (s.sendReq dst ptr kind)

/-- The word that issues carries a chain. -/
def State.chained (s : State) : Bool := match s.here with | some (f, _) => (f.seqOf s.focus.id).isSome | none => false

/-- A load that a DET launch may not send (R323): GLOBAL or DIEMEM with no version mode, no dependence and no chain. -/
def State.detLoad (s : State) (m : LdMode) (d : Bool) (p : Word) : Bool :=
  s.hereDet && m == .plain && !d && !s.chained && decide (ptrSpace p ≤ 1)

/-- The version operand of a load (R235). -/
def State.verPort (s : State) : BitVec 16 := (s.portS .b).setWidth 16

/-- Privilege when `c`, else `r` (R323). A word that is both forbidden in a DET launch and has a scope code above 4 takes Privilege: the spec does
not order the two precise faults (DESIGN CHOICE, log entry 75). -/
def State.unlessDet (s : State) (c : Bool) (r : Result) : Result := if c then .next (s.faultHere .privilege 0) else r

/-- R235. -/
def execLdg (_p : Pred) (t : Ty) (a : Target) (d : Bool) (m : LdMode) (s : State) : Result :=
  s.unlessDet (s.detLoad m d (s.portS .a)) (s.memIssue [a] (s.portS .a) (.ldg t m s.verPort))

/-- R235. -/
def execStg (_p : Pred) (t : Ty) (a b : Target) (s : State) : Result := s.memIssue [a, b] (s.portS .a) (.stg t (s.portS .b))

/-- R235, R236. -/
def execLdgv (_p : Pred) (d : Bool) (m : LdMode) (a b : Target) (s : State) : Result :=
  s.unlessDet (s.detLoad m d (s.portS .a)) (s.memIssue [a, b] (s.portS .a) (.ldgv m s.verPort))

/-- R235, R236. -/
def execStgv (_p : Pred) (m : Bool) (a b : Target) (s : State) : Result :=
  s.memIssue [a, b] (s.portS .a) (.stgv (s.portV .b) (if m then s.portS .c else BitVec.allOnes 64))

/-- R235. -/
def execGath (_p : Pred) (t : Ty) (a b : Target) (s : State) : Result :=
  s.unlessDet (s.detLoad .plain false (s.portS .a)) (s.memIssue [a, b] (s.portS .a) (.gath t (s.portV .b)))

/-- R235. -/
def execScat (_p : Pred) (t : Ty) (a b : Target) (s : State) : Result :=
  s.memIssue [a, b] (s.portS .a) (.scat t (s.portV .b) (s.portV .c))

/-- R235. -/
def execVrcl (_p : Pred) (a b : Target) (s : State) : Result := s.memIssue [a, b] (s.portS .a) (.vrcl s.verPort)

/-- R235. -/
def execVqry (_p : Pred) (a b : Target) (s : State) : Result := s.memIssue [a, b] (s.portS .a) .vqry

/-- R299, R300. -/
def execAtom (_p : Pred) (t : Ty) (a : Target) (o : AtomOp) (s : State) : Result :=
  s.unlessDet (s.hereDet && o == .swap) (s.memIssue [a] (s.portS .a) (.atom false o t (s.portS .b)))

/-- R299, R300. -/
def execAtomr (_p : Pred) (t : Ty) (a : Target) (o : AtomOp) (s : State) : Result :=
  s.unlessDet s.hereDet (s.memIssue [a] (s.portS .a) (.atom true o t (s.portS .b)))

/-- R299, R300. -/
def execCas (_p : Pred) (t : Ty) (a b : Target) (s : State) : Result :=
  s.unlessDet s.hereDet (s.memIssue [a, b] (s.portS .a) (.cas t (s.portS .b) (s.portS .c)))

/-- R299, R301. -/
def execVatom (_p : Pred) (t : Ty) (a : Target) (o : AtomOp) (s : State) : Result :=
  s.unlessDet (s.hereDet && t == .f32) (s.memIssue [a] (s.portS .a) (.vatom o t (s.portV .b) (s.portV .c)))

/-- R299, R300. -/
def execFaadd (_p : Pred) (t : Ty) (a : Target) (r : Bool) (s : State) : Result :=
  s.unlessDet s.hereDet (s.memIssue [a] (s.portS .a) (.faadd r t (s.portS .b)))

/-- R304. -/
def execLockt (_p : Pred) (a b : Target) (s : State) : Result := s.unlessDet s.hereDet (s.memIssue [a, b] (s.portS .a) .lockt)

/-- R304. -/
def execUnlockt (_p : Pred) (a b : Target) (s : State) : Result := s.unlessDet s.hereDet (s.memIssue [a, b] (s.portS .a) .unlockt)

/-! ## Faults of a request -/

/-- A store's events leave the held-store buffer of its interface. -/
def State.dropHeld (s : State) (q : Req) : State :=
  if q.released then s.modCluster (q.rank / 16) fun c => { c with held := c.held.filter fun h => h.req != q.id } else s

/-- An imprecise fatal fault of a request, which is over (R331). -/
def State.reqFatal (s : State) (q : Req) (code : TrapCode) (addr aux : Word) : State :=
  ((s.dropHeld q).dropReq q.id).fatalTrap { s.mkTrap (lidPart q.lid) q.lid q.g q.rank code 0 addr aux with actor := q.la }

/-! ## Translation (R218 to R222) -/

/-- The set of the die's TLB that holds a page: 4,096 entries in eight ways make 512 sets (R221; which pages share a set is a DESIGN CHOICE, log
entry 83). -/
def TlbEntry.set (t : TlbEntry) : Nat := t.base / t.size % 512

/-- A page is the one that an entry translates. -/
def TlbEntry.same (t x : TlbEntry) : Bool := x.part == t.part && x.base == t.base && x.size == t.size

/-- A translation enters a set of eight ways, least recently used out (R221). -/
def dieTlbPut (t : TlbEntry) (l : List TlbEntry) : List TlbEntry :=
  let rest := l.filter fun x => !t.same x
  t :: ((rest.filter fun x => x.set == t.set).take 7 ++ rest.filter fun x => x.set != t.set)

/-- The die's TLB, which its clusters and its engines share, holds a translation that was used (R221). -/
def State.dieFill (s : State) (die part base size : Nat) (pte : Word) : State :=
  { s with dieTlb := alSet s.dieTlb die (dieTlbPut { part, base, size, pte } ((alGet s.dieTlb die).getD [])) }

/-- A micro-TLB, fully associative with 64 entries, and the die's TLB hold a translation that was used (R221). -/
def State.tlbFill (s : State) (c part base size : Nat) (pte : Word) : State :=
  let t : TlbEntry := { part, base, size, pte }
  (s.modCluster c fun x => { x with tlb := (t :: x.tlb.filter fun y => !t.same y).take 64 }).dieFill (c / 16) part base size pte

/-- What translating a piece finds. -/
inductive Xlate where
  | home (key : Nat) (ret roc : Bool)
  | remote
  | miss
  | denied
  deriving DecidableEq, Repr

/-- Translates an access of a partition (R218 to R220). -/
def State.xlate (s : State) (part : Nat) (p : Word) (reads writes : Bool) : Xlate :=
  match ptrSpace p with
  | 0 =>
    match s.walk part (ptrOff p) with
    | .miss => .miss
    | .malformed => .denied
    | .hit pa _ e => if (reads && !pteR e) || (writes && !pteW e) then .denied else .home pa (pteRet e) (pteRoc e)
  | 1 => .home (dieKey (ptrOwner p / 256) (ptrOff p)) false false
  | _ => .remote

/-- The page that a missed request waits for on its die (R221). -/
def State.missPage (s : State) (q : Req) : Nat × Nat :=
  let part := lidPart q.lid
  let p := match (q.kind.pieces q.ptr).find? fun x => s.xlate part x.ptr q.kind.reads q.kind.writes == .miss with | some x => x.ptr | none => q.ptr
  (part, ptrOff p / 2 ^ 16)

/-- The misses of a die's requests and of its engines, each with its arrival and page (R221). -/
def State.misses (s : State) (die : Nat) : List (Nat × Nat × Nat) :=
  ((s.reqs.filter fun q => q.stage == .missed && q.rank / 256 == die).map fun q => (q.arr, s.missPage q)) ++
    (List.range 8).flatMap fun e => (s.engine die e).queue.filterMap fun c => c.miss

/-- The pages that the 16 page walkers of a die work on: misses to one page share a walker, and others queue in arrival order (R221). -/
def State.walkers (s : State) (die : Nat) : List (Nat × Nat) :=
  let sorted := (s.misses die).foldl (fun (l : List (Nat × Nat × Nat)) m =>
    l.takeWhile (fun x => decide (x.1 ≤ m.1)) ++ m :: l.dropWhile fun x => decide (x.1 ≤ m.1)) []
  ((sorted.map (·.2)).eraseDups).take 16

/-- The home of a granule: a number for its bank (R72). -/
def homeOf (key : Nat) : Nat :=
  if key < hbmSize then 32 * (key / 64 % 24) + key / 64 / 24 % 32
  else 768 + (key - 2 ^ 48) / 2 ^ 24 * 64 + key / 64 % 64

/-! ## Forwarding order (R230, R233, R292, R293) -/

/-- The actor that names a chain step sends nothing more: it has retired, or its launch is stopping (R133, R233). -/
def State.stepSilent (s : State) (c : ChainPos) (aidx : Nat) : Bool :=
  !s.running c.lid || s.elems.all fun e => e.2.actors.all fun a => a.lid != c.lid || a.g != c.g || a.aidx != aidx || a.retired || a.done

/-- The position after the next step. -/
def ChainPos.advance (c : ChainPos) : ChainPos :=
  if c.at_ + 1 < c.steps.length then { c with at_ := c.at_ + 1 } else { c with at_ := 0, round := c.round + 1 }

/-- Nothing comes for the chain's next step: its actor is silent and has sent nothing for it, or a stop has dropped what it sent (R133, R233). -/
def State.stepVoid (s : State) (c : ChainPos) : Bool :=
  let x := c.steps.getD c.at_ (0, 0)
  s.stepSilent c x.2 && (decide (c.sent.getD c.at_ 0 ≤ c.round) ||
    (!s.running c.lid && !s.reqs.any fun r => r.lid == c.lid && r.g == c.g && r.chain == some (c.chain, x.1, c.round)))

/-- Steps for which nothing comes count as filled (R233). -/
def State.settleChain (s : State) : Nat → ChainPos → ChainPos
  | 0, c => c
  | n + 1, c => if s.stepVoid c then State.settleChain s n c.advance else c

/-- The last round that a request of a chain belongs to. -/
def State.lastRound (s : State) (c : ChainPos) : Nat :=
  s.reqs.foldl (fun m r => match r.chain with
    | some (ch, _, rd) => if r.lid == c.lid && r.g == c.g && ch == c.chain then Nat.max m rd else m
    | none => m) c.round

/-- The chain of a request at its interface, with void steps passed over. -/
def State.chainOf (s : State) (q : Req) : Option ChainPos :=
  match q.chain with
  | none => none
  | some (ch, _, _) =>
    (s.chains.find? fun c => c.lid == q.lid && c.g == q.g && c.chain == ch).map fun c =>
      s.settleChain (c.steps.length * (s.lastRound c + 2 - c.round)) c

/-- It is the request's turn in its chain. A chain that the image does not list has no order. -/
def State.chainTurn (s : State) (q : Req) : Bool :=
  match q.chain, s.chainOf q with
  | some (_, st, rd), some c => c.round == rd && (c.steps.getD c.at_ (0, 0)).1 == st
  | _, _ => true

/-- A request is acknowledged at DIE scope or wider, which every named scope is widened to (R80, R293). -/
def Req.acked (r : Req) : Bool := r.stage == .done

/-- PFX.SCP lets the request go on: earlier acquiring requests have completed, and a release has nothing before it (R80). -/
def State.scopeOk (s : State) (q : Req) : Bool :=
  let rel := q.scp.any fun x => x.2.1
  s.reqs.all fun r => !chainBefore r q || r.acked || r.kind == .null || (!rel && !(r.scp.any fun x => x.1))

/-- The one home of some keys. -/
def oneHome (l : List Nat) : Option Nat :=
  match l with
  | [] => none
  | k :: r => if r.all fun x => homeOf x == homeOf k then some (homeOf k) else none

/-- R291, R292: the chain's previous request has been acknowledged by its home, or went to the same home on the one path. A store in the
held-store buffer is not performed yet (R293), so only a store that the buffer takes too, which is released behind it, may follow it
(R238). -/
def State.homeOk (s : State) (q : Req) (home : Option Nat) (held : Bool) : Bool :=
  match s.chainOf q with
  | none => true
  | some c => match c.last with
    | none => true
    | some (id, h) => match s.req? id with
      | none => true
      | some r => r.stage == .done || (if held then r.stage == .held || r.released else home == some h && r.stage != .held)

/-- Unchained requests of a cluster are forwarded in the order they became ready; one that missed is overtaken (R220, R230). -/
def State.firstReady (s : State) (q : Req) : Bool :=
  s.reqs.all fun r => r.id == q.id || r.rank / 16 != q.rank / 16 || r.chain.isSome || r.stage != .queued || decide (q.id < r.id)

/-- A request is forwarded: its chain goes on, and it is the chain's last request if it has a home (R233, R292). -/
def State.advanceChain (s : State) (q : Req) (home : Option (Option Nat)) : State :=
  match q.chain, s.chainOf q with
  | some (ch, _, _), some c =>
    let c1 := c.advance
    let c2 := match home with | some h => { c1 with last := some (q.id, h.getD (2 ^ 20 + q.id)) } | none => c1
    { s with chains := modWhere (fun x => x.lid == q.lid && x.g == q.g && x.chain == ch) (fun _ => c2) s.chains }
  | _, _ => s

/-! ## Held stores (R238) -/

/-- Events that the held-store buffer of a cluster holds: those of stores that have not left it. -/
def State.heldCount (s : State) (c : Nat) : Nat :=
  ((s.cluster c).held.filter fun h => (s.req? h.req).any fun q => q.stage == .held).length

/-- A granule as a plain load of a group sees it through its interface: held bytes lie over the home's, the latest winning (R239). -/
def State.heldOver (s : State) (rank lid g gran : Nat) (v : Vec) : Vec :=
  ((s.cluster (rank / 16)).held.filter fun h => h.lid == lid && h.g == g && h.gran == gran).foldl
    (fun v h => mergeVec h.mask h.data v) v

/-- Takes a request's events, each with its key or its remote pointer, into the held-store buffer; one more than 512 is StoreHoldOverflow, with the
pointer of the store (R238, R331). -/
def State.takeHeld (s : State) (q : Req) (evs : List (Piece × Nat)) : State :=
  let c := q.rank / 16
  let new := evs.filterMap fun e =>
    let st := q.kind.storeOf e.1
    if st.1 = 0 then none
    else
      let h : HeldEvent := {
        req := q.id, lid := q.lid, g := q.g, inv := q.inv, gran := e.2 / 64, mask := st.1, data := st.2,
        ptr := mkPtr (ptrSpace e.1.ptr) (ptrOwner e.1.ptr) (ptrOff e.1.ptr / 64 * 64) }
      some (h, match q.kind with | .scat _ _ _ => e.1.ptr | _ => q.ptr)
  let room := 512 - s.heldCount c
  match new[room]? with
  | some h => s.reqFatal q .storeHoldOverflow h.2 0
  | none => (s.modCluster c fun x => { x with held := x.held ++ new.map (·.1) }).modReq q.id fun q => { q with stage := .held }

/-- The one home that a forwarded request goes to. -/
def Req.home? (q : Req) : Option Nat := oneHome (q.pas.filterMap fun k => k)

/-- A store whose invocation has ended leaves the held-store buffer behind every one that the buffer took before it (R238), and in a chain once each
request before it has been acknowledged by its home, or went to the same home (R292). -/
def State.releaseTurn (s : State) (q : Req) : Bool :=
  q.released && s.reqs.all fun r => r.id == q.id ||
    (!(r.stage == .held && r.lid == q.lid && r.g == q.g && r.rank / 16 == q.rank / 16 &&
        (decide (r.inv < q.inv) || (r.inv == q.inv && decide (r.arr < q.arr)))) &&
      (!chainBefore r q || r.acked || r.kind == .null || (r.stage == .home && r.home?.isSome && r.home? == q.home?)))

/-- A held store goes to its home with the translation it was taken with, or out to HOST or PEER (R221, R238). -/
def State.leaveBuffer (s : State) (q : Req) : State :=
  let (arr, s1) := s.fresh
  if q.pas.all (·.isNone) then (s1.modReq q.id fun r => { r with arr, stage := .remote }).sendRemote { q with stage := .remote }
  else s1.modReq q.id fun r => { r with arr, stage := .home }

/-! ## MEMORY_REQUEST_FORWARD and TRANSLATION_MISS_DECISION -/

/-- The ROC granules that a plain load needs stand in the cluster's cache (R222); its group's held bytes lie over them, as over the home's (R239). -/
def State.rocHit (s : State) (q : Req) (ps : List (Piece × Xlate)) : Option (List (Piece × Vec)) :=
  let c := s.cluster (q.rank / 16)
  let part := lidPart q.lid
  let hit := ps.filterMap fun e => match e.2 with
    | .home key _ true => (c.roc.find? fun r => r.1 == part && r.2.1 == ptrOff e.1.ptr / 64 * 64).map fun r =>
        (e.1, s.heldOver q.rank q.lid q.g (key / 64) r.2.2)
    | _ => none
  let plain := match q.kind with | .ldg _ .plain _ | .ldgv .plain _ | .gath _ _ => true | _ => false
  if plain && hit.length == ps.length && Config.rocAnswers q.id then some hit else none

/-- The cluster's TLB takes the pages of a request's GLOBAL pieces. -/
def State.fillTlbs (s : State) (q : Req) : List Piece → State
  | [] => s
  | x :: r =>
    let s1 := match s.walk (lidPart q.lid) (ptrOff x.ptr) with
      | .hit _ size pte =>
        if ptrSpace x.ptr = 0 then s.tlbFill (q.rank / 16) (lidPart q.lid) (ptrOff x.ptr / size * size) size pte else s
      | .miss | .malformed => s
    State.fillTlbs s1 q r

/-- Forwards a request whose turn has come: it is translated, and then held, sent out, answered from the read-only cache, or sent to
its home (R220, R222, R230, R238). -/
def State.forward (s : State) (q : Req) : State :=
  let part := lidPart q.lid
  let ps := (q.kind.pieces q.ptr).map fun x => (x, s.xlate part x.ptr q.kind.reads q.kind.writes)
  let keys := ps.filterMap fun e => match e.2 with | .home k _ _ => some k | _ => none
  let home := oneHome keys
  if ps.isEmpty then
    if q.kind = .null then (s.advanceChain q none).dropReq q.id
    else if s.homeOk q none false then (s.advanceChain q none).modReq q.id fun q => { q with stage := .done } else s
  else if ps.any fun e => e.2 == .miss then let (arr, s1) := s.fresh; s1.modReq q.id fun q => { q with stage := .missed, arr }
  else match ps.find? fun e => e.2 == .denied with
    | some e => (s.advanceChain q none).reqFatal q .permission (BitVec.ofNat 64 (ptrOff e.1.ptr)) 0
    | none =>
      if !s.homeOk q home (s.holds q) then s
      else
        let s1 := (s.advanceChain q (some home))
        let s2 := s1.fillTlbs q (ps.map (·.1))
        let (arr, s3) := s2.fresh
        let s4 := s3.modReq q.id fun q => { q with
          arr, next := 0,
          pas := ps.map fun e => match e.2 with | .home k _ _ => some k | _ => none,
          sub := (ps.zipIdx.foldl (fun n e => match e.1.2 with | .home _ true _ => n + 2 ^ e.2 | _ => n) 0) }
        match s4.req? q.id with
        | none => s4
        | some q1 =>
          if s.holds q then s4.takeHeld q1 (ps.map fun e => (e.1, match e.2 with | .home k _ _ => k | _ => e.1.ptr.toNat))
          else if keys.isEmpty then (s4.modReq q.id fun q => { q with stage := .remote }).sendRemote { q1 with stage := .remote }
          else match s.rocHit q ps with
            | some l => s4.modReq q.id fun q => { q with stage := .done, out := l.foldl (fun v e => q.kind.fill e.1 e.2 v) q.out }
            | none => s4.modReq q.id fun q => { q with stage := .home }

/-- MEMORY_REQUEST_FORWARD (R230, R233, R236, R238, R292), unless a full trap queue freezes the launch (R332). A FENCE is forwarded by
FENCE_COMPLETE. -/
def execMemoryRequestForward (req : Nat) (s : State) : Result :=
  match s.req? req with
  | none => .next s
  | some q =>
    let fence := match q.kind with | .fence _ => true | _ => false
    if s.ringFrozen q.lid || s.shelved q.lid then .next s
    else if q.stage = .held then .next (if s.releaseTurn q then s.leaveBuffer q else s)
    else if q.stage ≠ .queued || fence || !s.chainTurn q || !s.scopeOk q || (q.chain.isNone && !s.firstReady q) then .next s
    else .next (s.forward q)

/-- TRANSLATION_MISS_DECISION (R220, R221, R372): once a walker has met the missing page, it is mapped and the request replays, or Permission. -/
def execTranslationMissDecision (req : Nat) (s : State) : Result :=
  match s.req? req with
  | none => .next s
  | some q =>
    if q.stage ≠ .missed ∨ s.ringFrozen q.lid ∨ !(s.walkers (q.rank / 256)).contains (s.missPage q) then .next s
    else
      let part := lidPart q.lid
      match (q.kind.pieces q.ptr).find? fun x => s.xlate part x.ptr q.kind.reads q.kind.writes == .miss with
      | none => .next (s.modReq req fun q => { q with stage := .queued })
      | some x =>
        match s.decideMiss part (ptrOff x.ptr) with
        | some s1 => .next (s1.modReq req fun q => { q with stage := .queued })
        | none => .next ((s.advanceChain q none).reqFatal q .permission (BitVec.ofNat 64 (ptrOff x.ptr)) 0)

end Sys2Proof.Machine
end

