-- ==== Sys2Proof/Machine/Submit.lean ====
section
/-! DEFINITION. Launching: a launch record as it is accepted, its queue, and the instructions LAUNCH, LAUNCHI, LAUNCHT, SPLICE, LSTAT and
LCANCEL (R110 to R115, R124 to R128, R132). -/

namespace Sys2Proof.Machine

/-- What asks for a launch, with what LAUNCHI read: the count, its version, and whether it took any version. -/
inductive Form where
  | launch
  | launchi (n : Nat) (ver : BitVec 16) (any : Bool)
  | launcht
  | splice
  | start
  deriving DecidableEq, Repr

/-- A pointer that names a space of a list and is 64-byte aligned; GLOBAL has owner 0. That a GLOBAL pointer with an owner makes the record bad
(0x20) is a DESIGN CHOICE (log entry 79): R113 names the space and the alignment only, and R8 a SpaceViolation when the pointer is used. -/
def ptrIn (l : List Nat) (p : Word) : Bool := l.contains (ptrSpace p) && ptrOff p % 64 == 0 && (ptrSpace p != 0 || ptrOwner p == 0)

/-- A record that breaks R110 or what its form requires (R113 code 0x20, R124). -/
def badRecord (r : Vec) (form : Form) : Bool :=
  let f := fun hi lo => bf r hi lo
  let p := fun hi lo => (BitVec.ofNat 64 (bf r hi lo) : Word)
  f 40 0 != 0 || decide (1 < f 42 41) ||
  !ptrIn [0] (p 511 448) ||
  (f 447 384 != 0 && !ptrIn [0] (p 447 384)) ||
  (f 383 320 != 0 && !ptrIn (match form with | .start => [0, 1] | _ => [0, 1, 2]) (p 383 320)) ||
  (f 319 256 != 0 && !ptrIn [0, 5] (p 319 256)) ||
  (if f 42 41 = 1 then ptrSpace (p 255 192) != 0 || ptrOwner (p 255 192) != 0 || form == .splice
    else f 255 192 != 0 || f 95 80 != 0) ||
  (form != .launcht && f 191 128 != 0) ||
  (if form = .splice then f 127 96 == 0 else f 127 96 != 0) ||
  (match form with | .launchi _ _ _ => false | .launch | .launcht | .splice | .start => f 79 64 == 0)

/-- A launch record enters the model as a launch in a state. -/
def Launch.fresh (lid part : Nat) (recd : Vec) (params : List Word) (form : Form) (cycle : Nat) : Launch :=
  { lid, part, st := .queued, late := false, vany := (match form with | .launchi _ _ a => a | _ => false), spliced := false, reason := 0,
    vread := (match form with | .launchi _ v _ => v | _ => 0), recd, params, img := none, segs := [], origins := [], shingles := [],
    cbase := [], armed := none, succ := none, imgIdx := 0, idle := 0, moved := false, headAt := cycle, handles := none, saved := none,
    ended := [], atoms := [], engs := [], dieDone := [], timed := (form == .launcht) }

/-- Records in a queue (R114). -/
def Part.queueOf (p : Part) (q : Nat) : List Nat := (alGet p.queues q).getD []

/-- The state in which an accepted record stands, and its reason (R113, R124, R128). -/
def State.acceptance (s : State) (part : Nat) (recd : Vec) (form : Form) : LState × Nat :=
  let qlen := ((s.part part).queueOf (bf recd 49 44)).length
  if badRecord recd form then (.rejected, 0x20)
  else match form with
    | .launchi n _ _ =>
      if 65535 < n then (.rejected, 0x24)
      else if n = 0 then (.done, 0)
      else if 64 ≤ qlen then (.rejected, 0x21)
      else (if bf recd 42 41 = 1 then .waiting else .queued, 0)
    | .splice =>
      let known := bf (s.statusOf part (bf recd 127 96)) 63 60
      match s.launch? (bf recd 127 96) with
      | none => (.rejected, 0x23)
      | some l =>
        if known = 8 ∨ l.succ.isSome then (.rejected, 0x23)
        else match l.st with
          | .rejected | .cancelled | .faulted => (.rejected, 0x25)
          | .done => if 64 ≤ ((s.part part).queueOf 0).length then (.rejected, 0x21) else (.queued, 0)
          | .queued | .waiting | .loading | .running => (.queued, 0)
    | .launch | .launcht | .start =>
      if 64 ≤ qlen then (.rejected, 0x21) else (if bf recd 42 41 = 1 then .waiting else .queued, 0)

/-- The record with the group count that LAUNCHI read (R125). -/
def withCountOf (recd : Vec) (form : Form) : Vec :=
  match form with
  | .launchi n _ _ => BitVec.ofNat 512 (recd.toNat - bf recd 79 64 * 2 ^ 64 + n % 2 ^ 16 * 2 ^ 64)
  | .launch | .launcht | .splice | .start => recd

/-- A record enters the tail of a queue (R114). -/
def State.enqueue (s : State) (part q lid : Nat) : State :=
  (s.modPart part fun p => { p with queues := alSet p.queues q (p.queueOf q ++ [lid]) }).modLaunch lid fun l => { l with queueAt := q }

/-- The version wait of a record with a dependence (R115, R306). -/
def State.awaitDep (s : State) (l : Launch) : State :=
  let w := { WaitEntry.blank 5 l.depp with wlid := l.lid, wl := true, wprio := l.prio }
  s.beginWait l.part (w.held (s.holdersOf l.part l.depp))

/-- A launch record is accepted: an id is assigned, the record is checked and queued, and its status word is answered (R111, R124). Where the serial
has wrapped, the id leaves the launch that had it before and has ended (R111). -/
def State.submit (s : State) (part : Nat) (recd : Vec) (params : List Word) (form : Form) : State × Word :=
  let serial := nextSerial 27 (s.part part).lidSerial
  let lid := 2 ^ 27 * part + serial
  let (st, reason) := s.acceptance part recd form
  let l := { Launch.fresh lid part (withCountOf recd form) params form s.clock.cycle with st, reason }
  let s1 := { s with launches := (s.launches.filter fun (x : Launch) => x.lid != lid || !x.st.final) ++ [l] }.modPart part fun p => { p with lidSerial := serial }
  let pred := if form = .splice then s.launch? l.pred else none
  let s2 :=
    if st.final then s1.completionWrite lid
    else match pred with
      | none => s1.enqueue part l.queue lid
      | some x =>
        let s2 := s1.modLaunch x.lid fun y => { y with succ := some lid }
        if x.st = .done then s2.enqueue part 0 lid else s2
  let s3 := if st = .waiting then s2.awaitDep l else s2
  (s3, l.status)

/-! ## The launch instructions -/

/-- A fault of a read outside a request: its code, ADDR and AUX (R331). -/
abbrev ReadFault := TrapCode × Word × Word

/-- Eight parameters in a granule of DIEMEM or GLOBAL, read as one plain load: with the held bytes of the group of a launch, if an element reads, and
MemoryUncorrectable where the granule holds such an error (R124, R227, R239). -/
def State.paramHalf (s : State) (part rank : Nat) (who : Option (Nat × Nat)) (p : Word) : State × Except ReadFault (List Word) :=
  let take := fun (s : State) (key : Nat) =>
    if s.uncorrectable key then (s, Except.error (TrapCode.memoryUncorrectable, p, BitVec.ofNat 64 key))
    else
      let v := s.readVec key
      let w := match who with | some x => s.heldOver rank x.1 x.2 (key / 64) v | none => v
      (s, Except.ok ((List.range 8).map fun i => BitVec.ofNat 64 (bf w (64 * i + 63) (64 * i))))
  if ptrSpace p = 1 then take s (dieKey (ptrOwner p / 256) (ptrOff p))
  else match s.globalXlate part (ptrOff p) with
    | (s1, some (pa, e)) => if pteR e then take s1 pa else (s1, .error (.permission, BitVec.ofNat 64 (ptrOff p), 0))
    | (s1, none) => (s1, .error (.permission, BitVec.ofNat 64 (ptrOff p), 0))

/-- The 16 launch parameters at PARAMP, or the fault that reading them raises (R110, R124). `who` is the launch and group whose element reads; none
where Ridge does. -/
def State.readParams (s : State) (part rank : Nat) (who : Option (Nat × Nat)) (p : Word) : State × Except ReadFault (List Word) :=
  if p = 0 ∨ ptrOff p % 64 ≠ 0 then (s, .ok (List.replicate 16 0))
  else match ptrSpace p with
    | 2 =>
      if ptrOwner p ≠ rank then (s, .error (.spaceViolation, p, 0))
      else if 32768 < ptrOff p + 128 ∨ s.meetsFifo rank (ptrOff p) 128 then (s, .error (.spaceViolation, p, 0))
      else (s, .ok ((List.range 16).map fun i => BitVec.ofNat 64 (s.readNat (localKey rank (ptrOff p) + 8 * i) 8)))
    | 0 | 1 =>
      match s.spaceFault part p 128 false false with
      | some c => (s, .error (c, p, 0))
      | none =>
        match s.paramHalf part rank who p with
        | (s1, .error x) => (s1, .error x)
        | (s1, .ok a) => match s1.paramHalf part rank who (ptrAdd p 64) with
          | (s2, .error x) => (s2, .error x)
          | (s2, .ok b) => (s2, .ok (a ++ b))
    | _ => (s, .ok (List.replicate 16 0))

/-- The checks and reads that the launch instructions share; `k` takes the record and its parameters (R124). -/
def State.launchRecord (s : State) (k : State → Vec → List Word → State) : Result :=
  match s.recordCheck (s.portS .a) with
  | .bad c => .next (s.fatalHere c (s.portS .a))
  | .ok o =>
    let r := s.localVec o
    let prio := match s.hereLaunch with | some l => l.prio | none => 0
    if prio < bf r 53 50 ∧ s.herePart ≠ 0 then .next (s.faultHere .privilege 0)
    else
      let pp : Word := BitVec.ofNat 64 (bf r 383 320)
      match s.readParams s.herePart s.focus.rank (s.here.map fun x => (x.2.lid, x.2.g)) pp with
      | (s1, .error x) => .next (s1.fatalAux s.focus.rank s.focus.id x.1 x.2.1 x.2.2)
      | (s1, .ok ps) => .next (k s1 r ps)

/-- One more launch or command of the firing (R330). -/
def State.countLaunch (s : State) : State := s.modFiring s.focus.rank fun f => { f with nlau := f.nlau + 1 }

/-- Submits the record of the word that issues and delivers the status word. -/
def State.launchHere (s : State) (a b : Target) (form : Form) : Result :=
  s.launchRecord fun s r ps =>
    let x := s.countLaunch.submit s.herePart r ps form
    x.1.out2 a b x.2

/-- R124. -/
def execLaunch (_p : Pred) (a b : Target) (s : State) : Result := s.launchHere a b .launch

/-- R124, R126. -/
def execLauncht (_p : Pred) (a b : Target) (s : State) : Result := s.launchHere a b .launcht

/-- R124, R127, R128. -/
def execSplice (_p : Pred) (a b : Target) (s : State) : Result := s.launchHere a b .splice

/-- R125: the count is read at its home, once the version is there. -/
def execLaunchi (_p : Pred) (a b : Target) (s : State) : Result :=
  if s.scopeBad then .next (s.faultHere .illegalEncoding 0)
  else s.launchRecord fun s r ps =>
    let k := ReqKind.launchi r ps ((s.portS .c).setWidth 16)
    match s.reqFault s.herePart k (s.portS .b) with
    | some (c, p) => s.fatalHere c p
    | none => s.countLaunch.sendReq [a, b] (s.portS .b) k

/-- The launch id on port A (R132). -/
def State.lidPort (s : State) : Nat := bf (s.portS .a) 31 0

/-- R112, R132. -/
def execLstat (_p : Pred) (a b : Target) (s : State) : Result := .next (s.out2 a b (s.statusOf s.herePart s.lidPort))

/-- Cancels a launch (R132): a running one stops, any other leaves its queue with what it installed. A successor that is not yet running
becomes REJECTED 0x25. -/
def State.cancelLaunch (s : State) (lid : Nat) : State := s.stopLaunch lid .cancelled 0

/-- R132: a cancel of the issuer's own launch takes effect when the firing ends. -/
def execLcancel (_p : Pred) (a b : Target) (s : State) : Result :=
  let st := s.statusOf s.herePart s.lidPort
  let own := match s.hereLaunch with | some l => l.lid == s.lidPort | none => false
  .next (if 3 < bf st 63 60 then s.out2 a b st
    else if own then (s.modFiring s.focus.rank fun f => { f with cancel := true }).out2 a b st
    else (s.cancelLaunch s.lidPort).out2 a b st)

end Sys2Proof.Machine
end

