-- ==== Sys2Proof/Machine/Bank.lean ====
section
/-! DEFINITION. The home banks: one event of a request, waiting requests, locks, and the answers that reach the firing (R226 to R231, R234 to
R239, R290 to R294, R299 to R304, R308 to R311, R314, R355). A full trap queue freezes the requests of a launch whose record waits for it (R332). -/

namespace Sys2Proof.Machine

/-! ## Pieces of an event -/

/-- The vector with bits [hi:lo] replaced. -/
def setBits (v : Vec) (hi lo n : Nat) : Vec := BitVec.ofNat 512 (v.toNat - 2 ^ lo * bf v hi lo + 2 ^ lo * (n % 2 ^ (hi + 1 - lo)))

def State.overHeld (s : State) (q : Req) (gran : Nat) (v : Vec) : Vec := s.heldOver q.rank q.lid q.g gran v

/-- A granule of a read-only page enters the cluster's 16 KiB cache (R222). -/
def State.rocPut (s : State) (q : Req) (p : Word) (v : Vec) : State :=
  let part := lidPart q.lid
  let base := ptrOff p / 64 * 64
  match s.walk part (ptrOff p) with
  | .hit _ _ e =>
    if ptrSpace p = 0 ∧ pteRoc e then
      s.modCluster (q.rank / 16) fun c => { c with
        roc := ((part, base, v) :: c.roc.filter fun r => !(r.1 == part && r.2.1 == base)).take 256 }
    else s
  | .miss | .malformed => s

/-- A piece of a request has been performed; after the last one the request is acknowledged (R236). -/
def State.pieceDone (s : State) (q : Req) : State :=
  s.modReq q.id fun r => { r with
    next := r.next + 1, stage := if r.next + 1 < (r.kind.pieces r.ptr).length then .home else .done }

/-- A request is performed and acknowledged. -/
def State.reqDone (s : State) (q : Req) (out : Vec) (ver : BitVec 16) : State :=
  (s.endWait (lidPart q.lid) q.id).modReq q.id fun r => { r with stage := .done, out, ver }

/-- A request waits at its home from now on, for holders of its own kind of wait (R306). -/
def State.reqBegin (s : State) (q : Req) (kind : Nat) (holders : List Nat) : State :=
  ((s.endWait (lidPart q.lid) q.id).modReq q.id fun r => { r with stage := .waiting }).beginWait (lidPart q.lid)
    ((s.waitOf kind q.ptr q.lid q.rank q.la (some q.id)).held holders)

/-- A request begins to wait at its home, or goes on waiting (R290, R306). -/
def State.reqWait (s : State) (q : Req) (kind : Nat) (holders : List Nat) : State :=
  if q.stage = .waiting then s else s.reqBegin q kind holders

/-- An event of a store that has left the held-store buffer is performed, so no load is given its bytes from there any more (R239). -/
def State.unhold (s : State) (q : Req) (x : Piece) : State :=
  if q.released && (q.kind.storeOf x).1 != 0 then s.modCluster (q.rank / 16) fun c => { c with held := c.held.eraseP fun h => h.req == q.id } else s

/-- A store piece is one event; one that writes no byte is none (R228). -/
def State.storePiece (s : State) (q : Req) (x : Piece) (key : Nat) (ret : Bool) : State :=
  let st := q.kind.storeOf x
  let s1 := (s.unhold q x).storeEvent (lidPart q.lid) ret (key / 64) st.1 st.2
  (if st.1 = 0 then s1 else s1.modReq q.id fun r => { r with ver := s1.ver (key / 64) }).pieceDone q

/-- A GE or EQ load at its home (R235): answered with the current or a stashed version, waiting, or VersionReclaimed. -/
def State.versionLoad (s : State) (q : Req) (x : Piece) (key : Nat) (ret : Bool) (m : LdMode) (v : BitVec 16) : State :=
  let part := lidPart q.lid
  let gran := key / 64
  let cur := s.ver gran
  let wait := s.reqWait q 4 (s.holdersOf part q.ptr)
  if versionMet m v cur then s.reqDone q (q.kind.fill x (s.readVec (gran * 64)) 0) cur
  else if m = .ge ∨ !versionGe cur v then wait
  else match s.stash.find? fun e => ret && e.gran == gran && e.ver == v with
    | some e => s.reqDone q (q.kind.fill x e.data 0) v
    | none => s.reqFatal q .versionReclaimed q.ptr 0

/-- VRCL drops the granule's older versions of the partition, and counts them (R229, R235). -/
def State.reclaim (s : State) (q : Req) (gran : Nat) (v : BitVec 16) : State :=
  let hit := fun (e : StashEntry) => e.part == lidPart q.lid && e.gran == gran && versionGe v e.ver && e.ver != v
  let n := (s.stash.filter hit).length
  State.reqDone { s with stash := s.stash.filter fun e => !hit e } q 0 (BitVec.ofNat 16 n)

/-! ## Atomics (R300 to R302) -/

/-- The new value of an atomic operation on a cell. -/
def atomNew (o : AtomOp) (t : Ty) (old b : Nat) : Nat :=
  if t.isFloat then (roundOp t .rne false (fvAdd .rne (floatOf t old) (floatOf t b))).1
  else match o with
    | .add => (old + b) % 2 ^ t.width
    | .and => old &&& b
    | .or => old ||| b
    | .xor => old ^^^ b
    | .min => if intOf t b < intOf t old then b else old
    | .max => if intOf t old < intOf t b then b else old
    | .swap => b

/-- The new value that a request leaves in a cell: `none` when it does not write (R300). -/
def ReqKind.cellNew (k : ReqKind) (lane_ : Nat) (old : Nat) : Option Nat :=
  match k with
  | .atom _ o t b => some (atomNew o t old (lowBits t b))
  | .cas t e n => if old = lowBits t e then some (lowBits t n) else none
  | .faadd _ t b => some (atomNew .add t old (lowBits t b))
  | .vatom o t _ x => some (atomNew o t old (lane t x lane_))
  | _ => none

/-- A global atomic is performed (R336). -/
def State.countAtom (s : State) (q : Req) : State := s.modLaunch q.lid fun l =>
  if (match l.img with | some im => im.invm | none => false) then { l with atoms := l.atoms ++ [(q.g, q.inv)] } else l

/-- One event of an atomic at its home: the old value is read, and the new one written, with nothing between (R300, R301). -/
def State.atomPiece (s : State) (q : Req) (x : Piece) (key : Nat) (ret : Bool) : State :=
  let old := s.readNat key x.n
  let s1 := match q.kind.cellNew x.lane old with
    | some n => s.storeEvent (lidPart q.lid) ret (key / 64) (maskAt (key % 64) x.n) (placeAt (key % 64) n)
    | none => s
  ((s1.countAtom q).modReq q.id fun r => { r with out := BitVec.ofNat 512 old, ver := s1.ver (key / 64) }).pieceDone q

/-! ## Barriers and channels (R308 to R310, R355) -/

/-- One store event that leaves a granule with new bytes. -/
def State.putGran (s : State) (q : Req) (gran : Nat) (ret : Bool) (v : Vec) : State :=
  s.storeEvent (lidPart q.lid) ret gran (BitVec.allOnes 64) v

/-- The launches with a slot of a barrier that has not arrived, each once (R306, R309). -/
def barLids (c : Vec) : List Nat :=
  (((List.range (Nat.min 8 (bf c 39 32))).filter fun i => bf c (40 + i) (40 + i) == 0).map fun i => bf c (95 + 32 * i) (64 + 32 * i)).eraseDups

/-- A launch that has arrived no longer holds those who wait at the barrier (R306; log entry 20). -/
def State.barArrived (s : State) (q : Req) (gran : Nat) (c : Vec) : State :=
  if (barLids c).contains q.lid then s
  else (s.parts.map (·.1)).foldl (fun u part =>
    u.dropWaits part fun w => w.kind == 0 && w.hlid == q.lid && w.req != some q.id && s.waitsHome gran w) s

/-- BAR at its granule (R309): arrival, the release of a full generation, or a wait. One that waited for a new generation waits, once it has
arrived there, for the launches that have not. `sub` is 1 once its slot has arrived in the generation
that `count` holds. -/
def State.barEvent (s : State) (q : Req) (key : Nat) (ret : Bool) (i : Nat) : State :=
  let gran := key / 64
  let c := s.readVec (gran * 64)
  let n := bf c 39 32
  let gen := bf c 31 0
  if q.sub / 2 = 1 then
    (if gen = q.count then s else s.reqDone q (BitVec.ofNat 512 ((q.count + 1) % 2 ^ 32)) (s.ver gran))
  else if n = 0 ∨ n ≤ i ∨ bf c (95 + 32 * i) (64 + 32 * i) ≠ q.lid then s.reqFatal q .illegalEncoding 0 0
  else if bf c (40 + i) (40 + i) = 1 then s.reqWait q 0 (barLids c)
  else
    let c1 := setBits c (40 + i) (40 + i) 1
    let full := (List.range n).all fun k => bf c1 (40 + k) (40 + k) == 1
    if full then
      let s1 := (s.putGran q gran ret (setBits (setBits c1 47 40 0) 31 0 (gen + 1)))
      s1.reqDone q (BitVec.ofNat 512 ((gen + 1) % 2 ^ 32)) (s1.ver gran)
    else
      let s1 := ((s.putGran q gran ret c1).modReq q.id fun r => { r with sub := r.sub % 2 + 2, count := gen }).barArrived q gran c1
      s1.reqBegin q 0 (barLids c1)

/-- The key of a ring granule, with the page's RET, or the fault that reaching it raises (R310). -/
def State.ringKey (s : State) (q : Req) (p : Word) (write : Bool) : State × Except (TrapCode × Word) (Nat × Bool) :=
  let part := lidPart q.lid
  match s.spaceFault part p 64 false write with
  | some c => (s, .error (c, p))
  | none =>
    if ptrOff p % 64 ≠ 0 then (s, .error (.alignment, p))
    else if ptrSpace p = 1 then (s, .ok (dieKey (ptrOwner p / 256) (ptrOff p), false))
    else match s.globalXlate part (ptrOff p) with
      | (s1, some (pa, e)) =>
        if (if write then pteW e else pteR e) then (s1, .ok (pa, pteRet e))
        else (s1, .error (.permission, BitVec.ofNat 64 (ptrOff p)))
      | (s1, none) => (s1, .error (.permission, BitVec.ofNat 64 (ptrOff p)))

/-- The ring slot that a count names. -/
def ringSlot (c : Vec) (n : Nat) : Word := ptrAdd (BitVec.ofNat 64 (bf c 511 448)) (64 * (n % bf c 447 432) : Nat)

/-- The next phase of a channel operation. -/
def State.chanPhase (s : State) (q : Req) (n : Nat) : State :=
  (s.endWait (lidPart q.lid) q.id).modReq q.id fun r => { r with count := n, stage := .home }

/-- The arrival of a channel operation (R310): DEPTH and the launch's end are checked, and the first use sets SLID or RLID as its own event,
which joins the waiters that knew no holder (R355). -/
def State.chanArrive (s : State) (q : Req) (gran : Nat) (ret send : Bool) (go : State → State) : State :=
  let c := s.readVec (gran * 64)
  let id := if send then bf c 319 288 else bf c 287 256
  if bf c 447 432 = 0 then s.reqFatal q .illegalEncoding 0 0
  else if id = 0 then
    let s1 := s.putGran q gran ret (if send then setBits c 319 288 q.lid else setBits c 287 256 q.lid)
    (s1.chanPhase q 1).changeHolder (if send then 3 else 2) gran q.lid
  else if id ≠ q.lid then s.reqFatal q .permission q.ptr 0
  else go (s.modReq q.id fun r => { r with count := 1 })

/-- CHSEND (R310): arrival, the wait for a credit, the ring slot's write, and SENT. -/
def State.chsendEvent (s : State) (q : Req) (key : Nat) (ret : Bool) (x : Vec) : State :=
  let gran := key / 64
  let c := s.readVec (gran * 64)
  let credit := fun (s : State) =>
    if ringDiff (bf c 415 384) (bf c 351 320) < bf c 447 432 then s.chanPhase q 2
    else s.reqWait q 2 (if bf c 287 256 = 0 then [] else [bf c 287 256])
  match q.count with
  | 0 => s.chanArrive q gran ret true credit
  | 1 => credit s
  | 2 =>
    match s.ringKey q (ringSlot c (bf c 415 384)) true with
    | (s1, .error (code, p)) => s1.reqFatal q code p 0
    | (s1, .ok (k, r)) => (s1.putGran q (k / 64) r x).chanPhase q 3
  | _ =>
    let s1 := s.putGran q gran ret (setBits c 415 384 (bf c 415 384 + 1))
    s1.reqDone q 0 (s1.ver gran)

/-- CHRECV (R310): arrival, the wait for an item, the load of its slot, and RCVD. -/
def State.chrecvEvent (s : State) (q : Req) (key : Nat) (ret : Bool) : State :=
  let gran := key / 64
  let c := s.readVec (gran * 64)
  let item := fun (s : State) =>
    if ringDiff (bf c 415 384) (bf c 383 352) ≠ 0 then s.chanPhase q 2
    else s.reqWait q 3 (if bf c 319 288 = 0 then [] else [bf c 319 288])
  match q.count with
  | 0 => s.chanArrive q gran ret false item
  | 1 => item s
  | 2 =>
    match s.ringKey q (ringSlot c (bf c 383 352)) false with
    | (s1, .error (code, p)) => s1.reqFatal q code p 0
    | (s1, .ok (k, _)) =>
      if s1.uncorrectable k then s1.reqFatal q .memoryUncorrectable (ringSlot c (bf c 383 352)) (BitVec.ofNat 64 k)
      else (s1.modReq q.id fun r => { r with out := s1.readVec (k / 64 * 64) }).chanPhase q 3
  | _ =>
    let s1 := s.putGran q gran ret (setBits c 383 352 (bf c 383 352 + 1))
    s1.reqDone q q.out (s1.ver gran)

/-- CHCRED (R310): arrival, and CRED in one event when it grows. -/
def State.chcredEvent (s : State) (q : Req) (key : Nat) (ret : Bool) (n : Word) : State :=
  let gran := key / 64
  let c := s.readVec (gran * 64)
  let give := fun (s : State) =>
    let k := Nat.min n.toNat (ringDiff (bf c 383 352) (bf c 351 320))
    let s1 := if k = 0 then s else s.putGran q gran ret (setBits c 351 320 (bf c 351 320 + k))
    s1.reqDone q (BitVec.ofNat 512 k) (s1.ver gran)
  match q.count with
  | 0 => s.chanArrive q gran ret false give
  | _ => give s

/-! ## Lock tokens (R304) -/

/-- The lock token of a request: its bank and number. -/
def Req.token (q : Req) : Nat × Nat :=
  (match q.pas.head? with | some (some k) => homeOf k | _ => 0, ptrOff q.ptr / 64 % 64)

/-- The holder of a token. -/
def State.lockHolder (s : State) (b : Nat × Nat) : Option Lock := s.locks.find? fun l => l.bank == b.1 && l.tok == b.2

/-- Requests that wait for a token. -/
def State.lockWaiters (s : State) (b : Nat × Nat) : List Req := s.reqs.filter fun r => r.stage == .waiting && r.kind == .lockt && r.token == b

/-- The token is granted to the request's actor. -/
def State.grant (s : State) (q : Req) : State :=
  let l : Lock := { bank := q.token.1, tok := q.token.2, lid := q.lid, rank := q.rank, la := q.la }
  State.reqDone { s with locks := s.locks ++ [l] } q 0 0

/-- The actor of a request holds a token. -/
def Lock.heldBy (l : Lock) (q : Req) : Bool := l.lid == q.lid && l.rank == q.rank && l.la == q.la

/-- LOCKT at its bank: a free token that nobody waits for is granted; otherwise a lock wait begins. -/
def State.locktEvent (s : State) (q : Req) : State :=
  match s.lockHolder q.token with
  | some l =>
    let w := s.waitOf 1 q.ptr q.lid q.rank q.la (some q.id)
    (s.modReq q.id fun r => { r with stage := .waiting }).beginWait (lidPart q.lid)
      [{ w with hlid := l.lid, hrank := l.rank, hact := l.la, ha := true }]
  | none =>
    if (s.lockWaiters q.token).isEmpty then s.grant q
    else (s.modReq q.id fun r => { r with stage := .waiting }).beginWait (lidPart q.lid) [s.waitOf 1 q.ptr q.lid q.rank q.la (some q.id)]

/-- UNLOCKT at its bank first waits for what its actor issued before; UNLOCK_RELEASE frees the token, or finds that the actor does not hold it. -/
def State.unlocktEvent (s : State) (q : Req) : State := s.modReq q.id fun r => { r with stage := .waiting }

/-- The entries of those who wait for a token name another holder, or none while nobody holds it (R304, R306, R316). -/
def State.lockRehold (s : State) (b : Nat × Nat) (f : WaitEntry → WaitEntry) : State :=
  let ws := s.lockWaiters b
  ((ws.map fun r => lidPart r.lid).eraseDups).foldl (fun s part =>
    s.rehold part (fun w => w.kind == 1 && (match w.req with | some i => ws.any (fun r => r.id == i) | none => false)) f) s

/-- A freed token leaves the bank's pool of held ones; its waiters wait on no holder until the next grant (R304). -/
def State.freeToken (s : State) (l : Lock) : State :=
  State.lockRehold { s with locks := s.locks.filter fun x => !(x.bank == l.bank && x.tok == l.tok) } (l.bank, l.tok)
    fun w => { w with hlid := 0, hrank := 0, hact := 0, ha := false }

/-- LOCK_GRANT (R304): a free token goes to the waiter of highest effective priority, and in arrival order among equals. -/
def execLockGrant (req : Nat) (s : State) : Result :=
  match s.req? req with
  | none => .next s
  | some q =>
    let prio := fun (r : Req) => match s.actor? r.rank r.la with | some a => s.effPrio a | none => 0
    let first := (s.lockWaiters q.token).all fun r =>
      r.id == q.id || s.frozenReq r || s.ringFrozen r.lid || decide (prio r < prio q) || (prio r == prio q && decide (q.arr ≤ r.arr))
    if q.kind ≠ .lockt ∨ q.stage ≠ .waiting ∨ s.frozenReq q ∨ s.ringFrozen q.lid ∨ (s.lockHolder q.token).isSome ∨ !first then .next s
    else .next ((s.grant q).lockRehold q.token fun w => { w with hlid := q.lid, hrank := q.rank, hact := q.la, ha := true })

/-- UNLOCK_RELEASE (R304): every memory request and engine command that the actor issued before has been acknowledged at DIE scope. A token that
the actor does not hold then is Permission. -/
def execUnlockRelease (req : Nat) (s : State) : Result :=
  match s.req? req with
  | none => .next s
  | some q =>
    let memory := fun (k : ReqKind) => match k with
      | .bar _ | .chsend _ | .chrecv | .chcred _ | .waitv _ | .launchi _ _ _ | .fence _ | .null => false
      | _ => true
    let clear := s.reqs.all fun r => r.lid != q.lid || r.rank != q.rank || r.la != q.la || decide (q.id ≤ r.id) || !memory r.kind || r.acked
    let engines := s.engines.all fun e => e.2.queue.all fun c => c.lid != q.lid || c.rank != q.rank || c.la != q.la || decide (q.id < c.seq)
    let room := match s.firing? q.rank with
      | some f => f.la != q.la || f.due.all fun d => match d.what with | .engineRoom _ _ _ _ _ sq _ => decide (q.id < sq) | _ => true
      | none => true
    if q.kind ≠ .unlockt ∨ q.stage ≠ .waiting ∨ s.ringFrozen q.lid ∨ !clear ∨ !engines ∨ !room then .next s
    else match s.lockHolder q.token with
      | some l => if l.heldBy q then .next ((s.freeToken l).reqDone q 0 0) else .next (s.reqFatal q .permission q.ptr 0)
      | none => .next (s.reqFatal q .permission q.ptr 0)

/-! ## One event of a request -/

/-- A version wait that delivers what it reads (R125, R311). -/
def State.versionEvent (s : State) (q : Req) (gran : Nat) (v : BitVec 16) (go : State → BitVec 16 → State) : State :=
  let cur := s.ver gran
  if versionGe cur v then go s cur else s.reqWait q 4 (s.holdersOf (lidPart q.lid) q.ptr)

/-- LAUNCHI reads its count and the version in one event, and the record is submitted (R125). -/
def State.launchiEvent (s : State) (q : Req) (key : Nat) (recd : Vec) (params : List Word) (v : BitVec 16) : State :=
  let go := fun (s : State) (cur : BitVec 16) =>
    let x := s.submit (lidPart q.lid) recd params (.launchi (s.readNat key 4) cur (v == 0))
    x.1.reqDone q (x.2.setWidth 512) cur
  if v = 0 then go s (s.ver (key / 64)) else s.versionEvent q (key / 64) v go

/-- The next event of a request at its home (R216, R290). -/
def State.bankEvent (s : State) (q : Req) : State :=
  match (q.kind.pieces q.ptr)[q.next]?, q.pas.getD q.next none with
  | some x, some key =>
    let gran := key / 64
    let ret := q.sub.testBit q.next
    match q.kind with
    | .ldg _ .plain _ | .ldgv .plain _ | .gath _ _ =>
      let v := s.readVec (gran * 64)
      ((s.rocPut q x.ptr v).modReq q.id fun r => { r with out := r.kind.fill x (s.overHeld q gran v) r.out, ver := s.ver gran }).pieceDone q
    | .ldg _ m v | .ldgv m v => s.versionLoad q x key ret m v
    | .stg _ _ | .stgv _ _ | .scat _ _ _ => s.storePiece q x key ret
    | .vrcl v => s.reclaim q gran v
    | .vqry => s.reqDone q 0 (s.ver gran)
    | .atom _ _ _ _ | .cas _ _ _ | .vatom _ _ _ _ | .faadd _ _ _ => s.atomPiece q x key ret
    | .lockt => s.locktEvent q
    | .unlockt => s.unlocktEvent q
    | .bar i => s.barEvent q key ret i
    | .chsend v => s.chsendEvent q key ret v
    | .chrecv => s.chrecvEvent q key ret
    | .chcred n => s.chcredEvent q key ret n
    | .waitv v => s.versionEvent q gran v fun s cur => s.reqDone q 0 cur
    | .launchi r ps v => s.launchiEvent q key r ps v
    | .fence _ | .null => s
  | _, _ => s

/-- The next event of a request has a home at which another request still has an event. -/
def Req.meets (q r : Req) : Bool := (r.pas.drop r.next).any fun k => k.map homeOf == (q.pas.getD q.next none).map homeOf

/-- Requests of one chain at one home are performed in the order they were forwarded, and one that waits holds the later ones (R292). The stores that an
interface has released go to a home in the order it took them (R238). -/
def State.blockedAtHome (s : State) (q : Req) : Bool :=
  s.reqs.any fun r => r.id != q.id && r.lid == q.lid && r.g == q.g && (r.stage == .home || r.stage == .waiting) && decide (r.arr < q.arr) &&
    ((r.chain.isSome && q.chain.isSome && (r.chain.map (·.1)) == (q.chain.map (·.1))) ||
      (r.released && q.released && r.rank / 16 == q.rank / 16 && q.meets r))

/-- HOME_BANK_EVENT (R290). An uncorrectable word of global memory is MemoryUncorrectable, found in this access or there since an earlier one; a
single-bit error is corrected and counted by its stack (R227). A store over the whole granule reads nothing and meets no old error. -/
def execHomeBankEvent (req : Nat) (err : SoftErr) (s : State) : Result :=
  match s.req? req with
  | none => .next s
  | some q =>
    let whole := match (q.kind.pieces q.ptr)[q.next]? with | some x => (q.kind.storeOf x).1 == BitVec.allOnes 64 | none => false
    let old := match q.pas.getD q.next none with | some key => s.faulty.contains (key / 64) && !whole | none => false
    let found := if old then SoftErr.double else err
    if q.stage ≠ .home ∨ s.ringFrozen q.lid ∨ s.blockedAtHome q then .next s
    else match found, q.pas.getD q.next none with
      | .double, some key =>
        if key < hbmSize then
          .next (State.reqFatal { s with faulty := if s.faulty.contains (key / 64) then s.faulty else s.faulty ++ [key / 64] } q .memoryUncorrectable
            q.ptr (BitVec.ofNat 64 key))
        else .next (s.bankEvent q)
      | .single, some key =>
        if key < hbmSize then .next (State.bankEvent { s with softErr := alAdd s.softErr (2 ^ 20 + key / 64 % 24) 1 } q)
        else .next (s.bankEvent q)
      | _, _ => .next (s.bankEvent q)

/-- WAITING_REQUEST_PERFORM (R290): a waiting request whose condition holds is performed as its own event, in arrival order among those at
its home; a frozen one stays (R317). A granule that has become uncorrectable meanwhile is MemoryUncorrectable (R227). -/
def execWaitingRequestPerform (req : Nat) (s : State) : Result :=
  match s.req? req with
  | none => .next s
  | some q =>
    let home := fun (r : Req) => match r.pas.head? with | some (some k) => homeOf k | _ => 0
    let ahead := s.reqs.any fun r => r.id != q.id && r.stage == .waiting && decide (r.arr < q.arr) && home r == home q &&
      !s.frozenReq r && !s.ringFrozen r.lid && s.condMet r
    if q.stage ≠ .waiting ∨ s.frozenReq q ∨ s.ringFrozen q.lid ∨ !s.condMet q ∨ ahead then .next s
    else match q.pas.getD q.next none with
      | some key => .next (if s.uncorrectable key then s.reqFatal q .memoryUncorrectable q.ptr (BitVec.ofNat 64 key) else s.bankEvent q)
      | none => .next (s.bankEvent q)

/-! ## Answers -/

/-- An answer reaches the firing that waits for it: it is delivered to the consumers of its word (R61, R231). -/
def State.answer (s : State) (q : Req) (ord : Option (BitVec 32)) (v : Value) : State :=
  match s.firing? q.rank with
  | some f =>
    if f.fid = q.fid ∧ f.due.any (fun d => d.what == .request q.id) then
      (s.modFiring q.rank fun f => { f with due := f.due.filter fun d => d.what != .request q.id }).deliverAll q.rank q.slot ord q.dst v
    else s
  | none => s

/-- The value of an answered load or wait; `none` for a kind that is answered by a completion value. -/
def Req.value (q : Req) : Option Value :=
  let low := fun (t : Ty) => Value.s (extendTo t (q.out.toNat % 2 ^ t.width))
  match q.kind with
  | .ldg t _ _ | .atom true _ t _ | .cas t _ _ | .faadd true t _ => some (low t)
  | .ldgv _ _ | .gath _ _ | .chrecv => some (.v q.out)
  | .vqry | .waitv _ => some (.s (q.ver.setWidth 64))
  | .bar _ | .chcred _ | .launchi _ _ _ => some (.s (q.out.setWidth 64))
  | .stg _ _ | .stgv _ _ | .scat _ _ _ | .vrcl _ | .atom false _ _ _ | .vatom _ _ _ _ | .faadd false _ _ | .lockt | .unlockt
    | .chsend _ | .fence _ | .null => none

/-- The completion value of a request (R231, R299, R304, R314): bit 63, and the version left by the last event. -/
def Req.completion (q : Req) : Word :=
  let ver := match q.kind with | .vatom _ _ _ _ | .lockt | .unlockt | .fence _ => 0 | _ => if q.stage = .held ∨ q.released then 0 else q.ver.toNat
  BitVec.ofNat 64 (2 ^ 63 + ver)

/-- The tag with which a completion value is published (R231); a grant value is no completion value. -/
def Req.ordTag (q : Req) : Option (BitVec 32) :=
  match q.kind with
  | .lockt => none
  | _ => some (match q.chain with | some (c, _, _) => BitVec.ofNat 32 c | none => BitVec.allOnes 32)

/-- COMPLETION_VALUE_DELIVERY (R231): once a request is acknowledged, or taken into the held-store buffer. With a FENCE's delivery its chain goes
on (R314). -/
def execCompletionValueDelivery (req : Nat) (s : State) : Result :=
  match s.req? req with
  | none => .next s
  | some q =>
    if s.ringFrozen q.lid || q.value.isSome || (q.stage != .done && q.stage != .held && !q.released) || q.kind == .null then .next s
    else
      let s0 := match q.kind with | .fence _ => s.advanceChain q none | _ => s
      let s1 := if q.stage = .done then s0.dropReq req else s0
      .next (s1.answer q q.ordTag (.s q.completion))

/-- FENCE_COMPLETE (R314): at its place in the chain, once every earlier request of the chain has been acknowledged. -/
def execFenceComplete (req : Nat) (s : State) : Result :=
  match s.req? req with
  | none => .next s
  | some q =>
    match q.kind with
    | .fence _ =>
      let clear := s.reqs.all fun r => !chainBefore r q || r.acked || r.kind == .null
      if q.stage ≠ .queued ∨ s.ringFrozen q.lid ∨ !s.chainTurn q ∨ !clear then .next s
      else .next (s.modReq req fun q => { q with stage := .done })
    | _ => .next s

end Sys2Proof.Machine
end

