-- ==== Sys2Proof/Machine/Crypto.lean ====
section
/-! DEFINITION. The published algorithms that the manual names: SHA-512 (R155, R370) and the verification of an RSASSA-PSS signature of
PKCS #1 v2.2 (R154). The manual names them and prints no text of them: PRESUMED [8], taken from FIPS 180-4 and RFC 8017. -/

namespace Sys2Proof.Machine

/-! ## SHA-512 -/

/-- A prime number. -/
def isPrime (n : Nat) : Bool := decide (2 ≤ n) && (List.range n).all fun d => decide (d < 2) || decide (n % d ≠ 0)

/-- The first eighty primes. -/
def primes80 : List Nat := (List.range 410).filter isPrime

/-- The greatest x whose k-th power is at most n, found bit by bit from `x` up with so many bits left. -/
def rootFrom (k n : Nat) : Nat → Nat → Nat
  | 0, x => x
  | b + 1, x => rootFrom k n b (if (x + 2 ^ b) ^ k ≤ n then x + 2 ^ b else x)

/-- The first 64 bits of the fraction of the k-th root of a number. -/
def rootFraction (k p : Nat) : Word := BitVec.ofNat 64 (rootFrom k (p * 2 ^ (64 * k)) 69 0)

/-- The words before the first block: from the square roots of the first eight primes. -/
def shaStart : List Word := (primes80.take 8).map (rootFraction 2)

/-- The constants of the rounds: from the cube roots of the first eighty primes. -/
def shaConstants : List Word := primes80.map (rootFraction 3)

/-- A word under three rotations. -/
def spin (w : Word) (i j k : Nat) : Word := w.rotateRight i ^^^ w.rotateRight j ^^^ w.rotateRight k

/-- A word under two rotations and a shift. -/
def spill3 (w : Word) (i j k : Nat) : Word := w.rotateRight i ^^^ w.rotateRight j ^^^ (w >>> k)

/-- The message words of n rounds, from a window of sixteen. -/
def shaSchedule : Nat → List Word → List Word
  | 0, _ => []
  | n + 1, w =>
    let at_ := fun i => w.getD i 0
    at_ 0 :: shaSchedule n (w.tail ++ [at_ 0 + spill3 (at_ 1) 1 8 7 + at_ 9 + spill3 (at_ 14) 19 61 6])

/-- One round on the eight working words, with the sum of its constant and its message word. -/
def shaRound (v : List Word) (k : Word) : List Word :=
  match v with
  | [a, b, c, d, e, f, g, h] =>
    let t := k + h + spin e 14 18 41 + (g ^^^ (e &&& (f ^^^ g)))
    [t + spin a 28 34 39 + ((a &&& b) ||| (c &&& (a ||| b))), a, b, c, d + t, e, f, g]
  | _ => v

/-- The number that bytes hold with the highest byte first (the octet strings of both standards). -/
def natOfOctets (l : List Byte) : Nat := l.foldl (fun n b => 256 * n + b.toNat) 0

/-- The k bytes of a number, the highest first. -/
def octetsOf (k n : Nat) : List Byte := (bytesOfNat k n).reverse

/-- The sixteen words of a block of 128 bytes. -/
def shaWords (l : List Byte) : List Word := (List.range 16).map fun i => BitVec.ofNat 64 (natOfOctets ((l.drop (8 * i)).take 8))

/-- The words after one block: eighty rounds, added to what stood before. -/
def shaBlock (h : List Word) (l : List Byte) : List Word :=
  List.zipWith (· + ·) h ((List.zipWith (· + ·) shaConstants (shaSchedule 80 (shaWords l))).foldl shaRound h)

/-- The words after as many whole blocks as the count says. -/
def shaBlocks (h : List Word) : Nat → List Byte → List Word
  | 0, _ => h
  | n + 1, l => shaBlocks (shaBlock h l) n (l.drop 128)

/-- A message with its padding: a byte 0x80, zeros, and the length in bits as 16 bytes. -/
def shaPadded (l : List Byte) : List Byte :=
  l ++ 0x80 :: (List.replicate ((239 - l.length % 128) % 128) 0 ++ octetsOf 16 (8 * l.length))

/-- The 64 bytes of a digest. -/
def shaOctets (l : List Byte) : List Byte :=
  (shaBlocks shaStart ((shaPadded l).length / 128) (shaPadded l)).flatMap fun w => octetsOf 8 w.toNat

/-- SHA-512 as a value of 64 bytes, its first byte in bits [7:0] (R5, R155, R370). -/
@[irreducible] def sha512 (l : List Byte) : BitVec 512 := vecOfBytes (shaOctets l)

/-! ## RSASSA-PSS -/

/-- The first n bytes of the mask of a seed (MGF1 with SHA-512); the argument counts the blocks. -/
def mgf1 (seed : List Byte) (blocks : Nat) : List Byte := (List.range blocks).flatMap fun i => vecBytes (sha512 (seed ++ octetsOf 4 i))

/-- `b` to the power whose low `fuel` bits are those of `e`, modulo `n`. -/
def powMod (n : Nat) : Nat → Nat → Nat → Nat
  | 0, _, _ => 1 % n
  | fuel + 1, b, e => (if e % 2 = 1 then b else 1) * powMod n fuel (b * b % n) (e / 2) % n

/-- EMSA-PSS verification of an encoded message of 512 bytes with 4,095 significant bits and a salt of 64 bytes. -/
def pssEncoded (msg em : List Byte) : Bool :=
  let masked := em.take 447
  let h := (em.drop 447).take 64
  let db := List.zipWith (fun x y => x ^^^ y) masked (mgf1 h 7)
  let low := match db with | [] => [] | x :: r => (x &&& 0x7F) :: r
  let salt := low.drop 383
  em.length == 512 && em.getD 511 0 == 0xBC && decide ((em.getD 0 0).toNat < 128) &&
    low.take 383 == List.replicate 382 0 ++ [1] &&
    h == vecBytes (sha512 (List.replicate 8 0 ++ vecBytes (sha512 msg) ++ salt))

/-- RSASSA-PSS verification under a public key: modulus and exponent (R154). -/
@[irreducible] def pssVerify (n e : Nat) (msg sig : List Byte) : Bool :=
  let x := natOfOctets sig
  sig.length == 512 && decide (x < n) && pssEncoded msg (octetsOf 512 (powMod n 4096 x e))

/-- Whether the signature of a Thatch image verifies under Krytlyn's key (R154 step 4). -/
def thatchSigOk (body sig : List Byte) : Bool := pssVerify Config.krytlynModulus Config.krytlynExponent body sig

end Sys2Proof.Machine
end

