-- ==== Sys2Proof/Machine/Engine.lean ====
section
/-! DEFINITION. Quarry engines: their commands, how a command is queued, the bytes it moves, acquire, release and completion, and QWAIT
and QSTAT (R239 to R247, R292). The follow-on matrix command and the feed of a region stand with the matrix commands. -/

namespace Sys2Proof.Machine

/-! ## Records (R241 to R247) -/

/-- Fields of an engine command record (R241). -/
def engSrc (r : Vec) : Word := BitVec.ofNat 64 (bf r 511 448)
def engDst (r : Vec) : Word := BitVec.ofNat 64 (bf r 447 384)
def engAux (r : Vec) : Word := BitVec.ofNat 64 (bf r 383 320)
def engCmpl (r : Vec) : Word := BitVec.ofNat 64 (bf r 319 256)
def engLen (r : Vec) : Nat := bf r 255 240
def engDetach (r : Vec) : Bool := bf r 16 16 == 1

/-- Count of dimension k, 1 to 4. -/
def engCnt (r : Vec) (k : Nat) : Nat := bf r (251 - 12 * k) (240 - 12 * k) + 1

/-- Source and destination stride of dimension k in bytes. -/
def engSst (r : Vec) (k : Nat) : Int := toSigned 20 (bf r (211 - 20 * k) (192 - 20 * k)) * 2 ^ bf r 31 27
def engDstS (r : Vec) (k : Nat) : Int := toSigned 20 (bf r (131 - 20 * k) (112 - 20 * k)) * 2 ^ bf r 26 22

/-- The unfold parameters of a QUNF (R244). -/
structure Unfold where
  h   : Nat
  w   : Nat
  kh  : Nat
  kw  : Nat
  st  : Nat
  dil : Nat
  pad : Nat
  deriving DecidableEq, Repr

def unfoldOf (x : Word) : Unfold :=
  { h := bf x 63 52, w := bf x 51 40, kh := bf x 39 36 + 1, kw := bf x 35 32 + 1, st := bf x 31 29 + 1, dil := bf x 28 26 + 1,
    pad := bf x 25 22 }

/-- Positions along one axis of the output: 0 when the kernel does not fit. -/
def outSize (n k st dil pad : Nat) : Nat := if n + 2 * pad < dil * (k - 1) + 1 then 0 else (n + 2 * pad - dil * (k - 1) - 1) / st + 1

def Unfold.oh (u : Unfold) : Nat := outSize u.h u.kh u.st u.dil u.pad
def Unfold.ow (u : Unfold) : Nat := outSize u.w u.kw u.st u.dil u.pad

/-- The region that a LOCAL pointer at offset 0 names as a destination (R244). -/
def State.regionDst (s : State) (p : Word) : Option (Nat × Region) :=
  if ptrSpace p ≠ 2 ∨ ptrOff p ≠ 0 then none
  else (s.regions.zipIdx.find? fun r => r.1.lid != 0 && r.1.origin == ptrOwner p &&
    (match s.bindOf r.1.lid r.1.g with | some b => b.valid && b.matrix | none => false)).map fun r => (r.2, r.1)

/-- A record error of an engine command (R247). -/
def State.engBad (s : State) (k : EngKind) (r : Vec) : Bool :=
  let cnt := fun hi lo => bf r hi lo != 0
  let x := engAux r
  bf r 5 0 != 0 || engLen r == 0 || decide (4 < bf r 19 17) || (engDetach r && engCmpl r == 0) ||
    (bf r 15 15 == 1 && s.meetsFifo s.focus.rank (bf r 14 6 * 64) 64) ||
    (match k with
      | .copy => x != 0
      | .gath => cnt 227 192
      | .unf =>
        cnt 239 192 || bf x 21 0 != 0 || (unfoldOf x).h == 0 || (unfoldOf x).w == 0 || (unfoldOf x).oh == 0 ||
          (unfoldOf x).ow == 0 || ((s.regionDst (engDst r)).isSome && bf r 15 15 == 1))

/-! ## Queuing a command (R240, R247) -/

def EngKind.code : EngKind → Nat
  | .copy => 0 | .gath => 1 | .unf => 2
def EngKind.ofCode : Nat → EngKind
  | 0 => .copy | 1 => .gath | _ => .unf

/-- A command id (R247). -/
def engId (die e serial : Nat) : Word := BitVec.ofNat 64 (die % 64 * 2 ^ 58 + e % 8 * 2 ^ 55 + serial % 2 ^ 32)

/-- The engine of a die whose queue is the shortest, the lowest number on ties. -/
def State.leastFilled (s : State) (die : Nat) : Nat :=
  (List.range 8).foldl (fun b e => if (s.engine die e).queue.length < (s.engine die b).queue.length then e else b) 0

/-- The element has an earlier command that waits for room in the same queue. -/
def Firing.waitsEngine (f : Firing) (die e seq : Nat) : Bool := f.due.any fun d => match d.what with
  | .engineRoom d' e' _ _ _ q _ => d' == die && e' == e && decide (q < seq)
  | _ => false

/-- A request before a shared arbiter: its element, the priority of its bind record, and its actor's stage (R118). -/
structure ArbReq where
  rank  : Nat
  prio  : Nat
  stage : Nat
  deriving DecidableEq, Repr

/-- One request is served before another: by priority, then by descending stage, then in rotation behind the element served last (R118). -/
def ArbReq.before (last : Nat) (x y : ArbReq) : Bool :=
  let turn := fun (r : Nat) => (r + 2 ^ 14 - last % 2 ^ 14 - 1) % 2 ^ 14
  decide (y.prio < x.prio) || (x.prio == y.prio &&
    (decide (y.stage < x.stage) || (x.stage == y.stage && decide (turn x.rank < turn y.rank))))

/-- The elements whose firings wait for something. -/
def State.waiters (s : State) (what : WaitFor → Bool) : List ArbReq :=
  s.elems.filterMap fun x => match s.active x.1 with
    | some (f, a) =>
      if (f.due.any fun d => what d.what) && s.live a.lid then some { rank := x.1, prio := s.arbPrio a, stage := a.stage } else none
    | none => none

/-- Among some requests an element's is the one to serve (R118). -/
def arbTurn (l : List ArbReq) (last rank : Nat) : Bool :=
  l.any fun x => x.rank == rank && l.all fun y => y.rank == rank || x.before last y

/-- The elements whose commands wait for room at an engine. -/
def State.engWaiters (s : State) (die e : Nat) : List ArbReq :=
  s.waiters fun w => match w with | .engineRoom d' e' _ _ _ _ _ => d' == die && e' == e | _ => false

/-- A command enters the tail of an engine's queue and its id is answered (R240, R247). -/
def State.engEnter (s : State) (die e : Nat) (k : EngKind) (r : Vec) (follow : Option Vec) (seq : Nat) (before : List Nat) (rank la : Nat)
    (a : Actor) : State × Word :=
  let serial := nextSerial 32 (s.engine die e).serial
  let det := match s.launch? a.lid with | some l => l.det | none => false
  let (ent, s1) := s.fresh
  let c : EngCmd :=
    { serial, seq, kind := k, recd := r, follow, rank, la, lid := a.lid, g := a.g, det, before, sent := 0, asked := [], got := [],
      acks := [], ran := false, fol := none, ent }
  let st : EngStat := { serial, part := lidPart a.lid, state := 0, code := 0 }
  (s1.modEngine die e fun x => { x with
    queue := x.queue ++ [c], serial, stats := (x.stats ++ [st]).drop (x.stats.length + 1 - 256), last := rank }, engId die e serial)

/-- One more engine command that a firing of an invocation issued (R336). -/
def State.countEngine (s : State) (a : Actor) (inv : Nat) : State := s.modLaunch a.lid fun l =>
  if (match l.img with | some im => im.invm | none => false) then { l with engs := l.engs ++ [(a.g, inv)] } else l

/-- A request is acknowledged at a scope code (R7, R293): at ELEM once the cluster's interface has it; at CLUSTER a store once it is performed or
held; at a wider scope once it is performed, and of HOST and PEER acknowledged. -/
def Req.ackedAt (r : Req) (scope : Nat) : Bool :=
  let store := match r.kind with | .stg _ _ | .stgv _ _ | .scat _ _ _ => true | _ => false
  r.acked || scope == 0 || (scope == 1 && (!store || r.stage == .held || r.released))

/-- The requests and engine commands that an element has issued and that are not acknowledged at a scope (R245, R293); at ELEM and CLUSTER a
queued engine command is. -/
def State.pendingAt (s : State) (rank scope : Nat) : List Nat :=
  (s.reqs.filter fun q => q.rank == rank && !q.ackedAt scope && q.kind != .null).map (·.id) ++
    (if scope < 2 then [] else s.engines.flatMap fun e => (e.2.queue.filter fun c => c.rank == rank).map (·.seq)) ++
    (match s.firing? rank with
      | some f => f.due.filterMap fun d => match d.what with | .engineRoom _ _ _ _ _ q _ => some q | _ => none
      | none => [])

/-- The requests and engine commands that an element has issued and that are not acknowledged at DIE scope or wider. -/
def State.pendingOf (s : State) (rank : Nat) : List Nat := s.pendingAt rank 2

/-- QCOPY, QGATH and QUNF (R247). A command waits behind every one that waits for the same queue (R118, R240). -/
def State.engineIssue (s : State) (k : EngKind) (any : Bool) (e : Nat) (a b : Target) : Result :=
  match s.here with
  | none => .next s
  | some (f, x) =>
    match s.recordCheck (s.portS .a) with
    | .bad c => .next (s.fatalHere c (s.portS .a))
    | .ok o =>
      let r := s.localVec o
      if s.engBad k r then .next (s.faultHere .illegalEncoding 0)
      else
        let rank := s.focus.rank
        let die := rank / 256
        let e := if any then (if s.hereDet then rank / 16 % 16 % 8 else s.leastFilled die) else e
        let follow := if bf r 15 15 = 1 then some (s.localVec (bf r 14 6 * 64)) else none
        let before := s.pendingOf rank
        let (seq, s1) := s.fresh
        let s2 := (s1.countEngine x f.inv).countLaunch
        if (s.engine die e).queue.length < 32 ∧ (s.engWaiters die e).isEmpty then
          let y := s2.engEnter die e k r follow seq before rank f.la x
          .next (y.1.out2 a b y.2)
        else .next (s2.addDue [a, b] (.engineRoom die e k.code r follow seq before))

/-- R242, R247. -/
def execQcopy (_p : Pred) (x : Bool) (e : Fin 8) (a b : Target) (s : State) : Result := s.engineIssue .copy x e.val a b

/-- R243, R247. -/
def execQgath (_p : Pred) (x : Bool) (e : Fin 8) (a b : Target) (s : State) : Result := s.engineIssue .gath x e.val a b

/-- R244, R247. -/
def execQunf (_p : Pred) (x : Bool) (e : Fin 8) (a b : Target) (s : State) : Result := s.engineIssue .unf x e.val a b

/-- ENGINE_COMMAND_ENQUEUE (R118, R240): a waiting command enters when there is room and its element's turn has come; those of one element enter in
the order they issued. -/
def execEngineCommandEnqueue (rank slot : Nat) (s : State) : Result :=
  match s.active rank, s.dueAt rank slot with
  | some (f, a), some d =>
    match d.what with
    | .engineRoom die e k r follow seq before =>
      if 32 ≤ (s.engine die e).queue.length ∨ f.waitsEngine die e seq ∨ !arbTurn (s.engWaiters die e) (s.engine die e).last rank then .next s
      else
        let y := s.engEnter die e (EngKind.ofCode k) r follow seq before rank f.la a
        .next (y.1.payDue rank d (.s y.2))
    | _ => .next s
  | _, _ => .next s

/-! ## QWAIT and QSTAT (R247) -/

/-- The status word of an engine command. -/
def EngStat.word (x : EngStat) : Word := BitVec.ofNat 64 (x.state * 2 ^ 60 + x.code % 256 * 2 ^ 48 + x.serial % 2 ^ 32)

/-- The status of a command id as a partition reads it: UNKNOWN with every other field 0 for an id that is 0, older than the last 256,
of another partition, or no id. -/
def State.engStatus (s : State) (part : Nat) (id : Word) : Word :=
  let x := (s.engine (bf id 63 58) (bf id 57 55)).stats.find? fun x => x.serial == bf id 31 0 && x.part == part
  match x with
  | some x => if bf id 54 32 = 0 ∧ id ≠ 0 then x.word else BitVec.ofNat 64 (4 * 2 ^ 60)
  | none => BitVec.ofNat 64 (4 * 2 ^ 60)

/-- A status is final: DONE, FAULTED or UNKNOWN. -/
def statusFinal (w : Word) : Bool := decide (2 ≤ bf w 63 60)

/-- R247: the firing stays open until the command is final. -/
def execQwait (_p : Pred) (a b : Target) (s : State) : Result :=
  let w := s.engStatus s.herePart (s.portS .a)
  .next (if statusFinal w then s.out2 a b w else s.addDue [a, b] (.engineStatus (s.portS .a)))

/-- R247. -/
def execQstat (_p : Pred) (a b : Target) (s : State) : Result := .next (s.out2 a b (s.engStatus s.herePart (s.portS .a)))

/-- QWAIT_RELEASE (R247). -/
def execQwaitRelease (rank slot : Nat) (s : State) : Result :=
  match s.active rank, s.dueAt rank slot with
  | some (_, a), some d =>
    match d.what with
    | .engineStatus id =>
      let w := s.engStatus (lidPart a.lid) id
      .next (if statusFinal w then s.payDue rank d (.s w) else s)
    | _ => .next s
  | _, _ => .next s

/-! ## Addresses (R106, R215, R218 to R223, R247) -/

/-- Where a byte of an engine or a matrix command lies, or the fault that using its pointer raises. -/
inductive EngAddr where
  | key (k : Nat) (ret : Bool)
  | remote
  | bad (c : TrapCode) (addr : Word)
  deriving DecidableEq, Repr

/-- A LOCAL pointer as an engine uses it: an element of the partition on a powered cluster, below 32,768 and outside its FIFO area. -/
def State.localAny (s : State) (part : Nat) (p : Word) (n : Nat) : Option TrapCode :=
  let rank := ptrOwner p
  if !s.dieEnabled (rank / 256) then some .spaceViolation
  else if s.partOfDie (rank / 256) ≠ some part then some .permission
  else if !s.powered (rank / 16) ∨ 32768 < ptrOff p + n ∨ s.meetsFifo rank (ptrOff p) n then some .spaceViolation
  else none

/-- A die's TLB takes the page of a GLOBAL offset that an engine used (R221, R247). -/
def State.dieUsed (s : State) (die part off : Nat) : State :=
  match s.walk part off with
  | .hit _ size pte => s.dieFill die part (off / size * size) size pte
  | .miss | .malformed => s

/-- Resolves n bytes at a pointer for an engine of a die; a miss is decided by Ridge and replayed (R220, R221, R372). -/
def State.engAddr (s : State) (die part : Nat) (p : Word) (n : Nat) (write : Bool) : State × EngAddr :=
  match ptrSpace p with
  | 2 => (s, match s.localAny part p n with | some c => .bad c p | none => .key (localKey (ptrOwner p) (ptrOff p)) false)
  | _ =>
    match s.spaceFault part p n true write with
    | some c => (s, .bad c p)
    | none =>
      match ptrSpace p with
      | 0 =>
        match s.globalXlate part (ptrOff p) with
        | (s1, some (pa, e)) =>
          let s2 := s1.dieUsed die part (ptrOff p)
          if (if write then pteW e else pteR e) then (s2, .key pa (pteRet e)) else (s2, .bad .permission (BitVec.ofNat 64 (ptrOff p)))
        | (s1, none) => (s1, .bad .permission (BitVec.ofNat 64 (ptrOff p)))
      | 1 => (s, .key (dieKey (ptrOwner p / 256) (ptrOff p)) false)
      | _ => (s, .remote)

/-- Reads n bytes one by one at a pointer, or the fault. -/
def State.engRead (s : State) (die part : Nat) (p : Word) : Nat → State × Except (TrapCode × Word) (List Byte)
  | 0 => (s, .ok [])
  | n + 1 =>
    match s.engAddr die part p 1 false with
    | (s1, .key k _) =>
      if s1.uncorrectable k then (s1, .error (.memoryUncorrectable, p))
      else match State.engRead s1 die part (ptrAdd p 1) n with
        | (s2, .ok l) => (s2, .ok (Memory.read s1.mem k :: l))
        | (s2, .error x) => (s2, .error x)
    | (s1, .remote) => (s1, .error (.spaceViolation, p))
    | (s1, .bad c a) => (s1, .error (c, a))

/-! ## The bytes of a command (R242 to R244) -/

/-- A byte of a command: its source offset, or none for a zero, and its destination offset. -/
abbrev ByteMove := Option Int × Int

/-- The integers from 0 below n. -/
def ints (n : Nat) : List Int := (List.range n).map fun (i : Nat) => (i : Int)

/-- The loop of QCOPY (R242). -/
def copyMoves (r : Vec) : List ByteMove :=
  let d := fun k => ints (engCnt r k)
  (d 4).flatMap fun i4 => (d 3).flatMap fun i3 => (d 2).flatMap fun i2 => (d 1).flatMap fun i1 =>
    (ints (engLen r)).map fun i0 =>
      (some (i0 + i1 * engSst r 1 + i2 * engSst r 2 + i3 * engSst r 3 + i4 * engSst r 4),
        i0 + i1 * engDstS r 1 + i2 * engDstS r 2 + i3 * engDstS r 3 + i4 * engDstS r 4)

/-- Row j of QGATH under its index (R243). -/
def gathRow (r : Vec) (x j : Nat) : List ByteMove :=
  (ints (engLen r)).map fun i => (if x = 0xFFFFFFFF then none else some (x * engSst r 1 + i), j * engDstS r 1 + i)

/-- The rows of QGATH under its indexes (R243). -/
def gathMoves (r : Vec) (xs : List Nat) : List ByteMove := xs.zipIdx.flatMap fun x => gathRow r x.1 x.2

/-- The source of pixel (y, x): none outside the input (R244). -/
def Unfold.pixel (u : Unfold) (r : Vec) (y x : Int) : Option Int :=
  if 0 ≤ y ∧ y < u.h ∧ 0 ≤ x ∧ x < u.w then some (y * engSst r 1 + x * engLen r) else none

/-- The sources of row n of QUNF, in order. -/
def Unfold.row (u : Unfold) (r : Vec) (n : Nat) : List (Option Int) :=
  let oy : Int := n / u.ow
  let ox : Int := n % u.ow
  (ints u.kh).flatMap fun ky => (ints u.kw).flatMap fun kx =>
    let px := u.pixel r (oy * u.st - u.pad + ky * u.dil) (ox * u.st - u.pad + kx * u.dil)
    (ints (engLen r)).map fun i => px.map fun o => o + i

/-- The rows of QUNF (R244). -/
def unfMoves (r : Vec) : List ByteMove :=
  let u := unfoldOf (engAux r)
  (List.range (u.oh * u.ow)).flatMap fun n => (u.row r n).zipIdx.map fun x => (x.1, n * engDstS r 1 + x.2)

/-- The moves of a command, numbered; of a QGATH row whose index has not been read the sources are not known yet (R242 to R244). -/
def EngCmd.moves (c : EngCmd) : List ByteMove :=
  match c.kind with
  | .copy => copyMoves c.recd
  | .unf => unfMoves c.recd
  | .gath => gathMoves c.recd ((List.range (engCnt c.recd 1)).map fun j => (alGet c.idxs j).getD 0xFFFFFFFF)

/-- The source of a move is known. -/
def EngCmd.knows (c : EngCmd) (i : Nat) : Bool := c.kind != .gath || (alGet c.idxs (i / engLen c.recd)).isSome

/-- Pointers of a move. -/
def EngCmd.srcPtr (c : EngCmd) (m : ByteMove) : Word := ptrAdd (engSrc c.recd) (m.1.getD 0)
def EngCmd.dstPtr (c : EngCmd) (m : ByteMove) : Word := ptrAdd (engDst c.recd) m.2

/-- A move with its number. -/
abbrev NumMove := ByteMove × Nat

/-- Cuts a list where two neighbours do not belong together. -/
def runsOf {α : Type} (join : α → α → Bool) : List α → List (List α)
  | [] => []
  | x :: r => match runsOf join r with
    | (y :: g) :: gs => if join x y then (x :: y :: g) :: gs else [x] :: (y :: g) :: gs
    | gs => [x] :: gs

/-- Two destination bytes that one write event takes: consecutive, in one granule (R242). -/
def EngCmd.joinWrite (c : EngCmd) (x y : NumMove) : Bool :=
  let p := ptrOff (c.dstPtr x.1)
  let q := ptrOff (c.dstPtr y.1)
  y.2 == x.2 + 1 && q == p + 1 && q / 64 == p / 64

/-- Two source bytes that one read takes: consecutive, and in one granule unless they lie at an endpoint or a peer; or two zeros. -/
def EngCmd.joinRead (c : EngCmd) (x y : NumMove) : Bool :=
  let p := ptrOff (c.srcPtr x.1)
  let q := ptrOff (c.srcPtr y.1)
  y.2 == x.2 + 1 && x.1.1.isSome == y.1.1.isSome && (x.1.1.isNone || (q == p + 1 && (4 < ptrSpace (engSrc c.recd) || q / 64 == p / 64)))

/-- A byte that a command has read for a move: a zero, one of its own partition, or one of a reply. -/
def EngCmd.byte (c : EngCmd) (m : NumMove) : Option Byte :=
  if m.1.1.isNone then some 0
  else match alGet c.rd m.2 with
    | some b => some b
    | none => match c.asked.find? fun a => decide (a.first ≤ m.2) && decide (m.2 < a.first + a.len) with
      | some a => (alGet c.got a.id).map fun l => l.getD (m.2 - a.first) 0
      | none => none

/-- A move still to be read. -/
def EngCmd.unread (c : EngCmd) (m : NumMove) : Bool :=
  c.knows m.2 && m.1.1.isSome && (alGet c.rd m.2).isNone && !c.asked.any fun a => decide (a.first ≤ m.2) && decide (m.2 < a.first + a.len)

/-- What a command does next: it reads an index of a QGATH, some source bytes, or writes the bytes of one write event (R242, R243). -/
inductive EngEvent where
  | index (j : Nat)
  | read (l : List NumMove)
  | write (l : List NumMove)
  deriving DecidableEq, Repr

/-- The moves that are not written, in the order of the loop. -/
def EngCmd.unwritten (c : EngCmd) : List NumMove := c.moves.zipIdx.filter fun m => !c.wr.contains m.2

/-- Every event that a command may make now: in a DET launch the next one of the loop, whose QGATH reads an index behind the rows before it, and
elsewhere any (R242, R243, R323; log entry 9). A write waits for its bytes. -/
def EngCmd.events (c : EngCmd) : List EngEvent :=
  let groups := runsOf c.joinWrite (if c.det then c.unwritten.filter fun m => c.knows m.2 else c.unwritten)
  let now := if c.det then groups.take 1 else groups
  let left := if c.kind = .gath then (List.range (engCnt c.recd 1)).filter fun j => (alGet c.idxs j).isNone else []
  let reads := (runsOf c.joinRead (now.flatten.filter c.unread)).map EngEvent.read
  let writes := (now.filter fun g => g.all fun m => c.knows m.2 && (c.byte m).isSome).map EngEvent.write
  if c.det then (if now.isEmpty then (left.take 1).map EngEvent.index else reads.take 1 ++ writes)
  else left.map EngEvent.index ++ reads ++ writes

/-! ## Performing an event -/

/-- A write event that is still open: consecutive bytes of one granule, the pointer of the first, and whether they lie at an endpoint or a peer
(R242). -/
structure OpenEvent where
  key   : Nat
  bytes : List Byte
  ret   : Bool
  far   : Bool
  ptr   : Word
  deriving DecidableEq, Repr

/-- Writes as they are made, for an actor of a launch. -/
structure EngRun where
  st    : State
  lid   : Nat
  rank  : Nat
  la    : Nat
  acks  : List Nat
  ev    : Option OpenEvent
  fault : Option (TrapCode × Word)
  deriving DecidableEq, Repr

/-- The writes of an actor before the first byte. -/
def State.runOf (s : State) (lid rank la : Nat) : EngRun := { st := s, lid, rank, la, acks := [], ev := none, fault := none }

/-- The open event is performed: a store event, a local write that sets its FE granules full, or a message (R224, R228, R242). A part of a granule
that holds an uncorrectable error cannot be written (R227). -/
def EngRun.flush (x : EngRun) : EngRun :=
  match x.ev with
  | none => x
  | some e =>
    if e.far then
      let (id, s1) := x.st.fresh
      let m := OutMsg.remoteWrite (s1.via (x.rank / 16)) id e.ptr (e.bytes.map some)
      { x with st := s1.sendFor x.lid x.rank x.la (remoteDest e.ptr) e.bytes.length m, acks := x.acks ++ [id], ev := none }
    else if e.bytes.length < 64 && x.st.uncorrectable e.key then
      { x with ev := none, fault := x.fault.or (some (.memoryUncorrectable, e.ptr)) }
    else if e.key < 2 ^ 49 then
      let st := x.st.storeEvent (lidPart x.lid) e.ret (e.key / 64) (maskAt (e.key % 64) e.bytes.length) (placeAt (e.key % 64) (natOfBytes e.bytes))
      { x with st, ev := none }
    else
      let o := e.key - 2 ^ 49
      let st := (x.st.writeBytes e.key e.bytes).feSet (feSpan (o / 2 ^ 15) (o % 2 ^ 15) e.bytes.length)
      { x with st, ev := none }

/-- Puts a byte into the open event, or opens another. -/
def EngRun.put (x : EngRun) (key : Nat) (ret far : Bool) (ptr : Word) (b : Byte) : EngRun :=
  match x.ev with
  | some e =>
    if key = e.key + e.bytes.length ∧ key / 64 = e.key / 64 ∧ far = e.far then
      { x with ev := some { e with bytes := e.bytes ++ [b] } }
    else { x.flush with ev := some { key, bytes := [b], ret, far, ptr } }
  | none => { x with ev := some { key, bytes := [b], ret, far, ptr } }

/-- Writes one byte at a pointer, behind the bytes that the open event holds; nothing after a fault. -/
def EngRun.putAt (x : EngRun) (p : Word) (b : Byte) : EngRun :=
  if x.fault.isSome then x
  else match x.st.engAddr (x.rank / 256) (lidPart x.lid) p 1 true with
    | (s1, .key k ret) => { x with st := s1 }.put k ret false p b
    | (s1, .remote) => { x with st := s1 }.put (2 ^ 60 + ptrOff p) false true p b
    | (s1, .bad f a) => { x with st := s1, fault := some (f, a) }

/-- The byte that a move writes. In a DET launch a source byte that the open event has just been given reads as that one, in the order of the loop
(R242). -/
def EngRun.byteOf (x : EngRun) (c : EngCmd) (m : NumMove) : Byte :=
  let old := (c.byte m).getD 0
  match x.ev, (x.st.engAddr (x.rank / 256) (lidPart x.lid) (c.srcPtr m.1) 1 false).2 with
  | some e, .key k _ =>
    if c.det && m.1.1.isSome && !e.far && decide (e.key ≤ k) && decide (k < e.key + e.bytes.length) then e.bytes.getD (k - e.key) 0 else old
  | _, _ => old

/-- The writes of some moves of a command, in order. -/
def State.engWrites (s : State) (c : EngCmd) (l : List NumMove) : EngRun :=
  (l.foldl (fun (x : EngRun) m => x.putAt (c.dstPtr m.1) (x.byteOf c m)) (s.runOf c.lid c.rank c.la)).flush

/-! ## Acquire, completion and ENGINE_COMMAND_EXECUTE (R245, R247) -/

/-- Sets the status of a command. -/
def State.engStat (s : State) (die e serial state code : Nat) : State :=
  s.modEngine die e fun x => { x with stats := modWhere (fun y => y.serial == serial) (fun y => { y with state, code }) x.stats }

def State.modCmd (s : State) (die e seq : Nat) (f : EngCmd → EngCmd) : State :=
  s.modEngine die e fun x => { x with queue := modWhere (fun c => c.seq == seq) f x.queue }

/-- An imprecise fatal fault of a command (R247); AUX of MemoryUncorrectable is the physical address (R331). -/
def State.cmdFatal (s : State) (lid g rank la : Nat) (c : TrapCode) (addr : Word) : State :=
  let aux : Word := match c, s.walk (lidPart lid) (ptrOff addr) with | .memoryUncorrectable, .hit pa _ _ => BitVec.ofNat 64 pa | _, _ => 0
  s.fatalTrap { s.mkTrap (lidPart lid) lid g rank c 0 addr aux with actor := la }

/-- The granule that a command's own write names, with its RET bit: none for pointer 0, or the fault that using the pointer raises (R245, R247). -/
def State.cmplAt (s : State) (lid rank : Nat) (p : Word) : State × Except (TrapCode × Word) (Option (Nat × Bool)) :=
  if p = 0 then (s, .ok none)
  else if 1 < ptrSpace p then (s, .error (.spaceViolation, p))
  else if ptrOff p % 64 ≠ 0 then (s, .error (.alignment, p))
  else match s.engAddr (rank / 256) (lidPart lid) p 64 true with
    | (s1, .key k ret) => (s1, .ok (some (k / 64, ret)))
    | (s1, .bad c a) => (s1, .error (c, a))
    | (s1, .remote) => (s1, .ok none)

/-- One store event on the granule that `cmplAt` found. -/
def State.cmplPut (s : State) (lid : Nat) (at_ : Option (Nat × Bool)) (v : Vec) : State :=
  match at_ with | some (gran, ret) => s.storeEvent (lidPart lid) ret gran (BitVec.allOnes 64) v | none => s

/-- One store event that writes a whole granule for a command; 0 names none, and a pointer that may not be written is a fatal fault. -/
def State.cmdWriteVec (s : State) (lid g rank la : Nat) (p : Word) (v : Vec) : State :=
  match s.cmplAt lid rank p with
  | (s1, .ok k) => s1.cmplPut lid k v
  | (s1, .error f) => s1.cmdFatal lid g rank la f.1 f.2

/-- The completion write of an engine or matrix command: the status word in bytes 0 to 7 and zeros above, as one store event (R245). -/
def State.cmdWrite (s : State) (lid g rank la : Nat) (p word : Word) : State := s.cmdWriteVec lid g rank la p (word.setWidth 512)

/-- A command sends the feed of a region no more bytes (R283). -/
def State.unfeed (s : State) (die e : Nat) (c : EngCmd) : State :=
  { s with regions := modWhere (fun r => r.feeder == some (die, e, c.serial)) (fun r => { r with feeder := none }) s.regions }

/-- A command becomes DONE, or FAULTED with a code, and leaves the queue. One whose CMPL may not be written becomes FAULTED (R247). -/
def State.engFinish (s : State) (die e : Nat) (c : EngCmd) (state code : Nat) : State :=
  let leave := fun (s : State) (state code : Nat) =>
    (s.engStat die e c.serial state code).modEngine die e fun x => { x with queue := x.queue.filter fun y => y.seq != c.seq }
  let word : EngStat := { serial := c.serial, part := lidPart c.lid, state, code }
  let s1 := match s.cmplAt c.lid c.rank (engCmpl c.recd) with
    | (s1, .ok k) => (leave s1 state code).cmplPut c.lid k (word.word.setWidth 512)
    | (s1, .error f) => (leave s1 3 (if state = 3 then code else f.1.num)).cmdFatal c.lid c.g c.rank c.la f.1 f.2
  s1.modLaunch c.lid fun l => { l with moved := true }

/-- A command faults (R247), and a region that it fed may take another one's bytes (R283). It leaves the queue once the remote writes that it has sent
are acknowledged (R360). -/
def State.engFault (s : State) (die e : Nat) (c : EngCmd) (acks : List Nat) (x : TrapCode × Word) : State :=
  let s1 := (s.unfeed die e c).cmdFatal c.lid c.g c.rank c.la x.1 x.2
  if acks.isEmpty then s1.engFinish die e c 3 x.1.num
  else (s1.engStat die e c.serial 3 x.1.num).modCmd die e c.seq fun c => { c with ran := true, acks, failed := some x.1 }

/-- Something issued before a command with ACQ is not acknowledged yet at its SCOPE (R245, R293). -/
def State.engHeld (s : State) (c : EngCmd) : Bool :=
  bf c.recd 21 21 == 1 && (s.pendingAt c.rank (bf c.recd 19 17)).any fun id => c.before.contains id

/-- Remote reads of a command are sent. -/
def State.engAsk (s : State) (die e : Nat) (c : EngCmd) (rs : List (List NumMove)) : State :=
  let (s1, asked) := rs.foldl (fun (x : State × List EngAsk) l =>
    match l with
    | [] => x
    | m :: _ =>
      let p := c.srcPtr m.1
      let (id, s1) := x.1.fresh
      (s1.sendFor c.lid c.rank c.la (remoteDest p) 0 (.remoteRead (s1.via (c.rank / 16)) id p l.length),
        x.2 ++ [{ id, first := m.2, ptr := p, len := l.length }])) (s, [])
  s1.modCmd die e c.seq fun c => { c with asked := c.asked ++ asked, turn := c.turn + 1 }

/-- Index j of a QGATH is read (R243). -/
def State.engIndex (s : State) (die e : Nat) (c : EngCmd) (j : Nat) : State :=
  let p := ptrAdd (engAux c.recd) (4 * j : Nat)
  if 2 < ptrSpace p then s.engFault die e c c.acks (.spaceViolation, p)
  else match s.engRead (c.rank / 256) (lidPart c.lid) p 4 with
    | (s1, .ok l) => s1.modCmd die e c.seq fun c => { c with idxs := c.idxs ++ [(j, natOfBytes l)], turn := c.turn + 1 }
    | (s1, .error x) => s1.engFault die e c c.acks x

/-- Source bytes of a command are read, or asked for at an endpoint or a peer. -/
def State.engReads (s : State) (die e : Nat) (c : EngCmd) (l : List NumMove) : State :=
  match l with
  | [] => s
  | m :: _ =>
    let p := c.srcPtr m.1
    if 4 < ptrSpace p then
      (if s.remoteOk (lidPart c.lid) p l.length then s.engAsk die e c [l] else s.engFault die e c c.acks (.spaceViolation, p))
    else match s.engRead (c.rank / 256) (lidPart c.lid) p l.length with
      | (s1, .ok bs) => s1.modCmd die e c.seq fun c => { c with rd := c.rd ++ (l.map (·.2)).zip bs, turn := c.turn + 1 }
      | (s1, .error x) => s1.engFault die e c c.acks x

/-- One write event of a command is made; the last one ends its run. -/
def State.engWrite (s : State) (die e : Nat) (c : EngCmd) (l : List NumMove) : State :=
  let x := s.engWrites c l
  match x.fault with
  | some f => x.st.engFault die e c (c.acks ++ x.acks) f
  | none => x.st.modCmd die e c.seq fun c =>
    let d : EngCmd := { c with wr := c.wr ++ l.map (·.2), acks := c.acks ++ x.acks, turn := c.turn + 1 }
    { d with ran := d.unwritten.isEmpty }

/-- The pointer that an event uses first. -/
def EngCmd.eventPtr (c : EngCmd) : EngEvent → Word
  | .index j => ptrAdd (engAux c.recd) (4 * j : Nat)
  | .read l => match l with | m :: _ => c.srcPtr m.1 | [] => 0
  | .write l => match l with | m :: _ => c.dstPtr m.1 | [] => 0

/-- An engine's use of a pointer misses: the page is one of GLOBAL that the table does not hold (R220, R221). -/
def State.engMisses (s : State) (part : Nat) (p : Word) : Bool :=
  ptrSpace p == 0 && ptrOwner p == 0 && s.walk part (ptrOff p) == .miss

/-- An event that meets a missing page waits for one of the die's page walkers, in arrival order, and is made once one of them works on the page,
with Ridge's decision (R220, R221); any other is made at once. -/
def State.engPaged (s : State) (die e : Nat) (c : EngCmd) (p : Word) (go : State → State) : State :=
  if !s.engMisses (lidPart c.lid) p then go s
  else
    let page := (lidPart c.lid, ptrOff p / 2 ^ 16)
    if (c.miss.any fun m => m.2 == page) && (s.walkers die).contains page then go (s.modCmd die e c.seq fun c => { c with miss := none })
    else if c.miss.any fun m => m.2 == page then s
    else
      let (arr, s1) := s.fresh
      s1.modCmd die e c.seq fun c => { c with miss := some (arr, page) }

/-- The command at the head of its queue makes one of its events, as the surroundings have it (R242; log entry 9). -/
def State.engRun (s : State) (die e : Nat) (c : EngCmd) : State :=
  match c.events[Config.engineNext c.seq c.turn % c.events.length]? with
  | none => s
  | some v => s.engPaged die e c (c.eventPtr v) fun s => match v with
    | .index j => s.engIndex die e c j
    | .read l => s.engReads die e c l
    | .write l => s.engWrite die e c l

end Sys2Proof.Machine
end

