-- ==== Sys2Proof/Machine/Matrix.lean ====
section
/-! DEFINITION. Matrix regions: commands and their queue, weight loads, swaps, passes, promotions, the accumulator store, the engine feed,
statistics, and TURN actors (R266 to R289, R119, R246, R323). -/

namespace Sys2Proof.Machine

/-! ## Records (R274 to R276) -/

/-- Fields of a matrix command record (R274). -/
def matAp (r : Vec) : Word := BitVec.ofNat 64 (bf r 511 448)
def matScp (r : Vec) : Word := BitVec.ofNat 64 (bf r 447 384)
def matZp (r : Vec) : Word := BitVec.ofNat 64 (bf r 383 320)
def matCmpl (r : Vec) : Word := BitVec.ofNat 64 (bf r 319 256)
def matStatp (r : Vec) : Word := BitVec.ofNat 64 (bf r 255 192)
def matAstr (r : Vec) : Int := toSigned 20 (bf r 191 172)
def matM (r : Vec) : Nat := bf r 171 162 + 1
def matArow (r : Vec) : Nat := bf r 161 152
def matSrow (r : Vec) : Nat := bf r 151 142
def matRgn (r : Vec) : Nat := bf r 141 132
def matAty (r : Vec) : Nat := bf r 131 128
def matSmode (r : Vec) : Nat := bf r 127 126
def matAsrc (r : Vec) : Bool := bf r 125 125 == 1
def matAccm (r : Vec) : Bool := bf r 124 124 == 1
def matStg (r : Vec) : Bool := bf r 123 123 == 1
def matGsz (r : Vec) : Nat := bf r 122 122
def matStatw (r : Vec) : Bool := bf r 121 121 == 1

/-- Opcodes of the commands (R277). -/
def opMloadw : Nat := 0xC0
def opMswap : Nat := 0xC1
def opMma : Nat := 0xC2
def opMscale : Nat := 0xC3
def opAccrd : Nat := 0xC4
def opAccwr : Nat := 0xC5
def opAccz : Nat := 0xC6
def opMpromo : Nat := 0xC7
def opStatf : Nat := 0xF3

/-- FP8 and integer types of a region. -/
def Ty.isFp8 (t : Ty) : Bool := t == .e4m3 || t == .e5m2
def Ty.isByteInt (t : Ty) : Bool := t == .i8 || t == .n8

/-- A type that an activation row may have (R274). -/
def actTy (n : Nat) : Option Ty :=
  match Ty.ofCode (BitVec.ofNat 4 n) with
  | some t => if Ty.isFp8 t || Ty.isByteInt t || t == .bf16 then some t else none
  | none => none

/-- A type that a weight source may have (R274). -/
def weightTy (n : Nat) : Option Ty :=
  match Ty.ofCode (BitVec.ofNat 4 n) with
  | some t => if Ty.isFp8 t || Ty.isByteInt t || t == .bf16 || t == .i4 || t == .n4 then some t else none
  | none => none

/-- K positions of one element under a tile type (R266); INT4 loads as BF16. -/
def kb (t : Ty) : Nat := if Ty.isFp8 t || Ty.isByteInt t then 32 else 16

/-- K and N of a region (R266). -/
def Region.k (r : Region) (t : Ty) : Nat := kb t * r.h
def Region.n (r : Region) : Nat := 16 * r.w

/-- A record error of a matrix command (R276) whose region the group has. -/
def matBad (op : Nat) (r : Vec) (rg : Region) : Bool :=
  let nz := fun hi lo => bf r hi lo != 0
  let al := fun (p : Word) => ptrOff p % 64 != 0
  let m := matM r
  let common := nz 120 0 || matSmode r == 3 || al (matCmpl r) || al (matStatp r)
  if op = opMma then
    common || nz 383 320 || nz 151 142 || nz 122 122 || (matAsrc r && nz 511 448) || decide (1024 < matArow r + m) ||
      (match actTy (matAty r) with
        | none => true
        | some t =>
          (matSmode r == 1 && !Ty.isFp8 t) || (matSmode r == 2 && Ty.isByteInt t) || (matSmode r != 0 && matScp r == 0) ||
            (matSmode r == 2 && !matStg r && rg.k t != 128) || (matStg r && (matSmode r != 2 || 128 % rg.k t != 0)))
  else if op = opMloadw then
    common || nz 171 162 || nz 161 152 || nz 151 142 || nz 125 123 ||
      (match weightTy (matAty r) with
        | none => true
        | some t =>
          let q := t == .i4 || t == .n4
          (t != .n4 && nz 383 320) || (!q && nz 122 122) || (matSmode r == 1 && !Ty.isFp8 t) || (matSmode r == 2 && Ty.isByteInt t) ||
            (matSmode r != 0 && (q || matScp r == 0)))
  else
    common || nz 511 448 || nz 383 320 || nz 191 172 || nz 131 128 || nz 125 125 || nz 123 122 || matScp r == 0 ||
      decide (1024 < matArow r + m) || decide (1024 < matSrow r + m) ||
      (decide (matArow r < matSrow r + m) && decide (matSrow r < matArow r + m))

/-! ## Regions and their queues (R266 to R271, R277) -/

/-- The live region with an origin. -/
def State.regionAt (s : State) (origin : Nat) : Option Region := s.regions.find? fun r => r.lid != 0 && r.origin == origin

/-- The types of an MMA agree (R278). -/
def tyAgree (a w : Ty) : Bool :=
  (Ty.isFp8 a && Ty.isFp8 w) || (a == .bf16 && w == .bf16) || (Ty.isByteInt a && Ty.isByteInt w)

/-- Bytes that an MMA takes from the feed (R283). -/
def Region.feedNeed (r : Region) (c : RegCmd) : Nat :=
  match actTy (matAty c.recd) with
  | some t => if matAsrc c.recd then matM c.recd * r.k t * (t.width / 8) else 0
  | none => 0

def State.modRegionAt (s : State) (origin : Nat) (f : Region → Region) : State :=
  { s with regions := modWhere (fun r => r.lid != 0 && r.origin == origin) f s.regions }

/-- The region of a MATRIX shingle of a group under MATRIX = 1 (R119, R266). -/
def State.regionOf (s : State) (lid g k : Nat) : Option Region :=
  match s.launch? lid with
  | none => none
  | some l =>
    let isMat := match l.img with
      | some im => (match im.shingles[k]? with | some sh => sh.matrix | none => false)
      | none => false
    let on := match s.bindOf lid g with | some b => b.matrix | none => false
    if isMat && on then (l.shingleOrigin g k).bind s.regionAt else none

/-- The accumulator stores of a region: the clusters of its southmost row (R267). -/
def Region.store (r : Region) (c : Nat) : Nat := clusterAt (elemCol r.origin / 4 + c / 64) ((elemRow r.origin + r.h - 1) / 4)

/-- The memory key of cell (row, c) of a region (R267). -/
def Region.cellKey (r : Region) (row c : Nat) : Nat := accKey (r.store c) (256 * row + 4 * (c % 64))

/-- The region that writes a store. -/
def State.regionOfStore (s : State) (cluster : Nat) : Option Region :=
  s.regions.find? fun r => r.lid != 0 && (List.range r.n).any fun c => r.store c == cluster

/-- An acceptance value (R277). -/
def Region.accepted (r : Region) (serial : Nat) : Word := BitVec.ofNat 64 (2 ^ 63 + r.rgn % 1024 * 2 ^ 32 + serial % 2 ^ 32)

/-- Accumulator accesses deliver when they are performed; every other command when it enters the queue. -/
def isAccOp (op : Nat) : Bool := decide (opAccrd ≤ op) && decide (op ≤ opAccz)

/-- A command enters the tail of a region's queue. -/
def State.regionEnter (s : State) (rg : Region) (c : RegCmd) : State × Nat :=
  let serial := nextSerial 32 rg.serial
  (s.modRegionAt rg.origin fun r => { r with queue := r.queue ++ [{ c with serial }], serial, last := c.rank }, serial)

/-- A predecessor of a launch in a splice may still put commands into its group's regions, so the launch's own wait behind them (R289). -/
def State.precedes (s : State) (lid g : Nat) : Bool :=
  let before := (s.launches.filter fun p => p.lid != lid && (s.heirs 8 p.lid).contains lid).map (·.lid)
  s.elems.any (fun e => e.2.actors.any fun a => before.contains a.lid && a.g == g && !a.retired && !a.done) ||
    s.engines.any fun e => e.2.queue.any fun c => before.contains c.lid && c.g == g && c.follow.isSome && c.fol.isNone

/-- A follow-on of an engine command waits for room at a region. -/
def State.followWaits (s : State) (origin : Nat) (c : EngCmd) : Bool :=
  c.want.isSome && !s.ringFrozen c.lid && c.follow.any fun r => (s.regionOf c.lid c.g (matRgn r)).any fun rg => rg.origin == origin

/-- The request of an engine command's follow-on before an arbiter (R118). -/
def State.followReq (s : State) (c : EngCmd) : ArbReq :=
  { rank := c.rank, prio := match s.bindOf c.lid c.g with | some b => Nat.max b.prio b.iprio | none => 0,
    stage := match s.actor? c.rank c.la with | some a => if a.lid = c.lid then a.stage else 0 | none => 0 }

/-- A firing's due that waits for room at a region. -/
def Due.roomAt (d : Due) (origin : Nat) : Option Nat := match d.what with | .regionRoom o _ _ _ _ _ seq => if o = origin then some seq else none | _ => none

/-- The elements whose commands wait for room at a region, and for nothing else: those of their firings, and the follow-ons of engine commands whose
bytes have landed (R118, R246, R269, R289). -/
def State.regWaiters (s : State) (origin : Nat) : List ArbReq :=
  (s.elems.filterMap fun x => match s.active x.1 with
    | some (f, a) =>
      if (f.due.any fun d => (d.roomAt origin).isSome) && s.live a.lid && !s.precedes a.lid a.g then
        some { rank := x.1, prio := s.arbPrio a, stage := a.stage }
      else none
    | none => none) ++
  s.engines.filterMap fun e => match e.2.queue with
    | c :: _ => if s.followWaits origin c && !s.precedes c.lid c.g then some (s.followReq c) else none
    | [] => none

/-- An element has a command that waits for the same room and was issued earlier. -/
def State.regEarlier (s : State) (origin rank seq : Nat) : Bool :=
  (match s.firing? rank with
    | some f => f.due.any fun d => (d.roomAt origin).any fun x => decide (x < seq)
    | none => false) ||
  s.engines.any fun e => match e.2.queue with
    | c :: _ => c.rank == rank && s.followWaits origin c && c.want.any fun x => decide (x < seq)
    | [] => false

/-- A command that waits for room may enter: there is room, its launch follows no other there, and its turn has come (R118, R269, R289). -/
def State.regTurn (s : State) (rg : Region) (lid g rank seq : Nat) : Bool :=
  decide (rg.queue.length < 8) && !s.precedes lid g && !s.regEarlier rg.origin rank seq && arbTurn (s.regWaiters rg.origin) rg.last rank

/-- A command may enter as it is issued: there is room, and nothing waits before it. -/
def State.regFree (s : State) (rg : Region) (lid g : Nat) : Bool :=
  decide (rg.queue.length < 8) && !s.precedes lid g && (s.regWaiters rg.origin).isEmpty

/-- The command of the word that issues. -/
def regCmdOf (op ty : Nat) (recd : Vec) (b ptr : Word) (rank slot : Nat) (f : Firing) (a : Actor) (dst : List Target) : RegCmd :=
  { op, ty, recd, b, ptr, serial := 0, rank, la := f.la, fid := f.fid, slot, dst, detach := false, lid := a.lid, g := a.g }

/-- Issues a command to a region's queue (R269, R271, R278, R289). -/
def State.regionIssue (s : State) (rg : Region) (op ty : Nat) (recd : Vec) (b ptr : Word) (dst : List Target) : Result :=
  match s.here with
  | none => .next s
  | some (f, a) =>
    if s.hereDet ∧ s.focus.rank ≠ rg.origin then .next (s.faultHere .privilege 0)
    else
      let s1 := s.countLaunch
      if s.regFree rg a.lid a.g then
        let x := s1.regionEnter rg (regCmdOf op ty recd b ptr s.focus.rank s.focus.id f a dst)
        .next (if isAccOp op then x.1.addDue dst (.regionDone rg.origin x.2)
          else x.1.deliverAll s.focus.rank s.focus.id none dst (.s (rg.accepted x.2)))
      else
        let (seq, s2) := s1.fresh
        .next (s2.addDue dst (.regionRoom rg.origin op ty recd b ptr seq))

/-- REGION_COMMAND_ENQUEUE (R118, R269, R289): a waiting command enters when there is room and its element's turn has come. -/
def execRegionCommandEnqueue (rank slot : Nat) (s : State) : Result :=
  match s.active rank, s.dueAt rank slot with
  | some (f, a), some d =>
    match d.what with
    | .regionRoom o op ty recd b ptr seq =>
      match s.regionAt o with
      | none => .next s
      | some rg =>
        if !s.regTurn rg a.lid a.g rank seq then .next s
        else
          let x := s.regionEnter rg (regCmdOf op ty recd b ptr rank slot f a d.dst)
          .next (if isAccOp op then
              x.1.modFiring rank fun f => { f with due := modWhere (fun y => y.slot == slot) (fun y => { y with what := .regionDone o x.2 }) f.due }
            else x.1.payDue rank d (.s (rg.accepted x.2)))
    | _ => .next s
  | _, _ => .next s

/-- MLOADW, MMA and MPROMO (R278). -/
def State.matIssue (s : State) (op : Nat) (a b : Target) : Result :=
  match s.here with
  | none => .next s
  | some (_, x) =>
    match s.recordCheck (s.portS .a) with
    | .bad c => .next (s.fatalHere c (s.portS .a))
    | .ok o =>
      let r := s.localVec o
      match s.regionOf x.lid x.g (matRgn r) with
      | none => .next (s.faultHere .illegalEncoding 0)
      | some rg => if matBad op r rg then .next (s.faultHere .illegalEncoding 0) else s.regionIssue rg op 0 r 0 0 [a, b]

/-- MSWAP, MSCALE and STATF: port A names a region (R277). -/
def State.regionOp (s : State) (op ty : Nat) (v : Word) (a b : Target) : Result :=
  match s.here with
  | none => .next s
  | some (_, x) =>
    match s.regionOf x.lid x.g (bf (s.portS .a) 9 0) with
    | none => .next (s.faultHere .illegalEncoding 0)
    | some rg => s.regionIssue rg op ty 0 v 0 [a, b]

/-- R278, R279. -/
def execMloadw (_p : Pred) (a b : Target) (s : State) : Result := s.matIssue opMloadw a b

/-- R270, R281. -/
def execMswap (_p : Pred) (a b : Target) (s : State) : Result := s.regionOp opMswap 0 0 a b

/-- R278, R280. -/
def execMma (_p : Pred) (a b : Target) (s : State) : Result := s.matIssue opMma a b

/-- Code of a scale selection (R281). -/
def ScaleSel.num : ScaleSel → Nat
  | .bfp => 0 | .mx => 1 | .none => 2

/-- R281. -/
def execMscale (_p : Pred) (t : ScaleSel) (a b : Target) (s : State) : Result := s.regionOp opMscale (ScaleSel.num t) (s.portS .b) a b

/-- R278, R280. -/
def execMpromo (_p : Pred) (a b : Target) (s : State) : Result := s.matIssue opMpromo a b

/-- R288. -/
def execStatf (_p : Pred) (a b : Target) (s : State) : Result := s.regionOp opStatf 0 0 a b

/-! ## The accumulator store (R267, R282) -/

/-- The checks of an ACC pointer: a cluster of another partition or of none is Permission (R106), another one outside the group SpaceViolation. -/
def State.accCheck (s : State) (p : Word) (align : Nat) : PtrCheck :=
  let mine := match s.here with
    | some (_, a) => (match s.bindOf a.lid a.g with | some b => b.covers (ptrOwner p) | none => false)
    | none => false
  if ptrSpace p ≠ 3 ∨ !s.dieEnabled (ptrOwner p / 16) then .bad .spaceViolation
  else if s.partOfDie (ptrOwner p / 16) ≠ some s.herePart then .bad .permission
  else if !mine ∨ 262144 ≤ ptrOff p then .bad .spaceViolation
  else if ptrOff p % align ≠ 0 then .bad .alignment
  else .ok (ptrOff p)

/-- Performs an accumulator access at its store, and the value that it delivers. -/
def State.accPerform (s : State) (op : Nat) (p : Word) (x : Vec) (n : Word) : State × Value :=
  let k := accKey (ptrOwner p) (ptrOff p)
  if op = opAccrd then (s, .v (s.readVec k))
  else if op = opAccwr then (s.writeBytes k (vecBytes x), .s (BitVec.ofNat 64 (2 ^ 63)))
  else (s.writeBytes k (List.replicate (256 * n.toNat) 0), .s (BitVec.ofNat 64 (2 ^ 63)))

/-- An accumulator access goes into the queue of the region that writes the store, or is performed there. -/
def State.accIssue (s : State) (op align : Nat) (x : Vec) (n : Word) (a b : Target) : Result :=
  let p := s.portS .a
  match s.accCheck p align with
  | .bad c => .next (s.fatalHere c p)
  | .ok o =>
    if op = opAccz ∧ (n = 0 ∨ 1024 < o / 256 + n.toNat) then .next (s.faultHere .illegalEncoding n)
    else match s.regionOfStore (ptrOwner p) with
      | some rg => s.regionIssue rg op 0 x n p [a, b]
      | none =>
        let y := s.accPerform op p x n
        .next (y.1.deliverAll s.focus.rank s.focus.id (if op = opAccrd then none else some (BitVec.allOnes 32)) [a, b] y.2)

/-- R282. -/
def execAccrd (_p : Pred) (a b : Target) (s : State) : Result := s.accIssue opAccrd 64 0 0 a b

/-- R282. -/
def execAccwr (_p : Pred) (a b : Target) (s : State) : Result := s.accIssue opAccwr 64 (s.portV .b) 0 a b

/-- R282. -/
def execAccz (_p : Pred) (a b : Target) (s : State) : Result := s.accIssue opAccz 256 0 (s.portS .b) a b

/-! ## Which command runs (R269, R270) -/

/-- MLOADW and MSCALE, which write T.LOAD. -/
def isLoadOp (op : Nat) : Bool := op == opMloadw || op == opMscale

/-- The tile registers that an MMA reads: those of a swap that has passed it are no longer in T.ACT (R270). -/
def Region.actOf (r : Region) (c : RegCmd) : List TileReg := c.tiles.getD r.act

/-- The fault that a command raises as it starts (R278, R281): a STATP outside GLOBAL and DIEMEM, or tags that disagree. -/
def Region.startBad (r : Region) (c : RegCmd) : Option (TrapCode × Word) :=
  let tag := (r.actOf c).headD TileReg.zero
  if 1 < ptrSpace (matStatp c.recd) then some (.spaceViolation, matStatp c.recd)
  else if c.op = opMscale ∧ c.ty = 1 ∧ r.load.any (fun t => !Ty.isFp8 t.ty) then some (.illegalEncoding, 0)
  else if c.op = opMma ∧ !(actTy (matAty c.recd)).any (fun t => tyAgree t tag.ty) then some (.illegalEncoding, 0)
  else if (c.op = opMma ∨ c.op = opMpromo) ∧ tag.smode ≠ matSmode c.recd then some (.illegalEncoding, 0)
  else none

/-- Every row of an MMA may have entered, so that a swap token behind it may have passed (R270, R283). -/
def Region.entered (r : Region) (c : RegCmd) : Bool :=
  c.op == opMma && (r.startBad c).isNone &&
    (!matAsrc c.recd || ((r.queue.head?.map (·.serial)) == some c.serial && decide (r.feedNeed c ≤ r.feed.length)))

/-- The commands from the first one on that may run with an opcode. A weight load or a scale setting passes MMAs, which read only T.ACT; an MMA
passes the one load that has started; a swap passes MMAs whose rows are in; every other command runs at the head (R269, R270). -/
def Region.runnable (r : Region) (op : Nat) : List RegCmd :=
  if isLoadOp op then r.queue.dropWhile fun c => c.op == opMma && (r.startBad c).isNone
  else if op = opMma then (match r.queue with
    | c :: q => if isLoadOp c.op && (r.startBad c).isNone then q else c :: q
    | [] => [])
  else if op = opMswap then r.queue.dropWhile r.entered
  else r.queue

/-- The command with an opcode that may run now. -/
def Region.next (r : Region) (op : Nat) : Option RegCmd :=
  match r.runnable op with
  | c :: _ => if c.op = op then some c else none
  | [] => none

/-- A region and its command with an opcode that may run now; a launch that a full trap queue freezes runs none (R332). -/
def State.regNext (s : State) (rg op : Nat) : Option (Region × RegCmd) :=
  (s.region? rg).bind fun r => (r.next op).bind fun c => if s.ringFrozen c.lid then none else some (r, c)

/-- The commands up to one have started, in queue order: the STATP of each, if any, becomes the region's current record pointer (R269, R287). -/
def Region.startTo (r : Region) (serial : Nat) : Region :=
  let n := (r.queue.takeWhile fun y => y.serial != serial).length + 1
  { r with
    statp := ((r.queue.take n).filter fun y => !y.started).foldl (fun p y => if matStatp y.recd = 0 then p else matStatp y.recd) r.statp,
    queue := (r.queue.take n).map (fun y => { y with started := true }) ++ r.queue.drop n }

/-! ## Statistics (R286 to R288) -/

def cap16 (n : Nat) : Nat := Nat.min n 0xFFFF

/-- Two counts merged (R287). -/
def Stats.merge (a b : Stats) : Stats :=
  { nan := cap16 (a.nan + b.nan), ovf := cap16 (a.ovf + b.ovf), ufz := cap16 (a.ufz + b.ufz), wrap := cap16 (a.wrap + b.wrap),
    maxe := Nat.max a.maxe b.maxe, tiles := (a.tiles + b.tiles) % 2 ^ 32 }

/-- Counts a rounding to a type (R286). -/
def Stats.rounding (x : Stats) (t : Ty) (r : Nat × Flags) : Stats :=
  { x with
    ovf := cap16 (x.ovf + (r.2 &&& flOverflow != 0).toNat),
    ufz := cap16 (x.ufz + (r.1 % 2 ^ (t.width - 1) == 0 && r.2 &&& flInexact != 0).toNat) }

/-- Counts a value of a float type that is produced: NaN, or the largest exponent field among finite nonzero ones (R286). -/
def Stats.value (x : Stats) (t : Ty) (v : Nat) : Stats :=
  let e := v / 2 ^ Ty.manBits t % 2 ^ Ty.expBits t
  match floatOf t v with
  | .nan _ => { x with nan := cap16 (x.nan + 1) }
  | .num _ _ => { x with maxe := Nat.max x.maxe e }
  | .zero _ | .inf _ => x

/-- Counts an integer step that leaves the I32 range (R286). -/
def Stats.step (x : Stats) (v : Int) : Stats :=
  if v < -(2 ^ 31 : Int) ∨ (2 ^ 31 : Int) ≤ v then { x with wrap := cap16 (x.wrap + 1) } else x

/-- A statistics record (R287). -/
def Region.record (r : Region) (c : RegCmd) (fl : Bool) : Word × Vec :=
  let n := nextSerial 32 r.seq
  let st := r.stats
  (r.statp, BitVec.ofNat 512 (c.lid % 2 ^ 32 * 2 ^ 480 + c.g % 2 ^ 16 * 2 ^ 464 + r.rgn % 1024 * 2 ^ 454 + st.nan * 2 ^ 432 +
    st.ovf * 2 ^ 400 + st.ufz * 2 ^ 384 + st.wrap * 2 ^ 368 + st.maxe % 256 * 2 ^ 360 + fl.toNat * 2 ^ 359 + st.tiles * 2 ^ 320 +
    n * 2 ^ 288))

/-- The statistics root writes a record as one store event and resets its counts; without a current pointer it keeps them (R287). -/
def State.statWrite (s : State) (rg : Nat) (c : RegCmd) (fl : Bool) : State :=
  match s.region? rg with
  | none => s
  | some r =>
    if r.statp = 0 then s
    else match s.cmplAt c.lid c.rank r.statp with
      | (s1, .ok k) => (s1.modRegion rg fun r => { r with stats := Stats.zero, seq := nextSerial 32 r.seq }).cmplPut c.lid k (r.record c fl).2
      | (s1, .error f) => s1.cmdFatal c.lid c.g c.rank c.la f.1 f.2

/-! ## The end of a command (R269, R278) -/

/-- A command as it runs: the state, its counts, and the fault that ended it. -/
structure MatRun where
  st    : State
  stats : Stats
  fault : Option (TrapCode × Word)
  deriving DecidableEq, Repr

/-- A command ends: its STAT token is merged, the record and the completion write are made, and it leaves the queue; one that faulted, or whose
CMPL may not be written, takes every command behind it along (R269, R278). `token` says that the command emits a STAT token. -/
def MatRun.finish (x : MatRun) (rg : Nat) (c : RegCmd) (token : Bool) : State :=
  let st := if token then { x.stats with tiles := 1 } else Stats.zero
  let at_ := x.st.cmplAt c.lid c.rank (matCmpl c.recd)
  let fault := match at_.2 with | .ok _ => x.fault | .error f => x.fault.or (some f)
  let s1 := at_.1.modRegion rg fun r => { r with
    stats := r.stats.merge st,
    queue := match fault with
      | none => r.queue.filter fun y => y.serial != c.serial
      | some _ => r.queue.takeWhile fun y => y.serial != c.serial }
  let s2 := if matStatw c.recd then s1.statWrite rg c false else s1
  let s3 := match fault with
    | none => s2
    | some f => s2.cmdFatal c.lid c.g c.rank c.la f.1 f.2
  let word : EngStat := { serial := c.serial, part := 0, state := if fault.isSome then 3 else 2, code := match fault with
    | some f => f.1.num | none => 0 }
  let s4 := match at_.2 with | .ok k => s3.cmplPut c.lid k (word.word.setWidth 512) | .error _ => s3
  s4.modLaunch c.lid fun l => { l with moved := true }

/-- A command runs: it and every command before it have started (R269). -/
def State.matStart (s : State) (rg : Nat) (r : Region) (c : RegCmd) : MatRun :=
  { st := s.modRegion rg fun r => r.startTo c.serial, stats := Stats.zero, fault := r.startBad c }

/-- Reads n bytes of an operand: the issuing element's own LOCAL memory, DIEMEM or GLOBAL (R275). -/
def MatRun.read (x : MatRun) (c : RegCmd) (p : Word) (n : Nat) : MatRun × List Byte :=
  if x.fault.isSome ∨ n = 0 then (x, [])
  else if 2 < ptrSpace p ∨ (ptrSpace p = 2 ∧ ptrOwner p ≠ c.rank) then ({ x with fault := some (.spaceViolation, p) }, [])
  else match x.st.engRead (c.rank / 256) (lidPart c.lid) p n with
    | (s1, .ok l) => ({ x with st := s1 }, l)
    | (s1, .error f) => ({ x with st := s1, fault := some f }, [])

/-- Element i of packed values of a width in bits. -/
def packed (l : List Byte) (w i : Nat) : Nat :=
  if w = 4 then (l.getD (i / 2) 0).toNat / 16 ^ (i % 2) % 16 else natOfBytes ((l.drop (i * (w / 8))).take (w / 8))

/-! ## MLOADW, MSCALE and MSWAP (R270, R279, R281) -/

/-- The operands of a weight load, as bytes. -/
structure Weights where
  rows  : List (List Byte)
  scale : List Byte
  zero  : List Byte
  deriving DecidableEq, Repr

/-- Group size of an INT4 load (R274). -/
def groupSize (r : Vec) : Nat := if matGsz r = 0 then 32 else 128

/-- Reads the weight rows and the scale and zero-point arrays (R275). -/
def MatRun.weights (x : MatRun) (c : RegCmd) (t : Ty) (k n : Nat) : MatRun × Weights :=
  let r := c.recd
  let q := t == .i4 || t == .n4
  let groups := (k + groupSize r - 1) / groupSize r
  let (x1, rows) := (List.range k).foldl (fun (y : MatRun × List (List Byte)) (i : Nat) =>
    let z := y.1.read c (ptrAdd (matAp r) (i * matAstr r)) ((n * t.width + 7) / 8)
    (z.1, y.2 ++ [z.2])) (x, [])
  let bytes := if q then 2 * groups * n else if matSmode r = 1 then k / 32 * n else if matSmode r = 2 then 4 * ((n + 127) / 128) else 0
  let (x2, scale) := if matScp r = 0 then (x1, []) else x1.read c (matScp r) bytes
  let (x3, zero) := if t = .n4 then x2.read c (matZp r) ((groups * n + 1) / 2) else (x2, [])
  (x3, { rows, scale, zero })

/-- The weight at (k, c) as it is stored, and for a dequantised one its rounding (R51, R279). With SCP = 0 an INT4 load has no scale
array, and its scales are free values (log entry 23). -/
def Weights.at (w : Weights) (c : RegCmd) (t : Ty) (n k col : Nat) : Nat × Flags :=
  let v := packed (w.rows.getD k []) t.width col
  if t = .i4 ∨ t = .n4 then
    let g := k / groupSize c.recd
    let z : Int := if t = .n4 then packed w.zero 4 (g * n + col) else 0
    let d : Int := intOf t v - z
    let sc := if matScp c.recd = 0 then (Config.groupScale c.serial (g * n + col)).toNat else packed w.scale 16 (g * n + col)
    roundOp .bf16 .rne false (fvMul (FVal.mk d 0 false) (floatOf .bf16 sc))
  else (v, 0)

/-- Every element of a region takes its tile (R279). -/
def Weights.tiles (w : Weights) (c : RegCmd) (t : Ty) (rw rh : Nat) : List TileReg :=
  let n := 16 * rw
  let b := kb t
  let ty := if t = .i4 ∨ t = .n4 then Ty.bf16 else t
  (List.range rh).flatMap fun ey => (List.range rw).map fun ex =>
    { bits := BitVec.ofNat 4096 (packNat ty.width ((List.range b).flatMap fun k =>
        (List.range 16).map fun j => (w.at c t n (ey * b + k) (16 * ex + j)).1)),
      ty, smode := matSmode c.recd,
      mx := (List.range 16).map fun j => if matSmode c.recd = 1 then w.scale.getD (ey * n + 16 * ex + j) 0 else 0,
      bfp := (List.range 16).map fun j =>
        if matSmode c.recd = 2 then BitVec.ofNat 32 (packed w.scale 32 ((16 * ex + j) / 128)) else 0 }

/-- The prologue path's counts of a load (R286). -/
def Weights.counts (w : Weights) (c : RegCmd) (t : Ty) (k n : Nat) : Stats :=
  (List.range k).foldl (fun s i => (List.range n).foldl (fun s j =>
    let r := w.at c t n i j
    (s.rounding .bf16 r).value .bf16 r.1) s) Stats.zero

/-- MLOADW_EXECUTE (R279). -/
def execMloadwExecute (rg : Nat) (s : State) : Result :=
  match s.regNext rg opMloadw with
  | none => .next s
  | some (r, c) =>
    match weightTy (matAty c.recd) with
    | none => .next s
    | some t =>
      let q := t == .i4 || t == .n4
      let (x, w) := (s.matStart rg r c).weights c t (r.k t) r.n
      if x.fault.isSome then .next (x.finish rg c q)
      else
        let x1 : MatRun := { x with
          st := x.st.modRegion rg fun r => { r with load := w.tiles c t r.w r.h },
          stats := if q then w.counts c t (r.k t) r.n else Stats.zero }
        .next (x1.finish rg c q)

/-- A tile register under the scales of an MSCALE (R281). -/
def RegCmd.scale (c : RegCmd) (t : TileReg) : TileReg :=
  match c.ty with
  | 0 => { t with smode := 2, bfp := List.replicate 16 (BitVec.ofNat 32 (bf c.b 31 0)) }
  | 1 => { t with smode := 1, mx := List.replicate 16 (BitVec.ofNat 8 (bf c.b 7 0)) }
  | _ => { t with smode := 0 }

/-- MSCALE_EXECUTE (R281). -/
def execMscaleExecute (rg : Nat) (s : State) : Result :=
  match s.regNext rg opMscale with
  | none => .next s
  | some (r, c) =>
    let x := s.matStart rg r c
    let x1 : MatRun := if x.fault.isSome then x else { x with st := x.st.modRegion rg fun r => { r with load := r.load.map c.scale } }
    .next (x1.finish rg c false)

/-- MSWAP_EXECUTE (R270, R281): its token has passed every element. An MMA before it that is not over keeps the tiles that its rows met. -/
def execMswapExecute (rg : Nat) (s : State) : Result :=
  match s.regNext rg opMswap with
  | none => .next s
  | some (r, c) =>
    let x := s.matStart rg r c
    let keep := fun (y : RegCmd) => if y.op = opMma ∧ y.started ∧ y.tiles.isNone then { y with tiles := some r.act } else y
    let x1 : MatRun := { x with st := x.st.modRegion rg fun r => { r with act := r.load, load := r.act, queue := r.queue.map keep } }
    .next (x1.finish rg c false)

/-! ## MMA (R46 to R48, R272, R280) -/

/-- An activation row with its scales. -/
structure ActRow where
  vals : List Nat
  mx   : List Byte
  bfp  : Nat
  deriving DecidableEq, Repr

/-- Weight (k, j) of a tile. -/
def TileReg.weight (t : TileReg) (k j : Nat) : Nat := t.bits.toNat / 2 ^ ((16 * k + j) * t.ty.width) % 2 ^ t.ty.width

/-- The column partial of a float row, north to south, with its roundings counted (R272). -/
def Region.partialF (r : Region) (t : Ty) (sm : Nat) (row : ActRow) (col : Nat) (st : Stats) : Nat × Stats :=
  (List.range r.h).foldl (fun p ey =>
    let tile := r.act.getD (ey * r.w + col / 16) TileReg.zero
    let b := kb t
    let ps := (List.range b).map fun k => (floatOf t (row.vals.getD (ey * b + k) 0), floatOf tile.ty (tile.weight k (col % 16)))
    let x := dotBlock (if sm = 1 then (row.mx.getD ey 0).toNat else 127) (if sm = 1 then (tile.mx.getD (col % 16) 0).toNat else 127) ps
    let y := f32Add .rne p.1 x.1
    (y.1, (p.2.rounding .f32 x).rounding .f32 y)) (0, st)

/-- The column partial of an integer row; each element row is one step (R272). -/
def Region.partialI (r : Region) (t : Ty) (row : ActRow) (col : Nat) (st : Stats) : Int × Stats :=
  (List.range r.h).foldl (fun p ey =>
    let tile := r.act.getD (ey * r.w + col / 16) TileReg.zero
    let b := kb t
    let sum := (List.range b).foldl (fun (n : Int) k =>
      n + intOf t (row.vals.getD (ey * b + k) 0) * intOf tile.ty (tile.weight k (col % 16))) p.1
    (toSigned 32 (wrapNat 32 sum), p.2.step sum)) ((0 : Int), st)

/-- One cell step of an MMA (R272). -/
def MatRun.cell (x : MatRun) (r : Region) (c : RegCmd) (t : Ty) (row : ActRow) (m col : Nat) : MatRun :=
  let k := r.cellKey (matArow c.recd + m) col
  let old := if matAccm c.recd then 0 else x.st.readNat k 4
  if Ty.isByteInt t then
    let p := r.partialI t row col x.stats
    let v := toSigned 32 old + p.1
    { x with st := x.st.writeBytes k (bytesOfNat 4 (wrapNat 32 v)), stats := p.2.step v }
  else
    let sm := matSmode c.recd
    let p := r.partialF t sm row col x.stats
    let tile := r.act.getD (col / 16) TileReg.zero
    let (a, st) :=
      if sm = 2 ∧ !matStg c.recd then
        let y := f32Mul .rne row.bfp (tile.bfp.getD (col % 16) 0).toNat
        let z := f32Mul .rne y.1 p.1
        (z.1, (p.2.rounding .f32 y).rounding .f32 z)
      else (p.1, p.2)
    let v := f32Add .rne old a
    { x with st := x.st.writeBytes k (bytesOfNat 4 v.1), stats := (st.rounding .f32 v).value .f32 v.1 }

/-- Activation row m, from memory or from the feed (R275, R280, R284). -/
def MatRun.actRow (x : MatRun) (c : RegCmd) (t : Ty) (k m : Nat) (feed : List Byte) : MatRun × ActRow :=
  let r := c.recd
  let size := t.width / 8
  let (x1, bs) := if matAsrc r then (x, (feed.drop (m * k * size)).take (k * size))
    else x.read c (ptrAdd (matAp r) (m * matAstr r)) (k * size)
  let (x2, sc) := match matSmode r with
    | 1 => x1.read c (ptrAdd (matScp r) (m * (k / 32) : Nat)) (k / 32)
    | 2 => if matStg r then (x1, []) else x1.read c (ptrAdd (matScp r) (4 * m : Nat)) 4
    | _ => (x1, [])
  (x2, { vals := (List.range k).map fun i => packed bs t.width i, mx := sc, bfp := natOfBytes sc })

/-- MMA_EXECUTE (R272, R278, R280): one with ASRC = 1 runs once the feed has its bytes; one whose tags disagree faults as it starts. -/
def execMmaExecute (rg : Nat) (s : State) : Result :=
  match s.regNext rg opMma with
  | none => .next s
  | some (r, c) =>
    match actTy (matAty c.recd) with
    | none => .next s
    | some t =>
      let need := r.feedNeed c
      let x := s.matStart rg r c
      if x.fault.isSome then .next (x.finish rg c true)
      else if r.feed.length < need then .next s
      else
        let r1 := { r with act := r.actOf c }
        let x1 : MatRun := (List.range (matM c.recd)).foldl (fun (x : MatRun) m =>
          let y := x.actRow c t (r.k t) m r.feed
          if y.1.fault.isSome then y.1
          else (List.range r.n).foldl (fun (x : MatRun) col => x.cell r1 c t y.2 m col) y.1) x
        let x2 := { x1 with st := x1.st.modRegion rg fun r => { r with feed := r.feed.drop need } }
        .next (x2.finish rg c true)

/-! ## MPROMO, STATF and queued accumulator accesses (R280, R282, R288) -/

/-- The weight scale s_w of a column as a promotion reads it; where the register holds none, a free value (R268; log entry 24). -/
def RegCmd.promoScale (c : RegCmd) (t : TileReg) (col : Nat) : Nat :=
  if t.smode = 2 then (t.bfp.getD (col % 16) 0).toNat else (Config.promoScale c.serial col).toNat

/-- One cell of a promotion (R280). -/
def MatRun.promote (x : MatRun) (r : Region) (c : RegCmd) (sa m col : Nat) : MatRun :=
  let sk := r.cellKey (matSrow c.recd + m) col
  let dk := r.cellKey (matArow c.recd + m) col
  let tile := r.act.getD (col / 16) TileReg.zero
  let y := f32Mul .rne sa (c.promoScale tile col)
  let z := f32Mul .rne y.1 (x.st.readNat sk 4)
  let v := f32Add .rne (if matAccm c.recd then 0 else x.st.readNat dk 4) z.1
  { x with
    st := (x.st.writeBytes dk (bytesOfNat 4 v.1)).writeBytes sk [0, 0, 0, 0],
    stats := (((x.stats.rounding .f32 y).rounding .f32 z).rounding .f32 v).value .f32 v.1 }

/-- MPROMO_EXECUTE (R278, R280). -/
def execMpromoExecute (rg : Nat) (s : State) : Result :=
  match s.regNext rg opMpromo with
  | none => .next s
  | some (r, c) =>
    let x := s.matStart rg r c
    let x1 : MatRun :=
      if x.fault.isSome then x
      else (List.range (matM c.recd)).foldl (fun (x : MatRun) m =>
        let y := x.read c (ptrAdd (matScp c.recd) (4 * m : Nat)) 4
        if y.1.fault.isSome then y.1
        else (List.range r.n).foldl (fun (x : MatRun) col => x.promote r c (natOfBytes y.2) m col) y.1) x
    .next (x1.finish rg c true)

/-- STATF_EXECUTE (R288). -/
def execStatfExecute (rg : Nat) (s : State) : Result :=
  match s.regNext rg opStatf with
  | none => .next s
  | some (r, c) =>
    let x := s.matStart rg r c
    .next (MatRun.finish { x with st := x.st.statWrite rg c true } rg c false)

/-- ACC_QUEUED_ACCESS (R282): performed after every earlier command, and delivered to the firing that waits. -/
def execAccQueuedAccess (rg : Nat) (s : State) : Result :=
  match s.region? rg with
  | none => .next s
  | some r =>
    match r.queue with
    | [] => .next s
    | c :: q =>
      if !isAccOp c.op || s.ringFrozen c.lid then .next s
      else
        let s1 := s.modRegion rg fun r => { r with queue := q }
        let y := s1.accPerform c.op c.ptr c.recd c.b
        let ord := if c.op = opAccrd then none else some (BitVec.allOnes 32)
        let due := match y.1.firing? c.rank with
          | some f => if f.fid = c.fid then f.due.find? fun (d : Due) => d.what == WaitFor.regionDone r.origin c.serial else none
          | none => none
        .next ((match due with
          | some d => (y.1.dropDue c.rank d.slot).deliverAll c.rank d.slot ord d.dst y.2
          | none => y.1).modLaunch c.lid fun l => { l with moved := true })

/-! ## The follow-on of an engine command, and the feed (R245, R246, R283) -/

/-- The engine issues the follow-on matrix command of a command exactly as MMA from its element would: it enters the region's queue, waits for room in
its turn, or faults (R246, R269). -/
def State.followOn (s : State) (die e : Nat) (c : EngCmd) (r : Vec) : State :=
  match s.regionOf c.lid c.g (matRgn r) with
  | none => s.engFault die e c [] (.illegalEncoding, 0)
  | some rg =>
    if matBad opMma r rg then s.engFault die e c [] (.illegalEncoding, 0)
    else if c.det ∧ c.rank ≠ rg.origin then s.engFault die e c [] (.privilege, 0)
    else if (match c.want with | none => s.regFree rg c.lid c.g | some seq => s.regTurn rg c.lid c.g c.rank seq) then
      let cmd : RegCmd :=
        { op := opMma, ty := 0, recd := r, b := 0, ptr := 0, serial := 0, rank := c.rank, la := c.la, fid := 0, slot := 0, dst := [],
          detach := engDetach c.recd, lid := c.lid, g := c.g }
      let x := s.regionEnter rg cmd
      x.1.modCmd die e c.seq fun c => { c with fol := some (rg.origin, x.2), want := none }
    else if c.want.isSome then s
    else
      let (seq, s1) := s.fresh
      s1.modCmd die e c.seq fun c => { c with want := some seq }

/-- The follow-on of a command has finished. -/
def State.followDone (s : State) (c : EngCmd) : Bool :=
  match c.fol with
  | none => true
  | some (o, serial) => s.regions.all fun r => r.origin != o || r.queue.all fun q => q.serial != serial || q.lid != c.lid

/-- REL holds the completion back: at DIE scope or wider until the follow-on has finished; at a narrower one it need only be queued (R245, R293). -/
def State.relHeld (s : State) (c : EngCmd) : Bool := bf c.recd 20 20 == 1 && decide (2 ≤ bf c.recd 19 17) && !s.followDone c

/-- A command makes its completion write, whose page may have to be waited for, and leaves the queue. -/
def State.engLeave (s : State) (die e : Nat) (c : EngCmd) (state code : Nat) : State :=
  if engCmpl c.recd = 0 then s.engFinish die e c state code
  else s.engPaged die e c (engCmpl c.recd) fun s => s.engFinish die e c state code

/-- A command whose bytes have moved. Once its remote writes are acknowledged, so that its last byte has landed, its follow-on is issued (R246), and it
completes, under REL behind its follow-on (R245); a failed one leaves the queue. -/
def State.engEnd (s : State) (die e : Nat) (c : EngCmd) : State :=
  if !c.acks.isEmpty then s
  else match c.failed, c.follow, c.fol with
    | some f, _, _ => s.engLeave die e c 3 f.num
    | none, some r, none => s.followOn die e c r
    | none, _, _ => if s.relHeld c then s else s.engLeave die e c 2 0

/-- ENGINE_COMMAND_EXECUTE (R242 to R247): the command at the head of an engine's queue goes on by one event, unless a full trap queue freezes its
launch (R332). -/
def execEngineCommandExecute (die eng : Nat) (s : State) : Result :=
  match (s.engine die eng).queue with
  | [] => .next s
  | c :: _ =>
    if s.ringFrozen c.lid then .next s
    else if c.ran then .next (s.engEnd die eng c)
    else if s.engHeld c then .next s
    else
      let s1 := s.engStat die eng c.serial 1 0
      match c.kind, s.regionDst (engDst c.recd) with
      | .unf, some (_, r) => .next (if lidPart r.lid = lidPart c.lid then s1 else s1.engFault die eng c c.acks (.permission, engDst c.recd))
      | _, _ => .next (s1.engRun die eng c)

/-- The moves that the feed takes next of a command, at most n: one read of its source, or zeros (R283). -/
def EngCmd.feedRun (c : EngCmd) (n : Nat) : List NumMove := (runsOf c.joinRead ((c.moves.zipIdx.drop c.sent).take n)).headD []

/-- Bytes of a command enter the feed of a region; with its last byte the command has run. -/
def State.feedPut (s : State) (die eng : Nat) (c : EngCmd) (r : Region) (bs : List Byte) : State :=
  let last := c.sent + bs.length == c.moves.length
  let s1 := s.modRegionAt r.origin fun r => { r with feed := r.feed ++ bs, feeder := if last then none else some (die, eng, c.serial) }
  (s1.engStat die eng c.serial 1 0).modCmd die eng c.seq fun c => { c with sent := c.sent + bs.length, ran := last }

/-- Some moves of a command are read for the feed. -/
def State.feedRead (s : State) (die eng : Nat) (c : EngCmd) (r : Region) (l : List NumMove) : State :=
  match l with
  | [] => s
  | m :: _ =>
    let p := c.srcPtr m.1
    if m.1.1.isNone then s.feedPut die eng c r (List.replicate l.length 0)
    else if 4 < ptrSpace p then
      (if (c.byte m).isSome then s.feedPut die eng c r ((l.map c.byte).takeWhile (·.isSome) |>.filterMap id)
        else if !c.unread m then s
        else if s.remoteOk (lidPart c.lid) p l.length then s.engAsk die eng c [l]
        else s.engFault die eng c c.acks (.spaceViolation, p))
    else s.engPaged die eng c p fun s => match s.engRead (c.rank / 256) (lidPart c.lid) p l.length with
      | (s1, .ok bs) => s1.feedPut die eng c r bs
      | (s1, .error x) => s1.engFault die eng c c.acks x

/-- In a DET launch the feed of a region takes the commands in the order in which they were queued (R323). -/
def State.feedTurn (s : State) (c : EngCmd) (r : Region) : Bool :=
  !c.det || s.engines.all fun e => e.2.queue.all fun y =>
    y.kind != .unf || y.ran || decide (c.ent ≤ y.ent) || (s.regionDst (engDst y.recd)).all fun x => x.2.origin != r.origin

/-- The bytes that the command at the head of a region's queue still needs from the feed. -/
def Region.feedWants (r : Region) : Nat :=
  match r.queue with
  | q :: _ => if q.op = opMma ∧ (r.startBad q).isNone then r.feedNeed q - r.feed.length else 0
  | [] => 0

/-- REGION_FEED (R283): the feed takes bytes that the MMA at the head of the queue still needs, from one engine command at a time. -/
def execRegionFeed (die eng : Nat) (s : State) : Result :=
  match (s.engine die eng).queue with
  | [] => .next s
  | c :: _ =>
    match c.kind, s.regionDst (engDst c.recd) with
    | .unf, some (_, r) =>
      let mine := match r.feeder with | some f => f == (die, eng, c.serial) | none => true
      if s.ringFrozen c.lid ∨ c.ran ∨ s.engHeld c ∨ r.feedWants = 0 ∨ !mine ∨ !s.feedTurn c r ∨ lidPart r.lid ≠ lidPart c.lid then .next s
      else .next (s.feedRead die eng c r (c.feedRun r.feedWants))
    | _, _ => .next s

/-! ## TURN actors (R285) -/

/-- S of a TURN. -/
def ActorDesc.turnSize (d : ActorDesc) : Nat := match bf d.kparam 1 0 with | 0 => 8 | 1 => 16 | _ => 32

/-- The transposed block of S tokens: lane i of token j is lane j of input token i, under the tag of input token j. -/
def transpose (n : Nat) (l : List Token) : List Token :=
  let w := 512 / n
  l.zipIdx.map fun x => { kind := .data, tag := x.1.tag, pay := packW w (l.map fun t => laneW w t.pay x.2) }

/-- TURN_TOKEN_INTAKE (R285). -/
def execTurnTokenIntake (rank la : Nat) (s : State) : Result :=
  match s.actor? rank la with
  | none => .next s
  | some a =>
    if !s.builtin rank la a .turn then .next s
    else match s.headOf rank la 0 with
      | none => .next s
      | some q =>
        match q.tok.kind with
        | .data =>
          if a.turnFull then .next s
          else
            let block := a.turnIn ++ [q.tok]
            let n := a.desc.turnSize
            .next ((s.popIn rank la 0 1).modActor rank la fun a =>
              if block.length < n then { a with turnIn := block } else { a with turnIn := [], turnOut := a.turnOut ++ [transpose n block] })
        | .eos | .reconf => .next (if a.turnIn.isEmpty then s else s.streamFault .malformedStream rank la 0 q.pos)
        | _ => .next (s.streamFault .malformedStream rank la 0 q.pos)

/-- TURN_TOKEN_PUBLISH (R285): one token of the oldest complete block, into a free output slot. -/
def execTurnTokenPublish (rank la : Nat) (s : State) : Result :=
  match s.actor? rank la with
  | none => .next s
  | some a =>
    if !s.builtin rank la a .turn || !s.turnRoom rank la then .next s
    else match a.turnOut with
      | (t :: b) :: r =>
        .next (((s.pushOut rank la 1 t).countSlots rank la 1 1).modActor rank la fun a => { a with turnOut := if b.isEmpty then r else b :: r })
      | _ => .next s

end Sys2Proof.Machine
end

