-- ==== Sys2Proof/Machine/Sync.lean ====
section
/-! DEFINITION. Synchronisation: barriers, channels, version waits, manual wait-for entries, tick waits, fences, owner nodes and collectives
(R303, R308 to R314, R320 to R323). -/

namespace Sys2Proof.Machine

/-! ## Requests (R308 to R311, R314) -/

/-- R309. -/
def execBar (_p : Pred) (a b : Target) (s : State) : Result := s.memIssue [a, b] (s.portS .a) (.bar (bf (s.portS .b) 2 0))

/-- R310. -/
def execChsend (_p : Pred) (a b : Target) (s : State) : Result := s.memIssue [a, b] (s.portS .a) (.chsend (s.portV .b))

/-- R310. -/
def execChrecv (_p : Pred) (a b : Target) (s : State) : Result := s.memIssue [a, b] (s.portS .a) .chrecv

/-- R310. -/
def execChcred (_p : Pred) (a b : Target) (s : State) : Result := s.memIssue [a, b] (s.portS .a) (.chcred (s.portS .b))

/-- R311. -/
def execWaitv (_p : Pred) (a b : Target) (s : State) : Result := s.memIssue [a, b] (s.portS .a) (.waitv s.verPort)

/-- R314: the chain and step stand in its literal; a scope above 4 is IllegalEncoding at issue (R7). -/
def execFence (_p : Pred) (sc : Fin 8) (a b : Target) (_chain : Fin 1024) (_st : Fin 4096) (s : State) : Result :=
  .next (if 4 < sc.val then s.faultHere .illegalEncoding 0 else s.sendReq [a, b] 0 (.fence sc.val))

/-! ## Ticks (R313) -/

/-- What a TKWAIT delivers. -/
def tickValue (det : Bool) (t : Word) (now : Nat) : Word := if det then t else BitVec.ofNat 64 (Nat.max t.toNat now)

/-- R313. -/
def execTkwait (_p : Pred) (a b : Target) (s : State) : Result :=
  let t := s.portS .a
  .next (if t.toNat ≤ s.clock.tick then s.out2 a b (tickValue s.hereDet t s.clock.tick) else s.addDue [a, b] (.tick t s.hereDet))

/-- R313; Privilege in a DET launch (R323). -/
def execTkrd (_p : Pred) (a b : Target) (s : State) : Result :=
  s.unlessDet s.hereDet (.next (s.out2 a b (BitVec.ofNat 64 s.clock.tick)))

/-- TKWAIT_RELEASE (R313): the tick at issue was below the operand, so the operand is delivered. -/
def execTkwaitRelease (rank slot : Nat) (s : State) : Result :=
  match s.dueAt rank slot with
  | some d =>
    match d.what with
    | .tick t _ => .next (if t.toNat ≤ s.clock.tick then s.payDue rank d (.s t) else s)
    | _ => .next s
  | none => .next s

/-! ## Manual entries (R306, R312) -/

/-- The handle of the entry that the partition's next insertion makes; an untracked wait gets a handle with serial 0, which names none. -/
def State.nextHandle (s : State) (part : Nat) : Word :=
  match placeFor (s.waitsOf part) with
  | some (_, idx) => BitVec.ofNat 64 (2 ^ 63 + idx % 2 ^ 20 * 2 ^ 32 + nextSerial 32 (s.part part).waitSer)
  | none => BitVec.ofNat 64 (2 ^ 63)

/-- The entries that a WREG registers (R312). -/
def State.manualEntries (s : State) (h : Bool) (rank la : Nat) (a : Actor) : List WaitEntry :=
  let obj := s.portS .a
  if h then [{ WaitEntry.blank 7 obj with man := true, hlid := a.lid }]
  else
    let w := { s.waitOf 6 obj a.lid rank la none with man := true }
    let b := bf (s.portS .b) 31 0
    w.held (if b = 0 then s.holdersOf (lidPart a.lid) obj else [b])

/-- R312: the handle of the first entry is delivered. -/
def execWreg (_p : Pred) (h : Bool) (a b : Target) (s : State) : Result :=
  match s.here with
  | none => .next s
  | some (f, x) =>
    let handle := s.nextHandle s.herePart
    .next ((s.beginWait s.herePart (s.manualEntries h s.focus.rank f.la x)).out2 a b handle)

/-- The entry that a handle names. -/
def State.handleEntry (s : State) (part : Nat) (h : Word) : Option WaitEntry :=
  (s.waitsOf part).find? fun w => w.serial == bf h 31 0 && w.idx == bf h 51 32 && bf h 63 63 == 1

/-- R312: the entry that the handle names is removed, whoever registered it. -/
def execWdrop (_p : Pred) (a b : Target) (s : State) : Result :=
  .next (match s.handleEntry s.herePart (s.portS .a) with
    | some w => (s.dropWaits s.herePart fun x => x.serial == w.serial).out2 a b 1
    | none => s.out2 a b 0)

/-- R312. -/
def execWqry (_p : Pred) (a b : Target) (s : State) : Result :=
  .next (s.out2 a b (match s.handleEntry s.herePart (s.portS .a) with
    | some w => BitVec.ofNat 64 (2 ^ 63 + w.kind % 16 * 2 ^ 59 + w.spill.toNat * 2 ^ 58)
    | none => 0))

/-! ## Owner nodes (R303) -/

/-- Kinds of an owner's operation: the type, and the operation. -/
def ownKind (d : ActorDesc) : Ty × AtomOp :=
  match bf d.kparam 21 18 with
  | 0 => (.i32, .add) | 1 => (.i64, .add) | 2 => (.i32, .min) | 3 => (.i32, .max) | _ => (.f32, .add)

/-- OWNER_UPDATE (R303): one token is applied as a local access, which may not leave local memory or meet the FIFO area (R223). -/
def execOwnerUpdate (rank la : Nat) (s : State) : Result :=
  match s.actor? rank la with
  | none => .next s
  | some a =>
    if !s.builtin rank la a .own then .next s
    else
      match s.ownInput rank la a ((s.launch? a.lid).any Launch.det) with
      | none => .next s
      | some (h, q) =>
        if q.tok.kind ≠ .data then .next (s.streamFault .malformedStream rank la h q.pos)
        else
          let (t, o) := ownKind a.desc
          let n := t.width / 8
          let i := bf q.tok.pay 31 0
          let off := bf a.desc.kparam 8 0 * 64 + i * n
          if (bf a.desc.kparam 17 9 + 1) * 64 / n ≤ i ∨ 32768 < off + n ∨ s.meetsFifo rank off n then
            .next (s.streamFault .spaceViolation rank la h q.pos)
          else
            let k := localKey rank off
            let new := atomNew o t (s.readNat k n) (bf q.tok.pay (63 + t.width) 64)
            .next (((s.writeBytes k (bytesOfNat n new)).popIn rank la h 1).modActor rank la fun a => { a with ownNext := (h + 1) % 4 })

/-! ## Collectives (R320 to R322) -/

/-- Instructions of a collective. -/
inductive CollKind where
  | red | bcast | gath
  deriving DecidableEq, Repr

def CollKind.num : CollKind → Nat
  | .red => 0 | .bcast => 1 | .gath => 2

/-- Fields of a collective record (R320). -/
def collSrc (r : Vec) : Word := BitVec.ofNat 64 (bf r 511 448)
def collDst (r : Vec) : Word := BitVec.ofNat 64 (bf r 447 384)
def collRes (r : Vec) : Word := BitVec.ofNat 64 (bf r 383 320)
def collCmpl (r : Vec) : Word := BitVec.ofNat 64 (bf r 319 256)
def collCount (r : Vec) : Nat := bf r 255 224
def collSeq (r : Vec) : Nat := bf r 223 192
def collRoot (r : Vec) : Nat := bf r 191 176
def collPset (r : Vec) : Nat := bf r 175 160
def collOp (r : Vec) : Nat := bf r 159 156

/-- The element type and the wire type, when R320 allows them. -/
def collTys (r : Vec) : Option (Ty × Ty) :=
  match Ty.ofCode (BitVec.ofNat 4 (bf r 155 152)), Ty.ofCode (BitVec.ofNat 4 (bf r 151 148)) with
  | some e, some w =>
    if e ≠ .f32 ∧ e ≠ .bf16 ∧ e ≠ .i32 then none
    else if w = e ∨ (e.isFloat && w.isFloat && decide (w.width < e.width)) then some (e, w)
    else none
  | _, _ => none

/-- Modules of a peer set: this one alone for 0, else the members of the list, this module at position 0 (DEDUCED, log entry 25). -/
def State.modulesOf (s : State) (part pset : Nat) : Option Nat :=
  if pset = 0 then some 1 else (alGet (s.part part).peerSets pset).map fun l => l.length

/-- A record error (R320, R321). -/
def State.collBad (s : State) (k : CollKind) (part ngroup : Nat) (r : Vec) : Bool :=
  bf r 147 0 != 0 || collCount r == 0 || (if k = .red then decide (2 < collOp r) else collOp r != 0) ||
    (match collTys r with | none => true | some (e, w) => w == e && collRes r != 0) ||
    (match s.modulesOf part (collPset r) with
      | none => true
      | some m => if k = .bcast then decide (m * ngroup ≤ collRoot r) else collRoot r != 0)

/-- The parts of a record that must agree among the participants of a collective (R321). -/
def collHead (kind : Nat) (r : Vec) : CollHead :=
  { kind, count := collCount r, op := collOp r, ety := bf r 155 152, wty := bf r 151 148, root := collRoot r }

/-- The records that have been issued here, and those whose wire values have come from other modules, agree (R321). -/
def Coll.agree (c : Coll) : Bool :=
  match (c.parts.map fun p => collHead p.kind p.recd) ++ c.wires.map fun w => w.2.1 with
  | [] => true
  | h :: hs => hs.all fun x => x == h

/-- A record of a collective is filed: with the others of its launch, or with what peers sent before it (R321). -/
def State.collFile (s : State) (k : CollKind) (part lid : Nat) (p : CollPart) : State :=
  let r := p.recd
  let mine := fun (c : Coll) => c.part == part && c.pset == collPset r && c.cseq == collSeq r &&
    (c.lid == lid || (c.lid == 0 && collPset r != 0)) && c.parts.all fun x => x.g != p.g
  match s.colls.find? mine with
  | some c => { s with colls := modWhere (fun x => x.id == c.id) (fun x => { x with lid, kind := if x.parts.isEmpty then k.num else x.kind, parts := x.parts ++ [p] }) s.colls }
  | none =>
    let (id, s1) := s.fresh
    { s1 with colls := s1.colls ++
      [{ id, kind := k.num, part, lid, pset := collPset r, cseq := collSeq r, parts := [p], wires := [] }] }

/-- CRED, CBCAST and CGATH (R321). -/
def State.collIssue (s : State) (k : CollKind) (a b : Target) : Result :=
  match s.here with
  | none => .next s
  | some (f, x) =>
    match s.recordCheck (s.portS .a) with
    | .bad c => .next (s.fatalHere c (s.portS .a))
    | .ok o =>
      let r := s.localVec o
      let n := match s.launch? x.lid with | some l => l.ngroup | none => 1
      if s.collBad k s.herePart n r then .next (s.faultHere .illegalEncoding 0)
      else
        let p : CollPart := { kind := k.num, g := x.g, rank := s.focus.rank, la := f.la, recd := r, before := s.pendingOf s.focus.rank }
        let s1 := s.countLaunch.collFile k s.herePart x.lid p
        .next (s1.out2 a b (BitVec.ofNat 64 (2 ^ 63 + collPset r * 2 ^ 32 + collSeq r)))

/-- R321. -/
def execCred (_p : Pred) (a b : Target) (s : State) : Result := s.collIssue .red a b

/-- R321. -/
def execCbcast (_p : Pred) (a b : Target) (s : State) : Result := s.collIssue .bcast a b

/-- R321. -/
def execCgath (_p : Pred) (a b : Target) (s : State) : Result := s.collIssue .gath a b

/-- A collective as it runs. -/
structure CollRun where
  st    : State
  fault : Option (TrapCode × Word)
  deriving DecidableEq, Repr

/-- A pointer of a collective: LOCAL of the issuer, DIEMEM or GLOBAL. -/
def collPtrBad (rank : Nat) (p : Word) : Bool := decide (2 < ptrSpace p) || (ptrSpace p == 2 && ptrOwner p != rank)

/-- Reads n bytes. -/
def CollRun.read (x : CollRun) (part rank : Nat) (p : Word) (n : Nat) : CollRun × List Byte :=
  if x.fault.isSome then (x, [])
  else if collPtrBad rank p then ({ x with fault := some (.spaceViolation, p) }, [])
  else match x.st.engRead (rank / 256) part p n with
    | (s1, .ok l) => ({ x with st := s1 }, l)
    | (s1, .error f) => ({ x with st := s1, fault := some f }, [])

/-- Writes bytes as an engine writes them: one event for each granule (R242). -/
def CollRun.write (x : CollRun) (lid rank la : Nat) (p : Word) (l : List Byte) : CollRun :=
  if x.fault.isSome then x
  else if collPtrBad rank p then { x with fault := some (.spaceViolation, p) }
  else
    let z := (l.zipIdx.foldl (fun (y : EngRun) b => y.putAt (ptrAdd p (b.2 : Nat)) b.1) (x.st.runOf lid rank la)).flush
    { st := z.st, fault := z.fault }

/-- The quantised element of a contribution, and its new residual when one is kept (R322). An integer goes as it is; without a residual a float is
rounded to the wire type, also when that is its own type, which makes every NaN the canonical one. -/
def quantise (e w : Ty) (x : Nat) (r : Option Nat) : Nat × Nat :=
  if !e.isFloat then (x, 0)
  else match r with
    | none => ((roundTo w .rne true (floatOf e x)).1, 0)
    | some r =>
      let y := (f32Add .rne (convert .f32 e .rne false x).1 r).1
      let q := (roundTo w .rne true (floatOf .f32 y)).1
      let d := fvAdd .rne (floatOf .f32 y) (fvNeg (floatOf w q))
      (q, (roundOp .f32 .rne false d).1)

/-- A participant's record goes out with its wire values, or without any where it contributes none: every participant is told what each record says
(R321; log entry 25). -/
def State.wireOut (s : State) (c : Coll) (p : CollPart) (wire : List Byte) (modules : Nat) : State :=
  let head := collHead p.kind p.recd
  let s1 : State := { s with colls := modWhere (fun y => y.id == c.id) (fun y => { y with wires := alSet y.wires p.g (head, wire) }) s.colls }
  if modules = 1 then s1
  else s1.sendFor c.lid p.rank p.la c.pset wire.length (.collective (s1.via (p.rank / 16)) c.pset c.cseq head wire)

/-- A participant's contribution is read, quantised and sent; its residuals are written back first (R321, R322). -/
def CollRun.send (x : CollRun) (c : Coll) (p : CollPart) (e w : Ty) (modules : Nat) : CollRun :=
  let r := p.recd
  let n := collCount r
  let (x1, src) := x.read c.part p.rank (collSrc r) (n * (e.width / 8))
  let keep := w != e && collRes r != 0
  let (x2, res) :=
    if !keep then (x1, [])
    else if ptrSpace (collRes r) = 0 then ({ x1 with fault := x1.fault.or (some (.spaceViolation, collRes r)) }, [])
    else x1.read c.part p.rank (collRes r) (4 * n)
  if x2.fault.isSome then x2
  else
    let qs := (List.range n).map fun j => quantise e w (packed src e.width j) (if keep then some (packed res 32 j) else none)
    let x3 := if keep then x2.write c.lid p.rank p.la (collRes r) (qs.flatMap fun q => bytesOfNat 4 q.2) else x2
    { x3 with st := x3.st.wireOut c p (qs.flatMap fun q => bytesOfNat (w.width / 8) q.1) modules }

/-- A wire value as it is combined: exactly in F32, or the integer itself. -/
def wireValue (e w : Ty) (l : List Byte) (j : Nat) : Nat :=
  let v := packed l w.width j
  if e.isFloat then (if w = .f32 then v else (convert .f32 w .rne false v).1) else v

/-- An element of a result in memory: rounded to the element type, or the integer. -/
def toMemory (e : Ty) (v : Nat) : Nat := if e.isFloat then (roundTo e .rne false (floatOf .f32 v)).1 else v

/-- Combines two elements of a CRED (R321). -/
def combine (e : Ty) (op a b : Nat) : Nat :=
  match op with
  | 0 => if e.isFloat then (f32Add .rne a b).1 else wrapNat 32 (intOf .i32 a + intOf .i32 b)
  | 1 => if e.isFloat then (floatMinMax .f32 true a b).1 else if intOf .i32 a < intOf .i32 b then b else a
  | _ => if e.isFloat then (floatMinMax .f32 false a b).1 else if intOf .i32 b < intOf .i32 a then b else a

/-- The bytes that each participant's DSTP receives (R321). -/
def collResult (kind : Nat) (r : Vec) (e w : Ty) (wires : List (List Byte)) : List Byte :=
  let n := collCount r
  let el := fun l j => bytesOfNat (e.width / 8) (toMemory e (wireValue e w l j))
  match kind with
  | 0 => (List.range n).flatMap fun j =>
      match wires.map fun l => wireValue e w l j with
      | [] => []
      | v :: vs => bytesOfNat (e.width / 8) (toMemory e (vs.foldl (combine e (collOp r)) v))
  | 1 => (List.range n).flatMap (el (wires.headD []))
  | _ => wires.flatMap fun l => (List.range n).flatMap (el l)

/-- A collective ends: every participant's completion write is made (R321). -/
def State.collEnd (s : State) (c : Coll) (state : Nat) : State :=
  let s1 := c.parts.foldl (fun s p =>
    s.cmdWrite c.lid p.g p.rank p.la (collCmpl p.recd) (BitVec.ofNat 64 (state * 2 ^ 60 + c.cseq))) s
  ({ s1 with colls := s1.colls.filter fun x => x.id != c.id } : State).modLaunch c.lid fun l => { l with moved := true }

/-- A collective faults in every participant. -/
def State.collFault (s : State) (c : Coll) (f : TrapCode × Word) : State :=
  (c.parts.foldl (fun s p => s.cmdFatal c.lid p.g p.rank p.la f.1 f.2) s).collEnd c 3

/-- The participants whose wire values a collective needs. -/
def collSenders (kind : Nat) (r : Vec) (total : Nat) : List Nat := if kind = 1 then [collRoot r] else List.range total

/-- What the participants here have not sent yet: the record alone of one that contributes nothing, and a contribution once it may be read. -/
def State.collSend (s : State) (c : Coll) (e w : Ty) (modules total : Nat) : CollRun :=
  c.parts.foldl (fun (x : CollRun) p =>
    let ready := (x.st.pendingOf p.rank).all fun id => !p.before.contains id
    if x.fault.isSome || (alGet c.wires p.g).isSome then x
    else if !(collSenders c.kind p.recd total).contains p.g then { x with st := x.st.wireOut c p [] modules }
    else if !ready then x else x.send c p e w modules) { st := s, fault := none }

/-- The records here that have not gone out do so, since they differ from others (R321). -/
def State.headsOut (s : State) (c : Coll) (modules : Nat) : State :=
  c.parts.foldl (fun s p => if (alGet c.wires p.g).isSome then s else s.wireOut c p [] modules) s

/-- COLLECTIVE_EXECUTION (R321, R322). This module is module 0, so group g is participant g. A full trap queue holds it up (R332). -/
def execCollectiveExecution (c : Nat) (s : State) : Result :=
  match s.colls.find? fun x => x.id == c with
  | none => .next s
  | some co =>
    if s.ringFrozen co.lid then .next s
    else match co.parts, s.launch? co.lid with
    | p :: _, some l =>
      match collTys p.recd, s.modulesOf co.part co.pset with
      | some (e, w), some m =>
        if !co.agree then .next ((s.headsOut co m).collFault co (.illegalEncoding, 0))
        else
          let total := m * l.ngroup
          let x := s.collSend co e w m total
          match x.fault, x.st.colls.find? fun y => y.id == c with
          | some f, _ => .next (x.st.collFault co f)
          | none, none => .next x.st
          | none, some c1 =>
            let got := (collSenders co.kind p.recd total).map fun i => (alGet c1.wires i).map (·.2)
            if c1.parts.length < l.ngroup ∨ (List.range total).any (fun i => (alGet c1.wires i).isNone) then .next x.st
            else
              let bytes := collResult co.kind p.recd e w (got.map fun y => y.getD [])
              let z := c1.parts.foldl (fun (z : CollRun) q => z.write co.lid q.rank q.la (collDst q.recd) bytes) { st := x.st, fault := none }
              match z.fault with
              | some f => .next (z.st.collFault c1 f)
              | none => .next (z.st.collEnd c1 2)
      | _, _ => .next s
    | _, _ => .next s

end Sys2Proof.Machine
end

