-- ==== Sys2Proof/Machine/Fetch.lean ====
section
/-! DEFINITION. The fetch instructions with their pins, and Thatch images: submission, verification and taking effect (R139, R140, R144 to
R157, R370). -/

namespace Sys2Proof.Machine

/-! ## Fetch instructions (R144 to R146) -/

/-- The header words of the blocks that a block id names in the image of the word that issues. -/
def State.blockNamed (s : State) (b : Nat) : Option Nat :=
  match s.hereLaunch.bind fun l => l.img with
  | some im => if b = 0xFFFF then none else (im.blocks.find? fun e => e.1 == b).map (·.2)
  | none => none

/-- The actor's key among the pins of a cluster. -/
def pinKey (rank la : Nat) : Nat := rank * 8 + la

/-- Lines of a cluster that some actor pins, and lines of an element's decoded blocks (R139, R140). -/
def Cluster.pinnedLines (c : Cluster) : Nat := (c.code.filter fun l => pinned l.pins).length
def Elem.pinnedLines (e : Elem) : Nat := ((e.dec.filter fun b => pinned b.pins).map (·.lines)).sum

/-- A refused pin is counted (R146). -/
def State.refusePin (s : State) (c : Nat) : State := s.modCluster c fun x => { x with pinRef := x.pinRef + 1 }

/-- Adds one pin of an actor to a line that its cluster holds (R146). -/
def State.pinLine (s : State) (rank la line : Nat) : State :=
  let c := rank / 16
  match (s.cluster c).code.find? fun l => l.line == line with
  | none => s.refusePin c
  | some l =>
    if !pinned l.pins && decide (512 ≤ (s.cluster c).pinnedLines) then s.refusePin c
    else s.modCluster c fun x => { x with
      code := modWhere (fun l => l.line == line) (fun l => { l with pins := alAdd l.pins (pinKey rank la) 1 }) x.code }

/-- Adds one pin of an actor to a decoded block (R146). -/
def State.pinBlock (s : State) (rank la lid w : Nat) : State :=
  let e := s.elem rank
  match e.dec.find? fun b => b.lid == lid && b.hdr == w with
  | none => s.refusePin (rank / 16)
  | some b =>
    if !pinned b.pins && decide (32 < e.pinnedLines + b.lines) then s.refusePin (rank / 16)
    else s.modElem rank fun e => { e with
      dec := modWhere (fun b => b.lid == lid && b.hdr == w) (fun b => { b with pins := alAdd b.pins (pinKey rank la) 1 }) e.dec }

/-- Drops an actor's pins on the lines that meet a test. -/
def State.unpinLines (s : State) (rank la : Nat) (p : Nat → Bool) : State :=
  s.modCluster (rank / 16) fun c => { c with
    code := modWhere (fun l => p l.line) (fun l => { l with pins := alDel l.pins (pinKey rank la) }) c.code }

/-- A fetch instruction with a block id: `k` takes the actor's index, the actor and the block's header word; an id that names no block is
BadTarget (R145). -/
def State.fetchBlock (s : State) (k : Firing → Actor → Nat → State) : Result :=
  match s.here with
  | none => .next s
  | some (f, a) =>
    match s.blockNamed (bf (s.portS .a) 15 0) with
    | some w => .next (k f a w)
    | none => .next (s.faultHere .badTarget (BitVec.ofNat 64 (bf (s.portS .a) 15 0)))

/-- The block enters the cluster code cache, and the decoded-block cache when `d` is set; a decode fault is filed and not raised (R145). -/
def State.prefetch (s : State) (d : Bool) (a : Actor) (w : Nat) : State :=
  let rank := s.focus.rank
  let s1 := s.touchLines rank (s.blockLines rank a.lid w)
  if d then s1.fileBlock rank a.lid w (s1.decodeAt rank a w).2 else s1

/-- R145. -/
def execIpf (_p : Pred) (d : Bool) (s : State) : Result := s.fetchBlock fun _ a w => s.prefetch d a w

/-- R145, R146. -/
def execIpin (_p : Pred) (d : Bool) (s : State) : Result :=
  s.fetchBlock fun f a w =>
    let rank := s.focus.rank
    let s1 := (s.blockLines rank a.lid w).foldl (fun s l => s.pinLine rank f.la l) (s.prefetch d a w)
    if d then s1.pinBlock rank f.la a.lid w else s1

/-- R145. -/
def execIunpin (_p : Pred) (s : State) : Result :=
  s.fetchBlock fun f a w =>
    let rank := s.focus.rank
    let lines := s.blockLines rank a.lid w
    (s.unpinLines rank f.la fun l => lines.contains l).modElem rank fun e => { e with
      dec := modWhere (fun b => b.lid == a.lid && b.hdr == w) (fun b => { b with pins := alDel b.pins (pinKey rank f.la) }) e.dec }

/-- Drops the decoded copies of some blocks, and the actor's pins on their lines (R145). -/
def State.invalidate (s : State) (la : Nat) (a : Actor) (ws : List Nat) : State :=
  let rank := s.focus.rank
  let lines := ws.flatMap fun w => s.blockLines rank a.lid w
  (s.unpinLines rank la fun l => lines.contains l).modElem rank fun e => { e with
    dec := e.dec.filter fun b => b.lid != a.lid || !ws.contains b.hdr }

/-- R145. -/
def execIinv (_p : Pred) (x : Bool) (s : State) : Result :=
  if x then
    match s.here, s.hereLaunch.bind fun l => l.img with
    | some (f, a), some im => .next (s.invalidate f.la a (im.blocks.map (·.2)))
    | _, _ => .next s
  else s.fetchBlock fun f a w => s.invalidate f.la a [w]

/-! ## Thatch images (R153, R154) -/

/-- Fields of an image's header. -/
structure ThatchHdr where
  magic : Nat
  fmt   : Nat
  iver  : Nat
  ndec  : Nat
  nflt  : Nat
  lutsz : Nat
  totsz : Nat
  rsv   : Bool
  deriving DecidableEq, Repr

def thatchHdr (l : List Byte) : ThatchHdr :=
  let v := vecOfBytes (l.take 64)
  { magic := bf v 511 480, fmt := bf v 479 464, iver := bf v 463 432, ndec := bf v 431 426, nflt := bf v 425 421, lutsz := bf v 383 352,
    totsz := bf v 351 320, rsv := bf v 420 384 != 0 || bf v 319 0 != 0 }

/-- The total size that the counts give. -/
def ThatchHdr.size (h : ThatchHdr) : Nat := 64 + 64 * h.ndec + 64 * ((h.nflt + 1) / 2) + h.lutsz + 512

/-- The most bytes that an image within range has. -/
def thatchMax : Nat := 64 + 64 * 32 + 64 * 8 + 32768 + 512

/-- The decode slots, the fault-path slots and the patch region of an image. -/
def thatchDec (l : List Byte) (h : ThatchHdr) : List (BitVec 512) :=
  (List.range h.ndec).map fun i => vecOfBytes ((l.drop (64 + 64 * i)).take 64)
def thatchFlt (l : List Byte) (h : ThatchHdr) : List (BitVec 256) :=
  (List.range h.nflt).map fun i => BitVec.ofNat 256 (natOfBytes ((l.drop (64 + 64 * h.ndec + 32 * i)).take 32))
def thatchLutOf (l : List Byte) (h : ThatchHdr) : List Byte := (l.drop (64 + 64 * h.ndec + 64 * ((h.nflt + 1) / 2))).take h.lutsz

/-- A decode slot that step 5 accepts. -/
def decSlotOk (v : BitVec 512) : Bool :=
  bf v 357 352 == 0 && bf v 335 256 == 0 && bf v 127 0 == 0 && decide (bf v 415 400 ≤ bf v 399 384) &&
    (bf v 383 382 == 3 || bf v 378 377 == 0)

/-- A fault-path slot that step 5 accepts (R152). -/
def fltSlotOk (v : BitVec 256) : Bool :=
  let code := bf v 255 248
  let act := bf v 215 213
  bf v 200 0 == 0 && decide (act ≤ 3) && decide (1 ≤ code) && decide (code ≤ 0x19) && code != 0x08 &&
    (act != 1 || (decide (1 ≤ bf v 208 201) && decide (bf v 208 201 ≤ 0x19))) && (act != 3 || code == 0x10 || code == 0x18)

/-- The status of an image under an IVER in force: the first check that fails, or 0 (R154). -/
def thatchStatus (l : List Byte) (iver : Nat) : Nat :=
  let h := thatchHdr l
  if h.magic ≠ 0x4B565448 ∨ h.fmt ≠ 1 ∨ h.rsv then 1
  else if h.totsz ≠ h.size ∨ 32 < h.ndec ∨ 16 < h.nflt ∨ h.lutsz % 64 ≠ 0 ∨ 32768 < h.lutsz ∨ l.length ≠ h.totsz then 2
  else if h.iver < iver then 3
  else if !thatchSigOk (l.take (h.totsz - 512)) (l.drop (h.totsz - 512)) then 4
  else if (thatchDec l h).all decSlotOk && (thatchFlt l h).all fltSlotOk then 0
  else 5

/-! ## THATCH (R157) -/

/-- The bytes of an image at a pointer: its header, and then as many bytes as it says (at most those of the largest image). -/
def State.readImage (s : State) (die part : Nat) (p : Word) : State × Except (TrapCode × Word) (List Byte) :=
  match s.engRead die part p 64 with
  | (s1, .ok h) => s1.engRead die part p (Nat.max 64 (Nat.min thatchMax (thatchHdr h).totsz))
  | (s1, .error x) => (s1, .error x)

/-- R157. -/
def execThatch (_p : Pred) (a b : Target) (s : State) : Result :=
  let p := s.portS .a
  match s.here with
  | none => .next s
  | some (f, _) =>
    if s.herePart ≠ 0 ∨ s.hereDet then .next (s.faultHere .privilege 0)
    else if ptrSpace p ≠ 0 ∨ ptrOwner p ≠ 0 then .next (s.fatalHere .spaceViolation p)
    else if ptrOff p % 64 ≠ 0 then .next (s.fatalHere .alignment p)
    else match s.readImage (s.focus.rank / 256) s.herePart p with
      | (s1, .error x) => .next (s1.fatalHere x.1 x.2)
      | (s1, .ok l) =>
        let sub : ThatchSub := { image := l, rank := s.focus.rank, fid := f.fid, slot := s.focus.id, dst := [a, b], cmd := none }
        let s2 : State := { s1 with thatch := { s1.thatch with subs := s1.thatch.subs ++ [sub] } }
        .next (s2.addDue [a, b] .thatch)

/-- The status word of a verification (R157). -/
def thatchWord (code iver : Nat) : Word := BitVec.ofNat 64 (code * 2 ^ 56 + iver % 2 ^ 32)

/-- The 64 bytes of a reply (R365): CMD, the status, SEQ, and the result, whose words follow from bit 431 down (DESIGN CHOICE, log entry 37). -/
def replyPacket (c : Cmd) (status : Nat) (result : List Word) : Vec :=
  let word := fun k => (result.getD k 0).toNat * 2 ^ (368 - 64 * k)
  BitVec.ofNat 512 (bf c.hdr 463 456 * 2 ^ 504 + status % 256 * 2 ^ 496 + bf c.hdr 447 384 * 2 ^ 432 + ((List.range 6).map word).sum)

/-- The reply to a command (R365). A result of more than six words follows the 64 bytes as its own data (DESIGN CHOICE, log entry 37). -/
def State.reply (s : State) (c : Cmd) (status : Nat) (result : List Word) : State :=
  s.send (if result.length ≤ 6 then .reply c.chan (replyPacket c status result) [] else .reply c.chan (replyPacket c status []) result)

/-- The status reaches the THATCH that waits for it, if its firing still does. -/
def State.thatchPay (s : State) (x : ThatchSub) (v : Word) : State :=
  match s.firing? x.rank, s.dueAt x.rank x.slot with
  | some f, some d => if f.fid = x.fid ∧ d.what = .thatch then s.payDue x.rank d (.s v) else s
  | _, _ => s

/-- THATCH_VERIFICATION (R154, R157): the next submitted image is verified, and its status answered. -/
def execThatchVerification (s : State) : Result :=
  match s.thatch.subs with
  | [] => .next s
  | x :: r =>
    let code := thatchStatus x.image s.thatch.iver
    let s1 : State := { s with thatch := { s.thatch with
      subs := r, pending := if code = 0 then s.thatch.pending ++ [x.image] else s.thatch.pending } }
    let v := thatchWord code s.thatch.iver
    .next (match x.cmd with | some c => s1.reply c 0 [v] | none => s1.thatchPay x v)

/-- An extension of the attestation measurement (R370). -/
def State.extend (s : State) (x : List Byte) : State :=
  { s with boot := { s.boot with meas := sha512 (vecBytes s.boot.meas ++ x), measN := s.boot.measN + 1 } }

/-- THATCH_TAKE_EFFECT (R155, R370): at a tick boundary the next verified image replaces the slots of every cluster. -/
def execThatchTakeEffect (s : State) : Result :=
  match s.thatch.pending with
  | [] => .next s
  | l :: r =>
    if !s.thatch.due then .next s
    else
      let h := thatchHdr l
      let t : Thatch := { s.thatch with
        dec := thatchDec l h, flt := thatchFlt l h, lut := thatchLutOf l h, counts := [], gen := s.thatch.gen + 1,
        iver := h.iver, pending := r, due := !r.isEmpty }
      .next (State.extend { s with thatch := t } (vecBytes (sha512 l) ++ bytesOfNat 4 h.iver))

end Sys2Proof.Machine
end

