-- ==== Sys2Proof/Machine/Digest.lean ====
section
/-! DEFINITION. DIGEST with its replica vote, and snapshots: SNAP and the latch (R348 to R353). -/

namespace Sys2Proof.Machine

/-! ## CRC-64 (R349) -/

/-- The polynomial of ECMA-182. -/
def crcPoly : BitVec 64 := 0x42F0E1EBA9EA3693

/-- One bit, most significant first. -/
def crcBit (c : BitVec 64) : BitVec 64 := if c.getMsbD 0 then (c <<< 1) ^^^ crcPoly else c <<< 1

/-- n bits. -/
def crcBits : Nat → BitVec 64 → BitVec 64
  | 0, c => c
  | n + 1, c => crcBits n (crcBit c)

/-- CRC-64 of some bytes: initial value 0 and no final XOR. -/
def crc64 (l : List Byte) : Word := l.foldl (fun c b => crcBits 8 (c ^^^ ((b.setWidth 64 : Word) <<< (56 : Nat)))) (0 : Word)

/-! ## Digest records (R348) -/

def digListp (r : Vec) : Word := BitVec.ofNat 64 (bf r 511 448)
def digCmpl (r : Vec) : Word := BitVec.ofNat 64 (bf r 447 384)
def digNext (r : Vec) : Nat := bf r 383 372
def digSk (r : Vec) : Nat := bf r 371 356
def digRset (r : Vec) : Nat := bf r 355 340
def digDseq (r : Vec) : Nat := bf r 339 308

/-- R349: the firing stays open until the digest is delivered. -/
def execDigest (_p : Pred) (a b : Target) (s : State) : Result :=
  match s.recordCheck (s.portS .a) with
  | .bad c => .next (s.fatalHere c (s.portS .a))
  | .ok o =>
    let r := s.localVec o
    if bf r 307 0 ≠ 0 ∨ digNext r = 0 ∨ digSk r = 0 then .next (s.faultHere .illegalEncoding 0)
    else
      let before := (s.reqs.filter fun q => q.rank == s.focus.rank && !q.acked && q.kind != .null).map (·.id)
      .next (s.addDue [a, b] (.digest r before))

/-- The bytes of the extents from index i of a list, in order. -/
def CollRun.extents (x : CollRun) (part rank : Nat) (table : List Byte) : Nat → Nat → CollRun × List Byte
  | 0, _ => (x, [])
  | n + 1, i =>
    let p : Word := BitVec.ofNat 64 (natOfBytes ((table.drop (16 * i)).take 8))
    let (x1, l) := x.read part rank p (natOfBytes ((table.drop (16 * i + 8)).take 8))
    let (x2, r) := CollRun.extents x1 part rank table n (i + 1)
    (x2, l ++ r)

/-- The bytes that a digest record covers. -/
def State.digestBytes (s : State) (part rank : Nat) (r : Vec) : CollRun × List Byte :=
  let (x, table) := CollRun.read { st := s, fault := none } part rank (digListp r) (16 * digNext r)
  if x.fault.isSome then (x, []) else x.extents part rank table (digNext r) 0

/-- The content of a digest's completion granule: status word, local digest, and majority or 0 (R351). -/
def digestGran (state : Nat) (v m : Word) : Vec := BitVec.ofNat 512 (state * 2 ^ 60 + v.toNat * 2 ^ 64 + m.toNat * 2 ^ 128)

/-- The completion writes of a digest's contributors. -/
def State.digestWrites (s : State) (d : DigestSet) (state : Nat) (v m : Word) : State :=
  d.parts.foldl (fun s p => s.cmdWriteVec d.lid p.g p.rank p.la p.cmpl (digestGran state v m)) s

/-- The launch's digest: the CRC over the groups' bytes in ascending group index (R349). -/
def DigestSet.crc (d : DigestSet) (n : Nat) : Word :=
  crc64 ((List.range n).flatMap fun g => match d.parts.find? fun p => p.g == g with | some p => p.bytes | none => [])

/-- Two sets are one: same partition, replica set and sequence number. -/
def DigestSet.is (d : DigestSet) (part rset dseq : Nat) : Bool := d.part == part && d.rset == rset && d.dseq == dseq

/-- A group's contribution is filed; the last one forms the launch's digest, which ends a digest without a vote (R349 to R351). -/
def State.digestFile (s : State) (lid : Nat) (r : Vec) (p : DigestPart) : State :=
  let part := lidPart lid
  let n := match s.launch? lid with | some l => l.ngroup | none => 1
  let mine := fun (d : DigestSet) => d.is part (digRset r) (digDseq r) && (d.lid == lid || (d.lid == 0 && digRset r != 0)) &&
    d.value.isNone && d.parts.all fun x => x.g != p.g
  let old := match s.digests.find? mine with
    | some d => d
    | none => { lid, part, rset := digRset r, dseq := digDseq r, sk := digSk r, parts := [], value := none, remote := [], voteAt := none }
  let d1 : DigestSet := { old with lid, sk := digSk r, parts := old.parts ++ [p] }
  let d := if d1.parts.length < n then d1 else { d1 with value := some (d1.crc n) }
  let rest := s.digests.eraseP mine
  match d.value with
  | some v => if d.rset = 0 then State.digestWrites { s with digests := rest } d 2 v 0 else { s with digests := rest ++ [d] }
  | none => { s with digests := rest ++ [d] }

/-- DIGEST_COMPLETE (R349): once every earlier request of the element is acknowledged. -/
def execDigestComplete (rank slot : Nat) (s : State) : Result :=
  match s.active rank, s.dueAt rank slot with
  | some (f, a), some d =>
    match d.what with
    | .digest r before =>
      if s.ringFrozen a.lid ∨ s.reqs.any fun q => q.rank == rank && !q.acked && before.contains q.id then .next s
      else
        let (x, bytes) := s.digestBytes (lidPart a.lid) rank r
        match x.fault with
        | some y => .next (x.st.cmdFatal a.lid a.g rank f.la y.1 y.2)
        | none =>
          let p : DigestPart := { g := a.g, rank, la := f.la, cmpl := digCmpl r, bytes }
          .next ((x.st.payDue rank d (.s (crc64 bytes))).digestFile a.lid r p)
    | _ => .next s
  | _, _ => .next s

/-! ## The vote (R350, R351) -/

/-- Size and own index of a replica set; a set that no BIND made has this module alone (DESIGN CHOICE, log entry 27). -/
def State.replicaSet (s : State) (part rset : Nat) : Nat × Nat :=
  match (s.part part).replicas.find? fun x => x.id == rset with
  | some x => (x.size, x.index)
  | none => (1, 0)

/-- At a step boundary the votes of the digests that are formed open, and the digests go out to the other replicas. -/
def State.openVotes (s : State) : State :=
  let opens := fun (d : DigestSet) => d.rset != 0 && d.value.isSome && d.voteAt.isNone && d.sk != 0 && s.clock.tick % d.sk == 0
  let msgs := (s.digests.filter opens).filterMap fun d => d.value.map fun v => OutMsg.digest d.rset d.dseq v
  { s with
    digests := modWhere opens (fun d => { d with voteAt := some s.clock.tick }) s.digests, outbox := s.outbox ++ msgs }

/-- What each replica of a set holds. -/
def DigestSet.held (d : DigestSet) (n own : Nat) : List (Option Word) :=
  (List.range n).map fun i => if i = own then d.value else alGet d.remote i

/-- The digest that more than half of the replicas hold. -/
def majorityOf (l : List (Option Word)) : Option Word :=
  (l.find? fun x => x.isSome && decide (l.length < 2 * l.count x)).join

/-- Every launch of a partition stops FAULTED with REASON 0x14 (R351). -/
def State.haltPart (s : State) (part : Nat) : State :=
  ((s.launches.filter fun l => l.part == part && !l.st.final).map (·.lid)).foldl (fun s lid => s.stopLaunch lid .faulted 0x14) s

/-- REPLICA_VOTE (R350, R351): decided once every replica has sent its digest or 16 step boundaries have passed. -/
def execReplicaVote (part rset dseq : Nat) (s : State) : Result :=
  match s.digests.find? fun d => d.is part rset dseq && d.voteAt.isSome with
  | none => .next s
  | some d =>
    match d.value, d.voteAt with
    | some v, some t =>
      let (n, own) := s.replicaSet part rset
      let held := d.held n own
      if held.any (·.isNone) ∧ s.clock.tick < t + 16 * d.sk then .next s
      else
        let s1 : State := { s with digests := s.digests.eraseP fun x => x.is part rset dseq && x.voteAt.isSome }
        let m := majorityOf held
        let trap := fun (s : State) (i : Nat) => s.mkTrap part d.lid 0 0 .digestMismatch i v (m.getD 0)
        if m = some v then
          let s2 := s1.digestWrites d 2 v v
          .next ((held.zipIdx.filter fun x => x.1 != some v).foldl (fun (s : State) x => s.notice (trap s x.2)) s2)
        else
          let s2 := s1.digestWrites d 3 v (m.getD 0)
          .next ((s2.formTrap { trap s2 own with fatal := true }).1.haltPart part)
    | _, _ => .next s

/-! ## Snapshots (R352, R353) -/

/-- The counters of a partition's snapshot registers as they stand; the SUPPRESS counts are those of its clusters' slots (R152). -/
def State.snapshotNow (s : State) (part serial cycle : Nat) : Snapshot :=
  let p := s.part part
  let here := fun (x : Nat × Nat) => decide (2 ^ 20 ≤ x.1) || s.partOfDie (x.1 / 256) == some part
  { serial, cycle, tick := s.clock.tick, softErr := s.softErr.filter here, discards := s.discards.filter here,
    pinRef := (s.clusters.filter fun c => s.partOfDie (c.1 / 16) == some part).map fun c => (c.1, c.2.pinRef),
    suppress := s.thatch.counts.filter fun x => x.1 / (1024 * 16) == part, stash := s.stashOut, refused := s.refused,
    counters := [p.walkTrunc, p.untracked, p.trapDrop, p.snapDrop] }

/-- The serial of the latched set that a SNAP has been promised. -/
def SnapTrig.serial? (t : SnapTrig) : Option Nat :=
  match t with
  | .atCycle _ n | .atBoundary n => some n
  | .atTick _ => none

/-- The cycle in which a SNAP's latch falls by the clock in force. -/
def SnapTrig.due? (t : SnapTrig) (nextAt : Nat) : Option Nat :=
  match t with
  | .atCycle c _ => some c
  | .atBoundary _ => some nextAt
  | .atTick _ => none

/-- SNAPs' latches that have been promised a set; those of one cycle are one latch. -/
def Part.promised (p : Part) : Nat := (p.trigs.filterMap SnapTrig.serial?).eraseDups.length

/-- A latched set is free for one more trigger; each SNAP that waits for its cycle has one promised (DEDUCED, log entry 32). -/
def Part.snapRoom (p : Part) : Bool := decide (p.latched.length + p.promised < 2)

/-- A trigger that finds no set is dropped and counted. -/
def State.snapDropped (s : State) (part : Nat) : State := s.modPart part fun p => { p with snapDrop := p.snapDrop + 1 }

/-- A trigger latches a set under the next serial, or is dropped (R353). -/
def State.snapTrigger (s : State) (part : Nat) : State :=
  let p := s.part part
  if p.snapRoom then
    let n := nextSerial 32 p.snapSer
    let x := s.snapshotNow part n s.clock.cycle
    s.modPart part fun p => { p with snapSer := n, latched := p.latched ++ [x] }
  else s.snapDropped part

/-- A trigger waits, once. -/
def Part.trigger (p : Part) (t : SnapTrig) : Part := if p.trigs.contains t then p else { p with trigs := p.trigs ++ [t] }

/-- R353. SNAP.TICK waits for the next tick boundary, whenever that comes; a plain SNAP for its cycle. A SNAP whose latch falls in the cycle of one
that waits shares its serial. -/
def execSnap (_p : Pred) (k : Bool) (a b : Target) (s : State) : Result :=
  let part := s.herePart
  let p := s.part part
  let at_ := if k then s.clock.nextAt else s.clock.cycle + 64
  let trig := fun (n : Nat) => if k then SnapTrig.atBoundary n else .atCycle at_ n
  let word := fun (n : Nat) => (BitVec.ofNat 64 (2 ^ 63 + n) : Word)
  .next (match (p.trigs.find? fun t => t.due? s.clock.nextAt == some at_).bind SnapTrig.serial? with
    | some n => (s.modPart part fun p => p.trigger (trig n)).out2 a b (word n)
    | none =>
      if p.snapRoom then
        let n := nextSerial 32 p.snapSer
        (s.modPart part fun p => { p.trigger (trig n) with snapSer := n }).out2 a b (word n)
      else (s.snapDropped part).out2 a b 0)

/-- A trigger's time has come: the latch cycle of a SNAP, or the tick that the host named. A SNAP.TICK gets its cycle from the boundary. -/
def State.trigDue (s : State) (t : SnapTrig) : Bool :=
  match t with
  | .atCycle c _ => decide (c ≤ s.clock.cycle)
  | .atBoundary _ => false
  | .atTick n => decide (n ≤ s.clock.tick)

/-- A boundary in a cycle is the latch cycle of every SNAP.TICK that waits (R353). -/
def SnapTrig.atBound (cycle : Nat) (t : SnapTrig) : SnapTrig :=
  match t with
  | .atBoundary n => .atCycle cycle n
  | .atCycle _ _ | .atTick _ => t

/-- The latch that a SNAP named is made, with the counters as they stand in its cycle (R353). -/
def State.latchSnap (s : State) (part cycle n : Nat) : State :=
  let x := s.snapshotNow part n cycle
  s.modPart part fun p =>
    let rest := p.trigs.filter fun t => t != .atCycle cycle n
    if p.latched.length < 2 then { p with trigs := rest, latched := p.latched ++ [x] } else { p with trigs := rest, snapDrop := p.snapDrop + 1 }

/-- The latches whose cycles end before a cycle begins: none is left for a later one (R353). -/
def State.latchBefore (s : State) (cycle : Nat) : State :=
  s.parts.foldl (fun s p => p.2.trigs.foldl (fun s t =>
    match t with
    | .atCycle c n => if c < cycle then s.latchSnap p.1 c n else s
    | .atBoundary _ | .atTick _ => s) s) s

/-- What a cycle leaves to its end, before a later one begins: the walks over the wait-for table and the latches of SNAPs (R316, R353). -/
def State.closeCycle (s : State) (next : Nat) : State := if s.clock.cycle < next then s.walkCycle.latchBefore next else s

/-- SNAPSHOT_LATCH (R353): an external trigger, or the first one whose time has come. -/
def execSnapshotLatch (part : Nat) (external : Bool) (s : State) : Result :=
  if external then .next (s.snapTrigger part)
  else match (s.part part).trigs.find? s.trigDue with
    | none => .next s
    | some (.atCycle c n) => .next (s.latchSnap part c n)
    | some t => .next ((s.modPart part fun p => { p with trigs := p.trigs.erase t }).snapTrigger part)

end Sys2Proof.Machine
end

