-- ==== Sys2Proof/Machine/Loader.lean ====
section
/-! DEFINITION. The loader's reading of a configuration image and a data object, and its checks that do not depend on placement (R9, R12 to R14,
R22, R25 to R33, R64, R65, R89, R99, R105, R109, R113, R136, R162, R177, R178, R184, R232, R251, R253, R285, R303). Where several
reasons hold, the first in the order of the checks is reported (DEDUCED, log entry 28). -/

namespace Sys2Proof.Machine

/-- The reason of the first check that fails. -/
def firstReason (l : List (Bool × Nat)) : Option Nat := (l.find? (·.1)).map (·.2)

/-- An n-byte number at an offset. -/
def natAt (l : List Byte) (o n : Nat) : Nat := natOfBytes ((l.drop o).take n)

/-! ## Reading (R113, R220) -/

/-- Reads n granules of GLOBAL memory; `x` asks for execute permission as well. A page that may not be read and an uncorrectable error both end
the read (R113, R227). -/
def State.loadGrans (s : State) (part : Nat) (x : Bool) (off : Nat) : Nat → State × Option (List Byte)
  | 0 => (s, some [])
  | n + 1 =>
    match s.globalXlate part (off % 2 ^ 46) with
    | (s1, some (pa, e)) =>
      if pteR e && (!x || pteX e) && !s1.faulty.contains (pa / 64) then
        match State.loadGrans s1 part x (off + 64) n with
        | (s2, some l) => (s2, some (s1.readBytes pa 64 ++ l))
        | (s2, none) => (s2, none)
      else (s1, none)
    | (s1, none) => (s1, none)

/-- Reads the spans (offset, length) of an object. -/
def State.loadSpans (s : State) (part : Nat) (x : Bool) (base : Nat) : List (Nat × Nat) → State × Option (List (List Byte))
  | [] => (s, some [])
  | (o, n) :: r =>
    let lo := o / 64
    let k := if n = 0 then 0 else (o + n + 63) / 64 - lo
    match s.loadGrans part x (base + 64 * lo) k with
    | (s1, none) => (s1, none)
    | (s1, some l) =>
      match State.loadSpans s1 part x base r with
      | (s2, some ls) => (s2, some (((l.drop (o % 64)).take n) :: ls))
      | (s2, none) => (s2, none)

/-! ## The header (R28) -/

/-- An image header. -/
structure ImgHdr where
  magic  : Nat
  fmt    : Nat
  grade  : Nat
  rsv    : Nat
  nact   : Nat
  nedge  : Nat
  nshg   : Nat
  nchain : Nat
  codesz : Nat
  nreloc : Nat
  oact   : Nat
  oedge  : Nat
  oshg   : Nat
  ocode  : Nat
  obsm   : Nat
  ochain : Nat
  oinit  : Nat
  okeep  : Nat
  oreloc : Nat
  oname  : Nat
  deriving DecidableEq, Repr

def imgHdr (v : Vec) : ImgHdr :=
  let f := fun hi lo => bf v hi lo
  { magic := f 511 480, fmt := f 479 464, grade := f 463 456, rsv := f 455 448, nact := f 447 432, nedge := f 431 416, nshg := f 415 400,
    nchain := f 399 384, codesz := f 383 352, nreloc := f 351 320, oact := f 319 288, oedge := f 287 256, oshg := f 255 224,
    ocode := f 223 192, obsm := f 191 160, ochain := f 159 128, oinit := f 127 96, okeep := f 95 64, oreloc := f 63 32, oname := f 31 0 }

/-- The largest image. -/
def imgMax : Nat := 2 ^ 26

/-- A span leaves an image of some length. -/
def pastEnd (len : Nat) (s : Nat × Nat) : Bool := decide (len < s.1 + s.2)

/-- The sections whose sizes the header gives, in the order in which they are read: descriptors, edges, shingles, code, block-start map,
chain table, relocations. -/
def ImgHdr.sections (h : ImgHdr) : List (Nat × Nat) :=
  [(h.oact, 64 * h.nact), (h.oedge, 16 * h.nedge), (h.oshg, 32 * h.nshg), (h.ocode, h.codesz), (h.obsm, (h.codesz + 31) / 32),
    (h.ochain, if h.ochain = 0 then 0 else 64 + 8 * h.nchain), (h.oreloc, 8 * h.nreloc)]

/-- The header's own faults (R2, R28, R136). A mandatory section whose offset is 0 is rejected with 0x08: the spec forbids it and gives no code
(DESIGN CHOICE, log entry 79). -/
def ImgHdr.reason (h : ImgHdr) (grade len : Nat) : Option Nat :=
  firstReason [
    (decide (imgMax < len) || h.magic != 0x4B56434E || h.fmt != 1 || h.rsv != 0 || h.nact == 0 || h.nshg == 0 || decide (1024 < h.nshg) || h.codesz % 4 != 0, 0x01),
    (h.grade != grade, 0x02),
    ([h.oact, h.oedge, h.oshg, h.ocode, h.obsm].any (· == 0), 0x08),
    ([h.oact, h.oedge, h.oshg, h.ocode, h.obsm, h.ochain, h.oinit, h.okeep, h.oreloc, h.oname].any fun o =>
      o % 64 != 0 || decide (len < o), 0x08),
    (h.sections.any (pastEnd len) || (h.oreloc == 0) != (h.nreloc == 0), 0x08),
    (decide (2 ^ 21 < h.codesz + (h.codesz + 31) / 32), 0x09)]

/-! ## Descriptors (R29 to R31) -/

def handleWordOf (w : Nat) : HandleWord :=
  { used := w.testBit 15, out := w.testBit 14, var := w.testBit 13, tile := w.testBit 12, rate := bits w 11 6, max := bits w 5 0 }

/-- A handle word that R10 or R30 forbids. -/
def handleWordBad (w : Nat) : Bool :=
  let h := handleWordOf w
  (!h.used && w != 0) || (if h.var then decide (h.max < Nat.max 1 h.rate) else h.max != 0)

def joinOf (n : Nat) : Join := match n with | 0 => .all | 1 => .early | 2 => .isect | _ => .union
def kindOf (n : Nat) : ActorKind := match n with | 0 => .ordinary | 1 => .fork | 2 => .turn | _ => .own

def actorOf (v : Vec) : ActorDesc :=
  { entry := (List.range 8).map fun p => bf v (399 + 16 * p) (384 + 16 * p),
    hnd := (List.range 16).map fun n => handleWordOf (bf v (143 + 16 * n) (128 + 16 * n)),
    keepMask := BitVec.ofNat 16 (bf v 127 112), keepIdx := bf v 111 96, prio := bf v 95 92, stage := bf v 91 84, stauto := v.getLsbD 83,
    join := joinOf (bf v 82 80), sel := bf v 79 76, dmask := BitVec.ofNat 16 (bf v 75 60), eosph := bf v 59 57, eosv := v.getLsbD 56,
    kind := kindOf (bf v 55 52), isPure := v.getLsbD 51, shg := bf v 50 41, px := bf v 40 37, py := bf v 36 33,
    kparam := BitVec.ofNat 32 (bf v 31 0) }

/-- A static, non-tile handle of rate 1. -/
def HandleWord.unit (h : HandleWord) : Bool := h.used && !h.var && !h.tile && h.rate == 1

/-- Handles that DMASK names. -/
def ActorDesc.dset (d : ActorDesc) : List Nat := (List.range 16).filter fun h => d.dmask.getLsbD h

/-- A static, non-tile input of rate 1 (R162, R253). -/
def ActorDesc.unitIn (d : ActorDesc) (h : Nat) : Bool := (d.handle h).unit && !(d.handle h).out

/-- What the kind of an actor forbids (R178, R251, R285, R303). -/
def ActorDesc.kindBad (d : ActorDesc) : Bool :=
  let k := d.kparam.toNat
  match d.kind with
  | .ordinary => if d.join = .isect ∨ d.join = .union then k / 4 != 0 else k != 0
  | .fork => k != 0 || d.ins != [0] || decide (d.outs.length < 2) || (d.ins ++ d.outs).any fun h => (d.handle h).rate != 1
  | .turn => k / 4 != 0 || k % 4 == 3 || d.ins != [0] || d.outs != [1] || !(d.handle 0).unit || !(d.handle 1).unit
  | .own =>
    let mask := (List.range 4).filter fun h => k.testBit (22 + h)
    bits k 31 26 != 0 || decide (4 < bits k 21 18) || mask.isEmpty || d.ins != mask || !d.outs.isEmpty || !d.ins.all d.unitIn

/-- What the join of an actor forbids (R162, R253). -/
def ActorDesc.joinWrong (d : ActorDesc) : Bool :=
  match d.join with
  | .all => false
  | .early => decide (d.dset.length < 2) || d.dset.contains d.sel || !(d.sel :: d.dset).all d.unitIn
  | .isect | .union => d.dset.length != 2 || d.sel != 0 || !d.dset.all d.unitIn

/-- A descriptor that is refused by itself (R12, R29, R30, R64). -/
def actorBad (v : Vec) (blocks : List (Nat × Nat)) : Bool :=
  let d := actorOf v
  v.getLsbD 32 || decide (3 < bf v 55 52) || decide (3 < bf v 82 80) ||
    ((List.range 16).any fun n => handleWordBad (bf v (143 + 16 * n) (128 + 16 * n))) ||
    d.entry.getD 0 0xFFFF == 0xFFFF || (d.entry.any fun e => e != 0xFFFF && !blocks.any fun b => b.1 == e) || d.kindBad || d.joinWrong

def edgeOf (v : Nat) : EdgeDesc :=
  { pact := bits v 127 112, ph := bits v 111 108, cact := bits v 107 92, chnd := bits v 91 88, depth := bits v 87 79, init := bits v 78 70,
    initIdx := bits v 69 54 }

/-- An edge entry that R31 forbids. That a nonzero reserved bit here, and in a descriptor or shingle entry, is refused, with 0x07, is a DESIGN CHOICE
(log entry 79): R27 gives a code for reserved fields of the header only. -/
def edgeBad (acts : List ActorDesc) (v : Nat) : Bool :=
  let e := edgeOf v
  bits v 53 0 != 0 ||
    (match acts[e.pact]?, acts[e.cact]? with
      | some p, some c => !((p.handle e.ph).used && (p.handle e.ph).out && (c.handle e.chnd).used && !(c.handle e.chnd).out)
      | _, _ => true)

/-- Every used handle is the end of exactly one edge (R31). -/
def endsBad (acts : List ActorDesc) (es : List EdgeDesc) : Bool :=
  acts.zipIdx.any fun a => (List.range 16).any fun h =>
    let n := (es.filter fun e => (e.pact == a.2 && e.ph == h) || (e.cact == a.2 && e.chnd == h)).length +
      (es.filter fun e => e.pact == a.2 && e.ph == h && e.cact == a.2 && e.chnd == h).length
    (a.1.handle h).used && n != 1

/-- A kind that an initial token may have (R31). -/
def initKind (n : Nat) : Option Kind := if n ≤ 7 then Kind.ofCode n else none

/-- An initial token; a stop token's tag is zero (R19). -/
def initTokOf (l : List Byte) : Token :=
  let kind := (initKind (natAt l 68 1 % 16)).getD .data
  { kind, tag := match kind with | .stop _ => 0 | _ => BitVec.ofNat 32 (natAt l 64 4), pay := vecOfBytes (l.take 64) }

/-- An initial-token record that R31 forbids: a bad kind, or padding that is not zero. R31 gives 0x07 for the kind; the same code for the padding is
log entry 79 (DESIGN CHOICE). -/
def initTokBad (l : List Byte) : Bool := decide (7 < natAt l 68 1) || natAt l 69 3 != 0

/-! ## Shingles (R22, R32) -/

def shingleOf (v : Nat) (ports : List (BitVec 32)) (routes : List Byte) : ShingleDesc :=
  { w := bits v 255 252 + 1, h := bits v 251 248 + 1, align := bits v 247 246, matrix := v.testBit 245, ports, routes }

/-- Where a shingle's route table and port list lie. -/
def shingleSpans (v : Nat) : List (Nat × Nat) := [(bits v 239 208, 64 * bits v 207 192), (bits v 175 144, 4 * bits v 191 176)]

/-- A shingle entry that R22 or R32 forbids. -/
def shingleBad (v : Nat) : Bool :=
  bits v 244 240 != 0 || bits v 143 0 != 0 || bits v 247 246 == 3 ||
    (bits v 247 246 == 2 && (bits v 255 252 != 15 || bits v 251 248 != 15))

def portSide (p : BitVec 32) : Nat := bf p 31 30
def portIdx (p : BitVec 32) : Nat := bf p 29 26
def portOut (p : BitVec 32) : Bool := p.getLsbD 25
def portEdge (p : BitVec 32) : Nat := bf p 15 0

/-- A port entry that R22 or R32 forbids: a reserved bit, a place outside its side, or an edge that does not exist. -/
def portBad (nedge w h : Nat) (p : BitVec 32) : Bool :=
  bf p 24 16 != 0 || decide (nedge ≤ portEdge p) || decide ((if portSide p % 2 = 0 then w else h) ≤ portIdx p)

/-! ## Code (R33, R64, R65, R79, R99, R177, R184, R232) -/

/-- The block headers of an image: block id and code word. -/
def headersOf (code : List IWord) (starts : List Bool) : List (Nat × Nat) :=
  (code.zip starts).zipIdx.filterMap fun x => if x.1.2 && bf x.1.1 31 28 == 13 then some (bf x.1.1 15 0, x.2) else none

/-- The words of every block, each with its code word. -/
def bodyOf (code : List IWord) (blocks : List (Nat × Nat)) : List (Nat × Slot) :=
  blocks.flatMap fun b =>
    (layOut 0 0 ((code.drop (b.2 + 1)).take (bf (code.getD b.2 0) 27 22 + 1))).map fun sl => (b.2 + 1 + sl.id, sl)

/-- The lowest block header that an actor's entry table names. -/
def codeLow (blocks : List (Nat × Nat)) (d : ActorDesc) : Nat :=
  let ws := d.entry.filterMap fun e => (blocks.find? fun b => b.1 == e && e != 0xFFFF).map (·.2)
  match ws with | [] => 0 | w :: r => r.foldl Nat.min w

/-- The code range of each actor (R184). -/
def rangesOf (blocks : List (Nat × Nat)) (acts : List ActorDesc) (len : Nat) : List (Nat × Nat) :=
  let lows := acts.map (codeLow blocks)
  lows.zipIdx.map fun x => (x.1, lows.getD (x.2 + 1) len)

/-- Ranges overlap: the range of one actor begins inside that of another (R184; DEDUCED, log entry 79). -/
def rangesBad (rs : List (Nat × Nat)) : Bool :=
  rs.zipIdx.any fun x => rs.zipIdx.any fun y => x.2 != y.2 && decide (y.1.1 ≤ x.1.1) && decide (x.1.1 < y.1.2)

/-- Side effects under `.pure` (R99), with what R177 adds. -/
def sideEffect : Instr → Bool
  | .stl _ _ | .stlv _ _ | .feset _ _ | .feclr _ _ | .stg _ _ _ _ | .stgv _ _ _ _ | .scat _ _ _ _ | .vrcl _ _ _
  | .atom _ _ _ _ | .atomr _ _ _ _ | .cas _ _ _ _ | .vatom _ _ _ _ | .faadd _ _ _ _ | .lockt _ _ _ | .unlockt _ _ _
  | .qcopy _ _ _ _ _ | .qgath _ _ _ _ _ | .qunf _ _ _ _ _ | .mloadw _ _ _ | .mswap _ _ _ | .mma _ _ _ | .mscale _ _ _ _
  | .accwr _ _ _ | .accz _ _ _ | .mpromo _ _ _ | .bar _ _ _ | .wreg _ _ _ _ | .wdrop _ _ _ | .chsend _ _ _ | .chrecv _ _ _
  | .chcred _ _ _ | .cred _ _ _ | .cbcast _ _ _ | .cgath _ _ _ | .fence _ _ _ _ _ _ | .launch _ _ _ | .launchi _ _ _
  | .launcht _ _ _ | .splice _ _ _ | .lcancel _ _ _ | .xop _ _ _ _ | .xopLoad _ | .thatch _ _ _ | .snap _ _ _ _
  | .digest _ _ _ | .statf _ _ _ | .wrk _ _ _ | .wrsr _ _ | .exitv _ => true
  | .ldlv _ c _ _ _ => c
  | .exit _ n => n != 0
  | _ => false

/-- A consumer field of a word is a keep register. -/
def keepTarget (w : IWord) : Bool :=
  let k := fun (t : Target) => match t with | .keep _ => true | _ => false
  let ts := wordTargets w
  k ts.1 || (formatOf (Raw.ofWord w).op != 1 && k ts.2)

/-- A word that a PURE actor may not hold (R99, R177, R232). The R99 list counts opcodes 0xE0 to 0xE5, and LSTAT (0xE4) among its
queries, which are no side effects. -/
def pureBad (code : List IWord) (w : Nat) (sl : Slot) : Bool :=
  match sl.kind with
  | .pfx => (Raw.ofWord sl.word).op == 0x12
  | .ins =>
    (match decodeIns sl.word (code.getD (w + 1) 0) (code.getD (w + 2) 0) with
      | some i => sideEffect i || keepTarget sl.word
      | none => false)
  | .lit | .emu _ _ => false

/-- The chain and step that a word names: a PFX.SEQ, or a FENCE (R79, R314). -/
def stepOf (code : List IWord) (w : Nat) (sl : Slot) : Option (Nat × Nat) :=
  match sl.kind with
  | .pfx => match (Pfx.ofRaw (Raw.ofWord sl.word)).join with
    | some (.seq c st) => some (c.val, st.val)
    | _ => none
  | .ins => match decodeIns sl.word (code.getD (w + 1) 0) (code.getD (w + 2) 0) with
    | some (.fence _ _ _ _ c st) => some (c.val, st.val)
    | _ => none
  | .lit | .emu _ _ => none

/-- The actor whose range holds a code word. -/
def actorOfWord (rs : List (Nat × Nat)) (w : Nat) : Nat := rs.findIdx fun r => decide (r.1 ≤ w) && decide (w < r.2)

/-- A word that uses a matrix region or the accumulator store (R22). -/
def matrixWord (sl : Slot) : Bool :=
  let op := (Raw.ofWord sl.word).op
  sl.kind == .ins && ((decide (0xC0 ≤ op) && decide (op ≤ 0xC7)) || op == 0xF3)

/-- The words that a relocation may patch: the first literal of an instruction with two, and whether its type is N64. -/
def patchable (body : List (Nat × Slot)) : List (Nat × Bool) :=
  body.filterMap fun x =>
    if x.2.kind == .ins && litWords x.2.word == 2 then some (x.1 + 1, (Raw.ofWord x.2.word).ty == Ty.n64.code) else none

/-- A relocation table that R33 forbids; kinds 0 and 1 patch an instruction with TY = N64 only (R74). -/
def relocBad (ok : List (Nat × Bool)) (nact : Nat) (l : List Word) : Bool :=
  l.zipIdx.any fun x =>
    let e := x.1
    decide (3 < bf e 31 28) || !(ok.any fun w => w.1 == bf e 63 32 && (w.2 || decide (2 ≤ bf e 31 28))) || decide ((if bf e 31 28 = 3 then 16 else nact) ≤ bf e 27 0) ||
      (l.take x.2).any fun y => bf y 63 32 == bf e 63 32

/-! ## Rates (R25, R26) -/

/-- An edge joins a `tile` end to another end. -/
def mixedEdge (acts : List ActorDesc) (e : EdgeDesc) : Bool :=
  match acts[e.pact]?, acts[e.cact]? with
  | some p, some c => (p.handle e.ph).tile != (c.handle e.chnd).tile
  | _, _ => false

/-- A dynamic-rate actor. -/
def dynamic (acts : List ActorDesc) (es : List EdgeDesc) (i : Nat) : Bool :=
  (match acts[i]? with
    | some d => d.join != .all || d.kind == .turn || (List.range 16).any fun h => (d.handle h).used && (d.handle h).var
    | none => false) ||
  es.any fun e => (e.pact == i || e.cact == i) && mixedEdge acts e

/-- The rate or declared bound of a handle in slots. A `tile` end that is also `var` on a mixed edge counts 17 times its max: R26 says both 17 times
its rate and its max (DESIGN CHOICE, log entry 79). -/
def ActorDesc.bound (d : ActorDesc) (h : Nat) : Nat :=
  let w := d.handle h
  (if d.joined h || (d.join == .early && h == d.sel) then 1
    else if d.kind = .turn then d.turnSize
    else if w.var then w.max else w.rate) * (if w.tile then 17 else 1)

/-- The depth check. -/
def depthBad (acts : List ActorDesc) (e : EdgeDesc) : Bool :=
  match acts[e.pact]?, acts[e.cact]? with
  | some p, some c =>
    let a := p.bound e.ph
    let b := c.bound e.chnd
    let least := if (p.handle e.ph).tile || (c.handle e.chnd).tile then 34 else 2
    decide (e.depth < Nat.max least (a + b - Nat.gcd a b))
  | _, _ => true

/-- A firing count relative to the first actor of its static part: a fraction. -/
structure Ratio where
  root : Nat
  num  : Nat
  den  : Nat
  deriving DecidableEq, Repr

/-- Carries counts across the static edges once; each edge is (producer, rate, consumer, rate). -/
def spread (es : List (Nat × Nat × Nat × Nat)) (t : List (Option Ratio)) : List (Option Ratio) :=
  es.foldl (fun t e =>
    let (p, a, c, b) := e
    let mk := fun (r : Ratio) (n d : Nat) =>
      let g := Nat.gcd (r.num * n) (r.den * d)
      some { r with num := r.num * n / g, den := r.den * d / g }
    if a = 0 ∨ b = 0 then t
    else match t.getD p none, t.getD c none with
      | some r, none => t.set c (mk r a b)
      | none, some r => t.set p (mk r b a)
      | _, _ => t) t

/-- Spreads as often as there are actors. -/
def spreadN (es : List (Nat × Nat × Nat × Nat)) : Nat → List (Option Ratio) → List (Option Ratio)
  | 0, t => t
  | n + 1, t => spreadN es n (spread es t)

/-- The static edges of an image with their rates. -/
def staticEdges (acts : List ActorDesc) (es : List EdgeDesc) : List (Nat × Nat × Nat × Nat) :=
  es.filterMap fun e => match acts[e.pact]?, acts[e.cact]? with
    | some p, some c =>
      if dynamic acts es e.pact || dynamic acts es e.cact then none else some (e.pact, (p.handle e.ph).rate, e.cact, (c.handle e.chnd).rate)
    | _, _ => none

/-- The firing counts of every actor, up to a factor for each static part. -/
def ratios (n : Nat) (es : List (Nat × Nat × Nat × Nat)) : List (Option Ratio) :=
  (List.range n).foldl (fun t i =>
    match t.getD i none with
    | some _ => t
    | none => spreadN es n (t.set i (some { root := i, num := 1, den := 1 }))) (List.replicate n none)

/-- The consistency check. -/
def ratesBad (es : List (Nat × Nat × Nat × Nat)) (t : List (Option Ratio)) : Bool :=
  es.any fun e => match t.getD e.1 none, t.getD e.2.2.1 none with
    | some p, some c => (e.2.1 == 0) != (e.2.2.2 == 0) || e.2.1 * p.num * c.den != e.2.2.2 * c.num * p.den
    | _, _ => true

/-- The smallest firing counts of each static part (R25 step 1). -/
def repsOf (t : List (Option Ratio)) : List Nat :=
  t.map fun r => match r with
    | none => 1
    | some r =>
      let part := t.filterMap fun x => match x with | some y => if y.root = r.root then some y else none | none => none
      let l := part.foldl (fun l y => Nat.lcm l y.den) 1
      let g := part.foldl (fun g y => Nat.gcd g (y.num * (l / y.den))) 0
      r.num * (l / r.den) / Nat.max 1 g

/-- The symbolic run of one period: the tokens on each static edge with the slots that each takes, the slots that flits outside them take, and
firings left of each actor. -/
structure Run where
  toks  : List (List Nat)
  stray : List Nat
  left  : List Nat
  deriving DecidableEq, Repr

/-- An edge of the run: the edge's description, both rates, and the slots that one token takes. -/
abbrev RunEdge := EdgeDesc × Nat × Nat × Nat

/-- An actor fires once if it can. -/
def Run.fire (x : Run) (es : List RunEdge) (i : Nat) : Run :=
  let can := es.zipIdx.all fun e =>
    let l := x.toks.getD e.2 []
    (e.1.1.cact != i || decide (e.1.2.2.1 ≤ l.length)) &&
      (e.1.1.pact != i || decide (e.1.2.1 * e.1.2.2.2 + l.sum + x.stray.getD e.2 0 ≤ e.1.1.depth))
  if x.left.getD i 0 = 0 ∨ !can then x
  else
    let move := fun (y : List Nat × Nat) => match es[y.2]? with
      | some e => (if e.1.cact = i then y.1.drop e.2.2.1 else y.1) ++ (if e.1.pact = i then List.replicate e.2.1 e.2.2.2 else [])
      | none => y.1
    { x with toks := x.toks.zipIdx.map move, left := x.left.set i (x.left.getD i 0 - 1) }

/-- Every actor fires in turn, as often as one period can need. -/
def Run.rounds (es : List RunEdge) (n : Nat) : Nat → Run → Run
  | 0, x => x
  | k + 1, x => Run.rounds es n k ((List.range n).foldl (fun x i => x.fire es i) x)

/-- The initial tokens of an edge with the slots that each takes: on a tile edge the whole bursts among them (R11, R14). -/
def initSizes (toks : List Token) (tile : Bool) (e : EdgeDesc) : List Nat :=
  (unitsOf tile (((toks.drop e.initIdx).take e.init).map fun t => ⟨t, 0⟩)).map (·.length)

/-- The liveness check (R25 step 3). -/
def livenessBad (acts : List ActorDesc) (es : List EdgeDesc) (toks : List Token) (reps : List Nat) : Bool :=
  let dyn := dynamic acts es
  let live : List RunEdge := es.filterMap fun e => match acts[e.pact]?, acts[e.cact]? with
    | some p, some c =>
      if dyn e.pact || dyn e.cact then none
      else some (e, (p.handle e.ph).rate, (c.handle e.chnd).rate, if (p.handle e.ph).tile then 17 else 1)
    | _, _ => none
  let left := (List.range acts.length).map fun i => if dyn i then 0 else reps.getD i 1
  let sizes := live.map fun e => initSizes toks (e.2.2.2 == 17) e.1
  let x : Run := { toks := sizes, stray := (live.zip sizes).map fun e => e.1.1.init - e.2.sum, left }
  (Run.rounds live acts.length (left.foldl (· + ·) 0) x).left.any (· != 0)

/-- A cycle of edges without initial tokens passes through a dynamic-rate actor (R26). -/
def cycleBad (acts : List ActorDesc) (es : List EdgeDesc) : Bool :=
  let bare := es.filter fun e => e.init == 0
  (List.range acts.length).any fun i => dynamic acts es i &&
    ((List.range acts.length).foldl (fun l _ => reachStep bare l) (((bare.filter fun e => e.pact == i).map (·.cact)).eraseDups)).contains i

/-- The longest path to every actor over edges without initial tokens, at most 255 (R109). -/
def stagesOf (acts : List ActorDesc) (es : List EdgeDesc) : List Nat :=
  let bare := es.filter fun e => e.init == 0
  let pass := fun (t : List Nat) => bare.foldl (fun t e => t.set e.cact (Nat.min 255 (Nat.max (t.getD e.cact 0) (t.getD e.pact 0 + 1)))) t
  let auto := (List.range acts.length).foldl (fun t _ => pass t) (List.replicate acts.length 0)
  acts.zipIdx.map fun a => if a.1.stauto then auto.getD a.2 0 else a.1.stage

/-! ## The image -/

/-- Actors of one element of a group: those of one shingle position. -/
def sameElem (a b : ActorDesc) : Bool := a.shg == b.shg && a.px == b.px && a.py == b.py

/-- Incoming FIFO slots of an actor's element. -/
def fifoNeed (acts : List ActorDesc) (es : List EdgeDesc) (d : ActorDesc) : Nat :=
  ((es.filter fun e => match acts[e.cact]? with | some c => sameElem c d | none => false).map (·.depth)).sum

/-- An element holds more than R9 or R13 allows. -/
def elemBad (acts : List ActorDesc) (es : List EdgeDesc) (d : ActorDesc) : Bool :=
  let here := acts.filter (sameElem d)
  decide (8 < here.length) || decide (32 < (here.map fun a => (a.ins ++ a.outs).length).sum) || decide (512 < fifoNeed acts es d)

/-- The chain table's head and entries (R232). -/
def chainBad (l : List Byte) (n : Nat) : Bool :=
  let v := vecOfBytes (l.take 64)
  let inv := bf v 511 508
  let ext := (List.range 5).map fun k => bf v (415 + 16 * k) (400 + 16 * k)
  decide (1 < inv) || bf v 495 480 != 0 || bf v 399 0 != 0 || (if inv = 1 then bf v 507 496 == 0 || ext.any (· == 0) else bf v 507 496 != 0) ||
    (List.range n).any fun k => natAt l (64 + 8 * k) 8 % 2 ^ 63 != 0

/-- What the first sections hold. -/
structure RawImage where
  hdr     : ImgHdr
  code    : List IWord
  starts  : List Bool
  blocks  : List (Nat × Nat)
  raws    : List Vec
  acts    : List ActorDesc
  edges   : List Nat
  shgs    : List Nat
  chain   : List Byte
  relocs  : List Word
  deriving DecidableEq, Repr

def rawImage (h : ImgHdr) (ss : List (List Byte)) : RawImage :=
  let sec := fun i => ss.getD i []
  let cut := fun (l : List Byte) (k n : Nat) => (List.range n).map fun i => natAt l (k * i) k
  let code : List IWord := (cut (sec 3) 4 (h.codesz / 4)).map fun w => BitVec.ofNat 32 w
  let starts := (List.range code.length).map fun w => ((sec 4).getD (w / 8) 0).getLsbD (w % 8)
  let raws : List Vec := (cut (sec 0) 64 h.nact).map fun v => BitVec.ofNat 512 v
  { hdr := h, code, starts, blocks := headersOf code starts, raws, acts := raws.map actorOf, edges := cut (sec 1) 16 h.nedge,
    shgs := cut (sec 2) 32 h.nshg, chain := sec 5, relocs := (cut (sec 6) 8 h.nreloc).map fun v => BitVec.ofNat 64 v }

/-- Initial-token records and keep words that the image uses. -/
def RawImage.inits (r : RawImage) : Nat := (r.edges.map fun v => let e := edgeOf v; if e.init = 0 then 0 else e.initIdx + e.init).foldl Nat.max 0
def popMask (m : BitVec 16) : Nat := ((List.range 16).filter fun i => m.getLsbD i).length
def RawImage.keeps (r : RawImage) : Nat := (r.acts.map fun d => if d.keepMask = 0 then 0 else d.keepIdx + popMask d.keepMask).foldl Nat.max 0

/-- The sections whose sizes the first ones give: initial tokens, keep words, and the tables of each shingle. -/
def RawImage.more (r : RawImage) : List (Nat × Nat) :=
  [(r.hdr.oinit, 72 * r.inits), (r.hdr.okeep, 8 * r.keeps)] ++ r.shgs.flatMap shingleSpans

/-- The faults of the first sections, before the others are read (R28 to R33). An edge with initial tokens in an image without OINIT, and an actor
that keeps registers in one without OKEEP, are 0x08 (DESIGN CHOICE, log entry 79). -/
def RawImage.early (r : RawImage) (len : Nat) : Option Nat :=
  let ids := r.blocks.map (·.1)
  let es := r.edges.map edgeOf
  firstReason [
    (ids.contains 0xFFFF || ids.eraseDups.length != ids.length, 0x07),
    (r.raws.any fun v => actorBad v r.blocks, 0x07),
    (r.edges.any (edgeBad r.acts) || endsBad r.acts es, 0x07),
    (es.any fun e => decide (e.depth < 2) || decide (256 < e.depth) || decide (e.depth < e.init), 0x03),
    (r.shgs.any shingleBad, 0x07),
    (r.shgs.any fun v => bits v 239 208 % 64 != 0 || bits v 175 144 % 4 != 0, 0x08),
    ((r.inits != 0 && r.hdr.oinit == 0) || (r.keeps != 0 && r.hdr.okeep == 0) || r.more.any (pastEnd len), 0x08)]

/-- The image that the sections describe. -/
def RawImage.image (r : RawImage) (ms : List (List Byte)) : Image :=
  let es := r.edges.map edgeOf
  let v := vecOfBytes (r.chain.take 64)
  let tables := ms.drop 2
  let ranges := rangesOf r.blocks r.acts r.code.length
  { grade := r.hdr.grade, code := r.code, starts := r.starts, actors := r.acts, edges := es,
    shingles := r.shgs.zipIdx.map fun s =>
      let pl := tables.getD (2 * s.2 + 1) []
      shingleOf s.1 ((List.range (pl.length / 4)).map fun i => BitVec.ofNat 32 (natAt pl (4 * i) 4)) (tables.getD (2 * s.2) []),
    nchain := r.hdr.nchain, invm := bf v 511 508 == 1, ppi := bf v 507 496,
    ext := (List.range 5).map fun k => bf v (415 + 16 * k) (400 + 16 * k),
    nohold := (List.range r.hdr.nchain).map fun k => (natAt r.chain (64 + 8 * k) 8).testBit 63,
    initToks := (List.range r.inits).map fun i => initTokOf (((ms.getD 0 []).drop (72 * i)).take 72),
    keepInit := (List.range r.keeps).map fun i => BitVec.ofNat 64 (natAt (ms.getD 1 []) (8 * i) 8),
    relocs := r.relocs, blocks := r.blocks, ranges,
    steps := (bodyOf r.code r.blocks).filterMap fun x => (stepOf r.code x.1 x.2).map fun c =>
      { chain := c.1, step := c.2, actor := actorOfWord ranges x.1 },
    reps := repsOf (ratios r.acts.length (staticEdges r.acts es)), stages := stagesOf r.acts es }

/-- The faults of a whole image (R9, R13, R22, R25, R26, R31 to R33, R177, R184, R232). The spec gives no code for four of them (DESIGN CHOICE, log
entry 79): a port entry with a reserved bit, an index outside its side or a bad edge, and a port named twice, are 0x09; an actor placed outside
its shingle is 0x09, and one whose SHG names no shingle 0x07. -/
def Image.reason (im : Image) (ms : List (List Byte)) (chain : List Byte) : Option Nat :=
  let body := bodyOf im.code im.blocks
  let acts := im.actors
  let st := staticEdges acts im.edges
  let pureOf := fun (w : Nat) => match acts[actorOfWord im.ranges w]? with | some d => d.isPure | none => false
  let steps := im.steps.map fun c => (c.chain, c.step)
  firstReason [
    (rangesBad im.ranges, 0x07),
    (acts.any fun d => d.isPure && (d.entry.drop 1).any (· != 0xFFFF), 0x07),
    (body.any fun x => pureOf x.1 && pureBad im.code x.1 x.2, 0x07),
    (steps.eraseDups.length != steps.length, 0x07),
    ((List.range im.initToks.length).any fun i => (im.edges.any fun e => decide (e.initIdx ≤ i) && decide (i < e.initIdx + e.init)) &&
      initTokBad (((ms.getD 0 []).drop (72 * i)).take 72), 0x07),
    (acts.any fun d => decide (im.shingles.length ≤ d.shg), 0x07),
    (acts.zipIdx.any fun a => match im.shingles[a.1.shg]? with
      | some s => s.align == 0 && (s.matrix || body.any fun x => actorOfWord im.ranges x.1 == a.2 && matrixWord x.2)
      | none => false, 0x07),
    (im.shingles.any fun s => s.matrix && s.align == 0, 0x07),
    (im.shingles.any fun s => (s.ports.any (portBad im.edges.length s.w s.h)) ||
      ((s.ports.map fun p => (portSide p, portIdx p, portOut p)).eraseDups.length != s.ports.length), 0x09),
    (acts.any fun d => match im.shingles[d.shg]? with | some s => decide (s.w ≤ d.px) || decide (s.h ≤ d.py) | none => false, 0x09),
    (acts.any (elemBad acts im.edges), 0x06),
    (!chain.isEmpty && chainBad chain im.nchain, 0x01),
    (im.invm && (List.range acts.length).any (dynamic acts im.edges), 0x07),
    (relocBad (patchable body) acts.length im.relocs, 0x0A),
    (im.edges.any (depthBad acts), 0x03),
    (ratesBad st (ratios acts.length st), 0x04),
    (livenessBad acts im.edges im.initToks im.reps || cycleBad acts im.edges, 0x05)]

/-- The loader reads and checks an image of a given length; a span that cannot be read is reason 0x26 (R113), and an image that ends before its
header does has a bad header. -/
def State.loadImage (s : State) (part : Nat) (p : Word) (len : Nat) : State × Except Nat Image :=
  let base := ptrOff p
  if len < 64 then (s, .error 0x01)
  else match s.loadSpans part true base [(0, 64)] with
  | (s1, none) => (s1, .error 0x26)
  | (s1, some l) =>
    let h := imgHdr (vecOfBytes (l.getD 0 []))
    match h.reason s.flash.grade len with
    | some r => (s1, .error r)
    | none =>
      match s1.loadSpans part true base h.sections with
      | (s2, none) => (s2, .error 0x26)
      | (s2, some ss) =>
        let raw := rawImage h ss
        match raw.early len with
        | some r => (s2, .error r)
        | none =>
          match s2.loadSpans part true base raw.more with
          | (s3, none) => (s3, .error 0x26)
          | (s3, some ms) =>
            let im := raw.image ms
            match im.reason ms raw.chain with
            | some r => (s3, .error r)
            | none => (s3, .ok im)

/-! ## The data object (R89, R105) -/

/-- A segment entry that R105 forbids; a misaligned OFFSET or FOFF and a GLOBAL entry with an ACTOR are among them (DESIGN CHOICE, log entry 79). -/
def segBad (nact v : Nat) : Bool :=
  let sp := bits v 127 124
  let off := bits v 107 62
  decide (2 < sp) || bits v 39 32 != 0 || off % 64 != 0 || bits v 31 0 % 64 != 0 ||
    (if sp = 0 then bits v 123 108 != 0xFFFF else decide (nact ≤ bits v 123 108)) ||
    (sp == 2 && decide (32768 < off + 64 * bits v 61 40))

/-- The loader reads and checks a data object; DATAP 0 writes no segment. A header that R105 forbids is 0x01, and SIZE is not read (DESIGN CHOICE, log
entry 79). -/
def State.loadData (s : State) (part : Nat) (p : Word) (nact : Nat) : State × Except Nat (List Segment) :=
  if p = 0 then (s, .ok [])
  else match s.loadSpans part false (ptrOff p) [(0, 32)] with
    | (s1, none) => (s1, .error 0x26)
    | (s1, some l) =>
      let v := natOfBytes (l.getD 0 [])
      if bits v 255 224 ≠ 0x4B56444D ∨ bits v 223 208 ≠ 1 ∨ bits v 159 0 ≠ 0 then (s1, .error 0x01)
      else
        let n := bits v 207 192
        match s1.loadSpans part false (ptrOff p) [(32, 16 * n)] with
        | (s2, none) => (s2, .error 0x26)
        | (s2, some t) =>
          let es := (List.range n).map fun i => natAt (t.getD 0 []) (16 * i) 16
          if es.any (segBad nact) then (s2, .error 0x01)
          else match s2.loadSpans part false (ptrOff p) (es.map fun e => (bits e 31 0, 64 * bits e 61 40)) with
            | (s3, none) => (s3, .error 0x26)
            | (s3, some bs) =>
              (s3, .ok ((es.zip bs).map fun x =>
                { space := bits x.1 127 124, actor := bits x.1 123 108, off := bits x.1 107 62, bytes := x.2 }))

/-- Where the LOCAL segments of an actor's element end, at the next 64-byte boundary (R89, R223). -/
def segTop (acts : List ActorDesc) (segs : List Segment) (d : ActorDesc) : Nat :=
  let tops := segs.filterMap fun g => match acts[g.actor]? with
    | some a => if g.space = 2 ∧ sameElem a d then some (g.off + g.bytes.length) else none
    | none => none
  (tops.foldl Nat.max 0 + 63) / 64 * 64

/-- An owner's range meets a LOCAL segment or the FIFO area of its element (R303). -/
def ownBad (im : Image) (segs : List Segment) (d : ActorDesc) : Bool :=
  let lo := bf d.kparam 8 0 * 64
  let hi := lo + (bf d.kparam 17 9 + 1) * 64
  let top := segTop im.actors segs d
  let fifo := 64 * fifoNeed im.actors im.edges d
  d.kind == .own &&
    ((decide (lo < top + fifo) && decide (top < hi) && fifo != 0) ||
      segs.any fun g => match im.actors[g.actor]? with
        | some a => g.space == 2 && sameElem a d && decide (lo < g.off + g.bytes.length) && decide (g.off < hi)
        | none => false)

/-- The faults of an image with its segments: FIFO space, owners, and die memory (R89, R105, R303). -/
def layoutReason (im : Image) (segs : List Segment) : Option Nat :=
  firstReason [
    (im.actors.any fun d => decide (32768 < segTop im.actors segs d + 64 * fifoNeed im.actors im.edges d), 0x06),
    (im.actors.any (ownBad im segs), 0x07),
    (segs.any fun g => g.space == 1 && decide (0xE00000 < g.off + g.bytes.length), 0x09)]

end Sys2Proof.Machine
end

