-- ==== Sys2Proof/Machine/Place.lean ====
section
/-! DEFINITION. Ridge: placement with stitching, install, timed start, launch dependence, splicing and the end of a launch (R2, R13, R14, R22,
R23, R39, R89, R106 to R109, R113 to R123, R126 to R134, R136, R146, R186, R223, R232, R233, R267, R304, R312, R358 to R361). What the manual
leaves to Ridge's choice is an argument; a choice that the rules forbid places nothing (log entry 29). -/

namespace Sys2Proof.Machine

/-! ## Regions (R107, R108) -/

/-- The clusters of a rectangle of w by h clusters. -/
def rectClusters (x y w h : Nat) : List Nat := (List.range h).flatMap fun j => (List.range w).map fun i => clusterAt (x + i) (y + j)

/-- Region width and height of a launch, in clusters. -/
def Launch.rw (l : Launch) : Nat := l.rwm1 + 1
def Launch.rh (l : Launch) : Nat := l.rhm1 + 1

/-- The clusters of a group's region. -/
def Launch.clusters (l : Launch) (g : Nat) : List Nat :=
  match l.origins[g]? with | some o => rectClusters o.1 o.2 l.rw l.rh | none => []

/-- The dies that a group's region covers. -/
def Launch.dies (l : Launch) (g : Nat) : List Nat := ((l.clusters g).map (· / 16)).eraseDups

/-- Every die of a launch. -/
def Launch.allDies (l : Launch) : List Nat := ((List.range l.ngroup).flatMap l.dies).eraseDups

/-- A cluster of the partition's own dies. -/
def State.ownCluster (s : State) (part c : Nat) : Bool := s.dieEnabled (c / 16) && s.partOfDie (c / 16) == some part

/-- Some origin puts a region of this size on dies of the partition alone (R107). -/
def State.fitsPart (s : State) (part w h : Nat) : Bool :=
  decide (w ≤ 32) && decide (h ≤ 32) && (List.range (33 - w)).any fun x => (List.range (33 - h)).any fun y =>
    (rectClusters x y w h).all (s.ownCluster part)

/-- A cluster that a new region may take: the partition's, on a die that is ready, and in no other region (R107, R368). -/
def State.freeCluster (s : State) (part c : Nat) : Bool :=
  s.ownCluster part c && s.boot.dieReady.getLsbD (c / 16) && (s.bindAt c).isNone

/-- Every region of a placement is free, and no two share a cluster. -/
def State.regionsOk (s : State) (l : Launch) : Bool :=
  l.origins.length == l.ngroup && (l.origins.all fun o => decide (o.1 + l.rw ≤ 32) && decide (o.2 + l.rh ≤ 32)) &&
    (let cs := (List.range l.ngroup).flatMap l.clusters
     cs.all (s.freeCluster l.part) && cs.eraseDups.length == cs.length)

/-! ## Shingles and stitched paths (R22, R23, R134) -/

/-- A rectangle of elements: column, row, width, height. -/
abbrev Rect := Nat × Nat × Nat × Nat

def Rect.meets (a b : Rect) : Bool :=
  decide (a.1 < b.1 + b.2.2.1) && decide (b.1 < a.1 + a.2.2.1) && decide (a.2.1 < b.2.1 + b.2.2.2) && decide (b.2.1 < a.2.1 + a.2.2.2)

def Rect.holds (a : Rect) (col row : Nat) : Bool :=
  decide (a.1 ≤ col) && decide (col < a.1 + a.2.2.1) && decide (a.2.1 ≤ row) && decide (row < a.2.1 + a.2.2.2)

/-- The rectangles of a group's shingles. -/
def Launch.rects (l : Launch) (im : Image) (g : Nat) : List Rect :=
  im.shingles.zipIdx.map fun sh =>
    let o := l.origins.getD g (0, 0)
    let p := l.shingles.getD (g * im.shingles.length + sh.2) (0, 0)
    (4 * o.1 + p.1, 4 * o.2 + p.2, sh.1.w, sh.1.h)

/-- A group's region in elements. -/
def Launch.regionRect (l : Launch) (g : Nat) : Rect :=
  let o := l.origins.getD g (0, 0)
  (4 * o.1, 4 * o.2, 4 * l.rw, 4 * l.rh)

/-- A shingle lies inside the region and one die, at its alignment (R22, R108). -/
def shinglePlaced (reg r : Rect) (align : Nat) : Bool :=
  decide (r.1 + r.2.2.1 ≤ reg.1 + reg.2.2.1) && decide (r.2.1 + r.2.2.2 ≤ reg.2.1 + reg.2.2.2) && decide (reg.1 ≤ r.1) &&
    decide (reg.2.1 ≤ r.2.1) && r.1 / 16 == (r.1 + r.2.2.1 - 1) / 16 && r.2.1 / 16 == (r.2.1 + r.2.2.2 - 1) / 16 &&
    (align == 0 || (r.1 % (if align = 1 then 4 else 16) == 0 && r.2.1 % (if align = 1 then 4 else 16) == 0))

/-- The clusters that a rectangle touches, in elements. -/
def Rect.hull (a : Rect) : Rect :=
  let c := a.1 / 4 * 4
  let r := a.2.1 / 4 * 4
  (c, r, (a.1 + a.2.2.1 + 3) / 4 * 4 - c, (a.2.1 + a.2.2.2 + 3) / 4 * 4 - r)

/-- Every shingle of a group is placed, and no two meet; a MATRIX shingle has every cluster that it touches to itself (R22, R266). -/
def Launch.shinglesOk (l : Launch) (im : Image) (g : Nat) : Bool :=
  let rs := (l.rects im g).zip im.shingles
  rs.all (fun x => shinglePlaced (l.regionRect g) x.1 x.2.align) &&
    rs.zipIdx.all fun x => rs.zipIdx.all fun y => x.2 == y.2 || !Rect.meets (if x.1.2.matrix then x.1.1.hull else x.1.1) y.1.1

/-- The element one step from another through a side: 0 N, 1 E, 2 S, 3 W. -/
def stepTo (rank side : Nat) : Option Nat :=
  let c := elemCol rank
  let r := elemRow rank
  match side with
  | 0 => if r = 0 then none else some (elemAt c (r - 1))
  | 1 => if c = 127 then none else some (elemAt (c + 1) r)
  | 2 => if r = 127 then none else some (elemAt c (r + 1))
  | _ => if c = 0 then none else some (elemAt (c - 1) r)

/-- The side through which one element faces another. -/
def sideTo (a b : Nat) : Option Nat := (List.range 4).find? fun d => stepTo a d == some b

/-- The boundary element of a port. -/
def portElem (r : Rect) (p : BitVec 32) : Nat :=
  match portSide p with
  | 0 => elemAt (r.1 + portIdx p) r.2.1
  | 1 => elemAt (r.1 + r.2.2.1 - 1) (r.2.1 + portIdx p)
  | 2 => elemAt (r.1 + portIdx p) (r.2.1 + r.2.2.2 - 1)
  | _ => elemAt r.1 (r.2.1 + portIdx p)

/-- The elements that an edge passes from its out port to its in port with a stitched path between; empty for an edge inside one shingle,
`none` when the path does not join the ports (R22, R23). -/
def Launch.edgeRoute (l : Launch) (im : Image) (g : Nat) (e : Nat × EdgeDesc) (path : List Nat) : Option (List Nat) :=
  match im.actors[e.2.pact]?, im.actors[e.2.cact]? with
  | some p, some c =>
    let rs := l.rects im g
    let find := fun (k : Nat) (out : Bool) => (im.shingles[k]?).bind fun sh => sh.ports.find? fun q => portOut q == out && portEdge q == e.1
    match find p.shg true, find c.shg false with
    | none, none => if p.shg = c.shg ∧ path = [] then some [] else none
    | some q, some t =>
      let from_ := portElem (rs.getD p.shg (0, 0, 1, 1)) q
      let dest := portElem (rs.getD c.shg (0, 0, 1, 1)) t
      let seq := from_ :: path ++ [dest]
      let first := (seq.getD 1 dest)
      let last := (seq.getD (seq.length - 2) from_)
      let inside := path.all fun k => (l.regionRect g).holds (elemCol k) (elemRow k) &&
        !rs.any fun r => r.holds (elemCol k) (elemRow k)
      if stepTo from_ (portSide q) == some first && stepTo dest (portSide t) == some last && inside &&
          (seq.zip seq.tail).all (fun x => (sideTo x.1 x.2).isSome) then some seq else none
    | _, _ => none
  | _, _ => none

/-- The bridges that a route crosses, each the sending side's (R134). -/
def routeBridges (seq : List Nat) : List Nat :=
  (seq.zip seq.tail).filterMap fun x => if x.1 / 256 = x.2 / 256 then none else (sideTo x.1 x.2).map fun d => x.1 / 256 * 4 + d

/-- The routes of a group's edges. -/
def Launch.routes (l : Launch) (im : Image) (paths : List (List Nat)) (g : Nat) : List (Option (List Nat)) :=
  im.edges.zipIdx.map fun e => l.edgeRoute im g (e.2, e.1) (paths.getD (g * im.edges.length + e.2) [])

/-- Link directions of stitched paths carry at most four edges each (R23). -/
def linksOk (routes : List (Option (List Nat))) : Bool :=
  let hops := routes.flatMap fun r => match r with | some seq => seq.zip seq.tail | none => []
  hops.all fun x => decide (hops.count x ≤ 4)

/-- Send allowance of a stream. -/
def allowance (depth : Nat) : Nat := Nat.min depth 32

/-- Bridges carry at most 512 streams and 4,096 flits of allowance in each direction (R134). -/
def State.bridgesOk (s : State) (new : List (Nat × Nat)) : Bool :=
  let old := s.edges.flatMap fun e => e.bridges.map fun b => (b, e.depth)
  let all := old ++ new
  (new.map (·.1)).eraseDups.all fun b =>
    let here := all.filter fun x => x.1 == b
    decide (here.length ≤ 512) && decide ((here.map fun x => allowance x.2).sum ≤ 4096)

/-- Members of one chain stand in one cluster (R232). -/
def Launch.chainsOk (l : Launch) (im : Image) (g : Nat) : Bool :=
  im.steps.all fun a => im.steps.all fun b => a.chain != b.chain ||
    (l.actorRank g a.actor).map (· / 16) == (l.actorRank g b.actor).map (· / 16)

/-! ## Code copies and bind records (R117, R136) -/

/-- Bytes of an image's copy: its code and its block-start map. -/
def Image.copySize (im : Image) : Nat := 4 * im.code.length + (4 * im.code.length + 31) / 32

/-- The copies that bind records or a staged successor use on a die: offset and size (R136). -/
def State.copiesOn (s : State) (die : Nat) : List (Nat × Nat) :=
  s.launches.filterMap fun l => match alGet l.cbase die, l.img with
    | some c, some im => some (64 * c, im.copySize)
    | _, _ => none

/-- Each die has room for the copy where Ridge puts it. -/
def State.copiesOk (s : State) (dies : List Nat) (cb : List (Nat × Nat)) (im : Image) : Bool :=
  let n := im.copySize
  dies.all fun d => match alGet cb d with
    | some c => decide (64 * c + n ≤ 2 ^ 21) && (s.copiesOn d).all fun x => decide (64 * c + n ≤ x.1) || decide (x.1 + x.2 ≤ 64 * c)
    | none => false

/-- Every die has a free slot for each of the launch's groups on it. -/
def State.slotsOk (s : State) (l : Launch) : Bool :=
  l.allDies.all fun d =>
    decide ((s.binds.filter fun b => b.die == d).length + ((List.range l.ngroup).filter fun g => (l.dies g).contains d).length ≤ 64)

/-- The lowest free slot of a die. -/
def freeSlot (bs : List BindRec) (die : Nat) : Nat :=
  ((List.range 64).find? fun i => !bs.any fun b => b.die == die && b.slot == i).getD 63

/-- The bind records of a launch, one for each group and die (R117). -/
def State.bindLaunch (s : State) (l : Launch) (im : Image) : State :=
  let one := fun (bs : List BindRec) (g d : Nat) =>
    let o := l.origins.getD g (0, 0)
    let b : BindRec :=
      { die := d, slot := freeSlot bs d, lid := l.lid, g, ngroup := l.ngroup, part := l.part, prio := l.prio, iprio := 0, valid := true,
        matrix := im.shingles.any (·.matrix), det := l.det, armed := l.timed, succ := false, rx := o.1, ry := o.2, rw := l.rwm1,
        rh := l.rhm1, imgp := l.imgp, tickb := if l.timed then BitVec.ofNat 64 l.tick else 0 }
    bs ++ [b]
  { s with binds := (List.range l.ngroup).foldl (fun bs g => (l.dies g).foldl (fun bs d => one bs g d) bs) s.binds }

/-- The copy of an image is written on each die (R136). -/
def State.writeCopies (s : State) (im : Image) (cb : List (Nat × Nat)) : State :=
  let code := im.code.flatMap fun w => bytesOfNat 4 w.toNat
  let starts := (List.range ((im.starts.length + 7) / 8)).map fun i =>
    (BitVec.ofNat 8 ((List.range 8).foldl (fun n j => n + if im.starts.getD (8 * i + j) false then 2 ^ j else 0) 0) : Byte)
  cb.foldl (fun s x => s.writeBytes (dieKey x.1 (0xE00000 + 64 * x.2)) (code ++ starts)) s

/-! ## Power gating (R120) -/

/-- A memory key belongs to the local memory or the accumulator store of a cluster that a test picks. -/
def keyIn (p : Nat → Bool) (k : Nat) : Bool :=
  if 2 ^ 50 ≤ k then p ((k - 2 ^ 50) / 2 ^ 18) else if 2 ^ 49 ≤ k then p ((k - 2 ^ 49) / 2 ^ 15 / 16) else false

/-- Clusters lose what they hold: local memory, full-empty bits, accumulators, actors, buffers and caches. -/
def State.gate (s : State) (p : Nat → Bool) : State :=
  { s with
    mem := s.mem.filter fun c => !keyIn p c.1, full := s.full.filter fun g => !p (g / 2048 / 16),
    elems := s.elems.filter fun e => !p (e.1 / 16),
    clusters := s.clusters.map fun c => if p c.1 then (c.1, { Cluster.empty with pinRef := c.2.pinRef }) else c }

/-! ## Install (R14, R29, R89, R109, R233) -/

/-- Keep registers as the image gives them (R29). -/
def Image.keepOf (im : Image) (d : ActorDesc) : List Word :=
  (List.range 16).map fun i =>
    if d.keepMask.getLsbD i then im.keepInit.getD (d.keepIdx + ((List.range i).filter fun j => d.keepMask.getLsbD j).length) 0 else 0

/-- The element-local index of an actor: how many earlier actors of the image share its element. -/
def Image.localIdx (im : Image) (a : Nat) : Nat :=
  match im.actors[a]? with
  | some d => ((im.actors.take a).filter (sameElem d)).length
  | none => 0

/-- The actor as installed. -/
def Launch.newActor (l : Launch) (im : Image) (g a : Nat) (d : ActorDesc) : Actor :=
  Actor.install l.lid g a d (im.stages.getD a 0) (im.ranges.getD a (0, 0)) (im.reps.getD a 1) (im.keepOf d)

/-- The actors of a group enter their elements in image order. -/
def State.putActors (s : State) (l : Launch) (im : Image) (g : Nat) : State :=
  im.actors.zipIdx.foldl (fun s x =>
    match l.actorRank g x.2 with
    | some r => s.modElem r fun e => { e with actors := e.actors ++ [l.newActor im g x.2 x.1] }
    | none => s) s

/-- An edge of a group, empty. -/
def Launch.newEdge (l : Launch) (im : Image) (g i : Nat) (e : EdgeDesc) (route : List Nat) : Edge :=
  { lid := l.lid, g, eidx := i, prank := (l.actorRank g e.pact).getD 0, pla := im.localIdx e.pact, ph := e.ph,
    crank := (l.actorRank g e.cact).getD 0, cla := im.localIdx e.cact, ch := e.chnd, depth := e.depth, bridges := routeBridges route,
    fifo := [], link := [], arrived := 0, burst := none, owed := 0, antis := 0, lastCrd := none, lastKind := none, marker := none,
    dropping := false, det := l.det, quantum := false }

/-- The edges of a group. -/
def State.putEdges (s : State) (l : Launch) (im : Image) (routes : List (Option (List Nat))) (g : Nat) : State :=
  { s with edges := s.edges ++ im.edges.zipIdx.map fun e => l.newEdge im g e.2 e.1 ((routes.getD e.2 none).getD []) }

/-- The regions of a group's MATRIX shingles (R119, R266). -/
def State.putRegions (s : State) (l : Launch) (im : Image) (g : Nat) : State :=
  { s with regions := s.regions ++ im.shingles.zipIdx.filterMap fun x =>
      if x.1.matrix then
        let n := x.1.w * x.1.h
        some { lid := l.lid, g, rgn := x.2, origin := (l.shingleOrigin g x.2).getD 0, w := x.1.w, h := x.1.h,
               act := List.replicate n TileReg.zero, load := List.replicate n TileReg.zero, queue := [], serial := 0, stats := Stats.zero,
               statp := 0, seq := 0, feed := [], feeder := none }
      else none }

/-- Inserts a step in ascending order. -/
def insStep (x : Nat × Nat) : List (Nat × Nat) → List (Nat × Nat)
  | [] => [x]
  | y :: r => if x.1 < y.1 then x :: y :: r else y :: insStep x r

/-- The chains of a group (R233). -/
def State.putChains (s : State) (l : Launch) (im : Image) (g : Nat) : State :=
  { s with chains := s.chains ++ ((im.steps.map (·.chain)).eraseDups).map fun c =>
      let st := (im.steps.filter fun x => x.chain == c).foldl (fun t x => insStep (x.step, x.actor) t) []
      { lid := l.lid, g, chain := c, steps := st, round := 0, at_ := 0, sent := st.map fun _ => 0, last := none } }

/-- Writes bytes granule by granule, each one store event (R89, R228). -/
def State.storeGrans (s : State) (part : Nat) (ret : Bool) (key : Nat) (l : List Byte) : State :=
  (List.range ((l.length + 63) / 64)).foldl (fun s i =>
    s.storeEvent part ret (key / 64 + i) (BitVec.allOnes 64) (vecOfBytes ((l.drop (64 * i)).take 64))) s

/-- Writes the GLOBAL segments; false when a page may not be written (DESIGN CHOICE, log entry 35). -/
def State.putGlobal (s : State) (part : Nat) (segs : List Segment) : State × Bool :=
  segs.foldl (fun x g =>
    if g.space ≠ 0 then x
    else (List.range (g.bytes.length / 64)).foldl (fun (x : State × Bool) i =>
      if !x.2 then x
      else match x.1.globalXlate part ((g.off + 64 * i) % 2 ^ 46) with
        | (s1, some (pa, e)) =>
          if pteW e then (s1.storeEvent part (pteRet e) (pa / 64) (BitVec.allOnes 64) (vecOfBytes ((g.bytes.drop (64 * i)).take 64)), true)
          else (s1, false)
        | (s1, none) => (s1, false)) x) (s, true)

/-- Writes a LOCAL segment into an element and marks its granules full (R89). -/
def State.putLocal (s : State) (rank : Nat) (g : Segment) : State :=
  if g.bytes.isEmpty then s
  else (s.writeBytes (localKey rank g.off) g.bytes).feSet (feSpan rank g.off g.bytes.length)

/-- The LOCAL segments of a group (R89). -/
def State.putSegs (s : State) (l : Launch) (g : Nat) : State :=
  l.segs.foldl (fun s sg =>
    match l.actorRank g sg.actor with
    | none => s
    | some r => if sg.space = 2 then s.putLocal r sg else s) s

/-- The launch's DIEMEM segments of a die, those whose actor some group has there: each written once, when the first group is installed on the
die (R89). -/
def State.putDie (s : State) (l : Launch) (die : Nat) : State :=
  let done := match s.launch? l.lid with | some x => x.dieDone | none => []
  if done.contains die then s
  else
    let here := fun (sg : Segment) => sg.space == 1 && (List.range l.ngroup).any fun g => (l.actorRank g sg.actor).map (· / 256) == some die
    ((l.segs.filter here).foldl (fun s sg => s.storeGrans l.part false (dieKey die sg.off) sg.bytes) s).modLaunch l.lid
      fun x => { x with dieDone := x.dieDone ++ [die] }

/-- One group is installed. -/
def State.putGroup (s : State) (l : Launch) (im : Image) (paths : List (List Nat)) (g : Nat) : State :=
  let s1 := ((((s.putActors l im g).putEdges l im (l.routes im paths g) g).putRegions l im g).putChains l im g).putSegs l g
  (l.dies g).foldl (fun s d => s.putDie l d) s1

/-- The tokens of an edge's FIFO are taken in as arrivals, with positions from 0 (R14, R129). -/
def State.readmit (s : State) (i : Nat) (ts : List Token) : State :=
  let s1 := s.modEdge i fun e => { e with fifo := [], arrived := ts.length }
  ts.zipIdx.foldl (fun s t => match s.edge? i with | some e => s.takeIn i e t.2 t.1 | none => s) s1

/-- Initial tokens of an edge (R14). -/
def Image.initOf (im : Image) (i : Nat) : List Token :=
  match im.edges[i]? with
  | some e => (im.initToks.drop e.initIdx).take e.init
  | none => []

/-- The elements of a launch examine their inputs, initial tokens first, before the first firing (R14, R118). -/
def State.activate (s : State) (lid : Nat) : State :=
  let im := (s.launch? lid).bind fun l => l.img
  let s1 := s.edges.zipIdx.foldl (fun s e =>
    if e.1.lid = lid then s.readmit e.2 (match im with | some im => im.initOf e.1.eidx | none => []) else s) s
  (s1.ranksOf lid).foldl (fun s r => (List.range (s.elem r).actors.length).foldl (fun s la => s.inputCheck r la) s) s1

/-! ## RIDGE_PLACEMENT (R114) -/

/-- The priority at which Ridge ranks a head: PRIO, and for a pre-empted launch no less than the highest WPRIO of the entries whose holder is one of
its actors (R114, R305). -/
def State.rankPrio (s : State) (l : Launch) : Nat :=
  if l.saved.isSome then
    ((s.waitsOf l.part).filter fun w => w.ha && w.hlid == l.lid).foldl (fun m w => Nat.max m w.wprio) l.prio
  else l.prio

/-- One queue head stands before another: higher priority, longer at its head, lower number of the queue it stands in. -/
def State.headBefore (s : State) (a b : Launch) : Bool :=
  decide (s.rankPrio b < s.rankPrio a) ||
    (s.rankPrio a == s.rankPrio b && (decide (a.headAt < b.headAt) || (a.headAt == b.headAt && decide (a.queueAt ≤ b.queueAt))))

/-- The head that Ridge takes: the best one of those that are QUEUED. -/
def State.bestHead (s : State) (part : Nat) : Option Launch :=
  let hs := (s.part part).queues.filterMap fun q => (q.2.head?.bind s.launch?).bind fun l => if l.st = .queued then some l else none
  hs.find? fun a => hs.all (s.headBefore a)

/-- The loader reads and checks what a launch names. -/
def State.loadLaunch (s : State) (l : Launch) (len : Nat) : State × Except Nat (Image × List Segment) :=
  match s.loadImage l.part l.imgp len with
  | (s1, .error r) => (s1, .error r)
  | (s1, .ok im) =>
    match s1.loadData l.part l.datap im.actors.length with
    | (s2, .error r) => (s2, .error r)
    | (s2, .ok segs) => match layoutReason im segs with
      | some r => (s2, .error r)
      | none => (s2, .ok (im, segs))

/-- A placement that the rules allow, but for the clusters of its chains. -/
def State.placeOk (s : State) (l : Launch) (im : Image) (paths : List (List Nat)) : Bool :=
  let gs := List.range l.ngroup
  let routes := gs.map fun g => l.routes im paths g
  s.regionsOk l && l.shingles.length == l.ngroup * im.shingles.length && gs.all (l.shinglesOk im) &&
    routes.all (fun rs => rs.all (·.isSome) && linksOk rs) &&
    s.bridgesOk (routes.flatMap fun rs => (rs.zip im.edges).flatMap fun x => (routeBridges (x.1.getD [])).map fun b => (b, x.2.depth)) &&
    s.copiesOk l.allDies l.cbase im && s.slotsOk l

/-- The members of each chain stand in one cluster in every group (R232). -/
def Launch.allChainsOk (l : Launch) (im : Image) : Bool := (List.range l.ngroup).all (l.chainsOk im)

/-- The lists of n members of a list. -/
def listsOf {α : Type} (xs : List α) : Nat → List (List α)
  | 0 => [[]]
  | n + 1 => (listsOf xs n).flatMap fun l => xs.map fun x => x :: l

/-- The module with every die ready and nothing installed. -/
def State.emptied (s : State) : State :=
  { s with boot := { s.boot with dieReady := BitVec.allOnes 64 }, edges := [], binds := [], launches := [] }

/-- Some choice of origins, shingle places and paths would place the launch if nothing else were installed: with it Ridge's search could succeed now
or later, and without one placement or stitching has failed for good (R23, R27 code 0x09, R114, R134). A path longer than its region has
elements visits one twice, and is not needed. -/
def State.placeable (s : State) (l : Launch) (im : Image) : Bool :=
  let cells := (List.range 32).flatMap fun x => (List.range 32).map fun y => (x, y)
  let spots := (List.range (4 * l.rw)).flatMap fun x => (List.range (4 * l.rh)).map fun y => (x, y)
  let paths := (List.range (16 * l.rw * l.rh + 1)).flatMap (listsOf (List.range 16384))
  (listsOf cells l.ngroup).any fun origins => (listsOf spots (l.ngroup * im.shingles.length)).any fun shingles =>
    (listsOf paths (l.ngroup * im.edges.length)).any fun ps =>
      s.emptied.placeOk { l with origins, shingles, cbase := (List.range 64).map fun d => (d, 0) } im ps

/-- A `.die` segment meets the trap queue or the deadlock ring where it is placed (R332). -/
def State.ringHit (s : State) (l : Launch) : Bool :=
  (List.range l.ngroup).any fun g => l.segs.any fun sg => sg.space == 1 &&
    match l.actorRank g sg.actor with
    | some r => s.meetsRings l.part (r / 256) sg.off sg.bytes.length
    | none => false

/-- A launch is refused. -/
def State.refuse (s : State) (lid reason : Nat) : State := s.stopLaunch lid .rejected reason

/-- Installs and binds a launch where a placement puts it. An already past start tick moves the start to the next boundary (R123). -/
def State.install (s : State) (l : Launch) (im : Image) (paths : List (List Nat)) : State :=
  let cs := (List.range l.ngroup).flatMap l.clusters
  let armed := if l.timed then some (if s.clock.tick < l.tick then l.tick else s.clock.tick + 1) else none
  let l1 := { l with
    st := if l.timed then .loading else .running, globDone := true, armed, ended := List.replicate l.ngroup 0, idle := 0, moved := false, dieDone := [],
    cbase := l.allDies.filterMap fun d => (alGet l.cbase d).map fun c => (d, c) }
  let s1 := (s.unqueue l.part l.lid).modLaunch l.lid fun _ => l1
  let s2 := (s1.gate fun c => cs.contains c).writeCopies im l1.cbase
  let s3 := (List.range l.ngroup).foldl (fun s g => s.putGroup l1 im paths g) s2
  let s4 := (s3.bindLaunch l1 im).inherit l.part
  if l.timed then s4 else s4.activate l.lid

/-! ## Splices (R127 to R130) -/

/-- Two edges join the same handle positions on the same elements at one depth. -/
def edgeAlike (a b : Image) (x y : EdgeDesc) : Bool :=
  let spot := fun (im : Image) (i h : Nat) => (im.actors[i]?).map fun d => (d.shg, d.px, d.py, im.localIdx i, h)
  spot a x.pact x.ph == spot b y.pact y.ph && spot a x.cact x.chnd == spot b y.cact y.chnd && x.depth == y.depth

/-- The image is splice-compatible with its predecessor (R127). -/
def compatible (l t : Launch) (a b : Image) (segs : List Segment) : Bool :=
  t.ngroup == l.ngroup && t.rwm1 == l.rwm1 && t.rhm1 == l.rhm1 &&
    (a.shingles.map fun x => (x.w, x.h, x.align, x.matrix)) == (b.shingles.map fun x => (x.w, x.h, x.align, x.matrix)) &&
    (a.shingles.map fun x => (x.routes, x.ports)) == (b.shingles.map fun x => (x.routes, x.ports)) &&
    a.edges.length == b.edges.length && (a.edges.all fun x => b.edges.any (edgeAlike a b x)) && (b.edges.all fun y => a.edges.any fun x => edgeAlike a b x y) &&
    (b.edges.all fun e => e.init == 0) &&
    b.actors.all fun d => match a.actors.find? (sameElem d) with
      | some p => decide (segTop b.actors segs d ≤ segTop a.actors l.segs p)
      | none => true

/-- The successor's segments, and empty ones that keep every element's FIFO area where the predecessor put it (R127, R223). -/
def keptSegs (l : Launch) (a b : Image) (segs : List Segment) : List Segment :=
  segs ++ b.actors.zipIdx.filterMap fun x => (a.actors.find? (sameElem x.1)).map fun p =>
    { space := 2, actor := x.2, off := segTop a.actors l.segs p, bytes := [] }

/-- A successor that waits behind a running launch and is not staged yet. -/
def State.unstaged (s : State) (part : Nat) : Option (Launch × Launch) :=
  s.launches.findSome? fun l =>
    if l.part = part ∧ l.st = .running then
      (l.succ.bind s.launch?).bind fun t => if t.st = .queued then some (l, t) else none
    else none

/-- Ridge stages a successor behind its running predecessor: its copy, its GLOBAL segments, and SUCC (R89, R128, R136). Where a page may not be
written, the granules before it stay written (DESIGN CHOICE, log entry 35). -/
def State.stage (s : State) (l t : Launch) (cb : List (Nat × Nat)) (len : Nat) : State :=
  match s.loadLaunch t len, l.img with
  | (s1, .error r), _ => s1.refuse t.lid r
  | (s1, .ok (im, segs)), some a =>
    let t1 := { t with
      st := .loading, img := some im, segs := keptSegs l a im segs, origins := l.origins, shingles := l.shingles, imgIdx := l.imgIdx + 1,
      globDone := true, cbase := l.allDies.filterMap fun d => (alGet cb d).map fun c => (d, c) }
    if !compatible l t a im segs then s1.refuse t.lid 0x22
    else if s1.ringHit t1 || !t1.allChainsOk im then s1.refuse t.lid 0x09
    else if !s1.copiesOk l.allDies cb im then s
    else match s1.putGlobal l.part segs with
      | (s2, false) => s2.refuse t.lid 0x26
      | (s2, true) =>
        let s3 := (s2.modLaunch t.lid fun _ => t1).writeCopies im t1.cbase
        { s3 with binds := modWhere (fun b => b.lid == l.lid) (fun b => { b with succ := true }) s3.binds }
  | (_, .ok _), none => s

/-- The image of a DONE predecessor with which a queued SPLICE is still compared (R128). -/
def State.formerPred (s : State) (t : Launch) : Option (Launch × Image) :=
  if t.pred = 0 then none else (s.launch? t.pred).bind fun l => l.img.map fun a => (l, a)

/-- Writes the GLOBAL segments, once for each launch: a successor that was staged and then queued again has had its written (R89). -/
def State.putGlobalOnce (s : State) (l : Launch) (segs : List Segment) : State × Bool := if l.globDone then (s, true) else s.putGlobal l.part segs

/-- RIDGE_PLACEMENT (R114): the best head is checked, placed, installed and bound. With no origin in the choice, Ridge stages a successor. A choice
that the rules forbid places nothing; a head that no choice could ever place is refused (R27 code 0x09), and so is one whose chains are placed
in more than one cluster (R232). -/
def execRidgePlacement (part : Nat) (ch : Place) (s : State) : Result :=
  if ch.origins.isEmpty then
    match s.unstaged part with
    | some (l, t) => .next (s.stage l t ch.cbase ch.len)
    | none => .next s
  else match s.bestHead part with
    | none => .next s
    | some l =>
      if l.saved.isSome then .next s
      else match s.loadLaunch l ch.len with
        | (s1, .error r) => .next (s1.refuse l.lid r)
        | (s1, .ok (im, segs)) =>
          let l1 := { l with img := some im, segs, origins := ch.origins, shingles := ch.shingles, cbase := ch.cbase }
          if (match s.formerPred l with | some (p, a) => !compatible p l a im segs | none => false) then .next (s1.refuse l.lid 0x22)
          else if !s.fitsPart part l.rw l.rh then .next (s1.refuse l.lid 0x09)
          else if !s1.placeOk l1 im ch.paths then (if s1.placeable l1 im then .next s else .next (s1.refuse l.lid 0x09))
          else if s1.ringHit l1 || !l1.allChainsOk im then .next (s1.refuse l.lid 0x09)
          else match s1.putGlobalOnce l segs with
            | (s2, false) => .next (s2.refuse l.lid 0x26)
            | (s2, true) => .next (s2.install l1 im ch.paths)

/-! ## Dependence and timed start (R115, R123) -/

/-- Ridge may not read the granule that a launch depends on: Permission, which ends the launch (R115, R220). -/
def State.depFault (s : State) (l : Launch) : State :=
  s.fatalTrap { s.mkTrap l.part l.lid 0 0 .permission 0 (BitVec.ofNat 64 (ptrOff l.depp)) 0 with ridge := true }

/-- LAUNCH_DEPENDENCE_MET (R115). A page that may not be read faults the launch; a waiter that a deadlock froze stays (R317). -/
def execLaunchDependenceMet (lid : Nat) (s : State) : Result :=
  match s.launch? lid with
  | none => .next s
  | some l =>
    let frozen := (s.waitsOf l.part).any fun w => w.wl && w.wlid == lid && w.frozen
    if l.st ≠ .waiting ∨ frozen then .next s
    else match s.globalXlate l.part (ptrOff l.depp) with
      | (s1, some (pa, e)) =>
        if !pteR e then .next (s1.depFault l)
        else if versionGe (s1.ver (pa / 64)) l.depv then
          .next ((s1.dropWaits l.part fun w => w.wl && w.wlid == lid).modLaunch lid fun l => { l with st := .queued })
        else .next s1
      | (s1, none) => .next (s1.depFault l)

/-- ARMED_CLEAR (R123): at the boundary that begins the start tick, or the first one after install, the launch starts. -/
def execArmedClear (lid : Nat) (s : State) : Result :=
  match s.launch? lid with
  | none => .next s
  | some l =>
    match l.armed with
    | none => .next s
    | some t =>
      if l.st ≠ .loading ∨ s.clock.tick < t then .next s
      else
        let s1 := s.modLaunch lid fun l => { l with st := .running, armed := none, late := decide (l.tick < t) }
        .next (State.activate { s1 with binds := modWhere (fun b => b.lid == lid) (fun b => { b with armed := false }) s1.binds } lid)

/-! ## ELEMENT_SUCCESSOR_INSTALL (R129, R130) -/

/-- Every actor of an element has finished and closed its outputs, and they belong to one launch. -/
def Elem.finished (e : Elem) : Option (Nat × Nat) :=
  match e.actors with
  | [] => none
  | a :: r => if (a :: r).all fun x => (x.done || x.retired) && x.desc.outs.all x.closed && x.lid == a.lid then some (a.lid, a.g) else none

/-- The successor's actors of an element, in image order. -/
def Launch.actorsOn (t : Launch) (im : Image) (g rank : Nat) : List Actor :=
  im.actors.zipIdx.filterMap fun x => if t.actorRank g x.2 = some rank then some (t.newActor im g x.2 x.1) else none

/-- The index of the successor's edge that stands where an edge of the element stood. -/
def Launch.edgeAt (t : Launch) (im : Image) (g : Nat) (e : Edge) : Nat :=
  im.edges.findIdx fun x => t.actorRank g x.cact == some e.crank && im.localIdx x.cact == e.cla && x.chnd == e.ch

/-- The element's edges pass to the successor: inputs keep their tokens and count positions anew, outputs carry no end of stream yet. What an output
owes was asked for behind RECONF, and the successor owes it (R129). -/
def State.passEdges (s : State) (t : Launch) (im : Image) (g rank : Nat) : State :=
  { s with edges := s.edges.map fun e => if e.lid = 0 then e else
      let e1 := if e.prank = rank then { e with det := t.det } else e
      if e.crank = rank then
        { e1 with lid := t.lid, eidx := t.edgeAt im g e, burst := none, lastCrd := none, lastKind := none, marker := none }
      else e1 }

/-- The element installs the successor's actors (R129): its local memory keeps its bytes, and the FE granules that no LOCAL segment of the successor
writes are empty (R89, R224). In a pre-emption that is open, a source among them emits its MARKER (R342). -/
def State.installOn (s : State) (t : Launch) (im : Image) (g rank : Nat) : State :=
  let keys := (List.range 8).map fun la => rank * 8 + la
  let s1 := (s.modElem rank fun e => { e with
      actors := t.actorsOn im g rank, firing := none, rot := [], agedRot := 0, dec := e.dec.map fun b => { b with pins := [] } }).modCluster
    (rank / 16) fun c => { c with code := c.code.map fun x => { x with pins := x.pins.filter fun p => !keys.contains p.1 } }
  let s2 := s1.passEdges t im g rank
  let s3 := t.segs.foldl (fun s sg =>
    if t.actorRank g sg.actor ≠ some rank then s
    else if sg.space = 2 then s.putLocal rank sg else s) { s2 with full := s2.full.filter fun x => x / 2048 != rank }
  let s4 := s3.putDie t (rank / 256)
  let s5 := s4.edges.zipIdx.foldl (fun s e => if e.1.crank = rank ∧ e.1.lid = t.lid then s.readmit e.2 (e.1.fifo.map (·.tok)) else s) s4
  (List.range (s5.elem rank).actors.length).foldl (fun s la => (s.inputCheck rank la).emitMarkers rank la) s5

/-- The successor becomes RUNNING: it takes its predecessor's bind records (R130). -/
def State.takeOver (s : State) (l t : Launch) (im : Image) : State :=
  let s1 := (List.range t.ngroup).foldl (fun s g => s.putChains t im g) s
  let upd := fun (b : BindRec) => { b with lid := t.lid, prio := t.prio, det := t.det, imgp := t.imgp, succ := false }
  (State.modLaunch { s1 with binds := modWhere (fun b => b.lid == l.lid) upd s1.binds } t.lid fun x =>
    { x with st := .running, idle := 0, moved := false, ended := List.replicate t.ngroup 0 }).inherit t.part

/-- ELEMENT_SUCCESSOR_INSTALL (R129, R130). An element that a marker has stopped is saved with the configuration it holds, and installs nothing
meanwhile (R129, R343). -/
def execElementSuccessorInstall (rank : Nat) (s : State) : Result :=
  match (s.elem rank).finished with
  | none => .next s
  | some (lid, g) =>
    match s.launch? lid, s.staged lid with
    | some l, some t =>
      match t.img with
      | some im =>
        let stopped := (s.part l.part).preempt.isSome && (s.elem rank).actors.any (·.marked)
        if l.st ≠ .running ∨ (s.elem rank).firing.isSome ∨ stopped then .next s
        else
          let s1 := if t.st = .loading then s.takeOver l t im else s
          .next (s1.installOn t im g rank)
      | none => .next s
    | _, _ => .next s

/-! ## LAUNCH_END (R131, R133, R358 to R361) -/

/-- The matrix commands of a launch that hold its end back; a stopped launch's MMA that no engine feeds does not (R133). -/
def State.regionHolds (s : State) (lid : Nat) : Bool :=
  s.regions.any fun r => (r.queue.any fun c => c.lid == lid && !c.detach) &&
    (s.running lid || match r.queue.head? with
      | some c => decide (r.feedNeed c ≤ r.feed.length)
      | none => false)

/-- A command feeds a region of a launch that has stopped, whose queue asks for no more bytes: it never goes on (R133, R283; DEDUCED, log entry 84). -/
def State.feedLost (s : State) (c : EngCmd) : Bool :=
  !s.running c.lid && c.kind == .unf && !c.ran &&
    match s.regionDst (engDst c.recd) with | some (_, r) => !s.running r.lid && r.feedWants == 0 | none => false

/-- An acknowledgement count of a launch is not zero (R358). A stopped launch's collectives and digests are given up, since their other
participants may never come. -/
def State.counts (s : State) (lid : Nat) : Bool :=
  s.reqs.any (fun q => q.lid == lid && q.kind.counted && !q.acked) ||
    s.clusters.any (fun c => c.2.held.any fun h => h.lid == lid) ||
    s.engines.any (fun e => e.2.queue.any fun c => c.lid == lid && !engDetach c.recd && !s.feedLost c) || s.regionHolds lid ||
    (s.running lid && (s.colls.any (fun c => c.lid == lid) || s.digests.any fun d => d.lid == lid))

/-- A launch is over: it runs, and every actor of it has retired or has given its element to a successor; or it was stopped. -/
def State.over_ (s : State) (l : Launch) : Bool :=
  if l.st = .running then
    let spliced := match s.staged l.lid with | some t => t.st == .running | none => false
    s.elems.all fun e => e.2.actors.all fun a => a.lid != l.lid || (a.retired && !spliced)
  else l.st.final && !l.origins.isEmpty

/-- Final statistics records of a launch's regions; counts without a pointer are discarded (R361). -/
def State.finalStats (s : State) (lid : Nat) : State :=
  s.regions.zipIdx.foldl (fun s x =>
    let r := x.1
    if r.lid ≠ lid ∨ r.stats = Stats.zero then s
    else if r.statp = 0 then s.modRegion x.2 fun r => { r with stats := Stats.zero }
    else
      let c : RegCmd := { op := 0, ty := 0, recd := 0, b := 0, ptr := 0, serial := r.serial, rank := r.origin, la := 0, fid := 0, slot := 0, dst := [],
                          detach := false, lid, g := r.g }
      s.statWrite x.2 c true) s

/-- What a launch holds is freed (R359 step 5, R146, R304, R312), and clusters that no bind record covers any more are gated (R120). A VRCL that
nobody waits for goes on to its home, and a flit still on a bridge crosses it and is dropped (R329, R358). -/
def State.release (s : State) (lid : Nat) (heir : Nat) : State :=
  let part := lidPart lid
  let binds := s.binds.filter fun b => b.lid != lid
  let bare := fun c => (s.binds.any fun b => b.covers c) && !binds.any fun b => b.covers c
  let s0 := (s.locks.filter fun l => l.lid == lid).foldl (fun s l => s.freeToken l) s
  let onWay := fun (q : Req) => (match q.kind with | .vrcl _ => true | _ => false) && q.kind.letGo q.dst && q.stage != .done
  let s1 : State := { s0 with
    binds, chains := s.chains.filter fun c => c.lid != lid,
    reqs := s.reqs.filter fun q => q.lid != lid || onWay q, colls := s.colls.filter fun c => c.lid != lid || c.lid == 0,
    digests := s.digests.filter fun d => d.lid != lid || d.lid == 0,
    edges := (s.edges.filter fun e => e.lid != lid && e.lid != 0 || !e.link.isEmpty).map fun e =>
      if e.lid = lid then { e with lid := 0, fifo := [], pla := 8, cla := 8, marker := none, owed := 0, antis := 0 } else e,
    elems := s.elems.map fun e => (e.1, { e.2 with actors := if heir = 0 then e.2.actors.filter fun a => a.lid != lid else e.2.actors }),
    regions := s.regions.map fun r => if r.lid = lid then { r with lid := heir, queue := if heir = 0 then r.queue.filter (·.detach) else r.queue } else r }
  ((s1.dropWaits part fun w => (w.wlid == lid || (w.kind == 7 && w.hlid == lid)) && !w.wl).gate bare).modLaunch lid fun l => { l with cbase := [], origins := [] }

/-- A successor that never began: its predecessor is DONE, so it becomes an ordinary launch of queue 0 (R128). -/
def State.requeueSucc (s : State) (l : Launch) : State :=
  match l.succ.bind s.launch? with
  | none => s
  | some t =>
    if t.st.final ∨ t.st = .running then s
    else if 64 ≤ ((s.part t.part).queueOf 0).length then s.refuse t.lid 0x21
    else
      (s.modLaunch t.lid fun t => { t with
        st := .queued, img := none, segs := [], origins := [], shingles := [], cbase := [], headAt := s.clock.cycle }).enqueue t.part 0 t.lid

/-- LAUNCH_END (R131, R359), unless a full trap queue freezes the launch (R332): final records, STATE, the completion write, and then everything is freed. Regions that a successor has taken over carry
their counts on (R289), and so does a pre-emption of the wavefront. -/
def execLaunchEnd (lid : Nat) (s : State) : Result :=
  match s.launch? lid with
  | none => .next s
  | some l =>
    if !s.over_ l || s.counts lid || s.ringFrozen lid then .next s
    else
      let heir := match s.staged lid with | some t => if t.st = .running then t.lid else 0 | none => 0
      let s0 := s.modPart l.part fun p => { p with
        preempt := p.preempt.map fun x => if x.lid = lid ∧ heir ≠ 0 then { x with lid := heir } else x }
      let s1 := if heir = 0 then s0.finalStats lid else s0
      let s2 := if s1.running lid then s1.modLaunch lid fun l => { l with st := .done, spliced := heir != 0 } else s1
      let s3 := (s2.completionWrite lid).release lid heir
      .next ((if l.st = .running then s3.requeueSucc l else s3).settleTable l.part)

end Sys2Proof.Machine
end

