-- ==== Sys2Proof/Machine/Clock.lean ====
section
/-! DEFINITION. The module's clock: tick boundaries and what takes effect at them, the tick period, PTP time, the release of DET streams, and
the watchdog (R121 to R123, R155, R324, R340, R350, R353, R367). -/

namespace Sys2Proof.Machine

def State.modClock (s : State) (f : Clock → Clock) : State := { s with clock := f s.clock }

/-! ## TICK_BOUNDARY -/

/-- Flits that wait for a boundary on a stream of a DET launch (R324). -/
def Edge.waitsTick (e : Edge) : Bool := e.det && e.link.any fun f => f.hops != 0

/-- The number of the next boundary: the one after the tick in progress, or the one that a new epoch has named (R367). -/
def Clock.nextTick (c : Clock) : Nat := if c.renum then c.tick else (c.tick + 1) % 2 ^ 64

/-- The next tick begins (R121): its number, its cycle, and the boundary after it. -/
def Clock.advance (c : Clock) : Clock :=
  { c with cycle := c.nextAt, tick := c.nextTick, nextAt := c.nextAt + c.period, perDue := c.newPer.isSome, renum := false }

/-- Counts boundaries since a running launch last committed a firing or finished a command (R340). -/
def Launch.tickIdle (l : Launch) : Launch :=
  if l.st = .running then { l with idle := (if l.moved then 0 else l.idle) + 1, moved := false } else l

/-- A launch has gone WDT boundaries without progress (R340). -/
def State.expired (s : State) (l : Launch) : Bool :=
  l.st == .running && !l.moved && (s.part l.part).wdt != 0 && decide ((s.part l.part).wdt ≤ l.idle)

/-- Inserts an edge index by ascending stage number of its producer, and index among equal stages (R324). -/
def State.insStage (s : State) (i : Nat) (l : List Nat) : List Nat :=
  let stage := fun i => match s.edge? i with
    | some e => match s.actor? e.prank e.pla with | some a => a.stage | none => 0
    | none => 0
  l.takeWhile (fun j => decide (stage j ≤ stage i)) ++ i :: l.dropWhile fun j => decide (stage j ≤ stage i)

/-- The streams that release at this boundary, in order. -/
def State.releases (s : State) : List Nat :=
  ((s.edges.zipIdx.filter fun e => e.1.quantum).map (·.2)).foldl (fun l i => s.insStage i l) []

/-- A packet of a DET stream waits for the boundary, and its quantum has arrived whole: with its last packet (R324). -/
def State.inboxDue (s : State) (x : Arrived) : Bool := s.inbox.any fun y => y.quantum == x.quantum && y.last

/-- What takes effect at a boundary that has begun: a new period, Thatch images, timed starts, DET streams, what has arrived of those from outside,
snapshots, the end of a cut that took too long, the watchdog, and votes. -/
def State.boundaryWork (s : State) : List Instr :=
  (if s.clock.perDue then [.tickPeriodChange] else []) ++
  List.replicate s.thatch.pending.length .thatchTakeEffect ++
  (s.launches.filter fun l => l.st == .loading && l.armed.any fun t => decide (t ≤ s.clock.tick)).map (fun l => .armedClear l.lid) ++
  s.releases.map .detQuantumRelease ++
  (s.inbox.filter s.inboxDue).map (fun x => .uePacketReceive { pkt := x.pkt, quantum := none }) ++
  (s.parts.flatMap fun p => (p.2.trigs.filter s.trigDue).map fun _ => .snapshotLatch p.1 false) ++
  (s.parts.filterMap fun p => (p.2.preempt.filter fun x => x.late s.clock.tick).map fun x => .preemptionAbandon x.lid) ++
  (s.launches.filter s.expired).map (fun l => .watchdog l.lid) ++
  (s.digests.filter fun d => d.voteAt.isSome).map fun d => .replicaVote d.part d.rset d.dseq

/-- A port releases the oldest messages of a stream, at most so many bytes of them; a message leaves with its last byte (R324). -/
def releaseStream : Nat → List Parked → List Parked × List OutMsg
  | _, [] => ([], [])
  | n, p :: r =>
    if p.left ≤ n then let x := releaseStream (n - p.left) r; (x.1, p.msg :: x.2) else ({ p with left := p.left - n } :: r, [])

/-- The quantum of a stream over Ultra Ethernet in bytes (R324). -/
def portQuantum : Nat := 4096

/-- The key by which ports take their streams: the producer's stage, then the stream (R324). -/
def Parked.key (p : Parked) : List Nat := [p.stage, p.stream.1, p.stream.2.1, p.stream.2.2.1, p.stream.2.2.2]

/-- Inserts a key in ascending order, once. -/
def insKey (k : List Nat) : List (List Nat) → List (List Nat)
  | [] => [k]
  | x :: r => if k = x then x :: r else if k < x then k :: x :: r else x :: insKey k r

/-- Each stream that waits at a port releases its quantum, in ascending stage and stream (R324; log entry 82). -/
def State.releaseParked (s : State) : State :=
  ((s.parked.map Parked.key).foldl (fun l k => insKey k l) []).foldl (fun s k =>
    let x := releaseStream portQuantum (s.parked.filter fun p => p.key == k)
    { s with parked := (s.parked.filter fun p => p.key != k) ++ x.1, outbox := s.outbox ++ x.2 }) s

/-- TICK_BOUNDARY (R121, R122): the tick number moves on in every die at once. -/
def execTickBoundary (s : State) : Result :=
  let s1 := (s.closeCycle s.clock.nextAt).modClock Clock.advance
  let s2 : State := { s1 with
    launches := s1.launches.map Launch.tickIdle,
    edges := s1.edges.map fun e => if e.waitsTick then { e with quantum := true } else e,
    parts := s1.parts.map fun p => (p.1, { p.2 with trigs := p.2.trigs.map (SnapTrig.atBound s1.clock.cycle) }),
    thatch := { s1.thatch with due := !s1.thatch.pending.isEmpty } }
  let s3 := s2.releaseParked.openVotes
  .next (State.soon { s3 with inbox := s3.inbox.filter fun x => !s3.inboxDue x } s3.boundaryWork)

/-! ## The tick period and PTP -/

/-- PTP time in cycles of 0.5 ns (R367). -/
def Clock.ptp (c : Clock) : Nat := ((c.cycle : Int) + c.ptpOff).toNat

/-- TICK_PERIOD_CHANGE (R121, R367): the new period counts from the boundary just passed. -/
def execTickPeriodChange (s : State) : Result :=
  match s.clock.newPer with
  | none => .next s
  | some p =>
    if !s.clock.perDue then .next s
    else .next (s.modClock fun c =>
      { c with period := p, newPer := none, perDue := false, nextAt := c.cycle + p, n0 := c.tick, t0 := c.ptp })

/-- The offset that lock allows, in cycles of 0.5 ns: 10 ns (R367). -/
def lockLimit : Nat := 20

/-- The module's PTP time is set by the grandmaster's. It is locked while the offset stays within the limit; once an epoch is set the next boundary
then falls at its PTP time, and while lock is lost ticks go on from the local oscillator (R367). -/
def Clock.synced (c : Clock) (time : Nat) : Clock :=
  let due : Int := (c.t0 : Int) + ((c.nextTick : Int) - c.n0) * c.period - time
  let locked := decide (((time : Int) - c.ptp).natAbs ≤ lockLimit)
  { c with
    locked, ptpOff := (time : Int) - c.cycle, nextAt := if locked && c.epoch.isSome then c.cycle + Nat.max 1 due.toNat else c.nextAt }

/-- PTP_MESSAGE (R367): the grandmaster's time arrives at a port; only the port that the host chose to face it counts. -/
def execPtpMessage (port time : Nat) (s : State) : Result := .next (if port = s.clock.gmPort then s.modClock fun c => c.synced time else s)

/-! ## DET_QUANTUM_RELEASE (R324) -/

/-- Every flit that waits at a boundary moves on by one bridge, at most a quantum of the oldest on each bridge; one that has crossed its last
bridge becomes visible. `used` counts the flits that each bridge has released. -/
def releaseFlits (quantum : Nat) : List Flight → List (Nat × Nat) → List Flight
  | [], _ => []
  | f :: r, used =>
    let n := (alGet used f.hops).getD 0
    if f.hops = 0 ∨ (f.hops ≠ 1 ∧ quantum ≤ n) then f :: releaseFlits quantum r used
    else { f with hops := f.hops - 1, retries := 0 } :: releaseFlits quantum r (alSet used f.hops (n + 1))

/-- R324: once for each boundary. -/
def execDetQuantumRelease (i : Nat) (s : State) : Result :=
  match s.edge? i with
  | none => .next s
  | some e =>
    if !e.quantum || !s.running e.lid then .next s
    else .next (s.modEdge i fun e => { e with link := releaseFlits (allowance e.depth) e.link [], quantum := false })

/-! ## WATCHDOG (R340) -/

/-- R340: a fatal fault of the launch. -/
def execWatchdog (lid : Nat) (s : State) : Result :=
  match s.launch? lid with
  | none => .next s
  | some l =>
    if !s.expired l then .next s
    else .next (s.fatalAt lid 0 0 .watchdog 0 (BitVec.ofNat 64 l.idle) 0)

end Sys2Proof.Machine
end

