-- ==== Sys2Proof/Machine/Fibres.lean ====
section
/-! DEFINITION. The fibre instructions FISECT, FUNION, FSCAN, FREP, FRED, FSTOP, FCHK and FCRD (R248 to R263, R323). -/

namespace Sys2Proof.Machine

/-! ## Joins (R256) -/

/-- The match that the firing's join latched; a flushing firing has none. -/
def Actor.match_ (a : Actor) : JoinMatch :=
  a.latch.getD { stop := false, k := 0, coord := 0, pa := false, pb := false, va := 0, vb := 0 }

/-- The match word (R256). -/
def JoinMatch.word (m : JoinMatch) : Word :=
  BitVec.ofNat 64 (m.coord.toNat + m.pa.toNat * 2 ^ 32 + m.pb.toNat * 2 ^ 33 + m.stop.toNat * 2 ^ 34 + m.k % 4 * 2 ^ 35)

/-- The payload of a side, or 0. -/
def JoinMatch.side (m : JoinMatch) (b : Bool) : Vec := if b then (if m.pb then m.vb else 0) else if m.pa then m.va else 0

/-- R256. -/
def execFisect (_p : Pred) (t : BitVec 4) (a : Target) (v sd : Bool) (s : State) : Result :=
  match s.here with
  | none => .next s
  | some (_, x) => .next (s.flitOut t a v (x.match_.side sd))

/-- R256. -/
def execFunion (_p : Pred) (t : BitVec 4) (a : Target) (v w : Bool) (s : State) : Result :=
  match s.here with
  | none => .next s
  | some (_, x) => .next (if w then s.out1 a x.match_.word else s.flitOut t a v (x.match_.side (!x.match_.pa)))

/-! ## What a fibre instruction checks (R251, R252, R258) -/

/-- Why a fibre instruction stops: a precise fault, a fatal fault with a pointer, a token of an input, or the stream of an output. -/
inductive FibStop where
  | precise (c : TrapCode) (aux : Word)
  | fatal (c : TrapCode) (p : Word)
  | token (h pos : Nat)
  | stream (h : Nat)
  deriving DecidableEq, Repr

/-- Raises it for the word that issues. -/
def State.fibStop (s : State) (la : Nat) (x : FibStop) : State :=
  let rank := s.focus.rank
  match x with
  | .precise c aux => s.faultHere c aux
  | .fatal c p => s.fatalHere c p
  | .token h pos => s.streamFault .malformedStream rank la h pos
  | .stream h =>
    match s.outEdge rank la h with
    | some (_, e) => s.streamFault .malformedStream e.crank e.cla e.ch e.nextPos
    | none => s.fatalHere .malformedStream 0

/-- The first fibre instruction that names a handle records its depth; another depth later is IllegalEncoding (R251). -/
def State.recordDepth (s : State) (la h d : Nat) : Option State :=
  match s.actor? s.focus.rank la with
  | none => some s
  | some a =>
    match a.depths.getD h none with
    | some x => if x = d then some s else none
    | none => some (s.modActor s.focus.rank la fun a => { a with depths := a.depths.set h (some d) })

/-- The token at an offset of an input, checked under R252 for a stream of depth d; the level of a stop, or none for DATA. -/
def State.fibToken (s : State) (la h off d : Nat) : Except FibStop (Token × Option Nat) :=
  match (s.unitAt s.focus.rank la h off false).head? with
  | none => .error (.token h 0)
  | some q =>
    match q.tok.kind with
    | .data => .ok (q.tok, none)
    | .stop k => if k.val < d then .ok (q.tok, some k.val) else .error (.token h q.pos)
    | _ => .error (.token h q.pos)

/-- A stop token's kind. -/
def stopKind (k : Nat) : Kind := .stop ⟨k % 4, Nat.mod_lt _ (by decide)⟩

/-- A token that an instruction writes. -/
structure FibOut where
  kind : Kind
  tag  : BitVec 32
  pay  : Vec
  deriving DecidableEq, Repr

def FibOut.stop (k : Nat) : FibOut := { kind := stopKind k, tag := 0, pay := 0 }

/-- Writes tokens from offset 0 of an output and adds to the pending advances (R258). -/
def State.fibWrite (s : State) (oh : Nat) (outs : List FibOut) (ih t : Nat) : State :=
  let s1 := outs.zipIdx.foldl (fun s x => s.putOut s.focus.rank s.focus.id oh x.2 0 x.1.kind (some x.1.tag) x.1.pay) s
  (s1.addPend oh outs.length).addPend ih t

/-- At most one of FSCAN, FREP and FRED issues in a firing (R258). -/
def State.oneFib (s : State) (k : State → Firing → Actor → State) : Result :=
  match s.here with
  | none => .next s
  | some (f, a) =>
    .next (if f.fibUsed then s.faultHere .illegalEncoding 0
      else k (s.modFiring s.focus.rank fun f => { f with fibUsed := true }) f a)

/-! ## FSCAN (R257, R259, R260) -/

/-- A level descriptor (R257). -/
structure Level where
  segp  : Word
  crdp  : Word
  valp  : Word
  nfib  : Nat
  dim   : Nat
  rbase : Nat
  dense : Bool
  vsz   : Nat
  deriving DecidableEq, Repr

def levelOf (v : Vec) : Level :=
  { segp := BitVec.ofNat 64 (bf v 511 448), crdp := BitVec.ofNat 64 (bf v 447 384), valp := BitVec.ofNat 64 (bf v 383 320),
    nfib := bf v 319 288, dim := bf v 287 256, rbase := bf v 255 224, dense := bf v 223 222 == 1, vsz := bf v 221 220 }

/-- A descriptor that breaks R257. -/
def levelBad (v : Vec) : Bool :=
  let l := levelOf v
  bf v 219 0 != 0 || decide (1 < bf v 223 222) || l.vsz == 3 || decide (2 ^ 30 ≤ l.nfib) || (l.valp == 0 && l.vsz != 0) ||
    (if l.dense then l.segp != 0 || l.crdp != 0 || l.dim == 0 else l.dim != 0)

/-- A pointer lies in the element's own local memory, or in die memory of its partition (R259). -/
def State.fibSpace (s : State) (p : Word) : Bool :=
  if ptrSpace p = 2 then ptrOwner p == s.focus.rank && decide (ptrOff p < 32768)
  else ptrSpace p == 1 && ptrOwner p % 256 == 0 && s.dieEnabled (ptrOwner p / 256) && s.partOfDie (ptrOwner p / 256) == some s.herePart &&
    decide (ptrOff p < 0xE00000)

/-- Space, class and alignment of a descriptor or array pointer, whether or not a read uses it (R259, R323). -/
def State.fibPtr (s : State) (p : Word) (align : Nat) : Option FibStop :=
  if ptrSpace p = 1 ∧ s.hereDet then some (.precise .privilege 0)
  else if !s.fibSpace p then some (.fatal .spaceViolation p)
  else if ptrOff p % align ≠ 0 then some (.fatal .alignment p)
  else none

/-- The value that a read has brought. -/
def FibAsk.in_ (x : FibAsk) (got : List (FibAsk × Nat)) : Option Nat := (got.find? fun e => e.1 == x).map (·.2)

/-- The reads among some that have brought no value yet. -/
def FibAsk.open_ (l : List FibAsk) (got : List (FibAsk × Nat)) : List FibAsk := l.filter fun x => (x.in_ got).isNone

/-- Bounds of a fibre (R257), or the segment entries that are still to be read. -/
def Level.range (l : Level) (got : List (FibAsk × Nat)) (f at_ : Nat) : Except (List FibAsk) (Nat × Nat) :=
  if l.dense then .ok (f * l.dim, f * l.dim + l.dim)
  else
    let x : FibAsk := { ptr := ptrAdd l.segp (4 * f : Nat), n := 4, at_ }
    let y : FibAsk := { ptr := ptrAdd l.segp (4 * f + 4 : Nat), n := 4, at_ }
    match x.in_ got, y.in_ got with
    | some a, some b => .ok (a, Nat.max a b)
    | _, _ => .error (FibAsk.open_ [x, y] got)

/-- The element token of a position (R257), and the reads that are still to be made for it. -/
def Level.elem (l : Level) (got : List (FibAsk × Nat)) (p start at_ : Nat) : FibOut × List FibAsk :=
  let size := 2 * 2 ^ l.vsz
  let c : FibAsk := { ptr := ptrAdd l.crdp (4 * p : Nat), n := 4, at_ }
  let v : FibAsk := { ptr := ptrAdd l.valp (size * p : Nat), n := size, at_ }
  let crd := if l.dense then wrapNat 32 ((p : Int) - start) else (c.in_ got).getD 0
  let val := if l.valp = 0 then 0 else (v.in_ got).getD 0
  ({ kind := .data, tag := BitVec.ofNat 32 crd, pay := BitVec.ofNat 512 (val + (l.rbase + p) % 2 ^ 64 * 2 ^ 64) },
    FibAsk.open_ ((if l.dense then [] else [c]) ++ if l.valp = 0 then [] else [v]) got)

/-- A scan as it runs (R259): the cursor's fields, the tokens written, the input tokens read, and the reads of memory that it still needs. `P` keeps
its 32 bits in the cursor that is delivered (DEDUCED, log entry 26). -/
structure Scan where
  act   : Bool
  pend  : Bool
  f     : Nat
  p     : Nat
  outs  : List FibOut
  t     : Nat
  needs : List FibAsk
  deriving DecidableEq, Repr

def scanOf (c : Word) : Scan :=
  { act := c.getLsbD 63, pend := c.getLsbD 62, f := bf c 61 32, p := bf c 31 0, outs := [], t := 0, needs := [] }

/-- The cursor that a scan leaves (R259). -/
def Scan.cursor (c : Scan) : Word :=
  BitVec.ofNat 64 (c.act.toNat * 2 ^ 63 + c.pend.toNat * 2 ^ 62 + c.f % 2 ^ 30 * 2 ^ 32 + c.p % 2 ^ 32)

/-- A scan needs some reads more. -/
def Scan.need (c : Scan) (l : List FibAsk) : Scan := { c with needs := c.needs ++ l }

/-- Elements of the open fibre while the output has room. -/
def Level.elems (l : Level) (got : List (FibAsk × Nat)) (r : Nat × Nat) (bo : Nat) : Nat → Scan → Scan
  | 0, c => c
  | n + 1, c =>
    if c.p < r.2 ∧ c.outs.length < bo then
      let x := l.elem got c.p r.1 c.t
      Level.elems l got r bo n ({ c with outs := c.outs ++ [x.1], p := c.p + 1 }.need x.2)
    else c

/-- FSCAN.ROOT (R259); d is the depth of the output. -/
def Level.scanRoot (l : Level) (got : List (FibAsk × Nat)) (oh d bo : Nat) (c0 : Scan) : Except FibStop Scan :=
  if !c0.act && !c0.pend && decide (l.nfib ≤ c0.f) then .error (.stream oh)
  else if !c0.act && c0.pend then .ok c0
  else match l.range got c0.f 0 with
    | .error needs => .ok (c0.need needs)
    | .ok r =>
      let c1 := l.elems got r bo bo (if c0.act then c0 else { c0 with act := true, p := r.1 })
      .ok (if c1.p = r.2 ∧ c1.outs.length < bo then { c1 with outs := c1.outs ++ [FibOut.stop (d - 1)], act := false, pend := true } else c1)

/-- The loop of a non-root FSCAN (R259). It stops where the bounds of a fibre are still to be read. -/
def State.scanLoop (s : State) (got : List (FibAsk × Nat)) (la : Nat) (l : Level) (ih d bi bo : Nat) : Nat → Scan → Except FibStop Scan
  | 0, c => .ok c
  | n + 1, c0 =>
    match (if c0.act then l.range got c0.f c0.t else .ok (0, 0)) with
    | .error needs => .ok (c0.need needs)
    | .ok r =>
      let c1 := if c0.act then l.elems got r bo bo c0 else c0
      if c1.act && decide (c1.p < r.2) then .ok c1
      else
        let c2 := if c1.act then { c1 with act := false, pend := true } else c1
        if bi ≤ c2.t then .ok c2
        else match s.fibToken la ih c2.t (d - 1) with
          | .error e => .error e
          | .ok (tok, none) =>
            if c2.pend && decide (bo ≤ c2.outs.length) then .ok c2
            else
              let c3 := if c2.pend then { c2 with outs := c2.outs ++ [FibOut.stop 0], pend := false } else c2
              let f := bf tok.pay 127 64
              if l.nfib ≤ f then .error (.token ih (((s.unitAt s.focus.rank la ih c2.t false).head?.map (·.pos)).getD 0))
              else match l.range got f (c3.t + 1) with
                | .error needs => .ok (c3.need needs)
                | .ok q => State.scanLoop s got la l ih d bi bo n { c3 with act := true, f, p := q.1, t := c3.t + 1 }
          | .ok (_, some k) =>
            if bo ≤ c2.outs.length then .ok c2
            else State.scanLoop s got la l ih d bi bo n { c2 with outs := c2.outs ++ [FibOut.stop (k + 1)], pend := false, t := c2.t + 1 }

/-- The descriptor that port A names with its bytes (R257, R259). -/
def State.fibLevel (s : State) (p : Word) (v : Nat) : Except FibStop Level :=
  let r : Vec := BitVec.ofNat 512 v
  if levelBad r then .error (.precise .illegalEncoding p)
  else
    let l := levelOf r
    let arrays := (if l.dense then [] else [(l.segp, 4), (l.crdp, 4)]) ++ (if l.valp = 0 then [] else [(l.valp, 2 * 2 ^ l.vsz)])
    match arrays.findSome? fun x => s.fibPtr x.1 x.2 with | some x => .error x | none => .ok l

/-- An FSCAN with the values that its reads have brought so far: it is over once it needs no more (R257 to R260). -/
def State.scanTry (s : State) (la : Nat) (j : ScanJob) (got : List (FibAsk × Nat)) : Except FibStop Scan :=
  match s.fibPtr j.ptr 64 with
  | some e => .error e
  | none =>
    let x : FibAsk := { ptr := j.ptr, n := 64, at_ := 0 }
    match x.in_ got with
    | none => .ok ((scanOf j.cursor).need [x])
    | some v =>
      match s.fibLevel j.ptr v with
      | .error e => .error e
      | .ok l => if j.root then l.scanRoot got j.oh j.d j.bo (scanOf j.cursor) else s.scanLoop got la l j.ih j.d j.bi j.bo (j.bi + j.bo + 2) (scanOf j.cursor)

/-- A read of the element's own local memory (R223, R259). -/
def State.fibLocal (s : State) (x : FibAsk) : Except FibStop (FibAsk × Nat) :=
  if 32768 < ptrOff x.ptr + x.n ∨ s.meetsFifo s.focus.rank (ptrOff x.ptr) x.n then .error (.fatal .spaceViolation x.ptr)
  else .ok (x, s.readNat (localKey s.focus.rank (ptrOff x.ptr)) x.n)

/-- The load that a read of die memory is: plain and unchained (R230, R260). -/
def FibAsk.kind (x : FibAsk) : ReqKind :=
  match x.n with | 64 => .ldgv .plain 0 | 2 => .ldg .n16 .plain 0 | 4 => .ldg .n32 .plain 0 | _ => .ldg .n64 .plain 0

/-- A read of die memory is sent for the word in focus (R230, R260, R330); a check that fails is an imprecise fatal fault with the pointer. -/
def State.fibSend (s : State) (f : Firing) (a : Actor) (x : FibAsk) : State × Nat :=
  let (id, s1) := s.fresh
  let q : Req := {
    id, fid := f.fid, rank := s.focus.rank, la := f.la, lid := a.lid, g := a.g, slot := s.focus.id, dst := [], ptr := x.ptr, kind := x.kind,
    chain := none, scp := none, inv := f.inv, stage := .queued, next := 0, pas := [], out := 0, ver := 0, count := 0, arr := id, sub := 0 }
  let s2 := { s1 with reqs := s1.reqs ++ [q] }.modFiring s.focus.rank fun f => { f with nmem := f.nmem + 1 }
  (match s.reqFault s.herePart q.kind q.ptr with | some (c, p) => s2.reqFatal q c p 0 | none => s2, id)

/-- An FSCAN goes on (R260): it makes the local reads that it needs, sends those of die memory, each as a load of its own, and ends once it needs
none. The fuel is above the number of fibres that it can open. -/
def State.scanGo (s : State) (f : Firing) (a : Actor) (j : ScanJob) (dst : List Target) : Nat → List (FibAsk × Nat) → State
  | 0, _ => s
  | n + 1, got =>
    match s.scanTry f.la j got with
    | .error e => s.fibStop f.la e
    | .ok c =>
      if c.needs.isEmpty then
        (s.fibWrite j.oh c.outs (if j.root then j.oh else j.ih) c.t).deliverAll s.focus.rank s.focus.id none dst (.s c.cursor)
      else
        let near := c.needs.filter fun x => ptrSpace x.ptr = 2
        if near.isEmpty then
          let x := c.needs.eraseDups.foldl (fun (y : State × List (FibAsk × Nat)) x => let r := y.1.fibSend f a x; (r.1, y.2 ++ [(x, r.2)])) (s, [])
          x.1.addDue dst (.scan j x.2 got)
        else match near.mapM s.fibLocal with
          | .error e => s.fibStop f.la e
          | .ok l => State.scanGo s f a j dst n (got ++ l)

/-- Steps that a scan can take between its reads: the descriptor, and the bounds of each fibre that it opens. -/
def ScanJob.fuel (j : ScanJob) : Nat := 2 * (j.bi + j.bo) + 8

/-- R258, R259, R260. -/
def execFscan (_p : Pred) (a b : Target) (ih oh : Fin 16) (dm : Fin 4) (root : Bool) (s : State) : Result :=
  s.oneFib fun s f x =>
    let d := if root then dm.val + 1 else dm.val + 2
    let rec1 := if root then some s else s.recordDepth f.la ih.val (dm.val + 1)
    match rec1.bind fun s => s.recordDepth f.la oh.val d with
    | none => s.faultHere .illegalEncoding 0
    | some s1 =>
      let j : ScanJob := {
        ih := ih.val, oh := oh.val, root, d, bi := if root then 0 else handleBound f x.desc ih.val,
        bo := handleBound f x.desc oh.val, ptr := s1.portS .a, cursor := s1.portS .b }
      s1.scanGo f x j [a, b] j.fuel []

/-! ## LOAD_ANSWER (R58, R235, R260) -/

/-- A value as a number. -/
def Value.nat (v : Value) : Nat := match v with | .s w => w.toNat | .v x => x.toNat

/-- A read of an FSCAN is answered; with its last one the scan goes on in the slot that issued it (R260). -/
def State.scanAnswer (s : State) (q : Req) (f : Firing) (a : Actor) (j : ScanJob) (dst : List Target) (want got : List (FibAsk × Nat)) (v : Value) : State :=
  let got1 := got ++ (want.filter fun e => e.2 == q.id).map fun e => (e.1, v.nat)
  let rest := want.filter fun e => e.2 != q.id
  let s1 := { s.dropDue q.rank q.slot with focus := ⟨q.rank, q.slot⟩ }
  let s2 := if rest.isEmpty then s1.scanGo f a j dst j.fuel got1 else s1.addDue dst (.scan j rest got1)
  { s2 with focus := s.focus }

/-- LOAD_ANSWER: a load, an old value or a wait's result reaches its firing, or the FSCAN that reads by it. -/
def execLoadAnswer (req : Nat) (s : State) : Result :=
  match s.req? req with
  | none => .next s
  | some q =>
    match q.value with
    | none => .next s
    | some v =>
      if q.stage ≠ .done ∨ s.ringFrozen q.lid then .next s
      else
        let s1 := s.dropReq req
        .next (match s.active q.rank, s.dueAt q.rank q.slot with
          | some (f, a), some ⟨_, dst, .scan j want got⟩ =>
            if f.fid = q.fid ∧ want.any (fun e => e.2 == req) then s1.scanAnswer q f a j dst want got v else s1.answer q none v
          | _, _ => s1.answer q none v)

/-! ## FREP (R261) -/

/-- The loop of FREP: the tokens written, the tokens read, and the status. -/
def State.repLoop (s : State) (la ih d bi bo : Nat) (ref : Word) : Nat → List FibOut → Nat → Except FibStop (List FibOut × Nat × Nat)
  | 0, outs, t => .ok (outs, t, 0)
  | n + 1, outs, t =>
    if bi ≤ t ∨ bo ≤ outs.length then .ok (outs, t, 0)
    else do
      let tok ← s.fibToken la ih t d
      match tok.2 with
      | none =>
        let pay : Vec := BitVec.ofNat 512 (bf tok.1.pay 63 0 + ref.toNat * 2 ^ 64)
        State.repLoop s la ih d bi bo ref n (outs ++ [{ kind := .data, tag := tok.1.tag, pay }]) (t + 1)
      | some k => return (outs ++ [{ kind := tok.1.kind, tag := tok.1.tag, pay := tok.1.pay }], t + 1, k + 1)

/-- R261. -/
def execFrep (_p : Pred) (a b : Target) (ih oh : Fin 16) (dm : Fin 4) (s : State) : Result :=
  s.oneFib fun s f x =>
    match (s.recordDepth f.la ih.val (dm.val + 1)).bind fun s => s.recordDepth f.la oh.val (dm.val + 1) with
    | none => s.faultHere .illegalEncoding 0
    | some s1 =>
      let bi := handleBound f x.desc ih.val
      match s1.repLoop f.la ih.val (dm.val + 1) bi (handleBound f x.desc oh.val) (s1.portS .a) (bi + 1) [] 0 with
      | .error e => s1.fibStop f.la e
      | .ok r => (s1.fibWrite oh.val r.1 ih.val r.2.1).out2 a b (BitVec.ofNat 64 r.2.2)

/-! ## FRED (R262) -/

/-- A reduction as it runs. -/
structure Red where
  acc : Nat
  n   : Nat
  t   : Nat
  st  : Nat
  fl  : Flags
  deriving DecidableEq, Repr

/-- One element: the first one is taken, later ones combine (R262). A signalling NaN raises invalid in the firing that reads it, the first one too
(R37, R43). -/
def Red.elem (r : Red) (ty : Ty) (mode : Rnd) (o : RedOp) (tok : Token) : Red :=
  let x := redLane ty (lane ty tok.pay 0)
  let y := if r.n = 0 then (x.1, if ty.isFloat then (floatOf .f32 x.1).sigFlag else 0) else redCombine ty mode o r.acc x.1
  { r with acc := y.1, n := (r.n + 1) % 2 ^ 32, t := r.t + 1, fl := r.fl ||| x.2 ||| y.2 }

/-- fin(ACC), or the identity of an empty fibre, in the type; a signalling NaN that stands in ACC raises invalid (R37, R262). -/
def redFinal (ty : Ty) (mode : Rnd) (o : RedOp) (acc n : Nat) : Nat × Flags :=
  let v := if n = 0 then redIdentity ty o else acc
  if ty.isFloat then roundOp ty mode false (floatOf .f32 v, (floatOf .f32 v).sigFlag) else (v, 0)

/-- Reads a fibre up to its stop or the bound (R262). -/
def State.redLoop (s : State) (la ih d bi : Nat) (ty : Ty) (mode : Rnd) (o : RedOp) : Nat → Red → Except FibStop Red
  | 0, r => .ok r
  | n + 1, r =>
    if bi ≤ r.t then .ok r
    else do
      let tok ← s.fibToken la ih r.t d
      match tok.2 with
      | none => State.redLoop s la ih d bi ty mode o n (r.elem ty mode o tok.1)
      | some k => return { r with t := r.t + 1, st := k + 1 }

/-- R262. -/
def execFred (_p : Pred) (t : Ty) (a b : Target) (ih oh : Fin 16) (dm : Fin 4) (e : Bool) (o : RedOp) (s : State) : Result :=
  s.oneFib fun s f x =>
    let rec2 := (s.recordDepth f.la ih.val (dm.val + 1)).bind fun s =>
      if dm.val = 0 then some s else s.recordDepth f.la oh.val dm.val
    match rec2 with
    | none => s.faultHere .illegalEncoding 0
    | some s1 =>
      let bi := handleBound f x.desc ih.val
      let mode := rndOf x.rnd
      let r0 : Red := { acc := x.facc.toNat, n := x.fn.toNat, t := 0, st := 0, fl := 0 }
      match s1.redLoop f.la ih.val (dm.val + 1) bi t mode o (bi + 1) r0 with
      | .error w => s1.fibStop f.la w
      | .ok r =>
        let value := r.n != 0 || !e
        let k := r.st - 1
        let need := value.toNat + (decide (1 ≤ k)).toNat
        if r.st ≠ 0 ∧ handleBound f x.desc oh.val < need then s1.faultHere .rateViolation (BitVec.ofNat 64 need)
        else
          let fin := redFinal t mode o r.acc r.n
          let tok : FibOut := { kind := .data, tag := (s1.portS .a).setWidth 32, pay := BitVec.ofNat 512 (fin.1 % 2 ^ t.width) }
          let outs := if r.st = 0 then [] else (if value then [tok] else []) ++ (if 1 ≤ k then [FibOut.stop (k - 1)] else [])
          let fl := if r.st ≠ 0 ∧ value then r.fl ||| fin.2 else r.fl
          let s2 := (s1.raise fl).modFiring s1.focus.rank fun f => { f with
            frW := some (BitVec.ofNat 64 r.acc, BitVec.ofNat 32 (if r.st = 0 then r.n else 0)) }
          (s2.fibWrite oh.val outs ih.val r.t).out2 a b (BitVec.ofNat 64 r.st)

/-! ## FSTOP, FCHK and FCRD (R263) -/

/-- The checks of a handle at an offset. -/
def State.fibHandle (s : State) (h off d : Nat) (k : State → Firing → State) : Result :=
  match s.here with
  | none => .next s
  | some (f, a) =>
    .next (if handleBound f a.desc h ≤ off then s.faultHere .rateViolation (BitVec.ofNat 64 off)
      else match s.recordDepth f.la h d with
        | none => s.faultHere .illegalEncoding 0
        | some s1 => k s1 f)

/-- R263. -/
def execFstop (_p : Pred) (d k : Fin 4) (h o : Fin 16) (s : State) : Result :=
  s.fibHandle h.val o.val (d.val + 1) fun s _ => s.putOut s.focus.rank s.focus.id h.val o.val 0 (stopKind k.val) (some 0) 0

/-- R263. -/
def execFchk (_p : Pred) (d : Fin 4) (a : Target) (h o : Fin 16) (s : State) : Result :=
  s.fibHandle h.val o.val (d.val + 1) fun s f =>
    match s.fibToken f.la h.val o.val (d.val + 1) with
    | .error e => s.fibStop f.la e
    | .ok (_, none) => s.out1 a 0
    | .ok (_, some k) => s.out1 a (BitVec.ofNat 64 (k + 1))

/-- R263. -/
def execFcrd (_p : Pred) (d : Fin 4) (a : Target) (h o : Fin 16) (s : State) : Result :=
  s.fibHandle h.val o.val (d.val + 1) fun s f =>
    match s.fibToken f.la h.val o.val (d.val + 1) with
    | .error e => s.fibStop f.la e
    | .ok (tok, none) => s.out1 a (tok.tag.setWidth 64)
    | .ok (_, some k) => s.out1 a (BitVec.ofNat 64 (2 ^ 32 + k))

end Sys2Proof.Machine
end

