-- ==== Sys2Proof/Machine/Traps.lean ====
section
/-! DEFINITION. Trap records on their way: into the trap queue, to Ridge's log, and what Ridge does then, with or without a handler (R152, R328 to
R334, R337 to R339). -/

namespace Sys2Proof.Machine

/-! ## The record (R330) -/

/-- The 64 bytes of a record as a number. -/
def Trap.num (t : Trap) : Nat :=
  let flag := fun (b : Bool) (i : Nat) => b.toNat * 2 ^ i
  t.seq % 2 ^ 32 * 2 ^ 480 + t.code.num * 2 ^ 472 + t.ocode.num * 2 ^ 464 + flag t.precise 463 + flag t.fatal 462 + flag t.handled 461 +
    flag t.remap.isSome 460 + flag t.invv 459 + t.skid % 4 * 2 ^ 457 + t.part % 32 * 2 ^ 452 + t.lid % 2 ^ 32 * 2 ^ 416 +
    t.g % 2 ^ 16 * 2 ^ 400 + t.rank % 2 ^ 14 * 2 ^ 386 + t.actor % 8 * 2 ^ 383 + t.phase % 8 * 2 ^ 380 + t.slot % 64 * 2 ^ 374 +
    t.emui % 4 * 2 ^ 372 + t.tslot % 32 * 2 ^ 367 + t.bid % 2 ^ 16 * 2 ^ 348 + t.detail % 2 ^ 16 * 2 ^ 332 +
    ((List.range 5).map fun k => t.ivec.getD k 0 % 2 ^ 16 * 2 ^ (252 + 16 * k)).sum + t.natom % 2 ^ 16 * 2 ^ 236 +
    t.neng % 2 ^ 8 * 2 ^ 228 + t.nlst % 2 ^ 8 * 2 ^ 220 + t.nmem % 2 ^ 8 * 2 ^ 212 + t.nlau % 16 * 2 ^ 208 + t.cbase % 2 ^ 16 * 2 ^ 192 +
    t.addr.toNat * 2 ^ 128 + t.aux.toNat * 2 ^ 64 + t.cyc % 2 ^ 64

def Trap.bytes (t : Trap) : List Byte := bytesOfNat 64 t.num

/-- A notice stops nothing (R328). -/
def Trap.notice (t : Trap) : Bool :=
  match t.ocode with
  | .layoutMismatch | .waitTableIncomplete => true
  | .digestMismatch => !t.fatal
  | _ => false

/-! ## TRAP_RECORD_WRITE (R332) -/

/-- The order in which records enter the queue: by cycle, those of Ridge last, by rank, and by serial. -/
def Trap.before (t u : Trap) : Bool :=
  let k := fun (t : Trap) => [t.cyc, t.ridge.toNat, if t.ridge then 0 else t.rank, t.seq]
  decide (k t ≤ k u)

/-- The records that may enter the queue in a cycle: those of earlier cycles, to which no record is added any more. -/
def Part.formed (p : Part) (cycle : Nat) : List Trap := p.pending.filter fun t => decide (t.cyc < cycle)

/-- The record that is next to enter the queue. -/
def Part.nextTrap (p : Part) (cycle : Nat) : Option Trap := (p.formed cycle).find? fun t => (p.formed cycle).all t.before

/-- Stores of ended invocations are performed before the record of a fault is written (R336). -/
def State.storesDue (s : State) (t : Trap) : Bool := t.invv && s.reqs.any fun q => q.lid == t.lid && q.released && !q.acked

/-- A record is written at its place of the ring. -/
def State.ringWrite (s : State) (part : Nat) (t : Trap) : State :=
  let place := (s.part part).ringNext % 256
  (s.writeBytes (dieKey (s.lowDie part) ((s.partCfg part).trapOff + 64 * place)) t.bytes).modPart part fun p =>
    { p with pending := p.pending.erase t, ring := p.ring ++ [t], ringNext := p.ringNext + 1 }

/-- TRAP_RECORD_WRITE (R332): the next record of an ended cycle enters the ring. When the ring is full a notice is dropped and counted, and every other record
waits, and one of a fault behind the stores of its ended invocations (R336). -/
def execTrapRecordWrite (part : Nat) (s : State) : Result :=
  let p := s.part part
  if 256 ≤ p.ring.length then
    match (p.formed s.clock.cycle).find? Trap.notice with
    | some t => .next (s.modPart part fun p => { p with pending := p.pending.erase t, trapDrop := p.trapDrop + 1 })
    | none => .next s
  else match p.nextTrap s.clock.cycle with
    | some t => .next (if s.storesDue t then s else s.ringWrite part t)
    | none => .next s

/-! ## The trap log (R317, R332) -/

/-- Ridge writes bytes of the log, granule by granule; a page that the table does not let it write keeps what it had (DEDUCED, log entry 31). -/
def State.logWrite (s : State) (part off : Nat) (l : List Byte) : State :=
  (List.range ((l.length + 63) / 64)).foldl (fun s i =>
    match s.globalXlate part ((off + 64 * i) % 2 ^ 46) with
    | (s1, some (pa, e)) => if pteW e then s1.writeBytes pa ((l.drop (64 * i)).take 64) else s1
    | (s1, none) => s1) s

/-- What the log holds for a record: its bytes, and the deadlock record directly after them. -/
def State.logBytes (s : State) (t : Trap) : List Byte :=
  if t.ocode = .deadlock then
    t.bytes ++ s.readBytes (dieKey (ptrOwner t.addr / 256) (ptrOff t.addr)) (64 * (1 + (t.cycle.length + 1) / 2))
  else t.bytes

/-- Ridge copies a record into the log and frees its slot; the answer holds where the copy stands. -/
def State.logRecord (s : State) (part : Nat) (t : Trap) : State × Nat :=
  let s1 := s.modPart part fun p => { p with ring := p.ring.tail }
  match (s.part part).logBase with
  | none => (s1, 0)
  | some base =>
    let l := s.logBytes t
    let at_ := (base + 64 * (s.part part).logCount) % 2 ^ 46
    ((s1.logWrite part at_ l).modPart part fun p => { p with logCount := p.logCount + (l.length + 63) / 64 }, at_)

/-! ## Deadlock (R339) -/

/-- Waiters of a cycle thaw. -/
def State.thaw (s : State) (part : Nat) (cycle : List WaitEntry) : State :=
  s.modPart part fun p => { p with
    waits := p.waits.map fun x => if cycle.any fun y => y.sameWaiter x then { x with frozen := false } else x }

/-- An unhandled Deadlock, or ACTION 0: the launch of the first entry's waiter stops, and the others go on waiting. -/
def State.breakDeadlock (s : State) (part : Nat) (cycle : List WaitEntry) : State :=
  match cycle with
  | [] => s
  | w :: _ => (s.stopLaunch w.wlid .faulted 0x11).thaw part cycle

/-- ACTION 1: every waiter thaws, and the walk is made again from the first entry, at the end of the cycle. -/
def State.retryDeadlock (s : State) (part : Nat) (cycle : List WaitEntry) : State :=
  (s.thaw part cycle).modPart part fun p => { p with walks := p.walks ++ (cycle.head?.map (·.serial)).toList }

/-! ## RIDGE_TRAP_NOTIFY (R333, R339) -/

/-- Ridge launches the registered handler with the address of the record's copy as parameter 0 (R152). A PARAMP of the registered record that may not
be read is its own fault, recorded under no launch (R8, R329), and the handler is launched with 0 for the others (DESIGN CHOICE, log entry 86). -/
def State.launchHandler (s : State) (part : Nat) (t : Trap) (at_ : Nat) : State :=
  match (s.part part).handler with
  | none => s
  | some r =>
    let (s1, ps) := match s.readParams part 0 none (BitVec.ofNat 64 (bf r 383 320)) with
      | (s1, .ok ps) => (s1, ps)
      | (s1, .error x) => (s1.fatalTrap { s1.mkTrap part 0 0 0 x.1 0 x.2.1 x.2.2 with ridge := true }, List.replicate 16 0)
    let (s2, w) := s1.submit part r (ps.set 0 (mkPtr 0 0 at_)) .start
    let lid := bf w 31 0
    (s2.modLaunch lid fun l => { l with handles := some t.seq }).modPart part fun p =>
      { p with logged := p.logged ++ [{ trap := t, gaddr := at_, handler := lid, action := none }] }

/-- What Ridge does with an unhandled record: an unhandled precise fault stops its launch, whose actor it had suspended (R333), and a
Deadlock is broken (R339). The launch of a fatal fault has stopped when the fault was detected (R336). -/
def State.unhandled (s : State) (t : Trap) : State :=
  if t.ocode = .deadlock then s.breakDeadlock t.part t.cycle
  else if t.precise then s.stopLaunch t.lid .faulted (s.reasonOf t)
  else s

/-- RIDGE_TRAP_NOTIFY: the oldest record of the ring. -/
def execRidgeTrapNotify (part : Nat) (s : State) : Result :=
  match (s.part part).ring with
  | [] => .next s
  | t :: _ =>
    let (s1, at_) := s.logRecord part t
    .next (if t.handled then s1.launchHandler part t at_ else s1.unhandled t)

/-! ## HANDLER_ACTION (R334, R337) -/

/-- A handler launch has ended and its completion write is made. -/
def State.handlerOver (s : State) (lid : Nat) : Bool :=
  match s.launch? lid with | some l => l.st.final && l.origins.isEmpty | none => true

/-- ACTION of a logged record; a handler that did not end DONE counts as ACTION 0. -/
def State.readAction (s : State) (x : Logged) : Nat :=
  match s.launch? x.handler, s.walk x.trap.part ((x.gaddr + 56) % 2 ^ 46) with
  | some l, .hit pa _ _ => if l.st = .done then s.readNat pa 1 % 16 else 0
  | _, _ => 0

/-- The action on a suspended actor (R334). -/
def State.actOn (s : State) (t : Trap) (action : Nat) : State :=
  let mine := match s.actor? t.rank t.actor with
    | some a => a.lid == t.lid && a.susp == some t.seq
    | none => false
  if !s.running t.lid || !mine then s
  else if action = 1 then (s.modActor t.rank t.actor fun a => { a with susp := none }).inputCheck t.rank t.actor
  else (s.modActor t.rank t.actor fun a => { a with susp := none }).retireActor t.rank t.actor

/-- HANDLER_ACTION (R333, R334, R339): Ridge reads ACTION once and acts; on the actor of a pre-empted launch it acts after the resume. A
fatal record's ACTION is ignored (R337). -/
def execHandlerAction (part seq : Nat) (s : State) : Result :=
  match (s.part part).logged.find? fun x => x.trap.seq == seq with
  | none => .next s
  | some x =>
    if !s.handlerOver x.handler then .next s
    else
      let t := x.trap
      let action := x.action.getD (s.readAction x)
      let go := action == 1 || action == 2
      if t.precise && go && s.shelved t.lid then
        .next (s.modPart part fun p => { p with
          logged := p.logged.map fun y => if y.trap.seq = seq then { y with action := some action } else y })
      else
        let s1 := s.modPart part fun p => { p with logged := p.logged.filter fun y => y.trap.seq != seq }
        .next (if t.ocode = .deadlock then (if action = 1 then s1.retryDeadlock part t.cycle else s1.breakDeadlock part t.cycle)
          else if !t.precise || t.fatal then s1
          else if go then s1.actOn t action
          else s1.stopLaunch t.lid .faulted t.code.num)

end Sys2Proof.Machine
end

