-- ==== Sys2Proof/Machine/Saved.lean ====
section
/-! DEFINITION. The saved-state records of a pre-empted launch, byte by byte: elements, clusters and regions (R345, R346). -/

namespace Sys2Proof.Machine

/-- Fields of a record, each with its lowest bit, its width and its value. -/
def packFields (l : List (Nat × Nat × Nat)) : Nat := (l.map fun f => f.2.2 % 2 ^ f.2.1 * 2 ^ f.1).sum

/-- Numbers side by side, each of w bits, from a lowest bit up. -/
def packRun (lo w : Nat) (l : List Nat) : Nat := packFields (l.zipIdx.map fun x => (lo + w * x.2, w, x.1))

/-! ## Elements (R345) -/

/-- The place in the ring behind the last token of a FIFO and of its link (DESIGN CHOICE, log entry 45). -/
def Edge.writePos (e : Edge) : Nat := (e.readPos + e.fifo.length + (e.link.filter fun f => f.tok.kind != .marker).length) % e.depth

/-- What stands in a slot of a FIFO's ring. -/
def Edge.slotTok (e : Edge) (i : Nat) : Option Token :=
  if i < e.depth then (e.fifo[(i + e.depth - e.readPos) % e.depth]?).map (·.tok) else none

/-- The slots of an element's FIFO area in order (R223). -/
def State.fifoArea (s : State) (rank : Nat) : List (Option Token) :=
  (s.edges.filter fun e => e.crank == rank).flatMap fun e => (List.range e.depth).map e.slotTok

/-- The handle state of an actor (R345). -/
def State.handleState (s : State) (rank la h : Nat) (a : Actor) : Nat :=
  let w := a.desc.handle h
  let pos := if !w.used then 0
    else if w.out then (match s.outEdge rank la h with | some (_, e) => e.writePos | none => 0)
    else (match s.inEdge rank la h with | some (_, e) => e.readPos | none => 0)
  let owed := if w.out then (match s.outEdge rank la h with | some (_, e) => e.owed | none => 0) else 0
  let depth := a.depths.getD h none
  packFields [(32, 32, (a.seqs.getD h 0).toNat), (23, 9, pos), (15, 8, owed), (14, 1, (a.eosOut.getD h false).toNat), (13, 1, depth.isSome.toNat),
    (11, 2, depth.getD 1 - 1)]

/-- An actor record (R345). -/
def State.actorRecord (s : State) (rank la : Nat) (a : Actor) : Nat :=
  let aged := decide (64 ≤ a.pass)
  packRun 3072 64 (a.keep.map (·.toNat)) + packRun 2048 64 ((List.range 16).map fun h => s.handleState rank la h a) +
    packRun 1536 32 (a.lg.step.map (·.toNat)) + packRun 1024 32 (a.lg.sid.map (·.toNat)) +
    packFields [(1008, 16, a.lg.occ.toNat), (1006, 2, a.lg.w), (936, 64, a.seed.toNat), (872, 64, a.facc.toNat), (840, 32, a.fn.toNat),
      (835, 5, a.flags.toNat), (833, 2, a.rnd.toNat), (830, 3, a.phase), (829, 1, a.retired.toNat), (828, 1, a.yld.toNat),
      (822, 6, if aged then 0 else a.pass), (821, 1, aged.toNat), (820, 1, a.susp.isSome.toNat), (788, 32, a.susp.getD 0)]

/-- The header of an element's record: the image index is that of the configuration it holds (R129, R345). -/
def State.elementHeader (s : State) (rank epoch : Nat) : Nat :=
  let e := s.elem rank
  let idx := match e.actors.head?.bind fun a => s.launch? a.lid with | some l => l.imgIdx | none => 0
  packFields [(498, 14, rank), (464, 32, epoch), (460, 4, e.actors.length), (459, 1, e.xopOff.isSome.toNat), (443, 16, e.xopOff.getD 0 / 64),
    (424, 16, idx)]

/-- Local memory with its FIFO area (R223, R345). -/
def State.localImage (s : State) (rank : Nat) : List Byte :=
  let bytes := s.readBytes (localKey rank 0) 32768
  let base := s.fifoBase rank
  let area := s.fifoArea rank
  (bytes.take base ++ area.flatMap (fun t => vecBytes (match t with | some t => t.pay | none => 0)) ++ bytes.drop (base + 64 * area.length)).take 32768

/-- The record of an element (R345). -/
def State.elementRecord (s : State) (rank epoch : Nat) : List Byte :=
  let e := s.elem rank
  let fe := packFields ((s.full.filter fun g => g / 2048 == rank).map fun g => (g % 2048, 1, 1))
  let side := fun (t : Option Token) => match t with | some t => packFields [(0, 32, t.tag.toNat), (32, 4, t.kind.code)] | none => 0
  bytesOfNat 64 (s.elementHeader rank epoch) ++ bytesOfNat 256 fe ++ bytesOfNat 16 e.xopFf.toNat ++ bytesOfNat 176 0 ++
    e.actors.zipIdx.flatMap (fun a => bytesOfNat 512 (s.actorRecord rank a.2 a.1)) ++ s.localImage rank ++
    (s.fifoArea rank).flatMap fun t => bytesOfNat 8 (side t)

/-! ## Clusters and regions (R346) -/

/-- A held-event entry. -/
def State.heldEntry (s : State) (h : HeldEvent) : List Byte :=
  let chain := match (s.req? h.req).bind fun q => q.chain with
    | some c => packFields [(31, 1, 1), (16, 10, c.1), (0, 12, c.2.1)]
    | none => 0
  vecBytes h.data ++ bytesOfNat 8 (ptrAdd h.ptr (-((ptrOff h.ptr % 64 : Nat) : Int))).toNat ++ bytesOfNat 8 h.mask.toNat ++ bytesOfNat 4 h.inv ++
    bytesOfNat 4 chain ++ bytesOfNat 8 0

/-- A chain has a member in a cluster. -/
def State.chainIn (s : State) (c : ChainPos) (cluster : Nat) : Bool :=
  c.steps.any fun x => ((s.launch? c.lid).bind fun l => l.actorRank c.g x.2).map (· / 16) == some cluster

/-- Inserts a chain in ascending number. -/
def insChain (c : ChainPos) : List ChainPos → List ChainPos
  | [] => [c]
  | x :: r => if c.chain < x.chain then c :: x :: r else x :: insChain c r

/-- The record of a cluster. -/
def State.clusterRecord (s : State) (cluster epoch : Nat) : List Byte :=
  let held := (s.cluster cluster).held
  let chains := (s.chains.filter fun c => s.chainIn c cluster).foldl (fun l c => insChain c l) []
  let entry := fun (c : ChainPos) => packFields [(54, 10, c.chain), (42, 12, ((c.steps[c.at_]?).map (·.1)).getD 0), (10, 32, c.round)]
  let body := bytesOfNat 64 (packFields [(502, 10, cluster), (464, 32, epoch), (454, 10, held.length), (443, 11, chains.length)]) ++
    held.flatMap s.heldEntry ++ chains.flatMap fun c => bytesOfNat 8 (entry c)
  body ++ List.replicate ((64 - body.length % 64) % 64) 0

/-- The tag block of a tile register; scales of a mode that is not in force are 0. -/
def TileReg.tagBlock (t : TileReg) : List Byte :=
  bytesOfNat 16 (t.ty.code.toNat + t.smode * 256) ++ (if t.smode = 1 then t.mx else List.replicate 16 0) ++
    (if t.smode = 2 then t.bfp else List.replicate 16 0).flatMap fun x => bytesOfNat 4 x.toNat

/-- The block of an element of a region. -/
def Region.elementBlock (r : Region) (i : Nat) : List Byte :=
  let act := r.act.getD i TileReg.zero
  let load := r.load.getD i TileReg.zero
  bytesOfNat 512 act.bits.toNat ++ bytesOfNat 512 load.bits.toNat ++ act.tagBlock ++ load.tagBlock

/-- A command entry of a region. -/
def RegCmd.entry (c : RegCmd) : List Byte :=
  vecBytes c.recd ++ bytesOfNat 4 (packFields [(0, 8, c.op), (8, 8, c.ty), (16, 16, c.rank)]) ++ bytesOfNat 4 c.serial ++ bytesOfNat 8 c.b.toNat ++
    bytesOfNat 8 c.ptr.toNat ++ bytesOfNat 40 c.detach.toNat

/-- The accumulator stores of a region's south-row clusters, in ascending column. -/
def State.regionStores (s : State) (r : Region) : List Byte :=
  (List.range ((r.w + 3) / 4)).flatMap fun i => s.readBytes (accKey (r.store (64 * i)) 0) 262144

/-- The record of a region. -/
def State.regionRecord (s : State) (r : Region) : List Byte :=
  let q := r.queue.filter fun c => !c.started
  let h := packFields [(502, 10, r.rgn), (498, 4, r.w - 1), (494, 4, r.h - 1), (490, 4, q.length), (458, 32, r.serial), (394, 64, r.statp.toNat),
    (378, 16, r.stats.nan), (346, 16, r.stats.ovf), (330, 16, r.stats.ufz), (314, 16, r.stats.wrap), (306, 8, r.stats.maxe),
    (274, 32, r.stats.tiles), (242, 32, r.seq)]
  bytesOfNat 64 h ++ (List.range (r.w * r.h)).flatMap r.elementBlock ++ q.flatMap RegCmd.entry ++ s.regionStores r

/-- The records of some launches: each element that holds an actor of them under its rank, each of some clusters from 2 ^ 20 on, and each region
from 2 ^ 21 on. -/
def State.saveRecords (s : State) (lids clusters : List Nat) (epoch : Nat) : List (Nat × List Byte) :=
  ((s.elems.filter fun e => e.2.actors.any fun a => lids.contains a.lid).map fun e => (e.1, s.elementRecord e.1 epoch)) ++
    (clusters.map fun c => (2 ^ 20 + c, s.clusterRecord c epoch)) ++
    (s.regions.zipIdx.filter fun r => lids.contains r.1.lid).map fun r => (2 ^ 21 + r.2, s.regionRecord r.1)

end Sys2Proof.Machine
end

