-- ==== Sys2Proof/Machine/Preempt.lean ====
section
/-! DEFINITION. Pre-emption by marker drain: opening an epoch, the complete cut and what is saved, abandoning, and resuming (R116, R129, R136, R289,
R342 to R347). A splice wavefront is pre-empted whole, both configurations together. Saved state is kept as data, with its records laid out as
R345 and R346 give them, since the memory that holds them lies outside every partition's offsets (log entry 45). -/

namespace Sys2Proof.Machine

/-- Marker state of some launches is cleared (R344, R347). -/
def State.clearMarkers (s : State) (lids : List Nat) : State :=
  { s with
    edges := modWhere (fun e => lids.contains e.lid) (fun e => { e with marker := none }) s.edges,
    elems := s.elems.map fun e => (e.1, { e.2 with
      actors := modWhere (fun a => lids.contains a.lid) (fun a => { a with marked := false }) e.2.actors }) }

/-- Every actor of some launches: its element and its index. -/
def State.actorsOf (s : State) (lids : List Nat) : List (Nat × Nat × Actor) :=
  s.elems.flatMap fun e => (e.2.actors.zipIdx.filter fun a => lids.contains a.1.lid).map fun a => (e.1, a.2, a.1)

/-- A queued head has a higher PRIO than every launch of a wavefront (R116). -/
def State.outranked (s : State) (part : Nat) (lids : List Nat) : Bool :=
  match s.bestHead part with
  | some h => s.launches.all fun l => !lids.contains l.lid || decide (l.prio < h.prio)
  | none => false

/-- PREEMPTION_OPEN (R116, R342): only to place a queued head of higher PRIO. Sources that are firing emit their MARKER at commit. -/
def execPreemptionOpen (lid : Nat) (s : State) : Result :=
  match s.launch? lid with
  | none => .next s
  | some l =>
    let lids := s.wave lid
    if l.st != .running || (s.part l.part).preempt.isSome || !s.outranked l.part lids then .next s
    else
      let epoch := ((s.part l.part).epoch + 1) % 2 ^ 32
      let s1 := (s.clearMarkers lids).modPart l.part fun p => { p with epoch, preempt := some { lid, epoch, since := s.clock.tick } }
      .next ((s1.actorsOf lids).foldl (fun s a => s.emitMarkers a.1 a.2.1) s1)

/-- An actor is cut: it fires no more, has passed its MARKER on, and every input has recorded one (R343). -/
def State.actorCut (s : State) (epoch : Nat) (x : Nat × Nat × Actor) : Bool :=
  x.2.2.marked && x.2.2.desc.ins.all fun h => match s.inEdge x.1 x.2.1 h with
    | some (_, e) => e.marker.any fun m => m.2 == epoch
    | none => true

/-- The cut of some launches is complete (R344): every actor is cut, no firing is in progress, every started matrix command and every engine and
collective command has finished, and every request is acknowledged or held. Null requests of a chain perform nothing and stay in their places. -/
def State.cutDone (s : State) (lids : List Nat) (epoch : Nat) : Bool :=
  (s.actorsOf lids).all (s.actorCut epoch) &&
    s.elems.all (fun e => match e.2.firing with
      | some f => (e.2.actors[f.la]?).all fun a => !lids.contains a.lid
      | none => true) &&
    s.engines.all (fun e => e.2.queue.all fun c => !lids.contains c.lid) && s.colls.all (fun c => !lids.contains c.lid) &&
    s.regions.all (fun r => !lids.contains r.lid || (r.feed.isEmpty && r.queue.all fun c => !c.started)) &&
    s.reqs.all fun q => !lids.contains q.lid || q.kind == .null || (q.stage == .held && !q.released) || q.stage == .done

/-- The clusters of a launch. -/
def Launch.allClusters (l : Launch) : List Nat := (List.range l.ngroup).flatMap l.clusters

/-- What Ridge saves of a launch and the others of its wavefront (R345, R346). Pins are not saved (R146). -/
def State.savedOf (s : State) (lids : List Nat) (epoch : Nat) (l : Launch) : Saved :=
  let p := fun c => l.allClusters.contains c
  { elems := (s.elems.filter fun e => e.2.actors.any fun a => lids.contains a.lid).map fun e => (e.1, { e.2 with dec := [] }),
    edges := s.edges.filter fun e => lids.contains e.lid,
    localMem := s.mem.filter fun c => keyIn p c.1,
    full := s.full.filter fun g => p (g / 2048 / 16),
    held := s.clusters.filterMap fun c => if p c.1 then some (c.1, c.2.held) else none,
    chains := s.chains.filter fun c => lids.contains c.lid,
    regions := s.regions.filter fun r => lids.contains r.lid,
    binds := s.binds.filter fun b => lids.contains b.lid,
    records := s.saveRecords lids l.allClusters epoch }

/-- The mark of a launch that was saved together with another. -/
def Saved.with_ (lid : Nat) : Saved :=
  { elems := [], edges := [], localMem := [], full := [], held := [], chains := [], regions := [], mate := some lid }

/-- A wavefront is set aside: its regions are released and gated, its waits leave the table, its copies of code are freed, and the launch goes back
to the head of the queue it stood in, with the other configuration in its train (R115, R116, R120, R136, R315, R319, R344). -/
def State.shelve (s : State) (l : Launch) (epoch : Nat) : State :=
  let lids := s.wave l.lid
  let x := s.savedOf lids epoch l
  let s1 := s.gate fun c => l.allClusters.contains c
  let s2 : State := { s1 with
    edges := s1.edges.filter fun e => !lids.contains e.lid, chains := s1.chains.filter fun c => !lids.contains c.lid,
    regions := s1.regions.filter fun r => !lids.contains r.lid, binds := s1.binds.filter fun b => !lids.contains b.lid,
    launches := modWhere (fun y => lids.contains y.lid) (fun y =>
      { y with st := .queued, saved := some (if y.lid = l.lid then x else Saved.with_ l.lid), headAt := s.clock.cycle, cbase := [] }) s1.launches }
  ((s2.dropWaits l.part fun w => lids.contains w.wlid && !w.man).modPart l.part fun p =>
    { p with preempt := none, queues := alSet p.queues l.queueAt (l.lid :: p.queueOf l.queueAt) }).settleTable l.part

/-- CUT_COMPLETE (R344). -/
def execCutComplete (lid : Nat) (s : State) : Result :=
  match s.launch? lid with
  | none => .next s
  | some l =>
    match (s.part l.part).preempt with
    | none => .next s
    | some x =>
      if x.lid = lid ∧ l.st = .running ∧ !x.late s.clock.tick ∧ s.cutDone (s.wave lid) x.epoch then .next (s.shelve l x.epoch) else .next s

/-- PREEMPTION_ABANDON (R344): the cut is not complete within 1,024 ticks. -/
def execPreemptionAbandon (lid : Nat) (s : State) : Result :=
  let part := lidPart lid
  match (s.part part).preempt with
  | none => .next s
  | some x =>
    if x.lid ≠ lid ∨ !x.late s.clock.tick then .next s
    else .next ((s.clearMarkers (s.wave lid)).modPart part fun p => { p with preempt := none })

/-! ## Resuming (R136, R347) -/

/-- The lowest place for a copy of n bytes in a die's code region (DESIGN CHOICE, log entry 45). -/
def State.fitAt (s : State) (die n : Nat) : Option Nat :=
  (List.range 32768).find? fun c => decide (64 * c + n ≤ 2 ^ 21) && (s.copiesOn die).all fun x => decide (64 * c + n ≤ x.1) || decide (x.1 + x.2 ≤ 64 * c)

/-- The code copies of resumed launches are written again; none where a die has no room for one (R136). -/
def State.refit (s : State) : List Nat → Option State
  | [] => some s
  | lid :: r =>
    match (s.launch? lid).bind fun l => l.img.map fun im => (l, im) with
    | none => State.refit s r
    | some (l, im) =>
      match l.allDies.mapM fun d => (s.fitAt d im.copySize).map fun c => (d, c) with
      | none => none
      | some cb => State.refit ((s.modLaunch lid fun y => { y with cbase := cb }).writeCopies im cb) r

/-- The launches that were saved together with a launch, itself first. -/
def State.train (s : State) (lid : Nat) : List Nat :=
  lid :: (s.launches.filter fun y => y.saved.any fun x => x.mate == some lid).map (·.lid)

/-- A bind record comes back in the lowest free slot of its die; the priorities are inherited anew, and SUCC says whether a successor is staged. -/
def State.rebind (s : State) (b : BindRec) : State :=
  { s with binds := s.binds ++ [{ b with slot := freeSlot s.binds b.die, iprio := 0, armed := false, succ := (s.staged b.lid).isSome }] }

/-- Saved state is written back (R347): markers are cleared, and each XOP bitstream is loaded again from its local offset with the saved
flip-flops. -/
def State.restore (s : State) (l : Launch) (x : Saved) : State :=
  let lids := s.train l.lid
  let s1 : State := { s with
    mem := x.localMem.foldl (fun m c => Memory.write m c.1 c.2) s.mem,
    full := x.full.foldl (fun l g => insFull g l) s.full,
    edges := s.edges ++ x.edges, chains := s.chains ++ x.chains, regions := s.regions ++ x.regions }
  let s2 := x.elems.foldl (fun s e => s.modElem e.1 fun _ => { e.2 with
    xopBits := match e.2.xopOff with | some o => s.readBytes (localKey e.1 o) 8192 | none => e.2.xopBits }) s1
  let s3 := x.held.foldl (fun s c => s.modCluster c.1 fun y => { y with held := c.2 }) s2
  let s4 := s3.unqueue l.part l.lid
  let s5 : State := { s4 with
    launches := modWhere (fun y => lids.contains y.lid) (fun y => { y with st := .running, saved := none, idle := 0, moved := false }) s4.launches }
  ((x.binds.foldl State.rebind s5).clearMarkers lids).inherit l.part

/-- PREEMPTION_RESUME (R114, R347): the head that Ridge takes is a pre-empted launch whose clusters are free, with room for its code. -/
def execPreemptionResume (lid : Nat) (s : State) : Result :=
  match s.launch? lid with
  | none => .next s
  | some l =>
    match l.saved with
    | some x =>
      let first := match s.bestHead l.part with | some h => h.lid == lid | none => false
      if !first || !s.regionsOk l || !s.slotsOk l then .next s
      else match s.refit (s.train lid) with
        | some s1 => .next (s1.restore l x)
        | none => .next s
    | none => .next s

end Sys2Proof.Machine
end

