-- ==== Sys2Proof/Machine/Host.lean ====
section
/-! DEFINITION. The world outside: Ultra Ethernet packets, host commands, bring-up and reset, power and cooling, readiness, and scrubbing of HBM5
(R227, R329, R363 to R371). -/

namespace Sys2Proof.Machine

/-! ## UE_PACKET_RECEIVE (R215, R321, R350, R363, R366) -/

/-- The next piece of a remote request is answered: the next message goes out, or the request is acknowledged. -/
def State.remoteNext (s : State) (q : Req) : State :=
  let s1 := s.modReq q.id fun q => { q with next := q.next + 1 }
  match s1.req? q.id with | some q1 => s1.sendRemote q1 | none => s1

/-- The bytes of a remote read reach the request, or the engine command, that asked for them; a load sees its group's held bytes over them (R239). -/
def State.readReply (s : State) (id : Nat) (l : List Byte) : State :=
  match s.req? id with
  | some q =>
    match (q.kind.pieces q.ptr)[q.next]? with
    | some x =>
      if q.stage ≠ .remote ∨ !q.kind.reads ∨ l.length ≠ x.n then s
      else
        let v := s.overHeld q (x.ptr.toNat / 64) (placeAt (ptrOff x.ptr % 64) (natOfBytes l))
        let s1 := s.modReq id fun r => { r with out := r.kind.fill x v r.out }
        match s1.req? id with | some q1 => s1.remoteNext q1 | none => s1
    | none => s
  | none =>
    let take := fun (c : EngCmd) =>
      if c.asked.any (fun a => a.id == id && a.len == l.length) && (alGet c.got id).isNone then { c with got := c.got ++ [(id, l)] } else c
    { s with engines := s.engines.map fun e => (e.1, { e.2 with queue := e.2.queue.map take }) }

/-- A remote write is acknowledged. -/
def State.writeAck (s : State) (id : Nat) : State :=
  match s.req? id with
  | some q =>
    if q.stage = .remote ∧ !q.kind.reads then
      (match (q.kind.pieces q.ptr)[q.next]? with | some x => s.unhold q x | none => s).remoteNext q
    else s
  | none =>
    { s with engines := s.engines.map fun e => (e.1, { e.2 with
        queue := e.2.queue.map fun c => { c with acks := c.acks.filter fun a => a != id } }) }

/-- The remote endpoint declines an access: Permission (R372). -/
def State.declined (s : State) (id : Nat) : State :=
  match s.req? id with
  | some q => if q.stage = .remote then s.reqFatal q .permission (BitVec.ofNat 64 (ptrOff q.ptr)) 0 else s
  | none =>
    match s.engines.findSome? fun e => (e.2.queue.find? fun c => c.acks.contains id || c.asked.any fun a => a.id == id).map fun c => (e.1, c) with
    | some (k, c) =>
      let p := match c.asked.find? fun a => a.id == id with | some a => a.ptr | none => engDst c.recd
      let acks := c.acks.filter fun a => a != id
      s.engFault (k / 8) (k % 8) c acks (.permission, BitVec.ofNat 64 (ptrOff p))
    | none => s

/-- An access from outside meets an uncorrectable error: MemoryUncorrectable under no launch (R227, R329). -/
def State.hostUncorrectable (s : State) (part off key : Nat) : State :=
  (s.formTrap (s.mkTrap part 0 0 0 .memoryUncorrectable 0 (mkPtr 0 0 (off % 2 ^ 46)) (BitVec.ofNat 64 key))).1

/-- Bytes written into GLOBAL from outside, each granule one store event through the partition's table (R228, R229); false when a page may
not be written, or a part of a granule with an uncorrectable error (R227). -/
def State.writeGlobal (s : State) (part : Nat) : Nat → Nat → List Byte → State × Bool
  | 0, _, _ => (s, true)
  | n + 1, off, l =>
    if l.isEmpty then (s, true)
    else
      let k := 64 - off % 64
      match s.globalXlate part (off % 2 ^ 46) with
      | (s1, some (pa, e)) =>
        let b := l.take k
        if b.length < 64 && s1.uncorrectable pa then (s1.hostUncorrectable part off pa, false)
        else if pteW e then
          State.writeGlobal (s1.storeEvent part (pteRet e) (pa / 64) (maskAt (pa % 64) b.length) (placeAt (pa % 64) (natOfBytes b))) part n
            (off + k) (l.drop k)
        else (s1, false)
      | (s1, none) => (s1, false)

/-- Bytes read from GLOBAL from outside; none when a page may not be read, or where a granule holds an uncorrectable error (R227). -/
def State.readGlobal (s : State) (part : Nat) : Nat → Nat → Nat → State × Option (List Byte)
  | 0, _, _ => (s, some [])
  | n + 1, off, len =>
    if len = 0 then (s, some [])
    else
      let k := Nat.min len (64 - off % 64)
      match s.globalXlate part (off % 2 ^ 46) with
      | (s1, some (pa, e)) =>
        if !pteR e then (s1, none)
        else if s1.uncorrectable pa then (s1.hostUncorrectable part off pa, none)
        else
          let (s2, r) := State.readGlobal s1 part n (off + k) (len - k)
          (s2, r.map fun x => s1.readBytes pa k ++ x)
      | (s1, none) => (s1, none)

/-- A run of GLOBAL bytes lies in the windows that the host has opened for the partition (R363, R365). -/
def State.inWindows (s : State) (part off n : Nat) : Bool :=
  let ws := (s.part part).windows
  windowsCover ws (ws.length + 1) off (Nat.max 1 n)

/-- A collective's wire value from another module, with what its record says (R321). -/
def State.wireIn (s : State) (part pset cseq pos : Nat) (head : CollHead) (l : List Byte) : State :=
  let mine := fun (c : Coll) => c.part == part && c.pset == pset && c.cseq == cseq && (alGet c.wires pos).isNone
  match s.colls.find? mine with
  | some c => { s with colls := modWhere (fun x => x.id == c.id) (fun x => { x with wires := x.wires ++ [(pos, head, l)] }) s.colls }
  | none =>
    let (id, s1) := s.fresh
    { s1 with colls := s1.colls ++ [{ id, kind := 0, part, lid := 0, pset, cseq, parts := [], wires := [(pos, head, l)] }] }

/-- Another replica's digest (R350). -/
def State.digestIn (s : State) (part rset dseq index : Nat) (v : Word) : State :=
  match s.digests.find? fun d => d.is part rset dseq && (alGet d.remote index).isNone with
  | some d => { s with digests := s.digests.map fun x => if x = d then { x with remote := x.remote ++ [(index, v)] } else x }
  | none => { s with digests := s.digests ++
      [{ lid := 0, part, rset, dseq, sk := 0, parts := [], value := none, remote := [(index, v)], voteAt := none }] }

/-- The revision that an endpoint or peer queue is bound to. -/
def State.boundRev (s : State) (part id : Nat) : Option (BitVec 16) :=
  (((s.part part).endpoints ++ (s.part part).peers).find? fun e => e.id == id).map (·.rev)

/-- A packet of another revision is discarded with a LayoutMismatch notice (R331, R366). -/
def State.layoutMismatch (s : State) (part id : Nat) (got bound : BitVec 16) : State :=
  s.notice (s.mkTrap part 0 0 0 .layoutMismatch got.toNat (BitVec.ofNat 64 id) (bound.setWidth 64))

/-- An access from outside is served as far as the partition's GLOBAL windows let it: a read answers its bytes, a write is acknowledged once all of
it is done, and what may not be done is declined (R293, R363, R372; DESIGN CHOICE, log entry 37). -/
def State.serveRead (s : State) (part off len : Nat) : State :=
  if !s.inWindows part off len then s.send (.rdmaDecline part off len)
  else match s.readGlobal part (len / 64 + 2) off len with
    | (s1, some l) => s1.send (.rdmaData part off l)
    | (s1, none) => s1.send (.rdmaDecline part off len)

def State.serveWrite (s : State) (part off : Nat) (l : List Byte) : State :=
  if !s.inWindows part off l.length then s.send (.rdmaDecline part off l.length)
  else match s.writeGlobal part (l.length / 64 + 2) off l with
    | (s1, true) => s1.send (.rdmaAck part off l.length)
    | (s1, false) => s1.send (.rdmaDecline part off l.length)

/-- What a packet does once it is visible (R363). -/
def State.packet (s : State) (k : Packet) : State :=
  match k with
  | .readReply id l => s.readReply id l
  | .writeAck id => s.writeAck id
  | .declined id => s.declined id
  | .rdmaWrite part off l => s.serveWrite part off l
  | .rdmaRead part off len => s.serveRead part off len
  | .collective part pset cseq pos head l => s.wireIn part pset cseq pos head l
  | .digest part rset dseq index v => s.digestIn part rset dseq index v
  | .otherRevision part id got _ =>
    match s.boundRev part id with
    | some b => if got = b then s else s.layoutMismatch part id got b
    | none => s
  | .unsupported port => { s with refused := alAdd s.refused (port % 8) 1 }

/-- UE_PACKET_RECEIVE (R324, R363): the packet is served, discarded, or refused and counted; one of a DET stream waits until the first tick boundary
after its quantum has arrived whole. -/
def execUePacketReceive (k : UePacket) (s : State) : Result :=
  if s.boot.stage ≠ 3 then .next s
  else match k.quantum with
    | none => .next (s.packet k.pkt)
    | some (quantum, last) => .next { s with inbox := s.inbox ++ [{ quantum, last, pkt := k.pkt }] }

/-! ## Host commands (R365) -/

/-- Fields of a command's header. -/
def cmdMagic (c : Cmd) : Nat := bf c.hdr 511 480
def cmdRev (c : Cmd) : Nat := bf c.hdr 479 464
def cmdCode (c : Cmd) : Nat := bf c.hdr 463 456
def cmdPart (c : Cmd) : Nat := bf c.hdr 455 451
def cmdSeq (c : Cmd) : Nat := bf c.hdr 447 384
def cmdBlen (c : Cmd) : Nat := bf c.hdr 383 352

/-- The number of the module channel. -/
def moduleChan : Nat := 32

/-- The header is bad for a command code, or does not give the length of its body (R365). -/
def cmdBad (c : Cmd) (code : Nat) : Bool :=
  cmdMagic c != 0x4B56434D || cmdCode c != code || bf c.hdr 450 448 != 0 || bf c.hdr 351 0 != 0 || cmdBlen c % 64 != 0 || decide (65536 < cmdBlen c) ||
    cmdBlen c != c.body.length || cmdPart c != (if c.chan = moduleChan then 0 else c.chan)

/-- The last SEQ that a channel accepted. -/
def State.lastSeq (s : State) (chan : Nat) : Nat := (alGet s.flash.lastSeq chan).getD 0

/-- A channel exists: the module channel, or that of a configured partition. -/
def State.hasChan (s : State) (chan : Nat) : Bool := chan == moduleChan || (alGet s.cfg chan).isSome

/-- The key of a channel in the configuration record in force; none verifies for a channel that it does not name (R365, R369). -/
def State.chanKey (s : State) (chan : Nat) : PubKey :=
  if chan = moduleChan then s.boot.modKey else match alGet s.cfg chan with | some p => p.key | none => ⟨0, 0⟩

/-- The signature of a command verifies over its header and body under the key of its channel (R365). -/
def State.signed (s : State) (c : Cmd) : Bool :=
  pssVerify (s.chanKey c.chan).modulus (s.chanKey c.chan).exponent (vecBytes c.hdr ++ c.body) c.sig

/-- Which channels carry a command. -/
inductive Carrier where
  | partition | module | either
  deriving DecidableEq, Repr

/-- What a command needs besides a good header. -/
structure Need where
  code    : Nat
  carrier : Carrier
  body    : Bool
  ready   : Bool
  inRecovery : Bool
  deriving DecidableEq, Repr

/-- The status that refuses a command, or 0 (R365, R368). Of several grounds the first in this order is answered: signature, SEQ, header,
channel, body, readiness (DESIGN CHOICE, log entry 37). -/
def State.refusal (s : State) (c : Cmd) (n : Need) : Nat :=
  if !s.signed c then 1
  else if cmdSeq c ≤ s.lastSeq c.chan then 2
  else if cmdBad c n.code then 3
  else if n.carrier = .module ∧ c.chan ≠ moduleChan then 5
  else if n.carrier = .partition ∧ c.chan = moduleChan then 3
  else if !n.body then 3
  else if !n.ready ∨ (s.boot.recovery ∧ (c.chan ≠ moduleChan ∨ !n.inRecovery)) then 4
  else 0

/-- The channel's SEQ is written to flash before the reply (R365). -/
def State.acceptSeq (s : State) (c : Cmd) : State := { s with flash := { s.flash with lastSeq := alSet s.flash.lastSeq c.chan (cmdSeq c) } }

/-- A command is executed, or refused without any change (R365). A packet of another revision is discarded with a notice (R366). A module that
has not begun bring-up hears no command. `go` answers the new state, and the result unless the reply comes later. -/
def State.command (s : State) (c : Cmd) (n : Need) (go : State → State × Option (List Word)) : Result :=
  if (s.boot.stage ≠ 3 ∧ !s.boot.recovery) ∨ !s.hasChan c.chan then .next s
  else if cmdRev c ≠ 1 then .next (s.layoutMismatch (c.chan % 32) 0 (BitVec.ofNat 16 (cmdRev c)) 1)
  else
    let st := s.refusal c n
    if st ≠ 0 then .next (s.reply c st [])
    else match go (s.acceptSeq c) with
      | (s1, some r) => .next (s1.reply c 0 r)
      | (s1, none) => .next s1

/-- The HBM5 stacks that hold a run of GLOBAL bytes are ready (R368). -/
def State.stacksReady (s : State) (part off n : Nat) : Bool :=
  (List.range ((off % 64 + n + 63) / 64)).all fun i =>
    match (s.globalXlate part ((off / 64 * 64 + 64 * i) % 2 ^ 46)).2 with
    | some (pa, _) => s.boot.hbm.getLsbD (pa / 64 % 24)
    | none => true

/-- The run of GLOBAL bytes may be written: its pages allow it, and no granule that it writes in part holds an uncorrectable error (R227). -/
def State.mayWrite (s : State) (part off n : Nat) : Bool :=
  (List.range ((off % 64 + n + 63) / 64)).all fun i =>
    let at_ := off / 64 * 64 + 64 * i
    match (s.globalXlate part (at_ % 2 ^ 46)).2 with
    | some (pa, e) => pteW e && (!s.uncorrectable pa || (decide (off ≤ at_) && decide (at_ + 64 ≤ off + n)))
    | none => false

/-- The stacks that hold a partition's page table are ready: a page of it spans all of them (R368, R372; log entry 10). -/
def State.tableReady (s : State) : Bool := s.boot.hbm == BitVec.allOnes 24

/-- What a load of firmware leaves in a bank; what it is made of is open (log entry 33). -/
def firmwareBank (ptr : Word) (l : List Byte) : FlashBank :=
  { stage1Ok := Config.firmwareOk ptr l 0, ridgeOk := Config.firmwareOk ptr l 1, digests := (List.range 3).map (Config.firmwareDigest ptr l),
    record := (Config.firmwareRecord ptr l).1, modKey := (Config.firmwareRecord ptr l).2, recordKey := Config.firmwareRecordKey ptr l }

/-- Firmware is loaded into the flash bank that BOOTSRC has selected, in recovery. It takes effect at the next reset (R368, R369). -/
def State.loadFirmware (s : State) (ptr : Word) (l : List Byte) : State :=
  let b := firmwareBank ptr l
  { s with flash := if s.boot.bootsrc then { s.flash with bankB := b } else { s.flash with bankA := b } }

/-- LOAD (R365): the body carries the pointer and the bytes, in a form the spec does not give (log entry 37);
the bytes go into a GLOBAL window of the partition; in recovery, firmware goes into flash (R368). -/
def execLoad (c : Cmd) (ptr : Word) (bytes : List Byte) (s : State) : Result :=
  let n := bytes.length
  if s.boot.recovery then
    s.command c { code := 0x01, carrier := .module, body := decide (n ≤ cmdBlen c), ready := true, inRecovery := true } fun s => (s.loadFirmware ptr bytes, some [])
  else
    let body := decide (n ≤ cmdBlen c) && ptrSpace ptr == 0 && ptrOwner ptr == 0 && s.inWindows c.chan (ptrOff ptr) n && s.mayWrite c.chan (ptrOff ptr) n
    s.command c { code := 0x01, carrier := .partition, body, ready := s.stacksReady c.chan (ptrOff ptr) n, inRecovery := false } fun s =>
      ((s.writeGlobal c.chan (n / 64 + 2) (ptrOff ptr) bytes).1, some [])

/-- The parameters of a START as Ridge reads them; a LOCAL PARAMP is not read, and rejects the launch with 0x20 (R113). -/
def State.startParams (s : State) (part : Nat) (pp : Word) : State × Except ReadFault (List Word) :=
  if ptrSpace pp = 2 then (s, .ok (List.replicate 16 0)) else s.readParams part 0 none pp

/-- The stacks that hold a GLOBAL parameter block are ready (R368). -/
def State.paramsReady (s : State) (part : Nat) (pp : Word) : Bool :=
  pp == 0 || ptrSpace pp != 0 || s.stacksReady part (ptrOff pp) 128

/-- START (R110, R113, R365): as LAUNCH does; the result is the launch's status word. Parameters that cannot be read make the body bad. -/
def execStart (h : CmdHead) (body : List Byte) (s : State) : Result :=
  let c := h.cmd body
  let r := vecOfBytes body
  let pp : Word := BitVec.ofNat 64 (bf r 383 320)
  let ok := match (s.startParams c.chan pp).2 with | .ok _ => true | .error _ => false
  s.command c { code := 0x02, carrier := .partition, body := (ok || !s.paramsReady c.chan pp) && cmdBlen c == 64, ready := s.paramsReady c.chan pp,
                inRecovery := false } fun s =>
    match s.startParams c.chan pp with
    | (s1, .ok l) => let x := s1.submit c.chan r l .start; (x.1, some [x.2])
    | (s1, .error _) => (s1, some [])

/-- STOP (R132, R365): LCANCEL of one launch of the partition, or of every one when the id is 0; the result is the status word as it stood. -/
def execStop (c : Cmd) (lid : Nat) (s : State) : Result :=
  s.command c { code := 0x03, carrier := .partition, body := true, ready := true, inRecovery := false } fun s =>
    let st := s.statusOf c.chan lid
    if lid = 0 then (((s.launches.filter fun l => l.part == c.chan).map (·.lid)).foldl (fun s l => s.stopLaunch l .cancelled 0) s, some [])
    else (if 3 < bf st 63 60 then s else s.stopLaunch lid .cancelled 0, some [st])

/-- DIEREADY and FUNCREADY (R368). -/
def State.readyWords (s : State) : List Word :=
  let f := s.boot.akey.toNat * 2 ^ 34 + s.boot.crec.toNat * 2 ^ 33 + s.clock.locked.toNat * 2 ^ 32 + s.boot.port.toNat * 2 ^ 24 + s.boot.hbm.toNat
  [s.boot.dieReady, BitVec.ofNat 64 f]

/-- The words of a latched snapshot set, each list in its order with its block's number before its count (R352). -/
def Snapshot.words (x : Snapshot) : List Word :=
  let pair := fun (l : List (Nat × Nat)) => l.flatMap fun e => [e.1, e.2]
  ([x.serial, x.cycle, x.tick] ++ pair x.softErr ++ pair x.discards ++ pair x.pinRef ++ pair x.suppress ++ pair x.stash ++ pair x.refused ++
    x.counters).map (BitVec.ofNat 64)

/-- QUERY (R352, R365, R368): a snapshot set that is read becomes free, and the counters are read as they stand. The last SEQ is that before the
QUERY itself. On a partition channel a QUERY reaches that partition alone, on the module channel any (DEDUCED, log entry 37). -/
def execQuery (c : Cmd) (q : QueryKind) (s : State) : Result :=
  let part := match q with | .status lid => if c.chan = moduleChan then lidPart lid else c.chan | .snapshot p | .counters p => p | .ready | .lastSeq => 0
  let body := match q with | .snapshot p | .counters p => c.chan == moduleChan || p == c.chan | .status _ | .ready | .lastSeq => true
  let last := s.lastSeq c.chan
  s.command c { code := 0x04, carrier := .either, body, ready := true, inRecovery := true } fun s =>
    match q with
    | .status lid => (s, some [s.statusOf part lid])
    | .ready => (s, some s.readyWords)
    | .lastSeq => (s, some [BitVec.ofNat 64 last])
    | .counters _ => (s, some (s.snapshotNow part 0 s.clock.cycle).words)
    | .snapshot _ =>
      match (s.part part).latched with
      | [] => (s, some [])
      | x :: r => (s.modPart part fun p => { p with latched := r }, some x.words)

/-- ATTEST (R370): a signed quote of the measurement. -/
def execAttest (h : CmdHead) (body : List Byte) (s : State) : Result :=
  let c := h.cmd body
  let nonce := vecOfBytes body
  s.command c { code := 0x05, carrier := .module, body := cmdBlen c == 64, ready := s.boot.akey, inRecovery := false } fun s =>
    let l := vecBytes s.boot.meas ++ bytesOfNat 4 s.boot.measN ++ vecBytes nonce ++ bytesOfNat 8 Config.moduleSerial.toNat
    (s.send (.quote s.boot.meas s.boot.measN nonce Config.moduleSerial (Config.attestSign l)), some [])

/-- THATCH as a command (R154, R365): the image is submitted; the reply comes with the status of its verification. -/
def execThatchCommand (h : CmdHead) (image : List Byte) (s : State) : Result :=
  let c := h.cmd image
  s.command c { code := 0x06, carrier := .module, body := true, ready := true, inRecovery := false } fun s =>
    let x : ThatchSub := { image, rank := 0, fid := 0, slot := 0, dst := [], cmd := some c }
    ({ s with thatch := { s.thatch with subs := s.thatch.subs ++ [x] } }, none)

/-- MAP (R219, R221, R365, R372): writes or clears the entry of a page at a level; it is a leaf, and no on-demand mapping replaces it. -/
def execMapPage (c : Cmd) (off level : Nat) (entry : Word) (s : State) : Result :=
  let sh := 6 + 10 * level
  let size := 2 ^ sh
  let ok := decide (1 ≤ level) && decide (level ≤ 3) && off % size == 0 && decide (off < 2 ^ 46) &&
    (!pteV entry || (pteLeaf entry && !pteMalformed level sh entry)) && (s.ptSet c.chan off level entry).isSome
  s.command c { code := 0x07, carrier := .partition, body := ok, ready := s.tableReady, inRecovery := false } fun s =>
    let inside := fun (m : Nat × Nat × Bool) => decide (off ≤ m.1) && decide (m.1 < off + size) && decide (m.2.1 ≤ level)
    let s1 := s.modPart c.chan fun p => { p with mapped := (p.mapped.filter fun m => !inside m) ++ [(off, level, pteV entry)] }
    ((s1.ptSet c.chan off level entry).getD s1, some [])

/-- SET of the tick period, 500 to 2,000,000 cycles, and of the port that faces the grandmaster (R121, R367). The manual names no command for the
port; it stands beside the period (DESIGN CHOICE, log entry 37). -/
def execSetTickPeriod (c : Cmd) (x : TickSetting) (s : State) : Result :=
  let body := decide (500 ≤ x.cycles) && decide (x.cycles ≤ 2000000) && x.port.all fun g => decide (g < 8)
  s.command c { code := 0x08, carrier := .module, body, ready := true, inRecovery := false }
    fun s => (s.modClock fun k => { k with newPer := some x.cycles, gmPort := x.port.getD k.gmPort }, some [])

/-- The clock with the epoch E: the next boundary is the first one after now among E, E + period, and so on, and the tick number becomes that
boundary's (R367). -/
def Clock.withEpoch (k : Clock) (e : Nat) : Clock :=
  let now := k.ptp
  let m := if now < e then 0 else (now - e) / k.period + 1
  { k with
    epoch := some e, n0 := 0, t0 := e, tick := m % 2 ^ 64, renum := true,
    nextAt := k.cycle + (e + m * k.period - now) }

/-- SET of an epoch (R367): refused while a launch is RUNNING or PTP is not locked. -/
def execSetTickEpoch (c : Cmd) (epoch : Nat) (s : State) : Result :=
  s.command c { code := 0x08, carrier := .module, body := decide (epoch < 2 ^ 64), inRecovery := false,
                ready := s.clock.locked && s.launches.all fun l => l.st != .running } fun s =>
    (s.modClock fun k => k.withEpoch epoch, some [])

/-- SET of the watchdog period (R340). -/
def execSetWdt (c : Cmd) (ticks : Nat) (s : State) : Result :=
  s.command c { code := 0x08, carrier := .partition, body := true, ready := true, inRecovery := false } fun s =>
    (s.modPart c.chan fun p => { p with wdt := ticks }, some [])

/-- SET of a snapshot trigger at a named tick (R353). -/
def execSetSnapshotTick (c : Cmd) (tick : Nat) (s : State) : Result :=
  s.command c { code := 0x08, carrier := .partition, body := true, ready := true, inRecovery := false } fun s =>
    (s.modPart c.chan fun p => { p with trigs := p.trigs ++ [.atTick tick] }, some [])

/-- Windows of an endpoint or peer queue (R364): at most 16, with bases and lengths that are multiples of 64 KiB. -/
def windowsOk (ws : List Window) : Bool :=
  decide (ws.length ≤ 16) && ws.all fun w => w.base % 65536 == 0 && w.len % 65536 == 0 && decide (w.base + w.len ≤ 2 ^ 46)

/-- The windows of a GLOBAL space, an endpoint or a peer queue, or none where it does not exist (R363, R364). -/
def Part.windowsOf (p : Part) (o : WindowOf) : Option (List Window) :=
  match o with
  | .global => some p.windows
  | .endpoint i => (p.endpoints.find? fun e => e.id == i).map (·.windows)
  | .peer i => (p.peers.find? fun e => e.id == i).map (·.windows)

/-- Changes them. -/
def Part.setWindows (p : Part) (o : WindowOf) (f : List Window → List Window) : Part :=
  match o with
  | .global => { p with windows := f p.windows }
  | .endpoint i => { p with endpoints := modWhere (fun e => e.id == i) (fun e => { e with windows := f e.windows }) p.endpoints }
  | .peer i => { p with peers := modWhere (fun e => e.id == i) (fun e => { e with windows := f e.windows }) p.peers }

/-- What a BIND asks for is within the rules (R348, R364, R366). -/
def Part.bindOk (p : Part) (b : BindReq) : Bool :=
  match b with
  | .endpoint i rev ws => decide (i < 16) && rev == 1 && windowsOk ws && p.endpoints.all fun e => e.id != i
  | .dropEndpoint i => p.endpoints.any fun e => e.id == i
  | .queue i rev ws => decide (i < 64) && rev == 1 && windowsOk ws && p.peers.all fun e => e.id != i
  | .dropQueue i => p.peers.any fun e => e.id == i
  | .peerSet n qs => decide (1 ≤ n) && decide (n ≤ 65535) && decide (1 ≤ qs.length) && decide (qs.length ≤ 64) &&
      (alGet p.peerSets n).isNone && (qs.drop 1).all fun q => p.peers.any fun e => e.id == q
  | .dropPeerSet n => (alGet p.peerSets n).isSome
  | .replicaSet n size index => decide (1 ≤ n) && decide (n ≤ 65535) && decide (2 ≤ size) && decide (size ≤ 8) && decide (index < size) &&
      p.replicas.all fun r => r.id != n
  | .dropReplicaSet n => p.replicas.any fun r => r.id == n
  | .window o w => (p.windowsOf o).any fun ws => windowsOk (ws ++ [w]) && !ws.contains w
  | .dropWindow o w => (p.windowsOf o).any fun ws => ws.contains w

/-- What a BIND makes or takes away. -/
def Part.bindDo (p : Part) (b : BindReq) : Part :=
  match b with
  | .endpoint id rev windows => { p with endpoints := p.endpoints ++ [{ id, rev, windows }] }
  | .dropEndpoint i => { p with endpoints := p.endpoints.filter fun e => e.id != i }
  | .queue id rev windows => { p with peers := p.peers ++ [{ id, rev, windows }] }
  | .dropQueue i => { p with peers := p.peers.filter fun e => e.id != i }
  | .peerSet n qs => { p with peerSets := p.peerSets ++ [(n, qs)] }
  | .dropPeerSet n => { p with peerSets := alDel p.peerSets n }
  | .replicaSet id size index => { p with replicas := p.replicas ++ [{ id, size, index }] }
  | .dropReplicaSet n => { p with replicas := p.replicas.filter fun r => r.id != n }
  | .window o w => p.setWindows o fun ws => ws ++ [w]
  | .dropWindow o w => p.setWindows o fun ws => ws.erase w

/-- BIND (R364, R365). -/
def execBind (c : Cmd) (b : BindReq) (s : State) : Result :=
  s.command c { code := 0x09, carrier := .partition, body := (s.part c.chan).bindOk b, ready := true, inRecovery := false } fun s =>
    (s.modPart c.chan fun p => p.bindDo b, some [])

/-- HANDLER (R152, R332): registers the handler's launch record and the base of the trap log; a record of zeros registers none. -/
def execHandler (c : Cmd) (rec_ : Vec) (logBase : Nat) (s : State) : Result :=
  s.command c { code := 0x0A, carrier := .partition, body := logBase % 64 == 0 && decide (logBase < 2 ^ 46), ready := true, inRecovery := false } fun s =>
    (s.modPart c.chan fun p => { p with
      handler := if rec_ = 0 then none else some rec_, logBase := some logBase,
      logCount := if p.logBase = some logBase then p.logCount else 0 }, some [])

/-- RECLAIM (R362, R365): every stash entry of the partition is dropped. -/
def execReclaim (c : Cmd) (s : State) : Result :=
  s.command c { code := 0x0B, carrier := .partition, body := true, ready := true, inRecovery := false } fun s =>
    ({ s with stash := s.stash.filter fun e => e.part != c.chan }, some [])

/-! ## Bring-up and reset (R368 to R370) -/

/-- The module with the given power after a reset: flash stays, and everything else is as `State.afterReset` says. The model's own count of free
choices goes on. -/
def State.cleared (s : State) (power : Bool) : State := { State.afterReset s.flash with power, stepNo := s.stepNo }

/-- The bank that BOOTSRC selects (R368). -/
def Flash.bank (f : Flash) (bootsrc : Bool) : FlashBank := if bootsrc then f.bankB else f.bankA

/-- Stages verified before the first failure, 0 to 3; the record verifies under the operator key that the signed die map enrols (R368, R369). -/
def Flash.verified (f : Flash) (bootsrc : Bool) : Nat :=
  let b := f.bank bootsrc
  if !b.stage1Ok then 0 else if !b.ridgeOk then 1 else if !f.mapOk ∨ b.recordKey = 0 ∨ b.recordKey ≠ f.opKey then 2 else 3

/-- The key that a record gives a channel; where it is a new one, the channel's count of SEQ starts at 0 (R365). -/
def Flash.enrol (f : Flash) (chan : Nat) (key : PubKey) : Flash :=
  if alGet f.seqKey chan = some key then f else { f with lastSeq := alSet f.lastSeq chan 0, seqKey := alSet f.seqKey chan key }

/-- MODULE_RESET (R365, R368 to R370): the straps are read and the stages of the selected bank verified in order, each extending the measurement; a
failure, or RECOV, leaves the module in recovery. The record takes effect once it is verified, and tick 0 begins then. The module channel has its key
in recovery too (DESIGN CHOICE, log entry 33). -/
def execModuleReset (modpos : BitVec 6) (bootsrc recov : Bool) (s : State) : Result :=
  let b := s.flash.bank bootsrc
  let n := if recov then 0 else s.flash.verified bootsrc
  let s1 := (b.digests.take n).foldl (fun (s : State) d => s.extend (vecBytes d)) (s.cleared true)
  let boot := { s1.boot with stage := n, recovery := n != 3, modpos, bootsrc, recov, crec := n == 3, modKey := b.modKey }
  let flash := if n = 3 then b.record.foldl (fun f p => f.enrol p.1 p.2.key) (s1.flash.enrol moduleChan b.modKey) else s1.flash
  .next { s1 with boot, flash, cfg := if n = 3 then b.record else [] }

/-- POWER_LOSS (R371): no state is kept but flash. -/
def execPowerLoss (s : State) : Result := .next (s.cleared false)

/-- THERMAL_SHUTDOWN (R371): the module powers off without writing records. -/
def execThermalShutdown (s : State) : Result := .next (s.cleared false)

/-- THERMAL_THROTTLE (R371): a hot die skips cycles, which changes timing only. -/
def execThermalThrottle (die : Nat) (hot : Bool) (s : State) : Result :=
  let rest := s.throttle.filter fun d => d != die
  .next { s with throttle := if hot then rest ++ [die] else rest }

/-- FUNCTION_READY (R368): after the record is verified, a function sets its READY bit. -/
def execFunctionReady (f : ReadyFn) (s : State) : Result :=
  if !s.boot.crec then .next s
  else .next (match f with
    | .die d => if s.dieEnabled d then { s with boot := { s.boot with dieReady := s.boot.dieReady ||| BitVec.ofNat 64 (2 ^ d) } } else s
    | .stack i => if i < 24 then { s with boot := { s.boot with hbm := s.boot.hbm ||| BitVec.ofNat 24 (2 ^ i) } } else s
    | .port j => if j < 8 then { s with boot := { s.boot with port := s.boot.port ||| BitVec.ofNat 8 (2 ^ j) } } else s
    | .attestKey => { s with boot := { s.boot with akey := true } })

/-! ## MEMORY_SCRUB (R227, R329) -/

/-- The partition whose home range holds a physical address, else partition 0 (DESIGN CHOICE, log entry 46). -/
def State.partOfPa (s : State) (pa : Nat) : Nat :=
  match s.cfg.find? fun e => decide (e.2.homeBase ≤ pa) && decide (pa < e.2.homeBase + e.2.homeLen) with
  | some e => e.1
  | none => 0

/-- MEMORY_SCRUB (R227, R329): a single-bit error is corrected and counted by its stack; an uncorrectable one is a record with LID 0. -/
def execMemoryScrub (granule : Nat) (err : SoftErr) (s : State) : Result :=
  let pa := granule * 64
  if hbmSize ≤ pa then .next s
  else match err with
    | .clean => .next s
    | .single => .next { s with softErr := alAdd s.softErr (2 ^ 20 + granule % 24) 1 }
    | .double => .next (s.formTrap (s.mkTrap (s.partOfPa pa) 0 0 0 .memoryUncorrectable 0 0 (BitVec.ofNat 64 pa))).1

end Sys2Proof.Machine
end

