-- ==== Sys2Proof/Machine/Dispatch.lean ====
section
/-! DEFINITION. One arm per operation: each calls the one definition of its meaning. -/

namespace Sys2Proof.Machine

/-- The effect of one operation on the state. An instruction acts at the slot that `State.focus` names. -/
def exec (i : Instr) (s : State) : Host.Outcome State Fault Refusal :=
  match i with
  | .nop p => Sys2Proof.Machine.execNop p s
  | .lit p t a b v => Sys2Proof.Machine.execLit p t a b v s
  | .imm p t a ix => Sys2Proof.Machine.execImm p t a ix s
  | .mov p v a b => Sys2Proof.Machine.execMov p v a b s
  | .sel p v a b => Sys2Proof.Machine.execSel p v a b s
  | .rdk p a x n => Sys2Proof.Machine.execRdk p a x n s
  | .wrk p x n => Sys2Proof.Machine.execWrk p x n s
  | .rdsr p a r => Sys2Proof.Machine.execRdsr p a r s
  | .wrsr p r => Sys2Proof.Machine.execWrsr p r s
  | .br p w => Sys2Proof.Machine.execBr p w s
  | .bri p => Sys2Proof.Machine.execBri p s
  | .exit p n => Sys2Proof.Machine.execExit p n s
  | .exitv p => Sys2Proof.Machine.execExitv p s
  | .retire p => Sys2Proof.Machine.execRetire p s
  | .trap p c => Sys2Proof.Machine.execTrap p c s
  | .yield p => Sys2Proof.Machine.execYield p s
  | .xop p n a b => Sys2Proof.Machine.execXop p n a b s
  | .xopLoad p => Sys2Proof.Machine.execXopLoad p s
  | .add p t a b => Sys2Proof.Machine.execAdd p t a b s
  | .sub p t a b => Sys2Proof.Machine.execSub p t a b s
  | .addi p t a ix => Sys2Proof.Machine.execAddi p t a ix s
  | .mul p t a b => Sys2Proof.Machine.execMul p t a b s
  | .mulh p t a b => Sys2Proof.Machine.execMulh p t a b s
  | .mad p t a b => Sys2Proof.Machine.execMad p t a b s
  | .div p t a b => Sys2Proof.Machine.execDiv p t a b s
  | .rem p t a b => Sys2Proof.Machine.execRem p t a b s
  | .neg p t a b => Sys2Proof.Machine.execNeg p t a b s
  | .abs p t a b => Sys2Proof.Machine.execAbs p t a b s
  | .min p t a b => Sys2Proof.Machine.execMin p t a b s
  | .max p t a b => Sys2Proof.Machine.execMax p t a b s
  | .clamp p t a b => Sys2Proof.Machine.execClamp p t a b s
  | .and p t a b => Sys2Proof.Machine.execAnd p t a b s
  | .or p t a b => Sys2Proof.Machine.execOr p t a b s
  | .xor p t a b => Sys2Proof.Machine.execXor p t a b s
  | .not p t a b => Sys2Proof.Machine.execNot p t a b s
  | .andn p t a b => Sys2Proof.Machine.execAndn p t a b s
  | .shl p t a b => Sys2Proof.Machine.execShl p t a b s
  | .shr p t a b => Sys2Proof.Machine.execShr p t a b s
  | .sar p t a b => Sys2Proof.Machine.execSar p t a b s
  | .rot p t a b => Sys2Proof.Machine.execRot p t a b s
  | .shli p t a ix => Sys2Proof.Machine.execShli p t a ix s
  | .shri p t a ix => Sys2Proof.Machine.execShri p t a ix s
  | .sari p t a ix => Sys2Proof.Machine.execSari p t a ix s
  | .clz p t a b => Sys2Proof.Machine.execClz p t a b s
  | .ctz p t a b => Sys2Proof.Machine.execCtz p t a b s
  | .popc p t a b => Sys2Proof.Machine.execPopc p t a b s
  | .bfx p t a b => Sys2Proof.Machine.execBfx p t a b s
  | .bfi p t a b => Sys2Proof.Machine.execBfi p t a b s
  | .sext p t a b => Sys2Proof.Machine.execSext p t a b s
  | .zext p t a b => Sys2Proof.Machine.execZext p t a b s
  | .cmpeq p t a b => Sys2Proof.Machine.execCmpeq p t a b s
  | .cmpne p t a b => Sys2Proof.Machine.execCmpne p t a b s
  | .cmplt p t a b => Sys2Proof.Machine.execCmplt p t a b s
  | .cmple p t a b => Sys2Proof.Machine.execCmple p t a b s
  | .cmpeqi p t a ix => Sys2Proof.Machine.execCmpeqi p t a ix s
  | .cmplti p t a ix => Sys2Proof.Machine.execCmplti p t a ix s
  | .testb p a ix => Sys2Proof.Machine.execTestb p a ix s
  | .pnot p a b => Sys2Proof.Machine.execPnot p a b s
  | .pand p a b => Sys2Proof.Machine.execPand p a b s
  | .por p a b => Sys2Proof.Machine.execPor p a b s
  | .lea p sx a b => Sys2Proof.Machine.execLea p sx a b s
  | .ptag p a b => Sys2Proof.Machine.execPtag p a b s
  | .pspc p a b => Sys2Proof.Machine.execPspc p a b s
  | .pown p a b => Sys2Proof.Machine.execPown p a b s
  | .padd p sx a ix => Sys2Proof.Machine.execPadd p sx a ix s
  | .poff p a b => Sys2Proof.Machine.execPoff p a b s
  | .fadd p t a b => Sys2Proof.Machine.execFadd p t a b s
  | .fsub p t a b => Sys2Proof.Machine.execFsub p t a b s
  | .fmul p t a b => Sys2Proof.Machine.execFmul p t a b s
  | .ffma p t a b => Sys2Proof.Machine.execFfma p t a b s
  | .fdiv p t a b => Sys2Proof.Machine.execFdiv p t a b s
  | .fmin p t a b => Sys2Proof.Machine.execFmin p t a b s
  | .fmax p t a b => Sys2Proof.Machine.execFmax p t a b s
  | .fabs p t a b => Sys2Proof.Machine.execFabs p t a b s
  | .fneg p t a b => Sys2Proof.Machine.execFneg p t a b s
  | .fsqrt p t a b => Sys2Proof.Machine.execFsqrt p t a b s
  | .frcp p t a b => Sys2Proof.Machine.execFrcp p t a b s
  | .frsq p t a b => Sys2Proof.Machine.execFrsq p t a b s
  | .fex2 p t a b => Sys2Proof.Machine.execFex2 p t a b s
  | .flg2 p t a b => Sys2Proof.Machine.execFlg2 p t a b s
  | .fcls p t a b => Sys2Proof.Machine.execFcls p t a b s
  | .cvt p t a sx => Sys2Proof.Machine.execCvt p t a sx s
  | .fcmpeq p t a b => Sys2Proof.Machine.execFcmpeq p t a b s
  | .fcmplt p t a b => Sys2Proof.Machine.execFcmplt p t a b s
  | .fcmple p t a b => Sys2Proof.Machine.execFcmple p t a b s
  | .fcmpun p t a b => Sys2Proof.Machine.execFcmpun p t a b s
  | .peek p t a v h o => Sys2Proof.Machine.execPeek p t a v h o s
  | .poke p v h o => Sys2Proof.Machine.execPoke p v h o s
  | .advr p d h n => Sys2Proof.Machine.execAdvr p d h n s
  | .advw p d h n => Sys2Proof.Machine.execAdvw p d h n s
  | .anti p d h n => Sys2Proof.Machine.execAnti p d h n s
  | .hcnt p a h => Sys2Proof.Machine.execHcnt p a h s
  | .hfree p a h => Sys2Proof.Machine.execHfree p a h s
  | .tkind p a h o => Sys2Proof.Machine.execTkind p a h o s
  | .emit p k v h o => Sys2Proof.Machine.execEmit p k v h o s
  | .peekt p t a v h o => Sys2Proof.Machine.execPeekt p t a v h o s
  | .poket p v h o => Sys2Proof.Machine.execPoket p v h o s
  | .rngc p v sx a b => Sys2Proof.Machine.execRngc p v sx a b s
  | .vadd p t a b => Sys2Proof.Machine.execVadd p t a b s
  | .vsub p t a b => Sys2Proof.Machine.execVsub p t a b s
  | .vmul p t a b => Sys2Proof.Machine.execVmul p t a b s
  | .vfma p t a b => Sys2Proof.Machine.execVfma p t a b s
  | .vmin p t a b => Sys2Proof.Machine.execVmin p t a b s
  | .vmax p t a b => Sys2Proof.Machine.execVmax p t a b s
  | .vabs p t a b => Sys2Proof.Machine.execVabs p t a b s
  | .vneg p t a b => Sys2Proof.Machine.execVneg p t a b s
  | .vand p a b => Sys2Proof.Machine.execVand p a b s
  | .vor p a b => Sys2Proof.Machine.execVor p a b s
  | .vxor p a b => Sys2Proof.Machine.execVxor p a b s
  | .vshl p t a b => Sys2Proof.Machine.execVshl p t a b s
  | .vshr p t a b => Sys2Proof.Machine.execVshr p t a b s
  | .vsar p t a b => Sys2Proof.Machine.execVsar p t a b s
  | .vcmpeq p t a b => Sys2Proof.Machine.execVcmpeq p t a b s
  | .vcmplt p t a b => Sys2Proof.Machine.execVcmplt p t a b s
  | .vcmple p t a b => Sys2Proof.Machine.execVcmple p t a b s
  | .vsel p t a b => Sys2Proof.Machine.execVsel p t a b s
  | .vbcast p t a b => Sys2Proof.Machine.execVbcast p t a b s
  | .vext p t a b => Sys2Proof.Machine.execVext p t a b s
  | .vins p t a b => Sys2Proof.Machine.execVins p t a b s
  | .vperm p t a b => Sys2Proof.Machine.execVperm p t a b s
  | .vshuf p t a b => Sys2Proof.Machine.execVshuf p t a b s
  | .vred p t a m o => Sys2Proof.Machine.execVred p t a m o s
  | .vscan p t a b => Sys2Proof.Machine.execVscan p t a b s
  | .vcvt p t a sx q c => Sys2Proof.Machine.execVcvt p t a sx q c s
  | .vex2 p t a b => Sys2Proof.Machine.execVex2 p t a b s
  | .vrcp p t a b => Sys2Proof.Machine.execVrcp p t a b s
  | .vrsq p t a b => Sys2Proof.Machine.execVrsq p t a b s
  | .vtopk p t a x k => Sys2Proof.Machine.execVtopk p t a x k s
  | .vcmprs p t a b => Sys2Proof.Machine.execVcmprs p t a b s
  | .vexpnd p t a b => Sys2Proof.Machine.execVexpnd p t a b s
  | .vdot p t a m c => Sys2Proof.Machine.execVdot p t a m c s
  | .viota p t a b => Sys2Proof.Machine.execViota p t a b s
  | .vcnt p t a b => Sys2Proof.Machine.execVcnt p t a b s
  | .lglen p a e w => Sys2Proof.Machine.execLglen p a e w s
  | .lgpack p a ix o => Sys2Proof.Machine.execLgpack p a ix o s
  | .lgdone p a b => Sys2Proof.Machine.execLgdone p a b s
  | .bmv p a => Sys2Proof.Machine.execBmv p a s
  | .bmm p a q => Sys2Proof.Machine.execBmm p a q s
  | .ldl p t a b => Sys2Proof.Machine.execLdl p t a b s
  | .stl p t => Sys2Proof.Machine.execStl p t s
  | .ldlv p c w a b => Sys2Proof.Machine.execLdlv p c w a b s
  | .stlv p sx => Sys2Proof.Machine.execStlv p sx s
  | .feset p q => Sys2Proof.Machine.execFeset p q s
  | .feclr p q => Sys2Proof.Machine.execFeclr p q s
  | .fetest p q a b => Sys2Proof.Machine.execFetest p q a b s
  | .ldg p t a d m => Sys2Proof.Machine.execLdg p t a d m s
  | .stg p t a b => Sys2Proof.Machine.execStg p t a b s
  | .ldgv p d m a b => Sys2Proof.Machine.execLdgv p d m a b s
  | .stgv p m a b => Sys2Proof.Machine.execStgv p m a b s
  | .gath p t a b => Sys2Proof.Machine.execGath p t a b s
  | .scat p t a b => Sys2Proof.Machine.execScat p t a b s
  | .vrcl p a b => Sys2Proof.Machine.execVrcl p a b s
  | .vqry p a b => Sys2Proof.Machine.execVqry p a b s
  | .atom p t a o => Sys2Proof.Machine.execAtom p t a o s
  | .atomr p t a o => Sys2Proof.Machine.execAtomr p t a o s
  | .cas p t a b => Sys2Proof.Machine.execCas p t a b s
  | .vatom p t a o => Sys2Proof.Machine.execVatom p t a o s
  | .faadd p t a r => Sys2Proof.Machine.execFaadd p t a r s
  | .lockt p a b => Sys2Proof.Machine.execLockt p a b s
  | .unlockt p a b => Sys2Proof.Machine.execUnlockt p a b s
  | .qcopy p x e a b => Sys2Proof.Machine.execQcopy p x e a b s
  | .qgath p x e a b => Sys2Proof.Machine.execQgath p x e a b s
  | .qunf p x e a b => Sys2Proof.Machine.execQunf p x e a b s
  | .qwait p a b => Sys2Proof.Machine.execQwait p a b s
  | .qstat p a b => Sys2Proof.Machine.execQstat p a b s
  | .mloadw p a b => Sys2Proof.Machine.execMloadw p a b s
  | .mswap p a b => Sys2Proof.Machine.execMswap p a b s
  | .mma p a b => Sys2Proof.Machine.execMma p a b s
  | .mscale p t a b => Sys2Proof.Machine.execMscale p t a b s
  | .accrd p a b => Sys2Proof.Machine.execAccrd p a b s
  | .accwr p a b => Sys2Proof.Machine.execAccwr p a b s
  | .accz p a b => Sys2Proof.Machine.execAccz p a b s
  | .mpromo p a b => Sys2Proof.Machine.execMpromo p a b s
  | .fscan p a b ih oh d root => Sys2Proof.Machine.execFscan p a b ih oh d root s
  | .fisect p t a v sx => Sys2Proof.Machine.execFisect p t a v sx s
  | .funion p t a v w => Sys2Proof.Machine.execFunion p t a v w s
  | .frep p a b ih oh d => Sys2Proof.Machine.execFrep p a b ih oh d s
  | .fred p t a b ih oh d e o => Sys2Proof.Machine.execFred p t a b ih oh d e o s
  | .fstop p d k h o => Sys2Proof.Machine.execFstop p d k h o s
  | .fchk p d a h o => Sys2Proof.Machine.execFchk p d a h o s
  | .fcrd p d a h o => Sys2Proof.Machine.execFcrd p d a h o s
  | .bar p a b => Sys2Proof.Machine.execBar p a b s
  | .wreg p h a b => Sys2Proof.Machine.execWreg p h a b s
  | .wdrop p a b => Sys2Proof.Machine.execWdrop p a b s
  | .wqry p a b => Sys2Proof.Machine.execWqry p a b s
  | .chsend p a b => Sys2Proof.Machine.execChsend p a b s
  | .chrecv p a b => Sys2Proof.Machine.execChrecv p a b s
  | .chcred p a b => Sys2Proof.Machine.execChcred p a b s
  | .waitv p a b => Sys2Proof.Machine.execWaitv p a b s
  | .tkwait p a b => Sys2Proof.Machine.execTkwait p a b s
  | .tkrd p a b => Sys2Proof.Machine.execTkrd p a b s
  | .cred p a b => Sys2Proof.Machine.execCred p a b s
  | .cbcast p a b => Sys2Proof.Machine.execCbcast p a b s
  | .cgath p a b => Sys2Proof.Machine.execCgath p a b s
  | .fence p sc a b chain st => Sys2Proof.Machine.execFence p sc a b chain st s
  | .launch p a b => Sys2Proof.Machine.execLaunch p a b s
  | .launchi p a b => Sys2Proof.Machine.execLaunchi p a b s
  | .launcht p a b => Sys2Proof.Machine.execLauncht p a b s
  | .splice p a b => Sys2Proof.Machine.execSplice p a b s
  | .lstat p a b => Sys2Proof.Machine.execLstat p a b s
  | .lcancel p a b => Sys2Proof.Machine.execLcancel p a b s
  | .ipf p d => Sys2Proof.Machine.execIpf p d s
  | .ipin p d => Sys2Proof.Machine.execIpin p d s
  | .iunpin p => Sys2Proof.Machine.execIunpin p s
  | .iinv p x => Sys2Proof.Machine.execIinv p x s
  | .thatch p a b => Sys2Proof.Machine.execThatch p a b s
  | .snap p k a b => Sys2Proof.Machine.execSnap p k a b s
  | .digest p a b => Sys2Proof.Machine.execDigest p a b s
  | .statf p a b => Sys2Proof.Machine.execStatf p a b s
  | .firingSelection rank => Sys2Proof.Machine.execFiringSelection rank s
  | .blockQuiescence rank => Sys2Proof.Machine.execBlockQuiescence rank s
  | .firingCancellation rank la => Sys2Proof.Machine.execFiringCancellation rank la s
  | .actorRetirement rank la => Sys2Proof.Machine.execActorRetirement rank la s
  | .flitArrival e err => Sys2Proof.Machine.execFlitArrival e err s
  | .antiTokenArrival e => Sys2Proof.Machine.execAntiTokenArrival e s
  | .joinInputStep rank la => Sys2Proof.Machine.execJoinInputStep rank la s
  | .forkCopy rank la => Sys2Proof.Machine.execForkCopy rank la s
  | .turnTokenIntake rank la => Sys2Proof.Machine.execTurnTokenIntake rank la s
  | .turnTokenPublish rank la => Sys2Proof.Machine.execTurnTokenPublish rank la s
  | .ownerUpdate rank la => Sys2Proof.Machine.execOwnerUpdate rank la s
  | .memoryRequestForward req => Sys2Proof.Machine.execMemoryRequestForward req s
  | .homeBankEvent req err => Sys2Proof.Machine.execHomeBankEvent req err s
  | .waitingRequestPerform req => Sys2Proof.Machine.execWaitingRequestPerform req s
  | .loadAnswer req => Sys2Proof.Machine.execLoadAnswer req s
  | .completionValueDelivery req => Sys2Proof.Machine.execCompletionValueDelivery req s
  | .translationMissDecision req => Sys2Proof.Machine.execTranslationMissDecision req s
  | .invocationEnd lid g => Sys2Proof.Machine.execInvocationEnd lid g s
  | .ldlvWfRelease rank slot => Sys2Proof.Machine.execLdlvWfRelease rank slot s
  | .lockGrant req => Sys2Proof.Machine.execLockGrant req s
  | .unlockRelease req => Sys2Proof.Machine.execUnlockRelease req s
  | .fenceComplete req => Sys2Proof.Machine.execFenceComplete req s
  | .tkwaitRelease rank slot => Sys2Proof.Machine.execTkwaitRelease rank slot s
  | .qwaitRelease rank slot => Sys2Proof.Machine.execQwaitRelease rank slot s
  | .engineCommandEnqueue rank slot => Sys2Proof.Machine.execEngineCommandEnqueue rank slot s
  | .engineCommandExecute die eng => Sys2Proof.Machine.execEngineCommandExecute die eng s
  | .regionFeed die eng => Sys2Proof.Machine.execRegionFeed die eng s
  | .regionCommandEnqueue rank slot => Sys2Proof.Machine.execRegionCommandEnqueue rank slot s
  | .mloadwExecute rg => Sys2Proof.Machine.execMloadwExecute rg s
  | .mscaleExecute rg => Sys2Proof.Machine.execMscaleExecute rg s
  | .mswapExecute rg => Sys2Proof.Machine.execMswapExecute rg s
  | .mmaExecute rg => Sys2Proof.Machine.execMmaExecute rg s
  | .mpromoExecute rg => Sys2Proof.Machine.execMpromoExecute rg s
  | .statfExecute rg => Sys2Proof.Machine.execStatfExecute rg s
  | .accQueuedAccess rg => Sys2Proof.Machine.execAccQueuedAccess rg s
  | .collectiveExecution c => Sys2Proof.Machine.execCollectiveExecution c s
  | .digestComplete rank slot => Sys2Proof.Machine.execDigestComplete rank slot s
  | .thatchVerification => Sys2Proof.Machine.execThatchVerification s
  | .thatchTakeEffect => Sys2Proof.Machine.execThatchTakeEffect s
  | .ridgePlacement part ch => Sys2Proof.Machine.execRidgePlacement part ch s
  | .launchDependenceMet lid => Sys2Proof.Machine.execLaunchDependenceMet lid s
  | .armedClear lid => Sys2Proof.Machine.execArmedClear lid s
  | .reconfActorFinish rank la => Sys2Proof.Machine.execReconfActorFinish rank la s
  | .elementSuccessorInstall rank => Sys2Proof.Machine.execElementSuccessorInstall rank s
  | .launchEnd lid => Sys2Proof.Machine.execLaunchEnd lid s
  | .tickBoundary => Sys2Proof.Machine.execTickBoundary s
  | .tickPeriodChange => Sys2Proof.Machine.execTickPeriodChange s
  | .detQuantumRelease e => Sys2Proof.Machine.execDetQuantumRelease e s
  | .watchdog lid => Sys2Proof.Machine.execWatchdog lid s
  | .trapRecordWrite part => Sys2Proof.Machine.execTrapRecordWrite part s
  | .ridgeTrapNotify part => Sys2Proof.Machine.execRidgeTrapNotify part s
  | .handlerAction part seq => Sys2Proof.Machine.execHandlerAction part seq s
  | .preemptionOpen lid => Sys2Proof.Machine.execPreemptionOpen lid s
  | .markerRecord e => Sys2Proof.Machine.execMarkerRecord e s
  | .cutComplete lid => Sys2Proof.Machine.execCutComplete lid s
  | .preemptionAbandon lid => Sys2Proof.Machine.execPreemptionAbandon lid s
  | .preemptionResume lid => Sys2Proof.Machine.execPreemptionResume lid s
  | .replicaVote part rset dseq => Sys2Proof.Machine.execReplicaVote part rset dseq s
  | .snapshotLatch part external => Sys2Proof.Machine.execSnapshotLatch part external s
  | .bridgeReplay f => Sys2Proof.Machine.execBridgeReplay f s
  | .uePacketReceive k => Sys2Proof.Machine.execUePacketReceive k s
  | .ptpMessage port time => Sys2Proof.Machine.execPtpMessage port time s
  | .load c ptr bytes => Sys2Proof.Machine.execLoad c ptr bytes s
  | .start c body => Sys2Proof.Machine.execStart c body s
  | .stop c lid => Sys2Proof.Machine.execStop c lid s
  | .query c q => Sys2Proof.Machine.execQuery c q s
  | .attest c nonce => Sys2Proof.Machine.execAttest c nonce s
  | .thatchCommand c image => Sys2Proof.Machine.execThatchCommand c image s
  | .mapPage c off level entry => Sys2Proof.Machine.execMapPage c off level entry s
  | .setTickPeriod c period => Sys2Proof.Machine.execSetTickPeriod c period s
  | .setTickEpoch c epoch => Sys2Proof.Machine.execSetTickEpoch c epoch s
  | .setWdt c ticks => Sys2Proof.Machine.execSetWdt c ticks s
  | .setSnapshotTick c tick => Sys2Proof.Machine.execSetSnapshotTick c tick s
  | .bind c b => Sys2Proof.Machine.execBind c b s
  | .handler c rec logBase => Sys2Proof.Machine.execHandler c rec logBase s
  | .reclaim c => Sys2Proof.Machine.execReclaim c s
  | .moduleReset modpos bootsrc recov => Sys2Proof.Machine.execModuleReset modpos bootsrc recov s
  | .powerLoss => Sys2Proof.Machine.execPowerLoss s
  | .thermalThrottle die hot => Sys2Proof.Machine.execThermalThrottle die hot s
  | .thermalShutdown => Sys2Proof.Machine.execThermalShutdown s
  | .functionReady f => Sys2Proof.Machine.execFunctionReady f s
  | .memoryScrub granule err => Sys2Proof.Machine.execMemoryScrub granule err s

end Sys2Proof.Machine
end

