-- ==== Sys2Proof/Machine/Step.lean ====
section
/-! DEFINITION. One step of the module: the next operation of the agenda, or a free choice, with the cycles that pass before it; and
the state in which a given instruction is the next thing to run. -/

namespace Sys2Proof.Machine

/-- The next turn: the head of the agenda, or a free choice (log entry 1). -/
def State.turn (s : State) : Turn := match s.agenda with | t :: _ => t | [] => Config.freeTurn s.stepNo

/-- The state once the next turn is taken off. -/
def State.taken (s : State) : State :=
  match s.agenda with
  | _ :: r => { s with agenda := r }
  | [] => { s with stepNo := s.stepNo + 1 }

/-- The cycle that the clock reaches when some cycles pass; a tick boundary is an operation of its own, so the clock stops short of it (R121). -/
def Clock.after (c : Clock) (dt : Nat) : Nat := Nat.max c.cycle (Nat.min (c.cycle + dt) (c.nextAt - 1))

/-- The clock stands at a cycle. -/
def State.clockTo (s : State) (cycle : Nat) : State := { s with clock := { s.clock with cycle } }

/-- Cycles pass before an operation: what the cycle leaves to its end is done before a later one begins (R316, R353). -/
def State.pass (s : State) (dt : Nat) : State := (s.closeCycle (s.clock.after dt)).clockTo (s.clock.after dt)

/-- Granules of HBM5 that take an uncorrectable error, as the surroundings have it (R227). -/
def State.upset (s : State) (l : List Nat) : State := { s with faulty := s.faulty ++ l.filter fun g => decide (g < hbmSize / 64) && !s.faulty.contains g }

/-- The part's own steps and events; an instruction row has a word and only issues. -/
def isEventRow (i : Instr) : Bool := i.raw.isNone

/-- The state in which a word of a block issues (R163). -/
def State.issued (s : State) (rank id : Nat) : State :=
  let cls := match (s.firing? rank).bind fun f => f.slotAt id with | some sl => sl.cls | none => 0
  { s.modFiring rank (fun f => (f.modSlot id fun sl => { sl with issued := true }).take s.clock.cycle cls) with focus := ⟨rank, id⟩ }

/-- Performs one operation. -/
def State.perform (s : State) (o : Op) : Result :=
  match o with
  | .event i => if isEventRow i then exec i s else .next s
  | .issue rank id =>
    match s.issues rank id with
    | some i => exec i (s.issued rank id)
    | none => .next s

/-- The operation runs when the module has no power (R371). -/
def opWakes : Op → Bool
  | .event (.moduleReset _ _ _) => true
  | _ => false

/-- One step. -/
def step (s : State) : Result :=
  if s.power || opWakes s.turn.op then ((s.taken.upset s.turn.upset).pass s.turn.dt).perform s.turn.op else .fault .poweredOff

/-! ## Placing an instruction -/

/-- An image that holds nothing but room for one actor. -/
def Image.probe : Image :=
  { grade := 64, code := [], starts := [], actors := [ActorDesc.blank], edges := [], shingles := [], nchain := 1024, invm := false,
    ppi := 1, ext := [], nohold := [], initToks := [], keepInit := [], relocs := [], blocks := [], ranges := [(0, 0)], steps := [],
    reps := [1], stages := [0] }

/-- A running launch 1 of partition 0. -/
def Launch.probe : Launch :=
  { lid := 1, part := 0, st := .running, late := false, vany := false, spliced := false, reason := 0, vread := 0,
    recd := BitVec.ofNat 512 (2 ^ 64), params := List.replicate 16 0, img := some Image.probe, segs := [], origins := [(0, 0)],
    shingles := [(0, 0)], cbase := [], armed := none, succ := none, imgIdx := 0, idle := 0, moved := false, headAt := 0,
    handles := none, saved := none, ended := [], atoms := [], engs := [], dieDone := [], timed := false }

/-- Its bind record on die 0. -/
def BindRec.probe : BindRec :=
  { die := 0, slot := 0, lid := 1, g := 0, ngroup := 1, part := 0, prio := 0, iprio := 0, valid := true, matrix := true,
    det := false, armed := false, succ := false, rx := 0, ry := 0, rw := 0, rh := 0, imgp := 0, tickb := 0 }

/-- Slot 0 with the first of some words and a value on each port that its instruction reads, a true or false predicate as it needs. -/
def Slot.probe (ws : List IWord) : Slot :=
  let w := ws.getD 0 0
  let put := fun q => match decodeIns w (ws.getD 1 0) (ws.getD 2 0) with
    | some i => if portUseOf i q = .none then none else some (Value.s 0)
    | none => none
  { id := 0, kind := .ins, word := w, a := put .a, b := put .b, c := put .c, issued := false,
    p := match (Raw.ofWord w).pr with | 0 => none | 1 => some (.s 1) | _ => some (.s 0) }

/-- A firing of the one actor whose block holds the words, the later ones as literals. -/
def Firing.probe (ws : List IWord) : Firing :=
  { Firing.select 0 0 0 false 0 (List.replicate 16 0) none with
    slots := Slot.probe ws :: layOut 1 2 (ws.drop 1) }

/-- The element with that firing. -/
def Elem.probe (ws : List IWord) : Elem :=
  { Elem.empty with
    actors := [Actor.install 1 0 0 ActorDesc.blank 0 (0, 0) 1 (List.replicate 16 0)], firing := some (Firing.probe ws) }

/-- The state with an instruction placed where the next step takes it from: powered and configured, launch 1 of partition 0 running on
element 0, the words in slots 0 to 2 of the block that its firing runs, and their issue next on the agenda (log entry 14: this stands for
bring-up, the load of a configuration, its placement, and the selection of a firing). -/
def State.withFetchWord (s : State) (nbits w : Nat) : State :=
  { s with
    power := true, cfg := (if s.cfg.isEmpty then s.flash.bankA.record else s.cfg), launches := [Launch.probe], binds := [BindRec.probe],
    elems := [(0, Elem.probe (tableWords nbits w))], agenda := [⟨.issue 0 0, 0, []⟩] }

end Sys2Proof.Machine
end

