-- ==== Sys2Proof/Safety.lean ====
section
/-! DEFINITION. What counts as a safe state and a safe step, and the terms in which the statements speak: operands as bit vectors, consumers that
can take a value, what a delivery changes, and what an instruction leaves as it was. -/

namespace Sys2Proof

open Sys2Proof.Machine

/-- The memory is in its one canonical form. -/
def Safety.memOk (s : State) : Prop := Memory.wf s.mem = true

/-- A step goes on: it is neither a fault nor a refusal. -/
def Safety.goesOn (r : Host.Outcome State Fault Refusal) : Prop := ∃ t, r = .next t

/-! ## Integers (R34, R35, R58) -/

/-- The low w bits of the operand on a port. -/
def Safety.opd (s : State) (t : Ty) (q : Port) : BitVec t.width := (s.portS q).setWidth t.width

/-- The number that w bits are in a type: two's complement for an I type, unsigned for an N type. -/
def Safety.num (t : Ty) (x : BitVec t.width) : Int := if t.isSigned then x.toInt else x.toNat

/-- w bits as they stand in a 64-bit value: sign-extended for an I type, zero-extended otherwise. -/
def Safety.ext (t : Ty) (x : BitVec t.width) : Word := if t.isSigned then x.signExtend 64 else x.setWidth 64

/-- The nearest number that a type holds. -/
def Safety.clamp (t : Ty) (x : Int) : Int :=
  if t.isSigned then Max.max (-(2 ^ (t.width - 1)) : Int) (Min.min (2 ^ (t.width - 1) - 1 : Int) x)
  else Max.max 0 (Min.min (2 ^ t.width - 1 : Int) x)

/-- What an integer instruction that takes PFX.SAT delivers for an exact result: the w low bits of it, or the nearest number under PFX.SAT. -/
def Safety.satResult (s : State) (t : Ty) (x : Int) (r : BitVec t.width) : Prop :=
  if s.effSat then Safety.num t r = Safety.clamp t x else r = BitVec.ofInt t.width x

/-! ## Floats (R36) -/

/-- The real number that a finite value is. -/
def Safety.real : FVal → ℚ
  | .num z e => z * (2 : ℚ) ^ e
  | .nan _ | .inf _ | .zero _ => 0

/-- A value is a finite number. -/
def Safety.finite : FVal → Bool
  | .num _ _ | .zero _ => true
  | .nan _ | .inf _ => false

/-- The significant binary digits of a format, with the one that is not stored (R36). -/
def Safety.digits : Ty → Nat
  | .f32 => 24
  | .bf16 => 8
  | .f16 => 11
  | .e4m3 => 4
  | .e5m2 => 3
  | .i8 | .n8 | .i16 | .n16 | .i32 | .n32 | .i64 | .n64 | .i4 | .n4 => 0

/-- The exponent of the smallest subnormal number of a format (R36). -/
def Safety.lowest : Ty → Int
  | .f32 => -149
  | .bf16 => -133
  | .f16 => -24
  | .e4m3 => -9
  | .e5m2 => -16
  | .i8 | .n8 | .i16 | .n16 | .i32 | .n32 | .i64 | .n64 | .i4 | .n4 => 0

/-- The smallest normal number of a format (R36). -/
def Safety.smallest : Ty → ℚ
  | .f32 | .bf16 => 2 ^ (-126 : Int)
  | .f16 | .e5m2 => 2 ^ (-14 : Int)
  | .e4m3 => 2 ^ (-6 : Int)
  | .i8 | .n8 | .i16 | .n16 | .i32 | .n32 | .i64 | .n64 | .i4 | .n4 => 0

/-- The largest finite number of a format (R36). -/
def Safety.largest : Ty → ℚ
  | .f32 => (2 - 2 ^ (-23 : Int)) * 2 ^ 127
  | .bf16 => (2 - 2 ^ (-7 : Int)) * 2 ^ 127
  | .f16 => 65504
  | .e4m3 => 448
  | .e5m2 => 57344
  | .i8 | .n8 | .i16 | .n16 | .i32 | .n32 | .i64 | .n64 | .i4 | .n4 => 0

/-- A format would hold a real if its exponents had no upper bound (R40). -/
def Safety.fits (t : Ty) (y : ℝ) : Prop := ∃ z e : Int, y = z * 2 ^ e ∧ |z| < 2 ^ digits t ∧ lowest t ≤ e

/-- It would hold it with an even significand (R39). -/
def Safety.fitsEven (t : Ty) (y : ℝ) : Prop := ∃ z e : Int, y = (2 * z : Int) * 2 ^ e ∧ |2 * z| < 2 ^ digits t ∧ lowest t ≤ e

/-- The value of a format that is nearest a real under a mode, with no upper bound on its exponents (R39, R40). -/
def Safety.nearest (t : Ty) (mode : Rnd) (x y : ℝ) : Prop :=
  fits t y ∧ match mode with
  | .rne => ∀ z, fits t z → |x - y| < |x - z| ∨ z = y ∨ (|x - y| = |x - z| ∧ fitsEven t y)
  | .rtz => |y| ≤ |x| ∧ 0 ≤ x * y ∧ ∀ z, fits t z → |z| ≤ |x| → |z| ≤ |y|
  | .rdn => y ≤ x ∧ ∀ z, fits t z → z ≤ x → z ≤ y
  | .rup => x ≤ y ∧ ∀ z, fits t z → x ≤ z → y ≤ z

/-- An encoding of a finite number. -/
def Safety.encodes (t : Ty) (n : Nat) (y : ℝ) : Prop := n < 2 ^ t.width ∧ finite (floatOf t n) = true ∧ (real (floatOf t n) : ℝ) = y

/-- The overflow results of R40. -/
def Safety.overflowed (t : Ty) (mode : Rnd) (sat neg : Bool) (n : Nat) : Prop :=
  let greatest := encodes t n (if neg then -largest t else largest t : ℚ)
  let infinite := n < 2 ^ t.width ∧ floatOf t n = .inf neg
  if sat then greatest
  else if t = .e4m3 then n = 0x7F
  else match mode, neg with
    | .rne, _ | .rdn, true | .rup, false => infinite
    | .rtz, _ | .rdn, false | .rup, true => greatest

/-- What R40 makes of the real x once it is rounded to y: the encoding and the flags. -/
def Safety.settles (t : Ty) (mode : Rnd) (sat : Bool) (x y : ℝ) (n : Nat) (fl : Flags) : Prop :=
  (largest t < |y| → fl = flOverflow ||| flInexact ∧ (x < 0 → overflowed t mode sat true n) ∧ (0 < x → overflowed t mode sat false n)) ∧
  (|y| ≤ largest t →
    (y ≠ 0 → encodes t n y) ∧ (y = 0 → n < 2 ^ t.width ∧ (x < 0 → floatOf t n = .zero true) ∧ (0 < x → floatOf t n = .zero false)) ∧
    (y = x → fl = 0) ∧ (y ≠ x → smallest t ≤ |y| → fl = flInexact) ∧ (y ≠ x → |y| < smallest t → fl = flInexact ||| flUnderflow))

/-- An exact result before it is rounded: no number, an infinity, a zero with its sign, a number that is not 0, or the square root of one. -/
inductive Safety.Exact where
  | nan
  | inf (neg : Bool)
  | zero (neg : Bool)
  | num (q : ℚ)
  | root (q : ℚ)
  deriving DecidableEq

/-- `round_to` of an exact result (R37, R40), in a format with infinities or of a result that is none. -/
def Safety.rounds (t : Ty) (mode : Rnd) (sat : Bool) (v : Exact) (n : Nat) (fl : Flags) : Prop :=
  match v with
  | .nan => n = canonNan t ∧ fl = 0
  | .inf neg =>
    if t = .e4m3 then overflowed t mode sat neg n ∧ fl = flOverflow ||| flInexact else n < 2 ^ t.width ∧ floatOf t n = .inf neg ∧ fl = 0
  | .zero neg => n < 2 ^ t.width ∧ floatOf t n = .zero neg ∧ fl = 0
  | .num q => ∃ y, nearest t mode q y ∧ settles t mode sat q y n fl
  | .root q => ∃ y, nearest t mode (Real.sqrt q) y ∧ settles t mode sat (Real.sqrt q) y n fl

/-- An exact number: a zero takes the sign given. -/
def Safety.exactly (q : ℚ) (neg : Bool) : Exact := if q = 0 then .zero neg else .num q

/-- A value as an exact result. -/
def Safety.asExact : FVal → Exact
  | .nan _ => .nan
  | .inf n => .inf n
  | .zero n => .zero n
  | .num z e => .num (real (.num z e))

/-- The sign of an exact zero sum of two values of these signs (R38). -/
def Safety.zeroSign (mode : Rnd) (m n : Bool) : Bool := if m = n then m else mode == .rdn

/-- The exact sum, and the flags of the operation (R38, R45); of the difference where the second operand is negated. -/
def Safety.sum (mode : Rnd) (negate : Bool) (x y : FVal) : Exact × Flags :=
  match x, y with
  | .nan _, _ | _, .nan _ => (.nan, 0)
  | .inf m, .inf n => if m = xor n negate then (.inf m, 0) else (.nan, flInvalid)
  | .inf m, .zero _ | .inf m, .num _ _ => (.inf m, 0)
  | .zero _, .inf n | .num _ _, .inf n => (.inf (xor n negate), 0)
  | .zero _, .zero _ | .zero _, .num _ _ | .num _ _, .zero _ | .num _ _, .num _ _ =>
    (exactly (if negate then real x - real y else real x + real y) (zeroSign mode x.neg (xor y.neg negate)), 0)

/-- The exact product (R45). -/
def Safety.product (x y : FVal) : Exact × Flags :=
  let n := xor x.neg y.neg
  match x, y with
  | .nan _, _ | _, .nan _ => (.nan, 0)
  | .inf _, .zero _ | .zero _, .inf _ => (.nan, flInvalid)
  | .inf _, .inf _ | .inf _, .num _ _ | .num _ _, .inf _ => (.inf n, 0)
  | .zero _, .zero _ | .zero _, .num _ _ | .num _ _, .zero _ | .num _ _, .num _ _ => (exactly (real x * real y) n, 0)

/-- The exact value of x × y + z (R45): infinity times zero is invalid even beside a NaN. -/
def Safety.fused (mode : Rnd) (x y z : FVal) : Exact × Flags :=
  let n := xor x.neg y.neg
  match (product x y).1, z with
  | .nan, _ => product x y
  | _, .nan _ => (.nan, 0)
  | .inf _, .inf m => if n = m then (.inf n, 0) else (.nan, flInvalid)
  | .inf _, .zero _ | .inf _, .num _ _ => (.inf n, 0)
  | .zero _, .inf m | .num _, .inf m | .root _, .inf m => (.inf m, 0)
  | .zero _, .zero _ | .zero _, .num _ _ | .num _, .zero _ | .num _, .num _ _ | .root _, .zero _ | .root _, .num _ _ =>
    (exactly (real x * real y + real z) (zeroSign mode n z.neg), 0)

/-- The exact quotient (R45). -/
def Safety.quotient (x y : FVal) : Exact × Flags :=
  let n := xor x.neg y.neg
  match x, y with
  | .nan _, _ | _, .nan _ => (.nan, 0)
  | .inf _, .inf _ | .zero _, .zero _ => (.nan, flInvalid)
  | .inf _, .zero _ | .inf _, .num _ _ => (.inf n, 0)
  | .zero _, .inf _ | .num _ _, .inf _ | .zero _, .num _ _ => (.zero n, 0)
  | .num _ _, .zero _ => (.inf n, flDivZero)
  | .num _ _, .num _ _ => (.num (real x / real y), 0)

/-- The exact square root (R45). -/
def Safety.squareRoot : FVal → Exact × Flags
  | .nan _ => (.nan, 0)
  | .zero n => (.zero n, 0)
  | .inf n => if n then (.nan, flInvalid) else (.inf false, 0)
  | .num z e => if z < 0 then (.nan, flInvalid) else (.root (real (.num z e)), 0)

/-- The exact reciprocal of the square root (R45). -/
def Safety.inverseRoot : FVal → Exact × Flags
  | .nan _ => (.nan, 0)
  | .zero n => (.inf n, flDivZero)
  | .inf n => if n then (.nan, flInvalid) else (.zero false, 0)
  | .num z e => if z < 0 then (.nan, flInvalid) else (.root (1 / real (.num z e)), 0)

/-- A rounded result with every flag of it: those of the rounding, of the operation and of signalling operands (R37, R43). -/
def Safety.gives (t : Ty) (mode : Rnd) (sat : Bool) (v : Exact × Flags) (sig : Flags) (n : Nat) (fl : Flags) : Prop :=
  ∃ r, rounds t mode sat v.1 n r ∧ fl = r ||| v.2 ||| sig

/-- The numeric order of values; none with a NaN (R197). -/
def Safety.less (x y : FVal) : Bool :=
  match x, y with
  | .nan _, _ | _, .nan _ => false
  | .inf m, .inf n => m && !n
  | .inf m, .zero _ | .inf m, .num _ _ => m
  | .zero _, .inf n | .num _ _, .inf n => !n
  | .zero _, .zero _ | .zero _, .num _ _ | .num _ _, .zero _ | .num _ _, .num _ _ => decide (real x < real y)

/-- The order of minima and maxima, in which −0 stands below +0 (R195). -/
def Safety.below (x y : FVal) : Bool := less x y || (x == .zero true && y == .zero false)

/-- The minimum l and the maximum h of two encodings (R195). -/
def Safety.ordered (t : Ty) (a b l h : BitVec t.width) : Prop :=
  let x := floatOf t a.toNat
  let y := floatOf t b.toNat
  (x.isNan = true → y.isNan = true → l = BitVec.ofNat _ (canonNan t) ∧ h = l) ∧
  (x.isNan = true → y.isNan = false → l = b ∧ h = b) ∧ (x.isNan = false → y.isNan = true → l = a ∧ h = a) ∧
  (x.isNan = false → y.isNan = false → (below x y = true → l = a ∧ h = b) ∧ (below x y = false → l = b ∧ h = a))

/-- The integer that a number is rounded to under a mode (R39, R41). -/
def Safety.nearInt (mode : Rnd) (q : ℚ) (r : Int) : Prop :=
  match mode with
  | .rne => 2 * |q - r| ≤ 1 ∧ (2 * |q - r| = 1 → r % 2 = 0)
  | .rtz => r = if q < 0 then ⌈q⌉ else ⌊q⌋
  | .rdn => r = ⌊q⌋
  | .rup => r = ⌈q⌉

/-- A float that is converted to an integer type (R41). -/
def Safety.toInteger (t : Ty) (mode : Rnd) (x : FVal) (r : BitVec t.width) (fl : Flags) : Prop :=
  match x with
  | .nan _ => r = 0 ∧ fl = flInvalid
  | .inf neg => fl = flInvalid ∧ ∀ q : BitVec t.width, if neg then num t r ≤ num t q else num t q ≤ num t r
  | .zero _ => r = 0 ∧ fl = 0
  | .num _ _ => ∃ k, nearInt mode (real x) k ∧ num t r = clamp t k ∧
    fl = if clamp t k ≠ k then flInvalid else if real x = k then 0 else flInexact

/-- A conversion between two types, as CVT makes it (R41, R198). -/
def Safety.converts (s : State) (d src : Ty) (x : BitVec src.width) (r : BitVec d.width) (fl : Flags) : Prop :=
  let v := floatOf src x.toNat
  if src.isFloat then
    if d.isFloat then gives d s.effMode s.effSat (asExact v, 0) v.sigFlag r.toNat fl else toInteger d s.effMode v r fl
  else if d.isFloat then rounds d s.effMode s.effSat (exactly (num src x) false) r.toNat fl
  else satResult s d (num src x) r ∧ fl = 0

/-- Stochastic rounding of a value with a random number (R42). -/
def Safety.dithers (t : Ty) (sat : Bool) (x : FVal) (rand : Nat) (n : Nat) (fl : Flags) : Prop :=
  match x with
  | .nan _ | .inf _ | .zero _ => gives t .rtz sat (asExact x, 0) x.sigFlag n fl
  | .num _ _ =>
    let a : ℝ := |real x|
    ∃ y : ℝ, (fits t a → y = a) ∧
      (¬ fits t a → ∃ lo hi : ℝ, fits t lo ∧ fits t hi ∧ lo < a ∧ a < hi ∧ (∀ z, fits t z → z ≤ lo ∨ hi ≤ z) ∧
        ((rand : Int) < ⌊(a - lo) * 2 ^ 32 / (hi - lo)⌋ → y = hi) ∧ (⌊(a - lo) * 2 ^ 32 / (hi - lo)⌋ ≤ (rand : Int) → y = lo)) ∧
      settles t .rtz sat (real x) (if x.neg then -y else y) n fl

/-- The flags of the first n of some results. -/
def Safety.anyOf (n : Nat) (g : Nat → Flags) : Flags := (List.range n).foldl (fun f i => f ||| g i) 0

/-- Place j of level k of the pairwise tree over x, with the flags under it (R49). -/
def Safety.pairwise (f : Nat → Nat → Nat × Flags) (x : Nat → Nat) : Nat → Nat → Nat × Flags
  | 0, j => (x j, 0)
  | k + 1, j =>
    let l := pairwise f x k (2 * j)
    let r := pairwise f x k (2 * j + 1)
    let z := f l.1 r.1
    (z.1, l.2 ||| r.2 ||| z.2)

/-- An F32 encoding that stands for a lane of a float type in a reduction, with the flags of widening it (R49, R50). -/
def Safety.widens (t : Ty) (x : Nat) (n : Nat) (fl : Flags) : Prop :=
  if t = .f32 then n = x ∧ fl = 0 else gives .f32 .rne false (asExact (floatOf t x), 0) (floatOf t x).sigFlag n fl

/-- The value B of a dot block over 32 pairs of operands under two scale bytes, with its flags (R46). -/
def Safety.blockIs (ea ew : Nat) (x y : Nat → FVal) (n : Nat) (fl : Flags) : Prop :=
  let is := List.range 32
  let p := fun i => (product (x i) (y i)).1
  let clash := is.any fun i => (product (x i) (y i)).2 == flInvalid
  let both := is.any (fun i => p i == .inf true) && is.any fun i => p i == .inf false
  let sig := is.any fun i => x i == .nan true || y i == .nan true
  let q := (2 : ℚ) ^ ((ea : Int) - 127) * 2 ^ ((ew : Int) - 127) * (is.map fun i => real (x i) * real (y i)).sum
  if ea = 255 ∨ ew = 255 ∨ both = true ∨ (is.any fun i => p i == .nan) = true then
    n = 0x7FC00000 ∧ fl = if clash || both || sig then flInvalid else 0
  else if (is.any fun i => p i == .inf true) = true then n = 0xFF800000 ∧ fl = 0
  else if (is.any fun i => p i == .inf false) = true then n = 0x7F800000 ∧ fl = 0
  else rounds .f32 .rne false (exactly q false) n fl

/-! ## Lanes (R53, R191, R193) -/

/-- Lane i of a vector in lanes of a type. -/
def Safety.laneOf (t : Ty) (v : Vec) (i : Nat) : BitVec t.width := v.extractLsb' (t.width * i) t.width

/-- A lane as it is moved: a NaN of a float type becomes the canonical NaN. -/
def Safety.moved (t : Ty) (x : BitVec t.width) : BitVec t.width :=
  if t.isFloat && (floatOf t x.toNat).isNan then BitVec.ofNat t.width (canonNan t) else x

/-- The flag of a moved lane: a signalling NaN of a float type is invalid. -/
def Safety.movedFlag (t : Ty) (x : BitVec t.width) : Flags := if t.isFloat then (floatOf t x.toNat).sigFlag else 0

/-- The key of one lane stands below that of another: every NaN below every number, and −0 below +0 (R204). -/
def Safety.keyBelow (t : Ty) (x y : BitVec t.width) : Bool :=
  let u := floatOf t x.toNat
  let v := floatOf t y.toNat
  if t.isFloat then (u.isNan && !v.isNan) || below u v else decide (num t x < num t y)

/-! ## Delivery (R59, R61, R185) -/

/-- A consumer of the word in a slot takes a value: an empty port of an instruction (a P port only of a word that carries no chain step), a
keep register, an output handle with room at offset 0, or nothing at all. -/
def Safety.free (f : Firing) (d : ActorDesc) (t : Target) : Bool :=
  match t with
  | .slot n q =>
    match f.slotAt n.val with
    | some sl => (sl.port q).isNone && sl.kind == .ins && (q != .p || (f.seqOf n.val).isNone)
    | none => true
  | .out h => decide (0 < handleBound f d h.val)
  | .discard | .keep _ | .orig _ | .reserved _ => true

/-- Two consumers are different ports. -/
def Safety.apart (a b : Target) : Bool := match a with | .slot _ _ => a != b | _ => true

/-- A firing in which the word in slot `id` has delivered a value to a consumer. -/
def Safety.put (id : Nat) (t : Target) (v : Value) (f : Firing) : Firing :=
  match t with
  | .slot n q => (f.feed n.val id).modSlot n.val fun sl => sl.setPort q v
  | .keep n => { f with keepW := f.keepW ++ [{ reg := n.val, entry := f.entry, slot := slotKey id, val := v.scalar }] }
  | .out h =>
    { f with outs := f.outs ++
      [{ h := h.val, off := 0, flit := 0, entry := f.entry, slot := slotKey id, kind := .data, tag := none, pay := v.scalar.setWidth 512 }] }
  | .discard | .orig _ | .reserved _ => f

/-! ## Frames -/

/-- Everything but the memory, the full-empty bits and the firing on one element is as it was. -/
def Safety.onlyFiring (s t : State) (rank : Nat) : Prop :=
  t.power = s.power ∧ t.boot = s.boot ∧ t.flash = s.flash ∧ t.cfg = s.cfg ∧ t.clock = s.clock ∧ t.throttle = s.throttle ∧ t.vers = s.vers ∧
  t.stash = s.stash ∧ t.stashOut = s.stashOut ∧ t.parts = s.parts ∧ t.softErr = s.softErr ∧ t.discards = s.discards ∧ t.edges = s.edges ∧
  t.clusters = s.clusters ∧ t.dieTlb = s.dieTlb ∧ t.chains = s.chains ∧ t.engines = s.engines ∧ t.regions = s.regions ∧
  t.launches = s.launches ∧ t.binds = s.binds ∧ t.reqs = s.reqs ∧ t.locks = s.locks ∧ t.thatch = s.thatch ∧ t.colls = s.colls ∧
  t.digests = s.digests ∧ t.refused = s.refused ∧ t.outbox = s.outbox ∧ t.faulty = s.faulty ∧ t.parked = s.parked ∧ t.inbox = s.inbox ∧ t.serial = s.serial ∧ t.agenda = s.agenda ∧ t.stepNo = s.stepNo ∧
  t.focus = s.focus ∧ (∀ r, r ≠ rank → t.elem r = s.elem r) ∧ ∃ g : Firing → Firing, t.elem rank = { s.elem rank with firing := (s.elem rank).firing.map g }

/-- Every byte of memory and every full-empty bit reads as before. -/
def Safety.sameMemory (s t : State) : Prop := (∀ a, Memory.read t.mem a = Memory.read s.mem a) ∧ t.full = s.full

/-- A firing whose registers, pending advances, held special-register writes and open waits are those of another; its ports, held keep
writes and output slots may differ, and flags may be added. -/
def Safety.sameFiring (f g : Firing) (fl : BitVec 5) : Prop :=
  g.fid = f.fid ∧ g.la = f.la ∧ g.phase = f.phase ∧ g.flushing = f.flushing ∧ g.inv = f.inv ∧ g.snap = f.snap ∧ g.chosen = f.chosen ∧
  g.entry = f.entry ∧ g.hdr = f.hdr ∧ g.bid = f.bid ∧ g.exit = f.exit ∧ g.exitBy = f.exitBy ∧ g.srW = f.srW ∧ g.flags = f.flags ||| fl ∧ g.pend = f.pend ∧
  g.antis = f.antis ∧ g.lgW = f.lgW ∧ g.frW = f.frW ∧ g.lgUsed = f.lgUsed ∧ g.fibUsed = f.fibUsed ∧ g.tickh = f.tickh ∧ g.due = f.due ∧
  g.nlst = f.nlst ∧ g.nmem = f.nmem ∧ g.nlau = f.nlau ∧ g.cancel = f.cancel ∧ g.xopLoad = f.xopLoad ∧ g.took = f.took

/-- Only the firing on one element has changed, and it is now `g`. -/
def Safety.firingIs (s t : State) (rank : Nat) (g : Firing) : Prop := onlyFiring s t rank ∧ sameMemory s t ∧ t.firing? rank = some g

/-- The consumers of an instruction that does nothing but deliver a value computed from its ports and its actor's state; `none` for every
other instruction and every event. -/
def Safety.consumers : Instr → Option (List Target)
  | .lit _ _ a b _ | .mov _ _ a b | .sel _ _ a b | .add _ _ a b | .sub _ _ a b | .mul _ _ a b | .mulh _ _ a b | .mad _ _ a b
  | .div _ _ a b | .rem _ _ a b | .neg _ _ a b | .abs _ _ a b | .min _ _ a b | .max _ _ a b | .clamp _ _ a b | .and _ _ a b | .or _ _ a b
  | .xor _ _ a b | .not _ _ a b | .andn _ _ a b | .shl _ _ a b | .shr _ _ a b | .sar _ _ a b | .rot _ _ a b | .clz _ _ a b | .ctz _ _ a b
  | .popc _ _ a b | .bfx _ _ a b | .bfi _ _ a b | .sext _ _ a b | .zext _ _ a b | .cmpeq _ _ a b | .cmpne _ _ a b | .cmplt _ _ a b
  | .cmple _ _ a b | .pnot _ a b | .pand _ a b | .por _ a b | .lea _ _ a b | .ptag _ a b | .pspc _ a b | .pown _ a b | .poff _ a b
  | .fadd _ _ a b | .fsub _ _ a b | .fmul _ _ a b | .ffma _ _ a b | .fdiv _ _ a b | .fmin _ _ a b | .fmax _ _ a b | .fabs _ _ a b
  | .fneg _ _ a b | .fsqrt _ _ a b | .frcp _ _ a b | .frsq _ _ a b | .fex2 _ _ a b | .flg2 _ _ a b | .fcls _ _ a b | .fcmpeq _ _ a b
  | .fcmplt _ _ a b | .fcmple _ _ a b | .fcmpun _ _ a b | .rngc _ _ _ a b | .vadd _ _ a b | .vsub _ _ a b | .vmul _ _ a b | .vfma _ _ a b
  | .vmin _ _ a b | .vmax _ _ a b | .vabs _ _ a b | .vneg _ _ a b | .vand _ a b | .vor _ a b | .vxor _ a b | .vshl _ _ a b
  | .vshr _ _ a b | .vsar _ _ a b | .vcmpeq _ _ a b | .vcmplt _ _ a b | .vcmple _ _ a b | .vsel _ _ a b | .vbcast _ _ a b | .vext _ _ a b
  | .vins _ _ a b | .vperm _ _ a b | .vshuf _ _ a b | .vscan _ _ a b | .vex2 _ _ a b | .vrcp _ _ a b | .vrsq _ _ a b | .vcmprs _ _ a b
  | .vexpnd _ _ a b | .viota _ _ a b | .vcnt _ _ a b | .lstat _ a b | .qstat _ a b | .wqry _ a b => some [a, b]
  | .imm _ _ a _ | .rdk _ a _ _ | .addi _ _ a _ | .shli _ _ a _ | .shri _ _ a _ | .sari _ _ a _ | .cmpeqi _ _ a _ | .cmplti _ _ a _
  | .testb _ a _ | .padd _ _ a _ | .cvt _ _ a _ | .vred _ _ a _ _ | .vcvt _ _ a _ _ _ | .vtopk _ _ a _ _ | .vdot _ _ a _ _ => some [a]
  | _ => none

/-! ## Fibres (R257 to R262) -/

/-- The token at an offset of an input of the element in focus. -/
def Safety.tokenAt (s : State) (la h off : Nat) (t : Token) : Prop := ∃ q, (s.unitAt s.focus.rank la h off false).head? = some q ∧ q.tok = t

/-- A level as FSCAN sees it: how many fibres it has, the bounds of a fibre, and the element token at a position of a fibre (R257). -/
structure Safety.LevelView where
  nfib  : Nat
  start : Nat → Nat
  stop  : Nat → Nat
  elem  : Nat → Nat → FibOut

/-- n bytes of local memory at a distance from a pointer, as a number. -/
def Safety.wordFrom (s : State) (rank : Nat) (p : Word) (o n : Nat) : Nat := s.readNat (localKey rank ((ptrOff p + o) % 2 ^ 46)) n

/-- A read of local memory stays inside it and clear of the FIFO area. -/
def Safety.readable (s : State) (rank : Nat) (p : Word) (o n : Nat) : Prop :=
  let at_ := (ptrOff p + o) % 2 ^ 46
  at_ + n ≤ 32768 ∧ s.meetsFifo rank at_ n = false

/-- The level that 64 descriptor bytes name, its arrays in the local memory of an element (R257). -/
def Safety.levelView (s : State) (rank : Nat) (D : Vec) : LevelView :=
  let segp := BitVec.ofNat 64 (bf D 511 448)
  let crdp := BitVec.ofNat 64 (bf D 447 384)
  let valp := BitVec.ofNat 64 (bf D 383 320)
  let dim := bf D 287 256
  let dense := bf D 223 222 = 1
  let size := 2 * 2 ^ bf D 221 220
  let seg := fun i => wordFrom s rank segp (4 * i) 4
  let start := fun f => if dense then f * dim else seg f
  { nfib := bf D 319 288
    start
    stop := fun f => if dense then f * dim + dim else Max.max (seg f) (seg (f + 1))
    elem := fun f p => {
      kind := .data
      tag := if dense then BitVec.ofInt 32 ((p : Int) - start f) else BitVec.ofNat 32 (wordFrom s rank crdp (4 * p) 4)
      pay := BitVec.ofNat 512 ((if valp = 0 then 0 else wordFrom s rank valp (size * p) size) + (bf D 255 224 + p) % 2 ^ 64 * 2 ^ 64) } }

/-- The descriptor keeps R257, and each array that it uses starts aligned in the local memory of the element (R259). -/
def Safety.levelOk (rank : Nat) (D : Vec) : Prop :=
  let at_ := fun p (n : Nat) => ptrSpace p = 2 ∧ ptrOwner p = rank ∧ ptrOff p < 32768 ∧ ptrOff p % n = 0
  bf D 219 0 = 0 ∧ bf D 223 222 ≤ 1 ∧ bf D 221 220 ≠ 3 ∧ bf D 319 288 < 2 ^ 30 ∧ (bf D 383 320 = 0 → bf D 221 220 = 0) ∧
  (bf D 383 320 ≠ 0 → at_ (BitVec.ofNat 64 (bf D 383 320)) (2 * 2 ^ bf D 221 220)) ∧
  (bf D 223 222 = 1 → bf D 511 448 = 0 ∧ bf D 447 384 = 0 ∧ bf D 287 256 ≠ 0) ∧
  (bf D 223 222 = 0 → bf D 287 256 = 0 ∧ at_ (BitVec.ofNat 64 (bf D 511 448)) 4 ∧ at_ (BitVec.ofNat 64 (bf D 447 384)) 4)

/-- The bounds of a fibre can be read. -/
def Safety.fibreOk (s : State) (rank : Nat) (D : Vec) (f : Nat) : Prop :=
  bf D 223 222 = 0 → readable s rank (BitVec.ofNat 64 (bf D 511 448)) (4 * f) 4 ∧ readable s rank (BitVec.ofNat 64 (bf D 511 448)) (4 * f + 4) 4

/-- The element at a position can be read. -/
def Safety.positionOk (s : State) (rank : Nat) (D : Vec) (p : Nat) : Prop :=
  (bf D 223 222 = 0 → readable s rank (BitVec.ofNat 64 (bf D 447 384)) (4 * p) 4) ∧
  (bf D 383 320 ≠ 0 → readable s rank (BitVec.ofNat 64 (bf D 383 320)) (2 * 2 ^ bf D 221 220 * p) (2 * 2 ^ bf D 221 220))

/-- Where FSCAN stands: the fields of its cursor, the tokens it has written and how many it has read. -/
structure Safety.ScanAt where
  act  : Bool
  pend : Bool
  f    : Nat
  p    : Nat
  outs : List FibOut
  t    : Nat

/-- A cursor as FSCAN begins with it. -/
def Safety.ScanAt.ofCursor (c : Word) : ScanAt := { act := c.getLsbD 63, pend := c.getLsbD 62, f := bf c 61 32, p := bf c 31 0, outs := [], t := 0 }

/-- The cursor that it leaves. -/
def Safety.ScanAt.cursor (c : ScanAt) : Word :=
  BitVec.ofNat 64 (c.act.toNat * 2 ^ 63 + c.pend.toNat * 2 ^ 62 + c.f % 2 ^ 30 * 2 ^ 32 + c.p % 2 ^ 32)

/-- A stop token that an instruction writes. -/
def Safety.stopOut (k : Fin 4) : FibOut := { kind := .stop k, tag := 0, pay := 0 }

/-- One move of the loop of FSCAN without ROOT (R259): it emits an element, closes the open fibre, publishes the stop that it holds, opens the fibre
of a reference, or passes a stop on one level up. -/
inductive Safety.ScanStep (v : LevelView) (tok : Nat → Token) (bi bo : Nat) : ScanAt → ScanAt → Prop
  | element (c : ScanAt) : c.act = true → c.p < v.stop c.f → c.outs.length < bo →
    ScanStep v tok bi bo c { c with outs := c.outs ++ [v.elem c.f c.p], p := c.p + 1 }
  | close (c : ScanAt) : c.act = true → v.stop c.f ≤ c.p → ScanStep v tok bi bo c { c with act := false, pend := true }
  | release (c : ScanAt) : c.act = false → c.pend = true → c.t < bi → (tok c.t).kind = .data → c.outs.length < bo →
    ScanStep v tok bi bo c { c with outs := c.outs ++ [stopOut 0], pend := false }
  | enter (c : ScanAt) : c.act = false → c.pend = false → c.t < bi → (tok c.t).kind = .data → bf (tok c.t).pay 127 64 < v.nfib →
    ScanStep v tok bi bo c { c with act := true, f := bf (tok c.t).pay 127 64, p := v.start (bf (tok c.t).pay 127 64), t := c.t + 1 }
  | pass (c : ScanAt) (k j : Fin 4) : c.act = false → c.t < bi → (tok c.t).kind = .stop k → j.val = k.val + 1 → c.outs.length < bo →
    ScanStep v tok bi bo c { c with outs := c.outs ++ [stopOut j], pend := false, t := c.t + 1 }

/-! ## The wait-for table (R315 to R318) -/

/-- An entry is a successor of another (R316): its waiter is blocked, and is the actor that holds, or belongs to the stalled launch that does. -/
def Safety.follows (s : State) (part : Nat) (w x : WaitEntry) : Prop :=
  x ∈ s.waitsOf part ∧ s.blocked x = true ∧ w.hlid ≠ 0 ∧ x.wlid = w.hlid ∧
    if w.ha = true then x.wl = false ∧ x.wrank = w.hrank ∧ x.wact = w.hact else s.stalled w.hlid = true

/-- A path of at most 16 entries, each a successor of the one before it and none twice. -/
def Safety.waitPath (s : State) (part : Nat) (l : List WaitEntry) : Prop :=
  l.IsChain (follows s part) ∧ (l.map (·.serial)).Nodup ∧ l.length ≤ 16

/-- A path from an entry returns to the waiter of that entry: a cycle (R316). -/
def Safety.closesOn (s : State) (part : Nat) (w : WaitEntry) (l : List WaitEntry) : Prop :=
  waitPath s part l ∧ l.head? = some w ∧ ∃ z x, l.getLast? = some z ∧ follows s part z x ∧ x.sameWaiter w = true

/-- An entry reaches a launch as a holder within 16 entries (R318). -/
def Safety.reaches (s : State) (part : Nat) (w : WaitEntry) (lid : Nat) : Prop :=
  ∃ l z, waitPath s part l ∧ l.head? = some w ∧ l.getLast? = some z ∧ z.hlid = lid

/-! ## Engines (R241 to R244) -/

/-- A byte that an engine of the partition may read, or write, through a pointer lies at a key (R215, R218 to R223, R247). -/
def Safety.places (s : State) (part : Nat) (p : Word) (write : Bool) (k : Nat) : Prop :=
  match ptrSpace p with
  | 2 => s.localAny part p 1 = none ∧ k = localKey (ptrOwner p) (ptrOff p)
  | 1 => s.spaceFault part p 1 true write = none ∧ k = dieKey (ptrOwner p / 256) (ptrOff p)
  | 0 => s.spaceFault part p 1 true write = none ∧ ∃ size e, s.walk part (ptrOff p) = .hit k size e ∧ (if write then pteW e else pteR e) = true
  | _ => False

/-- A stride of an engine record: 20 bits with their sign, shifted. -/
def Safety.stride (r : Vec) (hi lo : Nat) (sh : Nat) : Int := (BitVec.ofNat 20 (bf r hi lo)).toInt * 2 ^ sh

/-- The source and destination offset of move n of a QCOPY, LEN0 bytes innermost and dimension 4 outermost (R242). -/
def Safety.copyMove (r : Vec) (n : Nat) : Int × Int :=
  let len := bf r 255 240
  let c1 := bf r 239 228 + 1
  let c2 := bf r 227 216 + 1
  let c3 := bf r 215 204 + 1
  let i0 := n % len
  let i1 := n / len % c1
  let i2 := n / len / c1 % c2
  let i3 := n / len / c1 / c2 % c3
  let i4 := n / len / c1 / c2 / c3
  let src := bf r 31 27
  let dst := bf r 26 22
  (i0 + i1 * stride r 191 172 src + i2 * stride r 171 152 src + i3 * stride r 151 132 src + i4 * stride r 131 112 src,
    i0 + i1 * stride r 111 92 dst + i2 * stride r 91 72 dst + i3 * stride r 71 52 dst + i4 * stride r 51 32 dst)

/-- The moves of a QCOPY. -/
def Safety.copyCount (r : Vec) : Nat := bf r 255 240 * (bf r 239 228 + 1) * (bf r 227 216 + 1) * (bf r 215 204 + 1) * (bf r 203 192 + 1)

/-- The source, or none for a zero, and the destination of move n of a QGATH whose row has index x (R243). -/
def Safety.gathMove (r : Vec) (x n : Nat) : Option Int × Int :=
  let len := bf r 255 240
  (if x = 0xFFFFFFFF then none else some (x * stride r 191 172 (bf r 31 27) + (n % len : Nat)),
    (n / len : Nat) * stride r 111 92 (bf r 26 22) + (n % len : Nat))

/-- The source, or none outside the input, and the destination of move n of a QUNF: rows of positions, of which each holds the pixels of the kernel,
ky outer and kx inner (R244). -/
def Safety.unfMove (r : Vec) (n : Nat) : Option Int × Int :=
  let len := bf r 255 240
  let x := BitVec.ofNat 64 (bf r 383 320)
  let h := bf x 63 52
  let w := bf x 51 40
  let kh := bf x 39 36 + 1
  let kw := bf x 35 32 + 1
  let st := bf x 31 29 + 1
  let dil := bf x 28 26 + 1
  let pad := bf x 25 22
  let ow := (w + 2 * pad - dil * (kw - 1) - 1) / st + 1
  let row := n / (kh * kw * len)
  let at_ := n % (kh * kw * len)
  let y : Int := (row / ow * st : Nat) - (pad : Int) + (at_ / len / kw * dil : Nat)
  let z : Int := (row % ow * st : Nat) - (pad : Int) + (at_ / len % kw * dil : Nat)
  (if 0 ≤ y ∧ y < h ∧ 0 ≤ z ∧ z < w then some (y * stride r 191 172 (bf r 31 27) + z * len + (at_ % len : Nat)) else none,
    row * stride r 111 92 (bf r 26 22) + at_)

/-! ## Local memory (R223 to R225) -/

/-- The pointer on port A passes the checks of a local access of n bytes: LOCAL space of the issuing element, aligned, inside the local
memory and clear of the FIFO area. -/
def Safety.localOk (s : State) (n : Nat) : Prop :=
  ptrSpace (s.portS .a) = 2 ∧ ptrOwner (s.portS .a) = s.focus.rank ∧ ptrOff (s.portS .a) % n = 0 ∧ ptrOff (s.portS .a) + n ≤ 32768 ∧
  s.meetsFifo s.focus.rank (ptrOff (s.portS .a)) n = false

/-- The 16-byte granules of local memory under n bytes of the issuing element from the offset on port A. -/
def Safety.under (s : State) (n k : Nat) : Prop :=
  s.focus.rank * 2048 + ptrOff (s.portS .a) / 16 ≤ k ∧ k < s.focus.rank * 2048 + (ptrOff (s.portS .a) + n) / 16

/-! ## Requests (R230) -/

/-- The word that issues has sent a request, and nothing else has happened: it stands last in the list of requests, queued, and its value comes
due unless it is let go. -/
def Safety.sent (s t : State) (dst : List Target) (ptr : Word) (k : ReqKind) : Prop :=
  (∃ f x q, s.here = some (f, x) ∧ t.reqs = s.reqs ++ [q] ∧ q.kind = k ∧ q.ptr = ptr ∧ q.dst = dst ∧ q.stage = .queued ∧
    q.rank = s.focus.rank ∧ q.slot = s.focus.id ∧ q.fid = f.fid ∧ q.la = f.la ∧ q.lid = x.lid ∧ q.g = x.g ∧ q.inv = f.inv ∧ q.id = s.serial ∧
    q.scp = f.scpOf s.focus.id ∧ q.chain.map (fun c => (c.1, c.2.1)) = f.seqOf s.focus.id ∧ t.firing? s.focus.rank = some { f with
      nmem := f.nmem + k.listed.toNat,
      due := if k.letGo dst then f.due else f.due ++ [{ slot := s.focus.id, dst, what := .request s.serial }] }) ∧
  t.mem = s.mem ∧ t.vers = s.vers ∧ t.full = s.full ∧ t.parts = s.parts ∧ t.launches = s.launches ∧ t.edges = s.edges ∧
  t.engines = s.engines ∧ t.regions = s.regions ∧ t.locks = s.locks ∧ (∀ r, r ≠ s.focus.rank → t.elem r = s.elem r) ∧
  (t.elem s.focus.rank).actors = (s.elem s.focus.rank).actors

/-- What an instruction asks of a home: its consumers, its pointer and its kind; `none` for every other instruction. -/
def Safety.request (s : State) : Instr → Option (List Target × Word × ReqKind)
  | .ldg _ t a _ m => some ([a], s.portS .a, .ldg t m ((s.portS .b).setWidth 16))
  | .stg _ t a b => some ([a, b], s.portS .a, .stg t (s.portS .b))
  | .ldgv _ _ m a b => some ([a, b], s.portS .a, .ldgv m ((s.portS .b).setWidth 16))
  | .stgv _ m a b => some ([a, b], s.portS .a, .stgv (s.portV .b) (if m then s.portS .c else BitVec.allOnes 64))
  | .gath _ t a b => some ([a, b], s.portS .a, .gath t (s.portV .b))
  | .scat _ t a b => some ([a, b], s.portS .a, .scat t (s.portV .b) (s.portV .c))
  | .vrcl _ a b => some ([a, b], s.portS .a, .vrcl ((s.portS .b).setWidth 16))
  | .vqry _ a b => some ([a, b], s.portS .a, .vqry)
  | .atom _ t a o => some ([a], s.portS .a, .atom false o t (s.portS .b))
  | .atomr _ t a o => some ([a], s.portS .a, .atom true o t (s.portS .b))
  | .cas _ t a b => some ([a, b], s.portS .a, .cas t (s.portS .b) (s.portS .c))
  | .vatom _ t a o => some ([a], s.portS .a, .vatom o t (s.portV .b) (s.portV .c))
  | .faadd _ t a r => some ([a], s.portS .a, .faadd r t (s.portS .b))
  | .lockt _ a b => some ([a, b], s.portS .a, .lockt)
  | .unlockt _ a b => some ([a, b], s.portS .a, .unlockt)
  | .bar _ a b => some ([a, b], s.portS .a, .bar ((s.portS .b).toNat % 8))
  | .chsend _ a b => some ([a, b], s.portS .a, .chsend (s.portV .b))
  | .chrecv _ a b => some ([a, b], s.portS .a, .chrecv)
  | .chcred _ a b => some ([a, b], s.portS .a, .chcred (s.portS .b))
  | .waitv _ a b => some ([a, b], s.portS .a, .waitv ((s.portS .b).setWidth 16))
  | _ => none

/-- The instruction may not run in a deterministic launch (R323). -/
def Safety.detForbidden (s : State) : Instr → Bool
  | .ldg _ _ _ d m => m == .plain && !d && !s.chained && decide (ptrSpace (s.portS .a) ≤ 1)
  | .ldgv _ d m _ _ => m == .plain && !d && !s.chained && decide (ptrSpace (s.portS .a) ≤ 1)
  | .gath _ _ _ _ => !s.chained && decide (ptrSpace (s.portS .a) ≤ 1)
  | .atom _ _ _ o => o == .swap
  | .vatom _ t _ _ => t == .f32
  | .atomr _ _ _ _ | .cas _ _ _ _ | .faadd _ _ _ _ | .lockt _ _ _ | .unlockt _ _ _ => true
  | _ => false

/-- The word that issues names no scope code above 4 (R7). -/
def Safety.scopeOk (s : State) : Bool :=
  match s.here with | some (f, _) => !(f.scpOf s.focus.id).any fun x => decide (4 < x.2.2) | none => false

/-! ## Host commands (R365) -/

/-- The command of a host command row, with its code. -/
def Safety.commandOf : Instr → Option (Cmd × Nat)
  | .load c _ _ => some (c, 0x01)
  | .start h b => some (h.cmd b, 0x02)
  | .stop c _ => some (c, 0x03)
  | .query c _ => some (c, 0x04)
  | .attest h b => some (h.cmd b, 0x05)
  | .thatchCommand h b => some (h.cmd b, 0x06)
  | .mapPage c _ _ _ => some (c, 0x07)
  | .setTickPeriod c _ | .setTickEpoch c _ | .setWdt c _ | .setSnapshotTick c _ => some (c, 0x08)
  | .bind c _ => some (c, 0x09)
  | .handler c _ _ => some (c, 0x0A)
  | .reclaim c => some (c, 0x0B)
  | _ => none

/-- A command that only the module channel carries. -/
def Safety.moduleOnly : Instr → Bool
  | .attest _ _ | .thatchCommand _ _ | .setTickPeriod _ _ | .setTickEpoch _ _ => true
  | _ => false

/-- The module is up and hears a command of its own revision on a channel that exists. -/
def Safety.hears (s : State) (c : Cmd) : Prop := s.boot.stage = 3 ∧ s.boot.recovery = false ∧ s.hasChan c.chan = true ∧ cmdRev c = 1

/-- A heard command whose signature, sequence number and header are good. -/
def Safety.good (s : State) (c : Cmd) (code : Nat) : Prop :=
  hears s c ∧ s.signed c = true ∧ s.lastSeq c.chan < cmdSeq c ∧ cmdBad c code = false

end Sys2Proof
end

