-- ==== Sys2Proof/Certificates/Slice0/Obligations.lean ====
section
/-! DEFINITION. The statements about the machine, for the provers. Each docstring names the rules of the manual that its statement comes from; OBLIGATIONS.json
says which of them a statement states whole. -/

open Sys2Proof Sys2Proof.Machine Sys2Proof.Safety

/-- R55, R57, R59, R73 to R75: words that the manual writes out decode to what they stand for, with the literal words that follow; a word of an
unassigned opcode, and one with predicate code 3, is no instruction (R56, R68, R70). -/
def Obligations.DecodedWords : Prop :=
  decodeWords [0x00000000] = .ok (.nop .always, []) ∧
  decodeWords [0x01082100, 0x00007FF0, 7] = .ok (.lit .always .i16 (.slot 4 .a) .discard 0x7FF0, [7]) ∧
  decodeWords [0x02082220] = .ok (.imm .always .i16 (.slot 4 .b) 32, []) ∧
  decodeWords [0x200A0900] = .ok (.add .always .i16 (.keep 3) .discard, []) ∧
  decodeWords [0x64082021] = .ok (.peek .always 2 (.slot 4 .a) false 2 1, []) ∧
  decodeWords [0x87220400] = .ok (.vred .always .f32 (.keep 1) false .add, []) ∧
  decodeWords [0xA8142801] = .ok (.ldg .always .n32 (.slot 5 .a) false .ge, []) ∧
  decodeWords [0xB0101800] = .ok (.atom .always .i32 (.slot 3 .a) .add, []) ∧
  decodeWords [0xC2020100] = .ok (.mma .always .discard .discard, []) ∧
  decodeWords [0xDD0A0100, 0x00000006] = .ok (.fence .always 2 .discard .discard 0 6, []) ∧
  decodeWords [0xF2001100] = .ok (.digest .always (.slot 2 .a) .discard, []) ∧
  decodeWords [0xF1060B00] = .ok (.snap .always true (.keep 4) .discard, []) ∧
  ∀ (w l0 l1 : IWord) op, op = w.toNat / 2 ^ 24 → (0x10 ≤ op ∧ op ≤ 0x13 ∨ 0x15 ≤ op ∧ op ≤ 0x1F ∨ 0x98 ≤ op ∧ op ≤ 0x9F ∨ op = 0xA7 ∨ op = 0xB7 ∨ 0xBD ≤ op ∧ op ≤ 0xBF ∨ op = 0xDE ∨ op = 0xDF ∨
      op = 0xE6 ∨ op = 0xE7 ∨ 0xEC ≤ op ∧ op ≤ 0xEF ∨ 0xF4 ≤ op ∨ w.toNat / 2 ^ 22 % 4 = 3) → decodeIns w l0 l1 = none

/-- Decoding the words of a well-formed instruction gives it back, with every operand at every value that its encoding admits, and leaves what
follows; so do its bytes. -/
def Obligations.EncodeDecodeRoundTrip : Prop :=
  ∀ i : Instr, i.wf = true → i.raw.isSome = true →
    (∀ rest, decodeWords (encode i ++ rest) = .ok (i, rest)) ∧ ∀ rest, decodeBytes ((encode i).flatMap bytesOfWord ++ rest) = .ok (i, rest)

/-- Decoding drops no bit: the words of a decoded instruction are those that the encoder gives it, so no two instruction words mean the same (R67). -/
def Obligations.DecodingKeepsEveryBit : Prop :=
  ∀ (w l0 l1 : IWord) i, decodeIns w l0 l1 = some i → encode i = w :: [l0, l1].take (litWords w)

/-- The module right after reset (R120, R121, R156, R181, R224, R227, R267, R268, R340, R367, R368, R370): every byte reads 0, which the spec gives for HBM5,
local memory and the accumulator store and the model chooses for die memory (log entry 6), and every version is 0, in the canonical form; nothing is
installed, mapped, launched or ready; cycle 0, tick 0, a period of 4,000 cycles and a watchdog period of 1,048,576 ticks; no Thatch slot is in force; M
is 64 zero bytes. -/
def Obligations.ResetState : Prop :=
  let s := State.reset
  memOk s ∧ (∀ a, Memory.read s.mem a = 0) ∧ (∀ g, s.ver g = 0) ∧ s.full = [] ∧ (∀ r, s.elem r = Elem.empty) ∧ s.launches = [] ∧ s.binds = [] ∧ s.reqs = [] ∧
    s.locks = [] ∧ (∀ p off, s.walk p off = .miss) ∧ (∀ c, s.powered c = false) ∧ s.boot.stage = 0 ∧ s.boot.dieReady = 0 ∧ s.boot.hbm = 0 ∧ s.boot.port = 0 ∧
    s.clock.cycle = 0 ∧ s.clock.tick = 0 ∧ s.clock.period = 4000 ∧ s.clock.locked = false ∧ s.thatch.dec = [] ∧ s.thatch.flt = [] ∧ s.thatch.iver = 0 ∧
    s.boot.meas = 0 ∧ s.boot.measN = 0 ∧ ∀ p, (s.part p).wdt = 2 ^ 20

/-- A STEP RUNS THE DECODED INSTRUCTION (R163, log entry 1). When the next turn is the issue of a slot whose words decode to an instruction, and the
slot is ready and its turn has come (log entry 69), the step is exec of that instruction, after the cycles of the turn, in the state in which the slot
has issued. A turn that is an event
is exec of that event. The turn comes from the agenda, or is a free choice; before it granules may be hit by uncorrectable errors (log entry 81), and a
cycle that ends makes its walks and latches its triggers (R316, R353), which changes nothing where none is due. Without power only MODULE_RESET runs. -/
def Obligations.StepRunsDecoded : Prop :=
  ∀ s : State,
    let word := fun (f : Firing) n => match f.slotAt n with | some z => z.word | none => 0
    let turn := match s.agenda with | t :: _ => t | [] => Config.freeTurn s.stepNo
    let s0 : State := match s.agenda with | _ :: r => { s with agenda := r } | [] => { s with stepNo := s.stepNo + 1 }
    let u : State := { s0 with faulty := s.faulty ++ turn.upset.filter fun g => decide (g < hbmSize / 64) && !s.faulty.contains g }
    let c := Max.max s.clock.cycle (Min.min (s.clock.cycle + turn.dt) (s.clock.nextAt - 1))
    let v := u.closeCycle c
    let s1 : State := { v with clock := { v.clock with cycle := c } }
    ((c = s.clock.cycle ∨ ∀ p, p ∈ s.parts → p.2.walks = [] ∧ ∀ k n, SnapTrig.atCycle k n ∈ p.2.trigs → c ≤ k) → v = u) ∧
    (∀ rank id f x sl i, s.power = true → turn.op = .issue rank id → s1.active rank = some (f, x) → f.slotAt id = some sl → sl.kind = .ins → sl.issued = false →
      decodeIns sl.word (word f (id + 1)) (word f (id + 2)) = some i →
      (∀ q : Port, q ≠ .p → portUseOf i q = .none ∨ (sl.port q).isSome = true) →
      (sl.word.toNat / 2 ^ 22 % 4 = 0 ∨ ∃ v, sl.p = some v ∧ senseWrong sl.word v = false) → f.gateMet id = true → s1.inTurn rank f id = true →
      s1.running x.lid = true → s1.ringFrozen x.lid = false → s1.stalls rank id i = false →
      step s = exec i { s1.modFiring rank (fun f => { f.modSlot id (fun z => { z with issued := true }) with
        took := (c, (if f.took.1 = c then f.took.2 else []) ++ [issueClass (Raw.ofWord sl.word).op]) }) with focus := ⟨rank, id⟩ }) ∧
    (∀ i, s.power = true → turn.op = .event i → i.raw = none → step s = exec i s1) ∧
    (s.power = false → (∀ a b c, turn.op ≠ .event (.moduleReset a b c)) → step s = .fault .poweredOff)

/-- No instruction and no event stops the machine: each answers a next state in every state; a step of a powered module answers one too, and a step
that stops found no power. -/
def Obligations.EveryOperationGoesOn : Prop :=
  (∀ (i : Instr) (s : State), ∃ t, exec i s = .next t) ∧ (∀ s : State, s.power = true → ∃ t, step s = .next t) ∧
  (∀ (s : State) r, step s ≠ .refused r) ∧ ∀ (s : State) f, step s = .fault f → f = .poweredOff ∧ s.power = false

/-- AN INVARIANT THAT EVERY STEP KEEPS: the memory keeps its one canonical form, so that equal memories are equal data. -/
def Obligations.StepKeepsMemoryForm : Prop :=
  ∀ s t : State, memOk s → step s = .next t → memOk t

/-- R187, with the type rules of R34, R35, R58 and R77: the operands are the w low bits of ports A, B and C, the exact result is wrapped, or saturated
under PFX.SAT, and delivered as a 64-bit value. R187: MULH is the exact product divided by 2^w and rounded down; DIV truncates, and a divisor of 0
gives all ones; REM is x − y × q, and x for a divisor of 0. -/
def Obligations.IntegerArithmetic : Prop :=
  ((∀ p t a b s, ∃ r, exec (.add p t a b) s = .next (s.out2 a b (ext t r)) ∧
    satResult s t (num t (opd s t .a) + num t (opd s t .b)) r) ∧
  (∀ p t a b s, ∃ r, exec (.sub p t a b) s = .next (s.out2 a b (ext t r)) ∧
    satResult s t (num t (opd s t .a) - num t (opd s t .b)) r) ∧
  (∀ p t a b s, ∃ r, exec (.mul p t a b) s = .next (s.out2 a b (ext t r)) ∧
    satResult s t (num t (opd s t .a) * num t (opd s t .b)) r) ∧
  (∀ p t a b s, ∃ r, exec (.mad p t a b) s = .next (s.out2 a b (ext t r)) ∧
    satResult s t (num t (opd s t .a) * num t (opd s t .b) + num t (opd s t .c)) r) ∧
  (∀ p t a b s, ∃ r, exec (.neg p t a b) s = .next (s.out2 a b (ext t r)) ∧ satResult s t (-num t (opd s t .a)) r) ∧
  (∀ p t a b s, ∃ r, exec (.abs p t a b) s = .next (s.out2 a b (ext t r)) ∧ satResult s t |num t (opd s t .a)| r) ∧
  (∀ p t a i s, ∃ r, exec (.addi p t a i) s = .next (s.out1 a (ext t r)) ∧ satResult s t (num t (opd s t .a) + i.toInt) r)) ∧
  ((∀ p t a b s, exec (.mulh p t a b) s = .next (s.out2 a b
    (ext t (BitVec.ofInt t.width (num t (opd s t .a) * num t (opd s t .b) / 2 ^ t.width))))) ∧
  (∀ p t a b s, opd s t .b ≠ 0 → exec (.div p t a b) s = .next (s.out2 a b
    (ext t (BitVec.ofInt t.width ((num t (opd s t .a)).tdiv (num t (opd s t .b))))))) ∧
  (∀ p t a b s, opd s t .b = 0 → exec (.div p t a b) s = .next (s.out2 a b (ext t (BitVec.allOnes t.width)))) ∧
  (∀ p t a b s, opd s t .b ≠ 0 → exec (.rem p t a b) s = .next (s.out2 a b
    (ext t (BitVec.ofInt t.width ((num t (opd s t .a)).tmod (num t (opd s t .b))))))) ∧
  (∀ p t a b s, opd s t .b = 0 → exec (.rem p t a b) s = .next (s.out2 a b (ext t (opd s t .a)))))

/-- R187: MIN, MAX and CLAMP choose among their operands by the signedness of the type. R188: the compares and predicates deliver 1 or 0. -/
def Obligations.SelectionAndCompares : Prop :=
  ((∀ p t a b s, ∃ r, exec (.min p t a b) s = .next (s.out2 a b (ext t r)) ∧
    num t r = Min.min (num t (opd s t .a)) (num t (opd s t .b))) ∧
  (∀ p t a b s, ∃ r, exec (.max p t a b) s = .next (s.out2 a b (ext t r)) ∧
    num t r = Max.max (num t (opd s t .a)) (num t (opd s t .b))) ∧
  (∀ p t a b s, ∃ r, exec (.clamp p t a b) s = .next (s.out2 a b (ext t r)) ∧
    num t r = Min.min (Max.max (num t (opd s t .a)) (num t (opd s t .b))) (num t (opd s t .c)))) ∧
  ((∀ p t a b s,
    exec (.cmpeq p t a b) s = .next (s.out2 a b (if opd s t .a = opd s t .b then 1 else 0)) ∧
    exec (.cmpne p t a b) s = .next (s.out2 a b (if opd s t .a = opd s t .b then 0 else 1)) ∧
    exec (.cmplt p t a b) s = .next (s.out2 a b (if num t (opd s t .a) < num t (opd s t .b) then 1 else 0)) ∧
    exec (.cmple p t a b) s = .next (s.out2 a b (if num t (opd s t .a) ≤ num t (opd s t .b) then 1 else 0))) ∧
  (∀ p t a (i : BitVec 9) s, let k : Int := if t.isSigned then i.toInt else i.toNat
    exec (.cmpeqi p t a i) s = .next (s.out1 a (if num t (opd s t .a) = k then 1 else 0)) ∧
    exec (.cmplti p t a i) s = .next (s.out1 a (if num t (opd s t .a) < k then 1 else 0))) ∧
  (∀ p a (i : BitVec 9) s, exec (.testb p a i) s = .next (s.out1 a (if (s.portS .a).getLsbD i.toNat then 1 else 0))) ∧
  (∀ p a b s,
    exec (.pnot p a b) s = .next (s.out2 a b (if s.portS .a = 0 then 1 else 0)) ∧
    exec (.pand p a b) s = .next (s.out2 a b (if s.portS .a ≠ 0 ∧ s.portS .b ≠ 0 then 1 else 0)) ∧
    exec (.por p a b) s = .next (s.out2 a b (if s.portS .a ≠ 0 ∨ s.portS .b ≠ 0 then 1 else 0))))

/-- R187: the bitwise operations act on w bits. R187: leading zeros, trailing zeros and ones among the w bits of the operand. R187: BFX, BFI, SEXT and
ZEXT bit by bit. -/
def Obligations.BitOperations : Prop :=
  (∀ p t a b s,
    exec (.and p t a b) s = .next (s.out2 a b (ext t (opd s t .a &&& opd s t .b))) ∧
    exec (.or p t a b) s = .next (s.out2 a b (ext t (opd s t .a ||| opd s t .b))) ∧
    exec (.xor p t a b) s = .next (s.out2 a b (ext t (opd s t .a ^^^ opd s t .b))) ∧
    exec (.not p t a b) s = .next (s.out2 a b (ext t (~~~opd s t .a))) ∧
    exec (.andn p t a b) s = .next (s.out2 a b (ext t (opd s t .a &&& ~~~opd s t .b)))) ∧
  ((∀ p t a b s, ∃ n, exec (.clz p t a b) s = .next (s.out2 a b (BitVec.ofNat 64 n)) ∧ n ≤ t.width ∧
    (∀ i, i < n → (opd s t .a).getMsbD i = false) ∧ (n < t.width → (opd s t .a).getMsbD n = true)) ∧
  (∀ p t a b s, ∃ n, exec (.ctz p t a b) s = .next (s.out2 a b (BitVec.ofNat 64 n)) ∧ n ≤ t.width ∧
    (∀ i, i < n → (opd s t .a).getLsbD i = false) ∧ (n < t.width → (opd s t .a).getLsbD n = true)) ∧
  (∀ p t a b s, exec (.popc p t a b) s = .next (s.out2 a b
    (BitVec.ofNat 64 ((List.range t.width).filter fun i => (opd s t .a).getLsbD i).length)))) ∧
  ((∀ p t a b s, ∃ r, exec (.bfx p t a b) s = .next (s.out2 a b (ext t r)) ∧ ∀ i, i < t.width →
    r.getLsbD i = (let pos := bf (s.portS .b) 5 0
      let len := Min.min (bf (s.portS .b) 12 6) 64
      let y := ext t (opd s t .a)
      if i < len then y.getLsbD (Min.min (pos + i) 63) else t.isSigned && decide (len ≠ 0) && y.getLsbD (Min.min (pos + len - 1) 63))) ∧
  (∀ p t a b s, ∃ r, exec (.bfi p t a b) s = .next (s.out2 a b (ext t r)) ∧ ∀ i, i < t.width →
    r.getLsbD i = (let pos := bf (s.portS .c) 5 0
      let len := Min.min (bf (s.portS .c) 12 6) 64
      if pos ≤ i ∧ i < pos + len then (opd s t .b).getLsbD (i - pos) else (opd s t .a).getLsbD i)) ∧
  (∀ p t a b s, ∃ r, exec (.sext p t a b) s = .next (s.out2 a b (ext t r)) ∧ ∀ i, i < t.width →
    r.getLsbD i = (let n := Min.min (s.portS .b).toNat 64
      decide (n ≠ 0) && (opd s t .a).getLsbD (Min.min i (n - 1)))) ∧
  (∀ p t a b s, ∃ r, exec (.zext p t a b) s = .next (s.out2 a b (ext t r)) ∧ ∀ i, i < t.width →
    r.getLsbD i = (decide (i < (s.portS .b).toNat) && (opd s t .a).getLsbD i)))

/-- R187: the counts of the shifts are the whole of port B, or the immediate; a shift by w or more gives 0, or the sign; ROT takes its count modulo w.
The saturation of SHL and SHLI is the model's reading (log entry 15). -/
def Obligations.Shifts : Prop :=
  (∀ p t a b s, ∃ r, exec (.shl p t a b) s = .next (s.out2 a b (ext t r)) ∧
    (s.effSat = false → r = opd s t .a <<< (s.portS .b).toNat) ∧
    (s.effSat = true → num t r = clamp t (num t (opd s t .a) * 2 ^ (s.portS .b).toNat))) ∧
  (∀ p t a b s, exec (.shr p t a b) s = .next (s.out2 a b (ext t (opd s t .a >>> (s.portS .b).toNat)))) ∧
  (∀ p t a b s, exec (.sar p t a b) s = .next (s.out2 a b (ext t ((opd s t .a).sshiftRight (s.portS .b).toNat)))) ∧
  (∀ p t a b s, exec (.rot p t a b) s = .next (s.out2 a b (ext t ((opd s t .a).rotateLeft ((s.portS .b).toNat % t.width))))) ∧
  (∀ p t a i s, ∃ r, exec (.shli p t a i) s = .next (s.out1 a (ext t r)) ∧
    (s.effSat = false → r = opd s t .a <<< i.toNat) ∧
    (s.effSat = true → num t r = clamp t (num t (opd s t .a) * 2 ^ i.toNat))) ∧
  (∀ p t a i s, exec (.shri p t a i) s = .next (s.out1 a (ext t (opd s t .a >>> i.toNat)))) ∧
  (∀ p t a i s, exec (.sari p t a i) s = .next (s.out1 a (ext t ((opd s t .a).sshiftRight i.toNat))))

/-- R217: pointer arithmetic moves the offset modulo 2^46 and keeps space and owner; PTAG, PSPC, POWN and POFF join and take the fields of R214. -/
def Obligations.PointerFields : Prop :=
  (∀ p (sh : BitVec 4) a b s, ∃ r, exec (.lea p sh a b) s = .next (s.out2 a b r) ∧
    r.extractLsb' 46 18 = (s.portS .a).extractLsb' 46 18 ∧
    r.setWidth 46 = (s.portS .a).setWidth 46 + (s.portS .b <<< sh.toNat).setWidth 46) ∧
  (∀ p (sh : BitVec 4) a (i : BitVec 9) s, ∃ r, exec (.padd p sh a i) s = .next (s.out1 a r) ∧
    r.extractLsb' 46 18 = (s.portS .a).extractLsb' 46 18 ∧
    r.setWidth 46 = (s.portS .a).setWidth 46 + (i.signExtend 46 <<< sh.toNat)) ∧
  (∀ p a b s, exec (.ptag p a b) s = .next (s.out2 a b
    (((s.portS .a).setWidth 4 ++ (s.portS .b).setWidth 14 ++ (s.portS .c).setWidth 46 : BitVec 64)))) ∧
  (∀ p a b s, exec (.pspc p a b) s = .next (s.out2 a b (s.portS .a >>> 60))) ∧
  (∀ p a b s, exec (.pown p a b) s = .next (s.out2 a b ((s.portS .a >>> 46) &&& 0x3FFF))) ∧
  (∀ p a b s, exec (.poff p a b) s = .next (s.out2 a b (s.portS .a &&& 0x3FFFFFFFFFFF)))

/-- R73 to R75, R184: constants, moves and the read of a keep register. An IMM of a float type is its signed immediate rounded to the type. -/
def Obligations.ConstantsAndMoves : Prop :=
  (∀ p s, exec (.nop p) s = .next s) ∧
  (∀ p t a b v s, exec (.lit p t a b v) s = .next (s.out2 a b (ext t (v.setWidth t.width)))) ∧
  (∀ p (t : Ty) a (i : BitVec 9) s, t.isFloat = false →
    exec (.imm p t a i) s = .next (s.out1 a (ext t (if t.isSigned then i.signExtend t.width else i.setWidth t.width)))) ∧
  (∀ p (t : Ty) a (i : BitVec 9) s, t.isFloat = true →
    exec (.imm p t a i) s = .next (s.out1 a (BitVec.ofNat 64 ((roundTo t .rne false (FVal.mk i.toInt 0 false)).1 % 2 ^ t.width)))) ∧
  (∀ p a b s, exec (.mov p false a b) s = .next (s.out2 a b (s.portS .a)) ∧ exec (.mov p true a b) s = .next (s.outV2 a b (s.portV .a))) ∧
  (∀ p a b s, exec (.sel p false a b) s = .next (s.out2 a b (if s.portS .c ≠ 0 then s.portS .a else s.portS .b)) ∧
    exec (.sel p true a b) s = .next (s.outV2 a b (if s.portV .c ≠ 0 then s.portV .a else s.portV .b))) ∧
  (∀ p a n s f x, s.here = some (f, x) →
    exec (.rdk p a false n) s = .next (s.out1 a (x.keep.getD n.val 0)) ∧
    exec (.rdk p a true n) s = .next (s.out1 a (x.keep.getD ((s.portS .a).toNat % 16) 0)))

/-- R61, R182, R184: WRK and WRSR write nothing at issue; the write is held with its block entry and slot until commit, and keeps the width of its
register. R181: what RDSR delivers for every register; SR.TICK latches SR.TICKH for the rest of the firing. -/
def Obligations.RegisterReadsAndHeldWrites : Prop :=
  (∀ p s f x, s.here = some (f, x) →
    (∀ n : Fin 16, ∃ t, exec (.wrk p false n) s = .next t ∧ onlyFiring s t s.focus.rank ∧ sameMemory s t ∧
      t.firing? s.focus.rank = some { f with
        keepW := f.keepW ++ [{ reg := n.val, entry := f.entry, slot := slotKey s.focus.id, val := s.portS .a }] }) ∧
    (∀ n : Fin 16, ∃ t, exec (.wrk p true n) s = .next t ∧ onlyFiring s t s.focus.rank ∧ sameMemory s t ∧
      t.firing? s.focus.rank = some { f with
        keepW := f.keepW ++ [{ reg := (s.portS .b).toNat % 16, entry := f.entry, slot := slotKey s.focus.id, val := s.portS .a }] }) ∧
    (∀ r : BitVec 9, (r = 8 ∨ r = 9 ∨ r = 12) → ∃ t, exec (.wrsr p r) s = .next t ∧ onlyFiring s t s.focus.rank ∧ sameMemory s t ∧
      t.firing? s.focus.rank = some { f with
        srW := f.srW ++ [⟨r.toNat, f.entry, slotKey s.focus.id,
          s.portS .a &&& (if r = 8 then 3 else if r = 9 then 31 else BitVec.allOnes 64)⟩] })) ∧
  (∀ p a s f x l, s.here = some (f, x) → s.launch? x.lid = some l →
    exec (.rdsr p a 0) s = .next (s.out1 a (BitVec.ofNat 64 s.focus.rank)) ∧
    exec (.rdsr p a 1) s = .next (s.out1 a (BitVec.ofNat 64 x.stage)) ∧
    exec (.rdsr p a 2) s = .next (s.out1 a (BitVec.ofNat 64 x.g)) ∧
    exec (.rdsr p a 3) s = .next (s.out1 a (BitVec.ofNat 64 l.ngroup)) ∧
    exec (.rdsr p a 4) s = .next (s.out1 a (BitVec.ofNat 64 f.phase)) ∧
    exec (.rdsr p a 5) s = .next (s.out1 a (BitVec.ofNat 64 (lidPart x.lid))) ∧
    exec (.rdsr p a 8) s = .next (s.out1 a (x.rnd.setWidth 64)) ∧
    exec (.rdsr p a 9) s = .next (s.out1 a (x.flags.setWidth 64)) ∧
    exec (.rdsr p a 10) s = .next (s.out1 a (BitVec.ofNat 64 x.lid)) ∧
    exec (.rdsr p a 11) s = .next (s.out1 a (BitVec.ofNat 64 (f.inv % 2 ^ 32))) ∧
    exec (.rdsr p a 12) s = .next (s.out1 a x.seed) ∧
    exec (.rdsr p a 14) s = .next (s.out1 a (BitVec.ofNat 64 (s.effPrio x))) ∧
    exec (.rdsr p a 15) s = .next (s.out1 a (if l.det then 1 else 0)) ∧
    (l.det = false →
      exec (.rdsr p a 6) s = .next ((s.modFiring s.focus.rank fun f =>
        { f with tickh := some (BitVec.ofNat 32 (s.clock.tick / 2 ^ 32)) }).out1 a (BitVec.ofNat 64 (s.clock.tick % 2 ^ 32))) ∧
      exec (.rdsr p a 7) s = .next (s.out1 a (match f.tickh with
        | some t => t.setWidth 64 | none => BitVec.ofNat 64 (s.clock.tick / 2 ^ 32 % 2 ^ 32))) ∧
      exec (.rdsr p a 13) s = .next (s.out1 a (BitVec.ofNat 64 s.clock.cycle))))

/-- R164, R184: the first exit-class instruction of a block entry records what it asks for, and the firing goes on until the block is quiescent. -/
def Obligations.ExitRequests : Prop :=
  ∀ p s f x, s.here = some (f, x) → f.exit = none →
    (∀ l im w, s.launch? x.lid = some l → l.img = some im → w.toNat < im.code.length → x.range.1 ≤ w.toNat → w.toNat < x.range.2 →
      im.starts.getD w.toNat false = true → ∃ t, exec (.br p w) s = .next t ∧ onlyFiring s t s.focus.rank ∧ sameMemory s t ∧
        t.firing? s.focus.rank = some { f with exit := some (.branch w.toNat), exitBy := s.focus.id }) ∧
    (∀ l im, s.launch? x.lid = some l → l.img = some im → (s.portS .a).toNat % 2 ^ 32 < im.code.length →
      x.range.1 ≤ (s.portS .a).toNat % 2 ^ 32 → (s.portS .a).toNat % 2 ^ 32 < x.range.2 →
      im.starts.getD ((s.portS .a).toNat % 2 ^ 32) false = true →
      ∃ t, exec (.bri p) s = .next t ∧ onlyFiring s t s.focus.rank ∧ sameMemory s t ∧
        t.firing? s.focus.rank = some { f with exit := some (.branch ((s.portS .a).toNat % 2 ^ 32)), exitBy := s.focus.id }) ∧
    (∀ n : Fin 8, x.desc.entry.getD n.val 0xFFFF ≠ 0xFFFF →
      ∃ t, exec (.exit p n) s = .next t ∧ onlyFiring s t s.focus.rank ∧ sameMemory s t ∧
        t.firing? s.focus.rank = some { f with exit := some (.exit n.val), exitBy := s.focus.id }) ∧
    (x.desc.entry.getD ((s.portS .a).toNat % 8) 0xFFFF ≠ 0xFFFF →
      ∃ t, exec (.exitv p) s = .next t ∧ onlyFiring s t s.focus.rank ∧ sameMemory s t ∧
        t.firing? s.focus.rank = some { f with exit := some (.exit ((s.portS .a).toNat % 8)), exitBy := s.focus.id }) ∧
    (x.desc.entry.getD f.phase 0xFFFF ≠ 0xFFFF →
      (∃ t, exec (.retire p) s = .next t ∧ onlyFiring s t s.focus.rank ∧ sameMemory s t ∧
        t.firing? s.focus.rank = some { f with exit := some .retire, exitBy := s.focus.id }) ∧
      ∃ t, exec (.yield p) s = .next t ∧ onlyFiring s t s.focus.rank ∧ sameMemory s t ∧
        t.firing? s.focus.rank = some { f with exit := some .yield, exitBy := s.focus.id })

/-- TAKING A PRECISE FAULT (R167, R184, R328, R330, R333): the firing ends and commits nothing, a record with the next SEQ waits for the trap queue, and
the actor is suspended under that SEQ. TRAP takes it with SoftwareTrap and its code; a second exit-class instruction, a branch to a target past the code,
outside the actor's range or at no block start, and an exit to a phase without an entry take it with their own codes. FATAL reads 1 while no handler is
invoked (log entry 12). The words of one emulated slot count as one exit (log entry 76), so the second exit is stated of a slot of the block. -/
def Obligations.PreciseFaults : Prop :=
  ∀ s f x, s.here = some (f, x) → s.running x.lid = true → f.cancel = false →
    let taken := fun (t : State) (code : TrapCode) (detail : Nat) (aux : Word) =>
      s.fltSlot code.num (lidPart x.lid) = none →
      let seq := nextSerial 32 (s.part (lidPart x.lid)).trapSeq
      t.firing? s.focus.rank = none ∧ t.actor? s.focus.rank f.la = some { x with susp := some seq } ∧
      (t.part (lidPart x.lid)).trapSeq = seq ∧
      (∃ r, (t.part (lidPart x.lid)).pending = (s.part (lidPart x.lid)).pending ++ [r] ∧ r.seq = seq ∧ r.code = code ∧ r.ocode = code ∧
        r.precise = true ∧ r.handled = false ∧ r.fatal = true ∧ r.detail = detail ∧ r.aux = aux ∧ r.part = lidPart x.lid ∧ r.lid = x.lid ∧ r.g = x.g ∧
        r.rank = s.focus.rank ∧ r.actor = f.la ∧ r.phase = f.phase ∧ r.bid = f.bid ∧ r.cyc = s.clock.cycle) ∧
      t.mem = s.mem ∧ t.vers = s.vers ∧ t.full = s.full ∧ t.edges = s.edges ∧ t.launches = s.launches
    (∀ p c, f.exit = none → ∃ t, exec (.trap p c) s = .next t ∧ taken t .softwareTrap c.toNat 0) ∧
    (∀ p c w (n : Fin 8), f.exit ≠ none → (s.focus.id < 64 ∨ f.exitBy < 64 ∨ slotNo f.exitBy ≠ slotNo s.focus.id) →
      (∃ t, exec (.trap p c) s = .next t ∧ taken t .multiExit 0 0) ∧ (∃ t, exec (.br p w) s = .next t ∧ taken t .multiExit 0 0) ∧
      (∃ t, exec (.bri p) s = .next t ∧ taken t .multiExit 0 0) ∧ (∃ t, exec (.exit p n) s = .next t ∧ taken t .multiExit 0 0) ∧
      (∃ t, exec (.exitv p) s = .next t ∧ taken t .multiExit 0 0) ∧ (∃ t, exec (.retire p) s = .next t ∧ taken t .multiExit 0 0) ∧
      ∃ t, exec (.yield p) s = .next t ∧ taken t .multiExit 0 0) ∧
    (∀ p w l im, f.exit = none → s.launch? x.lid = some l → l.img = some im →
      let bad := fun n => im.code.length ≤ n ∨ n < x.range.1 ∨ x.range.2 ≤ n ∨ im.starts.getD n false = false
      (bad w.toNat → ∃ t, exec (.br p w) s = .next t ∧ taken t .badTarget 1 (w.setWidth 64)) ∧
      (bad ((s.portS .a).toNat % 2 ^ 32) → ∃ t, exec (.bri p) s = .next t ∧ taken t .badTarget 1 (((s.portS .a).setWidth 32).setWidth 64))) ∧
    (∀ p (n : Fin 8), f.exit = none → x.desc.entry.getD n.val 0xFFFF = 0xFFFF →
      ∃ t, exec (.exit p n) s = .next t ∧ taken t .badTarget 1 (BitVec.ofNat 64 n.val)) ∧
    (∀ p, f.exit = none → x.desc.entry.getD ((s.portS .a).toNat % 8) 0xFFFF = 0xFFFF →
      ∃ t, exec (.exitv p) s = .next t ∧ taken t .badTarget 1 (BitVec.ofNat 64 ((s.portS .a).toNat % 8))) ∧
    (∀ p, f.exit = none → x.desc.entry.getD f.phase 0xFFFF = 0xFFFF →
      (∃ t, exec (.retire p) s = .next t ∧ taken t .badTarget 1 (BitVec.ofNat 64 f.phase)) ∧
      ∃ t, exec (.yield p) s = .next t ∧ taken t .badTarget 1 (BitVec.ofNat 64 f.phase)) ∧
    (∀ p a, s.hereDet = true → ∃ t, exec (.rdsr p a 13) s = .next t ∧ taken t .privilege 0 0)

/-- R186: a patch that is not loaded, or whose bitstream is not valid, answers 0; otherwise what its bitstream computes (a free function of Config,
log entry 2) is delivered and its flip-flops move on. XOP.LOAD is installed at commit. -/
def Obligations.LutPatch : Prop :=
  (∀ p n a b s, (s.elem s.focus.rank).xopBits = [] → exec (.xop p n a b) s = .next (s.out2 a b 0)) ∧
  (∀ p (n : Fin 8) a b s e, s.elem s.focus.rank = e → e.xopBits ≠ [] →
    exec (.xop p n a b) s = .next (if Config.xopValid e.xopBits = true then (s.modElem s.focus.rank fun e =>
        { e with xopFf := Config.xopFlops e.xopBits n.val (s.portS .a) (s.portS .b) e.xopFf }).out2 a b
      (Config.xopOut e.xopBits n.val (s.portS .a) (s.portS .b) e.xopFf) else s.out2 a b 0)) ∧
  (∀ p s f x, s.here = some (f, x) → ptrSpace (s.portS .a) = 2 → ptrOwner (s.portS .a) = s.focus.rank → ptrOff (s.portS .a) % 64 = 0 →
    ptrOff (s.portS .a) + 8192 ≤ 32768 → s.meetsFifo s.focus.rank (ptrOff (s.portS .a)) 8192 = false →
    ∃ t, exec (.xopLoad p) s = .next t ∧ onlyFiring s t s.focus.rank ∧ sameMemory s t ∧
      t.firing? s.focus.rank = some { f with xopLoad := some (ptrOff (s.portS .a)) })

/-- R38, R40, R45, R194: FADD, FSUB, FMUL, FFMA, FDIV, FSQRT, FRCP and FRSQ deliver the exact result rounded once to their type under the mode and
saturation that hold, with the flags of the rounding, of the operation and of signalling operands; the special operands, the sign of an exact zero and the
canonical NaN are those of the tables. FEX2 and FLG2 answer their special operands, whole powers and powers of two as the table says; elsewhere they
round the model's own approximation, which is the model's choice (log entry 11). FABS and FNEG of a NaN give the canonical NaN. -/
def Obligations.FloatArithmetic : Prop :=
  (∀ p (t : Ty) a b s, t = .f32 ∨ t = .bf16 ∨ t = .f16 →
    let x := floatOf t (opd s t .a).toNat
    let y := floatOf t (opd s t .b).toNat
    let z := floatOf t (opd s t .c).toNat
    let answers := fun (i : Instr) (v : Exact × Flags) (sig : Flags) =>
      ∃ n fl, exec i s = .next ((s.raise fl).out2 a b (BitVec.ofNat 64 n)) ∧ gives t s.effMode s.effSat v sig n fl
    answers (.fadd p t a b) (sum s.effMode false x y) (x.sigFlag ||| y.sigFlag) ∧
    answers (.fsub p t a b) (sum s.effMode true x y) (x.sigFlag ||| y.sigFlag) ∧
    answers (.fmul p t a b) (product x y) (x.sigFlag ||| y.sigFlag) ∧
    answers (.ffma p t a b) (fused s.effMode x y z) (x.sigFlag ||| y.sigFlag ||| z.sigFlag) ∧
    answers (.fdiv p t a b) (quotient x y) (x.sigFlag ||| y.sigFlag) ∧
    answers (.fsqrt p t a b) (squareRoot x) x.sigFlag ∧
    answers (.frcp p t a b) (quotient (.num 1 0) x) x.sigFlag ∧
    answers (.frsq p t a b) (inverseRoot x) x.sigFlag ∧
    (x.isNan = true → answers (.fex2 p t a b) (.nan, 0) x.sigFlag ∧ answers (.flg2 p t a b) (.nan, 0) x.sigFlag) ∧
    (x = .inf false → answers (.fex2 p t a b) (.inf false, 0) 0 ∧ answers (.flg2 p t a b) (.inf false, 0) 0) ∧
    (x = .inf true → answers (.fex2 p t a b) (.zero false, 0) 0 ∧ answers (.flg2 p t a b) (.nan, flInvalid) 0) ∧
    (∀ k : Int, finite x = true → real x = k → answers (.fex2 p t a b) (.num (2 ^ k), 0) 0) ∧
    (∀ k : Int, finite x = true → real x = 2 ^ k → answers (.flg2 p t a b) (exactly k false, 0) 0) ∧
    (∀ n, x = .zero n → answers (.flg2 p t a b) (.inf true, flDivZero) 0) ∧
    (finite x = true → real x < 0 → answers (.flg2 p t a b) (.nan, flInvalid) 0)) ∧
  (∀ p (t : Ty) a b s,
    let x := floatOf t ((s.portS .a).toNat % 2 ^ t.width)
    let rounded := fun (r : FVal × Flags) =>
      let q := roundTo t s.effMode s.effSat r.1
      (s.raise (q.2 ||| r.2)).out2 a b (BitVec.ofNat 64 q.1)
    exec (.fex2 p t a b) s = .next (rounded (fvExp2 x)) ∧
    exec (.flg2 p t a b) s = .next (rounded (fvLog2 x)) ∧
    (x.isNan = true →
      exec (.fabs p t a b) s = .next ((s.raise x.sigFlag).out2 a b (BitVec.ofNat 64 (canonNan t))) ∧
      exec (.fneg p t a b) s = .next ((s.raise x.sigFlag).out2 a b (BitVec.ofNat 64 (canonNan t)))))

/-- R36: the value of each encoding of a float format. R194 to R196: FABS and FNEG of a value that is no NaN act on the sign bit alone; FMIN delivers the
lesser operand and FMAX the greater, −0 below +0, or the one that is no NaN; a signalling operand is invalid; FCLS delivers a mask with one bit of 0 to 9. -/
def Obligations.FloatSignsAndClasses : Prop :=
  (∀ (t : Ty) (n : Nat), t.isFloat = true → n < 2 ^ t.width →
    let mb := digits t - 1
    let m := n % 2 ^ mb
    let e := n % 2 ^ (t.width - 1) / 2 ^ mb
    let top := 2 ^ (t.width - 1 - mb) - 1
    let neg := decide (2 ^ (t.width - 1) ≤ n)
    let sign : ℚ := if neg then -1 else 1
    let bias : Int := 1 - lowest t - mb
    (t ≠ .e4m3 → e = top → (m = 0 → floatOf t n = .inf neg) ∧ (m ≠ 0 → floatOf t n = .nan (decide (m < 2 ^ (mb - 1))))) ∧
    (t = .e4m3 → e = top → m = 7 → floatOf t n = .nan false) ∧
    (e < top ∨ (t = .e4m3 ∧ m < 7) → finite (floatOf t n) = true ∧ (e = 0 → m = 0 → floatOf t n = .zero neg) ∧
      real (floatOf t n) = if e = 0 then sign * 2 ^ (1 - bias) * (m / 2 ^ mb) else sign * 2 ^ ((e : Int) - bias) * (1 + m / 2 ^ mb))) ∧
  (∀ p (t : Ty) a b s, t.isFloat = true → (floatOf t ((s.portS .a).toNat % 2 ^ t.width)).isNan = false →
    exec (.fneg p t a b) s = .next ((s.raise 0).out2 a b ((opd s t .a ^^^ BitVec.twoPow t.width (t.width - 1)).setWidth 64)) ∧
    exec (.fabs p t a b) s = .next ((s.raise 0).out2 a b ((opd s t .a &&& ~~~BitVec.twoPow t.width (t.width - 1)).setWidth 64))) ∧
  (∀ p (t : Ty) a b s, t.isFloat = true →
    let sig := (floatOf t (opd s t .a).toNat).sigFlag ||| (floatOf t (opd s t .b).toNat).sigFlag
    ∃ l h, exec (.fmin p t a b) s = .next ((s.raise sig).out2 a b (l.setWidth 64)) ∧
      exec (.fmax p t a b) s = .next ((s.raise sig).out2 a b (h.setWidth 64)) ∧ ordered t (opd s t .a) (opd s t .b) l h) ∧
  (∀ p (t : Ty) a b s, t.isFloat = true →
    let x := floatOf t ((s.portS .a).toNat % 2 ^ t.width)
    let normal := (s.portS .a).toNat / 2 ^ Ty.manBits t % 2 ^ Ty.expBits t ≠ 0
    let is := fun k => exec (.fcls p t a b) s = .next (s.out2 a b (BitVec.twoPow 64 k))
    (x = .inf true → is 0) ∧ (∀ z e, x = .num z e → z < 0 → (normal → is 1) ∧ (¬ normal → is 2)) ∧ (x = .zero true → is 3) ∧ (x = .zero false → is 4) ∧
    (∀ z e, x = .num z e → 0 ≤ z → (¬ normal → is 5) ∧ (normal → is 6)) ∧ (x = .inf false → is 7) ∧ (x = .nan true → is 8) ∧ (x = .nan false → is 9))

/-- R197: the float compares of finite operands order the real numbers that they are, −0 and +0 being equal, and infinities stand outside them; with a
NaN, FCMPUN delivers 1 and the others 0, and FCMPLT and FCMPLE raise invalid. -/
def Obligations.FloatCompares : Prop :=
  ∀ p (t : Ty) a b s, t.isFloat = true →
    let x := floatOf t ((s.portS .a).toNat % 2 ^ t.width)
    let y := floatOf t ((s.portS .b).toNat % 2 ^ t.width)
    (finite x = true → finite y = true →
      exec (.fcmpeq p t a b) s = .next ((s.raise 0).out2 a b (if real x = real y then 1 else 0)) ∧
      exec (.fcmplt p t a b) s = .next ((s.raise 0).out2 a b (if real x < real y then 1 else 0)) ∧
      exec (.fcmple p t a b) s = .next ((s.raise 0).out2 a b (if real x ≤ real y then 1 else 0)) ∧
      exec (.fcmpun p t a b) s = .next ((s.raise 0).out2 a b 0)) ∧
    (x.isNan = false → y.isNan = false →
      exec (.fcmpeq p t a b) s = .next ((s.raise 0).out2 a b (if less x y = false ∧ less y x = false then 1 else 0)) ∧
      exec (.fcmplt p t a b) s = .next ((s.raise 0).out2 a b (if less x y = true then 1 else 0)) ∧
      exec (.fcmple p t a b) s = .next ((s.raise 0).out2 a b (if less y x = false then 1 else 0)) ∧
      exec (.fcmpun p t a b) s = .next ((s.raise 0).out2 a b 0)) ∧
    (x.isNan = true ∨ y.isNan = true →
      let sig : Flags := if x = .nan true ∨ y = .nan true then flInvalid else 0
      exec (.fcmpeq p t a b) s = .next ((s.raise sig).out2 a b 0) ∧
      exec (.fcmplt p t a b) s = .next ((s.raise flInvalid).out2 a b 0) ∧
      exec (.fcmple p t a b) s = .next ((s.raise flInvalid).out2 a b 0) ∧
      exec (.fcmpun p t a b) s = .next ((s.raise sig).out2 a b 1))

/-- R36, R40: rounding a value that a format holds gives its encoding back, in every mode, and raises nothing. R41, R198: CVT rounds to a float type,
saturates or wraps between integer types, and rounds a float to an integer, out of range to the nearest bound with invalid, and a NaN to 0 with invalid. -/
def Obligations.Conversions : Prop :=
  (∀ (t : Ty) (mode : Rnd) (sat : Bool) (n : Nat), t.isFloat = true → n < 2 ^ t.width → (floatOf t n).isNan = false →
    roundTo t mode sat (floatOf t n) = (n, 0)) ∧
  (∀ p (t src : Ty) a s, ∃ r fl, exec (.cvt p t a src) s = .next ((s.raise fl).out1 a (ext t r)) ∧ converts s t src (opd s src .a) r fl)

/-- R206: the counter-based generator, its rounds written out. -/
def Obligations.Generator : Prop :=
  let mixed := fun (k c : Word) =>
    let x0 := k.setWidth 32 ^^^ c.setWidth 32
    let y0 := (k >>> 32).setWidth 32 ^^^ (c >>> 32).setWidth 32 ^^^ (0x9E3779B9 : BitVec 32)
    let u1 := x0 + y0; let y1 := y0.rotateLeft 13 ^^^ u1; let x1 := u1.rotateLeft 17 + y1
    let u2 := x1 + y1; let y2 := y1.rotateLeft 13 ^^^ u2; let x2 := u2.rotateLeft 17 + y2
    let u3 := x2 + y2; let y3 := y2.rotateLeft 13 ^^^ u3; let x3 := u3.rotateLeft 17 + y3
    (x3 ^^^ y3 : BitVec 32)
  (∀ p a b s, exec (.rngc p false false a b) s = .next (s.out2 a b ((mixed (s.portS .a) (s.portS .b)).setWidth 64))) ∧
  (∀ p a b s f x, s.here = some (f, x) → exec (.rngc p false true a b) s = .next (s.out2 a b ((mixed x.seed (s.portS .b)).setWidth 64))) ∧
  (∀ p a b s, ∃ v : Vec, exec (.rngc p true false a b) s = .next (s.outV2 a b v) ∧
    ∀ i, i < 16 → v.extractLsb' (32 * i) 32 = mixed (s.portS .a) (s.portS .b + BitVec.ofNat 64 i)) ∧
  (∀ p a b s f x, s.here = some (f, x) → ∃ v : Vec, exec (.rngc p true true a b) s = .next (s.outV2 a b v) ∧
    ∀ i, i < 16 → v.extractLsb' (32 * i) 32 = mixed x.seed (s.portS .b + BitVec.ofNat 64 i))

/-- R193, R200: the integer forms of the lane-wise operations, lane by lane: wrapped, or saturated under PFX.SAT; counts at or above w give 0 or the
sign; compares give all ones or 0. -/
def Obligations.VectorIntegers : Prop :=
  ∀ p (t : Ty) a b s, t.isFloat = false →
    let x := fun i => laneOf t (s.portV .a) i
    let y := fun i => laneOf t (s.portV .b) i
    let z := fun i => laneOf t (s.portV .c) i
    (∃ v, exec (.vadd p t a b) s = .next ((s.raise 0).outV2 a b v) ∧
      ∀ i, i < t.lanes → satResult s t (num t (x i) + num t (y i)) (laneOf t v i)) ∧
    (∃ v, exec (.vsub p t a b) s = .next ((s.raise 0).outV2 a b v) ∧
      ∀ i, i < t.lanes → satResult s t (num t (x i) - num t (y i)) (laneOf t v i)) ∧
    (∃ v, exec (.vmul p t a b) s = .next ((s.raise 0).outV2 a b v) ∧
      ∀ i, i < t.lanes → satResult s t (num t (x i) * num t (y i)) (laneOf t v i)) ∧
    (∃ v, exec (.vfma p t a b) s = .next ((s.raise 0).outV2 a b v) ∧
      ∀ i, i < t.lanes → satResult s t (num t (x i) * num t (y i) + num t (z i)) (laneOf t v i)) ∧
    (∃ v, exec (.vabs p t a b) s = .next ((s.raise 0).outV2 a b v) ∧
      ∀ i, i < t.lanes → satResult s t |num t (x i)| (laneOf t v i)) ∧
    (∃ v, exec (.vneg p t a b) s = .next ((s.raise 0).outV2 a b v) ∧
      ∀ i, i < t.lanes → satResult s t (-num t (x i)) (laneOf t v i)) ∧
    (∃ v, exec (.vmin p t a b) s = .next ((s.raise 0).outV2 a b v) ∧
      ∀ i, i < t.lanes → num t (laneOf t v i) = Min.min (num t (x i)) (num t (y i))) ∧
    (∃ v, exec (.vmax p t a b) s = .next ((s.raise 0).outV2 a b v) ∧
      ∀ i, i < t.lanes → num t (laneOf t v i) = Max.max (num t (x i)) (num t (y i))) ∧
    (∃ v, exec (.vshl p t a b) s = .next ((s.raise 0).outV2 a b v) ∧
      ∀ i, i < t.lanes → s.effSat = false → laneOf t v i = x i <<< (y i).toNat) ∧
    (∃ v, exec (.vshr p t a b) s = .next ((s.raise 0).outV2 a b v) ∧ ∀ i, i < t.lanes → laneOf t v i = x i >>> (y i).toNat) ∧
    (∃ v, exec (.vsar p t a b) s = .next ((s.raise 0).outV2 a b v) ∧ ∀ i, i < t.lanes → laneOf t v i = (x i).sshiftRight (y i).toNat) ∧
    (∃ v, exec (.vcmpeq p t a b) s = .next ((s.raise 0).outV2 a b v) ∧
      ∀ i, i < t.lanes → laneOf t v i = if x i = y i then BitVec.allOnes _ else 0) ∧
    (∃ v, exec (.vcmplt p t a b) s = .next ((s.raise 0).outV2 a b v) ∧
      ∀ i, i < t.lanes → laneOf t v i = if num t (x i) < num t (y i) then BitVec.allOnes _ else 0) ∧
    (∃ v, exec (.vcmple p t a b) s = .next ((s.raise 0).outV2 a b v) ∧
      ∀ i, i < t.lanes → laneOf t v i = if num t (x i) ≤ num t (y i) then BitVec.allOnes _ else 0)

/-- R193, R200: the float forms round each lane once under the mode and saturation that hold and raise the flags of every lane (VEX2 rounds the model's
own approximation, log entry 11); VMIN, VMAX, VABS, VNEG and the compares act on each lane as their scalar forms do, a compare giving all ones or 0; the
bitwise operations act on 512 bits. -/
def Obligations.VectorFloats : Prop :=
  (∀ p (t : Ty) a b s, t = .f32 ∨ t = .bf16 ∨ t = .f16 →
    let la := fun i => laneOf t (s.portV .a) i
    let lb := fun i => laneOf t (s.portV .b) i
    let x := fun i => floatOf t (la i).toNat
    let y := fun i => floatOf t (lb i).toNat
    let z := fun i => floatOf t (laneOf t (s.portV .c) i).toNat
    let sx := fun i => (x i).sigFlag
    let sxy := fun i => (x i).sigFlag ||| (y i).sigFlag
    let any := fun i => if (x i).isNan || (y i).isNan then flInvalid else 0
    let lanewise := fun (i : Instr) (g : Nat → Exact × Flags) (sig : Nat → Flags) =>
      ∃ v fl, exec i s = .next ((s.raise (anyOf t.lanes fl)).outV2 a b v) ∧
        ∀ k, k < t.lanes → gives t s.effMode s.effSat (g k) (sig k) (laneOf t v k).toNat (fl k)
    let exact := fun (i : Instr) (fl : Nat → Flags) (g : Nat → BitVec t.width) =>
      ∃ v, exec i s = .next ((s.raise (anyOf t.lanes fl)).outV2 a b v) ∧ ∀ k, k < t.lanes → laneOf t v k = g k
    lanewise (.vadd p t a b) (fun i => sum s.effMode false (x i) (y i)) sxy ∧
    lanewise (.vsub p t a b) (fun i => sum s.effMode true (x i) (y i)) sxy ∧
    lanewise (.vmul p t a b) (fun i => product (x i) (y i)) sxy ∧
    lanewise (.vfma p t a b) (fun i => fused s.effMode (x i) (y i) (z i)) (fun i => sxy i ||| (z i).sigFlag) ∧
    lanewise (.vrcp p t a b) (fun i => quotient (.num 1 0) (x i)) sx ∧
    lanewise (.vrsq p t a b) (fun i => inverseRoot (x i)) sx ∧
    exact (.vex2 p t a b) (fun i => (roundTo t s.effMode s.effSat (fvExp2 (x i)).1).2 ||| (fvExp2 (x i)).2)
      (fun i => BitVec.ofNat _ (roundTo t s.effMode s.effSat (fvExp2 (x i)).1).1) ∧
    (∃ l h : Nat → BitVec t.width, (∀ i, i < t.lanes → ordered t (la i) (lb i) (l i) (h i)) ∧ exact (.vmin p t a b) sxy l ∧
      exact (.vmax p t a b) sxy h) ∧
    exact (.vabs p t a b) sx (fun i =>
      if (x i).isNan then BitVec.ofNat _ (canonNan t) else la i &&& ~~~BitVec.twoPow t.width (t.width - 1)) ∧
    exact (.vneg p t a b) sx (fun i => if (x i).isNan then BitVec.ofNat _ (canonNan t) else la i ^^^ BitVec.twoPow t.width (t.width - 1)) ∧
    exact (.vcmpeq p t a b) sxy (fun i =>
      if (x i).isNan || (y i).isNan || less (x i) (y i) || less (y i) (x i) then 0 else BitVec.allOnes _) ∧
    exact (.vcmplt p t a b) any (fun i => if less (x i) (y i) then BitVec.allOnes _ else 0) ∧
    exact (.vcmple p t a b) any (fun i => if (x i).isNan || (y i).isNan || less (y i) (x i) then 0 else BitVec.allOnes _)) ∧
  (∀ p a b s,
    exec (.vand p a b) s = .next (s.outV2 a b (s.portV .a &&& s.portV .b)) ∧
    exec (.vor p a b) s = .next (s.outV2 a b (s.portV .a ||| s.portV .b)) ∧
    exec (.vxor p a b) s = .next (s.outV2 a b (s.portV .a ^^^ s.portV .b)))

/-- R193, R201: moving lanes. A lane index at or past the end gives 0; a NaN of a float type is moved as the canonical NaN, and a signalling one that is
moved is invalid; no other flag is raised. -/
def Obligations.VectorMoves : Prop :=
  ∀ p (t : Ty) a b s,
    let x := fun i => laneOf t (s.portV .a) i
    let y := fun i => laneOf t (s.portV .b) i
    let z := fun i => laneOf t (s.portV .c) i
    let moves := fun (i : Instr) (from_ : Nat → Option (BitVec t.width)) =>
      ∃ v, exec i s = .next ((s.raise (anyOf t.lanes fun k => ((from_ k).map (movedFlag t)).getD 0)).outV2 a b v) ∧
        ∀ k, k < t.lanes → laneOf t v k = ((from_ k).map (moved t)).getD 0
    moves (.vsel p t a b) (fun i => some (if z i = 0 then y i else x i)) ∧
    moves (.vbcast p t a b) (fun _ => some (opd s t .a)) ∧
    ((s.portS .b).toNat < t.lanes → exec (.vext p t a b) s = .next ((s.raise (movedFlag t (x (s.portS .b).toNat))).out2 a b
      (ext t (moved t (x (s.portS .b).toNat))))) ∧
    (t.lanes ≤ (s.portS .b).toNat → exec (.vext p t a b) s = .next ((s.raise 0).out2 a b 0)) ∧
    moves (.vins p t a b) (fun i => some (if i = (s.portS .c).toNat then opd s t .b else x i)) ∧
    moves (.vperm p t a b) (fun i => if (y i).toNat < t.lanes then some (x (y i).toNat) else none) ∧
    moves (.vshuf p t a b) (fun i =>
      if (z i).toNat < t.lanes then some (x (z i).toNat)
      else if (z i).toNat < 2 * t.lanes then some (y ((z i).toNat - t.lanes)) else none) ∧
    (∃ v, exec (.viota p t a b) s = .next ((s.raise 0).outV2 a b v) ∧
      ∀ i, i < t.lanes → laneOf t v i = opd s t .a + BitVec.ofNat _ i) ∧
    exec (.vcnt p t a b) s = .next (s.out2 a b (BitVec.ofNat 64 ((List.range t.lanes).filter fun i => x i != 0).length)) ∧
    moves (.vcmprs p t a b) (fun i => ((List.range t.lanes).filter fun k => y k != 0)[i]?.map x) ∧
    moves (.vexpnd p t a b) (fun i => if y i = 0 then none else some (x ((List.range i).filter fun k => y k != 0).length))

/-- R202, R203, R205: over integer lanes VRED and VSCAN give the sum modulo 2^w, VRED the least or greatest lane, and VDOT adds the sum of the 64
products to the accumulator modulo 2^32; a masked VRED takes the lanes whose lane of B is not 0. R46, R47, R49, R50, R202, R203, R205: the float reductions
widen their lanes to F32, combine them in the pairwise tree or in ascending order, rounding every combination under the mode that holds (VDOT its blocks,
to nearest), and round once more to the type; a lane that the mask excludes is the identity. R204: VTOPK takes the greatest keys first, equal keys in
ascending order. R42, R199: VCVT converts one quarter, half or all of a vector, by CVT or with a random number; port B gives the other lanes. -/
def Obligations.Reductions : Prop :=
  ((∀ p (t : Ty) a m s, t.isFloat = false →
    let x := fun i => num t (laneOf t (s.portV .a) i)
    let on := (List.range t.lanes).filter fun i => !m || laneOf t (s.portV .b) i != 0
    exec (.vred p t a m .add) s = .next ((s.raise 0).out1 a (ext t (BitVec.ofInt t.width ((on.map x).sum)))) ∧
    (∃ r, exec (.vred p t a m .min) s = .next ((s.raise 0).out1 a (ext t r)) ∧ (∀ i, i ∈ on → num t r ≤ x i) ∧
      ((∃ i, i ∈ on ∧ num t r = x i) ∨ (on = [] ∧ ∀ q : BitVec t.width, num t q ≤ num t r))) ∧
    (∃ r, exec (.vred p t a m .max) s = .next ((s.raise 0).out1 a (ext t r)) ∧ (∀ i, i ∈ on → x i ≤ num t r) ∧
      ((∃ i, i ∈ on ∧ num t r = x i) ∨ (on = [] ∧ ∀ q : BitVec t.width, num t r ≤ num t q)))) ∧
  (∀ p (t : Ty) a b s, t.isFloat = false →
    ∃ v, exec (.vscan p t a b) s = .next ((s.raise 0).outV2 a b v) ∧ ∀ i, i < t.lanes →
      laneOf t v i = BitVec.ofInt t.width (((List.range (i + 1)).map fun k => num t (laneOf t (s.portV .a) k)).sum)) ∧
  (∀ p (t c : Ty) a m s, (t = .i8 ∨ t = .n8) → (c = .i8 ∨ c = .n8) →
    exec (.vdot p t a m c) s = .next (s.out1 a (ext .i32 (opd s .i32 .c +
      BitVec.ofInt Ty.i32.width (((List.range 64).map fun k => num t (laneOf t (s.portV .a) k) * num c (laneOf c (s.portV .b) k)).sum)))))) ∧
  ((∀ p (t : Ty) a (m : Bool) (o : RedOp) s, t = .f32 ∨ t = .bf16 ∨ t = .f16 →
    ∃ (w : Nat → Nat) (wf : Nat → Flags) (f : Nat → Nat → Nat × Flags) (n : Nat) (fl : Flags),
      (∀ i, i < t.lanes → if m = true ∧ laneOf t (s.portV .b) i = 0
        then w i = (match o with | .add => 0x80000000 | .min => 0x7F800000 | .max => 0xFF800000) ∧ wf i = 0
        else widens t (laneOf t (s.portV .a) i).toNat (w i) (wf i)) ∧
      (∀ u v, let x := floatOf .f32 u
        let y := floatOf .f32 v
        u < 2 ^ 32 → v < 2 ^ 32 → match o with
        | .add => gives .f32 s.effMode false (sum s.effMode false x y) (x.sigFlag ||| y.sigFlag) (f u v).1 (f u v).2
        | .min => (f u v).2 = x.sigFlag ||| y.sigFlag ∧ (f u v).1 < 2 ^ 32 ∧
          ∃ h, ordered .f32 (BitVec.ofNat _ u) (BitVec.ofNat _ v) (BitVec.ofNat _ (f u v).1) h
        | .max => (f u v).2 = x.sigFlag ||| y.sigFlag ∧ (f u v).1 < 2 ^ 32 ∧
          ∃ l, ordered .f32 (BitVec.ofNat _ u) (BitVec.ofNat _ v) l (BitVec.ofNat _ (f u v).1)) ∧
      let r := pairwise f w (Nat.log2 t.lanes) 0
      gives t s.effMode false (asExact (floatOf .f32 r.1), 0) (floatOf .f32 r.1).sigFlag n fl ∧
      exec (.vred p t a m o) s = .next ((s.raise (anyOf t.lanes wf ||| r.2 ||| fl)).out1 a (BitVec.ofNat 64 n))) ∧
  (∀ p (t : Ty) a b s, t = .f32 ∨ t = .bf16 ∨ t = .f16 →
    ∃ (w acc : Nat → Nat) (wf af of_ : Nat → Flags) (v : Vec),
      (∀ i, i < t.lanes → widens t (laneOf t (s.portV .a) i).toNat (w i) (wf i)) ∧
      acc 0 = (moved .f32 (BitVec.ofNat _ (w 0))).toNat ∧ af 0 = movedFlag .f32 (BitVec.ofNat _ (w 0)) ∧
      (∀ i, i + 1 < t.lanes → let x := floatOf .f32 (acc i)
        let y := floatOf .f32 (w (i + 1))
        gives .f32 s.effMode false (sum s.effMode false x y) (x.sigFlag ||| y.sigFlag) (acc (i + 1)) (af (i + 1))) ∧
      (∀ i, i < t.lanes → gives t s.effMode false (asExact (floatOf .f32 (acc i)), 0) 0 (laneOf t v i).toNat (of_ i)) ∧
      exec (.vscan p t a b) s = .next ((s.raise (anyOf t.lanes wf ||| anyOf t.lanes fun i => of_ i ||| af i)).outV2 a b v)) ∧
  (∀ p (t : Ty) a x k s, ∃ (order : List Nat) (v : Vec), order.length = t.lanes ∧ order.Perm (List.range t.lanes) ∧
    (order.Pairwise fun i j => let below := keyBelow t (laneOf t (s.portV .a) j) (laneOf t (s.portV .a) i)
      below = true ∨ (keyBelow t (laneOf t (s.portV .a) i) (laneOf t (s.portV .a) j) = false ∧ i < j)) ∧
    exec (.vtopk p t a x k) s = .next (s.outV1 a v) ∧ ∀ j, j < t.lanes → laneOf t v j =
      if j < k.val + 1 then (if x then BitVec.ofNat _ (order.getD j 0) else moved t (laneOf t (s.portV .a) (order.getD j 0))) else 0) ∧
  (∀ p (t c : Ty) a sd (q : Fin 16) s, (sd = true → c = .f32 ∧ t.isFloat = true) →
    let n := Nat.min c.lanes t.lanes
    let src := if t.lanes < c.lanes then q.val * n else 0
    let dst := if c.lanes < t.lanes then q.val * n else 0
    ∃ v fl, exec (.vcvt p t a sd q c) s = .next ((s.raise (anyOf n fl)).outV1 a v) ∧
      (∀ i, i < n → dst + i < t.lanes →
        if sd then dithers t s.effSat (floatOf c (laneOf c (s.portV .a) (src + i)).toNat) (laneOf .n32 (s.portV .c) i).toNat
          (laneOf t v (dst + i)).toNat (fl i)
        else converts s t c (laneOf c (s.portV .a) (src + i)) (laneOf t v (dst + i)) (fl i)) ∧
      ∀ j, j < t.lanes → (j < dst ∨ dst + n ≤ j) → laneOf t v j = laneOf t (s.portV .b) j) ∧
  (∀ p (t c : Ty) a m s, (t = .e4m3 ∨ t = .e5m2) ∧ (c = .e4m3 ∨ c = .e5m2) ∨ t = .bf16 ∧ c = .bf16 ∧ m = false →
    ∃ (acc bl : Nat → Nat) (bfl af : Nat → Flags), acc 0 = ((s.portS .c).setWidth 32).toNat ∧
      (∀ k, k < t.lanes / 32 →
        blockIs (if m then ((s.portS .c).extractLsb' (32 + 8 * k) 8).toNat else 127)
          (if m then ((s.portS .c).extractLsb' (48 + 8 * k) 8).toNat else 127)
          (fun i => floatOf t (laneOf t (s.portV .a) (32 * k + i)).toNat) (fun i => floatOf c (laneOf c (s.portV .b) (32 * k + i)).toNat)
          (bl k) (bfl k) ∧
        let x := floatOf .f32 (acc k)
        let y := floatOf .f32 (bl k)
        gives .f32 .rne false (sum .rne false x y) (x.sigFlag ||| y.sigFlag) (acc (k + 1)) (af k)) ∧
      exec (.vdot p t a m c) s = .next ((s.raise (anyOf (t.lanes / 32) fun k => bfl k ||| af k)).out1 a (BitVec.ofNat 64 (acc (t.lanes / 32))))))

/-- R185: reading a handle. A token below the bound is delivered as a vector, or its lane 0 in a type; TKIND delivers its tag and kind, HCNT and HFREE
the counts of the snapshot, and PEEKT a flit of a burst. An offset at or past the bound, and a flit past the last one, is RateViolation. R323: in a
deterministic launch HCNT, HFREE, and a read of a `var` input at or past its rate are Privilege. R185: writing a handle. POKE, POKET and EMIT write an
output slot that the commit publishes; ADVR, ADVW and ANTI add to the counts of the firing, at most 63 from a port. A kind above 8, and a HEAD whose TY is
15 (R20), is IllegalEncoding. Nothing else changes, and no byte of memory. -/
def Obligations.HandleAccesses : Prop :=
  (∀ p a (h o : Fin 16) s f x, s.here = some (f, x) →
    let w := x.desc.handle h.val
    let tok := s.unitAt s.focus.rank f.la h.val o.val w.tile
    let pay := fun n => match tok[n]? with | some q => q.tok.pay | none => (0 : Vec)
    ((s.hereDet = true → w.var = false ∨ o.val < w.rate) → o.val < handleBound f x.desc h.val →
      (∀ c, exec (.peek p c a true h o) s = .next (s.outV1 a (pay 0))) ∧
      (∀ c t, Ty.ofCode c = some t → exec (.peek p c a false h o) s = .next (s.out1 a (ext t ((pay 0).setWidth t.width)))) ∧
      (∀ q, tok[0]? = some q → exec (.tkind p a h o) s = .next (s.out1 a (BitVec.ofNat 64 (q.tok.kind.code + 65536 * q.tok.tag.toNat)))) ∧
      ((s.portS .a).toNat ≤ tok.length - 1 →
        (∀ c, exec (.peekt p c a true h o) s = .next (s.outV1 a (pay (s.portS .a).toNat))) ∧
        ∀ c t, Ty.ofCode c = some t →
          exec (.peekt p c a false h o) s = .next (s.out1 a (ext t ((pay (s.portS .a).toNat).setWidth t.width)))) ∧
      (tok.length - 1 < (s.portS .a).toNat → ∀ c v, exec (.peekt p c a v h o) s = .next (s.faultHere .rateViolation (s.portS .a)))) ∧
    (s.hereDet = true →
      exec (.hcnt p a h) s = .next (s.faultHere .privilege 0) ∧ exec (.hfree p a h) s = .next (s.faultHere .privilege 0) ∧
      (w.var = true → w.rate ≤ o.val → ∀ c v,
        exec (.peek p c a v h o) s = .next (s.faultHere .privilege 0) ∧ exec (.tkind p a h o) s = .next (s.faultHere .privilege 0) ∧
        exec (.peekt p c a v h o) s = .next (s.faultHere .privilege 0))) ∧
    (s.hereDet = false →
      exec (.hcnt p a h) s = .next (s.out1 a (BitVec.ofNat 64 (f.snap.getD h.val 0))) ∧
      exec (.hfree p a h) s = .next (s.out1 a (BitVec.ofNat 64 (f.snap.getD h.val 0))) ∧
      (handleBound f x.desc h.val ≤ o.val → ∀ c v,
        exec (.peek p c a v h o) s = .next (s.faultHere .rateViolation (BitVec.ofNat 64 o.val)) ∧
        exec (.tkind p a h o) s = .next (s.faultHere .rateViolation (BitVec.ofNat 64 o.val)) ∧
        exec (.peekt p c a v h o) s = .next (s.faultHere .rateViolation (BitVec.ofNat 64 o.val))))) ∧
  (∀ p (h o : Fin 16) s f x, s.here = some (f, x) →
    let wrote := fun (r : Host.Outcome State Fault Refusal) (g : Firing) =>
      ∃ t, r = .next t ∧ onlyFiring s t s.focus.rank ∧ sameMemory s t ∧ t.firing? s.focus.rank = some g
    let out := fun (flit : Nat) (k : Kind) (tag : Option (BitVec 32)) (pay : Vec) =>
      { f with outs := f.outs ++ [{ h := h.val, off := o.val, flit, entry := f.entry, slot := slotKey s.focus.id, kind := k, tag, pay }] }
    (o.val < handleBound f x.desc h.val →
      wrote (exec (.poke p true h o) s) (out 0 .data none (s.portV .a)) ∧
      wrote (exec (.poke p false h o) s) (out 0 .data none ((s.portS .a).setWidth 512)) ∧
      (∀ (c : BitVec 4) k, Kind.ofCode c.toNat = some k → c.toNat ≤ 8 → k ≠ .head →
        wrote (exec (.emit p c true h o) s) (out 0 k (some (if c.toNat ≤ 3 then (s.portS .b).setWidth 32 else 0)) (s.portV .a)) ∧
        wrote (exec (.emit p c false h o) s) (out 0 k (some (if c.toNat ≤ 3 then (s.portS .b).setWidth 32 else 0)) ((s.portS .a).setWidth 512))) ∧
      (1 ≤ (s.portS .a).toNat → (s.portS .a).toNat ≤ 16 →
        wrote (exec (.poket p true h o) s) (out (s.portS .a).toNat .body none (s.portV .b)) ∧
        wrote (exec (.poket p false h o) s) (out (s.portS .a).toNat .body none ((s.portS .b).setWidth 512))) ∧
      (s.portS .a = 0 →
        (bf (s.portV .b) 511 508 ≠ 15 → wrote (exec (.poket p true h o) s) (out 0 .head none (s.portV .b))) ∧
        (bf (s.portV .b) 511 508 = 15 → exec (.poket p true h o) s = .next (s.faultHere .illegalEncoding 0)) ∧
        wrote (exec (.poket p false h o) s) (out 0 .head none ((s.portS .b).setWidth 512))) ∧
      (16 < (s.portS .a).toNat → ∀ v, exec (.poket p v h o) s = .next (s.faultHere .rateViolation (s.portS .a))) ∧
      (bf (s.portV .a) 511 508 ≠ 15 → wrote (exec (.emit p 1 true h o) s) (out 0 .head (some ((s.portS .b).setWidth 32)) (s.portV .a))) ∧
      wrote (exec (.emit p 1 false h o) s) (out 0 .head (some ((s.portS .b).setWidth 32)) ((s.portS .a).setWidth 512))) ∧
    (bf (s.portV .a) 511 508 = 15 → exec (.emit p 1 true h o) s = .next (s.faultHere .illegalEncoding 0)) ∧
    (∀ c : BitVec 4, 8 < c.toNat → ∀ v, exec (.emit p c v h o) s = .next (s.faultHere .illegalEncoding 0)) ∧
    (handleBound f x.desc h.val ≤ o.val → ∀ v,
      let late := Host.Outcome.next (s.faultHere .rateViolation (BitVec.ofNat 64 o.val))
      exec (.poke p v h o) s = late ∧ exec (.poket p v h o) s = late ∧
      ∀ c : BitVec 4, c.toNat ≤ 8 → (c = 1 → v = true → bf (s.portV .a) 511 508 ≠ 15) → exec (.emit p c v h o) s = late) ∧
    (∀ n : Fin 32,
      wrote (exec (.advr p false h n) s) { f with pend := f.pend.modify h.val (· + n.val) } ∧
      wrote (exec (.advw p false h n) s) { f with pend := f.pend.modify h.val (· + n.val) } ∧
      wrote (exec (.anti p false h n) s) { f with antis := f.antis.modify h.val (· + n.val) } ∧
      ((s.portS .a).toNat ≤ 63 →
        wrote (exec (.advr p true h n) s) { f with pend := f.pend.modify h.val (· + (s.portS .a).toNat) } ∧
        wrote (exec (.advw p true h n) s) { f with pend := f.pend.modify h.val (· + (s.portS .a).toNat) } ∧
        wrote (exec (.anti p true h n) s) { f with antis := f.antis.modify h.val (· + (s.portS .a).toNat) }) ∧
      (63 < (s.portS .a).toNat → let many := Host.Outcome.next (s.faultHere .rateViolation (s.portS .a))
        exec (.advr p true h n) s = many ∧ exec (.advw p true h n) s = many ∧ exec (.anti p true h n) s = many)))

/-- R207 to R210: the lane-group instructions. LGLEN sets the groups, LGDONE counts the steps of the occupied ones down, and both deliver the status of
the new state, which is held until commit. LGPACK hands out each finished group in order, with its series id as tag, and takes the next token of its
input into each group that is then empty. BMV and BMM form, for every row of an active group that they cover, C + M × x term by term in ascending
columns, rounding once for each; the other lanes keep their bits.
R256 to R263: the fibre instructions. FISECT and FUNION deliver from the latched match. FSCAN, FREP and FRED run once in a firing, write their tokens
from offset 0 and add to the pending advances; what they write is said here without the loops of the model: of FSCAN with its descriptor and arrays in
local memory (P keeps its 32 bits in the cursor, log 26), of its first read where the descriptor lies in die memory, of FREP, and of FRED with its
sequential combination and its close. FSTOP writes a stop token, FCHK and FCRD classify a token. -/
def Obligations.LaneGroupsAndFibres : Prop :=
  (∀ p s f x, s.here = some (f, x) →
    let lg := x.lg
    let n := 2 ^ lg.w
    let size := 16 / n
    let step := fun g => lg.step.getD g 0
    let done := fun g => lg.occ.getLsbD g && step g == 0
    (∀ g : LaneGroups, ∀ i < 64, g.status.getLsbD i = if i < 16 then g.occ.getLsbD i && g.step.getD i 0 == 0 else decide (i < 32) && g.occ.getLsbD (i - 16)) ∧
    (f.lgUsed = false →
      (∀ a (e : Bool) (w : Fin 4), ∃ g : LaneGroups, g.w = w.val ∧ (∀ i, g.occ.getLsbD i = (!e && decide (i < 16 / 2 ^ w.val))) ∧
        g.step.length = 16 ∧ g.sid.length = 16 ∧
        (∀ i < 16 / 2 ^ w.val, g.step.getD i 0 = (if e then 0 else BitVec.ofNat 32 (laneW 32 (s.portV .a) i)) ∧ g.sid.getD i 0 = BitVec.ofNat 32 i) ∧
        (∀ i, 16 / 2 ^ w.val ≤ i → g.step.getD i 0 = 0 ∧ g.sid.getD i 0 = 0) ∧ exec (.lglen p a e w) s = .next ((s.holdLg g).out1 a g.status)) ∧
      (∀ a b, let g := { lg with step := lg.step.zipIdx.map fun e => if lg.occ.getLsbD e.2 && e.1 != 0 then e.1 - 1 else e.1 }
        exec (.lgdone p a b) s = .next ((s.holdLg g).out2 a b g.status)) ∧
      (∀ a (i o : Fin 16) k e, s.inEdge s.focus.rank f.la i.val = some (k, e) →
        let toks := e.fifo.take (handleBound f x.desc i.val)
        let gone := fun g => ((List.range g).filter done).length
        let empty := fun g => ((List.range g).filter fun g => done g || !lg.occ.getLsbD g).length
        let takes := fun g => decide (g < size) && (done g || !lg.occ.getLsbD g) && decide (empty g < toks.length)
        let tok := fun g => ((toks[empty g]?).map (·.tok)).getD ⟨.data, 0, 0⟩
        gone size ≤ handleBound f x.desc o.val → (∀ q ∈ toks.take (empty size), q.tok.kind = .data) →
        ∀ (occ : BitVec 16) (v : Vec),
          (∀ g < 16, occ.getLsbD g = (takes g || (lg.occ.getLsbD g && !(decide (g < size) && done g)))) →
          (∀ l < 16, laneW 32 v l = if takes (l / n) then laneW 32 (tok (l / n)).pay (l % n) else laneW 32 (s.portV .a) l) →
          let lg' := { lg with
            occ
            step := lg.step.zipIdx.map fun e => if takes e.2 then BitVec.ofNat 32 (laneW 32 (tok e.2).pay 15) else e.1
            sid := lg.sid.zipIdx.map fun e => if takes e.2 then (tok e.2).tag else e.1 }
          let s1 := ((List.range size).filter done).foldl (fun s g => s.putOut s.focus.rank s.focus.id o.val (gone g) 0 .data (some (lg.sid.getD g 0))
            (((s.portV .a).extractLsb' (32 * n * g) (32 * n)).setWidth 512)) (s.holdLg lg')
          exec (.lgpack p a i o) s = .next (((s1.addPend i.val (Min.min (empty size) toks.length)).addPend o.val (gone size)).outV1 a v))) ∧
    (f.lgUsed = true → ∀ a b e w i o,
      exec (.lglen p a e w) s = .next (s.faultHere .illegalEncoding 0) ∧
      exec (.lgdone p a b) s = .next (s.faultHere .illegalEncoding 0) ∧
      exec (.lgpack p a i o) s = .next (s.faultHere .illegalEncoding 0)) ∧
    (let affine := fun (i : Instr) (a : Target) (covers : Nat → Bool) (m : Nat → Nat → Nat → Nat) =>
      let steps := fun l => lg.occ.getLsbD (l / n) && step (l / n) != 0 && covers (l / n)
      ∃ (acc : Nat → Nat → Nat) (fl : Nat → Nat → Flags) (v : Vec),
        (∀ l < 16, steps l = true → acc l 0 = laneW 32 (s.portV .c) l ∧ ∀ c < n,
          let y := floatOf .f32 (m (l / n) (l % n) c)
          let z := floatOf .f32 (laneW 32 (s.portV .a) (l / n * n + c))
          let w := floatOf .f32 (acc l c)
          gives .f32 s.effMode false (fused s.effMode y z w) (y.sigFlag ||| z.sigFlag ||| w.sigFlag) (acc l (c + 1)) (fl l c)) ∧
        (∀ l < 16, laneW 32 v l = if steps l then acc l n else laneW 32 (s.portV .a) l) ∧
        exec i s = .next ((s.raise (anyOf 16 fun l => if steps l then anyOf n (fl l) else 0)).outV1 a v)
    (∀ a, affine (.bmv p a) a (fun _ => true) fun _ r c => laneW 32 (s.portV .b) (r * n + c)) ∧
    ∀ a (q : Fin 4), let groups := 16 / (n * n)
      (q.val < n → affine (.bmm p a q) a (fun g => decide (q.val * groups ≤ g) && decide (g < q.val * groups + groups))
        fun g r c => laneW 32 (s.portV .b) ((g - q.val * groups) * n * n + r * n + c)) ∧
      (n ≤ q.val → exec (.bmm p a q) s = .next (s.faultHere .illegalEncoding 0)))) ∧
  (∀ p s f x, s.here = some (f, x) →
    let m := x.match_
    let va := if m.pa then m.va else (0 : Vec)
    let vb := if m.pb then m.vb else (0 : Vec)
    (∀ c t a, Ty.ofCode c = some t →
      exec (.fisect p c a false false) s = .next (s.out1 a (ext t (va.setWidth t.width))) ∧
      exec (.fisect p c a false true) s = .next (s.out1 a (ext t (vb.setWidth t.width))) ∧
      exec (.funion p c a false false) s = .next (s.out1 a (ext t ((if m.pa then va else vb).setWidth t.width)))) ∧
    (∀ c a, exec (.fisect p c a true false) s = .next (s.outV1 a va) ∧ exec (.fisect p c a true true) s = .next (s.outV1 a vb) ∧
      exec (.funion p c a true false) s = .next (s.outV1 a (if m.pa then va else vb)) ∧
      ∀ v, exec (.funion p c a v true) s = .next (s.out1 a m.word)) ∧
    (f.fibUsed = false →
      let s0 := s.modFiring s.focus.rank fun f => { f with fibUsed := true }
      let rank := s.focus.rank
      let bnd := fun h : Fin 16 => handleBound f x.desc h.val
      (∀ a b (ih oh : Fin 16) (d : Fin 4) (root : Bool) s1,
        (if root then s0.recordDepth f.la oh.val (d.val + 1)
          else (s0.recordDepth f.la ih.val (d.val + 1)).bind fun s => s.recordDepth f.la oh.val (d.val + 2)) = some s1 →
        let ptr := s1.portS .a
        let cur := s1.portS .b
        let run := exec (.fscan p a b ih oh d root) s
        let D : Vec := BitVec.ofNat 512 (wordFrom s1 rank ptr 0 64)
        let v := levelView s1 rank D
        let c0 := ScanAt.ofCursor cur
        (ptrSpace ptr = 2 → ptrOwner ptr = rank → ptrOff ptr % 64 = 0 → readable s1 rank ptr 0 64 → levelOk rank D →
          (root = true →
            let p0 := if c0.act then c0.p else v.start c0.f
            let k := Min.min (v.stop c0.f - p0) (bnd oh)
            let closes := decide (p0 + k = v.stop c0.f ∧ k < bnd oh)
            (c0.act = false → c0.pend = true → run = .next ((s1.fibWrite oh.val [] oh.val 0).out2 a b cur)) ∧
            (c0.act = false → c0.pend = false → v.nfib ≤ c0.f → run = .next (s1.fibStop f.la (.stream oh.val))) ∧
            ((c0.act = true ∨ c0.pend = false ∧ c0.f < v.nfib) → fibreOk s1 rank D c0.f → (∀ j < k, positionOk s1 rank D (p0 + j)) →
              run = .next ((s1.fibWrite oh.val ((List.range k).map (fun j => v.elem c0.f (p0 + j)) ++ if closes then [stopOut d] else []) oh.val 0).out2 a b
                { c0 with act := !closes, pend := closes || c0.pend, p := p0 + k }.cursor))) ∧
          (root = false → (∀ g, g < v.nfib ∨ (c0.act = true ∧ g = c0.f) → fibreOk s1 rank D g) →
            (∀ g j, g < v.nfib ∨ (c0.act = true ∧ g = c0.f) → (if c0.act = true ∧ g = c0.f then Min.min c0.p (v.start g) else v.start g) ≤ j → j < v.stop g →
              positionOk s1 rank D j) →
            ∀ (tok : Nat → Token) (c : ScanAt), Relation.ReflTransGen (ScanStep v tok (bnd ih) (bnd oh)) c0 c →
              (∀ c', ¬ ScanStep v tok (bnd ih) (bnd oh) c c') → ¬ (c.act = false ∧ c.pend = false ∧ c.t < bnd ih ∧ (tok c.t).kind = .data) →
              (∀ j < bnd ih, j < c.t ∨ (j = c.t ∧ c.act = false) →
                tokenAt s1 f.la ih.val j (tok j) ∧ ((tok j).kind = .data ∨ ∃ k : Fin 4, k.val < d.val + 1 ∧ k.val < 3 ∧ (tok j).kind = .stop k)) →
              run = .next ((s1.fibWrite oh.val c.outs ih.val c.t).out2 a b c.cursor))) ∧
        (ptrSpace ptr = 1 → s1.hereDet = false → s1.fibSpace ptr = true → ptrOff ptr % 64 = 0 → s1.reqFault s1.herePart (.ldgv .plain 0) ptr = none →
          ∃ t q, run = .next t ∧ t.reqs = s.reqs ++ [q] ∧ q.id = s.serial ∧ q.kind = .ldgv .plain 0 ∧ q.ptr = ptr ∧ q.chain = none ∧ q.dst = [] ∧
            q.stage = .queued ∧ q.rank = rank ∧ q.fid = f.fid ∧ t.mem = s.mem ∧
            t.firing? rank = some { f with
              fibUsed := true
              nmem := f.nmem + 1
              due := f.due ++ [⟨s.focus.id, [a, b], .scan ⟨ih.val, oh.val, root, d.val + (if root then 1 else 2), if root then 0 else bnd ih, bnd oh, ptr, cur⟩
                [(⟨ptr, 64, 0⟩, s.serial)] []⟩] })) ∧
      (∀ a b (ih oh : Fin 16) (d : Fin 4) s1 (tok : Nat → Token) (m : Nat),
        (s0.recordDepth f.la ih.val (d.val + 1)).bind (fun s => s.recordDepth f.la oh.val (d.val + 1)) = some s1 →
        (∀ j < m, tokenAt s1 f.la ih.val j (tok j) ∧ (tok j).kind = .data) → m ≤ bnd ih → m ≤ bnd oh →
        let copies := (List.range m).map fun j =>
          { kind := .data, tag := (tok j).tag, pay := ((s1.portS .a) ++ (tok j).pay.setWidth 64).setWidth 512 : FibOut }
        ((m = bnd ih ∨ m = bnd oh) → exec (.frep p a b ih oh d) s = .next ((s1.fibWrite oh.val copies ih.val m).out2 a b 0)) ∧
        (∀ k : Fin 4, m < bnd ih → m < bnd oh → k.val ≤ d.val → tokenAt s1 f.la ih.val m (tok m) → (tok m).kind = .stop k →
          exec (.frep p a b ih oh d) s = .next ((s1.fibWrite oh.val (copies ++ [{ kind := .stop k, tag := (tok m).tag, pay := (tok m).pay }]) ih.val (m + 1)).out2
            a b (BitVec.ofNat 64 (k.val + 1))))) ∧
      (∀ t a b (ih oh : Fin 16) (d : Fin 4) (e : Bool) o s1 (tok : Nat → Token) (m : Nat),
        ((s0.recordDepth f.la ih.val (d.val + 1)).bind fun s => if d.val = 0 then some s else s.recordDepth f.la oh.val d.val) = some s1 →
        (∀ j < m, tokenAt s1 f.la ih.val j (tok j) ∧ (tok j).kind = .data) → m ≤ bnd ih →
        (t.isFloat = true → x.fn ≠ 0 → x.facc.toNat < 2 ^ 32) →
        let mode := rndOf x.rnd
        let bits := fun (w : Nat) => (BitVec.ofNat 32 w : BitVec (Ty.width .f32))
        let count := fun j => (x.fn.toNat + j) % 2 ^ 32
        let combines := fun (u w r : Nat) (fl : Flags) =>
          if t.isFloat then
            let fu := floatOf .f32 u
            let fw := floatOf .f32 w
            match o with
            | .add => gives .f32 mode false (sum mode false fu fw) (fu.sigFlag ||| fw.sigFlag) r fl
            | .min => fl = fu.sigFlag ||| fw.sigFlag ∧ r < 2 ^ 32 ∧ ∃ h, ordered .f32 (bits u) (bits w) (bits r) h
            | .max => fl = fu.sigFlag ||| fw.sigFlag ∧ r < 2 ^ 32 ∧ ∃ l, ordered .f32 (bits u) (bits w) l (bits r)
          else
            let nu := num t (BitVec.ofNat t.width u)
            let nw := num t (BitVec.ofNat t.width w)
            fl = 0 ∧ r = match o with
            | .add => (BitVec.ofNat t.width u + BitVec.ofNat t.width w).toNat
            | .min => if nu ≤ nw then u else w
            | .max => if nu ≤ nw then w else u
        ∃ (acc el : Nat → Nat) (fl ef : Nat → Flags), acc 0 = x.facc.toNat ∧
          (∀ j < m, let w := (tok j).pay.toNat % 2 ^ t.width
            (if t.isFloat then widens t w (el j) (ef j) else el j = w ∧ ef j = 0) ∧
            ∃ cf, fl j = ef j ||| cf ∧ if count j = 0 then acc (j + 1) = el j ∧ cf = (if t.isFloat then (floatOf .f32 (el j)).sigFlag else 0)
              else combines (acc j) (el j) (acc (j + 1)) cf) ∧
          (m = bnd ih → exec (.fred p t a b ih oh d e o) s = .next ((((s1.raise (anyOf m fl)).modFiring rank fun f =>
            { f with frW := some (BitVec.ofNat 64 (acc m), BitVec.ofNat 32 (count m)) }).fibWrite oh.val [] ih.val m).out2 a b 0)) ∧
          ∀ k : Fin 4, m < bnd ih → k.val ≤ d.val → tokenAt s1 f.la ih.val m (tok m) → (tok m).kind = .stop k →
            let some_ := decide (count m ≠ 0) || !e
            let need := (if some_ then 1 else 0) + if k.val = 0 then 0 else 1
            (bnd oh < need → exec (.fred p t a b ih oh d e o) s = .next (s1.faultHere .rateViolation (BitVec.ofNat 64 need))) ∧
            (need ≤ bnd oh → ∃ (w : Nat) (wf : Flags),
              (if t.isFloat then
                let v := if count m = 0 then (match o with | .add => 0x80000000 | .min => 0x7F800000 | .max => 0xFF800000) else acc m
                gives t mode false (asExact (floatOf .f32 v), 0) (floatOf .f32 v).sigFlag w wf
              else wf = 0 ∧ w < 2 ^ t.width ∧ (count m ≠ 0 → w = acc m % 2 ^ t.width) ∧ (count m = 0 → match o with
                | .add => w = 0
                | .min => ∀ q : BitVec t.width, num t q ≤ num t (BitVec.ofNat t.width w)
                | .max => ∀ q : BitVec t.width, num t (BitVec.ofNat t.width w) ≤ num t q)) ∧
              exec (.fred p t a b ih oh d e o) s = .next ((((s1.raise (anyOf m fl ||| if some_ then wf else 0)).modFiring rank fun f =>
                { f with frW := some (BitVec.ofNat 64 (acc m), 0) }).fibWrite oh.val
                  ((if some_ then [{ kind := .data, tag := (s1.portS .a).setWidth 32, pay := BitVec.ofNat 512 w }] else []) ++
                    (if h : k.val = 0 then [] else [stopOut ⟨k.val - 1, by omega⟩])) ih.val (m + 1)).out2 a b (BitVec.ofNat 64 (k.val + 1)))))) ∧
    (f.fibUsed = true → ∀ a b ih oh d root t e o,
      exec (.fscan p a b ih oh d root) s = .next (s.faultHere .illegalEncoding 0) ∧
      exec (.frep p a b ih oh d) s = .next (s.faultHere .illegalEncoding 0) ∧
      exec (.fred p t a b ih oh d e o) s = .next (s.faultHere .illegalEncoding 0)) ∧
    (∀ (d k : Fin 4) a (h o : Fin 16) s1, o.val < handleBound f x.desc h.val → s.recordDepth f.la h.val (d.val + 1) = some s1 →
      exec (.fstop p d k h o) s = .next (s1.putOut s1.focus.rank s1.focus.id h.val o.val 0 (.stop k) (some 0) 0) ∧
      ∀ tok, tokenAt s1 f.la h.val o.val tok →
        (tok.kind = .data →
          exec (.fchk p d a h o) s = .next (s1.out1 a 0) ∧ exec (.fcrd p d a h o) s = .next (s1.out1 a (tok.tag.setWidth 64))) ∧
        (∀ j : Fin 4, j.val ≤ d.val → tok.kind = .stop j →
          exec (.fchk p d a h o) s = .next (s1.out1 a (BitVec.ofNat 64 (j.val + 1))) ∧
          exec (.fcrd p d a h o) s = .next (s1.out1 a (BitVec.ofNat 64 (2 ^ 32 + j.val))))))

/-- R225: the local loads and full-empty instructions. LDL delivers the little-endian value at the offset and LDLV the 64 bytes, clearing their
granules in the same access under C; a W that is not met waits with its value due, and LDLV_WF_RELEASE delivers it. FESET and FECLR set exactly their
granules, and FETEST delivers whether all are full. A failed check is fatal with the pointer. R225: a local store writes its bytes from the offset on
port A, leaves every other byte of memory, counts in the firing and changes nothing else; STLV under S sets the granules of its bytes full. R225: a
local access whose pointer fails a check is fatal with the pointer: SpaceViolation for the space, the owner, the range and the FIFO area, Alignment
for the offset. -/
def Obligations.LocalAccesses : Prop :=
  (∀ p s f x, s.here = some (f, x) →
    let key := fun i => localKey s.focus.rank (ptrOff (s.portS .a) + i)
    (∀ (t : Ty) a b, localOk s (t.width / 8) → ∃ r : BitVec t.width, exec (.ldl p t a b) s = .next (s.out2 a b (ext t r)) ∧
      ∀ i, i < t.width / 8 → r.extractLsb' (8 * i) 8 = Memory.read s.mem (key i)) ∧
    (localOk s 64 →
      ∃ v : Vec, (∀ i, i < 64 → v.extractLsb' (8 * i) 8 = Memory.read s.mem (key i)) ∧
        (∀ a b (w : Bool), (w = true → ∀ k, under s 64 k → k ∈ s.full) →
          exec (.ldlv p false w a b) s = .next (s.outV2 a b v) ∧
          ∃ u : State, exec (.ldlv p true w a b) s = .next (u.outV2 a b v) ∧ u = { s with full := u.full } ∧
            ∀ k, k ∈ u.full ↔ k ∈ s.full ∧ ¬ under s 64 k) ∧
        (∀ a b c, (∃ k, under s 64 k ∧ k ∉ s.full) → ∃ t, exec (.ldlv p c true a b) s = .next t ∧ firingIs s t s.focus.rank
          { f with due := f.due ++ [{ slot := s.focus.id, dst := [a, b], what := .fullEmpty (ptrOff (s.portS .a)) c }] })) ∧
    (∀ q : Bool, let n := if q then 64 else 16
      localOk s n →
      (∃ t, exec (.feset p q) s = .next t ∧ t = { s with full := t.full } ∧ ∀ k, k ∈ t.full ↔ k ∈ s.full ∨ under s n k) ∧
      (∃ t, exec (.feclr p q) s = .next t ∧ t = { s with full := t.full } ∧ ∀ k, k ∈ t.full ↔ k ∈ s.full ∧ ¬ under s n k) ∧
      ∀ a b, (∃ v : Word, exec (.fetest p q a b) s = .next (s.out2 a b v) ∧ (v = 1 ∨ v = 0) ∧ (v = 1 ↔ ∀ k, under s n k → k ∈ s.full))) ∧
    (∀ rank slot d o c, s.dueAt rank slot = some d → d.what = .fullEmpty o c → s.feFull (feSpan rank o 64) = true →
      ∃ u : State, exec (.ldlvWfRelease rank slot) s = .next (u.payDue rank d (.v (s.readVec (localKey rank o)))) ∧
        u = { s with full := u.full } ∧ ∀ k, k ∈ u.full ↔ k ∈ s.full ∧ (c = true → k ∉ feSpan rank o 64))) ∧
  (∀ p s f x, s.here = some (f, x) → memOk s →
    let key := fun i => localKey s.focus.rank (ptrOff (s.portS .a) + i)
    let stored := fun (n : Nat) (t : State) (v : Nat → Byte) => onlyFiring s t s.focus.rank ∧
      t.firing? s.focus.rank = some { f with nlst := f.nlst + 1 } ∧ (∀ i, i < n → Memory.read t.mem (key i) = v i) ∧
      ∀ a, (∀ i, i < n → a ≠ key i) → Memory.read t.mem a = Memory.read s.mem a
    (∀ t : Ty, localOk s (t.width / 8) → ∃ u, exec (.stl p t) s = .next u ∧ u.full = s.full ∧
      stored (t.width / 8) u fun i => (s.portS .b).extractLsb' (8 * i) 8) ∧
    (localOk s 64 → ∀ q : Bool, ∃ u, exec (.stlv p q) s = .next u ∧ (stored 64 u fun i => (s.portV .b).extractLsb' (8 * i) 8) ∧
      ∀ k, k ∈ u.full ↔ k ∈ s.full ∨ q = true ∧ under s 64 k)) ∧
  (∀ p s,
    let bad := fun (n : Nat) (c : TrapCode) =>
      (ptrSpace (s.portS .a) ≠ 2 ∨ ptrOwner (s.portS .a) ≠ s.focus.rank) ∧ c = .spaceViolation ∨
      ptrSpace (s.portS .a) = 2 ∧ ptrOwner (s.portS .a) = s.focus.rank ∧
        (ptrOff (s.portS .a) % n ≠ 0 ∧ c = .alignment ∨
         ptrOff (s.portS .a) % n = 0 ∧ (32768 < ptrOff (s.portS .a) + n ∨ s.meetsFifo s.focus.rank (ptrOff (s.portS .a)) n = true) ∧
           c = .spaceViolation)
    let stops := fun (c : TrapCode) (r : Host.Outcome State Fault Refusal) => r = .next (s.fatal s.focus.rank s.focus.id c (s.portS .a))
    (∀ (t : Ty) c a b, bad (t.width / 8) c → stops c (exec (.ldl p t a b) s) ∧ stops c (exec (.stl p t) s)) ∧
    (∀ c a b (k w q : Bool), bad 64 c → stops c (exec (.ldlv p k w a b) s) ∧ stops c (exec (.stlv p q) s)) ∧
    (∀ c a b (q : Bool), bad (if q then 64 else 16) c →
      stops c (exec (.feset p q) s) ∧ stops c (exec (.feclr p q) s) ∧ stops c (exec (.fetest p q a b) s)))

/-- R59, R61, R71, R185: a value that a word of a block delivers to two consumers that can take it stands on their ports, in the held keep writes or
in the output slots, and nothing else changes; a second arrival at a port is a precise BadSlot with the value in AUX, and a write to an output handle
beyond its bound a precise RateViolation. R151: a value that reaches an input port of a word claimed by an EMULATE slot stands on that port and on the
same port of every inserted word that the slot's INMAP names; R233: a predicate of the wrong sense sends a null request for the chained word that it
stops. -/
def Obligations.Deliveries : Prop :=
  (∀ (s : State) rank f x, s.active rank = some (f, x) → ∀ id, id < 64 →
    (∀ a b (v : Value), free f x.desc a = true → free f x.desc b = true → apart a b = true →
      s.deliverAll rank id none [a, b] v = s.modFiring rank fun f => put id b v (put id a v f)) ∧
    (∀ (v : Value) (n : Fin 64) (q : Port) sl, f.slotAt n.val = some sl → (sl.port q).isSome = true →
      s.deliverAll rank id none [.slot n q] v = (s.modFiring rank fun f => f.feed n.val id).precise rank n.val .badSlot 2 v.scalar) ∧
    (∀ (v : Value) (h : Fin 16), handleBound f x.desc h.val = 0 →
      s.deliverAll rank id none [.out h] v = s.precise rank id .rateViolation 1 0)) ∧
  (∀ (s : State) rank f x, s.active rank = some (f, x) → ∀ (v : Value) (n : Fin 64) sl, f.slotAt n.val = some sl →
    (∀ ts inmap (q : Port), sl.kind = .emu ts inmap → q ≠ .p → sl.port q = none →
      (∀ m, m ∈ emuInputs inmap n.val q → ∃ z, f.slotAt m = some z ∧ z.port q = none) →
      s.arrive rank n.val q v = s.modFiring rank fun f =>
        (emuInputs inmap n.val q).foldl (fun f m => f.modSlot m fun z => z.setPort q v) (f.modSlot n.val fun z => z.setPort q v)) ∧
    (∀ c st, sl.kind = .ins → sl.p = none → f.seqOf n.val = some (c, st) →
      (senseWrong sl.word v = false → s.arrive rank n.val .p v = s.modFiring rank fun f => f.modSlot n.val fun z => { z with p := some v }) ∧
      (senseWrong sl.word v = true → s.arrive rank n.val .p v =
        ((s.modFiring rank fun f => f.modSlot n.val fun z => { z with p := some v }).nullRequest rank f.la x c st).modFiring rank
          fun f => f.modSlot n.val fun z => { z with issued := true })))

/-- THE FRAME OF THE VALUE INSTRUCTIONS: `consumers` names each of them with its consumers. From a word of a block whose consumers can take a value,
each completes; afterwards only the ports, held keep writes, output slots and sticky flags of its own firing can differ. -/
def Obligations.ValueInstructionFrame : Prop :=
  ∀ (i : Instr) ts, consumers i = some ts → ∀ (s : State) f x, s.here = some (f, x) → s.focus.id < 64 →
    (∀ t, t ∈ ts → free f x.desc t = true) → ts.Pairwise (fun a b => apart a b = true) →
    ∃ t g fl, exec i s = .next t ∧ onlyFiring s t s.focus.rank ∧ sameMemory s t ∧ t.firing? s.focus.rank = some g ∧ sameFiring f g fl ∧
      (∀ n : Nat, (∀ a, a ∈ ts → ∀ (m : Fin 64) q, a = .slot m q → m.val ≠ n) → g.slotAt n = f.slotAt n) ∧
      ((∀ a, a ∈ ts → ∀ k, a ≠ .keep k) → g.keepW = f.keepW) ∧ ((∀ a, a ∈ ts → ∀ h, a ≠ .out h) → g.outs = f.outs)

/-- R215, R230, R235, R299, R304, R308, R311, R314: an instruction that asks something of a home sends one request, as `request` names it, and its
firing waits for the value unless the rule lets it go; nothing else changes. An instruction that a deterministic launch may not run is Privilege there
(before its scope is looked at: log entry 75), a scope code above 4 is precise, and a failed check is then fatal with the pointer. R314: FENCE sends a request that carries its scope and no
pointer; a scope code above 4 is IllegalEncoding (R7). -/
def Obligations.MemoryRequests : Prop :=
  (∀ (s : State) (i : Instr) dst ptr k, request s i = some (dst, ptr, k) →
    (s.here.isSome = true → scopeOk s = true → (s.hereDet = true → detForbidden s i = false) → s.reqFault s.herePart k ptr = none →
      ∃ t, exec i s = .next t ∧ sent s t dst ptr k) ∧
    (s.here.isSome = true → scopeOk s = false → (s.hereDet = true → detForbidden s i = false) →
      exec i s = .next (s.faultHere .illegalEncoding 0)) ∧
    (∀ c q, scopeOk s = true → (s.hereDet = true → detForbidden s i = false) → s.reqFault s.herePart k ptr = some (c, q) →
      exec i s = .next (s.fatalHere c q)) ∧
    (s.hereDet = true → detForbidden s i = true → exec i s = .next (s.faultHere .privilege 0))) ∧
  (∀ p (sc : Fin 8) a b c st (s : State), s.here.isSome = true → scopeOk s = true →
    (sc.val ≤ 4 → ∃ t, exec (.fence p sc a b c st) s = .next t ∧ sent s t [a, b] 0 (.fence sc.val)) ∧
    (4 < sc.val → exec (.fence p sc a b c st) s = .next (s.faultHere .illegalEncoding 0)))

/-- R215, R216, R106, R317, R332: the checks of the pointer of a scalar load or store, space first, then alignment. R218, R219, R220: the walk of a
partition's table by three levels of ten bits of the offset, with the entry at each level; an entry that is not valid is a miss, a malformed one stops
the access, and a leaf gives the address. -/
def Obligations.AddressChecks : Prop :=
  (∀ (s : State) part (p : Word) (t : Ty),
    let n := t.width / 8
    let die := ptrOwner p / 256
    let meets := fun (b : Nat) => ptrOff p < b + 16384 ∧ b < ptrOff p + n
    let aligned := fun k => s.reqFault part k p = if ptrOff p % n = 0 then none else some (.alignment, p)
    let bad := fun k c => s.reqFault part k p = some (c, p)
    ∀ (k : ReqKind) x, (k = .ldg t .plain x ∨ ∃ v, k = .stg t v) →
      (ptrSpace p = 0 → if ptrOwner p = 0 then aligned k else bad k .spaceViolation) ∧
      (ptrSpace p = 1 →
        if ptrOwner p % 256 ≠ 0 ∨ s.dieEnabled die = false then bad k .spaceViolation
        else if s.partOfDie die ≠ some part then bad k .permission
        else if 14 * 2 ^ 20 < ptrOff p + n then bad k .spaceViolation
        else if k.writes = true ∧ die = s.lowDie part ∧ (meets (s.partCfg part).trapOff ∨ meets (s.partCfg part).dlkOff) then bad k .permission
        else aligned k) ∧
      (ptrSpace p = 5 ∨ ptrSpace p = 6 → if s.remoteOk part p n = true then aligned k else bad k .spaceViolation) ∧
      (ptrSpace p ≠ 0 → ptrSpace p ≠ 1 → ptrSpace p ≠ 5 → ptrSpace p ≠ 6 → bad k .spaceViolation)) ∧
  (∀ (s : State) part root off, (s.part part).ptRoot = some root →
    let entry := fun (table sh : Nat) => (BitVec.ofNat 64 (s.readNat (table + off / 2 ^ sh % 1024 * 8) 8) : Word)
    let next := fun (e : Word) => (e.extractLsb' 12 36).toNat * 4096
    let valid := fun (e : Word) => e.getLsbD 0
    let leaf := fun (e : Word) => e.getLsbD 4
    let e3 := entry root 36
    let e2 := entry (next e3) 26
    let e1 := entry (next e2) 16
    let at_ := fun (level sh : Nat) (e : Word) (go : Prop) =>
      if valid e = false then s.walk part off = .miss
      else if pteMalformed level sh e = true then s.walk part off = .malformed
      else if leaf e = true then s.walk part off = .hit (next e + off % 2 ^ sh) (2 ^ sh) e else go
    at_ 3 36 e3 (at_ 2 26 e2 (at_ 1 16 e1 True)))

/-- R216, R228, R229: one store event writes exactly the bytes that its mask selects, makes one new version of its granule and touches no other
granule; on a page that retains, the granule's old bytes and version go to the stash. A mask that selects nothing makes no event. R58, R216, R227,
R228, R290, R299, R300: one event at a home bank. A load takes the bytes at its address; a store writes its bytes and makes a version; an atomic reads
the old value and writes the new one with nothing between; CAS writes only on equality; VQRY takes the version. An uncorrectable word is fatal and
stays so, a corrected one is counted by its stack; a store over the whole granule makes it good again (log entry 81).
R235, R236, R301, R304, R306, R309 to R311: every other event at a home. LDGV, GATH, STGV and SCAT move the bytes of one piece after the other, the last
of which ends the request; ATOM, FAADD and VATOM change their cells; a load of a version and WAITV are answered from the granule or the stash, wait for
the holders of the granule (log entry 19 for their places), or find the version gone; VRCL drops the older versions of its partition; LOCKT takes a free
token; BAR marks its slot, and the last one opens the next generation; CHSEND, CHRECV and CHCRED claim their end, wait for credit or an item, and move
the ring's counts, each phase as its own event. -/
def Obligations.HomeEvents : Prop :=
  (∀ (s : State) part ret gran (mask : BitVec 64) (data : Vec), memOk s →
    (mask = 0 → s.storeEvent part ret gran mask data = s) ∧
    (mask ≠ 0 → let t := s.storeEvent part ret gran mask data
      (∀ i, i < 64 → Memory.read t.mem (gran * 64 + i) =
        if mask.getLsbD i then data.extractLsb' (8 * i) 8 else Memory.read s.mem (gran * 64 + i)) ∧
      (∀ a, a / 64 ≠ gran → Memory.read t.mem a = Memory.read s.mem a) ∧ t.ver gran = s.ver gran + 1 ∧ (∀ g, g ≠ gran → t.ver g = s.ver g) ∧
      memOk t ∧ t.full = s.full ∧ t.elems = s.elems ∧ t.launches = s.launches ∧ t.edges = s.edges ∧ (ret = false → t.stash = s.stash) ∧
      t.faulty = (if mask = BitVec.allOnes 64 then s.faulty.filter (fun g => g != gran) else s.faulty) ∧
      (ret = true → 0 < (s.partCfg part).stash →
        { stack := gran % 24, part, gran, ver := s.ver gran, data := s.readVec (gran * 64) } ∈ t.stash))) ∧
  (∀ (s : State) id q key, memOk s → s.req? id = some q → q.stage = .home → s.ringFrozen q.lid = false → s.blockedAtHome q = false → q.next = 0 →
    q.pas = [some key] → q.released = false → q.sub = 0 → q.out = 0 → key % 64 = ptrOff q.ptr % 64 → key / 64 ∉ s.faulty →
    let step := exec (.homeBankEvent id .clean) s
    let same := fun (t : State) => (∀ a, Memory.read t.mem a = Memory.read s.mem a) ∧ t.vers = s.vers
    let stored := fun (ty : Ty) (t : State) (x : BitVec ty.width) =>
      (∀ i, i < ty.width / 8 → Memory.read t.mem (key + i) = x.extractLsb' (8 * i) 8) ∧
      (∀ a, (∀ i, i < ty.width / 8 → a ≠ key + i) → Memory.read t.mem a = Memory.read s.mem a) ∧
      t.ver (key / 64) = s.ver (key / 64) + 1 ∧ ∀ g, g ≠ key / 64 → t.ver g = s.ver g
    let ans := fun (t : State) (v : Option Value) => ∃ r, t.req? id = some r ∧ r.stage = .done ∧ r.value = v ∧ r.dst = q.dst ∧ r.fid = q.fid
    (∀ ty : Ty, 8 ≤ ty.width → ptrOff q.ptr % (ty.width / 8) = 0 → ∃ old : BitVec ty.width,
      (∀ i, i < ty.width / 8 → old.extractLsb' (8 * i) 8 = Memory.read s.mem (key + i)) ∧
      (∀ v, q.kind = .ldg ty .plain v → (∀ h, h ∈ (s.cluster (q.rank / 16)).held → h.gran ≠ key / 64) →
        ∃ t, step = .next t ∧ same t ∧ ans t (some (.s (ext ty old)))) ∧
      (∀ x : Word, q.kind = .stg ty x → ∃ t, step = .next t ∧ stored ty t (x.setWidth ty.width) ∧ ans t none ∧
        ∀ r, t.req? id = some r → r.completion = 1#1 ++ 0#47 ++ (s.ver (key / 64) + 1)) ∧
      (∀ o (x : Word), ty.isFloat = false → q.kind = .atom true o ty x → let b : BitVec ty.width := x.setWidth ty.width
        ∃ t new, step = .next t ∧ stored ty t new ∧ ans t (some (.s (ext ty old))) ∧
          new = (match o with
            | .add => old + b | .and => old &&& b | .or => old ||| b | .xor => old ^^^ b | .swap => b
            | .min => if num ty b < num ty old then b else old
            | .max => if num ty old < num ty b then b else old)) ∧
      (∀ x y : Word, q.kind = .cas ty x y → ∃ t, step = .next t ∧ ans t (some (.s (ext ty old))) ∧
        (old = x.setWidth ty.width → stored ty t (y.setWidth ty.width)) ∧ (old ≠ x.setWidth ty.width → same t))) ∧
    (q.kind = .vqry → ∃ t, step = .next t ∧ same t ∧ ans t (some (.s ((s.ver (key / 64)).setWidth 64)))) ∧
    (key < hbmSize →
      ((∃ ty x, q.kind = .stg ty x ∧ ty.width ≤ 64) ∨ (∃ ty v, q.kind = .ldg ty .plain v) →
        exec (.homeBankEvent id .double) s =
          .next (({ s with faulty := s.faulty ++ [key / 64] } : State).reqFatal q .memoryUncorrectable q.ptr (BitVec.ofNat 64 key))) ∧
      exec (.homeBankEvent id .single) s =
        exec (.homeBankEvent id .clean) { s with softErr := alAdd s.softErr (2 ^ 20 + key / 64 % 24) 1 })) ∧
  (∀ (s : State) id q key x err, s.req? id = some q → q.stage = .home → s.ringFrozen q.lid = false → s.blockedAtHome q = false →
    q.pas[q.next]? = some (some key) → key < hbmSize → key / 64 ∈ s.faulty → (q.kind.pieces q.ptr)[q.next]? = some x → (q.kind.storeOf x).1 ≠ BitVec.allOnes 64 →
    exec (.homeBankEvent id err) s = .next (s.reqFatal q .memoryUncorrectable q.ptr (BitVec.ofNat 64 key))) ∧
  (∀ (s : State) id q key x, memOk s → s.req? id = some q → q.id = id → q.stage = .home → s.ringFrozen q.lid = false → s.blockedAtHome q = false →
    (q.kind.pieces q.ptr)[q.next]? = some x → q.pas[q.next]? = some (some key) → key % 64 = ptrOff x.ptr % 64 → key % 64 + x.n ≤ 64 →
    key / 64 ∉ s.faulty →
    let step := exec (.homeBankEvent id .clean) s
    let gran := key / 64
    let ver := s.ver gran
    let ret := q.sub.testBit q.next
    let part := lidPart q.lid
    let after := if q.next + 1 < (q.kind.pieces q.ptr).length then Stage.home else Stage.done
    let byte := fun (v : Vec) i => v.extractLsb' (8 * i) 8
    let same := fun (t : State) => (∀ a, Memory.read t.mem a = Memory.read s.mem a) ∧ t.vers = s.vers
    let rest := fun (t : State) g => (∀ a, a / 64 ≠ g → Memory.read t.mem a = Memory.read s.mem a) ∧ ∀ h, h ≠ g → t.ver h = s.ver h
    let bytes := fun (t : State) (sel : Nat → Bool) (val : Nat → BitVec 8) =>
      (∀ i < x.n, Memory.read t.mem (key + i) = if sel i then val i else Memory.read s.mem (key + i)) ∧
      (∀ a, (∀ i < x.n, a ≠ key + i) → Memory.read t.mem a = Memory.read s.mem a) ∧
      t.ver gran = (if (List.range x.n).any sel then ver + 1 else ver) ∧ ∀ g, g ≠ gran → t.ver g = s.ver g
    -- loads, piece by piece
    (∀ pos, ((∃ ty v, q.kind = .ldg ty .plain v ∧ pos = 0) ∨ (∃ v, q.kind = .ldgv .plain v ∧ pos = x.lane) ∨
        (∃ ty ix, q.kind = .gath ty ix ∧ pos = x.lane * (ty.width / 8))) → (∀ h, h ∈ (s.cluster (q.rank / 16)).held → h.gran ≠ gran) →
      ∃ t r, step = .next t ∧ same t ∧ t.req? id = some r ∧ r.next = q.next + 1 ∧ r.stage = after ∧ r.ver = ver ∧
        ∀ i < 64, byte r.out i = byte q.out i ||| if pos ≤ i ∧ i < pos + x.n then Memory.read s.mem (key + (i - pos)) else 0) ∧
    -- stores, piece by piece
    (∀ sel val, ((∃ ty y, q.kind = .stg ty y ∧ sel = (fun _ => true) ∧ val = fun i => (y.setWidth ty.width).extractLsb' (8 * i) 8) ∨
        (∃ ty ix y, q.kind = .scat ty ix y ∧ sel = (fun _ => true) ∧ val = fun i => (laneOf ty y x.lane).extractLsb' (8 * i) 8) ∨
        (∃ y m, q.kind = .stgv y m ∧ sel = (fun i => m.getLsbD (x.lane + i)) ∧ val = fun i => byte y (x.lane + i))) →
      ∃ t r, step = .next t ∧ bytes t sel val ∧ t.req? id = some r ∧ r.next = q.next + 1 ∧ r.stage = after ∧
        r.ver = (if (List.range x.n).any sel then ver + 1 else q.ver) ∧
        (q.released = true → (List.range x.n).any sel = true →
          (t.cluster (q.rank / 16)).held = (s.cluster (q.rank / 16)).held.eraseP fun h => h.req == q.id)) ∧
    -- atomics that return nothing, VATOM lane by lane, and FAADD
    (∀ ty (y : Word) op, 8 ≤ ty.width →
      (q.kind = .atom false op ty y ∨ (∃ re, q.kind = .faadd re ty y ∧ op = .add ∧ ty.isFloat = true) ∨
        ∃ ix v, q.kind = .vatom op ty ix v ∧ y.setWidth ty.width = laneOf ty v x.lane) →
      ∃ old new : BitVec ty.width, (∀ i < x.n, old.extractLsb' (8 * i) 8 = Memory.read s.mem (key + i)) ∧
        (let b : BitVec ty.width := y.setWidth ty.width
          if ty.isFloat then ∃ fl, gives ty .rne false (sum .rne false (floatOf ty old.toNat) (floatOf ty b.toNat))
            ((floatOf ty old.toNat).sigFlag ||| (floatOf ty b.toNat).sigFlag) new.toNat fl
          else new = match op with
            | .add => old + b | .and => old &&& b | .or => old ||| b | .xor => old ^^^ b | .swap => b
            | .min => if num ty b < num ty old then b else old
            | .max => if num ty old < num ty b then b else old) ∧
        ∃ t r, step = .next t ∧ bytes t (fun _ => true) (fun i => new.extractLsb' (8 * i) 8) ∧ t.req? id = some r ∧ r.next = q.next + 1 ∧
          r.stage = after ∧ r.ver = ver + 1 ∧ r.out = old.setWidth 512) ∧
    (2 * (s.part part).waits.length + 8 ≤ 2048 →
      let waits := fun (kind : Nat) (holders : List Nat) (t : State) (r : Req) => t.req? id = some r ∧ r.stage = .waiting ∧
        ∀ h ∈ (if holders = [] then [0] else holders), ∃ w ∈ (t.part part).waits, w.kind = kind ∧ w.req = some id ∧ w.wlid = q.lid ∧ w.wrank = q.rank ∧
          w.wact = q.la ∧ w.hlid = h ∧ w.man = false ∧ w.serial ∈ (t.part part).walks
      let answered := fun (t : State) (out : Vec) (v : BitVec 16) => ∃ r, t.req? id = some r ∧ r.stage = .done ∧ r.out = out ∧ r.ver = v
      let stays := fun (k : Nat) (hs : List Nat) => ∃ t r, step = .next t ∧ same t ∧ waits k hs t r
      let users := s.holdersOf part q.ptr
      -- loads of a version, WAITV, VRCL
      (∀ m v, ((∃ ty, q.kind = .ldg ty m v) ∨ q.kind = .ldgv m v) →
        let given := fun (g : Vec) => ∀ out : Vec, (∀ i < 64, byte out i = if i < x.n then byte g (key % 64 + i) else 0)
          → ∀ u : BitVec 16, (u = if m = .ge then ver else v) → ∃ t, step = .next t ∧ same t ∧ answered t out u
        (m = .ge → ((ver - v).toNat < 2 ^ 15 → ∀ g : Vec, (∀ i < 64, byte g i = Memory.read s.mem (gran * 64 + i)) → given g) ∧
          (2 ^ 15 ≤ (ver - v).toNat → stays 4 users)) ∧
        (m = .eq → (ver = v → ∀ g : Vec, (∀ i < 64, byte g i = Memory.read s.mem (gran * 64 + i)) → given g) ∧
          (2 ^ 15 ≤ (ver - v).toNat → stays 4 users) ∧
          (ver ≠ v → (ver - v).toNat < 2 ^ 15 →
            (∀ e, ret = true → s.stash.find? (fun e => e.gran == gran && e.ver == v) = some e → given e.data) ∧
            ((ret = false ∨ ∀ e ∈ s.stash, e.gran = gran → e.ver ≠ v) → step = .next (s.reqFatal q .versionReclaimed q.ptr 0))))) ∧
      (∀ v, q.kind = .waitv v → ((ver - v).toNat < 2 ^ 15 → ∃ t, step = .next t ∧ same t ∧ answered t 0 ver) ∧
        (2 ^ 15 ≤ (ver - v).toNat → stays 4 users)) ∧
      (∀ v, q.kind = .vrcl v →
        let old := fun (e : StashEntry) => e.part = part ∧ e.gran = gran ∧ (v - e.ver).toNat < 2 ^ 15 ∧ e.ver ≠ v
        ∃ t, step = .next t ∧ same t ∧ t.stash = s.stash.filter (fun e => ¬ old e) ∧
          answered t 0 (BitVec.ofNat 16 (s.stash.filter fun e => old e).length)) ∧
      -- LOCKT and UNLOCKT
      (q.kind = .lockt →
        ((∀ l ∈ s.locks, (l.bank, l.tok) ≠ q.token) → s.lockWaiters q.token = [] →
          ∃ t, step = .next t ∧ same t ∧ t.locks = s.locks ++ [⟨q.token.1, q.token.2, q.lid, q.rank, q.la⟩] ∧ answered t 0 0) ∧
        (∀ l, s.locks.find? (fun l => (l.bank, l.tok) == q.token) = some l →
          ∃ t r, step = .next t ∧ same t ∧ t.locks = s.locks ∧ waits 1 [l.lid] t r)) ∧
      (q.kind = .unlockt → step = .next (s.modReq id fun r => { r with stage := .waiting })) ∧
      (key % 64 = 0 →
        let c := s.readVec (gran * 64)
        let f := fun hi lo => bf c hi lo
        let edited := fun (t : State) (change : Nat → Option Bool) =>
          (∀ i < 512, (t.readVec (gran * 64)).getLsbD i = (change i).getD (c.getLsbD i)) ∧ rest t gran ∧ t.ver gran = ver + 1
        let field := fun (hi lo n : Nat) i => if lo ≤ i ∧ i ≤ hi then some ((BitVec.ofNat 64 n).getLsbD (i - lo)) else none
        -- BAR
        (∀ slot, q.kind = .bar slot → q.sub / 2 ≠ 1 →
          let n := f 39 32
          let gen := f 31 0
          let lidOf := fun i => f (95 + 32 * i) (64 + 32 * i)
          let here := fun i => f (40 + i) (40 + i) = 1
          let awaited := fun (arrived : Nat → Bool) => (((List.range (Min.min 8 n)).filter fun i => !arrived i).map lidOf).eraseDups
          ((n = 0 ∨ n ≤ slot ∨ lidOf slot ≠ q.lid) → step = .next (s.reqFatal q .illegalEncoding 0 0)) ∧
          (n ≠ 0 → slot < n → n ≤ 8 → lidOf slot = q.lid →
            (here slot → stays 0 (awaited fun i => here i)) ∧
            (¬ here slot → (∀ i < n, i ≠ slot → here i) → ∃ t, step = .next t ∧
              edited t (fun i => if i < 32 then field 31 0 ((gen + 1) % 2 ^ 32) i else if 40 ≤ i ∧ i ≤ 47 then some false else none) ∧
              answered t (BitVec.ofNat 512 ((gen + 1) % 2 ^ 32)) (ver + 1)) ∧
            (¬ here slot → (∃ i < n, i ≠ slot ∧ ¬ here i) → ∃ t r, step = .next t ∧ edited t (fun i => if i = 40 + slot then some true else none) ∧
              waits 0 (awaited fun i => i == slot || here i) t r ∧ r.count = gen ∧ r.sub / 2 = 1))) ∧
        -- CHSEND, CHRECV, CHCRED: arrival, wait, ring slot, count
        (let depth := f 447 432
          let sent := f 415 384
          let rcvd := f 383 352
          let cred := f 351 320
          let minus := fun a b : Nat => (BitVec.ofNat 32 a - BitVec.ofNat 32 b).toNat
          let slotPtr := fun n => ptrAdd (BitVec.ofNat 64 (f 511 448)) ((64 * (n % depth) : Nat) : Int)
          let next := fun (t : State) (n : Nat) => ∃ r, t.req? id = some r ∧ r.count = n ∧ r.stage = .home
          let arrives := fun (send : Bool) =>
            let owner := if send then f 319 288 else f 287 256
            q.count = 0 →
              (depth = 0 → step = .next (s.reqFatal q .illegalEncoding 0 0)) ∧
              (depth ≠ 0 → owner = 0 → ∃ t, step = .next t ∧ edited t (if send then field 319 288 q.lid else field 287 256 q.lid) ∧ next t 1) ∧
              (depth ≠ 0 → owner ≠ 0 → owner ≠ q.lid → step = .next (s.reqFatal q .permission q.ptr 0))
          let ready := fun (send : Bool) => q.count = 1 ∨ (q.count = 0 ∧ depth ≠ 0 ∧ (if send then f 319 288 else f 287 256) = q.lid ∧ q.lid ≠ 0)
          (∀ v, q.kind = .chsend v → arrives true ∧
            (ready true → (minus sent cred < depth → ∃ t, step = .next t ∧ same t ∧ next t 2) ∧
              (depth ≤ minus sent cred → ∃ t r, step = .next t ∧ same t ∧ waits 2 (if f 287 256 = 0 then [] else [f 287 256]) t r ∧ r.count = 1)) ∧
            (q.count = 2 → ∀ s1 k w, s.ringKey q (slotPtr sent) true = (s1, .ok (k, w)) → memOk s1 → ∃ t, step = .next t ∧ next t 3 ∧
              (∀ i < 64, Memory.read t.mem (k / 64 * 64 + i) = byte v i) ∧ (∀ a, a / 64 ≠ k / 64 → Memory.read t.mem a = Memory.read s1.mem a) ∧
              t.ver (k / 64) = s1.ver (k / 64) + 1) ∧
            (q.count = 3 → ∃ t, step = .next t ∧ edited t (field 415 384 ((sent + 1) % 2 ^ 32)) ∧ answered t 0 (ver + 1))) ∧
          (q.kind = .chrecv → arrives false ∧
            (ready false → (minus sent rcvd ≠ 0 → ∃ t, step = .next t ∧ same t ∧ next t 2) ∧
              (minus sent rcvd = 0 → ∃ t r, step = .next t ∧ same t ∧ waits 3 (if f 319 288 = 0 then [] else [f 319 288]) t r ∧ r.count = 1)) ∧
            (q.count = 2 → ∀ s1 k w, s.ringKey q (slotPtr rcvd) false = (s1, .ok (k, w)) → k % 64 = 0 →
              (s1.uncorrectable k = false → ∃ t r, step = .next t ∧ t.mem = s1.mem ∧ t.req? id = some r ∧ r.count = 3 ∧
                ∀ i < 64, byte r.out i = Memory.read s1.mem (k + i)) ∧
              (s1.uncorrectable k = true → step = .next (s1.reqFatal q .memoryUncorrectable (slotPtr rcvd) (BitVec.ofNat 64 k)))) ∧
            (q.count = 3 → ∃ t, step = .next t ∧ edited t (field 383 352 ((rcvd + 1) % 2 ^ 32)) ∧ answered t q.out (ver + 1))) ∧
          (∀ n, q.kind = .chcred n → arrives false ∧
            (ready false → let k := Min.min n.toNat (minus rcvd cred)
              (k = 0 → ∃ t, step = .next t ∧ same t ∧ answered t 0 ver) ∧
              (k ≠ 0 → ∃ t, step = .next t ∧ edited t (field 351 320 ((cred + k) % 2 ^ 32)) ∧ answered t (BitVec.ofNat 512 k) (ver + 1))))))))

/-- R220, R222, R230, R231, R233, R235, R236, R238, R260, R290, R292, R304, R314, R332, R372: the steps of a request around its home. A queued request
whose turn has come, in its chain and in its cluster, is sent to its home with all its pieces, sent out, held, turned away or left to Ridge, whose
decision maps the page or stops the access; a waiting one is performed when its condition holds; a held store whose invocation has ended goes on in
order; an answer reaches the firing that waits for it, or the FSCAN that reads by it; a fence completes behind acknowledged requests; and a token passes
on. A request of a launch whose record waits on a full trap queue does nothing. -/
def Obligations.RequestProgress : Prop :=
  ∀ (s : State) id q, s.req? id = some q → q.id = id →
    (s.ringFrozen q.lid = true → exec (.memoryRequestForward id) s = .next s ∧ exec (.translationMissDecision id) s = .next s ∧
      exec (.waitingRequestPerform id) s = .next s ∧ exec (.loadAnswer id) s = .next s ∧ exec (.completionValueDelivery id) s = .next s ∧
      exec (.fenceComplete id) s = .next s ∧ exec (.lockGrant id) s = .next s ∧ exec (.unlockRelease id) s = .next s ∧
      ∀ err, exec (.homeBankEvent id err) s = .next s) ∧
    (s.ringFrozen q.lid = false →
    let paid := fun (s : State) => s.modFiring q.rank fun f => { f with due := f.due.filter fun d => d.what != .request id }
    (∀ x, q.stage = .queued → q.chain = none → s.firstReady q = true → s.shelved q.lid = false → q.kind.pieces q.ptr = [x] →
      let to_ := s.xlate (lidPart q.lid) x.ptr q.kind.reads q.kind.writes
      let step := exec (.memoryRequestForward id) s
      (to_ = .miss → step = .next (({ s with serial := s.serial + 1 } : State).modReq id fun r => { r with stage := .missed, arr := s.serial })) ∧
      (to_ = .denied → step = .next (s.reqFatal q .permission (BitVec.ofNat 64 (ptrOff x.ptr)) 0)) ∧
      (∀ key ret roc, to_ = .home key ret roc → s.holds q = false → s.rocHit q [(x, to_)] = none →
        ∃ t, step = .next t ∧ t.mem = s.mem ∧ t.vers = s.vers ∧ t.elems = s.elems ∧
          t.req? id = some { q with stage := .home, arr := s.serial, next := 0, pas := [some key], sub := ret.toNat }) ∧
      (∀ key ret roc, to_ = .home key ret roc → s.holds q = true → (q.kind.storeOf x).1 ≠ 0 → s.heldCount (q.rank / 16) < 512 →
        ∃ t r, step = .next t ∧ t.mem = s.mem ∧ t.vers = s.vers ∧ t.req? id = some r ∧ r.stage = .held ∧
          (t.cluster (q.rank / 16)).held = (s.cluster (q.rank / 16)).held ++
            [⟨id, q.lid, q.g, q.inv, mkPtr (ptrSpace x.ptr) (ptrOwner x.ptr) (ptrOff x.ptr / 64 * 64), key / 64, (q.kind.storeOf x).1, (q.kind.storeOf x).2⟩]) ∧
      (to_ = .remote → s.holds q = true → (q.kind.storeOf x).1 ≠ 0 → s.heldCount (q.rank / 16) < 512 →
        ∃ t r, step = .next t ∧ t.mem = s.mem ∧ t.outbox = s.outbox ∧ t.req? id = some r ∧ r.stage = .held ∧
          (t.cluster (q.rank / 16)).held = (s.cluster (q.rank / 16)).held ++ [⟨id, q.lid, q.g, q.inv,
            mkPtr (ptrSpace x.ptr) (ptrOwner x.ptr) (ptrOff x.ptr / 64 * 64), x.ptr.toNat / 64, (q.kind.storeOf x).1, (q.kind.storeOf x).2⟩]) ∧
      (∀ ty v, to_ = .remote → q.kind = .ldg ty .plain v → q.next = 0 →
        let det := (s.launch? q.lid).any Launch.det
        let msg := OutMsg.remoteRead (s.via (q.rank / 16)) id x.ptr x.n
        ∃ t r, step = .next t ∧ t.mem = s.mem ∧ t.req? id = some r ∧ r.stage = .remote ∧
          (det = false → t.outbox = s.outbox ++ [msg] ∧ t.parked = s.parked) ∧
          (det = true → t.outbox = s.outbox ∧ ∃ k, t.parked = s.parked ++ [k] ∧ k.msg = msg))) ∧
    (∀ x, q.stage = .missed → q.chain = none → q.kind.pieces q.ptr = [x] → s.xlate (lidPart q.lid) x.ptr q.kind.reads q.kind.writes = .miss →
      (lidPart q.lid, ptrOff x.ptr / 2 ^ 16) ∈ s.walkers (q.rank / 256) →
      (∀ s1, s.decideMiss (lidPart q.lid) (ptrOff x.ptr) = some s1 →
        exec (.translationMissDecision id) s = .next (s1.modReq id fun r => { r with stage := .queued })) ∧
      (s.decideMiss (lidPart q.lid) (ptrOff x.ptr) = none →
        exec (.translationMissDecision id) s = .next (s.reqFatal q .permission (BitVec.ofNat 64 (ptrOff x.ptr)) 0))) ∧
    (∀ key v, q.stage = .waiting → q.kind = .waitv v → q.next = 0 → q.pas = [some key] → s.frozenReq q = false →
      (s.ver (key / 64) - v).toNat < 2 ^ 15 → (∀ r, r ∈ s.reqs → r.stage = .waiting → r.id = id) →
      (s.uncorrectable key = false → ∃ t, exec (.waitingRequestPerform id) s = .next t ∧ t.mem = s.mem ∧ t.vers = s.vers ∧
        t.req? id = some { q with stage := .done, out := 0, ver := s.ver (key / 64) }) ∧
      (s.uncorrectable key = true → exec (.waitingRequestPerform id) s = .next (s.reqFatal q .memoryUncorrectable q.ptr (BitVec.ofNat 64 key)))) ∧
    (∀ f v, q.stage = .done → q.value = some v → s.firing? q.rank = some f → f.fid = q.fid → (∃ d, d ∈ f.due ∧ d.what = .request id) →
      (∀ d, s.dueAt q.rank q.slot = some d → d.what = .request id) → exec (.loadAnswer id) s = .next ((paid (s.dropReq id)).deliverAll q.rank q.slot none q.dst v)) ∧
    (∀ f ty x, q.stage = .done → q.released = false → q.kind = .stg ty x → s.firing? q.rank = some f → f.fid = q.fid → (∃ d, d ∈ f.due ∧ d.what = .request id) →
      exec (.completionValueDelivery id) s = .next ((paid (s.dropReq id)).deliverAll q.rank q.slot
        (some (match q.chain with | some (c, _, _) => BitVec.ofNat 32 c | none => 0xFFFFFFFF)) q.dst (.s (1#1 ++ 0#47 ++ q.ver)))) ∧
    (∀ f ty x, q.stage = .done → q.released = true → q.kind = .stg ty x → s.firing? q.rank = some f → f.fid = q.fid →
      (∃ d, d ∈ f.due ∧ d.what = .request id) → exec (.completionValueDelivery id) s = .next ((paid (s.dropReq id)).deliverAll q.rank q.slot
        (some (match q.chain with | some (c, _, _) => BitVec.ofNat 32 c | none => 0xFFFFFFFF)) q.dst (.s (1#1 ++ 0#63)))) ∧
    (∀ f ty x, (q.stage = .held ∨ q.released = true ∧ q.stage ≠ .done) → q.kind = .stg ty x → s.firing? q.rank = some f → f.fid = q.fid → (∃ d, d ∈ f.due ∧ d.what = .request id) →
      exec (.completionValueDelivery id) s = .next ((paid s).deliverAll q.rank q.slot
        (some (match q.chain with | some (c, _, _) => BitVec.ofNat 32 c | none => 0xFFFFFFFF)) q.dst (.s (1#1 ++ 0#63)))) ∧
    (∀ f sc c st rd, q.stage = .done → q.kind = .fence sc → q.chain = some (c, st, rd) → s.firing? q.rank = some f → f.fid = q.fid →
      (∃ d, d ∈ f.due ∧ d.what = .request id) →
      exec (.completionValueDelivery id) s = .next ((paid ((s.advanceChain q none).dropReq id)).deliverAll q.rank q.slot (some (BitVec.ofNat 32 c)) q.dst
        (.s (1#1 ++ 0#63)))) ∧
    (∀ sc, q.stage = .queued → q.kind = .fence sc → s.chainTurn q = true → (∀ r, r ∈ s.reqs → chainBefore r q = true → r.stage = .done) →
      ∃ t, exec (.fenceComplete id) s = .next t ∧ t.mem = s.mem ∧ t.req? id = some { q with stage := .done }) ∧
    (q.stage = .waiting → q.kind = .lockt → s.frozenReq q = false → (∀ l, l ∈ s.locks → (l.bank, l.tok) ≠ q.token) →
      (∀ r, r ∈ s.reqs → r.stage = .waiting → r.kind = .lockt → r.token = q.token → r.id = id) →
      ∃ t, exec (.lockGrant id) s = .next t ∧ t.locks = s.locks ++ [⟨q.token.1, q.token.2, q.lid, q.rank, q.la⟩] ∧
        t.req? id = some { q with stage := .done, out := 0, ver := 0 }) ∧
    (q.stage = .waiting → q.kind = .unlockt → (∀ r, r ∈ s.reqs → r.rank = q.rank → r.id < id → r.stage = .done) → (∀ e, e ∈ s.engines → e.2.queue = []) →
      (∀ f, s.firing? q.rank = some f → f.due = [⟨q.slot, q.dst, .request id⟩]) →
      let owner := (s.locks.find? fun l => l.bank == q.token.1 && l.tok == q.token.2).map fun l => (l.lid, l.rank, l.la)
      (owner ≠ some (q.lid, q.rank, q.la) → exec (.unlockRelease id) s = .next (s.reqFatal q .permission q.ptr 0)) ∧
      (owner = some (q.lid, q.rank, q.la) → ∃ t, exec (.unlockRelease id) s = .next t ∧ t.locks = s.locks.filter (fun l => !(l.bank == q.token.1 && l.tok == q.token.2)) ∧
        t.req? id = some { q with stage := .done, out := 0, ver := 0 })) ∧
    -- a request of any number of pieces whose turn has come in its chain
    (q.stage = .queued → (∀ sc, q.kind ≠ .fence sc) → s.shelved q.lid = false → s.scopeOk q = true →
      let ps := q.kind.pieces q.ptr
      let to_ := fun x : Piece => s.xlate (lidPart q.lid) x.ptr q.kind.reads q.kind.writes
      let step := exec (.memoryRequestForward id) s
      let passes := fun (t : State) (home : Option (Option Nat)) => ∀ c, s.chainOf q = some c → (∃ st rd, q.chain = some (c.chain, st, rd)) →
        (∀ d ∈ s.chains, d.lid = c.lid → d.g = c.g → d.chain = c.chain → ∃ e ∈ t.chains, e.lid = c.lid ∧ e.g = c.g ∧ e.chain = c.chain ∧
          e.at_ = (if c.at_ + 1 < c.steps.length then c.at_ + 1 else 0) ∧ e.round = (if c.at_ + 1 < c.steps.length then c.round else c.round + 1) ∧
          e.last = match home with | some h => some (id, h.getD (2 ^ 20 + id)) | none => c.last)
      (∀ c ch st rd, q.chain = some (ch, st, rd) → s.chainOf q = some c → (c.round ≠ rd ∨ (c.steps.getD c.at_ (0, 0)).1 ≠ st) → step = .next s) ∧
      (q.chain = none → (∃ r ∈ s.reqs, r.id < id ∧ r.rank / 16 = q.rank / 16 ∧ r.chain = none ∧ r.stage = .queued) → step = .next s) ∧
      ((∀ c ch st rd, q.chain = some (ch, st, rd) → s.chainOf q = some c → c.round = rd ∧ (c.steps.getD c.at_ (0, 0)).1 = st) →
        (q.chain = none → ∀ r ∈ s.reqs, r.id ≠ id → r.rank / 16 = q.rank / 16 → r.chain = none → r.stage = .queued → id < r.id) → ps ≠ [] →
        ((∃ x ∈ ps, to_ x = .miss) → ∃ t, step = .next t ∧ t.mem = s.mem ∧ t.chains = s.chains ∧
          t.req? id = some { q with stage := .missed, arr := s.serial }) ∧
        (∀ x, (∀ y ∈ ps, to_ y ≠ .miss) → ps.find? (fun y => to_ y == .denied) = some x →
          step = .next ((s.advanceChain q none).reqFatal q .permission (BitVec.ofNat 64 (ptrOff x.ptr)) 0)) ∧
        (∀ keys : List Nat, ∀ rets rocs : Nat → Bool, (∀ i x, ps[i]? = some x → ∃ k, keys[i]? = some k ∧ to_ x = .home k (rets i) (rocs i)) →
          keys.length = ps.length → s.holds q = false → ((∃ i < ps.length, rocs i = false) ∨ (∀ ty v, q.kind ≠ .ldg ty .plain v) ∧
            (∀ v, q.kind ≠ .ldgv .plain v) ∧ ∀ ty ix, q.kind ≠ .gath ty ix) →
          let one := keys.all fun k => homeOf k == homeOf (keys.headD 0)
          let home := if one then some (homeOf (keys.headD 0)) else none
          ((∀ c p h r, s.chainOf q = some c → c.last = some (p, h) → s.req? p = some r → r.stage = .done ∨ (home = some h ∧ r.stage ≠ .held)) →
            ∃ t r, step = .next t ∧ t.mem = s.mem ∧ t.vers = s.vers ∧ t.elems = s.elems ∧ passes t (some home) ∧ t.req? id = some r ∧
              r.stage = .home ∧ r.arr = s.serial ∧ r.next = 0 ∧ r.pas = keys.map some ∧ (∀ i < ps.length, r.sub.testBit i = rets i) ∧
              r.kind = q.kind ∧ r.ptr = q.ptr ∧ r.dst = q.dst ∧ r.out = q.out) ∧
          (∀ c p h r, s.chainOf q = some c → c.last = some (p, h) → s.req? p = some r → r.stage ≠ .done → (home ≠ some h ∨ r.stage = .held) →
            step = .next s)))) ∧
    -- a held store whose invocation has ended goes on behind those taken before it
    (q.stage = .held → s.shelved q.lid = false →
      (q.released = false → exec (.memoryRequestForward id) s = .next s) ∧
      (q.released = true → q.chain = none →
        let before := fun r : Req => r.stage = .held ∧ r.lid = q.lid ∧ r.g = q.g ∧ r.rank / 16 = q.rank / 16 ∧ r.id ≠ id ∧
          (r.inv < q.inv ∨ r.inv = q.inv ∧ r.arr < q.arr)
        ((∃ r ∈ s.reqs, before r) → exec (.memoryRequestForward id) s = .next s) ∧
        ((∀ r ∈ s.reqs, ¬ before r) → (∃ k, some k ∈ q.pas) → ∃ t, exec (.memoryRequestForward id) s = .next t ∧ t.mem = s.mem ∧
          t.req? id = some { q with stage := .home, arr := s.serial }) ∧
        ((∀ r ∈ s.reqs, ¬ before r) → (∀ k, some k ∉ q.pas) → q.next = 0 → (∃ ty y, q.kind = .stg ty y) →
          ∃ t r, exec (.memoryRequestForward id) s = .next t ∧ t.mem = s.mem ∧ t.req? id = some r ∧ r.stage = .remote))) ∧
    -- one of several reads of an FSCAN is answered
    (∀ f a d j x rest got v, q.stage = .done → q.value = some v → s.active q.rank = some (f, a) → f.fid = q.fid →
      f.due.find? (fun d => d.slot == q.slot) = some d → d.what = .scan j ((x, id) :: rest) got → rest ≠ [] → (∀ e ∈ rest, e.2 ≠ id) →
      ∃ t, exec (.loadAnswer id) s = .next t ∧ t.mem = s.mem ∧ t.reqs = s.reqs.filter (fun r => r.id != id) ∧ t.focus = s.focus ∧
        t.firing? q.rank = some { f with due := f.due.eraseP (fun d => d.slot == q.slot) ++ [⟨q.slot, d.dst, .scan j rest (got ++ [(x, v.nat)])⟩] }))

/-- R110 to R115, R124 to R128: LAUNCH, LAUNCHT and SPLICE read a record and its parameters, give the launch the next id of the partition, queue it,
and deliver its status word; a record with an error is REJECTED at once, and one for a queue of 64 too. LAUNCHI sends a request for its count. A
record above the issuer's priority is Privilege outside partition 0. The id names the new launch, not an ended one that had it before the wrap. -/
def Obligations.LaunchRecords : Prop :=
  ∀ p a b (s : State) f x o ps, s.here = some (f, x) → s.recordCheck (s.portS .a) = .ok o →
    let r := s.localVec o
    let part := s.herePart
    let serial := nextSerial 27 (s.part part).lidSerial
    let lid := 2 ^ 27 * part + serial
    let q := bf r 49 44
    s.readParams part s.focus.rank (some (x.lid, x.g)) (BitVec.ofNat 64 (bf r 383 320)) = (s, .ok ps) →
    let allowed := part = 0 ∨ ∃ l, s.hereLaunch = some l ∧ bf r 53 50 ≤ l.prio
    let done := fun (res : Host.Outcome State Fault Refusal) (st : LState) (reason : Nat) (u : State) (l : Launch) =>
      res = .next (u.out2 a b l.status) ∧ u.launches.getLast? = some l ∧ l.lid = lid ∧ l.part = part ∧ l.recd = r ∧ l.params = ps ∧ l.st = st ∧
      l.reason = reason ∧ l.img = none ∧ ((∀ y, y ∈ s.launches → y.lid = lid → y.st.final = true) → u.launch? lid = some l) ∧
      (u.part part).lidSerial = serial ∧ u.elems.map (·.1) = s.elems.map (·.1) ∧
      u.firing? s.focus.rank = some { f with nlau := f.nlau + 1 }
    (serial = (if ((s.part part).lidSerial + 1) % 2 ^ 27 = 0 then 1 else ((s.part part).lidSerial + 1) % 2 ^ 27) ∧ serial ≠ 0 ∧ lid ≠ 0 ∧
      bits lid 26 0 = serial ∧ lid / 2 ^ 27 = part ∧ (part < 32 → bits lid 31 27 = part)) ∧
    (∀ d, exec (.rdsr p d 10) s = .next (s.out1 d (BitVec.ofNat 64 x.lid))) ∧
    (∀ form res, (form = .launch ∧ res = exec (.launch p a b) s ∨ form = .launcht ∧ res = exec (.launcht p a b) s) → allowed →
      (badRecord r form = true → ∃ u l, done res .rejected 0x20 u l) ∧
      (badRecord r form = false → 64 ≤ ((s.part part).queueOf q).length → ∃ u l, done res .rejected 0x21 u l) ∧
      (badRecord r form = false → ((s.part part).queueOf q).length < 64 →
        ∃ u l, done res (if bf r 42 41 = 1 then .waiting else .queued) 0 u l ∧ l.queueAt = q ∧
          ((∀ y, y ∈ s.launches → y.lid ≠ lid) → u.launches = s.launches ++ [l]) ∧
          (u.part part).queueOf q = (s.part part).queueOf q ++ [lid])) ∧
    (allowed → badRecord r .splice = false → ∀ l', s.launch? (bf r 127 96) = some l' → l'.lid ≠ lid → l'.st = .running → l'.succ = none →
      bf (s.statusOf part (bf r 127 96)) 63 60 ≠ 8 →
      ∃ u l, done (exec (.splice p a b) s) .queued 0 u l ∧ u.launch? l'.lid = some { l' with succ := some lid } ∧
        (u.part part).queues = (s.part part).queues) ∧
    (scopeOk s = false → exec (.launchi p a b) s = .next (s.faultHere .illegalEncoding 0)) ∧
    (allowed → scopeOk s = true → s.reqFault part (.launchi r ps ((s.portS .c).setWidth 16)) (s.portS .b) = none →
      ∃ t, exec (.launchi p a b) s = .next t ∧ sent s.countLaunch t [a, b] (s.portS .b) (.launchi r ps ((s.portS .c).setWidth 16))) ∧
    (¬ allowed → s.hereLaunch.isSome = true →
      exec (.launch p a b) s = .next (s.faultHere .privilege 0) ∧ exec (.launcht p a b) s = .next (s.faultHere .privilege 0) ∧
      exec (.splice p a b) s = .next (s.faultHere .privilege 0) ∧ (scopeOk s = true → exec (.launchi p a b) s = .next (s.faultHere .privilege 0)))

/-- R112, R132: LSTAT delivers the status word of a launch of the partition among its 4,096 most recent, and UNKNOWN for any other id; LCANCEL does so
too, and cancels a launch that has not ended, the issuer's own when its firing ends. R131, R132, R133, R136, R358: a running launch that is stopped
takes its end state at once: its firings, its held stores, its waits and every request that is not a counted one at work are dropped; its actors stay
until LAUNCH_END. One that is not installed leaves its queue. An ended launch stays as it is. -/
def Obligations.LaunchStatusAndStops : Prop :=
  (∀ p a b (s : State),
    let id := bf (s.portS .a) 31 0
    let mine := (s.launches.filter fun l => l.part == s.herePart).reverse.take 4096
    let word := fun (w : Word) => exec (.lstat p a b) s = .next (s.out2 a b w)
    ((∀ l, l ∈ mine → l.lid ≠ id) →
      word (8#4 ++ 0#60) ∧ exec (.lcancel p a b) s = .next (s.out2 a b (8#4 ++ 0#60))) ∧
    (∀ l, mine.find? (fun l => l.lid == id) = some l →
      (∃ w, word w ∧ w = l.status ∧ bf w 63 60 = l.st.code ∧ w.getLsbD 59 = l.late ∧ w.getLsbD 58 = l.vany ∧ w.getLsbD 57 = l.spliced ∧
        bf w 55 48 = (if l.st = .rejected ∨ l.st = .faulted then l.reason % 256 else 0) ∧ bf w 47 32 = l.vread.toNat ∧ bf w 31 0 = id) ∧
      (3 < l.st.code → exec (.lcancel p a b) s = .next (s.out2 a b l.status)) ∧
      (l.st.code ≤ 3 → ∀ h, s.hereLaunch = some h →
        exec (.lcancel p a b) s = .next (if h.lid = id then (s.modFiring s.focus.rank fun f => { f with cancel := true }).out2 a b l.status
          else (s.stopLaunch id .cancelled 0).out2 a b l.status)))) ∧
  (∀ (s : State) (l : Launch) st reason, s.launch? l.lid = some l →
    (l.st.final = true → s.stopLaunch l.lid st reason = s) ∧
    (l.st = .running → l.succ = none → l.saved = none →
      (∀ x, x ∈ s.launches → x.succ ≠ some l.lid ∧ (x.lid = l.lid → x.succ = none)) →
      let t := s.stopLaunch l.lid st reason
      t.launch? l.lid = some { l with st, reason } ∧ t.mem = s.mem ∧ t.full = s.full ∧ t.vers = s.vers ∧ t.edges = s.edges ∧
      (∀ r, (t.elem r).actors = (s.elem r).actors) ∧
      (∀ r f x, t.active r = some (f, x) → x.lid ≠ l.lid ∧ s.active r = some (f, x)) ∧
      (∀ q, q ∈ t.reqs → q ∈ s.reqs ∧ (q.lid = l.lid → q.kind = .null ∨ q.kind.counted = true ∧ q.stage ≠ .waiting ∧ q.stage ≠ .held)) ∧
      (∀ q, q ∈ s.reqs → q.lid ≠ l.lid → q ∈ t.reqs)) ∧
    ((l.st = .queued ∨ l.st = .waiting) → l.saved = none → l.succ = none → l.cmplp = 0 →
      let t := s.stopLaunch l.lid st reason
      t.mem = s.mem ∧ t.elems = s.elems ∧ (∃ l', t.launch? l.lid = some l' ∧ l'.st = st ∧ l'.reason = reason) ∧
      ∀ q, (t.part l.part).queueOf q = ((s.part l.part).queueOf q).filter fun y => y != l.lid))

/-- R118, R240, R241, R247: QCOPY, QGATH and QUNF queue a command on an engine of the element's die and deliver its id; one that finds 32 commands, or
others that wait, waits for room, and ENGINE_COMMAND_ENQUEUE queues it later: by priority, then by descending stage, then in rotation, which goes on
behind the last one that entered (log entry 80). A record error is IllegalEncoding. With X the engine is the least filled one, or under DET the one
of the cluster. R247: QSTAT delivers the status of an engine command of the partition, UNKNOWN for any other id; QWAIT waits until it is final. -/
def Obligations.EngineCommands : Prop :=
  let first := fun (l : List ArbReq) (last rank : Nat) => ∃ w, w ∈ l ∧ w.rank = rank ∧ ∀ y, y ∈ l → y.rank = rank ∨ y.prio < w.prio ∨
    (y.prio = w.prio ∧ (y.stage < w.stage ∨ (y.stage = w.stage ∧ (w.rank + 2 ^ 14 - last % 2 ^ 14 - 1) % 2 ^ 14 < (y.rank + 2 ^ 14 - last % 2 ^ 14 - 1) % 2 ^ 14)))
  (∀ p any (e : Fin 8) a b (s : State),
    (∀ f x o, s.here = some (f, x) → s.recordCheck (s.portS .a) = .ok o →
      let r := s.localVec o
      let die := s.focus.rank / 256
      let eng := if any then (if s.hereDet = true then s.focus.rank / 16 % 16 % 8 else s.leastFilled die) else e.val
      let serial := nextSerial 32 (s.engine die eng).serial
      ∀ k res, (k = .copy ∧ res = exec (.qcopy p any e a b) s ∨ k = .gath ∧ res = exec (.qgath p any e a b) s ∨
          k = .unf ∧ res = exec (.qunf p any e a b) s) →
        (s.engBad k r = true → res = .next (s.faultHere .illegalEncoding 0)) ∧
        (s.engBad k r = false → (s.engine die eng).queue.length < 32 → s.engWaiters die eng = [] →
          ∃ (u : State) (c : EngCmd), res = .next (u.out2 a b (engId die eng serial)) ∧ (u.engine die eng).queue = (s.engine die eng).queue ++ [c] ∧
            (u.engine die eng).stats.getLast? = some ⟨serial, lidPart x.lid, 0, 0⟩ ∧ c.kind = k ∧ c.recd = r ∧ c.serial = serial ∧ c.lid = x.lid ∧
            c.g = x.g ∧ c.rank = s.focus.rank ∧ c.la = f.la ∧ c.ran = false ∧ c.before = s.pendingOf s.focus.rank ∧
            c.follow = (if bf r 15 15 = 1 then some (s.localVec (bf r 14 6 * 64)) else none) ∧ u.mem = s.mem ∧ u.full = s.full ∧
            u.firing? s.focus.rank = some { f with nlau := f.nlau + 1 }) ∧
        (s.engBad k r = false → (32 ≤ (s.engine die eng).queue.length ∨ s.engWaiters die eng ≠ []) →
          ∃ (t : State) (w : WaitFor), res = .next t ∧ t.engines = s.engines ∧ t.mem = s.mem ∧ (∃ follow seq before, w = .engineRoom die eng k.code r follow seq before) ∧
            t.firing? s.focus.rank = some { f with nlau := f.nlau + 1, due := f.due ++ [⟨s.focus.id, [a, b], w⟩] })) ∧
    (∀ c, s.recordCheck (s.portS .a) = .bad c → s.here.isSome = true →
      exec (.qcopy p any e a b) s = .next (s.fatalHere c (s.portS .a)) ∧ exec (.qgath p any e a b) s = .next (s.fatalHere c (s.portS .a)) ∧
      exec (.qunf p any e a b) s = .next (s.fatalHere c (s.portS .a))) ∧
    (∀ rank slot f x d die eng k r follow seq before, s.active rank = some (f, x) → s.dueAt rank slot = some d →
      d.what = .engineRoom die eng k r follow seq before → (s.engine die eng).queue.length < 32 → f.waitsEngine die eng seq = false →
      first (s.engWaiters die eng) (s.engine die eng).last rank →
      ∃ (u : State) (c : EngCmd), exec (.engineCommandEnqueue rank slot) s = .next (u.payDue rank d (.s (engId die eng (nextSerial 32 (s.engine die eng).serial)))) ∧
        (u.engine die eng).queue = (s.engine die eng).queue ++ [c] ∧ c.recd = r ∧ c.kind = EngKind.ofCode k ∧ c.lid = x.lid ∧ u.mem = s.mem)) ∧
  (∀ p a b (s : State),
    let id := s.portS .a
    let known := (s.engine (bf id 63 58) (bf id 57 55)).stats.find? fun y => y.serial == bf id 31 0 && y.part == s.herePart
    let w := s.engStatus s.herePart id
    exec (.qstat p a b) s = .next (s.out2 a b w) ∧
    (∀ y, known = some y → bf id 54 32 = 0 → id ≠ 0 → bf w 63 60 = y.state % 16 ∧ bf w 55 48 = y.code % 256 ∧ bf w 31 0 = y.serial % 2 ^ 32) ∧
    (known = none ∨ bf id 54 32 ≠ 0 ∨ id = 0 → w = 4#4 ++ 0#60) ∧
    (2 ≤ bf w 63 60 → exec (.qwait p a b) s = .next (s.out2 a b w)) ∧
    (∀ f x, s.here = some (f, x) → bf w 63 60 < 2 → ∃ t, exec (.qwait p a b) s = .next t ∧ firingIs s t s.focus.rank
      { f with due := f.due ++ [⟨s.focus.id, [a, b], .engineStatus id⟩] }) ∧
    (∀ rank slot f x d i, s.active rank = some (f, x) → s.dueAt rank slot = some d → d.what = .engineStatus i →
      2 ≤ bf (s.engStatus (lidPart x.lid) i) 63 60 →
      exec (.qwaitRelease rank slot) s = .next (s.payDue rank d (.s (s.engStatus (lidPart x.lid) i)))))

/-- R240, R242 to R245, R283, R293, R360: the command at the head of an engine's queue makes one event after another, a read or a write event, in an
order of the surroundings outside DET (log entry 9). The bytes of QCOPY with all its strides, of QGATH under its indexes and of QUNF: each move has
the source and the destination that the loop gives it; an index is the N32 at AUX + 4j; a read takes exactly the source bytes of its moves, from local,
die or global memory; a write event puts the byte of each of its moves at its destination, makes one version of a global or die granule or sets the
granules of local memory full, and changes no other byte; a command has run once every move is written. Bytes of an endpoint or a peer are asked for
and sent. A command that has run and whose remote writes are acknowledged becomes DONE, or FAULTED if it failed, and leaves the queue; that it waits for
them with REL = 0 too is log entry 47. A QUNF feeds its region the bytes that the MMA at the head still needs, in a deterministic launch in the order in
which the commands were queued. -/
def Obligations.EngineExecution : Prop :=
  (∀ c : EngCmd, 0 < engLen c.recd →
    (c.kind = .copy → c.moves.length = copyCount c.recd ∧ ∀ n < copyCount c.recd, c.moves[n]? = some (some (copyMove c.recd n).1, (copyMove c.recd n).2)) ∧
    (c.kind = .gath → c.moves.length = engLen c.recd * (bf c.recd 239 228 + 1) ∧ ∀ n x, n < c.moves.length →
      alGet c.idxs (n / engLen c.recd) = some x → c.moves[n]? = some (gathMove c.recd x n)) ∧
    (c.kind = .unf → 0 < (unfoldOf (engAux c.recd)).oh → 0 < (unfoldOf (engAux c.recd)).ow → ∀ n < c.moves.length, c.moves[n]? = some (unfMove c.recd n)) ∧
    (∀ m : ByteMove, ∀ z, m.1 = some z → ptrSpace (c.srcPtr m) = ptrSpace (engSrc c.recd) ∧ ptrOwner (c.srcPtr m) = ptrOwner (engSrc c.recd) ∧
      (ptrOff (c.srcPtr m) : Int) = (ptrOff (engSrc c.recd) + z) % 2 ^ 46) ∧
    (∀ m : ByteMove, ptrSpace (c.dstPtr m) = ptrSpace (engDst c.recd) ∧ ptrOwner (c.dstPtr m) = ptrOwner (engDst c.recd) ∧
      (ptrOff (c.dstPtr m) : Int) = (ptrOff (engDst c.recd) + m.2) % 2 ^ 46) ∧
    (∀ v ∈ c.events, match v with
      | .index j => c.kind = .gath ∧ j < bf c.recd 239 228 + 1 ∧ alGet c.idxs j = none
      | .read l => l ≠ [] ∧ ∀ m ∈ l, c.moves[m.2]? = some m.1 ∧ m.1.1.isSome = true ∧ m.2 ∉ c.wr ∧ c.byte m = none
      | .write l => l ≠ [] ∧ ∀ m ∈ l, c.moves[m.2]? = some m.1 ∧ m.2 ∉ c.wr ∧ (c.byte m).isSome = true)) ∧
  (∀ (s : State) die e c rest, (s.engine die e).queue = c :: rest → s.ringFrozen c.lid = false →
    let part := lidPart c.lid
    let run := exec (.engineCommandExecute die e) s
    let now := fun (t : State) (d : EngCmd) => run = .next t ∧ (t.engine die e).queue.head? = some d
    (c.ran = false → s.engHeld c = true → run = .next s) ∧
    (memOk s → c.ran = false → s.engHeld c = false → (c.kind = .unf → s.regionDst (engDst c.recd) = none) →
      ∀ v, c.events[Config.engineNext c.seq c.turn % c.events.length]? = some v → match v with
      | .index j =>
        let p := ptrAdd (engAux c.recd) ((4 * j : Nat) : Int)
        ∀ keys : Nat → Nat, (∀ i : Nat, i < 4 → places s part (ptrAdd p (i : Int)) false (keys i) ∧ s.uncorrectable (keys i) = false) →
          ∃ t x, now t { c with idxs := c.idxs ++ [(j, x)], turn := c.turn + 1 } ∧ t.mem = s.mem ∧ t.vers = s.vers ∧ x < 2 ^ 32 ∧
            ∀ i : Nat, i < 4 → (BitVec.ofNat 32 x).extractLsb' (8 * i) 8 = Memory.read s.mem (keys i)
      | .read l =>
        (∀ keys : NumMove → Nat, (∀ m ∈ l, places s part (c.srcPtr m.1) false (keys m) ∧ s.uncorrectable (keys m) = false) →
          ∃ t d, now t d ∧ t.mem = s.mem ∧ t.vers = s.vers ∧ d = { c with rd := d.rd, turn := c.turn + 1 } ∧
            (∀ m ∈ l, d.byte m = some (Memory.read s.mem (keys m))) ∧ ∀ m, m.2 ∉ l.map (·.2) → d.byte m = c.byte m) ∧
        (∀ m r, l = m :: r → 4 < ptrSpace (c.srcPtr m.1) → s.remoteOk part (c.srcPtr m.1) l.length = true →
          ∃ t, now t { c with asked := c.asked ++ [⟨s.serial, m.2, c.srcPtr m.1, l.length⟩], turn := c.turn + 1 } ∧ t.mem = s.mem ∧
            let msg := OutMsg.remoteRead (s.via (c.rank / 16)) s.serial (c.srcPtr m.1) l.length
            if (s.launch? c.lid).any Launch.det = true then t.outbox = s.outbox ∧ ∃ k, t.parked = s.parked ++ [k] ∧ k.msg = msg
            else t.outbox = s.outbox ++ [msg]) ∧
        (∀ m r, l = m :: r → s.engMisses part (c.srcPtr m.1) = true → c.miss = none →
          ∃ t, now t { c with miss := some (s.serial, part, ptrOff (c.srcPtr m.1) / 2 ^ 16) } ∧ t.mem = s.mem)
      | .write l =>
        ∀ keys : NumMove → Nat, (∀ m ∈ l, places s part (c.dstPtr m.1) true (keys m) ∧ s.uncorrectable (keys m) = false) →
          (c.det = true → ∀ m ∈ l, m.1.1.isSome = true → s.engMisses part (c.srcPtr m.1) = false ∧
            ∀ n ∈ l, ¬ places s part (c.srcPtr m.1) false (keys n)) →
          ∃ t d, now t d ∧ d = { c with wr := c.wr ++ l.map (·.2), turn := c.turn + 1, ran := d.ran } ∧
            (d.ran = true ↔ ∀ n < c.moves.length, n ∈ c.wr ∨ n ∈ l.map (·.2)) ∧
            (∀ m ∈ l, some (Memory.read t.mem (keys m)) = c.byte m) ∧ (∀ a, a ∉ l.map keys → Memory.read t.mem a = Memory.read s.mem a) ∧
            (if ptrSpace (engDst c.recd) = 2 then t.vers = s.vers ∧ ∀ g, g ∈ t.full ↔ g ∈ s.full ∨ ∃ m ∈ l, g = (keys m - 2 ^ 49) / 16
              else t.full = s.full ∧ (∀ m ∈ l, t.ver (keys m / 64) = s.ver (keys m / 64) + 1) ∧
                ∀ g, (∀ m ∈ l, g ≠ keys m / 64) → t.ver g = s.ver g)) ∧
    (c.ran = true → c.acks ≠ [] → run = .next s) ∧
    (∀ state code, c.ran = true → c.acks = [] → engCmpl c.recd = 0 →
      ((∃ x : TrapCode, c.failed = some x ∧ state = 3 ∧ code = x.num) ∨
        (c.failed = none ∧ (c.follow = none ∨ c.fol ≠ none) ∧
          (bf c.recd 20 20 = 1 → 2 ≤ bf c.recd 19 17 → s.followDone c = true) ∧ state = 2 ∧ code = 0)) →
      ∃ t, run = .next t ∧ t.mem = s.mem ∧ (t.engine die e).queue = rest.filter (fun y => y.seq != c.seq) ∧
        ∀ y, y ∈ (t.engine die e).stats → y.serial = c.serial → y.state = state ∧ y.code = code) ∧
    (c.ran = true → c.acks = [] → c.failed = none → (c.follow = none ∨ c.fol ≠ none) → bf c.recd 20 20 = 1 → 2 ≤ bf c.recd 19 17 → s.followDone c = false →
      run = .next s) ∧
    (∀ i r q, c.ran = false → s.engHeld c = false → c.kind = .unf → s.regionDst (engDst c.recd) = some (i, r) → s.regionAt r.origin = some r →
      lidPart r.lid = part → r.queue.head? = some q → q.op = opMma → r.startBad q = none → r.feed.length < r.feedNeed q → r.feeder = none →
      (c.det = true → ∀ y, y ∈ s.engines → ∀ z, z ∈ y.2.queue → z.kind = .unf → z.ran = false → c.ent ≤ z.ent ∨ s.regionDst (engDst z.recd) = none) →
      c.sent < c.moves.length →
      let feed := exec (.regionFeed die e) s
      ∃ m more, (m :: more) <+: ((c.moves.zipIdx.drop c.sent).take (r.feedNeed q - r.feed.length)) ∧
        let l := m :: more
        let last := decide (c.sent + l.length = c.moves.length)
        let fed := fun (bs : List Byte) => ∃ t, feed = .next t ∧ t.mem = s.mem ∧
          t.regionAt r.origin = some { r with feed := r.feed ++ bs, feeder := if last then none else some (die, e, c.serial) } ∧
          (t.engine die e).queue.head? = some { c with sent := c.sent + l.length, ran := last }
        (m.1.1 = none → fed (List.replicate l.length 0)) ∧
        (m.1.1.isSome = true → ∀ keys : NumMove → Nat, (∀ n ∈ l, places s part (c.srcPtr n.1) false (keys n) ∧ s.uncorrectable (keys n) = false) →
          fed (l.map fun n => Memory.read s.mem (keys n)))))

/-- R106, R118, R269, R271, R277, R278, R281, R288: MLOADW, MMA and MPROMO queue the command of a record at its region and deliver an acceptance value; MSWAP,
MSCALE and STATF name the region on port A. Under DET only the origin of the region may issue; no such region, or a record error, is IllegalEncoding;
a command that finds the queue full, others that wait, or a predecessor with commands to come (R289), waits too, and REGION_COMMAND_ENQUEUE queues it in its turn. R267, R282: an access of an accumulator store that no region writes is
performed at once: ACCRD delivers 64 bytes, ACCWR writes 64 and ACCZ zeroes rows of 256, and both deliver a completion value. One of a store that a
region writes goes into the region's queue, and ACC_QUEUED_ACCESS performs it there. -/
def Obligations.MatrixCommands : Prop :=
  (∀ p a b (s : State),
    (∀ f x, s.here = some (f, x) →
      let id := s.focus.id
      let issue := fun (res : Host.Outcome State Fault Refusal) (rg : Region) (op ty : Nat) (r : Vec) (v : Word) =>
        (s.hereDet = true → s.focus.rank ≠ rg.origin → res = .next (s.faultHere .privilege 0)) ∧
        ((s.hereDet = true → s.focus.rank = rg.origin) → rg.queue.length < 8 → s.precedes x.lid x.g = false → s.regWaiters rg.origin = [] →
          ∃ (u : State) (c : RegCmd) (q : Region), res = .next (u.out2 a b (1#1 ++ 0#21 ++ BitVec.ofNat 10 rg.rgn ++ BitVec.ofNat 32 c.serial)) ∧
            c.serial = nextSerial 32 rg.serial ∧ u.regionAt rg.origin = some q ∧
            q = { rg with queue := rg.queue ++ [c], serial := c.serial, last := s.focus.rank } ∧
            c.op = op ∧ c.ty = ty ∧ c.recd = r ∧ c.b = v ∧ c.rank = s.focus.rank ∧ c.lid = x.lid ∧ c.g = x.g ∧ u.mem = s.mem ∧
            u.firing? s.focus.rank = some { f with nlau := f.nlau + 1 }) ∧
        ((s.hereDet = true → s.focus.rank = rg.origin) → (8 ≤ rg.queue.length ∨ s.precedes x.lid x.g = true ∨ s.regWaiters rg.origin ≠ []) →
          ∃ t : State, res = .next t ∧ t.mem = s.mem ∧ t.regions = s.regions ∧ t.firing? s.focus.rank = some { f with
            nlau := f.nlau + 1, due := f.due ++ [⟨id, [a, b], .regionRoom rg.origin op ty r v 0 s.serial⟩] })
      (∀ o op res, s.recordCheck (s.portS .a) = .ok o →
        (op = 0xC0 ∧ res = exec (.mloadw p a b) s ∨ op = 0xC2 ∧ res = exec (.mma p a b) s ∨ op = 0xC7 ∧ res = exec (.mpromo p a b) s) →
        (s.regionOf x.lid x.g (matRgn (s.localVec o)) = none → res = .next (s.faultHere .illegalEncoding 0)) ∧
        ∀ rg, s.regionOf x.lid x.g (matRgn (s.localVec o)) = some rg →
          (matBad op (s.localVec o) rg = true → res = .next (s.faultHere .illegalEncoding 0)) ∧
          (matBad op (s.localVec o) rg = false → issue res rg op 0 (s.localVec o) 0)) ∧
      (∀ rg, s.regionOf x.lid x.g (bf (s.portS .a) 9 0) = some rg →
        issue (exec (.mswap p a b) s) rg 0xC1 0 0 0 ∧ issue (exec (.statf p a b) s) rg 0xF3 0 0 0 ∧
        ∀ m, issue (exec (.mscale p m a b) s) rg 0xC3 (match m with | .bfp => 0 | .mx => 1 | .none => 2) 0 (s.portS .b)) ∧
      (s.regionOf x.lid x.g (bf (s.portS .a) 9 0) = none →
        exec (.mswap p a b) s = .next (s.faultHere .illegalEncoding 0) ∧ exec (.statf p a b) s = .next (s.faultHere .illegalEncoding 0) ∧
        ∀ m, exec (.mscale p m a b) s = .next (s.faultHere .illegalEncoding 0))) ∧
    (∀ rank slot f x d o op ty r v ptr seq rg, s.active rank = some (f, x) → s.dueAt rank slot = some d → d.what = .regionRoom o op ty r v ptr seq →
      s.regionAt o = some rg → rg.queue.length < 8 → s.precedes x.lid x.g = false → s.regEarlier o rank seq = false → arbTurn (s.regWaiters o) rg.last rank = true → isAccOp op = false →
      ∃ (u : State) (c : RegCmd), exec (.regionCommandEnqueue rank slot) s =
          .next (u.payDue rank d (.s (1#1 ++ 0#21 ++ BitVec.ofNat 10 rg.rgn ++ BitVec.ofNat 32 c.serial))) ∧
        u.regionAt o = some { rg with queue := rg.queue ++ [c], serial := c.serial, last := rank } ∧ c.op = op ∧ c.recd = r ∧ u.mem = s.mem)) ∧
  (∀ p a b (s : State) o, memOk s →
    let key := fun i => accKey (ptrOwner (s.portS .a)) (o + i)
    let lane := fun (v : Vec) i => v.extractLsb' (8 * i) 8
    let done : Word := 1#1 ++ 0#63
    let ord := fun (u : State) => u.deliverAll s.focus.rank s.focus.id (some (BitVec.allOnes 32)) [a, b] (.s done)
    let wrote := fun (u : State) (n : Nat) (v : Nat → Byte) => u = { s with mem := u.mem } ∧ memOk u ∧
      (∀ i, i < n → Memory.read u.mem (key i) = v i) ∧ ∀ k, (∀ i, i < n → k ≠ key i) → Memory.read u.mem k = Memory.read s.mem k
    (ptrSpace (s.portS .a) = 3 → s.dieEnabled (ptrOwner (s.portS .a) / 16) = true → s.partOfDie (ptrOwner (s.portS .a) / 16) ≠ some s.herePart →
      let stops := Host.Outcome.next (s.fatalHere .permission (s.portS .a))
      exec (.accrd p a b) s = stops ∧ exec (.accwr p a b) s = stops ∧ exec (.accz p a b) s = stops) ∧
    (s.accCheck (s.portS .a) 64 = .ok o → s.regionOfStore (ptrOwner (s.portS .a)) = none →
      (∃ v, exec (.accrd p a b) s = .next (s.outV2 a b v) ∧ ∀ i, i < 64 → lane v i = Memory.read s.mem (key i)) ∧
      (∃ u, exec (.accwr p a b) s = .next (ord u) ∧ wrote u 64 (lane (s.portV .b)))) ∧
    (s.accCheck (s.portS .a) 256 = .ok o →
      let n := (s.portS .b).toNat
      (n = 0 ∨ 1024 < o / 256 + n → exec (.accz p a b) s = .next (s.faultHere .illegalEncoding (s.portS .b))) ∧
      (0 < n → o / 256 + n ≤ 1024 → s.regionOfStore (ptrOwner (s.portS .a)) = none →
        ∃ u, exec (.accz p a b) s = .next (ord u) ∧ wrote u (256 * n) fun _ => 0)) ∧
    (∀ f x rg, s.here = some (f, x) → s.accCheck (s.portS .a) 64 = .ok o → s.regionOfStore (ptrOwner (s.portS .a)) = some rg → s.regionAt rg.origin = some rg →
      (s.hereDet = true → s.focus.rank = rg.origin) → rg.queue.length < 8 → s.precedes x.lid x.g = false →
      s.regWaiters rg.origin = [] → ∀ res op, (op = 0xC4 ∧ res = exec (.accrd p a b) s ∨ op = 0xC5 ∧ res = exec (.accwr p a b) s) →
        ∃ (t : State) (c : RegCmd), res = .next t ∧ t.mem = s.mem ∧ c.op = op ∧ c.ptr = s.portS .a ∧
          t.regionAt rg.origin = some { rg with queue := rg.queue ++ [c], serial := c.serial, last := s.focus.rank } ∧
          t.firing? s.focus.rank = some { f with
            nlau := f.nlau + 1, due := f.due ++ [⟨s.focus.id, [a, b], .regionDone rg.origin c.serial⟩] }) ∧
    (∀ i r c q g d, s.region? i = some r → r.queue = c :: q → c.op = 0xC5 → s.ringFrozen c.lid = false → s.firing? c.rank = some g → g.fid = c.fid →
      g.due.find? (fun y => y.what == .regionDone r.origin c.serial) = some d →
      ∃ u : State, exec (.accQueuedAccess i) s = .next (((u.dropDue c.rank d.slot).deliverAll c.rank d.slot (some (BitVec.allOnes 32)) d.dst (.s done)).modLaunch
          c.lid fun l => { l with moved := true }) ∧ u.region? i = some { r with queue := q } ∧
        ∀ i, i < 64 → Memory.read u.mem (accKey (ptrOwner c.ptr) (ptrOff c.ptr + i)) = lane c.recd i))

/-- R269, R270, R279, R281, R287, R288: the commands of a region as they run. MSWAP exchanges the two tile registers of every element, and an MMA that it
has passed keeps the tiles it met; MSCALE sets the scales of T.LOAD; MLOADW fills T.LOAD with the weights, element (ey, ex) taking K rows from ey times its K and 16 columns from 16 ex; STATF writes the
statistics record. Each leaves the queue. -/
def Obligations.MatrixLoads : Prop :=
  (∀ (s : State) i r c, s.region? i = some r → s.ringFrozen c.lid = false →
    let left := fun (q : List RegCmd) => q.map (·.serial) = (r.queue.filter fun y => y.serial != c.serial).map (·.serial)
    (r.next 0xC1 = some c → matStatp c.recd = 0 → matCmpl c.recd = 0 → matStatw c.recd = false →
      ∃ t r', exec (.mswapExecute i) s = .next t ∧ t.mem = s.mem ∧ t.region? i = some r' ∧ r'.act = r.load ∧ r'.load = r.act ∧
        left r'.queue ∧ ∀ y, y ∈ r'.queue → y.op = 0xC2 → y.started = true → y.tiles ≠ none) ∧
    (r.next 0xC3 = some c → matStatp c.recd = 0 → matCmpl c.recd = 0 → matStatw c.recd = false →
      (c.ty = 1 → ∀ t, t ∈ r.load → t.ty = .e4m3 ∨ t.ty = .e5m2) →
      ∃ t r', exec (.mscaleExecute i) s = .next t ∧ t.mem = s.mem ∧ t.region? i = some r' ∧ r'.act = r.act ∧
        left r'.queue ∧
        r'.load = r.load.map fun t => match c.ty with
          | 0 => { t with smode := 2, bfp := List.replicate 16 (c.b.setWidth 32) }
          | 1 => { t with smode := 1, mx := List.replicate 16 (c.b.setWidth 8) }
          | _ => { t with smode := 0 }) ∧
    (∀ ty x w, r.next 0xC0 = some c → weightTy (matAty c.recd) = some ty → matStatp c.recd = 0 → matCmpl c.recd = 0 → matStatw c.recd = false →
      (s.matStart i r c).weights c ty (r.k ty) r.n = (x, w) → x.fault = none →
      ∃ t r', exec (.mloadwExecute i) s = .next t ∧ t.mem = x.st.mem ∧ t.region? i = some r' ∧ r'.act = r.act ∧
        r'.load = w.tiles c ty r.w r.h ∧ left r'.queue) ∧
    (∀ key ret s1, r.next 0xF3 = some c → matStatp c.recd = 0 → matCmpl c.recd = 0 → matStatw c.recd = false → r.statp ≠ 0 → ptrSpace r.statp ≤ 1 → ptrOff r.statp % 64 = 0 →
      r.stats.nan < 2 ^ 16 → r.stats.ovf < 2 ^ 16 → r.stats.ufz < 2 ^ 16 → r.stats.wrap < 2 ^ 16 → r.stats.tiles < 2 ^ 32 →
      s.engAddr (c.rank / 256) (lidPart c.lid) r.statp 64 true = (s1, .key key ret) →
      ∃ t r' v, exec (.statfExecute i) s = .next t ∧ t.mem = (s1.storeEvent (lidPart c.lid) ret (key / 64) (BitVec.allOnes 64) v).mem ∧
        bf v 511 480 = c.lid % 2 ^ 32 ∧ bf v 479 464 = c.g % 2 ^ 16 ∧ bf v 463 454 = r.rgn % 1024 ∧ bf v 447 432 = r.stats.nan ∧ bf v 415 400 = r.stats.ovf ∧
        bf v 399 384 = r.stats.ufz ∧ bf v 383 368 = r.stats.wrap ∧ bf v 367 360 = r.stats.maxe % 256 ∧ bf v 359 359 = 1 ∧
        t.region? i = some r' ∧ r'.stats = ⟨0, 0, 0, 0, 0, 0⟩ ∧ r'.seq = nextSerial 32 r.seq ∧
        left r'.queue)) ∧
  (∀ (w : Weights) (c : RegCmd) (t : Ty) rw rh ey ex k j, t ≠ .i4 → t ≠ .n4 → t.width * kb t * 16 ≤ 4096 → ey < rh → ex < rw → k < kb t → j < 16 →
    ∃ y, (w.tiles c t rw rh)[ey * rw + ex]? = some y ∧ y.ty = t ∧ y.smode = matSmode c.recd ∧
      y.weight k j = packed (w.rows.getD (ey * kb t + k) []) t.width (16 * ex + j) % 2 ^ t.width)

/-- R46 to R48, R272, R280: the arithmetic of a pass. An integer cell adds the exact products of its column to the old cell modulo 2^32; a float cell
adds the column partial of the elements from north to south, each step rounded to F32, scaled under block-FP32 without staging; a promotion adds the
scaled staged sum and clears it, the scale of the weights being free where the tiles hold none (log entry 24). R269, R278, R280, R283, R284: a pass takes its rows in order, from memory or from the feed, and performs every cell
of each; a promotion reads one scale for each row. A pass whose types or scale mode differ from the tags of T.ACT is IllegalEncoding. The command then
leaves the queue. -/
def Obligations.MatrixPasses : Prop :=
  (∀ (x : MatRun) (r : Region) (c : RegCmd) (t : Ty) (row : ActRow) m col, memOk x.st →
    let key := r.cellKey (matArow c.recd + m) col
    let old := if matAccm c.recd = true then 0 else x.st.readNat key 4
    let tile := fun ey => r.act.getD (ey * r.w + col / 16) TileReg.zero
    let wrote := fun (y : State) (n : BitVec 32) => (∀ i, i < 4 → Memory.read y.mem (key + i) = n.extractLsb' (8 * i) 8) ∧
      ∀ a, (∀ i, i < 4 → a ≠ key + i) → Memory.read y.mem a = Memory.read x.st.mem a
    (t = .i8 ∨ t = .n8 → wrote (x.cell r c t row m col).st (BitVec.ofInt 32 ((old : Int) + ((List.range r.h).map fun ey => ((List.range 32).map fun k =>
        intOf t (row.vals.getD (ey * 32 + k) 0) * intOf (tile ey).ty ((tile ey).weight k (col % 16))).sum).sum))) ∧
    (t = .e4m3 ∨ t = .e5m2 ∨ t = .bf16 →
      let sm := matSmode c.recd
      let part := (List.range r.h).foldl (fun (y : Nat) ey =>
        let scale := fun (n : Byte) => if sm = 1 then n.toNat else 127
        (f32Add .rne y (dotBlock (scale (row.mx.getD ey 0)) (scale ((tile ey).mx.getD (col % 16) 0)) ((List.range (kb t)).map fun k =>
          (floatOf t (row.vals.getD (ey * kb t + k) 0), floatOf (tile ey).ty ((tile ey).weight k (col % 16))))).1).1) 0
      let scaled := if sm = 2 ∧ matStg c.recd = false then
        (f32Mul .rne (f32Mul .rne row.bfp ((tile 0).bfp.getD (col % 16) 0).toNat).1 part).1 else part
      wrote (x.cell r c t row m col).st (BitVec.ofNat 32 (f32Add .rne old scaled).1)) ∧
    (∀ sa : Nat, let skey := r.cellKey (matSrow c.recd + m) col
      (∀ i j, i < 4 → j < 4 → skey + i ≠ key + j) →
      let y := (x.promote r c sa m col).st
      let sw := if (tile 0).smode = 2 then ((tile 0).bfp.getD (col % 16) 0).toNat else (Config.promoScale c.serial col).toNat
      let v := (f32Add .rne old (f32Mul .rne (f32Mul .rne sa sw).1 (x.st.readNat skey 4)).1).1
      (∀ i, i < 4 → Memory.read y.mem (key + i) = (BitVec.ofNat 32 v).extractLsb' (8 * i) 8 ∧ Memory.read y.mem (skey + i) = 0) ∧
      ∀ a, (∀ i, i < 4 → a ≠ key + i ∧ a ≠ skey + i) → Memory.read y.mem a = Memory.read x.st.mem a)) ∧
  (∀ (s : State) i r c, s.region? i = some r → matStatp c.recd = 0 → matCmpl c.recd = 0 → matStatw c.recd = false →
    s.ringFrozen c.lid = false →
    let x0 : MatRun := { st := s.modRegion i fun r => r.startTo c.serial, stats := Stats.zero, fault := none }
    let act := match c.tiles with | some l => l | none => r.act
    let tag := act.headD TileReg.zero
    let ends := fun (res : Host.Outcome State Fault Refusal) (x : MatRun) (feed : List Byte) => ∃ t r', res = .next t ∧ t.mem = x.st.mem ∧
      t.full = x.st.full ∧ t.region? i = some r' ∧ r'.act = r.act ∧ r'.load = r.load ∧ r'.feed = feed ∧
      r'.queue.map (·.serial) = (r.queue.filter fun y => y.serial != c.serial).map (·.serial)
    (∀ ty, r.next 0xC2 = some c → actTy (matAty c.recd) = some ty →
      let x := (List.range (matM c.recd)).foldl (fun (x : MatRun) m =>
        if (x.actRow c ty (r.k ty) m r.feed).1.fault.isSome then (x.actRow c ty (r.k ty) m r.feed).1
        else (List.range r.n).foldl (fun y col => y.cell { r with act } c ty (x.actRow c ty (r.k ty) m r.feed).2 m col) (x.actRow c ty (r.k ty) m r.feed).1) x0
      (tyAgree ty tag.ty = true → tag.smode = matSmode c.recd → r.feedNeed c ≤ r.feed.length → x.fault = none →
        ends (exec (.mmaExecute i) s) x (r.feed.drop (r.feedNeed c))) ∧
      (tyAgree ty tag.ty = false ∨ tag.smode ≠ matSmode c.recd → ∃ rs, exec (.mmaExecute i) s =
        .next ((({ s with regions := rs } : State).cmdFatal c.lid c.g c.rank c.la .illegalEncoding 0).modLaunch c.lid fun l => { l with moved := true }))) ∧
    (r.next 0xC7 = some c → c.tiles = none → tag.smode = matSmode c.recd →
      let x := (List.range (matM c.recd)).foldl (fun (x : MatRun) m =>
        if (x.read c (ptrAdd (matScp c.recd) (4 * m : Nat)) 4).1.fault.isSome then (x.read c (ptrAdd (matScp c.recd) (4 * m : Nat)) 4).1
        else (List.range r.n).foldl (fun y col => y.promote r c (natOfBytes (x.read c (ptrAdd (matScp c.recd) (4 * m : Nat)) 4).2) m col)
          (x.read c (ptrAdd (matScp c.recd) (4 * m : Nat)) 4).1) x0
      x.fault = none → ends (exec (.mpromoExecute i) s) x r.feed))

/-- R285: a TURN actor takes DATA tokens until it has S of them, transposes the block, and publishes it token by token; another token that stands
there is MalformedStream, as is an end inside a block. R303: an owner actor takes the next DATA token from its inputs in turn, applies its operation
to the cell that the token's index names in its own local memory, and pops it; an index outside its table, and a cell outside local memory or in the FIFO
area, is SpaceViolation and another kind of token MalformedStream. R169: a published token counts in the sequence of its handle. -/
def Obligations.BuiltInActors : Prop :=
  (∀ (s : State) rank la x, s.actor? rank la = some x → s.builtin rank la x .turn = true →
    (∀ q, s.headOf rank la 0 = some q →
      (q.tok.kind = .data → (x.turnIn = [] → x.turnOut.length < 2) →
        let block := x.turnIn ++ [q.tok]
        exec (.turnTokenIntake rank la) s = .next ((s.popIn rank la 0 1).modActor rank la fun y =>
          if block.length < x.desc.turnSize then { y with turnIn := block } else { y with turnIn := [], turnOut := y.turnOut ++ [transpose x.desc.turnSize block] })) ∧
      ((q.tok.kind = .eos ∨ q.tok.kind = .reconf) → x.turnIn ≠ [] → exec (.turnTokenIntake rank la) s = .next (s.streamFault .malformedStream rank la 0 q.pos)) ∧
      (q.tok.kind ≠ .data → q.tok.kind ≠ .eos → q.tok.kind ≠ .reconf →
        exec (.turnTokenIntake rank la) s = .next (s.streamFault .malformedStream rank la 0 q.pos))) ∧
    (∀ t b r i e, x.turnOut = (t :: b) :: r → s.outEdge rank la 1 = some (i, e) → 1 ≤ freeOf e →
      exec (.turnTokenPublish rank la) s = .next (((s.pushTok i t).modActor rank la fun y => { y with seqs := y.seqs.modify 1 (· + 1) }).modActor rank la fun y =>
        { y with turnOut := if b = [] then r else b :: r })) ∧
    (∀ n (l : List Token) j t, l.length = n → (n = 8 ∨ n = 16 ∨ n = 32) → l[j]? = some t → ∃ y, (transpose n l)[j]? = some y ∧ y.kind = .data ∧ y.tag = t.tag ∧
      ∀ i, i < n → laneW (512 / n) y.pay i = laneW (512 / n) ((l.map (·.pay)).getD i 0) j)) ∧
  (∀ (s : State) rank la x h q det, memOk s → s.actor? rank la = some x → s.builtin rank la x .own = true →
    (match s.launch? x.lid with | some l => l.det = det | none => det = false) → s.ownInput rank la x det = some (h, q) →
    let t := (ownKind x.desc).1
    let n := t.width / 8
    let i := bf q.tok.pay 31 0
    let off := bf x.desc.kparam 8 0 * 64 + i * n
    let k := localKey rank off
    (q.tok.kind ≠ .data → exec (.ownerUpdate rank la) s = .next (s.streamFault .malformedStream rank la h q.pos)) ∧
    (q.tok.kind = .data → ((bf x.desc.kparam 17 9 + 1) * 64 / n ≤ i ∨ 32768 < off + n ∨ s.meetsFifo rank off n = true) →
      exec (.ownerUpdate rank la) s = .next (s.streamFault .spaceViolation rank la h q.pos)) ∧
    (q.tok.kind = .data → i < (bf x.desc.kparam 17 9 + 1) * 64 / n → off + n ≤ 32768 → s.meetsFifo rank off n = false → ∃ (u : State) (new : BitVec t.width),
      exec (.ownerUpdate rank la) s = .next ((u.popIn rank la h 1).modActor rank la fun y => { y with ownNext := (h + 1) % 4 }) ∧ u = { s with mem := u.mem } ∧
      new = BitVec.ofNat t.width (atomNew (ownKind x.desc).2 t (s.readNat k n) (bf q.tok.pay (63 + t.width) 64)) ∧
      (∀ j, j < n → Memory.read u.mem (k + j) = new.extractLsb' (8 * j) 8) ∧
      ∀ y, (∀ j, j < n → y ≠ k + j) → Memory.read u.mem y = Memory.read s.mem y))

/-- R306, R307, R312, R313, R315 to R319, R323, R338, R339, R344, R355: TKWAIT delivers the tick number once it has reached the operand, and the operand itself in a deterministic launch or after
a wait; TKRD delivers the tick number, and is Privilege in a deterministic launch. WREG adds an entry and delivers its handle, WDROP takes the entry of
a handle away, and WQRY says whether a handle names an entry. WREG with H = 0
and B = 0 adds one entry for each launch that holds the granule, and delivers the handle of the first. The wait-for table: what a new entry holds and
where it goes, which is the lowest free place (log entry 19), and the count of waits without an entry; when a launch is stalled; the walks at the end of
a cycle, which find a cycle of waits wherever there is one within the limits and report each once; the deadlock record, byte for byte, at its place of
the ring, with every waiter of the cycle frozen, and the entries of a frozen waiter that come later; what a deadlock without a handler, and ACTION 0 and
1, then do; the priority that a holder inherits; and a new holder of the entries on a channel. A handle names whatever entry has its serial and index
(log entry 52). -/
def Obligations.TicksAndManualWaits : Prop :=
  (∀ p a b (s : State),
    let t := s.portS .a
    (t.toNat ≤ s.clock.tick → s.hereDet = false → exec (.tkwait p a b) s = .next (s.out2 a b (BitVec.ofNat 64 s.clock.tick))) ∧
    (t.toNat ≤ s.clock.tick → s.hereDet = true → exec (.tkwait p a b) s = .next (s.out2 a b t)) ∧
    (∀ f x, s.here = some (f, x) → s.clock.tick < t.toNat → ∃ u, exec (.tkwait p a b) s = .next u ∧ firingIs s u s.focus.rank
      { f with due := f.due ++ [⟨s.focus.id, [a, b], .tick t s.hereDet⟩] }) ∧
    (∀ rank slot d n det, s.dueAt rank slot = some d → d.what = .tick n det → n.toNat ≤ s.clock.tick →
      exec (.tkwaitRelease rank slot) s = .next (s.payDue rank d (.s n))) ∧
    (∀ rank slot, (∀ d n det, s.dueAt rank slot = some d → d.what = .tick n det → s.clock.tick < n.toNat) →
      exec (.tkwaitRelease rank slot) s = .next s) ∧
    exec (.tkrd p a b) s = .next (if s.hereDet = true then s.faultHere .privilege 0 else s.out2 a b (BitVec.ofNat 64 s.clock.tick)) ∧
    (∀ f x place, s.here = some (f, x) → placeFor (s.part s.herePart).waits = some place →
      ∀ h : Bool, (h = true ∨ bf (s.portS .b) 31 0 ≠ 0) → ∃ (u : State) (w : WaitEntry),
        exec (.wreg p h a b) s = .next (u.out2 a b (1#1 ++ 0#11 ++ BitVec.ofNat 20 w.idx ++ BitVec.ofNat 32 w.serial)) ∧ w ∈ (u.part s.herePart).waits ∧
        w.man = true ∧ w.spill = place.1 ∧ w.idx = place.2 ∧ w.serial = nextSerial 32 (s.part s.herePart).waitSer ∧ w.obj = (t >>> 6) <<< 6 ∧
        (if h = true then w.kind = 7 ∧ w.hlid = x.lid
          else w.kind = 6 ∧ w.wlid = x.lid ∧ w.wrank = s.focus.rank ∧ w.wact = f.la ∧ w.hlid = bf (s.portS .b) 31 0)) ∧
    (∀ f x, s.here = some (f, x) → bf (s.portS .b) 31 0 = 0 → let old := (s.part s.herePart).waits
      ∀ lids : List Nat, lids.Nodup → (∀ n, n ∈ lids ↔ ∃ w ∈ old, w.kind = 7 ∧ w.obj = (t >>> 6) <<< 6 ∧ w.hlid = n) →
      old.length + Nat.max 1 lids.length ≤ 2048 + 2 ^ 20 → ∃ (u : State) (ws : List WaitEntry) (w : WaitEntry), ws.head? = some w ∧
        exec (.wreg p false a b) s = .next (u.out2 a b (1#1 ++ 0#11 ++ BitVec.ofNat 20 w.idx ++ BitVec.ofNat 32 w.serial)) ∧
        (∀ y, y ∈ (u.part s.herePart).waits ↔ y ∈ old ∨ y ∈ ws) ∧ (ws.map (·.hlid)).Perm (if lids = [] then [0] else lids) ∧
        ∀ y ∈ ws, y.man = true ∧ y.kind = 6 ∧ y.wlid = x.lid ∧ y.wrank = s.focus.rank ∧ y.wact = f.la ∧ y.obj = (t >>> 6) <<< 6 ∧ y.ha = false) ∧
    let named := (s.part s.herePart).waits.find? fun w => w.serial == bf t 31 0 && w.idx == bf t 51 32 && bf t 63 63 == 1
    (∀ w, named = some w → exec (.wqry p a b) s = .next (s.out2 a b (1#1 ++ BitVec.ofNat 4 w.kind ++ BitVec.ofBool w.spill ++ 0#58)) ∧
      ∃ u : State, exec (.wdrop p a b) s = .next (u.out2 a b 1) ∧ u.mem = s.mem ∧ u.elems = s.elems ∧
        (u.part s.herePart).waits = (s.part s.herePart).waits.filter fun y => y.serial != w.serial) ∧
    (named = none → exec (.wqry p a b) s = .next (s.out2 a b 0) ∧ exec (.wdrop p a b) s = .next (s.out2 a b 0))) ∧
  (∀ w : WaitEntry, let n := w.word.toNat
    bits n 255 192 = w.obj.toNat / 64 * 64 ∧ bits n 191 160 = w.wlid % 2 ^ 32 ∧ bits n 159 146 = w.wrank % 2 ^ 14 ∧ bits n 145 143 = w.wact % 8 ∧
    bits n 142 142 = w.wl.toNat ∧ bits n 141 138 = w.kind % 16 ∧ bits n 137 134 = w.wprio % 16 ∧ bits n 133 133 = w.man.toNat ∧ bits n 132 128 = 0 ∧
    bits n 127 96 = w.hlid % 2 ^ 32 ∧ bits n 95 82 = w.hrank % 2 ^ 14 ∧ bits n 81 79 = w.hact % 8 ∧ bits n 78 78 = w.ha.toNat ∧ bits n 77 64 = 0 ∧
    bits n 63 32 = w.serial % 2 ^ 32 ∧ bits n 31 0 = 0) ∧
  (∀ (p : Part) (w : WaitEntry),
    let used := fun (spill : Bool) i => ∃ y ∈ p.waits, y.spill = spill ∧ y.idx = i
    let tab := (p.waits.filter fun y => !y.spill).length
    let full := 2048 ≤ tab ∧ tab + 2 ^ 20 ≤ p.waits.length
    (full → p.addWait w = p) ∧
    (¬ full → ∃ x : WaitEntry, x = { w with idx := x.idx, spill := decide (2048 ≤ tab), serial := nextSerial 32 p.waitSer, frozen := x.frozen } ∧
      ¬ used x.spill x.idx ∧ (∀ i, i < x.idx → used x.spill i) ∧ (x.frozen = true ↔ ∃ y ∈ p.waits, y.frozen = true ∧ y.sameWaiter w = true) ∧
      (∀ y, y ∈ (p.addWait w).waits ↔ y = x ∨ y ∈ p.waits) ∧
      p.addWait w = { p with waitSer := x.serial, waits := (p.addWait w).waits, walks := p.walks ++ [x.serial] })) ∧
  (∀ (s : State) part w r,
    let before := s.part part
    let u := s.modPart part fun p => (w :: r).foldl Part.addWait p
    let lost := (u.part part).waits.length ≠ before.waits.length + (w :: r).length
    (¬ lost → s.beginWait part (w :: r) = u.inherit part) ∧
    (lost → let c := u.modPart part fun p => { p with untracked := p.untracked + 1, wtInc := true }
      (before.wtInc = true → s.beginWait part (w :: r) = c.inherit part) ∧
      (before.wtInc = false → ∃ t : Trap, t.ocode = .waitTableIncomplete ∧ t.lid = w.wlid ∧ t.rank = w.wrank ∧ t.actor = w.wact ∧ t.fatal = false ∧
        t.precise = false ∧ t.addr = BitVec.ofNat 64 (before.untracked + 1) ∧ s.beginWait part (w :: r) = (c.notice t).inherit part))) ∧
  (∀ (s : State) lid, s.stalled lid = true ↔
    (∀ r la x, s.actor? r la = some x → x.lid = lid → s.builtinActs r la x = false ∧ (s.fireKind r la x = none ∨ ∃ f, s.firing? r = some f ∧ f.la = la)) ∧
    (∀ r f x, s.active r = some (f, x) → x.lid = lid → ∃ w ∈ s.waitsOf (lidPart lid), w.man = false ∧ w.ofActor lid r f.la = true ∧ s.blocked w = true) ∧
    (∀ e ∈ s.edges, e.lid = lid → e.link = []) ∧ (∀ e ∈ s.engines, ∀ c ∈ e.2.queue, c.lid ≠ lid) ∧ (∀ r ∈ s.regions, r.lid = lid → r.queue = []) ∧
    ∀ c ∈ s.colls, c.lid ≠ lid) ∧
  (∀ (s : State) part w, (∀ x, x ∈ s.successors part w ↔ follows s part w x) ∧
    (∀ c n, s.walkWaits part w 16 [w] 256 = (some c, n) → closesOn s part w c) ∧
    (∀ n, s.walkWaits part w 16 [w] 256 = (none, n + 1) → ∀ c, ¬ closesOn s part w c) ∧
    ((s.part part).walks = [] → s.walkPart part = s) ∧
    ∀ x, (s.part part).walks = [x] → ((s.part part).waits.filter fun y => y.serial == x) = [w] →
      let u := s.modPart part fun p => { p with walks := [] }
      (u.blocked w = false → s.walkPart part = u) ∧
      (u.blocked w = true → (∀ n, u.walkWaits part w 16 [w] 256 = (none, n + 1) → s.walkPart part = u) ∧
        (u.walkWaits part w 16 [w] 256 = (none, 0) → s.walkPart part = u.modPart part fun p => { p with walkTrunc := p.walkTrunc + 1 }) ∧
        ∀ c n, u.walkWaits part w 16 [w] 256 = (some c, n) → s.walkPart part = u.deadlock part c)) ∧
  (∀ (s : State) part v w c d m n, ((s.part part).waits.filter fun y => (s.part part).walks.contains y.serial) = [v, w] →
    let u := s.modPart part fun p => { p with walks := [] }
    u.blocked v = true → u.walkWaits part v 16 [v] 256 = (some c, m) → (u.deadlock part c).blocked w = true →
    (u.deadlock part c).walkWaits part w 16 [w] 256 = (some d, n) →
    (d.length = c.length ∧ (∀ x ∈ d, ∃ y ∈ c, y.serial = x.serial) → s.walkPart part = u.deadlock part c) ∧
    ((∃ x ∈ d, ∀ y ∈ c, y.serial ≠ x.serial) → s.walkPart part = (u.deadlock part c).deadlock part d)) ∧
  (∀ (s : State) part w r, memOk s →
    let c := w :: r
    let p := s.part part
    let seq := nextSerial 32 p.dlkSeq
    let off := (s.partCfg part).dlkOff + seq % 16 * 1024
    let key := dieKey (s.lowDie part) off
    ∃ (u : State) (t : Trap), s.deadlock part c = u.notice t ∧ u = { s with mem := u.mem, parts := u.parts } ∧
      t.ocode = .deadlock ∧ t.part = part ∧ t.lid = w.wlid ∧ t.rank = w.wrank ∧ t.actor = w.wact ∧ t.detail = c.length ∧ t.cycle = c ∧ t.precise = false ∧
      t.addr = mkPtr 1 (s.lowDie part * 256) off ∧ (∀ x, w.wl = false → s.actor? w.wrank w.wact = some x → t.g = x.g) ∧
      u.part part = { p with
        dlkSeq := seq, waits := p.waits.map fun x => { x with frozen := x.frozen || c.any fun y => y.sameWaiter x },
        preempt := p.preempt.filter fun x => !c.any fun y => (s.wave x.lid).contains y.wlid } ∧ (∀ k, k ≠ part → u.part k = s.part k) ∧
      (∀ a, a < key ∨ key + 64 + 32 * c.length ≤ a → Memory.read u.mem a = Memory.read s.mem a) ∧
      (∀ (i : Nat) x, (c)[i]? = some x → natOfBytes (u.readBytes (key + 64 + 32 * i) 32) = x.word.toNat) ∧
      let n := natOfBytes (u.readBytes key 64)
      bits n 511 480 = 0x4B56444C ∧ bits n 479 448 = seq ∧ bits n 447 443 = part % 32 ∧ bits n 442 438 = c.length % 32 ∧
      (bits n 437 437 = 1 ↔ ∃ x ∈ p.waits, x.spill = true) ∧ (bits n 436 436 = 1 ↔ ∃ x ∈ c, x.man = true) ∧ bits n 435 384 = 0 ∧
      bits n 383 320 = s.clock.cycle % 2 ^ 64 ∧ bits n 319 256 = s.clock.tick % 2 ^ 64 ∧ bits n 255 0 = 0) ∧
  (∀ (s : State) part t r w c, (s.part part).ring = t :: r → (s.part part).logBase = none → t.handled = false → t.ocode = .deadlock → t.cycle = w :: c →
    exec (.ridgeTrapNotify part) s = .next (((s.modPart part fun p => { p with ring := r }).stopLaunch w.wlid .faulted 0x11).modPart t.part fun p =>
      { p with waits := p.waits.map fun x => { x with frozen := x.frozen && !t.cycle.any fun y => y.sameWaiter x } })) ∧
  (∀ (s : State) part x w c, (s.part part).logged.find? (fun y => y.trap.seq == x.trap.seq) = some x → s.handlerOver x.handler = true → x.action = none →
    x.trap.precise = false → x.trap.ocode = .deadlock → x.trap.cycle = w :: c →
    let u := s.modPart part fun p => { p with logged := p.logged.filter fun y => y.trap.seq != x.trap.seq }
    let thawed := fun (p : Part) => p.waits.map fun y => { y with frozen := y.frozen && !(w :: c).any fun z => z.sameWaiter y }
    (s.readAction x = 1 → exec (.handlerAction part x.trap.seq) s = .next (u.modPart part fun p => { p with waits := thawed p, walks := p.walks ++ [w.serial] })) ∧
    (s.readAction x ≠ 1 → exec (.handlerAction part x.trap.seq) s = .next ((u.stopLaunch w.wlid .faulted 0x11).modPart part fun p => { p with waits := thawed p }))) ∧
  (∀ (s : State) part, ((s.part part).waits.map (·.serial)).Nodup → s.inherit part = { s with binds := (s.inherit part).binds } ∧
    (s.inherit part).binds.length = s.binds.length ∧ ∀ (i : Nat) (b : BindRec), s.binds[i]? = some b → ∃ d : BindRec, (s.inherit part).binds[i]? = some d ∧ d = { b with iprio := d.iprio } ∧
      (b.part ≠ part → d = b) ∧
      (b.part = part → (∀ w ∈ (s.part part).waits, reaches s part w b.lid → w.wprio ≤ d.iprio) ∧
        (d.iprio = 0 ∨ ∃ w ∈ (s.part part).waits, reaches s part w b.lid ∧ w.wprio = d.iprio))) ∧
  ∀ (s : State) kind gran lid part p, (s.parts.map (·.1)).Nodup → (part, p) ∈ s.parts →
    let hit := fun (w : WaitEntry) => w.kind == kind && w.hlid == 0 && s.waitsHome gran w
    (s.changeHolder kind gran lid).waitsOf part = p.waits.map (fun w => if hit w then { w with hlid := lid } else w) ∧
    ((s.changeHolder kind gran lid).part part).walks = p.walks ++ (p.waits.filter hit).map (·.serial)

/-- R306, R320, R321, R322: CRED, CBCAST and CGATH file a record with its collective and deliver its name; a record error is IllegalEncoding. Each
participant's contribution is read once its element's earlier requests are acknowledged, rounded to the wire type, with the residual written back where
one is kept, and goes out with what its record says; a participant that contributes nothing tells its record (log entry 25). Once every group's record
and every participant's values are there, COLLECTIVE_EXECUTION writes the result for every participant here and ends the collective: sums in ascending
participant order, maxima or minima, the root's values, or all values in a row; records that differ here or in another module are IllegalEncoding. The
bytes read and written are those at the pointer. -/
def Obligations.Collectives : Prop :=
  let head := fun (p : CollPart) => (⟨p.kind, collCount p.recd, collOp p.recd, bf p.recd 155 152, bf p.recd 151 148, collRoot p.recd⟩ : CollHead)
  (∀ p a b (s : State) f x o l, s.here = some (f, x) → s.recordCheck (s.portS .a) = .ok o → s.launch? x.lid = some l →
    let r := s.localVec o
    ∀ k res, (k = .red ∧ res = exec (.cred p a b) s ∨ k = .bcast ∧ res = exec (.cbcast p a b) s ∨ k = .gath ∧ res = exec (.cgath p a b) s) →
      (s.collBad k s.herePart l.ngroup r = true → res = .next (s.faultHere .illegalEncoding 0)) ∧
      (s.collBad k s.herePart l.ngroup r = false →
        ∃ (u : State) (c : Coll) (q : CollPart), res = .next (u.out2 a b (1#1 ++ 0#15 ++ BitVec.ofNat 16 (bf r 175 160) ++ BitVec.ofNat 32 (bf r 223 192))) ∧
          c ∈ u.colls ∧ q ∈ c.parts ∧ c.lid = x.lid ∧ q.kind = k.num ∧ q.g = x.g ∧ q.rank = s.focus.rank ∧ q.recd = r ∧
          q.before = s.pendingOf s.focus.rank ∧ u.mem = s.mem ∧ u.firing? s.focus.rank = some { f with nlau := f.nlau + 1 })) ∧
  (∀ (s : State) co q r l e w m (x : CollRun) c1 ws, s.colls.find? (fun y => y.id == co.id) = some co → co.parts = q :: r → s.launch? co.lid = some l →
    s.ringFrozen co.lid = false → collTys q.recd = some (e, w) → s.modulesOf co.part co.pset = some m → (∀ p ∈ r, head p = head q) →
    (∀ y ∈ co.wires, y.2.1 = head q) → s.collSend co e w m (m * l.ngroup) = x → x.st.colls.find? (fun y => y.id == co.id) = some c1 →
    let run := exec (.collectiveExecution co.id) s
    (∀ f, x.fault = some f → run = .next (x.st.collFault co f)) ∧
    (x.fault = none → c1.parts.length < l.ngroup ∨ (∃ i, i < m * l.ngroup ∧ alGet c1.wires i = none) → run = .next x.st) ∧
    (x.fault = none → l.ngroup ≤ c1.parts.length → (∀ i, i < m * l.ngroup → ∃ y, alGet c1.wires i = some y) →
      (co.kind ≠ 1 → ws.length = m * l.ngroup ∧ ∀ i v, ws[i]? = some v → ∃ h, alGet c1.wires i = some (h, v)) →
      (co.kind = 1 → ∃ h v, ws = [v] ∧ alGet c1.wires (collRoot q.recd) = some (h, v)) →
      let z := c1.parts.foldl (fun (z : CollRun) p => z.write co.lid p.rank p.la (collDst p.recd) (collResult co.kind q.recd e w ws)) ⟨x.st, none⟩
      (z.fault = none → run = .next (z.st.collEnd c1 2)) ∧ ∀ f, z.fault = some f → run = .next (z.st.collFault c1 f))) ∧
  (∀ (s : State) c p e w m total, c.parts = [p] → alGet c.wires p.g = none → (c.kind = 1 ∨ p.g < total) →
    (c.kind = 1 → p.g ≠ collRoot p.recd → s.collSend c e w m total = ⟨s.wireOut c p [] m, none⟩) ∧
    ((c.kind = 1 → p.g = collRoot p.recd) →
      ((∀ n ∈ s.pendingOf p.rank, n ∉ p.before) → s.collSend c e w m total = CollRun.send ⟨s, none⟩ c p e w m) ∧
      ((∃ n ∈ s.pendingOf p.rank, n ∈ p.before) → s.collSend c e w m total = ⟨s, none⟩))) ∧
  (∀ (x x1 : CollRun) c p e w m src, collTys p.recd = some (e, w) → x.fault = none → x1.fault = none →
    let n := collCount p.recd
    x.read c.part p.rank (collSrc p.recd) (n * (e.width / 8)) = (x1, src) →
    (w = e ∨ collRes p.recd = 0 → ∃ wire, x.send c p e w m = { x1 with st := x1.st.wireOut c p wire m } ∧ wire.length = n * (w.width / 8) ∧
      ∀ j, j < n → packed wire w.width j = (quantise e w (packed src e.width j) none).1) ∧
    (w ≠ e → collRes p.recd ≠ 0 → ptrSpace (collRes p.recd) ≠ 0 → ∀ (x2 : CollRun) res, x1.read c.part p.rank (collRes p.recd) (4 * n) = (x2, res) →
      x2.fault = none → ∃ wire left, wire.length = n * (w.width / 8) ∧ left.length = n * 4 ∧
        (let x3 := x2.write c.lid p.rank p.la (collRes p.recd) left
        x.send c p e w m = { x3 with st := x3.st.wireOut c p wire m }) ∧
        ∀ j, j < n → let y := quantise e w (packed src e.width j) (some (packed res 32 j))
          packed wire w.width j = y.1 ∧ packed left 32 j = y.2)) ∧
  (∀ (e w : Ty) x r, quantise .i32 .i32 x none = (x, 0) ∧
    (e = .f32 ∨ e = .bf16 → w.isFloat = true →
      (∃ fl, rounds w .rne true (asExact (floatOf e x)) (quantise e w x none).1 fl) ∧
      ∃ y fl gl hl, rounds .f32 .rne false (sum .rne false (floatOf e x) (floatOf .f32 r)).1 y fl ∧
        rounds w .rne true (asExact (floatOf .f32 y)) (quantise e w x (some r)).1 gl ∧
        rounds .f32 .rne false (sum .rne true (floatOf .f32 y) (floatOf w (quantise e w x (some r)).1)).1 (quantise e w x (some r)).2 hl)) ∧
  (∀ (s : State) c p wire, let y : CollHead × List Byte := (head p, wire)
    let u : State := { s with colls := [{ c with wires := alSet c.wires p.g y }] }
    s.colls = [c] → s.wireOut c p wire 1 = u ∧ ∀ m, m ≠ 1 → s.wireOut c p wire m =
      u.sendFor c.lid p.rank p.la c.pset wire.length (.collective (s.via (p.rank / 16)) c.pset c.cseq (head p) wire)) ∧
  (∀ (x : CollRun) part rank p n (keys : Nat → Nat), x.fault = none → ptrSpace p ≤ 2 → (ptrSpace p = 2 → ptrOwner p = rank) →
    (∀ i : Nat, i < n → places x.st part (ptrAdd p (i : Int)) false (keys i) ∧ x.st.uncorrectable (keys i) = false) →
    ∃ u : State, x.read part rank p n = ({ x with st := u }, (List.range n).map fun i => Memory.read x.st.mem (keys i)) ∧ u.mem = x.st.mem) ∧
  (∀ (x : CollRun) lid rank la p (l : List Byte) (keys : Nat → Nat), memOk x.st → x.fault = none → ptrSpace p ≤ 2 → (ptrSpace p = 2 → ptrOwner p = rank) →
    (ptrSpace p = 0 → ptrOff p % 64 + l.length ≤ 64) →
    (∀ i : Nat, i < l.length → places x.st (lidPart lid) (ptrAdd p (i : Int)) true (keys i) ∧ x.st.uncorrectable (keys i) = false) →
    let z := x.write lid rank la p l
    z.fault = none ∧ (∀ i b, l[i]? = some b → Memory.read z.st.mem (keys i) = b) ∧
      ∀ a, (∀ i, i < l.length → a ≠ keys i) → Memory.read z.st.mem a = Memory.read x.st.mem a) ∧
  (∀ (s : State) co q r l e w m, s.colls.find? (fun y => y.id == co.id) = some co → co.parts = q :: r → s.launch? co.lid = some l →
    s.ringFrozen co.lid = false → collTys q.recd = some (e, w) → s.modulesOf co.part co.pset = some m →
    ((∃ p, p ∈ r ∧ head p ≠ head q) ∨ ∃ y, y ∈ co.wires ∧ y.2.1 ≠ head q) →
    exec (.collectiveExecution co.id) s = .next ((s.headsOut co m).collFault co (.illegalEncoding, 0)) ∧
      ∀ p, co.parts = [p] → alGet co.wires p.g = none → s.headsOut co m = s.wireOut co p [] m) ∧
  (∀ (r : Vec) (ws : List (List Byte)) e w j, collTys r = some (e, w) → j < collCount r → ws ≠ [] →
    let el := fun (l : List Byte) => packed l w.width j
    let at_ := fun k i => packed (collResult k r e w ws) e.width i
    let bits := fun n => BitVec.ofNat Ty.f32.width n
    (e = .i32 →
      (collOp r = 0 → at_ 0 j = wrapNat 32 ((ws.map fun l => intOf .i32 (el l)).sum)) ∧
      (collOp r = 1 → (∃ l ∈ ws, at_ 0 j = el l) ∧ ∀ l ∈ ws, intOf .i32 (el l) ≤ intOf .i32 (at_ 0 j)) ∧
      (collOp r = 2 → (∃ l ∈ ws, at_ 0 j = el l) ∧ ∀ l ∈ ws, intOf .i32 (at_ 0 j) ≤ intOf .i32 (el l)) ∧
      at_ 1 j = el (ws.headD []) ∧ ∀ i l, ws[i]? = some l → at_ 2 (i * collCount r + j) = el l) ∧
    (e.isFloat = true →
      (collOp r ≤ 2 → ∃ acc : Nat → Nat, (∃ fl, widens w (el (ws.headD [])) (acc 0) fl) ∧
        (∀ i l, ws[i + 1]? = some l → ∃ v fl gl t, widens w (el l) v fl ∧
          (collOp r = 0 → rounds .f32 .rne false (sum .rne false (floatOf .f32 (acc i)) (floatOf .f32 v)).1 (acc (i + 1)) gl) ∧
          (collOp r = 1 → ordered .f32 (bits (acc i)) (bits v) t (bits (acc (i + 1)))) ∧
          (collOp r = 2 → ordered .f32 (bits (acc i)) (bits v) (bits (acc (i + 1))) t)) ∧
        ∃ fl, rounds e .rne false (asExact (floatOf .f32 (acc (ws.length - 1)))) (at_ 0 j) fl) ∧
      (∃ fl, rounds e .rne false (asExact (floatOf w (el (ws.headD [])))) (at_ 1 j) fl) ∧
      ∀ i l, ws[i]? = some l → ∃ fl, rounds e .rne false (asExact (floatOf w (el l))) (at_ 2 (i * collCount r + j)) fl)) ∧
  ∀ (s : State) c pos h l, s.boot.stage = 3 → s.colls = [c] → alGet c.wires pos = none →
    exec (.uePacketReceive ⟨.collective c.part c.pset c.cseq pos h l, none⟩) s = .next { s with colls := [{ c with wires := c.wires ++ [(pos, h, l)] }] }

/-- R348 to R351: DIGEST waits, and DIGEST_COMPLETE delivers the CRC-64 of the listed bytes once the element's earlier requests are acknowledged.
REPLICA_VOTE ends a digest DONE when more than half of the replicas hold its value, with a notice for each replica that holds another or none, and stops
every launch of the partition when they hold another or none (how a replica's digest is counted: log entry 34). R352, R353: SNAP asks for a latch at the
next tick boundary or 64 cycles on, and delivers the serial that the latched set will have; without a free set, where one already promised is not free
(log entry 32), it delivers 0 and the trigger is counted. SNAPSHOT_LATCH latches the counters of the partition for the trigger whose time has come, or at
once for one from outside. -/
def Obligations.DigestsAndSnapshots : Prop :=
  ((∀ p a b (s : State) f x o, s.here = some (f, x) → s.recordCheck (s.portS .a) = .ok o →
    let r := s.localVec o
    let bad := bf r 307 0 ≠ 0 ∨ bf r 383 372 = 0 ∨ bf r 371 356 = 0
    (bad → exec (.digest p a b) s = .next (s.faultHere .illegalEncoding 0)) ∧
    (¬ bad → ∃ t before, exec (.digest p a b) s = .next t ∧ firingIs s t s.focus.rank { f with due := f.due ++ [⟨s.focus.id, [a, b], .digest r before⟩] } ∧
      ∀ q, q ∈ s.reqs → q.rank = s.focus.rank → q.stage ≠ .done → q.kind ≠ .null → q.id ∈ before)) ∧
  (∀ (s : State) rank slot f x d r before z bytes, s.active rank = some (f, x) → s.dueAt rank slot = some d → d.what = .digest r before →
    s.ringFrozen x.lid = false → (∀ q, q ∈ s.reqs → q.rank = rank → q.id ∈ before → q.stage = .done) → s.digestBytes (lidPart x.lid) rank r = (z, bytes) → z.fault = none →
    exec (.digestComplete rank slot) s =
      .next ((z.st.payDue rank d (.s (crc64 bytes))).digestFile x.lid r ⟨x.g, rank, f.la, BitVec.ofNat 64 (bf r 447 384), bytes⟩)) ∧
  (crc64 [] = 0 ∧ ∀ l (b : Byte), crc64 (l ++ [b]) = (List.range 8).foldl (fun (c : BitVec 64) _ =>
    if c.getLsbD 63 then (c <<< 1) ^^^ 0x42F0E1EBA9EA3693 else c <<< 1) (crc64 l ^^^ (b ++ 0#56))) ∧
  (∀ (s : State) d v t, (s.digests.find? fun y => y.is d.part d.rset d.dseq && y.voteAt.isSome) = some d → d.value = some v → d.voteAt = some t →
    let n := (s.replicaSet d.part d.rset).1
    let held := d.held n (s.replicaSet d.part d.rset).2
    let most := fun w => n < 2 * held.count (some w)
    let s1 : State := { s with digests := s.digests.eraseP fun y => y.is d.part d.rset d.dseq && y.voteAt.isSome }
    (none ∈ held → s.clock.tick < t + 16 * d.sk → exec (.replicaVote d.part d.rset d.dseq) s = .next s) ∧
    (none ∉ held ∨ t + 16 * d.sk ≤ s.clock.tick →
      ((∀ y, y ∈ held → y = some v) → most v → exec (.replicaVote d.part d.rset d.dseq) s = .next (s1.digestWrites d 2 v v)) ∧
      (most v → exec (.replicaVote d.part d.rset d.dseq) s = .next ((held.zipIdx.filter fun y => y.1 ≠ some v).foldl
        (fun (u : State) y => u.notice (u.mkTrap d.part d.lid 0 0 .digestMismatch y.2 v v)) (s1.digestWrites d 2 v v))) ∧
      (¬ most v → ∃ u : State, exec (.replicaVote d.part d.rset d.dseq) s = .next (u.haltPart d.part) ∧
        ((∀ w, ¬ most w) → u.mem = (s1.digestWrites d 3 v 0).mem) ∧ ∀ w, most w → u.mem = (s1.digestWrites d 3 v w).mem)))) ∧
  (∀ (s : State) part,
    let p := s.part part
    let serial? := fun (x : SnapTrig) => match x with | .atCycle _ k | .atBoundary k => some k | .atTick _ => none
    let cycle? := fun (x : SnapTrig) => match x with | .atCycle c _ => some c | .atBoundary _ => some s.clock.nextAt | .atTick _ => none
    let room := p.latched.length + (p.trigs.filterMap serial?).eraseDups.length < 2
    let n := nextSerial 32 p.snapSer
    let drop := s.modPart part fun p => { p with snapDrop := p.snapDrop + 1 }
    let latched := fun (serial cycle : Nat) (y : Snapshot) => y.serial = serial ∧ y.cycle = cycle ∧ y.tick = s.clock.tick ∧
      y.suppress = s.thatch.counts.filter (fun x => x.1 / 16384 == part) ∧
      y.counters = [p.walkTrunc, p.untracked, p.trapDrop, p.snapDrop] ∧ y.refused = s.refused ∧ y.stash = s.stashOut ∧
      (∀ e, e ∈ y.softErr ↔ e ∈ s.softErr ∧ (2 ^ 20 ≤ e.1 ∨ s.partOfDie (e.1 / 256) = some part)) ∧
      (∀ e, e ∈ y.discards ↔ e ∈ s.discards ∧ (2 ^ 20 ≤ e.1 ∨ s.partOfDie (e.1 / 256) = some part)) ∧
      ∀ e, e ∈ y.pinRef ↔ ∃ c, (e.1, c) ∈ s.clusters ∧ c.pinRef = e.2 ∧ s.partOfDie (e.1 / 16) = some part
    (∀ pr k a b, s.herePart = part →
      let at_ := if k = true then s.clock.nextAt else s.clock.cycle + 64
      let trig := fun m => if k = true then SnapTrig.atBoundary m else .atCycle at_ m
      ((∀ x ∈ p.trigs, cycle? x ≠ some at_) →
        (room → exec (.snap pr k a b) s = .next ((s.modPart part fun p => { p with snapSer := n, trigs := p.trigs ++ [trig n] }).out2 a b
          (1#1 ++ 0#31 ++ BitVec.ofNat 32 n))) ∧
        (¬ room → exec (.snap pr k a b) s = .next (drop.out2 a b 0))) ∧
      (∀ x m, p.trigs.find? (fun x => cycle? x == some at_) = some x → serial? x = some m → m < 2 ^ 32 →
        exec (.snap pr k a b) s = .next ((s.modPart part fun p => if trig m ∈ p.trigs then p else { p with trigs := p.trigs ++ [trig m] }).out2 a b
          (1#1 ++ 0#31 ++ BitVec.ofNat 32 m)))) ∧
    (room → ∃ y, exec (.snapshotLatch part true) s = .next (s.modPart part fun p => { p with snapSer := n, latched := p.latched ++ [y] }) ∧
      latched n s.clock.cycle y) ∧
    (¬ room → exec (.snapshotLatch part true) s = .next drop) ∧
    (∀ x, p.trigs.find? (fun x => match x with | .atCycle c _ => c ≤ s.clock.cycle | .atBoundary _ => false | .atTick k => k ≤ s.clock.tick) = some x →
      match x with
      | .atCycle c m =>
        (p.latched.length < 2 → ∃ y, exec (.snapshotLatch part false) s = .next (s.modPart part fun p =>
          { p with trigs := p.trigs.filter (· ≠ .atCycle c m), latched := p.latched ++ [y] }) ∧ latched m c y) ∧
        (2 ≤ p.latched.length → exec (.snapshotLatch part false) s = .next (s.modPart part fun p =>
          { p with trigs := p.trigs.filter (· ≠ .atCycle c m), snapDrop := p.snapDrop + 1 }))
      | .atTick k => exec (.snapshotLatch part false) s = exec (.snapshotLatch part true) (s.modPart part fun p => { p with trigs := p.trigs.erase (.atTick k) })
      | .atBoundary _ => False))

/-- R139, R140, R144, R145, R146: the fetch instructions change only the code caches. IPF brings in the lines of a block, and files its decoded copy
under D; IPIN adds one pin of the actor to each line; IUNPIN takes the actor's pins on the block away; IINV drops decoded copies of the block, or of
every block of the image under X, and the actor's pins on them. A pin beyond half the cache is refused and counted, as is
one whose line cannot be brought in (log entry 56), and an id that names no block is
BadTarget. R153 to R157, R370: THATCH submits an image and waits; it is Privilege outside partition 0 and under DET. THATCH_VERIFICATION answers the
first check that fails, and queues an accepted image; at a tick boundary THATCH_TAKE_EFFECT replaces every slot, clears the counts and extends the
measurement. SHA-512 and the signature scheme are the published ones, under a key that is a free value (log entry 8). -/
def Obligations.FetchAndThatch : Prop :=
  (∀ pr (s : State) f x, s.here = some (f, x) →
    let rank := s.focus.rank
    let key := rank * 8 + f.la
    let name := bf (s.portS .a) 15 0
    let caches := fun (t : State) => t = { s with clusters := t.clusters, elems := t.elems } ∧ (∀ r, r ≠ rank → t.elem r = s.elem r) ∧
      t.elem rank = { s.elem rank with dec := (t.elem rank).dec } ∧ ∀ c, c ≠ rank / 16 → t.cluster c = s.cluster c
    let unpinned := fun (t : State) (lines : List Nat) =>
      (∀ l, l ∈ (t.cluster (rank / 16)).code → l.line ∈ lines → ∀ e, e ∈ l.pins → e.1 ≠ key) ∧
      (t.cluster (rank / 16)).code.map (·.line) = (s.cluster (rank / 16)).code.map (·.line) ∧
      ∀ l, l ∈ (s.cluster (rank / 16)).code → l.line ∉ lines → l ∈ (t.cluster (rank / 16)).code
    (∀ w, s.blockNamed name = some w →
      let lines := s.blockLines rank x.lid w
      (∀ d, ∃ t, exec (.ipf pr d) s = .next t ∧ caches t ∧ (t.cluster (rank / 16)).code = lines.foldl touchLine (s.cluster (rank / 16)).code ∧
        (d = true → (∀ y, y ∈ (s.elem rank).dec → ∀ e, e ∈ y.pins → e.2 = 0) → ∃ y, y ∈ (t.elem rank).dec ∧ y.lid = x.lid ∧ y.hdr = w) ∧
        (d = false → (t.elem rank).dec = (s.elem rank).dec)) ∧
      (∃ u t, exec (.ipf pr false) s = .next u ∧ exec (.ipin pr false) s = .next t ∧ t = lines.foldl (fun v l => v.pinLine rank f.la l) u ∧ caches t) ∧
      (∃ u t, exec (.ipf pr true) s = .next u ∧ exec (.ipin pr true) s = .next t ∧
        t = (lines.foldl (fun v l => v.pinLine rank f.la l) u).pinBlock rank f.la x.lid w ∧ caches t) ∧
      (∃ t, exec (.iunpin pr) s = .next t ∧ caches t ∧ unpinned t lines ∧
        ∀ y, y ∈ (t.elem rank).dec → y.lid = x.lid → y.hdr = w → ∀ e, e ∈ y.pins → e.1 ≠ key) ∧
      (∃ t, exec (.iinv pr false) s = .next t ∧ caches t ∧ unpinned t lines ∧
        ∀ y, y ∈ (t.elem rank).dec ↔ y ∈ (s.elem rank).dec ∧ (y.lid ≠ x.lid ∨ y.hdr ≠ w))) ∧
    (∀ l im, s.hereLaunch = some l → l.img = some im → ∃ t, exec (.iinv pr true) s = .next t ∧ caches t ∧
      unpinned t ((im.blocks.map (·.2)).flatMap fun w => s.blockLines rank x.lid w) ∧
      ∀ y, y ∈ (t.elem rank).dec ↔ y ∈ (s.elem rank).dec ∧ (y.lid ≠ x.lid ∨ y.hdr ∉ im.blocks.map (·.2))) ∧
    (s.blockNamed name = none → ∀ d, let bad := Host.Outcome.next (s.faultHere .badTarget (BitVec.ofNat 64 name))
      exec (.ipf pr d) s = bad ∧ exec (.ipin pr d) s = bad ∧ exec (.iunpin pr) s = bad ∧ exec (.iinv pr false) s = bad) ∧
    (∀ (v : State) line, let c := v.cluster (rank / 16)
      let held := c.code.find? fun y => y.line == line
      let many := 512 ≤ (c.code.filter fun y => y.pins.any fun e => e.2 != 0).length
      (held = none ∨ (∃ y, held = some y ∧ (∀ e, e ∈ y.pins → e.2 = 0) ∧ many) →
        v.pinLine rank f.la line = v.modCluster (rank / 16) fun y => { y with pinRef := y.pinRef + 1 }) ∧
      (∀ y, held = some y → ((∃ e, e ∈ y.pins ∧ e.2 ≠ 0) ∨ ¬ many) →
        ∃ z, z ∈ ((v.pinLine rank f.la line).cluster (rank / 16)).code ∧ z.line = line ∧ (alGet z.pins key).getD 0 = (alGet y.pins key).getD 0 + 1))) ∧
  ((∀ pr a b (s : State) f x, s.here = some (f, x) →
    let ptr := s.portS .a
    (s.herePart ≠ 0 ∨ s.hereDet = true → exec (.thatch pr a b) s = .next (s.faultHere .privilege 0)) ∧
    (s.herePart = 0 → s.hereDet = false →
      (ptrSpace ptr ≠ 0 ∨ ptrOwner ptr ≠ 0 → exec (.thatch pr a b) s = .next (s.fatalHere .spaceViolation ptr)) ∧
      (ptrSpace ptr = 0 → ptrOwner ptr = 0 → ptrOff ptr % 64 ≠ 0 → exec (.thatch pr a b) s = .next (s.fatalHere .alignment ptr)) ∧
      (∀ l, ptrSpace ptr = 0 → ptrOwner ptr = 0 → ptrOff ptr % 64 = 0 → s.readImage (s.focus.rank / 256) 0 ptr = (s, .ok l) →
        ∃ t, exec (.thatch pr a b) s = .next t ∧ t.mem = s.mem ∧
          t.thatch = { s.thatch with subs := s.thatch.subs ++ [⟨l, s.focus.rank, f.fid, s.focus.id, [a, b], none⟩] } ∧
          t.firing? s.focus.rank = some { f with due := f.due ++ [⟨s.focus.id, [a, b], .thatch⟩] }))) ∧
  (∀ (s : State) y r, s.thatch.subs = y :: r →
    let st := thatchStatus y.image s.thatch.iver
    let s1 : State := { s with thatch := { s.thatch with
      subs := r, pending := if st = 0 then s.thatch.pending ++ [y.image] else s.thatch.pending } }
    let w : Word := BitVec.ofNat 8 st ++ 0#24 ++ BitVec.ofNat 32 s.thatch.iver
    (∀ c, y.cmd = some c → exec .thatchVerification s = .next (s1.reply c 0 [w])) ∧
    (∀ f d, y.cmd = none → s.firing? y.rank = some f → f.fid = y.fid → s.dueAt y.rank y.slot = some d → d.what = .thatch →
      exec .thatchVerification s = .next (s1.payDue y.rank d (.s w)))) ∧
  (∀ (l : List Byte) iver, let h := thatchHdr l
    let c1 := h.magic = 0x4B565448 ∧ h.fmt = 1 ∧ h.rsv = false
    let c2 := h.totsz = 64 + 64 * h.ndec + 64 * ((h.nflt + 1) / 2) + h.lutsz + 512 ∧ h.ndec ≤ 32 ∧ h.nflt ≤ 16 ∧ h.lutsz % 64 = 0 ∧ h.lutsz ≤ 32768 ∧
      l.length = h.totsz
    let c3 := iver ≤ h.iver
    let c4 := thatchSigOk (l.take (h.totsz - 512)) (l.drop (h.totsz - 512)) = true
    let c5 := (∀ v, v ∈ thatchDec l h → decSlotOk v = true) ∧ ∀ v, v ∈ thatchFlt l h → fltSlotOk v = true
    (thatchStatus l iver = 1 ↔ ¬ c1) ∧ (thatchStatus l iver = 2 ↔ c1 ∧ ¬ c2) ∧ (thatchStatus l iver = 3 ↔ c1 ∧ c2 ∧ ¬ c3) ∧
    (thatchStatus l iver = 4 ↔ c1 ∧ c2 ∧ c3 ∧ ¬ c4) ∧ (thatchStatus l iver = 5 ↔ c1 ∧ c2 ∧ c3 ∧ c4 ∧ ¬ c5) ∧
    (thatchStatus l iver = 0 ↔ c1 ∧ c2 ∧ c3 ∧ c4 ∧ c5)) ∧
  (∀ (s : State) l r, s.thatch.pending = l :: r → s.thatch.due = true →
    ∃ t, exec .thatchTakeEffect s = .next t ∧ t = { s with thatch := t.thatch, boot := t.boot } ∧ t.thatch.dec = thatchDec l (thatchHdr l) ∧
      t.thatch.flt = thatchFlt l (thatchHdr l) ∧ t.thatch.lut = thatchLutOf l (thatchHdr l) ∧ t.thatch.counts = [] ∧
      t.thatch.gen = s.thatch.gen + 1 ∧ t.thatch.iver = (thatchHdr l).iver ∧ t.thatch.pending = r ∧ t.boot.measN = s.boot.measN + 1 ∧
      t.boot.meas = sha512 (vecBytes s.boot.meas ++ (vecBytes (sha512 l) ++ bytesOfNat 4 (thatchHdr l).iver))))

/-- R158 to R163: FIRING_SELECTION starts a firing of a fireable actor on an element where none runs: it enters the entry block of its phase with the
snapshot of its handles and nothing held. Among fireable actors none of which yields or has been passed over 64 times, the chosen one has the highest
effective priority. -/
def Obligations.FiringSelections : Prop :=
  ∀ (s : State) rank,
    (∀ la aged x, s.firing? rank = none → (∀ k, s.inputCheck rank k = s) → s.chooseActor rank (s.fireables rank) = some (la, aged) → s.actor? rank la = some x →
      s.fireKind rank la x = some false → x.desc.join = .all →
      let entry := s.headerOf x.lid (x.desc.entry.getD x.phase 0xFFFF)
      (s.decodeAt rank x entry).2.code = none →
      ∃ t f, exec (.firingSelection rank) s = .next t ∧ t.firing? rank = some f ∧ f.la = la ∧ f.phase = x.phase ∧ f.flushing = false ∧ f.hdr = entry ∧
        f.slots = (s.decodeAt rank x entry).1 ∧ f.snap = s.snapshot rank la x.desc ∧ f.exit = none ∧ f.keepW = [] ∧ f.srW = [] ∧ f.outs = [] ∧ f.due = [] ∧
        f.pend = List.replicate 16 0 ∧ f.flags = 0 ∧ t.mem = s.mem ∧ t.edges = s.edges ∧ t.launches = s.launches ∧
        ∃ y, t.actor? rank la = some y ∧ y.pass = 0 ∧ y.yld = false ∧ y.keep = x.keep ∧ y.phase = x.phase) ∧
    (∀ l la aged, s.chooseActor rank l = some (la, aged) → ∃ x, (la, x) ∈ l) ∧
    (∀ l la aged, (∀ y, y ∈ l → y.2.yld = false ∧ y.2.pass < 64) → s.chooseActor rank l = some (la, aged) →
      ∃ x, (la, x) ∈ l ∧ ∀ y, y ∈ l → s.effPrio y.2 ≤ s.effPrio x) ∧
    (∀ la x b, s.actor? rank la = some x → s.fireKind rank la x = some b → x.retired = false ∧ x.susp = none ∧ s.running x.lid = true ∧
      (b = false → x.desc.join = .all → (∀ h, h ∈ x.desc.ins → (x.desc.handle h).rate ≤ s.filledAt rank la x.desc h)) ∧
      ∀ h i e, h ∈ x.desc.outs → s.outEdge rank la h = some (i, e) →
        (if (x.desc.handle h).var then (x.desc.handle h).max else (x.desc.handle h).rate) * (if (x.desc.handle h).tile then 17 else 1) ≤ freeOf e)

/-- R151, R164 to R167, R169, R182, R184, R332: when no word is ready and no value is due, a firing without an exit is NoExit, or takes the exit of an
emulated word whose inserted words asked for none, and MultiExit beside another exit (log entry 76); a branch enters the named block, a total that breaks its handle's rate is
RateViolation with the handle, and any other exit commits: the held writes of keep and special registers take effect, inputs are popped by their
totals, outputs published in order, and each output's sequence counter moves on by its total; of several writes of one register the last in
block-entry and slot order stands. Nothing happens while the launch's record waits for a place in a full trap queue. -/
def Obligations.BlockEnds : Prop :=
  (∀ (s : State) rank f x, s.active rank = some (f, x) → s.live x.lid = false → exec (.blockQuiescence rank) s = .next s) ∧
  (∀ (s : State) rank f x, s.active rank = some (f, x) → f.anyReady = false → f.due = [] → s.live x.lid = true →
    let asked := f.emulatedExits.find? fun sl => !(f.exit.isSome && f.exitBy == sl.id)
    (f.exit = none → asked = none → exec (.blockQuiescence rank) s = .next (s.preciseEnd rank .noExit 0)) ∧
    (∀ sl, f.exit = none → asked = some sl → (Raw.ofWord sl.word).op = 0x0D → x.desc.entry.getD f.phase 0xFFFF ≠ 0xFFFF →
      ∃ t, exec (.blockQuiescence rank) s = .next t ∧ firingIs { s with focus := t.focus } t rank { f with exit := some .retire, exitBy := sl.id }) ∧
    (∀ sl, asked = some sl → f.exit.isSome = true → sameEmulation f.exitBy sl.id = false →
      exec (.blockQuiescence rank) s = .next (State.multiExit { s with focus := ⟨rank, sl.id⟩ })) ∧
    (∀ w, asked = none → f.exit = some (.branch w) → exec (.blockQuiescence rank) s = .next ((s.leaveBlock rank f x).enterBlock rank w)) ∧
    (∀ e h, asked = none → f.exit = some e → (∀ w, e ≠ .branch w) → h < 16 → totalBad f x h = true → (∀ k, k < h → totalBad f x k = false) →
      exec (.blockQuiescence rank) s = .next (s.preciseEnd rank .rateViolation h)) ∧
    (∀ e, asked = none → f.exit = some e → (∀ w, e ≠ .branch w) → (∀ h, h < 16 → totalBad f x h = false) → f.cancel = false → (s.part (lidPart x.lid)).preempt = none →
      ∃ t y, exec (.blockQuiescence rank) s = .next t ∧ t.firing? rank = none ∧ t.actor? rank f.la = some y ∧
        y.keep = x.keep.zipIdx.map (fun k => (winner f.keepW k.2).getD k.1) ∧ y.rnd = (match winner f.srW 8 with | some v => v.setWidth 2 | none => x.rnd) ∧
        y.flags = (match winner f.srW 9 with | some v => v.setWidth 5 | none => x.flags) ||| f.flags ∧ y.seed = (winner f.srW 12).getD x.seed ∧
        y.phase = (match e with | .exit n => n | _ => f.phase) ∧ y.retired = (x.retired || e == .retire) ∧ y.yld = (e == .yield) ∧
        (e ≠ .retire → y.seqs = x.seqs.zipIdx.map fun q => if (x.desc.handle q.2).out then q.1 + BitVec.ofNat 32 (totalOf f x q.2) else q.1) ∧
        y.lg = f.lgW.getD x.lg ∧ y.fcount = (if f.flushing = true then x.fcount else x.fcount + 1) ∧
        (e ≠ .retire → (∀ h, f.antis.getD h 0 = 0) → x.desc.join = .all →
          (∀ h i d, h ∈ x.desc.ins → (x.desc.handle h).tile = false → s.inEdge rank f.la h = some (i, d) →
            (t.edges[i]?.map (·.fifo)) = some (d.fifo.drop (totalOf f x h))) ∧
          ∀ h i d, h ∈ x.desc.outs → (x.desc.handle h).tile = false → s.outEdge rank f.la h = some (i, d) → d.owed = 0 → d.dropping = false →
            (t.edges[i]?.map fun z => z.link.map (·.tok)) = some (d.link.map (·.tok) ++ (List.range (totalOf f x h)).map fun off =>
              match outWinner f.outs h off 0 with
              | some w => ⟨w.kind, w.tag.getD (x.seqs.getD h 0 + BitVec.ofNat 32 off), w.pay⟩
              | none => ⟨.data, x.seqs.getD h 0 + BitVec.ofNat 32 off, 0⟩)))) ∧
  (∀ (l : List HeldWrite) w, w ∈ l → (∀ y, y ∈ l → y.reg = w.reg → y = w ∨ y.entry < w.entry ∨ y.entry = w.entry ∧ y.slot < w.slot) →
    winner l w.reg = some w.val) ∧
  ∀ (l : List HeldWrite) reg, (∀ y, y ∈ l → y.reg ≠ reg) → winner l reg = none

/-- R129, R169, R171, R173, R177, R178, R180, R237, R238: ACTOR_RETIREMENT retires an actor at whose inputs EOS stands; RECONF_ACTOR_FINISH ends one
at whose inputs RECONF stands, and an actor with a flushing firing to come waits for it (only an ordinary actor has one, log entry 78); a firing whose
every output owes an anti-token is cancelled, and each output's sequence counter still moves on by one (log entry 17); a FORK copies its token to
every output; and INVOCATION_END ends the lowest open invocation of a group. -/
def Obligations.ActorEvents : Prop :=
  ∀ (s : State) rank la x, s.actor? rank la = some x → s.live x.lid = true → s.markEpoch rank la x = none → x.retired = false → x.done = false →
    (∀ f, s.firing? rank = some f → f.la ≠ la) →
    let counted := fun (v : State) => x.desc.outs.foldl (fun v h => v.modActor rank la fun y => { y with seqs := y.seqs.modify h (· + 1#32) }) v
    let copied := fun (v : State) (ts : List Token) (h : Nat) => ts.foldl (fun v t => v.pushOut rank la h t) v
    (x.susp = none → s.allHeads rank la x.desc .eos = true → (x.desc.eosv = true → x.desc.kind = .ordinary → x.flushed = true) → x.turnIn = [] → x.turnOut = [] →
      s.headFault rank la x = none → ∃ t y, exec (.actorRetirement rank la) s = .next t ∧ t = s.retireActor rank la ∧ t.actor? rank la = some y ∧ y.retired = true ∧
        y.keep = x.keep ∧ t.mem = s.mem ∧ t.launches = s.launches) ∧
    (x.susp = none → s.allHeads rank la x.desc .reconf = true → (x.desc.eosv = true → x.desc.kind = .ordinary → x.flushed = true) → x.turnIn = [] → x.turnOut = [] →
      ∃ t y, exec (.reconfActorFinish rank la) s = .next t ∧ t.actor? rank la = some y ∧ y.done = true ∧ y.retired = false ∧ y.keep = x.keep ∧ t.mem = s.mem ∧
        t.launches = s.launches) ∧
    (x.susp = none → s.cancellable x = true → s.owesAll rank la x.desc = true → s.allHeads rank la x.desc .eos = false →
      s.allHeads rank la x.desc .reconf = false → ∃ u : State, exec (.firingCancellation rank la) s =
          .next (x.desc.ins.foldl (fun v h => v.sendAntis rank la h (x.desc.handle h).rate) (counted u)) ∧ u = { s with edges := u.edges } ∧
        ∀ h i e, h ∈ x.desc.outs → s.outEdge rank la h = some (i, e) → u.edges[i]? = some { e with owed := e.owed - 1 }) ∧
    (x.desc.kind = .fork →
      (s.owesAll rank la x.desc = true → ∃ u : State, exec (.forkCopy rank la) s = .next ((counted u).sendAnti rank la 0) ∧ u = { s with edges := u.edges } ∧
        ∀ h i e, h ∈ x.desc.outs → s.outEdge rank la h = some (i, e) → u.edges[i]? = some { e with owed := e.owed - 1 }) ∧
      (∀ i e u r, s.owesAll rank la x.desc = false → s.inEdge rank la 0 = some (i, e) → liveUnits (x.desc.handle 0).tile e.fifo = u :: r → u ≠ [] →
        (∀ h j d, h ∈ x.desc.outs → s.outEdge rank la h = some (j, d) → u.length ≤ freeOf d) →
        exec (.forkCopy rank la) s =
          .next ((counted (x.desc.outs.foldl (fun v h => copied v (u.map (·.tok)) h) (s.popIn rank la 0 u.length))).inputCheck rank la))) ∧
    (∀ l im g, s.launch? x.lid = some l → l.img = some im → im.invm = true → l.st = .running → g < l.ngroup → x.g = g →
      l.endedOf g * l.perInv x.aidx < x.fcount → s.invDone l g (l.endedOf g) = true →
      ∃ u : State, exec (.invocationEnd x.lid g) s = .next (u.releaseHeld x.lid g (l.endedOf g + 1)) ∧ u = { s with launches := u.launches } ∧
        ∃ l', u.launch? x.lid = some l' ∧ l'.endedOf g = l.endedOf g + 1 ∧ ∀ k, k ≠ g → k < l.ngroup → l'.endedOf k = l.endedOf k)

/-- R13, R14, R17, R20, R21, R134, R135, R174 to R176, R329, R331: the flits of an edge. A flit whose turn has come takes a place of the stream's
allowance and of the bridge's 256 unacknowledged flits, then crosses; the oldest one lands at the tail of the FIFO with the next position; one that
breaks the burst rules is MalformedStream; an uncorrectable one leaves and is LinkFailure, which names the bridge, 0 within a die, or the FIFO slot
(log entry 77); a corrected one is counted there, or by the router
of another element on the route that found it; and a link error replays a sent flit four times before it is LinkFailure. A flit of an edge whose
launch has ended leaves. An anti-token annihilates the oldest token, and a burst of which only a part has landed is then closed (log entry 17), or travels to
the producer, where it is owed. The partition of a record for an edge of no launch is that of its die, else 0 (log entry 46). R252 to R255, R342, R343:
JOIN_INPUT_STEP drops the token that an ISECT join skips, and a DATA token comes before a stop token; a MARKER of the epoch in progress is recorded
with the position behind it, and one of another epoch is dropped. -/
def Obligations.EdgeEvents : Prop :=
  (∀ (s : State) i e n f, s.edges[i]? = some e → e.link[n]? = some f →
    let bridge := if f.hops = 0 then none else e.bridges[(if e.det = true ∧ e.bridges ≠ [] then e.bridges.length + 1 else e.bridges.length) - f.hops]?
    let part := if e.lid = 0 then (s.partOfDie (e.crank / 256)).getD 0 else lidPart e.lid
    let failed := fun replays => (s.modEdge i fun d => { d with link := d.link.eraseIdx n }).fatalTrap
      (s.mkTrap part e.lid e.g e.crank .linkFailure (bridge.getD 0) (BitVec.ofNat 64 e.eidx) (BitVec.ofNat 64 replays))
    let becomes := fun g => s.modEdge i fun d => { d with link := d.link.set n g }
    (exec (.flitArrival i (.double n)) s = .next (failed f.retries)) ∧
    (exec (.flitArrival i (.single n)) s = exec (.flitArrival i (.clean n)) { s with
      softErr := alAdd s.softErr (match bridge with | some b => 2 ^ 21 + b | none => e.crank) 1 }) ∧
    (∀ r, exec (.flitArrival i (.router n r)) s = .next (if s.onRoute e r = true then { s with softErr := alAdd s.softErr r 1 } else s)) ∧
    s.onRoute e e.prank = true ∧ s.onRoute e e.crank = true ∧ (∀ r b, s.bindAt (r / 16) = some b → b.lid = e.lid → b.g = e.g → s.onRoute e r = true) ∧
    (e.lid = 0 → exec (.flitArrival i (.clean n)) s = .next (s.modEdge i fun d => { d with link := d.link.eraseIdx n })) ∧
    (e.lid ≠ 0 → s.running e.lid = true → f.hops ≠ 0 → e.det = false →
      let turn := n = 0 ∨ ∃ y, e.link[n - 1]? = some y ∧ (y.hops < f.hops ∨ y.hops = f.hops ∧ y.sent = true ∧ f.sent = false)
      let full := fun b => Nat.min e.depth 32 ≤ (e.link.filter fun y => y.hops == f.hops && y.sent || y.hops + 1 == f.hops && !y.sent).length ∨
        256 ≤ s.unacked b
      (¬ turn → exec (.flitArrival i (.clean n)) s = .next s) ∧
      (turn → f.sent = true → exec (.flitArrival i (.clean n)) s = .next (becomes { f with hops := f.hops - 1, retries := 0, sent := false })) ∧
      (∀ b, turn → f.sent = false → bridge = some b →
        (full b → exec (.flitArrival i (.clean n)) s = .next s) ∧
        (¬ full b → exec (.flitArrival i (.clean n)) s = .next (becomes { f with sent := true })))) ∧
    (∀ b, bridge = some b →
      (f.sent = false → e.det = false → exec (.bridgeReplay ⟨i, n⟩) s = .next s) ∧
      (f.sent = true ∨ e.det = true →
        (f.retries < 4 → exec (.bridgeReplay ⟨i, n⟩) s = .next (becomes { f with retries := f.retries + 1 })) ∧
        (4 ≤ f.retries → exec (.bridgeReplay ⟨i, n⟩) s = .next (failed 4)))) ∧
    (bridge = none → exec (.bridgeReplay ⟨i, n⟩) s = .next s)) ∧
  (∀ (s : State) i e n q, s.edges[i]? = some e → e.fifo[n]? = some q →
    exec (.flitArrival i (.slotSingle n)) s = .next { s with softErr := alAdd s.softErr e.crank 1 } ∧
    ∀ x y, e.lid ≠ 0 → s.actor? e.crank e.cla = some x → e.fifo.head? = some y →
      exec (.flitArrival i (.slotDouble n)) s = .next ((s.modEdge i fun d => { d with fifo := d.fifo.eraseIdx n }).fatalTrap
        (s.mkTrap (lidPart e.lid) e.lid e.g e.crank .linkFailure 0
          (BitVec.ofNat 64 (x.aidx % 65536 * 2 ^ 48 + e.ch % 16 * 2 ^ 44 + (y.pos % e.depth + n) % e.depth)) 0))) ∧
  (∀ (s : State) i e, s.edges[i]? = some e → s.running e.lid = true → e.lid ≠ 0 →
    (∀ f r, e.link = f :: r →
      (∀ x b, f.hops = 0 → f.tok.kind ≠ .marker → e.antis = 0 → f.marked = false → s.actor? e.crank e.cla = some x → x.retired = false → e.lastKind ≠ some .reconf →
        x.desc.inJoin e.ch = false → burstStep (x.desc.handle e.ch).tile e.burst f.tok = some b →
        ∃ (u : State) (d : Edge), exec (.flitArrival i (.clean 0)) s = .next (u.inputCheck e.crank e.cla) ∧ u = { s with edges := u.edges } ∧ u.edges[i]? = some d ∧
          d.link = r ∧ d.fifo = e.fifo ++ [⟨f.tok, e.arrived⟩] ∧ d.arrived = e.arrived + 1 ∧ d.burst = b ∧ d.owed = e.owed ∧ ∀ j, j ≠ i → u.edges[j]? = s.edges[j]?) ∧
      (∀ x, f.hops = 0 → f.tok.kind ≠ .marker → e.antis = 0 → f.marked = false → s.actor? e.crank e.cla = some x → x.retired = false → e.lastKind ≠ some .reconf →
        burstStep (x.desc.handle e.ch).tile e.burst f.tok = none →
        ∃ u : State, exec (.flitArrival i (.clean 0)) s = .next ((u.streamFault .malformedStream e.crank e.cla e.ch e.arrived).inputCheck e.crank e.cla) ∧
          u = { s with edges := u.edges })) ∧
    (0 < e.antis → (∀ f, f ∈ e.link → f.marked = true ∨ f.tok.kind = .marker) → s.eosCarried e = false →
      (e.owed < 255 → exec (.antiTokenArrival i) s = .next (s.modEdge i fun d => { d with antis := d.antis - 1, owed := d.owed + 1 })) ∧
      (255 ≤ e.owed → exec (.antiTokenArrival i) s = .next ((s.modEdge i fun d => { d with antis := d.antis - 1 }).streamFault .antiOverflow e.crank e.cla e.ch 0))) ∧
    (∀ f r, 0 < e.antis → e.link = f :: r → f.marked = false → f.tok.kind ≠ .marker → s.tileEdge e = false →
      ((∃ k, f.tok.kind = .stop k) ∨ f.tok.kind = .eos ∨ f.tok.kind = .reconf →
        exec (.antiTokenArrival i) s = .next ((s.modEdge i fun d => { d with antis := d.antis - 1 }).discardAnti e.prank 1)) ∧
      ((∀ k, f.tok.kind ≠ .stop k) → f.tok.kind ≠ .eos → f.tok.kind ≠ .reconf →
        ∃ t d, exec (.antiTokenArrival i) s = .next t ∧ t = { s with edges := t.edges } ∧ t.edges[i]? = some d ∧ d.antis = e.antis - 1 ∧ d.owed = e.owed ∧
          d.link = { f with marked := true } :: r)) ∧
    (∀ q r h, s.inEdge e.crank e.cla h = some (i, e) → e.antis = 0 → s.tileEdge e = false → e.fifo = q :: r →
      (q.tok.kind = .eos ∨ q.tok.kind = .reconf ∨ (∃ k, q.tok.kind = .stop k) → s.sendAnti e.crank e.cla h = s.discardAnti e.crank 1) ∧
      (q.tok.kind = .data → s.sendAnti e.crank e.cla h = s.modEdge i fun d => { d with fifo := r })) ∧
    (∀ q r h, s.inEdge e.crank e.cla h = some (i, e) → e.antis = 0 → s.tileEdge e = true → e.fifo = q :: r → q.tok.kind = .head →
      r.length < headNdata q.tok.pay → ∃ d, (s.sendAnti e.crank e.cla h).edges[i]? = some d ∧ d.fifo = [] ∧ d.burst = none)) ∧
  ((∀ (s : State) rank la x h k p q, s.actor? rank la = some x → x.retired = false → x.done = false → s.live x.lid = true →
    s.markEpoch rank la x = none → (∀ f, s.firing? rank = some f → f.la ≠ la) → x.desc.ins.filter x.desc.inJoin = [h, k] → s.headOf rank la h = some p → s.headOf rank la k = some q →
    let skip := fun j => exec (.joinInputStep rank la) s = .next ((s.popIn rank la j 1).inputCheck rank la)
    (x.desc.join = .isect → p.tok.kind = .data →
      (q.tok.kind = .data → (p.tok.tag < q.tok.tag → skip h) ∧ (q.tok.tag < p.tok.tag → skip k)) ∧ ((∃ j, q.tok.kind = .stop j) → skip h)) ∧
    (x.desc.join = .isect → (∃ j, p.tok.kind = .stop j) → q.tok.kind = .data → skip k) ∧
    ((∀ b, s.joinStep rank la x.desc ≠ .skip b) → exec (.joinInputStep rank la) s = .next (s.inputCheck rank la)) ∧
    (x.desc.join = .isect ∨ x.desc.join = .union → p.tok.kind = .data → q.tok.kind = .data → p.tok.tag = q.tok.tag →
      s.joinStep rank la x.desc = .fire ⟨false, 0, p.tok.tag, true, true, p.tok.pay, q.tok.pay⟩) ∧
    (x.desc.join = .union → p.tok.kind = .data → q.tok.kind = .data → p.tok.tag < q.tok.tag →
      s.joinStep rank la x.desc = .fire ⟨false, 0, p.tok.tag, true, false, p.tok.pay, 0⟩)) ∧
  (∀ (s : State) i e f r, s.edges[i]? = some e → e.link = f :: r → f.tok.kind = .marker → f.hops = 0 → s.running e.lid = true →
    (∀ y, (s.part (lidPart e.lid)).preempt = some y → e.lid ∈ s.wave y.lid → y.epoch = f.tok.tag.toNat →
      exec (.markerRecord i) s = .next ((s.modEdge i fun d => { d with link := r, marker := some (d.arrived, y.epoch) }).emitMarkers e.crank e.cla)) ∧
    ((∀ y, (s.part (lidPart e.lid)).preempt = some y → e.lid ∉ s.wave y.lid ∨ y.epoch ≠ f.tok.tag.toNat) →
      exec (.markerRecord i) s = .next (s.modEdge i fun d => { d with link := r }))))

/-- R27, R89, R107, R108, R113, R114, R117, R118, R123, R134, R232, R305: RIDGE_PLACEMENT takes a queued head of the highest PRIO, a pre-empted one
counted at the highest waiter's PRIO behind its actors. One that the loader refuses, whose regions never fit the partition, which no placement on an
empty module could hold, or whose chains would spread over two clusters is refused; one that cannot be placed now waits; and one that can is installed:
its GLOBAL segments are written unless they were before, it leaves its queue and runs, or stands LOADING and armed when it is timed, with every actor,
every empty edge and one bind record for each group and die. The image's length is given with the placement (log entry 79); that a
placement could never be is judged on an empty module (log entry 29). -/
def Obligations.Placements : Prop :=
  ∀ (s : State) part (ch : Place) l, ch.origins ≠ [] → s.bestHead part = some l → l.part = part → l.saved = none →
    (l ∈ s.launches ∧ l.st = .queued ∧ (∃ q r, (q, l.lid :: r) ∈ (s.part part).queues) ∧
      ∀ q x r h, (q, x :: r) ∈ (s.part part).queues → s.launch? x = some h → h.st = .queued → h.prio ≤ l.prio ∧
        (h.saved ≠ none → ∀ w, w ∈ s.waitsOf h.part → w.ha = true → w.hlid = h.lid → w.wprio ≤ l.prio)) ∧
    (∀ s1 r, s.loadLaunch l ch.len = (s1, .error r) → exec (.ridgePlacement part ch) s = .next (s1.stopLaunch l.lid .rejected r)) ∧
    (∀ (s1 : State) im segs, s.loadLaunch l ch.len = (s1, .ok (im, segs)) → s.formerPred l = none →
      let x := { l with img := some im, segs, origins := ch.origins, shingles := ch.shingles, cbase := ch.cbase }
      let refused := exec (.ridgePlacement part ch) s = .next (s1.stopLaunch l.lid .rejected 0x09)
      (s.fitsPart part l.rw l.rh = false → refused) ∧
      (s.fitsPart part l.rw l.rh = true → s1.placeOk x im ch.paths = false →
        (s1.placeable x im = true → exec (.ridgePlacement part ch) s = .next s) ∧ (s1.placeable x im = false → refused)) ∧
      (∀ origins shingles paths, origins.length = l.ngroup → (∀ o, o ∈ origins → o.1 < 32 ∧ o.2 < 32) →
        shingles.length = l.ngroup * im.shingles.length → (∀ o, o ∈ shingles → o.1 < 4 * l.rw ∧ o.2 < 4 * l.rh) →
        paths.length = l.ngroup * im.edges.length → (∀ p, p ∈ paths → p.length ≤ 16 * l.rw * l.rh ∧ ∀ c, c ∈ p → c < 16384) →
        s1.emptied.placeOk { x with origins, shingles, cbase := (List.range 64).map fun d => (d, 0) } im paths = true → s1.placeable x im = true) ∧
      (s.fitsPart part l.rw l.rh = true → s1.placeOk x im ch.paths = true →
        (s1.ringHit x = true ∨ ∃ g, g < l.ngroup ∧ x.chainsOk im g = false) → refused) ∧
      (∀ u : State, s.fitsPart part l.rw l.rh = true → s1.placeOk x im ch.paths = true → s1.ringHit x = false →
        (∀ g, g < l.ngroup → x.chainsOk im g = true) → (if l.globDone = true then (s1, true) else s1.putGlobal part segs) = (u, true) →
        ∃ (t : State) (y : Launch),
          exec (.ridgePlacement part ch) s = .next (if l.timed = true then t else t.activate l.lid) ∧ t.launch? l.lid = some y ∧
          y.st = (if l.timed = true then LState.loading else .running) ∧
          y.armed = (if l.timed = true then some (if u.clock.tick < l.tick then l.tick else u.clock.tick + 1) else none) ∧
          y.img = some im ∧ y.origins = ch.origins ∧ y.shingles = ch.shingles ∧ y.globDone = true ∧ (∀ q, l.lid ∉ (t.part part).queueOf q) ∧
          (∀ g a d r, g < l.ngroup → im.actors[a]? = some d → x.actorRank g a = some r → x.newActor im g a d ∈ (t.elem r).actors) ∧
          (∀ g c r, g < l.ngroup → c ∈ x.clusters g → r / 16 = c → (t.elem r).firing = none) ∧
          (∀ g i d, g < l.ngroup → im.edges[i]? = some d → ∃ e : Edge, e ∈ t.edges ∧ e.lid = l.lid ∧ e.g = g ∧ e.eidx = i ∧ e.ph = d.ph ∧
            e.ch = d.chnd ∧ e.depth = d.depth ∧ e.prank = (x.actorRank g d.pact).getD 0 ∧ e.crank = (x.actorRank g d.cact).getD 0 ∧ e.fifo = [] ∧
            e.link = [] ∧ e.owed = 0 ∧ e.antis = 0) ∧
          ∀ g d, g < l.ngroup → d ∈ x.dies g → ∃ b : BindRec, b ∈ t.binds ∧ b.die = d ∧ b.lid = l.lid ∧ b.g = g ∧ b.ngroup = l.ngroup ∧ b.part = part ∧
            b.prio = l.prio ∧ b.valid = true ∧ b.armed = l.timed ∧ b.succ = false ∧ (b.rx, b.ry) = ch.origins.getD g (0, 0) ∧ b.rw = l.rwm1 ∧
            b.rh = l.rhm1 ∧ b.imgp = l.imgp))

/-- R89, R127 to R130, R232: Ridge stages a compatible successor behind its running predecessor, in the predecessor's places and with SUCC set in its
bind records, and refuses an incompatible one with reason 0x22, and one whose chains would spread over two clusters with 0x09. The first element whose
actors have all finished makes the successor RUNNING, and gives it the bind records; each such element's input edges pass over with the tokens they
hold; and nothing passes on an element that has sent its MARKER in a pre-emption. -/
def Obligations.SpliceWavefronts : Prop :=
  (∀ (s s1 : State) part (ch : Place) l t a im segs, ch.origins = [] → s.unstaged part = some (l, t) → t.lid ≠ l.lid → l.img = some a →
    s.loadLaunch t ch.len = (s1, .ok (im, segs)) →
    let x := { t with
      st := .loading, img := some im, segs := keptSegs l a im segs, origins := l.origins, shingles := l.shingles, imgIdx := l.imgIdx + 1, globDone := true,
      cbase := l.allDies.filterMap fun d => (alGet ch.cbase d).map fun c => (d, c) }
    (compatible l x a im segs = false → exec (.ridgePlacement part ch) s = .next (s1.stopLaunch t.lid .rejected 0x22)) ∧
    (compatible l x a im segs = true → (s1.ringHit x = true ∨ ∃ g, g < t.ngroup ∧ x.chainsOk im g = false) →
      exec (.ridgePlacement part ch) s = .next (s1.stopLaunch t.lid .rejected 0x09)) ∧
    (∀ u : State, compatible l x a im segs = true → s1.ringHit x = false → (∀ g, g < t.ngroup → x.chainsOk im g = true) →
      s1.copiesOk l.allDies ch.cbase im = true → s1.putGlobal l.part segs = (u, true) →
      ∃ v, exec (.ridgePlacement part ch) s = .next v ∧ v.launch? t.lid = some x ∧ v.launch? l.lid = s.launch? l.lid ∧ v.edges = s.edges ∧ v.elems = s.elems ∧
        ∀ b, b ∈ v.binds → b.lid = l.lid → b.succ = true)) ∧
  (∀ (s : State) rank,
    ((s.elem rank).finished = none → exec (.elementSuccessorInstall rank) s = .next s) ∧
    ∀ lid g l t im, (s.elem rank).finished = some (lid, g) → s.launch? lid = some l → s.staged lid = some t → t.img = some im → l.st = .running →
      (∀ f, s.firing? rank = some f → exec (.elementSuccessorInstall rank) s = .next s) ∧
      (∀ k, k ∈ (s.elem rank).actors → k.marked = true → (s.part l.part).preempt ≠ none → exec (.elementSuccessorInstall rank) s = .next s) ∧
      (s.firing? rank = none → ((s.part l.part).preempt = none ∨ ∀ k, k ∈ (s.elem rank).actors → k.marked = false) → ∃ u : State, exec (.elementSuccessorInstall rank) s = .next (u.installOn t im g rank) ∧ (t.st = .running → u = s) ∧
        (t.st = .loading → u = { s with launches := u.launches, binds := u.binds, chains := u.chains } ∧ (∃ y, u.launch? t.lid = some y ∧ y.st = .running) ∧
          (∀ b, b ∈ u.binds → b.lid = l.lid → l.lid = t.lid) ∧ u.binds.length = s.binds.length))) ∧
  ∀ (s : State) (t : Launch) im g rank (i : Nat) (e : Edge), s.edges[i]? = some e → e.lid ≠ 0 → ∃ d : Edge, (s.passEdges t im g rank).edges[i]? = some d ∧ d.fifo = e.fifo ∧ d.link = e.link ∧
    (e.crank = rank → d.lid = t.lid ∧ d.burst = none ∧ d.lastKind = none) ∧ (e.crank ≠ rank → d.lid = e.lid) ∧ d.owed = e.owed

/-- R115, R123: a WAITING launch becomes QUEUED when the version at its granule is reached, and faults when Ridge may not read the page (log entry 59); an armed
launch starts at the boundary of its tick, with LATE set when that tick is past. R112, R131, R133, R146, R304, R358 to R360: LAUNCH_END waits until
every actor has retired, or the launch was stopped, until every count is zero, and until no record of it waits at a full ring; then the launch is DONE, the status word is written at CMPLP as one
store event, or goes out when CMPLP names a HOST endpoint's window, and every bind record, lock, chain and edge of the launch is gone, and every
request but a VRCL that is on its way to answer nobody; an edge with flits on its bridges stays until they have crossed
(log entry 58). A CMPLP that the spec's
pointer rules turn away forms a record of Ridge, with FATAL set where the launch was stopped, and writes nothing. -/
def Obligations.LaunchStartsAndEnds : Prop :=
  (∀ (s : State) lid l, s.launch? lid = some l →
    (l.st ≠ .waiting → exec (.launchDependenceMet lid) s = .next s) ∧
    (l.st = .waiting → (∀ w, w ∈ s.waitsOf l.part → w.wl = true → w.wlid = lid → w.frozen = false) →
      (∀ s1 pa e, s.globalXlate l.part (ptrOff l.depp) = (s1, some (pa, e)) → pteR e = true →
        (versionGe (s1.ver (pa / 64)) l.depv = false → exec (.launchDependenceMet lid) s = .next s1) ∧
        (versionGe (s1.ver (pa / 64)) l.depv = true → ∃ t, exec (.launchDependenceMet lid) s = .next t ∧
          t.launch? lid = some { l with st := .queued } ∧ t.mem = s1.mem ∧ t.elems = s1.elems ∧
          ∀ w, w ∈ t.waitsOf l.part ↔ w ∈ s1.waitsOf l.part ∧ ¬ (w.wl = true ∧ w.wlid = lid))) ∧
      (∀ s1 x, s.globalXlate l.part (ptrOff l.depp) = (s1, x) → (∀ pa e, x = some (pa, e) → pteR e = false) →
        exec (.launchDependenceMet lid) s = .next (s1.fatalTrap { s1.mkTrap l.part l.lid 0 0 .permission 0 (BitVec.ofNat 64 (ptrOff l.depp)) 0 with
          ridge := true }))) ∧
    (∀ n, l.armed = some n → l.st = .loading →
      (s.clock.tick < n → exec (.armedClear lid) s = .next s) ∧
      (n ≤ s.clock.tick → ∃ u : State, exec (.armedClear lid) s = .next (u.activate lid) ∧
        u = { s with launches := u.launches, binds := u.binds } ∧
        u.launch? lid = some { l with st := .running, armed := none, late := decide (l.tick < n) } ∧ ∀ b, b ∈ u.binds → b.lid = lid → b.armed = false))) ∧
  ((∀ (s : State) lid l, s.launch? lid = some l →
    (s.over_ l = false ∨ s.counts lid = true ∨ s.ringFrozen lid = true → exec (.launchEnd lid) s = .next s) ∧
    (lid ≠ 0 → s.over_ l = true → s.counts lid = false → s.ringFrozen lid = false → s.staged lid = none → l.succ = none → l.cmplp = 0 → (∀ r, r ∈ s.regions → r.lid ≠ lid) →
      ∃ t y, exec (.launchEnd lid) s = .next t ∧ t.launch? lid = some y ∧ y.st = (if l.st = .running then .done else l.st) ∧ y.reason = l.reason ∧
        y.cbase = [] ∧ (∀ b, b ∈ t.binds → b.lid ≠ lid) ∧ (∀ x, x ∈ t.locks → x.lid ≠ lid) ∧ (∀ c, c ∈ t.chains → c.lid ≠ lid) ∧
        (∀ q, q ∈ t.reqs → q ∈ s.reqs ∧ (q.lid ≠ lid ∨ ∃ m, q.kind = .vrcl m)) ∧ (∀ q, q ∈ s.reqs → q.lid ≠ lid → q ∈ t.reqs) ∧
        (∀ e, e.lid ≠ 0 → (e ∈ t.edges ↔ e ∈ s.edges ∧ e.lid ≠ lid)) ∧
        (∀ e, e ∈ s.edges → e.lid = lid → e.link ≠ [] → ∃ d, d ∈ t.edges ∧ d.lid = 0 ∧ d.link = e.link ∧ d.bridges = e.bridges ∧ d.fifo = []) ∧
        (∀ r a, a ∈ (t.elem r).actors → a.lid ≠ lid) ∧ t.vers = s.vers)) ∧
  (∀ (s : State) l, l.st = .running → s.staged l.lid = none → s.over_ l = true → ∀ e a, e ∈ s.elems → a ∈ e.2.actors → a.lid = l.lid → a.retired = true) ∧
  (∀ (s : State) lid l, s.launch? lid = some l → l.cmplp ≠ 0 →
    let turned := fun (c : TrapCode) => s.completionWrite lid =
      (s.formTrap { s.mkTrap (lidPart lid) lid 0 0 c 0 l.cmplp 0 with ridge := true, fatal := decide (l.st = .faulted ∨ l.st = .cancelled) }).1
    (ptrSpace l.cmplp ≠ 0 → ptrSpace l.cmplp ≠ 5 → turned .spaceViolation) ∧ (ptrSpace l.cmplp = 0 → ptrOwner l.cmplp ≠ 0 → turned .spaceViolation) ∧
    (ptrSpace l.cmplp = 0 ∧ ptrOwner l.cmplp = 0 ∨ ptrSpace l.cmplp = 5 → ptrOff l.cmplp % 64 ≠ 0 → turned .alignment) ∧
    (ptrSpace l.cmplp = 5 → ptrOff l.cmplp % 64 = 0 → s.remoteOk l.part l.cmplp 64 = false → turned .spaceViolation) ∧
    (ptrSpace l.cmplp = 5 → ptrOff l.cmplp % 64 = 0 → s.remoteOk l.part l.cmplp 64 = true → ∃ c,
      s.completionWrite lid = { s with outbox := s.outbox ++ [.remoteWrite c 0 l.cmplp ((bytesOfNat 64 l.status.toNat).map some)] })) ∧
  (∀ (s s1 : State) lid l pa e, s.launch? lid = some l → l.cmplp ≠ 0 → ptrOwner l.cmplp = 0 → ptrSpace l.cmplp = 0 → ptrOff l.cmplp % 64 = 0 →
    s.globalXlate l.part (ptrOff l.cmplp) = (s1, some (pa, e)) → pteW e = true →
    s.completionWrite lid = s1.storeEvent l.part (pteRet e) (pa / 64) (BitVec.allOnes 64) (l.status.setWidth 512)) ∧
  ∀ (s : State) part, (∀ l, l ∈ s.launches → l.part = part → l.st ≠ .running) → ((s.settleTable part).part part).wtInc = false)

/-- R121, R122, R123, R155, R324, R340, R353: TICK_BOUNDARY first closes the cycle that passes, then moves the tick number on by one, in every die at
once, sets the next boundary one period on, counts the boundary for every running launch, lets each stream over an Ultra Ethernet port send its oldest
messages up to 4,096 bytes (log entry 82), and makes what takes effect at the boundary the next operations: the new period, pending Thatch images,
timed starts, DET streams whose flits wait, the packets of each quantum that has arrived whole, due triggers, SNAP.TICKs among them, a pre-emption that
has been open for 1,024 ticks, and the watchdog of each launch that has gone WDT boundaries without progress (log entry 63). R121, R122,
R324, R340, R344, R367: a new period counts from the boundary just passed and leaves the tick number as it is; a message of the grandmaster at the port the
host chose sets PTP time, holds the lock when the offset was at most 10 ns, which is 20 cycles, and then moves the next boundary to its place in the
tick base once an epoch is set; a DET stream releases at most its quantum over each bridge, oldest first, with a
boundary for each bridge and one for visibility (log entry 61); and the watchdog stops its launch, FAULTED
with the fatal record Watchdog. -/
def Obligations.TickAndClockEvents : Prop :=
  (∀ s : State, let u := s.closeCycle s.clock.nextAt
    ∃ (t : State) (l : List Turn), exec .tickBoundary s = .next t ∧ t.agenda = l ++ u.agenda ∧ t.clock.cycle = u.clock.nextAt ∧
    (u.clock.renum = false → t.clock.tick = (u.clock.tick + 1) % 2 ^ 64) ∧ (u.clock.renum = true → t.clock.tick = u.clock.tick) ∧ t.clock.renum = false ∧
    t.clock.nextAt = u.clock.nextAt + u.clock.period ∧ t.clock.period = u.clock.period ∧
    t.launches = u.launches.map (fun y => if y.st = .running then { y with idle := (if y.moved = true then 0 else y.idle) + 1, moved := false } else y) ∧
    t.mem = u.mem ∧ t.elems = u.elems ∧ (∀ p, t.part p = { u.part p with trigs := (u.part p).trigs.map fun x => match x with | .atBoundary m => .atCycle u.clock.nextAt m | y => y }) ∧
    t.inbox = u.inbox.filter (fun x => !u.inbox.any fun y => y.quantum == x.quantum && y.last) ∧ t.reqs = u.reqs ∧
    (∀ k, t.parked.filter (fun p => p.key == k) = (releaseStream 4096 (u.parked.filter fun p => p.key == k)).1) ∧
    (∀ k m, m ∈ (releaseStream 4096 (u.parked.filter fun p => p.key == k)).2 → m ∈ t.outbox) ∧
    let due := fun i => (⟨.event i, 0, []⟩ : Turn) ∈ l
    (u.clock.newPer.isSome = true ↔ due .tickPeriodChange) ∧ (u.thatch.pending ≠ [] ↔ due .thatchTakeEffect) ∧
    (∀ y n, y ∈ u.launches → y.st = .loading → y.armed = some n → n ≤ t.clock.tick → due (.armedClear y.lid)) ∧
    (∀ (i : Nat) (e : Edge), u.edges[i]? = some e → e.waitsTick = true → due (.detQuantumRelease i)) ∧
    (∀ y, y ∈ u.launches → y.st = .running → (u.part y.part).wdt ≠ 0 → (u.part y.part).wdt ≤ (if y.moved = true then 0 else y.idle) + 1 → due (.watchdog y.lid)) ∧
    (∀ x ∈ u.inbox, (∃ y ∈ u.inbox, y.quantum = x.quantum ∧ y.last = true) → due (.uePacketReceive ⟨x.pkt, none⟩)) ∧
    (∀ p q x, (p, q) ∈ u.parts → q.preempt = some x → 1024 ≤ (2 ^ 64 + t.clock.tick - x.since) % 2 ^ 64 → due (.preemptionAbandon x.lid)) ∧
    ∀ p q x, (p, q) ∈ u.parts → x ∈ q.trigs → (match x with | .atCycle c _ => c ≤ t.clock.cycle | .atBoundary _ => True | .atTick n => n ≤ t.clock.tick) →
      due (.snapshotLatch p false)) ∧
  (∀ n (l : List Parked), ∃ k, k ≤ l.length ∧ (releaseStream n l).2 = (l.take k).map (·.msg) ∧ ((l.take k).map (·.left)).sum ≤ n ∧
    (k = l.length → (releaseStream n l).1 = []) ∧
    ∀ p r, l.drop k = p :: r → n < ((l.take k).map (·.left)).sum + p.left ∧
      (releaseStream n l).1 = { p with left := ((l.take k).map (·.left)).sum + p.left - n } :: r) ∧
  ((∀ s : State,
    (∀ n, s.clock.newPer = some n → s.clock.perDue = true → exec .tickPeriodChange s = .next { s with clock := { s.clock with
        period := n, newPer := none, perDue := false, nextAt := s.clock.cycle + n, n0 := s.clock.tick,
        t0 := ((s.clock.cycle : Int) + s.clock.ptpOff).toNat } }) ∧
    (s.clock.newPer = none ∨ s.clock.perDue = false → exec .tickPeriodChange s = .next s)) ∧
  (∀ (s : State) port time, (port ≠ s.clock.gmPort → exec (.ptpMessage port time) s = .next s) ∧
    (port = s.clock.gmPort → let n : Nat := if s.clock.renum = true then s.clock.tick else (s.clock.tick + 1) % 2 ^ 64
      ∃ t : State, exec (.ptpMessage port time) s = .next t ∧ t = { s with clock := t.clock } ∧ t.clock.ptp = time ∧
      t.clock = { s.clock with locked := t.clock.locked, ptpOff := t.clock.ptpOff, nextAt := t.clock.nextAt } ∧
      (t.clock.locked = true ↔ time ≤ s.clock.ptp + 20 ∧ s.clock.ptp ≤ time + 20) ∧
      (s.clock.epoch = none ∨ t.clock.locked = false → t.clock.nextAt = s.clock.nextAt) ∧
      (s.clock.epoch.isSome = true → t.clock.locked = true → s.clock.n0 ≤ n → time < s.clock.t0 + (n - s.clock.n0) * s.clock.period →
        t.clock.nextAt + time = s.clock.cycle + s.clock.t0 + (n - s.clock.n0) * s.clock.period))) ∧
  (∀ (s : State) i e, s.edges[i]? = some e →
    (e.quantum = false → exec (.detQuantumRelease i) s = .next s) ∧
    (e.quantum = true → s.running e.lid = true → ∃ (t : State) (d : Edge), exec (.detQuantumRelease i) s = .next t ∧ t = { s with edges := t.edges } ∧
      (∀ j, j ≠ i → t.edges[j]? = s.edges[j]?) ∧ t.edges[i]? = some d ∧ d = { e with link := d.link, quantum := false } ∧
      d.link.map (·.tok) = e.link.map (·.tok) ∧ ∀ k f g, e.link[k]? = some f → d.link[k]? = some g →
        let older := ((e.link.take k).filter fun y => y.hops == f.hops).length
        g.hops = (if f.hops = 0 ∨ f.hops ≠ 1 ∧ Nat.min e.depth 32 ≤ older then f.hops else f.hops - 1))) ∧
  ∀ (s : State) lid l, s.launch? lid = some l →
    let wdt := (s.part l.part).wdt
    (l.st ≠ .running ∨ l.moved = true ∨ wdt = 0 ∨ l.idle < wdt → exec (.watchdog lid) s = .next s) ∧
    (l.st = .running → l.moved = false → wdt ≠ 0 → wdt ≤ l.idle →
      exec (.watchdog lid) s = .next (s.fatalAt lid 0 0 .watchdog 0 (BitVec.ofNat 64 l.idle) 0)))

/-- R152, R328, R330, R336, R337, R341: a fatal fault of a running launch forms a record with the next SEQ of its partition, reads FATAL 1, and stops the
launch FAULTED with the code of the record of that cycle with the lowest SEQ. A fault-path slot that acts on the code remaps it, marks it handled, or
suppresses the record and counts for the cluster and partition; a notice remapped with ESC stops its launch. An unhandled precise
fault is FATAL too where it is remapped (log entry 12). R330, R332, R336: TRAP_RECORD_WRITE puts the
earliest record of an earlier cycle of a partition into the next place of its trap queue, byte for byte; a full queue drops and counts a notice, and
every other record waits; a record of the present cycle waits for the cycle's end, and
one with INVV for the stores of its ended invocations. The bytes hold each field at its place. -/
def Obligations.TrapRecords : Prop :=
  ((∀ (s : State) t l, s.launch? t.lid = some l → l.st = .running → (∀ im, l.img = some im → im.invm = false) → s.fltSlot t.code.num t.part = none →
    let n := nextSerial 32 (s.part t.part).trapSeq
    let formed := s.modPart t.part fun p => { p with trapSeq := n, pending := p.pending ++ [{ t with seq := n, fatal := true }] }
    let others := ((s.part t.part).ring ++ (s.part t.part).pending).filter fun u => u.lid == t.lid && u.cyc == t.cyc && u.fatal
    (others = [] → s.fatalTrap t = formed.stopLaunch t.lid .faulted t.code.num) ∧
    (∀ u, others = [u] → 0 < (n + 2 ^ 32 - u.seq) % 2 ^ 32 → (n + 2 ^ 32 - u.seq) % 2 ^ 32 < 2 ^ 31 →
      s.fatalTrap t = formed.stopLaunch t.lid .faulted u.code.num)) ∧
  (∀ (s : State) t w r, s.formTrap t = (w, r) → (r.esc = false ∨ w.running r.lid = false → s.notice t = w) ∧
    (r.esc = true → w.running r.lid = true → ∃ c, s.notice t = w.stopLaunch r.lid .faulted c)) ∧
  ∀ (s : State) t i v, s.fltSlot t.code.num t.part = some (i, v) →
    let n := nextSerial 32 (s.part t.part).trapSeq
    let queued := fun (u : Trap) => s.modPart t.part fun p => { p with trapSeq := n, pending := p.pending ++ [u] }
    bf v 255 248 = t.code.num ∧ v.getLsbD (216 + t.part) = true ∧
    (bf v 215 213 = 1 → ∃ u, s.formTrap t = (queued u, u) ∧
      u = { t with
        seq := n, code := TrapCode.ofNum (bf v 208 201), remap := some i, tslot := i, esc := v.getLsbD 209,
        fatal := t.fatal || v.getLsbD 209 || (t.precise && !t.handled) }) ∧
    (bf v 215 213 = 2 → (t.precise = false ∨ (s.part t.part).logged = []) → ∃ u, s.formTrap t = (queued u, u) ∧
      u = { t with seq := n, handled := true, tslot := i }) ∧
    (bf v 215 213 = 3 → ∃ w : State, s.formTrap t = (w, t) ∧ w = { s with thatch := w.thatch } ∧
      let k := (t.part * 1024 + t.rank / 16) * 16 + i
      w.thatch = { s.thatch with counts := w.thatch.counts } ∧ (∀ j, j ≠ k → alGet w.thatch.counts j = alGet s.thatch.counts j) ∧
      (alGet w.thatch.counts k).getD 0 = Nat.min (2 ^ 32 - 1) ((alGet s.thatch.counts k).getD 0 + 1))) ∧
  ((∀ (s : State) part, memOk s → let p := s.part part
    (∀ t, p.ring.length < 256 → t ∈ p.pending → t.cyc < s.clock.cycle → (∀ u, u ∈ p.pending → u.cyc < s.clock.cycle → t.before u = true) →
      (p.pending.map (·.seq)).Nodup → p.nextTrap s.clock.cycle = some t) ∧
    (∀ t, p.ring.length < 256 → p.nextTrap s.clock.cycle = some t →
      let key := dieKey (s.lowDie part) ((s.partCfg part).trapOff + 64 * (p.ringNext % 256))
      t ∈ p.pending ∧ t.cyc < s.clock.cycle ∧ (∀ u, u ∈ p.pending → t.cyc ≤ u.cyc) ∧
      (t.invv = true → (∃ q, q ∈ s.reqs ∧ q.lid = t.lid ∧ q.released = true ∧ q.acked = false) → exec (.trapRecordWrite part) s = .next s) ∧
      ((t.invv = true → ∀ q, q ∈ s.reqs → q.lid = t.lid → q.released = true → q.acked = true) → ∃ v : State, exec (.trapRecordWrite part) s = .next v ∧
        v = { s with mem := v.mem, parts := v.parts } ∧ v.readBytes key 64 = t.bytes ∧ (∀ a, a < key ∨ key + 64 ≤ a → Memory.read v.mem a = Memory.read s.mem a) ∧
        v.part part = { p with pending := p.pending.erase t, ring := p.ring ++ [t], ringNext := p.ringNext + 1 } ∧ ∀ k, k ≠ part → v.part k = s.part k)) ∧
    (∀ t, 256 ≤ p.ring.length → (p.pending.filter fun u => decide (u.cyc < s.clock.cycle)).find? Trap.notice = some t →
      exec (.trapRecordWrite part) s = .next (s.modPart part fun p => { p with pending := p.pending.erase t, trapDrop := p.trapDrop + 1 })) ∧
    (256 ≤ p.ring.length → (∀ t, t ∈ p.pending → t.cyc < s.clock.cycle → t.notice = false) → exec (.trapRecordWrite part) s = .next s) ∧
    ((∀ t, t ∈ p.pending → s.clock.cycle ≤ t.cyc) → exec (.trapRecordWrite part) s = .next s)) ∧
  ∀ t : Trap, let n := natOfBytes t.bytes
    bits n 511 480 = t.seq % 2 ^ 32 ∧ bits n 479 472 = t.code.num ∧ bits n 471 464 = t.ocode.num ∧ bits n 463 463 = t.precise.toNat ∧
    bits n 462 462 = t.fatal.toNat ∧ bits n 461 461 = t.handled.toNat ∧ bits n 460 460 = t.remap.isSome.toNat ∧ bits n 459 459 = t.invv.toNat ∧
    bits n 458 457 = t.skid % 4 ∧ bits n 456 452 = t.part % 32 ∧ bits n 451 448 = 0 ∧ bits n 447 416 = t.lid % 2 ^ 32 ∧ bits n 415 400 = t.g % 2 ^ 16 ∧
    bits n 399 386 = t.rank % 2 ^ 14 ∧ bits n 385 383 = t.actor % 8 ∧ bits n 382 380 = t.phase % 8 ∧ bits n 379 374 = t.slot % 64 ∧
    bits n 373 372 = t.emui % 4 ∧ bits n 371 367 = t.tslot % 32 ∧ bits n 363 348 = t.bid % 2 ^ 16 ∧ bits n 347 332 = t.detail % 2 ^ 16 ∧
    (∀ k, k < 5 → bits n (267 + 16 * k) (252 + 16 * k) = t.ivec.getD k 0 % 2 ^ 16) ∧ bits n 251 236 = t.natom % 2 ^ 16 ∧ bits n 235 228 = t.neng % 2 ^ 8 ∧
    bits n 227 220 = t.nlst % 2 ^ 8 ∧ bits n 219 212 = t.nmem % 2 ^ 8 ∧ bits n 211 208 = t.nlau % 16 ∧ bits n 207 192 = t.cbase % 2 ^ 16 ∧
    bits n 191 128 = t.addr.toNat ∧ bits n 127 64 = t.aux.toNat ∧ bits n 63 0 = t.cyc % 2 ^ 64)

/-- R111, R152, R332 to R334, R337: RIDGE_TRAP_NOTIFY takes the oldest record, copies it into the partition's log, and launches the registered handler for a
handled one, or stops the launch of an unhandled precise fault. Where a record lies in the log is the model's choice (log entry 31), as is that the handler
runs with zeros for parameters after a record of the fault where its PARAMP cannot be read (log entry 86). HANDLER_ACTION acts once the handler has ended: ACTION 1 resumes the suspended actor,
ACTION 2 retires it, and any other stops the launch. -/
def Obligations.TrapHandling : Prop :=
  (∀ (s : State) part, ((s.part part).ring = [] → exec (.ridgeTrapNotify part) s = .next s) ∧
    ∀ t r, (s.part part).ring = t :: r →
      let s0 := s.modPart part fun p => { p with ring := r }
      ((s.part part).logBase = none → t.handled = false → t.ocode ≠ .deadlock →
        exec (.ridgeTrapNotify part) s = .next (if t.precise = true then s0.stopLaunch t.lid .faulted (s0.reasonOf t) else s0)) ∧
      (∀ base u pa e, (s.part part).logBase = some base → t.ocode ≠ .deadlock →
        s0.globalXlate part ((base + 64 * (s.part part).logCount) % 2 ^ 46) = (u, some (pa, e)) → pteW e = true →
        let at_ := (base + 64 * (s.part part).logCount) % 2 ^ 46
        let s1 := (u.writeBytes pa t.bytes).modPart part fun p => { p with logCount := p.logCount + 1 }
        (t.handled = false →
          exec (.ridgeTrapNotify part) s = .next (if t.precise = true then s1.stopLaunch t.lid .faulted (s1.reasonOf t) else s1)) ∧
        (∀ h s2 ps, part < 32 → t.handled = true → (s1.part part).handler = some h →
          (s1.readParams part 0 none (BitVec.ofNat 64 (bf h 383 320)) = (s2, .ok ps) ∨
            ∃ u x, s1.readParams part 0 none (BitVec.ofNat 64 (bf h 383 320)) = (u, .error x) ∧ ps = List.replicate 16 0 ∧
              s2 = u.fatalTrap { u.mkTrap part 0 0 0 x.1 0 x.2.1 x.2.2 with ridge := true }) →
          ∃ (v : State) (l : Launch), exec (.ridgeTrapNotify part) s = .next v ∧ v.launches.map (·.lid) =
              (s2.launches.filter fun x => x.lid != l.lid || !x.st.final).map (·.lid) ++ [l.lid] ∧ l ∈ v.launches ∧ l.part = part ∧
            l.recd = h ∧ l.params = ps.set 0 (mkPtr 0 0 at_) ∧ l.handles = some t.seq ∧ l.img = none ∧
            (v.part part).logged = (s2.part part).logged ++ [⟨t, at_, l.lid, none⟩]))) ∧
  ∀ (s : State) part x, (s.part part).logged.find? (fun y => y.trap.seq == x.trap.seq) = some x →
    (s.handlerOver x.handler = false → exec (.handlerAction part x.trap.seq) s = .next s) ∧
    (s.handlerOver x.handler = true → x.action = none → x.trap.precise = true → x.trap.fatal = false → x.trap.ocode ≠ .deadlock → s.shelved x.trap.lid = false →
      let t := x.trap
      let s1 := s.modPart part fun p => { p with logged := p.logged.filter fun y => y.trap.seq != t.seq }
      (s.readAction x ≠ 1 → s.readAction x ≠ 2 → exec (.handlerAction part t.seq) s = .next (s1.stopLaunch t.lid .faulted t.code.num)) ∧
      ∀ a, s.running t.lid = true → s.actor? t.rank t.actor = some a → a.lid = t.lid → a.susp = some t.seq →
        let u := s1.modActor t.rank t.actor fun a => { a with susp := none }
        (s.readAction x = 1 → exec (.handlerAction part t.seq) s = .next (u.inputCheck t.rank t.actor)) ∧
        (s.readAction x = 2 → exec (.handlerAction part t.seq) s = .next (u.retireActor t.rank t.actor))) ∧
    (∀ l pa n e, s.launch? x.handler = some l → s.walk x.trap.part ((x.gaddr + 56) % 2 ^ 46) = .hit pa n e →
      s.readAction x = (if l.st = .done then s.readNat pa 1 % 16 else 0))

/-- R116, R127, R129, R136, R342 to R347: PREEMPTION_OPEN opens a new epoch for a running launch, with every launch of its splice wavefront, only when
a queued head of higher PRIO than each of them waits; CUT_COMPLETE sets them aside, the launch at the head of the queue it stood in, with the regions
and the image copies freed, only when the cut is complete, and keeps the record of each element byte for byte; an epoch that stays open for 1,024 ticks
is abandoned, its markers cleared; and PREEMPTION_RESUME puts back what was saved once the regions, the bind record slots and the places of the copies
are free, and the launches run. Where the saved records lie, and the lowest place for a copy, are the model's choices (log entry 45). -/
def Obligations.Preemptions : Prop :=
  (∀ (s : State) lid l, s.launch? lid = some l → l.part = lidPart lid →
    let p := s.part l.part
    let lids := s.wave lid
    ((l.st ≠ .running ∨ p.preempt.isSome = true ∨
        ∀ h, s.bestHead l.part = some h → ∃ y, y ∈ s.launches ∧ y.lid ∈ lids ∧ h.prio ≤ y.prio) → exec (.preemptionOpen lid) s = .next s) ∧
    (∀ h, l.st = .running → p.preempt = none → s.bestHead l.part = some h → (∀ y, y ∈ s.launches → y.lid ∈ lids → y.prio < h.prio) →
      let n := (p.epoch + 1) % 2 ^ 32
      ∃ u : State, exec (.preemptionOpen lid) s = .next ((u.actorsOf lids).foldl (fun v a => v.emitMarkers a.1 a.2.1) u) ∧
        u = { s with parts := u.parts, edges := u.edges, elems := u.elems } ∧
        u.part l.part = { p with epoch := n, preempt := some { lid, epoch := n, since := s.clock.tick } } ∧
        (∀ e, e ∈ u.edges → e.lid ∈ lids → e.marker = none) ∧ ∀ r a, a ∈ (u.elem r).actors → a.lid ∈ lids → a.marked = false) ∧
    (∀ x, p.preempt = some x → x.lid = lid → l.st = .running →
      (s.cutDone lids x.epoch = false ∨ 1024 ≤ (2 ^ 64 + s.clock.tick - x.since) % 2 ^ 64 → exec (.cutComplete lid) s = .next s) ∧
      (s.cutDone lids x.epoch = true → (2 ^ 64 + s.clock.tick - x.since) % 2 ^ 64 < 1024 → ∃ (t : State) (y : Saved), exec (.cutComplete lid) s = .next t ∧
        t.launch? lid = some { l with st := .queued, saved := some y, headAt := s.clock.cycle, cbase := [] } ∧ (t.part l.part).preempt = none ∧
        (∀ k, k ∈ t.launches → k.lid ∈ lids → k.st = .queued ∧ k.cbase = [] ∧ (k.lid ≠ lid → ∃ z, k.saved = some z ∧ z.mate = some lid)) ∧
        (t.part l.part).queueOf l.queueAt = lid :: p.queueOf l.queueAt ∧ (∀ b, b ∈ t.binds → b.lid ∉ lids) ∧ (∀ b, b ∈ y.binds ↔ b ∈ s.binds ∧ b.lid ∈ lids) ∧
        (∀ e, e ∈ t.edges ↔ e ∈ s.edges ∧ e.lid ∉ lids) ∧
        (∀ e, e ∈ y.edges ↔ e ∈ s.edges ∧ e.lid ∈ lids) ∧ (∀ c, c ∈ y.chains ↔ c ∈ s.chains ∧ c.lid ∈ lids) ∧
        (∀ g c r, g < l.ngroup → c ∈ l.clusters g → r / 16 = c → (t.elem r).actors = []) ∧
        ∀ e, e ∈ s.elems → (∃ a, a ∈ e.2.actors ∧ a.lid ∈ lids) → (∃ z, (e.1, z) ∈ y.elems ∧ z = { e.2 with dec := [] }) ∧
          (e.1, s.elementRecord e.1 x.epoch) ∈ y.records)) ∧
    (∀ x, p.preempt = some x → x.lid = lid →
      ((2 ^ 64 + s.clock.tick - x.since) % 2 ^ 64 < 1024 → exec (.preemptionAbandon lid) s = .next s) ∧
      (1024 ≤ (2 ^ 64 + s.clock.tick - x.since) % 2 ^ 64 → ∃ t : State, exec (.preemptionAbandon lid) s = .next t ∧
        t = { s with parts := t.parts, edges := t.edges, elems := t.elems } ∧ t.part l.part = { p with preempt := none } ∧
        (∀ e, e ∈ t.edges → e.lid ∈ lids → e.marker = none) ∧ ∀ r a, a ∈ (t.elem r).actors → a.lid ∈ lids → a.marked = false)) ∧
    (∀ y im, l.saved = some y → l.img = some im → s.bestHead l.part = some l →
      (s.regionsOk l = false ∨ s.slotsOk l = false ∨ s.refit (s.train lid) = none → exec (.preemptionResume lid) s = .next s) ∧
      (∀ u, s.regionsOk l = true → s.slotsOk l = true → s.refit (s.train lid) = some u → (y.elems.map (·.1)).Nodup → ∃ t : State,
        exec (.preemptionResume lid) s = .next t ∧
        (∃ z, t.launch? lid = some z ∧ z.st = .running ∧ z.saved = none ∧ z.img = some im ∧ z.recd = l.recd) ∧ (∀ q, lid ∉ (t.part l.part).queueOf q) ∧
        (∀ k, k ∈ t.launches → k.lid ∈ s.train lid → k.st = .running ∧ k.saved = none) ∧
        t.edges.length = s.edges.length + y.edges.length ∧ (∀ e, e ∈ y.edges → e.lid ∈ s.train lid → { e with marker := none } ∈ t.edges) ∧
        (∀ c, c ∈ y.chains → c ∈ t.chains) ∧ (∀ c, c ∈ y.regions → c ∈ t.regions) ∧
        (∀ r z, (r, z) ∈ y.elems → (t.elem r).firing = z.firing ∧ (t.elem r).xopFf = z.xopFf ∧
          (t.elem r).actors.map (·.keep) = z.actors.map (·.keep) ∧ (t.elem r).actors.map (·.phase) = z.actors.map (·.phase)) ∧
        ∀ b, b ∈ y.binds → ∃ d : BindRec, d ∈ t.binds ∧ d = { b with slot := d.slot, iprio := d.iprio, armed := false, succ := d.succ }))) ∧
  (∀ (s : State) rank epoch, let n := natOfBytes ((s.elementRecord rank epoch).take 64)
    bits n 511 498 = rank % 2 ^ 14 ∧ bits n 495 464 = epoch % 2 ^ 32 ∧ bits n 463 460 = (s.elem rank).actors.length % 16 ∧
    bits n 459 459 = (s.elem rank).xopOff.isSome.toNat ∧ bits n 423 0 = 0)

/-- R363 to R369: a module that is not up hears no command, and one on a channel without a record is not heard; a packet of another revision is discarded
with a LayoutMismatch notice; and a command whose signature does not verify over its header and body under the channel's key, with a sequence number that is not above the last, a bad header, or
on the wrong channel is answered with status 1, 2, 3 or 5 and changes nothing. A reply holds CMD, the status, SEQ and the result. R110, R113, R121, R132,
R152, R154, R219, R340, R348, R352, R353, R362, R364, R365, R367, R370: what each accepted host command does. Its sequence number is kept in flash
before the reply. In recovery the module channel may QUERY, and may LOAD the bank of flash that BOOTSRC selects; every other command there is status 4, as is one that needs an HBM5
stack that is not ready.
How the bodies and a long result lie is the model's choice (log entry 37), as is how RSASSA-PSS is computed (log entry 8) and what recovery
loads (log entry 33); which level of a table a MAP may write without an upper entry, and where the tables lie, are those of log entries 10 and 64; HANDLER keeps the count of the trap log where the base stays (log entry 31). -/
def Obligations.HostCommands : Prop :=
  (∀ i c code, commandOf i = some (c, code) → ∀ s : State,
    let said := fun n => exec i s = .next (s.reply c n [])
    (s.boot.stage ≠ 3 → s.boot.recovery = false → exec i s = .next s) ∧ (s.hasChan c.chan = false → exec i s = .next s) ∧
    (s.boot.stage = 3 → s.boot.recovery = false → s.hasChan c.chan = true → cmdRev c ≠ 1 →
      exec i s = .next (s.layoutMismatch (c.chan % 32) 0 (BitVec.ofNat 16 (cmdRev c)) 1)) ∧
    (hears s c → pssVerify (s.chanKey c.chan).modulus (s.chanKey c.chan).exponent (vecBytes c.hdr ++ c.body) c.sig = false → said 1) ∧
    (hears s c → s.signed c = true → cmdSeq c ≤ s.lastSeq c.chan → said 2) ∧
    (hears s c → s.signed c = true → s.lastSeq c.chan < cmdSeq c → cmdBad c code = true → said 3) ∧
    (good s c code → moduleOnly i = true → c.chan ≠ 32 → said 5) ∧ (good s c code → code ∈ [1, 2, 3, 7, 9, 10, 11] → c.chan = 32 → said 3) ∧
    (cmdMagic c ≠ 0x4B56434D ∨ cmdCode c ≠ code ∨ bf c.hdr 450 448 ≠ 0 ∨ bf c.hdr 351 0 ≠ 0 ∨ cmdBlen c % 64 ≠ 0 ∨ 65536 < cmdBlen c ∨
      cmdBlen c ≠ c.body.length ∨ cmdPart c ≠ (if c.chan = 32 then 0 else c.chan) → cmdBad c code = true)) ∧
  (∀ (s : State) c n (l : List Word), n < 256 → l.length ≤ 6 → ∃ p : Vec, s.reply c n l = { s with outbox := s.outbox ++ [.reply c.chan p []] } ∧
    bf p 511 504 = cmdCode c ∧ bf p 503 496 = n ∧ bf p 495 432 = cmdSeq c ∧ (∀ k, k < 6 → bf p (431 - 64 * k) (368 - 64 * k) = (l.getD k 0).toNat) ∧
    bf p 47 0 = 0) ∧
  (∀ (s : State) c, s.boot.recovery = true → c.chan = 32 → cmdRev c = 1 → s.signed c = true → s.lastSeq 32 < cmdSeq c →
    let a := s.acceptSeq c
    (cmdBad c 4 = false → (∃ w, exec (.query c .ready) s = .next (a.reply c 0 [s.boot.dieReady, w])) ∧
      exec (.query c .lastSeq) s = .next (a.reply c 0 [BitVec.ofNat 64 (s.lastSeq 32)]) ∧
      ∀ id, exec (.query c (.status id)) s = .next (a.reply c 0 [s.statusOf (lidPart id) id])) ∧
    (∀ ptr l, cmdBad c 1 = false → l.length ≤ cmdBlen c → ∃ b : FlashBank, exec (.load c ptr l) s = .next (State.reply { a with
      flash := if s.boot.bootsrc = true then { a.flash with bankB := b } else { a.flash with bankA := b } } c 0 [])) ∧
    (cmdBad c 5 = false → c.body.length = 64 → exec (.attest c.head c.body) s = .next (s.reply c 4 [])) ∧
    (cmdBad c 6 = false → exec (.thatchCommand c.head c.body) s = .next (s.reply c 4 []))) ∧
  (∀ (s : State) c,
    let a := s.acceptSeq c
    let done := fun (r : Host.Outcome State Fault Refusal) (u : State) (l : List Word) => r = .next (u.reply c 0 l)
    let part := fun (f : Part → Part) => a.modPart c.chan f
    (a = { s with flash := { s.flash with lastSeq := alSet s.flash.lastSeq c.chan (cmdSeq c) } }) ∧
    (∀ ptr l, good s c 1 → c.chan ≠ 32 → ptrSpace ptr = 0 → ptrOwner ptr = 0 → s.inWindows c.chan (ptrOff ptr) l.length = true → l.length ≤ cmdBlen c →
      s.mayWrite c.chan (ptrOff ptr) l.length = true → s.stacksReady c.chan (ptrOff ptr) l.length = true →
      done (exec (.load c ptr l) s) (a.writeGlobal c.chan (l.length / 64 + 2) (ptrOff ptr) l).1 []) ∧
    (∀ ptr l, good s c 1 → c.chan ≠ 32 → ptrSpace ptr = 0 → ptrOwner ptr = 0 → s.inWindows c.chan (ptrOff ptr) l.length = true → l.length ≤ cmdBlen c →
      s.mayWrite c.chan (ptrOff ptr) l.length = true → s.stacksReady c.chan (ptrOff ptr) l.length = false → exec (.load c ptr l) s = .next (s.reply c 4 [])) ∧
    (∀ ptr l, good s c 1 → c.chan ≠ 32 → s.inWindows c.chan (ptrOff ptr) l.length = false → exec (.load c ptr l) s = .next (s.reply c 3 [])) ∧
    (good s c 2 → c.chan < 32 → c.body.length = 64 → let r := vecOfBytes c.body
      let pp : Word := BitVec.ofNat 64 (bf r 383 320)
      (s.paramsReady c.chan pp = false → exec (.start c.head c.body) s = .next (s.reply c 4 [])) ∧
      (∀ x, s.paramsReady c.chan pp = true → ptrSpace pp ≠ 2 → (s.readParams c.chan 0 none pp).2 = .error x → exec (.start c.head c.body) s = .next (s.reply c 3 [])) ∧
      (pp = 0 ∨ ptrSpace pp ≠ 0 ∨ s.stacksReady c.chan (ptrOff pp) 128 = true → s.paramsReady c.chan pp = true) ∧
      let started := fun (u : State) ps => ∃ (t : State) (l : Launch), done (exec (.start c.head c.body) s) t [l.status] ∧ l.recd = r ∧ l.params = ps ∧ l.part = c.chan ∧
        t.launches.map (·.lid) = (u.launches.filter fun x => x.lid != l.lid || !x.st.final).map (·.lid) ++ [l.lid] ∧
        (∃ y, y ∈ t.launches ∧ y = { l with queueAt := y.queueAt }) ∧
        l.lid = 2 ^ 27 * c.chan + nextSerial 27 (u.part c.chan).lidSerial ∧
        l.st = (if badRecord r .start = true ∨ 64 ≤ ((u.part c.chan).queueOf (bf r 49 44)).length then .rejected else if bf r 42 41 = 1 then .waiting else .queued)
      (∀ x ps (u : State), s.paramsReady c.chan pp = true → ptrSpace pp ≠ 2 → (s.readParams c.chan 0 none pp).2 = .ok x → a.readParams c.chan 0 none pp = (u, .ok ps) → started u ps) ∧
      (ptrSpace pp = 2 → badRecord r .start = true ∧ started a (List.replicate 16 0))) ∧
    (∀ id, good s c 3 → c.chan ≠ 32 → let w := s.statusOf c.chan id
      (id ≠ 0 → 3 < bf w 63 60 → done (exec (.stop c id) s) a [w]) ∧
      (id ≠ 0 → bf w 63 60 ≤ 3 → done (exec (.stop c id) s) (a.stopLaunch id .cancelled 0) [w]) ∧
      ((s.launches.map (·.lid)).Nodup → ∃ t : State, done (exec (.stop c 0) s) t [] ∧ ∀ l, l ∈ t.launches → l.part = c.chan → l.st.final = true)) ∧
    (good s c 4 →
      (∀ id, done (exec (.query c (.status id)) s) a [s.statusOf (if c.chan = 32 then lidPart id else c.chan) id]) ∧
      done (exec (.query c .lastSeq) s) a [BitVec.ofNat 64 (s.lastSeq c.chan)] ∧
      (∃ w, done (exec (.query c .ready) s) a [s.boot.dieReady, w] ∧ w.setWidth 24 = s.boot.hbm ∧ w.extractLsb' 24 8 = s.boot.port ∧
        w.getLsbD 32 = s.clock.locked ∧ w.getLsbD 33 = s.boot.crec ∧ w.getLsbD 34 = s.boot.akey ∧ w >>> 35 = 0) ∧
      (∀ p, c.chan = 32 ∨ c.chan = p →
        done (exec (.query c (.counters p)) s) a (s.snapshotNow p 0 s.clock.cycle).words ∧
        ((s.part p).latched = [] → done (exec (.query c (.snapshot p)) s) a []) ∧
        ∀ x r, (s.part p).latched = x :: r → done (exec (.query c (.snapshot p)) s) (a.modPart p fun p => { p with latched := r }) x.words) ∧
      ∀ p, c.chan ≠ 32 → c.chan ≠ p → exec (.query c (.counters p)) s = .next (s.reply c 3 []) ∧ exec (.query c (.snapshot p)) s = .next (s.reply c 3 [])) ∧
    (good s c 5 → c.chan = 32 → c.body.length = 64 → s.boot.akey = false → exec (.attest c.head c.body) s = .next (s.reply c 4 [])) ∧
    (good s c 5 → c.chan = 32 → c.body.length = 64 → s.boot.akey = true → let n := vecOfBytes c.body
      ∃ sig, done (exec (.attest c.head c.body) s) { a with outbox := a.outbox ++ [.quote s.boot.meas s.boot.measN n Config.moduleSerial sig] } [] ∧
        sig = Config.attestSign (vecBytes s.boot.meas ++ bytesOfNat 4 s.boot.measN ++ vecBytes n ++ bytesOfNat 8 Config.moduleSerial.toNat)) ∧
    (good s c 6 → c.chan = 32 → exec (.thatchCommand c.head c.body) s = .next { a with
      thatch := { s.thatch with subs := s.thatch.subs ++ [⟨c.body, 0, 0, 0, [], some c⟩] } }) ∧
    (∀ off level e, good s c 7 → c.chan ≠ 32 → 1 ≤ level → level ≤ 3 → off % 2 ^ (6 + 10 * level) = 0 → off < 2 ^ 46 →
      (pteV e = true → pteLeaf e = true ∧ pteMalformed level (6 + 10 * level) e = false) → (s.ptSet c.chan off level e).isSome = true →
      (s.boot.hbm ≠ BitVec.allOnes 24 → exec (.mapPage c off level e) s = .next (s.reply c 4 [])) ∧
      (s.boot.hbm = BitVec.allOnes 24 → ∃ m : State, m = part (fun p => { p with mapped := (m.part c.chan).mapped }) ∧ (off, level, pteV e) ∈ (m.part c.chan).mapped ∧
        done (exec (.mapPage c off level e) s) ((m.ptSet c.chan off level e).getD m) [])) ∧
    (∀ off e (t : State), memOk s → pteV e = true → pteLeaf e = true → pteMalformed 3 36 e = false → off < 2 ^ 46 → s.ptSet c.chan off 3 e = some t →
      t.walk c.chan off = .hit (pteAddr e + off % 2 ^ 36) (2 ^ 36) e) ∧
    (∀ n p, good s c 8 → c.chan = 32 → 500 ≤ n → n ≤ 2000000 → (∀ g, p = some g → g < 8) →
      done (exec (.setTickPeriod c ⟨n, p⟩) s) { a with clock := { s.clock with newPer := some n, gmPort := p.getD s.clock.gmPort } } []) ∧
    (∀ e, good s c 8 → c.chan = 32 → e < 2 ^ 64 → s.clock.locked = true → (∀ l, l ∈ s.launches → l.st ≠ .running) → 0 < s.clock.period →
      ∃ (k : Clock) (m : Nat), done (exec (.setTickEpoch c e) s) { a with clock := k } [] ∧ k.n0 = 0 ∧ k.t0 = e ∧ k.epoch = some e ∧ k.period = s.clock.period ∧
        k.cycle = s.clock.cycle ∧ k.tick = m % 2 ^ 64 ∧ k.renum = true ∧ s.clock.cycle < k.nextAt ∧
        k.nextAt + s.clock.ptp = s.clock.cycle + e + m * s.clock.period ∧ (m ≠ 0 → e + (m - 1) * s.clock.period ≤ s.clock.ptp)) ∧
    (∀ n, good s c 8 → c.chan ≠ 32 → done (exec (.setWdt c n) s) (part fun p => { p with wdt := n }) [] ∧
      done (exec (.setSnapshotTick c n) s) (part fun p => { p with trigs := p.trigs ++ [.atTick n] }) []) ∧
    (∀ b, good s c 9 → c.chan ≠ 32 → (s.part c.chan).bindOk b = true → done (exec (.bind c b) s) (part fun p => p.bindDo b) []) ∧
    (∀ r base, good s c 10 → c.chan ≠ 32 → base % 64 = 0 → base < 2 ^ 46 → done (exec (.handler c r base) s) (part fun p => { p with
      handler := if r = 0 then none else some r, logBase := some base, logCount := if p.logBase = some base then p.logCount else 0 }) []) ∧
    (good s c 11 → c.chan ≠ 32 → done (exec (.reclaim c) s) { a with stash := s.stash.filter fun e => e.part != c.chan } [])) ∧
  (∀ (p : Part) (w : Window) i rev ws,
    (∀ e, e ∈ (p.bindDo (.endpoint i rev ws)).endpoints ↔ e ∈ p.endpoints ∨ e = ⟨i, rev, ws⟩) ∧
    (∀ e, e ∈ (p.bindDo (.dropEndpoint i)).endpoints ↔ e ∈ p.endpoints ∧ e.id ≠ i) ∧
    (p.bindDo (.window .global w)).windows = p.windows ++ [w] ∧ (p.bindDo (.dropWindow .global w)).windows = p.windows.erase w ∧
    (∀ e, e ∈ p.peers → e.id = i → { e with windows := e.windows ++ [w] } ∈ (p.bindDo (.window (.peer i) w)).peers) ∧
    (∀ e, e ∈ p.endpoints → e.id = i → { e with windows := e.windows.erase w } ∈ (p.bindDo (.dropWindow (.endpoint i) w)).endpoints) ∧
    (p.bindOk (.endpoint i rev ws) = true → i < 16 ∧ rev = 1 ∧ ∀ e, e ∈ p.endpoints → e.id ≠ i) ∧
    (p.bindOk (.queue i rev ws) = true → i < 64 ∧ rev = 1 ∧ ∀ e, e ∈ p.peers → e.id ≠ i))

/-- R227, R329, R363, R365, R368 to R371: MODULE_RESET keeps flash, reads the straps, verifies the stages of the bank that BOOTSRC selects in order and
puts its record in force when the operator's key signed it, or leaves the module in recovery; a channel that the record gives a new key starts its
count at 0; loss of power and a thermal shutdown keep nothing but flash; a throttled die changes nothing else; a READY bit is set; scrubbing counts a
corrected error and records an uncorrectable one for no launch. A packet that arrives: a host's read of a GLOBAL window is answered and a write done and
acknowledged, and outside the windows, or where a granule holds an uncorrectable error, it is declined (log entry 37); one of a DET stream waits for
its tick boundary (log entry 82); an acknowledgement ends the last write of a request, a refusal is a fatal Permission; and an unsupported packet is
counted. SHA-512 is taken from the published standard (log entry 8), what signed a bank is a value of flash (log entries 4 and 33), and the quantum of
an arriving packet comes with it (log entry 82). -/
def Obligations.ModuleEvents : Prop :=
  (∀ (s : State) pos boot recov,
    let bank := if boot = true then s.flash.bankB else s.flash.bankA
    let good := bank.stage1Ok = true ∧ bank.ridgeOk = true ∧ s.flash.mapOk = true ∧ bank.recordKey ≠ 0 ∧ bank.recordKey = s.flash.opKey
    ∃ t : State, exec (.moduleReset pos boot recov) s = .next t ∧ t.power = true ∧
      t.flash = { s.flash with lastSeq := t.flash.lastSeq, seqKey := t.flash.seqKey } ∧ t.mem = [] ∧ t.vers = [] ∧ t.elems = [] ∧ t.launches = [] ∧
      t.reqs = [] ∧ t.parts = [] ∧ t.thatch = Thatch.empty ∧ t.clock.cycle = 0 ∧ t.clock.tick = 0 ∧ t.clock.period = 4000 ∧ t.boot.modpos = pos ∧
      t.boot.bootsrc = boot ∧ t.boot.recov = recov ∧ t.boot.dieReady = 0 ∧ t.boot.hbm = 0 ∧ t.boot.port = 0 ∧ t.boot.akey = false ∧ t.boot.modKey = bank.modKey ∧
      (good → recov = false → t.boot.stage = 3 ∧ t.boot.recovery = false ∧ t.boot.crec = true ∧ t.cfg = bank.record ∧
        ∀ k key, ((32, bank.modKey) :: bank.record.map fun p => (p.1, p.2.key)).filter (fun p => p.1 == k) = [(k, key)] →
          t.chanKey k = key ∧ t.lastSeq k = (if alGet s.flash.seqKey k = some key then s.lastSeq k else 0)) ∧
      (¬ good ∨ recov = true → t.boot.recovery = true ∧ t.boot.crec = false ∧ t.cfg = [] ∧ t.flash = s.flash) ∧
      (∀ a b d, bank.digests = [a, b, d] → good → recov = false → t.boot.measN = 3 ∧
        t.boot.meas = sha512 (vecBytes (sha512 (vecBytes (sha512 (vecBytes 0 ++ vecBytes a)) ++ vecBytes b)) ++ vecBytes d))) ∧
  (∀ s : State, ∃ t : State, exec .powerLoss s = .next t ∧ exec .thermalShutdown s = .next t ∧ t.power = false ∧ t.flash = s.flash ∧ t.mem = [] ∧ t.parts = [] ∧
    t.elems = [] ∧ t.launches = [] ∧ t.boot = Boot.fresh) ∧
  (∀ (s : State) d, (∃ t : State, exec (.thermalThrottle d true) s = .next t ∧ t = { s with throttle := t.throttle } ∧ d ∈ t.throttle) ∧
    ∃ t : State, exec (.thermalThrottle d false) s = .next t ∧ t = { s with throttle := t.throttle } ∧ d ∉ t.throttle) ∧
  (∀ (s : State), (s.boot.crec = false → ∀ f, exec (.functionReady f) s = .next s) ∧
    (s.boot.crec = true →
      (∀ d, s.dieEnabled d = true → ∃ x, exec (.functionReady (.die d)) s = .next { s with boot := { s.boot with dieReady := x } } ∧
        ∀ k, k < 64 → x.getLsbD k = (s.boot.dieReady.getLsbD k || k == d)) ∧
      (∀ n, n < 24 → ∃ x, exec (.functionReady (.stack n)) s = .next { s with boot := { s.boot with hbm := x } } ∧
        ∀ k, k < 24 → x.getLsbD k = (s.boot.hbm.getLsbD k || k == n)) ∧
      (∀ n, n < 8 → ∃ x, exec (.functionReady (.port n)) s = .next { s with boot := { s.boot with port := x } } ∧
        ∀ k, k < 8 → x.getLsbD k = (s.boot.port.getLsbD k || k == n)) ∧
      exec (.functionReady .attestKey) s = .next { s with boot := { s.boot with akey := true } })) ∧
  (∀ (s : State) g, g * 64 < hbmSize →
    exec (.memoryScrub g .clean) s = .next s ∧ (∃ t : State, exec (.memoryScrub g .single) s = .next t ∧ t = { s with softErr := t.softErr } ∧
      (alGet t.softErr (2 ^ 20 + g % 24)).getD 0 = (alGet s.softErr (2 ^ 20 + g % 24)).getD 0 + 1) ∧
    (s.fltSlot 0x15 (s.partOfPa (g * 64)) = none → ∃ (t : State) (r : Trap), exec (.memoryScrub g .double) s = .next t ∧
      (t.part r.part).pending = (s.part r.part).pending ++ [r] ∧ r.ocode = .memoryUncorrectable ∧ r.lid = 0 ∧ r.aux = BitVec.ofNat 64 (g * 64) ∧
      t = { s with parts := t.parts })) ∧
  (∀ (s : State) k qu, (s.boot.stage ≠ 3 → exec (.uePacketReceive ⟨k, qu⟩) s = .next s) ∧
    (s.boot.stage = 3 → ∀ q last, exec (.uePacketReceive ⟨k, some (q, last)⟩) s = .next { s with inbox := s.inbox ++ [⟨q, last, k⟩] })) ∧
  (∀ (s : State) part off (l : List Byte) n, s.boot.stage = 3 →
    let write := exec (.uePacketReceive ⟨.rdmaWrite part off l, none⟩) s
    let read := exec (.uePacketReceive ⟨.rdmaRead part off n, none⟩) s
    let out := fun (u : State) m => ({ u with outbox := u.outbox ++ [m] } : State)
    (s.inWindows part off l.length = false → write = .next (out s (.rdmaDecline part off l.length))) ∧
    (s.inWindows part off n = false → read = .next (out s (.rdmaDecline part off n))) ∧
    ∀ u pa e, off < 2 ^ 46 → s.globalXlate part off = (u, some (pa, e)) →
      (s.inWindows part off l.length = true → l ≠ [] → off % 64 + l.length ≤ 64 →
        (pteW e = true → (l.length = 64 ∨ u.uncorrectable pa = false) → write =
          .next (out (u.storeEvent part (pteRet e) (pa / 64) (maskAt (pa % 64) l.length) (placeAt (pa % 64) (natOfBytes l))) (.rdmaAck part off l.length))) ∧
        (pteW e = false → u.uncorrectable pa = false → write = .next (out u (.rdmaDecline part off l.length))) ∧
        (l.length < 64 → u.uncorrectable pa = true → write = .next (out (u.hostUncorrectable part off pa) (.rdmaDecline part off l.length)))) ∧
      (s.inWindows part off n = true → 0 < n → off % 64 + n ≤ 64 →
        (pteR e = true → u.uncorrectable pa = false → read = .next (out u (.rdmaData part off (u.readBytes pa n)))) ∧
        (pteR e = false → read = .next (out u (.rdmaDecline part off n))) ∧
        (pteR e = true → u.uncorrectable pa = true → read = .next (out (u.hostUncorrectable part off pa) (.rdmaDecline part off n))))) ∧
  (∀ (s : State) id q ty x, s.boot.stage = 3 → s.req? id = some q → q.id = id → q.stage = .remote →
    (q.kind = .stg ty x → q.next = 0 → ∃ t r, exec (.uePacketReceive ⟨.writeAck id, none⟩) s = .next t ∧ t.req? id = some r ∧ r.stage = .done ∧
      t = { s with reqs := t.reqs, clusters := t.clusters } ∧ (q.released = false → t.clusters = s.clusters)) ∧
    exec (.uePacketReceive ⟨.declined id, none⟩) s = .next (s.reqFatal q .permission (BitVec.ofNat 64 (ptrOff q.ptr)) 0)) ∧
  (∀ (s : State) part rset dseq index v d, s.boot.stage = 3 → s.digests = [d] → d.part = part → d.rset = rset → d.dseq = dseq → alGet d.remote index = none →
    exec (.uePacketReceive ⟨.digest part rset dseq index v, none⟩) s = .next { s with digests := [{ d with remote := d.remote ++ [(index, v)] }] }) ∧
  ∀ (s : State) n, s.boot.stage = 3 → ∃ t : State, exec (.uePacketReceive ⟨.unsupported n, none⟩) s = .next t ∧ t = { s with refused := t.refused } ∧
    (alGet t.refused (n % 8)).getD 0 = (alGet s.refused (n % 8)).getD 0 + 1
end

