-- ==== Sys2Proof/Laws/Arms.lean ====
section
/-! SUPPORT. What `exec` is on each operation: the call that its arm makes. -/

set_option Elab.async false

namespace Sys2Proof.Machine

@[simp] theorem exec_nop {p} {s0 : State} : exec (.nop p) s0 = execNop p s0 := rfl
@[simp] theorem exec_lit {p t a b v} {s0 : State} : exec (.lit p t a b v) s0 = execLit p t a b v s0 := rfl
@[simp] theorem exec_imm {p t a ix} {s0 : State} : exec (.imm p t a ix) s0 = execImm p t a ix s0 := rfl
@[simp] theorem exec_mov {p v a b} {s0 : State} : exec (.mov p v a b) s0 = execMov p v a b s0 := rfl
@[simp] theorem exec_sel {p v a b} {s0 : State} : exec (.sel p v a b) s0 = execSel p v a b s0 := rfl
@[simp] theorem exec_rdk {p a x n} {s0 : State} : exec (.rdk p a x n) s0 = execRdk p a x n s0 := rfl
@[simp] theorem exec_wrk {p x n} {s0 : State} : exec (.wrk p x n) s0 = execWrk p x n s0 := rfl
@[simp] theorem exec_rdsr {p a r} {s0 : State} : exec (.rdsr p a r) s0 = execRdsr p a r s0 := rfl
@[simp] theorem exec_wrsr {p r} {s0 : State} : exec (.wrsr p r) s0 = execWrsr p r s0 := rfl
@[simp] theorem exec_br {p w} {s0 : State} : exec (.br p w) s0 = execBr p w s0 := rfl
@[simp] theorem exec_bri {p} {s0 : State} : exec (.bri p) s0 = execBri p s0 := rfl
@[simp] theorem exec_exit {p n} {s0 : State} : exec (.exit p n) s0 = execExit p n s0 := rfl
@[simp] theorem exec_exitv {p} {s0 : State} : exec (.exitv p) s0 = execExitv p s0 := rfl
@[simp] theorem exec_retire {p} {s0 : State} : exec (.retire p) s0 = execRetire p s0 := rfl
@[simp] theorem exec_trap {p c} {s0 : State} : exec (.trap p c) s0 = execTrap p c s0 := rfl
@[simp] theorem exec_yield {p} {s0 : State} : exec (.yield p) s0 = execYield p s0 := rfl
@[simp] theorem exec_xop {p n a b} {s0 : State} : exec (.xop p n a b) s0 = execXop p n a b s0 := rfl
@[simp] theorem exec_xopLoad {p} {s0 : State} : exec (.xopLoad p) s0 = execXopLoad p s0 := rfl
@[simp] theorem exec_add {p t a b} {s0 : State} : exec (.add p t a b) s0 = execAdd p t a b s0 := rfl
@[simp] theorem exec_sub {p t a b} {s0 : State} : exec (.sub p t a b) s0 = execSub p t a b s0 := rfl
@[simp] theorem exec_addi {p t a ix} {s0 : State} : exec (.addi p t a ix) s0 = execAddi p t a ix s0 := rfl
@[simp] theorem exec_mul {p t a b} {s0 : State} : exec (.mul p t a b) s0 = execMul p t a b s0 := rfl
@[simp] theorem exec_mulh {p t a b} {s0 : State} : exec (.mulh p t a b) s0 = execMulh p t a b s0 := rfl
@[simp] theorem exec_mad {p t a b} {s0 : State} : exec (.mad p t a b) s0 = execMad p t a b s0 := rfl
@[simp] theorem exec_div {p t a b} {s0 : State} : exec (.div p t a b) s0 = execDiv p t a b s0 := rfl
@[simp] theorem exec_rem {p t a b} {s0 : State} : exec (.rem p t a b) s0 = execRem p t a b s0 := rfl
@[simp] theorem exec_neg {p t a b} {s0 : State} : exec (.neg p t a b) s0 = execNeg p t a b s0 := rfl
@[simp] theorem exec_abs {p t a b} {s0 : State} : exec (.abs p t a b) s0 = execAbs p t a b s0 := rfl
@[simp] theorem exec_min {p t a b} {s0 : State} : exec (.min p t a b) s0 = execMin p t a b s0 := rfl
@[simp] theorem exec_max {p t a b} {s0 : State} : exec (.max p t a b) s0 = execMax p t a b s0 := rfl
@[simp] theorem exec_clamp {p t a b} {s0 : State} : exec (.clamp p t a b) s0 = execClamp p t a b s0 := rfl
@[simp] theorem exec_and {p t a b} {s0 : State} : exec (.and p t a b) s0 = execAnd p t a b s0 := rfl
@[simp] theorem exec_or {p t a b} {s0 : State} : exec (.or p t a b) s0 = execOr p t a b s0 := rfl
@[simp] theorem exec_xor {p t a b} {s0 : State} : exec (.xor p t a b) s0 = execXor p t a b s0 := rfl
@[simp] theorem exec_not {p t a b} {s0 : State} : exec (.not p t a b) s0 = execNot p t a b s0 := rfl
@[simp] theorem exec_andn {p t a b} {s0 : State} : exec (.andn p t a b) s0 = execAndn p t a b s0 := rfl
@[simp] theorem exec_shl {p t a b} {s0 : State} : exec (.shl p t a b) s0 = execShl p t a b s0 := rfl
@[simp] theorem exec_shr {p t a b} {s0 : State} : exec (.shr p t a b) s0 = execShr p t a b s0 := rfl
@[simp] theorem exec_sar {p t a b} {s0 : State} : exec (.sar p t a b) s0 = execSar p t a b s0 := rfl
@[simp] theorem exec_rot {p t a b} {s0 : State} : exec (.rot p t a b) s0 = execRot p t a b s0 := rfl
@[simp] theorem exec_shli {p t a ix} {s0 : State} : exec (.shli p t a ix) s0 = execShli p t a ix s0 := rfl
@[simp] theorem exec_shri {p t a ix} {s0 : State} : exec (.shri p t a ix) s0 = execShri p t a ix s0 := rfl
@[simp] theorem exec_sari {p t a ix} {s0 : State} : exec (.sari p t a ix) s0 = execSari p t a ix s0 := rfl
@[simp] theorem exec_clz {p t a b} {s0 : State} : exec (.clz p t a b) s0 = execClz p t a b s0 := rfl
@[simp] theorem exec_ctz {p t a b} {s0 : State} : exec (.ctz p t a b) s0 = execCtz p t a b s0 := rfl
@[simp] theorem exec_popc {p t a b} {s0 : State} : exec (.popc p t a b) s0 = execPopc p t a b s0 := rfl
@[simp] theorem exec_bfx {p t a b} {s0 : State} : exec (.bfx p t a b) s0 = execBfx p t a b s0 := rfl
@[simp] theorem exec_bfi {p t a b} {s0 : State} : exec (.bfi p t a b) s0 = execBfi p t a b s0 := rfl
@[simp] theorem exec_sext {p t a b} {s0 : State} : exec (.sext p t a b) s0 = execSext p t a b s0 := rfl
@[simp] theorem exec_zext {p t a b} {s0 : State} : exec (.zext p t a b) s0 = execZext p t a b s0 := rfl
@[simp] theorem exec_cmpeq {p t a b} {s0 : State} : exec (.cmpeq p t a b) s0 = execCmpeq p t a b s0 := rfl
@[simp] theorem exec_cmpne {p t a b} {s0 : State} : exec (.cmpne p t a b) s0 = execCmpne p t a b s0 := rfl
@[simp] theorem exec_cmplt {p t a b} {s0 : State} : exec (.cmplt p t a b) s0 = execCmplt p t a b s0 := rfl
@[simp] theorem exec_cmple {p t a b} {s0 : State} : exec (.cmple p t a b) s0 = execCmple p t a b s0 := rfl
@[simp] theorem exec_cmpeqi {p t a ix} {s0 : State} : exec (.cmpeqi p t a ix) s0 = execCmpeqi p t a ix s0 := rfl
@[simp] theorem exec_cmplti {p t a ix} {s0 : State} : exec (.cmplti p t a ix) s0 = execCmplti p t a ix s0 := rfl
@[simp] theorem exec_testb {p a ix} {s0 : State} : exec (.testb p a ix) s0 = execTestb p a ix s0 := rfl
@[simp] theorem exec_pnot {p a b} {s0 : State} : exec (.pnot p a b) s0 = execPnot p a b s0 := rfl
@[simp] theorem exec_pand {p a b} {s0 : State} : exec (.pand p a b) s0 = execPand p a b s0 := rfl
@[simp] theorem exec_por {p a b} {s0 : State} : exec (.por p a b) s0 = execPor p a b s0 := rfl
@[simp] theorem exec_lea {p sx a b} {s0 : State} : exec (.lea p sx a b) s0 = execLea p sx a b s0 := rfl
@[simp] theorem exec_ptag {p a b} {s0 : State} : exec (.ptag p a b) s0 = execPtag p a b s0 := rfl
@[simp] theorem exec_pspc {p a b} {s0 : State} : exec (.pspc p a b) s0 = execPspc p a b s0 := rfl
@[simp] theorem exec_pown {p a b} {s0 : State} : exec (.pown p a b) s0 = execPown p a b s0 := rfl
@[simp] theorem exec_padd {p sx a ix} {s0 : State} : exec (.padd p sx a ix) s0 = execPadd p sx a ix s0 := rfl
@[simp] theorem exec_poff {p a b} {s0 : State} : exec (.poff p a b) s0 = execPoff p a b s0 := rfl
@[simp] theorem exec_fadd {p t a b} {s0 : State} : exec (.fadd p t a b) s0 = execFadd p t a b s0 := rfl
@[simp] theorem exec_fsub {p t a b} {s0 : State} : exec (.fsub p t a b) s0 = execFsub p t a b s0 := rfl
@[simp] theorem exec_fmul {p t a b} {s0 : State} : exec (.fmul p t a b) s0 = execFmul p t a b s0 := rfl
@[simp] theorem exec_ffma {p t a b} {s0 : State} : exec (.ffma p t a b) s0 = execFfma p t a b s0 := rfl
@[simp] theorem exec_fdiv {p t a b} {s0 : State} : exec (.fdiv p t a b) s0 = execFdiv p t a b s0 := rfl
@[simp] theorem exec_fmin {p t a b} {s0 : State} : exec (.fmin p t a b) s0 = execFmin p t a b s0 := rfl
@[simp] theorem exec_fmax {p t a b} {s0 : State} : exec (.fmax p t a b) s0 = execFmax p t a b s0 := rfl
@[simp] theorem exec_fabs {p t a b} {s0 : State} : exec (.fabs p t a b) s0 = execFabs p t a b s0 := rfl
@[simp] theorem exec_fneg {p t a b} {s0 : State} : exec (.fneg p t a b) s0 = execFneg p t a b s0 := rfl
@[simp] theorem exec_fsqrt {p t a b} {s0 : State} : exec (.fsqrt p t a b) s0 = execFsqrt p t a b s0 := rfl
@[simp] theorem exec_frcp {p t a b} {s0 : State} : exec (.frcp p t a b) s0 = execFrcp p t a b s0 := rfl
@[simp] theorem exec_frsq {p t a b} {s0 : State} : exec (.frsq p t a b) s0 = execFrsq p t a b s0 := rfl
@[simp] theorem exec_fex2 {p t a b} {s0 : State} : exec (.fex2 p t a b) s0 = execFex2 p t a b s0 := rfl
@[simp] theorem exec_flg2 {p t a b} {s0 : State} : exec (.flg2 p t a b) s0 = execFlg2 p t a b s0 := rfl
@[simp] theorem exec_fcls {p t a b} {s0 : State} : exec (.fcls p t a b) s0 = execFcls p t a b s0 := rfl
@[simp] theorem exec_cvt {p t a sx} {s0 : State} : exec (.cvt p t a sx) s0 = execCvt p t a sx s0 := rfl
@[simp] theorem exec_fcmpeq {p t a b} {s0 : State} : exec (.fcmpeq p t a b) s0 = execFcmpeq p t a b s0 := rfl
@[simp] theorem exec_fcmplt {p t a b} {s0 : State} : exec (.fcmplt p t a b) s0 = execFcmplt p t a b s0 := rfl
@[simp] theorem exec_fcmple {p t a b} {s0 : State} : exec (.fcmple p t a b) s0 = execFcmple p t a b s0 := rfl
@[simp] theorem exec_fcmpun {p t a b} {s0 : State} : exec (.fcmpun p t a b) s0 = execFcmpun p t a b s0 := rfl
@[simp] theorem exec_peek {p t a v h o} {s0 : State} : exec (.peek p t a v h o) s0 = execPeek p t a v h o s0 := rfl
@[simp] theorem exec_poke {p v h o} {s0 : State} : exec (.poke p v h o) s0 = execPoke p v h o s0 := rfl
@[simp] theorem exec_advr {p d h n} {s0 : State} : exec (.advr p d h n) s0 = execAdvr p d h n s0 := rfl
@[simp] theorem exec_advw {p d h n} {s0 : State} : exec (.advw p d h n) s0 = execAdvw p d h n s0 := rfl
@[simp] theorem exec_anti {p d h n} {s0 : State} : exec (.anti p d h n) s0 = execAnti p d h n s0 := rfl
@[simp] theorem exec_hcnt {p a h} {s0 : State} : exec (.hcnt p a h) s0 = execHcnt p a h s0 := rfl
@[simp] theorem exec_hfree {p a h} {s0 : State} : exec (.hfree p a h) s0 = execHfree p a h s0 := rfl
@[simp] theorem exec_tkind {p a h o} {s0 : State} : exec (.tkind p a h o) s0 = execTkind p a h o s0 := rfl
@[simp] theorem exec_emit {p k v h o} {s0 : State} : exec (.emit p k v h o) s0 = execEmit p k v h o s0 := rfl
@[simp] theorem exec_peekt {p t a v h o} {s0 : State} : exec (.peekt p t a v h o) s0 = execPeekt p t a v h o s0 := rfl
@[simp] theorem exec_poket {p v h o} {s0 : State} : exec (.poket p v h o) s0 = execPoket p v h o s0 := rfl
@[simp] theorem exec_rngc {p v sx a b} {s0 : State} : exec (.rngc p v sx a b) s0 = execRngc p v sx a b s0 := rfl
@[simp] theorem exec_vadd {p t a b} {s0 : State} : exec (.vadd p t a b) s0 = execVadd p t a b s0 := rfl
@[simp] theorem exec_vsub {p t a b} {s0 : State} : exec (.vsub p t a b) s0 = execVsub p t a b s0 := rfl
@[simp] theorem exec_vmul {p t a b} {s0 : State} : exec (.vmul p t a b) s0 = execVmul p t a b s0 := rfl
@[simp] theorem exec_vfma {p t a b} {s0 : State} : exec (.vfma p t a b) s0 = execVfma p t a b s0 := rfl
@[simp] theorem exec_vmin {p t a b} {s0 : State} : exec (.vmin p t a b) s0 = execVmin p t a b s0 := rfl
@[simp] theorem exec_vmax {p t a b} {s0 : State} : exec (.vmax p t a b) s0 = execVmax p t a b s0 := rfl
@[simp] theorem exec_vabs {p t a b} {s0 : State} : exec (.vabs p t a b) s0 = execVabs p t a b s0 := rfl
@[simp] theorem exec_vneg {p t a b} {s0 : State} : exec (.vneg p t a b) s0 = execVneg p t a b s0 := rfl
@[simp] theorem exec_vand {p a b} {s0 : State} : exec (.vand p a b) s0 = execVand p a b s0 := rfl
@[simp] theorem exec_vor {p a b} {s0 : State} : exec (.vor p a b) s0 = execVor p a b s0 := rfl
@[simp] theorem exec_vxor {p a b} {s0 : State} : exec (.vxor p a b) s0 = execVxor p a b s0 := rfl
@[simp] theorem exec_vshl {p t a b} {s0 : State} : exec (.vshl p t a b) s0 = execVshl p t a b s0 := rfl
@[simp] theorem exec_vshr {p t a b} {s0 : State} : exec (.vshr p t a b) s0 = execVshr p t a b s0 := rfl
@[simp] theorem exec_vsar {p t a b} {s0 : State} : exec (.vsar p t a b) s0 = execVsar p t a b s0 := rfl
@[simp] theorem exec_vcmpeq {p t a b} {s0 : State} : exec (.vcmpeq p t a b) s0 = execVcmpeq p t a b s0 := rfl
@[simp] theorem exec_vcmplt {p t a b} {s0 : State} : exec (.vcmplt p t a b) s0 = execVcmplt p t a b s0 := rfl
@[simp] theorem exec_vcmple {p t a b} {s0 : State} : exec (.vcmple p t a b) s0 = execVcmple p t a b s0 := rfl
@[simp] theorem exec_vsel {p t a b} {s0 : State} : exec (.vsel p t a b) s0 = execVsel p t a b s0 := rfl
@[simp] theorem exec_vbcast {p t a b} {s0 : State} : exec (.vbcast p t a b) s0 = execVbcast p t a b s0 := rfl
@[simp] theorem exec_vext {p t a b} {s0 : State} : exec (.vext p t a b) s0 = execVext p t a b s0 := rfl
@[simp] theorem exec_vins {p t a b} {s0 : State} : exec (.vins p t a b) s0 = execVins p t a b s0 := rfl
@[simp] theorem exec_vperm {p t a b} {s0 : State} : exec (.vperm p t a b) s0 = execVperm p t a b s0 := rfl
@[simp] theorem exec_vshuf {p t a b} {s0 : State} : exec (.vshuf p t a b) s0 = execVshuf p t a b s0 := rfl
@[simp] theorem exec_vred {p t a m o} {s0 : State} : exec (.vred p t a m o) s0 = execVred p t a m o s0 := rfl
@[simp] theorem exec_vscan {p t a b} {s0 : State} : exec (.vscan p t a b) s0 = execVscan p t a b s0 := rfl
@[simp] theorem exec_vcvt {p t a sx q c} {s0 : State} : exec (.vcvt p t a sx q c) s0 = execVcvt p t a sx q c s0 := rfl
@[simp] theorem exec_vex2 {p t a b} {s0 : State} : exec (.vex2 p t a b) s0 = execVex2 p t a b s0 := rfl
@[simp] theorem exec_vrcp {p t a b} {s0 : State} : exec (.vrcp p t a b) s0 = execVrcp p t a b s0 := rfl
@[simp] theorem exec_vrsq {p t a b} {s0 : State} : exec (.vrsq p t a b) s0 = execVrsq p t a b s0 := rfl
@[simp] theorem exec_vtopk {p t a x k} {s0 : State} : exec (.vtopk p t a x k) s0 = execVtopk p t a x k s0 := rfl
@[simp] theorem exec_vcmprs {p t a b} {s0 : State} : exec (.vcmprs p t a b) s0 = execVcmprs p t a b s0 := rfl
@[simp] theorem exec_vexpnd {p t a b} {s0 : State} : exec (.vexpnd p t a b) s0 = execVexpnd p t a b s0 := rfl
@[simp] theorem exec_vdot {p t a m c} {s0 : State} : exec (.vdot p t a m c) s0 = execVdot p t a m c s0 := rfl
@[simp] theorem exec_viota {p t a b} {s0 : State} : exec (.viota p t a b) s0 = execViota p t a b s0 := rfl
@[simp] theorem exec_vcnt {p t a b} {s0 : State} : exec (.vcnt p t a b) s0 = execVcnt p t a b s0 := rfl
@[simp] theorem exec_lglen {p a e w} {s0 : State} : exec (.lglen p a e w) s0 = execLglen p a e w s0 := rfl
@[simp] theorem exec_lgpack {p a ix o} {s0 : State} : exec (.lgpack p a ix o) s0 = execLgpack p a ix o s0 := rfl
@[simp] theorem exec_lgdone {p a b} {s0 : State} : exec (.lgdone p a b) s0 = execLgdone p a b s0 := rfl
@[simp] theorem exec_bmv {p a} {s0 : State} : exec (.bmv p a) s0 = execBmv p a s0 := rfl
@[simp] theorem exec_bmm {p a q} {s0 : State} : exec (.bmm p a q) s0 = execBmm p a q s0 := rfl
@[simp] theorem exec_ldl {p t a b} {s0 : State} : exec (.ldl p t a b) s0 = execLdl p t a b s0 := rfl
@[simp] theorem exec_stl {p t} {s0 : State} : exec (.stl p t) s0 = execStl p t s0 := rfl
@[simp] theorem exec_ldlv {p c w a b} {s0 : State} : exec (.ldlv p c w a b) s0 = execLdlv p c w a b s0 := rfl
@[simp] theorem exec_stlv {p sx} {s0 : State} : exec (.stlv p sx) s0 = execStlv p sx s0 := rfl
@[simp] theorem exec_feset {p q} {s0 : State} : exec (.feset p q) s0 = execFeset p q s0 := rfl
@[simp] theorem exec_feclr {p q} {s0 : State} : exec (.feclr p q) s0 = execFeclr p q s0 := rfl
@[simp] theorem exec_fetest {p q a b} {s0 : State} : exec (.fetest p q a b) s0 = execFetest p q a b s0 := rfl
@[simp] theorem exec_ldg {p t a d m} {s0 : State} : exec (.ldg p t a d m) s0 = execLdg p t a d m s0 := rfl
@[simp] theorem exec_stg {p t a b} {s0 : State} : exec (.stg p t a b) s0 = execStg p t a b s0 := rfl
@[simp] theorem exec_ldgv {p d m a b} {s0 : State} : exec (.ldgv p d m a b) s0 = execLdgv p d m a b s0 := rfl
@[simp] theorem exec_stgv {p m a b} {s0 : State} : exec (.stgv p m a b) s0 = execStgv p m a b s0 := rfl
@[simp] theorem exec_gath {p t a b} {s0 : State} : exec (.gath p t a b) s0 = execGath p t a b s0 := rfl
@[simp] theorem exec_scat {p t a b} {s0 : State} : exec (.scat p t a b) s0 = execScat p t a b s0 := rfl
@[simp] theorem exec_vrcl {p a b} {s0 : State} : exec (.vrcl p a b) s0 = execVrcl p a b s0 := rfl
@[simp] theorem exec_vqry {p a b} {s0 : State} : exec (.vqry p a b) s0 = execVqry p a b s0 := rfl
@[simp] theorem exec_atom {p t a o} {s0 : State} : exec (.atom p t a o) s0 = execAtom p t a o s0 := rfl
@[simp] theorem exec_atomr {p t a o} {s0 : State} : exec (.atomr p t a o) s0 = execAtomr p t a o s0 := rfl
@[simp] theorem exec_cas {p t a b} {s0 : State} : exec (.cas p t a b) s0 = execCas p t a b s0 := rfl
@[simp] theorem exec_vatom {p t a o} {s0 : State} : exec (.vatom p t a o) s0 = execVatom p t a o s0 := rfl
@[simp] theorem exec_faadd {p t a r} {s0 : State} : exec (.faadd p t a r) s0 = execFaadd p t a r s0 := rfl
@[simp] theorem exec_lockt {p a b} {s0 : State} : exec (.lockt p a b) s0 = execLockt p a b s0 := rfl
@[simp] theorem exec_unlockt {p a b} {s0 : State} : exec (.unlockt p a b) s0 = execUnlockt p a b s0 := rfl
@[simp] theorem exec_qcopy {p x e a b} {s0 : State} : exec (.qcopy p x e a b) s0 = execQcopy p x e a b s0 := rfl
@[simp] theorem exec_qgath {p x e a b} {s0 : State} : exec (.qgath p x e a b) s0 = execQgath p x e a b s0 := rfl
@[simp] theorem exec_qunf {p x e a b} {s0 : State} : exec (.qunf p x e a b) s0 = execQunf p x e a b s0 := rfl
@[simp] theorem exec_qwait {p a b} {s0 : State} : exec (.qwait p a b) s0 = execQwait p a b s0 := rfl
@[simp] theorem exec_qstat {p a b} {s0 : State} : exec (.qstat p a b) s0 = execQstat p a b s0 := rfl
@[simp] theorem exec_mloadw {p a b} {s0 : State} : exec (.mloadw p a b) s0 = execMloadw p a b s0 := rfl
@[simp] theorem exec_mswap {p a b} {s0 : State} : exec (.mswap p a b) s0 = execMswap p a b s0 := rfl
@[simp] theorem exec_mma {p a b} {s0 : State} : exec (.mma p a b) s0 = execMma p a b s0 := rfl
@[simp] theorem exec_mscale {p t a b} {s0 : State} : exec (.mscale p t a b) s0 = execMscale p t a b s0 := rfl
@[simp] theorem exec_accrd {p a b} {s0 : State} : exec (.accrd p a b) s0 = execAccrd p a b s0 := rfl
@[simp] theorem exec_accwr {p a b} {s0 : State} : exec (.accwr p a b) s0 = execAccwr p a b s0 := rfl
@[simp] theorem exec_accz {p a b} {s0 : State} : exec (.accz p a b) s0 = execAccz p a b s0 := rfl
@[simp] theorem exec_mpromo {p a b} {s0 : State} : exec (.mpromo p a b) s0 = execMpromo p a b s0 := rfl
@[simp] theorem exec_fscan {p a b ih oh d root} {s0 : State} : exec (.fscan p a b ih oh d root) s0 = execFscan p a b ih oh d root s0 := rfl
@[simp] theorem exec_fisect {p t a v sx} {s0 : State} : exec (.fisect p t a v sx) s0 = execFisect p t a v sx s0 := rfl
@[simp] theorem exec_funion {p t a v w} {s0 : State} : exec (.funion p t a v w) s0 = execFunion p t a v w s0 := rfl
@[simp] theorem exec_frep {p a b ih oh d} {s0 : State} : exec (.frep p a b ih oh d) s0 = execFrep p a b ih oh d s0 := rfl
@[simp] theorem exec_fred {p t a b ih oh d e o} {s0 : State} : exec (.fred p t a b ih oh d e o) s0 = execFred p t a b ih oh d e o s0 := rfl
@[simp] theorem exec_fstop {p d k h o} {s0 : State} : exec (.fstop p d k h o) s0 = execFstop p d k h o s0 := rfl
@[simp] theorem exec_fchk {p d a h o} {s0 : State} : exec (.fchk p d a h o) s0 = execFchk p d a h o s0 := rfl
@[simp] theorem exec_fcrd {p d a h o} {s0 : State} : exec (.fcrd p d a h o) s0 = execFcrd p d a h o s0 := rfl
@[simp] theorem exec_bar {p a b} {s0 : State} : exec (.bar p a b) s0 = execBar p a b s0 := rfl
@[simp] theorem exec_wreg {p h a b} {s0 : State} : exec (.wreg p h a b) s0 = execWreg p h a b s0 := rfl
@[simp] theorem exec_wdrop {p a b} {s0 : State} : exec (.wdrop p a b) s0 = execWdrop p a b s0 := rfl
@[simp] theorem exec_wqry {p a b} {s0 : State} : exec (.wqry p a b) s0 = execWqry p a b s0 := rfl
@[simp] theorem exec_chsend {p a b} {s0 : State} : exec (.chsend p a b) s0 = execChsend p a b s0 := rfl
@[simp] theorem exec_chrecv {p a b} {s0 : State} : exec (.chrecv p a b) s0 = execChrecv p a b s0 := rfl
@[simp] theorem exec_chcred {p a b} {s0 : State} : exec (.chcred p a b) s0 = execChcred p a b s0 := rfl
@[simp] theorem exec_waitv {p a b} {s0 : State} : exec (.waitv p a b) s0 = execWaitv p a b s0 := rfl
@[simp] theorem exec_tkwait {p a b} {s0 : State} : exec (.tkwait p a b) s0 = execTkwait p a b s0 := rfl
@[simp] theorem exec_tkrd {p a b} {s0 : State} : exec (.tkrd p a b) s0 = execTkrd p a b s0 := rfl
@[simp] theorem exec_cred {p a b} {s0 : State} : exec (.cred p a b) s0 = execCred p a b s0 := rfl
@[simp] theorem exec_cbcast {p a b} {s0 : State} : exec (.cbcast p a b) s0 = execCbcast p a b s0 := rfl
@[simp] theorem exec_cgath {p a b} {s0 : State} : exec (.cgath p a b) s0 = execCgath p a b s0 := rfl
@[simp] theorem exec_fence {p sc a b chain st} {s0 : State} : exec (.fence p sc a b chain st) s0 = execFence p sc a b chain st s0 := rfl
@[simp] theorem exec_launch {p a b} {s0 : State} : exec (.launch p a b) s0 = execLaunch p a b s0 := rfl
@[simp] theorem exec_launchi {p a b} {s0 : State} : exec (.launchi p a b) s0 = execLaunchi p a b s0 := rfl
@[simp] theorem exec_launcht {p a b} {s0 : State} : exec (.launcht p a b) s0 = execLauncht p a b s0 := rfl
@[simp] theorem exec_splice {p a b} {s0 : State} : exec (.splice p a b) s0 = execSplice p a b s0 := rfl
@[simp] theorem exec_lstat {p a b} {s0 : State} : exec (.lstat p a b) s0 = execLstat p a b s0 := rfl
@[simp] theorem exec_lcancel {p a b} {s0 : State} : exec (.lcancel p a b) s0 = execLcancel p a b s0 := rfl
@[simp] theorem exec_ipf {p d} {s0 : State} : exec (.ipf p d) s0 = execIpf p d s0 := rfl
@[simp] theorem exec_ipin {p d} {s0 : State} : exec (.ipin p d) s0 = execIpin p d s0 := rfl
@[simp] theorem exec_iunpin {p} {s0 : State} : exec (.iunpin p) s0 = execIunpin p s0 := rfl
@[simp] theorem exec_iinv {p x} {s0 : State} : exec (.iinv p x) s0 = execIinv p x s0 := rfl
@[simp] theorem exec_thatch {p a b} {s0 : State} : exec (.thatch p a b) s0 = execThatch p a b s0 := rfl
@[simp] theorem exec_snap {p k a b} {s0 : State} : exec (.snap p k a b) s0 = execSnap p k a b s0 := rfl
@[simp] theorem exec_digest {p a b} {s0 : State} : exec (.digest p a b) s0 = execDigest p a b s0 := rfl
@[simp] theorem exec_statf {p a b} {s0 : State} : exec (.statf p a b) s0 = execStatf p a b s0 := rfl
@[simp] theorem exec_firingSelection {rank} {s0 : State} : exec (.firingSelection rank) s0 = execFiringSelection rank s0 := rfl
@[simp] theorem exec_blockQuiescence {rank} {s0 : State} : exec (.blockQuiescence rank) s0 = execBlockQuiescence rank s0 := rfl
@[simp] theorem exec_firingCancellation {rank la} {s0 : State} : exec (.firingCancellation rank la) s0 = execFiringCancellation rank la s0 := rfl
@[simp] theorem exec_actorRetirement {rank la} {s0 : State} : exec (.actorRetirement rank la) s0 = execActorRetirement rank la s0 := rfl
@[simp] theorem exec_flitArrival {e err} {s0 : State} : exec (.flitArrival e err) s0 = execFlitArrival e err s0 := rfl
@[simp] theorem exec_antiTokenArrival {e} {s0 : State} : exec (.antiTokenArrival e) s0 = execAntiTokenArrival e s0 := rfl
@[simp] theorem exec_joinInputStep {rank la} {s0 : State} : exec (.joinInputStep rank la) s0 = execJoinInputStep rank la s0 := rfl
@[simp] theorem exec_forkCopy {rank la} {s0 : State} : exec (.forkCopy rank la) s0 = execForkCopy rank la s0 := rfl
@[simp] theorem exec_turnTokenIntake {rank la} {s0 : State} : exec (.turnTokenIntake rank la) s0 = execTurnTokenIntake rank la s0 := rfl
@[simp] theorem exec_turnTokenPublish {rank la} {s0 : State} : exec (.turnTokenPublish rank la) s0 = execTurnTokenPublish rank la s0 := rfl
@[simp] theorem exec_ownerUpdate {rank la} {s0 : State} : exec (.ownerUpdate rank la) s0 = execOwnerUpdate rank la s0 := rfl
@[simp] theorem exec_memoryRequestForward {req} {s0 : State} : exec (.memoryRequestForward req) s0 = execMemoryRequestForward req s0 := rfl
@[simp] theorem exec_homeBankEvent {req err} {s0 : State} : exec (.homeBankEvent req err) s0 = execHomeBankEvent req err s0 := rfl
@[simp] theorem exec_waitingRequestPerform {req} {s0 : State} : exec (.waitingRequestPerform req) s0 = execWaitingRequestPerform req s0 := rfl
@[simp] theorem exec_loadAnswer {req} {s0 : State} : exec (.loadAnswer req) s0 = execLoadAnswer req s0 := rfl
@[simp] theorem exec_completionValueDelivery {req} {s0 : State} : exec (.completionValueDelivery req) s0 = execCompletionValueDelivery req s0 := rfl
@[simp] theorem exec_translationMissDecision {req} {s0 : State} : exec (.translationMissDecision req) s0 = execTranslationMissDecision req s0 := rfl
@[simp] theorem exec_invocationEnd {lid g} {s0 : State} : exec (.invocationEnd lid g) s0 = execInvocationEnd lid g s0 := rfl
@[simp] theorem exec_ldlvWfRelease {rank slot} {s0 : State} : exec (.ldlvWfRelease rank slot) s0 = execLdlvWfRelease rank slot s0 := rfl
@[simp] theorem exec_lockGrant {req} {s0 : State} : exec (.lockGrant req) s0 = execLockGrant req s0 := rfl
@[simp] theorem exec_unlockRelease {req} {s0 : State} : exec (.unlockRelease req) s0 = execUnlockRelease req s0 := rfl
@[simp] theorem exec_fenceComplete {req} {s0 : State} : exec (.fenceComplete req) s0 = execFenceComplete req s0 := rfl
@[simp] theorem exec_tkwaitRelease {rank slot} {s0 : State} : exec (.tkwaitRelease rank slot) s0 = execTkwaitRelease rank slot s0 := rfl
@[simp] theorem exec_qwaitRelease {rank slot} {s0 : State} : exec (.qwaitRelease rank slot) s0 = execQwaitRelease rank slot s0 := rfl
@[simp] theorem exec_engineCommandEnqueue {rank slot} {s0 : State} : exec (.engineCommandEnqueue rank slot) s0 = execEngineCommandEnqueue rank slot s0 := rfl
@[simp] theorem exec_engineCommandExecute {die eng} {s0 : State} : exec (.engineCommandExecute die eng) s0 = execEngineCommandExecute die eng s0 := rfl
@[simp] theorem exec_regionFeed {die eng} {s0 : State} : exec (.regionFeed die eng) s0 = execRegionFeed die eng s0 := rfl
@[simp] theorem exec_regionCommandEnqueue {rank slot} {s0 : State} : exec (.regionCommandEnqueue rank slot) s0 = execRegionCommandEnqueue rank slot s0 := rfl
@[simp] theorem exec_mloadwExecute {rg} {s0 : State} : exec (.mloadwExecute rg) s0 = execMloadwExecute rg s0 := rfl
@[simp] theorem exec_mscaleExecute {rg} {s0 : State} : exec (.mscaleExecute rg) s0 = execMscaleExecute rg s0 := rfl
@[simp] theorem exec_mswapExecute {rg} {s0 : State} : exec (.mswapExecute rg) s0 = execMswapExecute rg s0 := rfl
@[simp] theorem exec_mmaExecute {rg} {s0 : State} : exec (.mmaExecute rg) s0 = execMmaExecute rg s0 := rfl
@[simp] theorem exec_mpromoExecute {rg} {s0 : State} : exec (.mpromoExecute rg) s0 = execMpromoExecute rg s0 := rfl
@[simp] theorem exec_statfExecute {rg} {s0 : State} : exec (.statfExecute rg) s0 = execStatfExecute rg s0 := rfl
@[simp] theorem exec_accQueuedAccess {rg} {s0 : State} : exec (.accQueuedAccess rg) s0 = execAccQueuedAccess rg s0 := rfl
@[simp] theorem exec_collectiveExecution {c} {s0 : State} : exec (.collectiveExecution c) s0 = execCollectiveExecution c s0 := rfl
@[simp] theorem exec_digestComplete {rank slot} {s0 : State} : exec (.digestComplete rank slot) s0 = execDigestComplete rank slot s0 := rfl
@[simp] theorem exec_thatchVerification {s0 : State} : exec .thatchVerification s0 = execThatchVerification s0 := rfl
@[simp] theorem exec_thatchTakeEffect {s0 : State} : exec .thatchTakeEffect s0 = execThatchTakeEffect s0 := rfl
@[simp] theorem exec_ridgePlacement {part ch} {s0 : State} : exec (.ridgePlacement part ch) s0 = execRidgePlacement part ch s0 := rfl
@[simp] theorem exec_launchDependenceMet {lid} {s0 : State} : exec (.launchDependenceMet lid) s0 = execLaunchDependenceMet lid s0 := rfl
@[simp] theorem exec_armedClear {lid} {s0 : State} : exec (.armedClear lid) s0 = execArmedClear lid s0 := rfl
@[simp] theorem exec_reconfActorFinish {rank la} {s0 : State} : exec (.reconfActorFinish rank la) s0 = execReconfActorFinish rank la s0 := rfl
@[simp] theorem exec_elementSuccessorInstall {rank} {s0 : State} : exec (.elementSuccessorInstall rank) s0 = execElementSuccessorInstall rank s0 := rfl
@[simp] theorem exec_launchEnd {lid} {s0 : State} : exec (.launchEnd lid) s0 = execLaunchEnd lid s0 := rfl
@[simp] theorem exec_tickBoundary {s0 : State} : exec .tickBoundary s0 = execTickBoundary s0 := rfl
@[simp] theorem exec_tickPeriodChange {s0 : State} : exec .tickPeriodChange s0 = execTickPeriodChange s0 := rfl
@[simp] theorem exec_detQuantumRelease {e} {s0 : State} : exec (.detQuantumRelease e) s0 = execDetQuantumRelease e s0 := rfl
@[simp] theorem exec_watchdog {lid} {s0 : State} : exec (.watchdog lid) s0 = execWatchdog lid s0 := rfl
@[simp] theorem exec_trapRecordWrite {part} {s0 : State} : exec (.trapRecordWrite part) s0 = execTrapRecordWrite part s0 := rfl
@[simp] theorem exec_ridgeTrapNotify {part} {s0 : State} : exec (.ridgeTrapNotify part) s0 = execRidgeTrapNotify part s0 := rfl
@[simp] theorem exec_handlerAction {part seq} {s0 : State} : exec (.handlerAction part seq) s0 = execHandlerAction part seq s0 := rfl
@[simp] theorem exec_preemptionOpen {lid} {s0 : State} : exec (.preemptionOpen lid) s0 = execPreemptionOpen lid s0 := rfl
@[simp] theorem exec_markerRecord {e} {s0 : State} : exec (.markerRecord e) s0 = execMarkerRecord e s0 := rfl
@[simp] theorem exec_cutComplete {lid} {s0 : State} : exec (.cutComplete lid) s0 = execCutComplete lid s0 := rfl
@[simp] theorem exec_preemptionAbandon {lid} {s0 : State} : exec (.preemptionAbandon lid) s0 = execPreemptionAbandon lid s0 := rfl
@[simp] theorem exec_preemptionResume {lid} {s0 : State} : exec (.preemptionResume lid) s0 = execPreemptionResume lid s0 := rfl
@[simp] theorem exec_replicaVote {part rset dseq} {s0 : State} : exec (.replicaVote part rset dseq) s0 = execReplicaVote part rset dseq s0 := rfl
@[simp] theorem exec_snapshotLatch {part external} {s0 : State} : exec (.snapshotLatch part external) s0 = execSnapshotLatch part external s0 := rfl
@[simp] theorem exec_bridgeReplay {f} {s0 : State} : exec (.bridgeReplay f) s0 = execBridgeReplay f s0 := rfl
@[simp] theorem exec_uePacketReceive {k} {s0 : State} : exec (.uePacketReceive k) s0 = execUePacketReceive k s0 := rfl
@[simp] theorem exec_ptpMessage {port time} {s0 : State} : exec (.ptpMessage port time) s0 = execPtpMessage port time s0 := rfl
@[simp] theorem exec_load {c ptr bytes} {s0 : State} : exec (.load c ptr bytes) s0 = execLoad c ptr bytes s0 := rfl
@[simp] theorem exec_start {c body} {s0 : State} : exec (.start c body) s0 = execStart c body s0 := rfl
@[simp] theorem exec_stop {c lid} {s0 : State} : exec (.stop c lid) s0 = execStop c lid s0 := rfl
@[simp] theorem exec_query {c q} {s0 : State} : exec (.query c q) s0 = execQuery c q s0 := rfl
@[simp] theorem exec_attest {c nonce} {s0 : State} : exec (.attest c nonce) s0 = execAttest c nonce s0 := rfl
@[simp] theorem exec_thatchCommand {c image} {s0 : State} : exec (.thatchCommand c image) s0 = execThatchCommand c image s0 := rfl
@[simp] theorem exec_mapPage {c off level entry} {s0 : State} : exec (.mapPage c off level entry) s0 = execMapPage c off level entry s0 := rfl
@[simp] theorem exec_setTickPeriod {c period} {s0 : State} : exec (.setTickPeriod c period) s0 = execSetTickPeriod c period s0 := rfl
@[simp] theorem exec_setTickEpoch {c epoch} {s0 : State} : exec (.setTickEpoch c epoch) s0 = execSetTickEpoch c epoch s0 := rfl
@[simp] theorem exec_setWdt {c ticks} {s0 : State} : exec (.setWdt c ticks) s0 = execSetWdt c ticks s0 := rfl
@[simp] theorem exec_setSnapshotTick {c tick} {s0 : State} : exec (.setSnapshotTick c tick) s0 = execSetSnapshotTick c tick s0 := rfl
@[simp] theorem exec_bind {c b} {s0 : State} : exec (.bind c b) s0 = execBind c b s0 := rfl
@[simp] theorem exec_handler {c rec logBase} {s0 : State} : exec (.handler c rec logBase) s0 = execHandler c rec logBase s0 := rfl
@[simp] theorem exec_reclaim {c} {s0 : State} : exec (.reclaim c) s0 = execReclaim c s0 := rfl
@[simp] theorem exec_moduleReset {modpos bootsrc recov} {s0 : State} : exec (.moduleReset modpos bootsrc recov) s0 = execModuleReset modpos bootsrc recov s0 := rfl
@[simp] theorem exec_powerLoss {s0 : State} : exec .powerLoss s0 = execPowerLoss s0 := rfl
@[simp] theorem exec_thermalThrottle {die hot} {s0 : State} : exec (.thermalThrottle die hot) s0 = execThermalThrottle die hot s0 := rfl
@[simp] theorem exec_thermalShutdown {s0 : State} : exec .thermalShutdown s0 = execThermalShutdown s0 := rfl
@[simp] theorem exec_functionReady {f} {s0 : State} : exec (.functionReady f) s0 = execFunctionReady f s0 := rfl
@[simp] theorem exec_memoryScrub {granule err} {s0 : State} : exec (.memoryScrub granule err) s0 = execMemoryScrub granule err s0 := rfl

end Sys2Proof.Machine
end

