-- ==== Sys2Proof/Laws/Encoding.lean ====
section
/-! SUPPORT. The fields of an instruction word and their codes are inverse to each other (R55, R56, R59, R69). -/

set_option Elab.async false

namespace Sys2Proof.Laws

/-- The fields fit the places that R55 gives them. -/
def Raw.fits (r : Raw) : Prop := r.op < 256 ∧ r.pr < 4 ∧ r.ty < 16 ∧ r.t0 < 512 ∧ r.t1 < 512

/-- Splitting a joined word gives the fields back. -/
theorem raw_ofWord_toWord {r : Raw} (h : Raw.fits r) : Raw.ofWord r.toWord = r := by
  obtain ⟨h1, h2, h3, h4, h5⟩ := h
  obtain ⟨op, pr, ty, t0, t1⟩ := r
  dsimp only at h1 h2 h3 h4 h5
  have e : (Raw.toWord ⟨op, pr, ty, t0, t1⟩).toNat = op * 2 ^ 24 + pr * 2 ^ 22 + ty * 2 ^ 18 + t0 * 2 ^ 9 + t1 := by
    rw [Raw.toWord, BitVec.toNat_ofNat]; dsimp only; omega
  rw [Raw.ofWord, e]
  congr 1 <;> omega

@[simp] theorem pred_ofCode_code (p : Pred) : Pred.ofCode p.code = some p := by cases p <;> rfl
theorem pred_code_lt (p : Pred) : p.code < 4 := by cases p <;> decide

@[simp] theorem ty_ofCode_code (t : Ty) : Ty.ofCode t.code = some t := by cases t <;> rfl
@[simp] theorem ty_ofNat_code (t : Ty) : Ty.ofCode (BitVec.ofNat 4 t.code.toNat) = some t := by cases t <;> rfl
theorem ty_code_lt (t : Ty) : t.code.toNat < 16 := t.code.isLt

theorem port_ofCode_code (q : Port) : Port.ofCode q.code = q := by cases q <;> rfl
theorem port_code_lt (q : Port) : q.code < 4 := by cases q <;> decide

/-- A listed consumer field is read back (R59). -/
theorem target_ofCode_code {t : Target} (h : t.listed = true) : Target.ofCode t.code = t := by
  cases t with
  | slot n q =>
    have hq := port_code_lt q
    have hn := n.isLt
    have e : (n.val * 4 + q.code) / 4 = n.val := by omega
    have e2 : (n.val * 4 + q.code) % 4 = q.code := by omega
    have e3 : fin64 n.val = n := Fin.ext (Nat.mod_eq_of_lt hn)
    rw [Target.code, Target.ofCode, if_pos (by omega), e, e2, port_ofCode_code, e3]
  | discard => rfl
  | keep n => revert n; decide
  | out n => revert n; decide
  | orig s => simp [Target.listed] at h
  | reserved c => simp [Target.listed] at h

theorem target_code_lt (t : Target) : t.code < 512 := by
  cases t with
  | slot n q => have := port_code_lt q; have := n.isLt; simp only [Target.code]; omega
  | discard => decide
  | keep n => have := n.isLt; simp only [Target.code]; omega
  | out n => have := n.isLt; simp only [Target.code]; omega
  | orig s => cases s <;> decide
  | reserved c => have := c.isLt; simp only [Target.code]; omega

@[simp] theorem ldMode_ofCode_code (m : LdMode) : LdMode.ofCode m.code = some m := by cases m <;> rfl
@[simp] theorem atomOp_ofCode_code (o : AtomOp) : AtomOp.ofCode o.code = some o := by cases o <;> rfl
@[simp] theorem redOp_ofCode_code (o : RedOp) : RedOp.ofCode o.code = some o := by cases o <;> rfl
@[simp] theorem scaleSel_ofCode_code (o : ScaleSel) : ScaleSel.ofCode o.code = some o := by cases o <;> rfl

/-- The one consumer of a well-formed instruction is read back. -/
theorem wf_target {i : Instr} {a : Target} (h : i.targets = [a]) (hw : i.wf = true) : Target.ofCode a.code = a := by
  simp only [Instr.wf, h, List.all_cons, List.all_nil, Bool.and_eq_true, Bool.and_true] at hw
  exact target_ofCode_code hw.2

/-- So are its two consumers. -/
theorem wf_targets {i : Instr} {a b : Target} (h : i.targets = [a, b]) (hw : i.wf = true) :
    Target.ofCode a.code = a ∧ Target.ofCode b.code = b := by
  simp only [Instr.wf, h, List.all_cons, List.all_nil, Bool.and_eq_true, Bool.and_true] at hw
  exact ⟨target_ofCode_code hw.2.1, target_ofCode_code hw.2.2⟩

/-- A well-formed instruction whose fields decode to it is read back from its own words, whatever follows them. -/
theorem decode_encode {i : Instr} {r : Raw} {ls : List IWord} (p : Pred) (rest : List IWord) (hraw : i.raw = some r)
    (hls : i.lits = ls) (hw : i.wf = true) (hfit : Raw.fits r) (hp : Pred.ofCode r.pr = some p)
    (hlen : ∀ w, Raw.ofWord w = r → litWords w = ls.length)
    (hrow : decodeRow r p ((ls ++ rest).getD 0 0).toNat ((ls ++ rest).getD 1 0).toNat = some i) :
    decodeWords (encode i ++ rest) = .ok (i, rest) := by
  subst hls
  have hl : litWords r.toWord = i.lits.length := hlen _ (raw_ofWord_toWord hfit)
  have h2 : i.encOk = true ∧ i.targets.all Target.listed = true := by simpa [Instr.wf] using hw
  have h3 : decodeIns r.toWord ((i.lits ++ rest).getD 0 0) ((i.lits ++ rest).getD 1 0) = some i := by
    unfold decodeIns
    rw [raw_ofWord_toWord hfit]
    dsimp only
    rw [hp, Option.bind_some, hrow]
    simp only [Option.filter, h2.1, if_true]
  rw [encode, hraw]
  show decodeWords (r.toWord :: (i.lits ++ rest)) = _
  rw [decodeWords, hl, h3, if_neg (by simp)]
  simp [h2.2]

end Sys2Proof.Laws
end

