-- ==== Sys2Proof/Laws/Float.lean ====
section
/-! SUPPORT. The integer square root that the float roots and exponentials rest on: what the digit-by-digit search finds. -/

set_option Elab.async false

namespace Sys2Proof.Laws

open Sys2Proof.Machine

/-- The search keeps a root from below, and ends within one of the true root. -/
theorem isqrtGo_spec (n k r : Nat) (hlo : r * r ≤ n) (hhi : n < (r + 2 ^ k) * (r + 2 ^ k)) :
    isqrtGo n k r * isqrtGo n k r ≤ n ∧ n < (isqrtGo n k r + 1) * (isqrtGo n k r + 1) := by
  induction k generalizing r with
  | zero => exact ⟨hlo, by simpa [isqrtGo] using hhi⟩
  | succ k ih =>
    have h2 : 2 ^ (k + 1) = 2 ^ k + 2 ^ k := by rw [Nat.pow_succ]; omega
    rw [isqrtGo]
    split
    · exact ih _ ‹_› (by rw [Nat.add_assoc, ← h2]; exact hhi)
    · exact ih _ hlo (by omega)

/-- The root rounded down. -/
theorem isqrt_spec (n : Nat) : isqrt n * isqrt n ≤ n ∧ n < (isqrt n + 1) * (isqrt n + 1) := by
  refine isqrtGo_spec n _ 0 (Nat.zero_le n) ?_
  rw [Nat.zero_add, ← Nat.pow_add]
  exact Nat.lt_of_lt_of_le Nat.lt_log2_self (Nat.pow_le_pow_right (by decide) (by omega))

/-- A perfect square has its root. -/
theorem isqrt_square (r : Nat) : isqrt (r * r) = r := by
  obtain ⟨h1, h2⟩ := isqrt_spec (r * r)
  have a : isqrt (r * r) ≤ r := Nat.mul_self_le_mul_self_iff.mp h1
  have b : r < isqrt (r * r) + 1 := Nat.mul_self_lt_mul_self_iff.mp h2
  omega

end Sys2Proof.Laws
end

