-- ==== Sys2Proof/Laws/Integer.lean ====
section
/-! SUPPORT. Integer operands and results as bit vectors: what the model computes on numbers is what the statements say on w bits. -/

set_option Elab.async false

namespace Sys2Proof.Laws

open Sys2Proof.Machine Sys2Proof.Safety

theorem width_pos (t : Ty) : 0 < t.width := by cases t <;> decide

theorem width_le (t : Ty) : t.width ≤ 64 := by cases t <;> decide

/-- A w-bit number read as signed. -/
theorem toSigned_eq {w : Nat} (hw : 0 < w) (n : Nat) : toSigned w n = (BitVec.ofNat w n).toInt := by
  obtain ⟨k, rfl⟩ : ∃ k, w = k + 1 := ⟨w - 1, by omega⟩
  rw [toSigned, BitVec.toInt_eq_toNat_cond, BitVec.toNat_ofNat]
  have h2 : 2 ^ (k + 1) = 2 * 2 ^ k := by rw [Nat.pow_succ, Nat.mul_comm]
  have hi : ((2 : Int) ^ (k + 1)) = ((2 ^ (k + 1) : Nat) : Int) := by simp
  have := Nat.mod_lt n (show 0 < 2 ^ (k + 1) by positivity)
  rw [hi, show k + 1 - 1 = k by omega]
  split <;> split <;> omega

/-- An integer modulo 2^w. -/
theorem wrapNat_eq (w : Nat) (x : Int) : wrapNat w x = (BitVec.ofInt w x).toNat := by
  rw [wrapNat, BitVec.toNat_ofInt]; simp

/-- The operand that a port gives. -/
theorem intOperand_eq (s : State) (t : Ty) (q : Port) : intOperand t (s.portS q) = num t (opd s t q) := by
  have h : (BitVec.setWidth t.width (s.portS q)) = BitVec.ofNat t.width (s.portS q).toNat := by
    apply BitVec.eq_of_toNat_eq; simp
  unfold intOperand intOf num opd
  split
  · rw [toSigned_eq (width_pos t), h]
  · rw [h]; simp

/-- A result that is extended to 64 bits. -/
theorem extendTo_eq (t : Ty) (n : Nat) : extendTo t n = ext t (BitVec.ofNat t.width n) := by
  unfold extendTo ext
  split
  · rw [toSigned_eq (width_pos t)]; rfl
  · apply BitVec.eq_of_toNat_eq; simp

/-- An exact result that is wrapped. -/
theorem intResult_wrap (t : Ty) (x : Int) : intResult t false x = ext t (BitVec.ofInt t.width x) := by
  rw [intResult, intBits, extendTo_eq, if_neg (by decide), wrapNat_eq, BitVec.ofNat_toNat, BitVec.setWidth_eq]

theorem num_ofInt (t : Ty) (x : Int) (hl : tyMin t ≤ x) (hh : x ≤ tyMax t) : num t (BitVec.ofInt t.width x) = x := by
  have hw := width_pos t
  have hp : (2 : Int) ^ t.width = 2 * 2 ^ (t.width - 1) := by
    conv => lhs; rw [show t.width = t.width - 1 + 1 by omega, pow_succ, mul_comm]
  have hq : ((2 ^ t.width : Nat) : Int) = 2 * 2 ^ (t.width - 1) := by push_cast; exact hp
  unfold num
  unfold tyMin at hl
  unfold tyMax at hh
  split
  · next hs =>
    simp only [hs, if_true] at hl hh
    rw [BitVec.toInt_ofInt, Int.bmod_eq_of_le] <;> omega
  · next hs =>
    simp only [hs, if_false, Bool.false_eq_true] at hl hh
    rw [BitVec.toNat_ofInt, Int.emod_eq_of_lt hl (by push_cast; omega)]
    omega

theorem tyMin_le_tyMax (t : Ty) : tyMin t ≤ tyMax t := by cases t <;> decide

theorem satInt_eq (t : Ty) (x : Int) : satInt t x = clamp t x := by
  have h := tyMin_le_tyMax t
  unfold satInt clamp
  unfold tyMin tyMax at *
  by_cases hs : t.isSigned = true
  · simp only [hs, if_true] at h ⊢
    split
    · omega
    · split <;> omega
  · simp only [if_neg hs] at h ⊢
    split
    · omega
    · split <;> omega

theorem clamp_mem (t : Ty) (x : Int) : tyMin t ≤ clamp t x ∧ clamp t x ≤ tyMax t := by
  have h := tyMin_le_tyMax t
  rw [← satInt_eq]; unfold satInt
  split
  · omega
  · split <;> omega

/-- An exact result under the saturation that holds. -/
theorem intResult_sat (s : State) (t : Ty) (x : Int) :
    ∃ r, intResult t (true && s.effSat) x = ext t r ∧ satResult s t x r := by
  unfold satResult
  cases h : s.effSat
  · exact ⟨_, intResult_wrap t x, by simp⟩
  · refine ⟨BitVec.ofInt t.width (clamp t x), ?_, ?_⟩
    · rw [← intResult_wrap]; simp [intResult, intBits, satInt_eq]
    · simpa using num_ofInt t _ (clamp_mem t x).1 (clamp_mem t x).2

/-- w bits are the number that they hold. -/
theorem ofInt_num (t : Ty) (x : BitVec t.width) : BitVec.ofInt t.width (num t x) = x := by
  unfold num; split
  · simp
  · apply BitVec.eq_of_toNat_eq; simp

theorem num_injective (t : Ty) (x y : BitVec t.width) : num t x = num t y ↔ x = y :=
  ⟨fun h => by rw [← ofInt_num t x, h, ofInt_num], fun h => by rw [h]⟩

theorem num_mem (t : Ty) (x : BitVec t.width) : tyMin t ≤ num t x ∧ num t x ≤ tyMax t := by
  have hw := width_pos t
  have hp : (2 : Int) ^ t.width = 2 * 2 ^ (t.width - 1) := by
    conv => lhs; rw [show t.width = t.width - 1 + 1 by omega, pow_succ, mul_comm]
  unfold num tyMin tyMax
  split
  · have h1 := BitVec.le_two_mul_toInt (x := x)
    have h2 := BitVec.two_mul_toInt_lt (x := x)
    push_cast at h1 h2
    omega
  · have h := x.isLt
    zify at h
    omega

/-- The w low bits of a number that they hold. -/
theorem unsignedOf_num (t : Ty) (x : BitVec t.width) : unsignedOf t (num t x) = x.toNat := by
  rw [unsignedOf, wrapNat_eq, ofInt_num]

end Sys2Proof.Laws
end

