-- ==== Sys2Proof/Laws/Lists.lean ====
section
/-! SUPPORT. Lists keyed by a number, and memory: reading back, leaving the rest alone, and keeping the canonical form. -/

set_option Elab.async false

namespace Sys2Proof.Machine

/-! ## Lists keyed by a number -/

@[simp] theorem alGet_alSet {α : Type} (l : List (Nat × α)) (x : Nat) (v : α) : alGet (alSet l x v) x = some v := by
  induction l with
  | nil => simp [alSet, alGet]
  | cons e r ih =>
    obtain ⟨k, w⟩ := e
    by_cases h : k = x <;> simp [alSet, alGet, h, ih]

theorem alGet_alSet_ne {α : Type} (l : List (Nat × α)) (v : α) {x y : Nat} (h : x ≠ y) : alGet (alSet l x v) y = alGet l y := by
  induction l with
  | nil => simp [alSet, alGet, h]
  | cons e r ih =>
    obtain ⟨k, w⟩ := e
    by_cases hk : k = x
    · subst hk; simp [alSet, alGet, h]
    · by_cases hy : k = y
      · subst hy; simp [alSet, alGet, hk]
      · simp [alSet, alGet, hk, hy, ih]

@[simp] theorem alSet_alSet {α : Type} (l : List (Nat × α)) (x : Nat) (v w : α) : alSet (alSet l x v) x w = alSet l x w := by
  induction l with
  | nil => simp [alSet]
  | cons e r ih =>
    obtain ⟨k, u⟩ := e
    by_cases h : k = x <;> simp [alSet, h, ih]

/-! ## Memory -/

/-- Every listed address lies above a bound, addresses rise, and no listed byte is what an unlisted one reads as. -/
def Memory.above : Memory → Nat → Bool
  | [], _ => true
  | (k, v) :: r, n => v != 0 && decide (n ≤ k) && Memory.above r (k + 1)

theorem Memory.above_cons (k : Nat) (v : Byte) (r : Memory) (n : Nat) :
    Memory.above ((k, v) :: r) n = true ↔ (v ≠ 0 ∧ n ≤ k) ∧ Memory.above r (k + 1) = true := by
  simp [Memory.above]

theorem Memory.above_mono {m : Memory} {n k : Nat} (h : n ≤ k) (hk : Memory.above m k = true) : Memory.above m n = true := by
  cases m with
  | nil => rfl
  | cons e r =>
    obtain ⟨a, v⟩ := e
    rw [Memory.above_cons] at hk ⊢
    exact ⟨⟨hk.1.1, Nat.le_trans h hk.1.2⟩, hk.2⟩

theorem Memory.wf_iff_above (m : Memory) : Memory.wf m = Memory.above m 0 := by
  suffices h : ∀ (r : Memory) (a : Nat) (v : Byte), Memory.wf ((a, v) :: r) = (v != 0 && Memory.above r (a + 1)) by
    cases m with
    | nil => rfl
    | cons e r => obtain ⟨a, v⟩ := e; simp [h, Memory.above]
  intro r
  induction r with
  | nil => intro a v; simp [Memory.wf, Memory.above]
  | cons e r ih =>
    obtain ⟨b, w⟩ := e
    intro a v
    rw [Memory.wf, ih, Memory.above, Bool.and_assoc, ← Bool.and_assoc (decide _), Bool.and_comm (decide _)]
    rfl

theorem Memory.write_above {m : Memory} {n a : Nat} (v : Byte) (h : Memory.above m n = true) (ha : n ≤ a) :
    Memory.above (Memory.write m a v) n = true := by
  induction m generalizing n with
  | nil =>
    rw [Memory.write]
    split
    · rfl
    · next hv => rw [Memory.above_cons]; exact ⟨⟨hv, ha⟩, rfl⟩
  | cons e r ih =>
    obtain ⟨k, w⟩ := e
    have hc := (Memory.above_cons k w r n).1 h
    rw [Memory.write]
    split
    · next h1 =>
      split
      · exact h
      · next hv => rw [Memory.above_cons, Memory.above_cons]; exact ⟨⟨hv, ha⟩, ⟨hc.1.1, h1⟩, hc.2⟩
    · split
      · next h2 =>
        subst h2
        split
        · exact Memory.above_mono (by omega) hc.2
        · next hv => rw [Memory.above_cons]; exact ⟨⟨hv, ha⟩, hc.2⟩
      · next h1 h2 => rw [Memory.above_cons]; exact ⟨hc.1, ih hc.2 (by omega)⟩

/-- Writing a byte keeps the canonical form. -/
theorem Memory.write_wf {m : Memory} (a : Nat) (v : Byte) (h : Memory.wf m = true) : Memory.wf (Memory.write m a v) = true := by
  rw [Memory.wf_iff_above] at h ⊢
  exact Memory.write_above v h (Nat.zero_le a)

/-- Writing bytes keeps the canonical form. -/
theorem Memory.writes_wf {m : Memory} (a : Nat) (l : List Byte) (h : Memory.wf m = true) : Memory.wf (Memory.writes m a l) = true := by
  induction l generalizing m a with
  | nil => exact h
  | cons b r ih => exact ih (a + 1) (Memory.write_wf a b h)

theorem Memory.read_above {m : Memory} {n a : Nat} (h : Memory.above m n = true) (ha : a < n) : Memory.read m a = 0 := by
  induction m generalizing n with
  | nil => rfl
  | cons e r ih =>
    obtain ⟨k, w⟩ := e
    have hc := (Memory.above_cons k w r n).1 h
    rw [Memory.read, if_neg (by omega)]
    exact ih hc.2 (by omega)

theorem Memory.read_write_above {m : Memory} {n : Nat} (a b : Nat) (v : Byte) (h : Memory.above m n = true) :
    Memory.read (Memory.write m a v) b = if b = a then v else Memory.read m b := by
  induction m generalizing n with
  | nil =>
    rw [Memory.write]
    split
    · next hv => simp [Memory.read, hv]
    · simp [Memory.read, eq_comm]
  | cons e r ih =>
    obtain ⟨k, w⟩ := e
    have hc := (Memory.above_cons k w r n).1 h
    rw [Memory.write]
    split
    · next h1 =>
      split
      · next hv =>
        split
        · next hb =>
          subst hb
          rw [Memory.read, if_neg (by omega), hv]
          exact Memory.read_above hc.2 (by omega)
        · rfl
      · rw [Memory.read]; simp only [eq_comm]
    · split
      · next h2 =>
        subst h2
        split
        · next hv =>
          split
          · next hb => subst hb; rw [hv]; exact Memory.read_above hc.2 (by omega)
          · next hb => rw [Memory.read, if_neg (Ne.symm hb)]
        · rw [Memory.read, Memory.read]
          by_cases hb : b = k
          · rw [if_pos hb.symm, if_pos hb]
          · rw [if_neg (Ne.symm hb), if_neg hb, if_neg (Ne.symm hb)]
      · next h1 h2 =>
        rw [Memory.read, Memory.read, ih hc.2]
        by_cases hb : k = b
        · rw [if_pos hb, if_pos hb, if_neg (by omega)]
        · rw [if_neg hb, if_neg hb]

/-- A read after a write of one byte. -/
theorem Memory.read_write {m : Memory} (a b : Nat) (v : Byte) (h : Memory.wf m = true) :
    Memory.read (Memory.write m a v) b = if b = a then v else Memory.read m b :=
  Memory.read_write_above a b v (by rw [← Memory.wf_iff_above]; exact h)

/-- A read outside the written bytes. -/
theorem Memory.read_writes_out {m : Memory} (a b : Nat) (l : List Byte) (h : Memory.wf m = true) (hb : b < a ∨ a + l.length ≤ b) :
    Memory.read (Memory.writes m a l) b = Memory.read m b := by
  induction l generalizing m a with
  | nil => rfl
  | cons x r ih =>
    simp only [List.length_cons] at hb
    rw [Memory.writes, ih (a + 1) (Memory.write_wf a x h) (by omega), Memory.read_write a b x h, if_neg (by omega)]

/-- A read inside the written bytes. -/
theorem Memory.read_writes_in {m : Memory} (a i : Nat) (l : List Byte) (h : Memory.wf m = true) (hi : i < l.length) :
    Memory.read (Memory.writes m a l) (a + i) = l.getD i 0 := by
  induction l generalizing m a i with
  | nil => simp at hi
  | cons x r ih =>
    cases i with
    | zero => rw [Memory.writes, Memory.read_writes_out _ _ _ (Memory.write_wf a x h) (by omega), Memory.read_write a _ x h]; simp
    | succ i =>
      rw [Memory.writes, show a + (i + 1) = a + 1 + i by omega, ih (a + 1) i (Memory.write_wf a x h) (by simpa using hi)]
      simp

/-- Reading back what was just written. -/
theorem Memory.reads_writes {m : Memory} (a : Nat) (l : List Byte) (h : Memory.wf m = true) :
    Memory.reads (Memory.writes m a l) a l.length = l := by
  apply List.ext_getElem (by simp [Memory.reads])
  intro i h1 h2
  simp only [Memory.reads, List.getElem_map, List.getElem_range]
  rw [Memory.read_writes_in a i l h h2]
  exact List.getD_eq_getElem l 0 h2

/-- The memory right after reset is canonical. -/
theorem State.reset_mem_wf : Memory.wf State.reset.mem = true := rfl

end Sys2Proof.Machine
end

