-- ==== Sys2Proof/Laws/State.lean ====
section
/-! SUPPORT. What each named update of the state leaves as it was: one lemma for each field and update, true by unfolding. -/

set_option Elab.async false

namespace Sys2Proof.Machine

@[simp] theorem State.writeBytes_power (s : State) (k : Nat) (l : List Byte) : (s.writeBytes k l).power = s.power := rfl
@[simp] theorem State.writeBytes_boot (s : State) (k : Nat) (l : List Byte) : (s.writeBytes k l).boot = s.boot := rfl
@[simp] theorem State.writeBytes_flash (s : State) (k : Nat) (l : List Byte) : (s.writeBytes k l).flash = s.flash := rfl
@[simp] theorem State.writeBytes_cfg (s : State) (k : Nat) (l : List Byte) : (s.writeBytes k l).cfg = s.cfg := rfl
@[simp] theorem State.writeBytes_clock (s : State) (k : Nat) (l : List Byte) : (s.writeBytes k l).clock = s.clock := rfl
@[simp] theorem State.writeBytes_throttle (s : State) (k : Nat) (l : List Byte) : (s.writeBytes k l).throttle = s.throttle := rfl
@[simp] theorem State.writeBytes_vers (s : State) (k : Nat) (l : List Byte) : (s.writeBytes k l).vers = s.vers := rfl
@[simp] theorem State.writeBytes_full (s : State) (k : Nat) (l : List Byte) : (s.writeBytes k l).full = s.full := rfl
@[simp] theorem State.writeBytes_stash (s : State) (k : Nat) (l : List Byte) : (s.writeBytes k l).stash = s.stash := rfl
@[simp] theorem State.writeBytes_stashOut (s : State) (k : Nat) (l : List Byte) : (s.writeBytes k l).stashOut = s.stashOut := rfl
@[simp] theorem State.writeBytes_parts (s : State) (k : Nat) (l : List Byte) : (s.writeBytes k l).parts = s.parts := rfl
@[simp] theorem State.writeBytes_elems (s : State) (k : Nat) (l : List Byte) : (s.writeBytes k l).elems = s.elems := rfl
@[simp] theorem State.writeBytes_softErr (s : State) (k : Nat) (l : List Byte) : (s.writeBytes k l).softErr = s.softErr := rfl
@[simp] theorem State.writeBytes_discards (s : State) (k : Nat) (l : List Byte) : (s.writeBytes k l).discards = s.discards := rfl
@[simp] theorem State.writeBytes_edges (s : State) (k : Nat) (l : List Byte) : (s.writeBytes k l).edges = s.edges := rfl
@[simp] theorem State.writeBytes_clusters (s : State) (k : Nat) (l : List Byte) : (s.writeBytes k l).clusters = s.clusters := rfl
@[simp] theorem State.writeBytes_dieTlb (s : State) (k : Nat) (l : List Byte) : (s.writeBytes k l).dieTlb = s.dieTlb := rfl
@[simp] theorem State.writeBytes_chains (s : State) (k : Nat) (l : List Byte) : (s.writeBytes k l).chains = s.chains := rfl
@[simp] theorem State.writeBytes_engines (s : State) (k : Nat) (l : List Byte) : (s.writeBytes k l).engines = s.engines := rfl
@[simp] theorem State.writeBytes_regions (s : State) (k : Nat) (l : List Byte) : (s.writeBytes k l).regions = s.regions := rfl
@[simp] theorem State.writeBytes_launches (s : State) (k : Nat) (l : List Byte) : (s.writeBytes k l).launches = s.launches := rfl
@[simp] theorem State.writeBytes_binds (s : State) (k : Nat) (l : List Byte) : (s.writeBytes k l).binds = s.binds := rfl
@[simp] theorem State.writeBytes_reqs (s : State) (k : Nat) (l : List Byte) : (s.writeBytes k l).reqs = s.reqs := rfl
@[simp] theorem State.writeBytes_locks (s : State) (k : Nat) (l : List Byte) : (s.writeBytes k l).locks = s.locks := rfl
@[simp] theorem State.writeBytes_thatch (s : State) (k : Nat) (l : List Byte) : (s.writeBytes k l).thatch = s.thatch := rfl
@[simp] theorem State.writeBytes_colls (s : State) (k : Nat) (l : List Byte) : (s.writeBytes k l).colls = s.colls := rfl
@[simp] theorem State.writeBytes_digests (s : State) (k : Nat) (l : List Byte) : (s.writeBytes k l).digests = s.digests := rfl
@[simp] theorem State.writeBytes_refused (s : State) (k : Nat) (l : List Byte) : (s.writeBytes k l).refused = s.refused := rfl
@[simp] theorem State.writeBytes_outbox (s : State) (k : Nat) (l : List Byte) : (s.writeBytes k l).outbox = s.outbox := rfl
@[simp] theorem State.writeBytes_faulty (s : State) (k : Nat) (l : List Byte) : (s.writeBytes k l).faulty = s.faulty := rfl
@[simp] theorem State.writeBytes_parked (s : State) (k : Nat) (l : List Byte) : (s.writeBytes k l).parked = s.parked := rfl
@[simp] theorem State.writeBytes_inbox (s : State) (k : Nat) (l : List Byte) : (s.writeBytes k l).inbox = s.inbox := rfl
@[simp] theorem State.writeBytes_serial (s : State) (k : Nat) (l : List Byte) : (s.writeBytes k l).serial = s.serial := rfl
@[simp] theorem State.writeBytes_agenda (s : State) (k : Nat) (l : List Byte) : (s.writeBytes k l).agenda = s.agenda := rfl
@[simp] theorem State.writeBytes_stepNo (s : State) (k : Nat) (l : List Byte) : (s.writeBytes k l).stepNo = s.stepNo := rfl
@[simp] theorem State.writeBytes_focus (s : State) (k : Nat) (l : List Byte) : (s.writeBytes k l).focus = s.focus := rfl

@[simp] theorem State.modPart_power (s : State) (p : Nat) (f : Part → Part) : (s.modPart p f).power = s.power := rfl
@[simp] theorem State.modPart_boot (s : State) (p : Nat) (f : Part → Part) : (s.modPart p f).boot = s.boot := rfl
@[simp] theorem State.modPart_flash (s : State) (p : Nat) (f : Part → Part) : (s.modPart p f).flash = s.flash := rfl
@[simp] theorem State.modPart_cfg (s : State) (p : Nat) (f : Part → Part) : (s.modPart p f).cfg = s.cfg := rfl
@[simp] theorem State.modPart_clock (s : State) (p : Nat) (f : Part → Part) : (s.modPart p f).clock = s.clock := rfl
@[simp] theorem State.modPart_throttle (s : State) (p : Nat) (f : Part → Part) : (s.modPart p f).throttle = s.throttle := rfl
@[simp] theorem State.modPart_mem (s : State) (p : Nat) (f : Part → Part) : (s.modPart p f).mem = s.mem := rfl
@[simp] theorem State.modPart_vers (s : State) (p : Nat) (f : Part → Part) : (s.modPart p f).vers = s.vers := rfl
@[simp] theorem State.modPart_full (s : State) (p : Nat) (f : Part → Part) : (s.modPart p f).full = s.full := rfl
@[simp] theorem State.modPart_stash (s : State) (p : Nat) (f : Part → Part) : (s.modPart p f).stash = s.stash := rfl
@[simp] theorem State.modPart_stashOut (s : State) (p : Nat) (f : Part → Part) : (s.modPart p f).stashOut = s.stashOut := rfl
@[simp] theorem State.modPart_elems (s : State) (p : Nat) (f : Part → Part) : (s.modPart p f).elems = s.elems := rfl
@[simp] theorem State.modPart_softErr (s : State) (p : Nat) (f : Part → Part) : (s.modPart p f).softErr = s.softErr := rfl
@[simp] theorem State.modPart_discards (s : State) (p : Nat) (f : Part → Part) : (s.modPart p f).discards = s.discards := rfl
@[simp] theorem State.modPart_edges (s : State) (p : Nat) (f : Part → Part) : (s.modPart p f).edges = s.edges := rfl
@[simp] theorem State.modPart_clusters (s : State) (p : Nat) (f : Part → Part) : (s.modPart p f).clusters = s.clusters := rfl
@[simp] theorem State.modPart_dieTlb (s : State) (p : Nat) (f : Part → Part) : (s.modPart p f).dieTlb = s.dieTlb := rfl
@[simp] theorem State.modPart_chains (s : State) (p : Nat) (f : Part → Part) : (s.modPart p f).chains = s.chains := rfl
@[simp] theorem State.modPart_engines (s : State) (p : Nat) (f : Part → Part) : (s.modPart p f).engines = s.engines := rfl
@[simp] theorem State.modPart_regions (s : State) (p : Nat) (f : Part → Part) : (s.modPart p f).regions = s.regions := rfl
@[simp] theorem State.modPart_launches (s : State) (p : Nat) (f : Part → Part) : (s.modPart p f).launches = s.launches := rfl
@[simp] theorem State.modPart_binds (s : State) (p : Nat) (f : Part → Part) : (s.modPart p f).binds = s.binds := rfl
@[simp] theorem State.modPart_reqs (s : State) (p : Nat) (f : Part → Part) : (s.modPart p f).reqs = s.reqs := rfl
@[simp] theorem State.modPart_locks (s : State) (p : Nat) (f : Part → Part) : (s.modPart p f).locks = s.locks := rfl
@[simp] theorem State.modPart_thatch (s : State) (p : Nat) (f : Part → Part) : (s.modPart p f).thatch = s.thatch := rfl
@[simp] theorem State.modPart_colls (s : State) (p : Nat) (f : Part → Part) : (s.modPart p f).colls = s.colls := rfl
@[simp] theorem State.modPart_digests (s : State) (p : Nat) (f : Part → Part) : (s.modPart p f).digests = s.digests := rfl
@[simp] theorem State.modPart_refused (s : State) (p : Nat) (f : Part → Part) : (s.modPart p f).refused = s.refused := rfl
@[simp] theorem State.modPart_outbox (s : State) (p : Nat) (f : Part → Part) : (s.modPart p f).outbox = s.outbox := rfl
@[simp] theorem State.modPart_faulty (s : State) (p : Nat) (f : Part → Part) : (s.modPart p f).faulty = s.faulty := rfl
@[simp] theorem State.modPart_parked (s : State) (p : Nat) (f : Part → Part) : (s.modPart p f).parked = s.parked := rfl
@[simp] theorem State.modPart_inbox (s : State) (p : Nat) (f : Part → Part) : (s.modPart p f).inbox = s.inbox := rfl
@[simp] theorem State.modPart_serial (s : State) (p : Nat) (f : Part → Part) : (s.modPart p f).serial = s.serial := rfl
@[simp] theorem State.modPart_agenda (s : State) (p : Nat) (f : Part → Part) : (s.modPart p f).agenda = s.agenda := rfl
@[simp] theorem State.modPart_stepNo (s : State) (p : Nat) (f : Part → Part) : (s.modPart p f).stepNo = s.stepNo := rfl
@[simp] theorem State.modPart_focus (s : State) (p : Nat) (f : Part → Part) : (s.modPart p f).focus = s.focus := rfl

@[simp] theorem State.modElem_power (s : State) (r : Nat) (f : Elem → Elem) : (s.modElem r f).power = s.power := rfl
@[simp] theorem State.modElem_boot (s : State) (r : Nat) (f : Elem → Elem) : (s.modElem r f).boot = s.boot := rfl
@[simp] theorem State.modElem_flash (s : State) (r : Nat) (f : Elem → Elem) : (s.modElem r f).flash = s.flash := rfl
@[simp] theorem State.modElem_cfg (s : State) (r : Nat) (f : Elem → Elem) : (s.modElem r f).cfg = s.cfg := rfl
@[simp] theorem State.modElem_clock (s : State) (r : Nat) (f : Elem → Elem) : (s.modElem r f).clock = s.clock := rfl
@[simp] theorem State.modElem_throttle (s : State) (r : Nat) (f : Elem → Elem) : (s.modElem r f).throttle = s.throttle := rfl
@[simp] theorem State.modElem_mem (s : State) (r : Nat) (f : Elem → Elem) : (s.modElem r f).mem = s.mem := rfl
@[simp] theorem State.modElem_vers (s : State) (r : Nat) (f : Elem → Elem) : (s.modElem r f).vers = s.vers := rfl
@[simp] theorem State.modElem_full (s : State) (r : Nat) (f : Elem → Elem) : (s.modElem r f).full = s.full := rfl
@[simp] theorem State.modElem_stash (s : State) (r : Nat) (f : Elem → Elem) : (s.modElem r f).stash = s.stash := rfl
@[simp] theorem State.modElem_stashOut (s : State) (r : Nat) (f : Elem → Elem) : (s.modElem r f).stashOut = s.stashOut := rfl
@[simp] theorem State.modElem_parts (s : State) (r : Nat) (f : Elem → Elem) : (s.modElem r f).parts = s.parts := rfl
@[simp] theorem State.modElem_softErr (s : State) (r : Nat) (f : Elem → Elem) : (s.modElem r f).softErr = s.softErr := rfl
@[simp] theorem State.modElem_discards (s : State) (r : Nat) (f : Elem → Elem) : (s.modElem r f).discards = s.discards := rfl
@[simp] theorem State.modElem_edges (s : State) (r : Nat) (f : Elem → Elem) : (s.modElem r f).edges = s.edges := rfl
@[simp] theorem State.modElem_clusters (s : State) (r : Nat) (f : Elem → Elem) : (s.modElem r f).clusters = s.clusters := rfl
@[simp] theorem State.modElem_dieTlb (s : State) (r : Nat) (f : Elem → Elem) : (s.modElem r f).dieTlb = s.dieTlb := rfl
@[simp] theorem State.modElem_chains (s : State) (r : Nat) (f : Elem → Elem) : (s.modElem r f).chains = s.chains := rfl
@[simp] theorem State.modElem_engines (s : State) (r : Nat) (f : Elem → Elem) : (s.modElem r f).engines = s.engines := rfl
@[simp] theorem State.modElem_regions (s : State) (r : Nat) (f : Elem → Elem) : (s.modElem r f).regions = s.regions := rfl
@[simp] theorem State.modElem_launches (s : State) (r : Nat) (f : Elem → Elem) : (s.modElem r f).launches = s.launches := rfl
@[simp] theorem State.modElem_binds (s : State) (r : Nat) (f : Elem → Elem) : (s.modElem r f).binds = s.binds := rfl
@[simp] theorem State.modElem_reqs (s : State) (r : Nat) (f : Elem → Elem) : (s.modElem r f).reqs = s.reqs := rfl
@[simp] theorem State.modElem_locks (s : State) (r : Nat) (f : Elem → Elem) : (s.modElem r f).locks = s.locks := rfl
@[simp] theorem State.modElem_thatch (s : State) (r : Nat) (f : Elem → Elem) : (s.modElem r f).thatch = s.thatch := rfl
@[simp] theorem State.modElem_colls (s : State) (r : Nat) (f : Elem → Elem) : (s.modElem r f).colls = s.colls := rfl
@[simp] theorem State.modElem_digests (s : State) (r : Nat) (f : Elem → Elem) : (s.modElem r f).digests = s.digests := rfl
@[simp] theorem State.modElem_refused (s : State) (r : Nat) (f : Elem → Elem) : (s.modElem r f).refused = s.refused := rfl
@[simp] theorem State.modElem_outbox (s : State) (r : Nat) (f : Elem → Elem) : (s.modElem r f).outbox = s.outbox := rfl
@[simp] theorem State.modElem_faulty (s : State) (r : Nat) (f : Elem → Elem) : (s.modElem r f).faulty = s.faulty := rfl
@[simp] theorem State.modElem_parked (s : State) (r : Nat) (f : Elem → Elem) : (s.modElem r f).parked = s.parked := rfl
@[simp] theorem State.modElem_inbox (s : State) (r : Nat) (f : Elem → Elem) : (s.modElem r f).inbox = s.inbox := rfl
@[simp] theorem State.modElem_serial (s : State) (r : Nat) (f : Elem → Elem) : (s.modElem r f).serial = s.serial := rfl
@[simp] theorem State.modElem_agenda (s : State) (r : Nat) (f : Elem → Elem) : (s.modElem r f).agenda = s.agenda := rfl
@[simp] theorem State.modElem_stepNo (s : State) (r : Nat) (f : Elem → Elem) : (s.modElem r f).stepNo = s.stepNo := rfl
@[simp] theorem State.modElem_focus (s : State) (r : Nat) (f : Elem → Elem) : (s.modElem r f).focus = s.focus := rfl

@[simp] theorem State.modCluster_power (s : State) (c : Nat) (f : Cluster → Cluster) : (s.modCluster c f).power = s.power := rfl
@[simp] theorem State.modCluster_boot (s : State) (c : Nat) (f : Cluster → Cluster) : (s.modCluster c f).boot = s.boot := rfl
@[simp] theorem State.modCluster_flash (s : State) (c : Nat) (f : Cluster → Cluster) : (s.modCluster c f).flash = s.flash := rfl
@[simp] theorem State.modCluster_cfg (s : State) (c : Nat) (f : Cluster → Cluster) : (s.modCluster c f).cfg = s.cfg := rfl
@[simp] theorem State.modCluster_clock (s : State) (c : Nat) (f : Cluster → Cluster) : (s.modCluster c f).clock = s.clock := rfl
@[simp] theorem State.modCluster_throttle (s : State) (c : Nat) (f : Cluster → Cluster) : (s.modCluster c f).throttle = s.throttle := rfl
@[simp] theorem State.modCluster_mem (s : State) (c : Nat) (f : Cluster → Cluster) : (s.modCluster c f).mem = s.mem := rfl
@[simp] theorem State.modCluster_vers (s : State) (c : Nat) (f : Cluster → Cluster) : (s.modCluster c f).vers = s.vers := rfl
@[simp] theorem State.modCluster_full (s : State) (c : Nat) (f : Cluster → Cluster) : (s.modCluster c f).full = s.full := rfl
@[simp] theorem State.modCluster_stash (s : State) (c : Nat) (f : Cluster → Cluster) : (s.modCluster c f).stash = s.stash := rfl
@[simp] theorem State.modCluster_stashOut (s : State) (c : Nat) (f : Cluster → Cluster) : (s.modCluster c f).stashOut = s.stashOut := rfl
@[simp] theorem State.modCluster_parts (s : State) (c : Nat) (f : Cluster → Cluster) : (s.modCluster c f).parts = s.parts := rfl
@[simp] theorem State.modCluster_elems (s : State) (c : Nat) (f : Cluster → Cluster) : (s.modCluster c f).elems = s.elems := rfl
@[simp] theorem State.modCluster_softErr (s : State) (c : Nat) (f : Cluster → Cluster) : (s.modCluster c f).softErr = s.softErr := rfl
@[simp] theorem State.modCluster_discards (s : State) (c : Nat) (f : Cluster → Cluster) : (s.modCluster c f).discards = s.discards := rfl
@[simp] theorem State.modCluster_edges (s : State) (c : Nat) (f : Cluster → Cluster) : (s.modCluster c f).edges = s.edges := rfl
@[simp] theorem State.modCluster_dieTlb (s : State) (c : Nat) (f : Cluster → Cluster) : (s.modCluster c f).dieTlb = s.dieTlb := rfl
@[simp] theorem State.modCluster_chains (s : State) (c : Nat) (f : Cluster → Cluster) : (s.modCluster c f).chains = s.chains := rfl
@[simp] theorem State.modCluster_engines (s : State) (c : Nat) (f : Cluster → Cluster) : (s.modCluster c f).engines = s.engines := rfl
@[simp] theorem State.modCluster_regions (s : State) (c : Nat) (f : Cluster → Cluster) : (s.modCluster c f).regions = s.regions := rfl
@[simp] theorem State.modCluster_launches (s : State) (c : Nat) (f : Cluster → Cluster) : (s.modCluster c f).launches = s.launches := rfl
@[simp] theorem State.modCluster_binds (s : State) (c : Nat) (f : Cluster → Cluster) : (s.modCluster c f).binds = s.binds := rfl
@[simp] theorem State.modCluster_reqs (s : State) (c : Nat) (f : Cluster → Cluster) : (s.modCluster c f).reqs = s.reqs := rfl
@[simp] theorem State.modCluster_locks (s : State) (c : Nat) (f : Cluster → Cluster) : (s.modCluster c f).locks = s.locks := rfl
@[simp] theorem State.modCluster_thatch (s : State) (c : Nat) (f : Cluster → Cluster) : (s.modCluster c f).thatch = s.thatch := rfl
@[simp] theorem State.modCluster_colls (s : State) (c : Nat) (f : Cluster → Cluster) : (s.modCluster c f).colls = s.colls := rfl
@[simp] theorem State.modCluster_digests (s : State) (c : Nat) (f : Cluster → Cluster) : (s.modCluster c f).digests = s.digests := rfl
@[simp] theorem State.modCluster_refused (s : State) (c : Nat) (f : Cluster → Cluster) : (s.modCluster c f).refused = s.refused := rfl
@[simp] theorem State.modCluster_outbox (s : State) (c : Nat) (f : Cluster → Cluster) : (s.modCluster c f).outbox = s.outbox := rfl
@[simp] theorem State.modCluster_faulty (s : State) (c : Nat) (f : Cluster → Cluster) : (s.modCluster c f).faulty = s.faulty := rfl
@[simp] theorem State.modCluster_parked (s : State) (c : Nat) (f : Cluster → Cluster) : (s.modCluster c f).parked = s.parked := rfl
@[simp] theorem State.modCluster_inbox (s : State) (c : Nat) (f : Cluster → Cluster) : (s.modCluster c f).inbox = s.inbox := rfl
@[simp] theorem State.modCluster_serial (s : State) (c : Nat) (f : Cluster → Cluster) : (s.modCluster c f).serial = s.serial := rfl
@[simp] theorem State.modCluster_agenda (s : State) (c : Nat) (f : Cluster → Cluster) : (s.modCluster c f).agenda = s.agenda := rfl
@[simp] theorem State.modCluster_stepNo (s : State) (c : Nat) (f : Cluster → Cluster) : (s.modCluster c f).stepNo = s.stepNo := rfl
@[simp] theorem State.modCluster_focus (s : State) (c : Nat) (f : Cluster → Cluster) : (s.modCluster c f).focus = s.focus := rfl

@[simp] theorem State.modEngine_power (s : State) (d e : Nat) (f : Engine → Engine) : (s.modEngine d e f).power = s.power := rfl
@[simp] theorem State.modEngine_boot (s : State) (d e : Nat) (f : Engine → Engine) : (s.modEngine d e f).boot = s.boot := rfl
@[simp] theorem State.modEngine_flash (s : State) (d e : Nat) (f : Engine → Engine) : (s.modEngine d e f).flash = s.flash := rfl
@[simp] theorem State.modEngine_cfg (s : State) (d e : Nat) (f : Engine → Engine) : (s.modEngine d e f).cfg = s.cfg := rfl
@[simp] theorem State.modEngine_clock (s : State) (d e : Nat) (f : Engine → Engine) : (s.modEngine d e f).clock = s.clock := rfl
@[simp] theorem State.modEngine_throttle (s : State) (d e : Nat) (f : Engine → Engine) : (s.modEngine d e f).throttle = s.throttle := rfl
@[simp] theorem State.modEngine_mem (s : State) (d e : Nat) (f : Engine → Engine) : (s.modEngine d e f).mem = s.mem := rfl
@[simp] theorem State.modEngine_vers (s : State) (d e : Nat) (f : Engine → Engine) : (s.modEngine d e f).vers = s.vers := rfl
@[simp] theorem State.modEngine_full (s : State) (d e : Nat) (f : Engine → Engine) : (s.modEngine d e f).full = s.full := rfl
@[simp] theorem State.modEngine_stash (s : State) (d e : Nat) (f : Engine → Engine) : (s.modEngine d e f).stash = s.stash := rfl
@[simp] theorem State.modEngine_stashOut (s : State) (d e : Nat) (f : Engine → Engine) : (s.modEngine d e f).stashOut = s.stashOut := rfl
@[simp] theorem State.modEngine_parts (s : State) (d e : Nat) (f : Engine → Engine) : (s.modEngine d e f).parts = s.parts := rfl
@[simp] theorem State.modEngine_elems (s : State) (d e : Nat) (f : Engine → Engine) : (s.modEngine d e f).elems = s.elems := rfl
@[simp] theorem State.modEngine_softErr (s : State) (d e : Nat) (f : Engine → Engine) : (s.modEngine d e f).softErr = s.softErr := rfl
@[simp] theorem State.modEngine_discards (s : State) (d e : Nat) (f : Engine → Engine) : (s.modEngine d e f).discards = s.discards := rfl
@[simp] theorem State.modEngine_edges (s : State) (d e : Nat) (f : Engine → Engine) : (s.modEngine d e f).edges = s.edges := rfl
@[simp] theorem State.modEngine_clusters (s : State) (d e : Nat) (f : Engine → Engine) : (s.modEngine d e f).clusters = s.clusters := rfl
@[simp] theorem State.modEngine_dieTlb (s : State) (d e : Nat) (f : Engine → Engine) : (s.modEngine d e f).dieTlb = s.dieTlb := rfl
@[simp] theorem State.modEngine_chains (s : State) (d e : Nat) (f : Engine → Engine) : (s.modEngine d e f).chains = s.chains := rfl
@[simp] theorem State.modEngine_regions (s : State) (d e : Nat) (f : Engine → Engine) : (s.modEngine d e f).regions = s.regions := rfl
@[simp] theorem State.modEngine_launches (s : State) (d e : Nat) (f : Engine → Engine) : (s.modEngine d e f).launches = s.launches := rfl
@[simp] theorem State.modEngine_binds (s : State) (d e : Nat) (f : Engine → Engine) : (s.modEngine d e f).binds = s.binds := rfl
@[simp] theorem State.modEngine_reqs (s : State) (d e : Nat) (f : Engine → Engine) : (s.modEngine d e f).reqs = s.reqs := rfl
@[simp] theorem State.modEngine_locks (s : State) (d e : Nat) (f : Engine → Engine) : (s.modEngine d e f).locks = s.locks := rfl
@[simp] theorem State.modEngine_thatch (s : State) (d e : Nat) (f : Engine → Engine) : (s.modEngine d e f).thatch = s.thatch := rfl
@[simp] theorem State.modEngine_colls (s : State) (d e : Nat) (f : Engine → Engine) : (s.modEngine d e f).colls = s.colls := rfl
@[simp] theorem State.modEngine_digests (s : State) (d e : Nat) (f : Engine → Engine) : (s.modEngine d e f).digests = s.digests := rfl
@[simp] theorem State.modEngine_refused (s : State) (d e : Nat) (f : Engine → Engine) : (s.modEngine d e f).refused = s.refused := rfl
@[simp] theorem State.modEngine_outbox (s : State) (d e : Nat) (f : Engine → Engine) : (s.modEngine d e f).outbox = s.outbox := rfl
@[simp] theorem State.modEngine_faulty (s : State) (d e : Nat) (f : Engine → Engine) : (s.modEngine d e f).faulty = s.faulty := rfl
@[simp] theorem State.modEngine_parked (s : State) (d e : Nat) (f : Engine → Engine) : (s.modEngine d e f).parked = s.parked := rfl
@[simp] theorem State.modEngine_inbox (s : State) (d e : Nat) (f : Engine → Engine) : (s.modEngine d e f).inbox = s.inbox := rfl
@[simp] theorem State.modEngine_serial (s : State) (d e : Nat) (f : Engine → Engine) : (s.modEngine d e f).serial = s.serial := rfl
@[simp] theorem State.modEngine_agenda (s : State) (d e : Nat) (f : Engine → Engine) : (s.modEngine d e f).agenda = s.agenda := rfl
@[simp] theorem State.modEngine_stepNo (s : State) (d e : Nat) (f : Engine → Engine) : (s.modEngine d e f).stepNo = s.stepNo := rfl
@[simp] theorem State.modEngine_focus (s : State) (d e : Nat) (f : Engine → Engine) : (s.modEngine d e f).focus = s.focus := rfl

@[simp] theorem State.modLaunch_power (s : State) (l : Nat) (f : Launch → Launch) : (s.modLaunch l f).power = s.power := rfl
@[simp] theorem State.modLaunch_boot (s : State) (l : Nat) (f : Launch → Launch) : (s.modLaunch l f).boot = s.boot := rfl
@[simp] theorem State.modLaunch_flash (s : State) (l : Nat) (f : Launch → Launch) : (s.modLaunch l f).flash = s.flash := rfl
@[simp] theorem State.modLaunch_cfg (s : State) (l : Nat) (f : Launch → Launch) : (s.modLaunch l f).cfg = s.cfg := rfl
@[simp] theorem State.modLaunch_clock (s : State) (l : Nat) (f : Launch → Launch) : (s.modLaunch l f).clock = s.clock := rfl
@[simp] theorem State.modLaunch_throttle (s : State) (l : Nat) (f : Launch → Launch) : (s.modLaunch l f).throttle = s.throttle := rfl
@[simp] theorem State.modLaunch_mem (s : State) (l : Nat) (f : Launch → Launch) : (s.modLaunch l f).mem = s.mem := rfl
@[simp] theorem State.modLaunch_vers (s : State) (l : Nat) (f : Launch → Launch) : (s.modLaunch l f).vers = s.vers := rfl
@[simp] theorem State.modLaunch_full (s : State) (l : Nat) (f : Launch → Launch) : (s.modLaunch l f).full = s.full := rfl
@[simp] theorem State.modLaunch_stash (s : State) (l : Nat) (f : Launch → Launch) : (s.modLaunch l f).stash = s.stash := rfl
@[simp] theorem State.modLaunch_stashOut (s : State) (l : Nat) (f : Launch → Launch) : (s.modLaunch l f).stashOut = s.stashOut := rfl
@[simp] theorem State.modLaunch_parts (s : State) (l : Nat) (f : Launch → Launch) : (s.modLaunch l f).parts = s.parts := rfl
@[simp] theorem State.modLaunch_elems (s : State) (l : Nat) (f : Launch → Launch) : (s.modLaunch l f).elems = s.elems := rfl
@[simp] theorem State.modLaunch_softErr (s : State) (l : Nat) (f : Launch → Launch) : (s.modLaunch l f).softErr = s.softErr := rfl
@[simp] theorem State.modLaunch_discards (s : State) (l : Nat) (f : Launch → Launch) : (s.modLaunch l f).discards = s.discards := rfl
@[simp] theorem State.modLaunch_edges (s : State) (l : Nat) (f : Launch → Launch) : (s.modLaunch l f).edges = s.edges := rfl
@[simp] theorem State.modLaunch_clusters (s : State) (l : Nat) (f : Launch → Launch) : (s.modLaunch l f).clusters = s.clusters := rfl
@[simp] theorem State.modLaunch_dieTlb (s : State) (l : Nat) (f : Launch → Launch) : (s.modLaunch l f).dieTlb = s.dieTlb := rfl
@[simp] theorem State.modLaunch_chains (s : State) (l : Nat) (f : Launch → Launch) : (s.modLaunch l f).chains = s.chains := rfl
@[simp] theorem State.modLaunch_engines (s : State) (l : Nat) (f : Launch → Launch) : (s.modLaunch l f).engines = s.engines := rfl
@[simp] theorem State.modLaunch_regions (s : State) (l : Nat) (f : Launch → Launch) : (s.modLaunch l f).regions = s.regions := rfl
@[simp] theorem State.modLaunch_binds (s : State) (l : Nat) (f : Launch → Launch) : (s.modLaunch l f).binds = s.binds := rfl
@[simp] theorem State.modLaunch_reqs (s : State) (l : Nat) (f : Launch → Launch) : (s.modLaunch l f).reqs = s.reqs := rfl
@[simp] theorem State.modLaunch_locks (s : State) (l : Nat) (f : Launch → Launch) : (s.modLaunch l f).locks = s.locks := rfl
@[simp] theorem State.modLaunch_thatch (s : State) (l : Nat) (f : Launch → Launch) : (s.modLaunch l f).thatch = s.thatch := rfl
@[simp] theorem State.modLaunch_colls (s : State) (l : Nat) (f : Launch → Launch) : (s.modLaunch l f).colls = s.colls := rfl
@[simp] theorem State.modLaunch_digests (s : State) (l : Nat) (f : Launch → Launch) : (s.modLaunch l f).digests = s.digests := rfl
@[simp] theorem State.modLaunch_refused (s : State) (l : Nat) (f : Launch → Launch) : (s.modLaunch l f).refused = s.refused := rfl
@[simp] theorem State.modLaunch_outbox (s : State) (l : Nat) (f : Launch → Launch) : (s.modLaunch l f).outbox = s.outbox := rfl
@[simp] theorem State.modLaunch_faulty (s : State) (l : Nat) (f : Launch → Launch) : (s.modLaunch l f).faulty = s.faulty := rfl
@[simp] theorem State.modLaunch_parked (s : State) (l : Nat) (f : Launch → Launch) : (s.modLaunch l f).parked = s.parked := rfl
@[simp] theorem State.modLaunch_inbox (s : State) (l : Nat) (f : Launch → Launch) : (s.modLaunch l f).inbox = s.inbox := rfl
@[simp] theorem State.modLaunch_serial (s : State) (l : Nat) (f : Launch → Launch) : (s.modLaunch l f).serial = s.serial := rfl
@[simp] theorem State.modLaunch_agenda (s : State) (l : Nat) (f : Launch → Launch) : (s.modLaunch l f).agenda = s.agenda := rfl
@[simp] theorem State.modLaunch_stepNo (s : State) (l : Nat) (f : Launch → Launch) : (s.modLaunch l f).stepNo = s.stepNo := rfl
@[simp] theorem State.modLaunch_focus (s : State) (l : Nat) (f : Launch → Launch) : (s.modLaunch l f).focus = s.focus := rfl

@[simp] theorem State.modReq_power (s : State) (q : Nat) (f : Req → Req) : (s.modReq q f).power = s.power := rfl
@[simp] theorem State.modReq_boot (s : State) (q : Nat) (f : Req → Req) : (s.modReq q f).boot = s.boot := rfl
@[simp] theorem State.modReq_flash (s : State) (q : Nat) (f : Req → Req) : (s.modReq q f).flash = s.flash := rfl
@[simp] theorem State.modReq_cfg (s : State) (q : Nat) (f : Req → Req) : (s.modReq q f).cfg = s.cfg := rfl
@[simp] theorem State.modReq_clock (s : State) (q : Nat) (f : Req → Req) : (s.modReq q f).clock = s.clock := rfl
@[simp] theorem State.modReq_throttle (s : State) (q : Nat) (f : Req → Req) : (s.modReq q f).throttle = s.throttle := rfl
@[simp] theorem State.modReq_mem (s : State) (q : Nat) (f : Req → Req) : (s.modReq q f).mem = s.mem := rfl
@[simp] theorem State.modReq_vers (s : State) (q : Nat) (f : Req → Req) : (s.modReq q f).vers = s.vers := rfl
@[simp] theorem State.modReq_full (s : State) (q : Nat) (f : Req → Req) : (s.modReq q f).full = s.full := rfl
@[simp] theorem State.modReq_stash (s : State) (q : Nat) (f : Req → Req) : (s.modReq q f).stash = s.stash := rfl
@[simp] theorem State.modReq_stashOut (s : State) (q : Nat) (f : Req → Req) : (s.modReq q f).stashOut = s.stashOut := rfl
@[simp] theorem State.modReq_parts (s : State) (q : Nat) (f : Req → Req) : (s.modReq q f).parts = s.parts := rfl
@[simp] theorem State.modReq_elems (s : State) (q : Nat) (f : Req → Req) : (s.modReq q f).elems = s.elems := rfl
@[simp] theorem State.modReq_softErr (s : State) (q : Nat) (f : Req → Req) : (s.modReq q f).softErr = s.softErr := rfl
@[simp] theorem State.modReq_discards (s : State) (q : Nat) (f : Req → Req) : (s.modReq q f).discards = s.discards := rfl
@[simp] theorem State.modReq_edges (s : State) (q : Nat) (f : Req → Req) : (s.modReq q f).edges = s.edges := rfl
@[simp] theorem State.modReq_clusters (s : State) (q : Nat) (f : Req → Req) : (s.modReq q f).clusters = s.clusters := rfl
@[simp] theorem State.modReq_dieTlb (s : State) (q : Nat) (f : Req → Req) : (s.modReq q f).dieTlb = s.dieTlb := rfl
@[simp] theorem State.modReq_chains (s : State) (q : Nat) (f : Req → Req) : (s.modReq q f).chains = s.chains := rfl
@[simp] theorem State.modReq_engines (s : State) (q : Nat) (f : Req → Req) : (s.modReq q f).engines = s.engines := rfl
@[simp] theorem State.modReq_regions (s : State) (q : Nat) (f : Req → Req) : (s.modReq q f).regions = s.regions := rfl
@[simp] theorem State.modReq_launches (s : State) (q : Nat) (f : Req → Req) : (s.modReq q f).launches = s.launches := rfl
@[simp] theorem State.modReq_binds (s : State) (q : Nat) (f : Req → Req) : (s.modReq q f).binds = s.binds := rfl
@[simp] theorem State.modReq_locks (s : State) (q : Nat) (f : Req → Req) : (s.modReq q f).locks = s.locks := rfl
@[simp] theorem State.modReq_thatch (s : State) (q : Nat) (f : Req → Req) : (s.modReq q f).thatch = s.thatch := rfl
@[simp] theorem State.modReq_colls (s : State) (q : Nat) (f : Req → Req) : (s.modReq q f).colls = s.colls := rfl
@[simp] theorem State.modReq_digests (s : State) (q : Nat) (f : Req → Req) : (s.modReq q f).digests = s.digests := rfl
@[simp] theorem State.modReq_refused (s : State) (q : Nat) (f : Req → Req) : (s.modReq q f).refused = s.refused := rfl
@[simp] theorem State.modReq_outbox (s : State) (q : Nat) (f : Req → Req) : (s.modReq q f).outbox = s.outbox := rfl
@[simp] theorem State.modReq_faulty (s : State) (q : Nat) (f : Req → Req) : (s.modReq q f).faulty = s.faulty := rfl
@[simp] theorem State.modReq_parked (s : State) (q : Nat) (f : Req → Req) : (s.modReq q f).parked = s.parked := rfl
@[simp] theorem State.modReq_inbox (s : State) (q : Nat) (f : Req → Req) : (s.modReq q f).inbox = s.inbox := rfl
@[simp] theorem State.modReq_serial (s : State) (q : Nat) (f : Req → Req) : (s.modReq q f).serial = s.serial := rfl
@[simp] theorem State.modReq_agenda (s : State) (q : Nat) (f : Req → Req) : (s.modReq q f).agenda = s.agenda := rfl
@[simp] theorem State.modReq_stepNo (s : State) (q : Nat) (f : Req → Req) : (s.modReq q f).stepNo = s.stepNo := rfl
@[simp] theorem State.modReq_focus (s : State) (q : Nat) (f : Req → Req) : (s.modReq q f).focus = s.focus := rfl

@[simp] theorem State.dropReq_power (s : State) (q : Nat) : (s.dropReq q).power = s.power := rfl
@[simp] theorem State.dropReq_boot (s : State) (q : Nat) : (s.dropReq q).boot = s.boot := rfl
@[simp] theorem State.dropReq_flash (s : State) (q : Nat) : (s.dropReq q).flash = s.flash := rfl
@[simp] theorem State.dropReq_cfg (s : State) (q : Nat) : (s.dropReq q).cfg = s.cfg := rfl
@[simp] theorem State.dropReq_clock (s : State) (q : Nat) : (s.dropReq q).clock = s.clock := rfl
@[simp] theorem State.dropReq_throttle (s : State) (q : Nat) : (s.dropReq q).throttle = s.throttle := rfl
@[simp] theorem State.dropReq_mem (s : State) (q : Nat) : (s.dropReq q).mem = s.mem := rfl
@[simp] theorem State.dropReq_vers (s : State) (q : Nat) : (s.dropReq q).vers = s.vers := rfl
@[simp] theorem State.dropReq_full (s : State) (q : Nat) : (s.dropReq q).full = s.full := rfl
@[simp] theorem State.dropReq_stash (s : State) (q : Nat) : (s.dropReq q).stash = s.stash := rfl
@[simp] theorem State.dropReq_stashOut (s : State) (q : Nat) : (s.dropReq q).stashOut = s.stashOut := rfl
@[simp] theorem State.dropReq_parts (s : State) (q : Nat) : (s.dropReq q).parts = s.parts := rfl
@[simp] theorem State.dropReq_elems (s : State) (q : Nat) : (s.dropReq q).elems = s.elems := rfl
@[simp] theorem State.dropReq_softErr (s : State) (q : Nat) : (s.dropReq q).softErr = s.softErr := rfl
@[simp] theorem State.dropReq_discards (s : State) (q : Nat) : (s.dropReq q).discards = s.discards := rfl
@[simp] theorem State.dropReq_edges (s : State) (q : Nat) : (s.dropReq q).edges = s.edges := rfl
@[simp] theorem State.dropReq_clusters (s : State) (q : Nat) : (s.dropReq q).clusters = s.clusters := rfl
@[simp] theorem State.dropReq_dieTlb (s : State) (q : Nat) : (s.dropReq q).dieTlb = s.dieTlb := rfl
@[simp] theorem State.dropReq_chains (s : State) (q : Nat) : (s.dropReq q).chains = s.chains := rfl
@[simp] theorem State.dropReq_engines (s : State) (q : Nat) : (s.dropReq q).engines = s.engines := rfl
@[simp] theorem State.dropReq_regions (s : State) (q : Nat) : (s.dropReq q).regions = s.regions := rfl
@[simp] theorem State.dropReq_launches (s : State) (q : Nat) : (s.dropReq q).launches = s.launches := rfl
@[simp] theorem State.dropReq_binds (s : State) (q : Nat) : (s.dropReq q).binds = s.binds := rfl
@[simp] theorem State.dropReq_locks (s : State) (q : Nat) : (s.dropReq q).locks = s.locks := rfl
@[simp] theorem State.dropReq_thatch (s : State) (q : Nat) : (s.dropReq q).thatch = s.thatch := rfl
@[simp] theorem State.dropReq_colls (s : State) (q : Nat) : (s.dropReq q).colls = s.colls := rfl
@[simp] theorem State.dropReq_digests (s : State) (q : Nat) : (s.dropReq q).digests = s.digests := rfl
@[simp] theorem State.dropReq_refused (s : State) (q : Nat) : (s.dropReq q).refused = s.refused := rfl
@[simp] theorem State.dropReq_outbox (s : State) (q : Nat) : (s.dropReq q).outbox = s.outbox := rfl
@[simp] theorem State.dropReq_faulty (s : State) (q : Nat) : (s.dropReq q).faulty = s.faulty := rfl
@[simp] theorem State.dropReq_parked (s : State) (q : Nat) : (s.dropReq q).parked = s.parked := rfl
@[simp] theorem State.dropReq_inbox (s : State) (q : Nat) : (s.dropReq q).inbox = s.inbox := rfl
@[simp] theorem State.dropReq_serial (s : State) (q : Nat) : (s.dropReq q).serial = s.serial := rfl
@[simp] theorem State.dropReq_agenda (s : State) (q : Nat) : (s.dropReq q).agenda = s.agenda := rfl
@[simp] theorem State.dropReq_stepNo (s : State) (q : Nat) : (s.dropReq q).stepNo = s.stepNo := rfl
@[simp] theorem State.dropReq_focus (s : State) (q : Nat) : (s.dropReq q).focus = s.focus := rfl

@[simp] theorem State.modEdge_power (s : State) (e : Nat) (f : Edge → Edge) : (s.modEdge e f).power = s.power := rfl
@[simp] theorem State.modEdge_boot (s : State) (e : Nat) (f : Edge → Edge) : (s.modEdge e f).boot = s.boot := rfl
@[simp] theorem State.modEdge_flash (s : State) (e : Nat) (f : Edge → Edge) : (s.modEdge e f).flash = s.flash := rfl
@[simp] theorem State.modEdge_cfg (s : State) (e : Nat) (f : Edge → Edge) : (s.modEdge e f).cfg = s.cfg := rfl
@[simp] theorem State.modEdge_clock (s : State) (e : Nat) (f : Edge → Edge) : (s.modEdge e f).clock = s.clock := rfl
@[simp] theorem State.modEdge_throttle (s : State) (e : Nat) (f : Edge → Edge) : (s.modEdge e f).throttle = s.throttle := rfl
@[simp] theorem State.modEdge_mem (s : State) (e : Nat) (f : Edge → Edge) : (s.modEdge e f).mem = s.mem := rfl
@[simp] theorem State.modEdge_vers (s : State) (e : Nat) (f : Edge → Edge) : (s.modEdge e f).vers = s.vers := rfl
@[simp] theorem State.modEdge_full (s : State) (e : Nat) (f : Edge → Edge) : (s.modEdge e f).full = s.full := rfl
@[simp] theorem State.modEdge_stash (s : State) (e : Nat) (f : Edge → Edge) : (s.modEdge e f).stash = s.stash := rfl
@[simp] theorem State.modEdge_stashOut (s : State) (e : Nat) (f : Edge → Edge) : (s.modEdge e f).stashOut = s.stashOut := rfl
@[simp] theorem State.modEdge_parts (s : State) (e : Nat) (f : Edge → Edge) : (s.modEdge e f).parts = s.parts := rfl
@[simp] theorem State.modEdge_elems (s : State) (e : Nat) (f : Edge → Edge) : (s.modEdge e f).elems = s.elems := rfl
@[simp] theorem State.modEdge_softErr (s : State) (e : Nat) (f : Edge → Edge) : (s.modEdge e f).softErr = s.softErr := rfl
@[simp] theorem State.modEdge_discards (s : State) (e : Nat) (f : Edge → Edge) : (s.modEdge e f).discards = s.discards := rfl
@[simp] theorem State.modEdge_clusters (s : State) (e : Nat) (f : Edge → Edge) : (s.modEdge e f).clusters = s.clusters := rfl
@[simp] theorem State.modEdge_dieTlb (s : State) (e : Nat) (f : Edge → Edge) : (s.modEdge e f).dieTlb = s.dieTlb := rfl
@[simp] theorem State.modEdge_chains (s : State) (e : Nat) (f : Edge → Edge) : (s.modEdge e f).chains = s.chains := rfl
@[simp] theorem State.modEdge_engines (s : State) (e : Nat) (f : Edge → Edge) : (s.modEdge e f).engines = s.engines := rfl
@[simp] theorem State.modEdge_regions (s : State) (e : Nat) (f : Edge → Edge) : (s.modEdge e f).regions = s.regions := rfl
@[simp] theorem State.modEdge_launches (s : State) (e : Nat) (f : Edge → Edge) : (s.modEdge e f).launches = s.launches := rfl
@[simp] theorem State.modEdge_binds (s : State) (e : Nat) (f : Edge → Edge) : (s.modEdge e f).binds = s.binds := rfl
@[simp] theorem State.modEdge_reqs (s : State) (e : Nat) (f : Edge → Edge) : (s.modEdge e f).reqs = s.reqs := rfl
@[simp] theorem State.modEdge_locks (s : State) (e : Nat) (f : Edge → Edge) : (s.modEdge e f).locks = s.locks := rfl
@[simp] theorem State.modEdge_thatch (s : State) (e : Nat) (f : Edge → Edge) : (s.modEdge e f).thatch = s.thatch := rfl
@[simp] theorem State.modEdge_colls (s : State) (e : Nat) (f : Edge → Edge) : (s.modEdge e f).colls = s.colls := rfl
@[simp] theorem State.modEdge_digests (s : State) (e : Nat) (f : Edge → Edge) : (s.modEdge e f).digests = s.digests := rfl
@[simp] theorem State.modEdge_refused (s : State) (e : Nat) (f : Edge → Edge) : (s.modEdge e f).refused = s.refused := rfl
@[simp] theorem State.modEdge_outbox (s : State) (e : Nat) (f : Edge → Edge) : (s.modEdge e f).outbox = s.outbox := rfl
@[simp] theorem State.modEdge_faulty (s : State) (e : Nat) (f : Edge → Edge) : (s.modEdge e f).faulty = s.faulty := rfl
@[simp] theorem State.modEdge_parked (s : State) (e : Nat) (f : Edge → Edge) : (s.modEdge e f).parked = s.parked := rfl
@[simp] theorem State.modEdge_inbox (s : State) (e : Nat) (f : Edge → Edge) : (s.modEdge e f).inbox = s.inbox := rfl
@[simp] theorem State.modEdge_serial (s : State) (e : Nat) (f : Edge → Edge) : (s.modEdge e f).serial = s.serial := rfl
@[simp] theorem State.modEdge_agenda (s : State) (e : Nat) (f : Edge → Edge) : (s.modEdge e f).agenda = s.agenda := rfl
@[simp] theorem State.modEdge_stepNo (s : State) (e : Nat) (f : Edge → Edge) : (s.modEdge e f).stepNo = s.stepNo := rfl
@[simp] theorem State.modEdge_focus (s : State) (e : Nat) (f : Edge → Edge) : (s.modEdge e f).focus = s.focus := rfl

@[simp] theorem State.modRegion_power (s : State) (g : Nat) (f : Region → Region) : (s.modRegion g f).power = s.power := rfl
@[simp] theorem State.modRegion_boot (s : State) (g : Nat) (f : Region → Region) : (s.modRegion g f).boot = s.boot := rfl
@[simp] theorem State.modRegion_flash (s : State) (g : Nat) (f : Region → Region) : (s.modRegion g f).flash = s.flash := rfl
@[simp] theorem State.modRegion_cfg (s : State) (g : Nat) (f : Region → Region) : (s.modRegion g f).cfg = s.cfg := rfl
@[simp] theorem State.modRegion_clock (s : State) (g : Nat) (f : Region → Region) : (s.modRegion g f).clock = s.clock := rfl
@[simp] theorem State.modRegion_throttle (s : State) (g : Nat) (f : Region → Region) : (s.modRegion g f).throttle = s.throttle := rfl
@[simp] theorem State.modRegion_mem (s : State) (g : Nat) (f : Region → Region) : (s.modRegion g f).mem = s.mem := rfl
@[simp] theorem State.modRegion_vers (s : State) (g : Nat) (f : Region → Region) : (s.modRegion g f).vers = s.vers := rfl
@[simp] theorem State.modRegion_full (s : State) (g : Nat) (f : Region → Region) : (s.modRegion g f).full = s.full := rfl
@[simp] theorem State.modRegion_stash (s : State) (g : Nat) (f : Region → Region) : (s.modRegion g f).stash = s.stash := rfl
@[simp] theorem State.modRegion_stashOut (s : State) (g : Nat) (f : Region → Region) : (s.modRegion g f).stashOut = s.stashOut := rfl
@[simp] theorem State.modRegion_parts (s : State) (g : Nat) (f : Region → Region) : (s.modRegion g f).parts = s.parts := rfl
@[simp] theorem State.modRegion_elems (s : State) (g : Nat) (f : Region → Region) : (s.modRegion g f).elems = s.elems := rfl
@[simp] theorem State.modRegion_softErr (s : State) (g : Nat) (f : Region → Region) : (s.modRegion g f).softErr = s.softErr := rfl
@[simp] theorem State.modRegion_discards (s : State) (g : Nat) (f : Region → Region) : (s.modRegion g f).discards = s.discards := rfl
@[simp] theorem State.modRegion_edges (s : State) (g : Nat) (f : Region → Region) : (s.modRegion g f).edges = s.edges := rfl
@[simp] theorem State.modRegion_clusters (s : State) (g : Nat) (f : Region → Region) : (s.modRegion g f).clusters = s.clusters := rfl
@[simp] theorem State.modRegion_dieTlb (s : State) (g : Nat) (f : Region → Region) : (s.modRegion g f).dieTlb = s.dieTlb := rfl
@[simp] theorem State.modRegion_chains (s : State) (g : Nat) (f : Region → Region) : (s.modRegion g f).chains = s.chains := rfl
@[simp] theorem State.modRegion_engines (s : State) (g : Nat) (f : Region → Region) : (s.modRegion g f).engines = s.engines := rfl
@[simp] theorem State.modRegion_launches (s : State) (g : Nat) (f : Region → Region) : (s.modRegion g f).launches = s.launches := rfl
@[simp] theorem State.modRegion_binds (s : State) (g : Nat) (f : Region → Region) : (s.modRegion g f).binds = s.binds := rfl
@[simp] theorem State.modRegion_reqs (s : State) (g : Nat) (f : Region → Region) : (s.modRegion g f).reqs = s.reqs := rfl
@[simp] theorem State.modRegion_locks (s : State) (g : Nat) (f : Region → Region) : (s.modRegion g f).locks = s.locks := rfl
@[simp] theorem State.modRegion_thatch (s : State) (g : Nat) (f : Region → Region) : (s.modRegion g f).thatch = s.thatch := rfl
@[simp] theorem State.modRegion_colls (s : State) (g : Nat) (f : Region → Region) : (s.modRegion g f).colls = s.colls := rfl
@[simp] theorem State.modRegion_digests (s : State) (g : Nat) (f : Region → Region) : (s.modRegion g f).digests = s.digests := rfl
@[simp] theorem State.modRegion_refused (s : State) (g : Nat) (f : Region → Region) : (s.modRegion g f).refused = s.refused := rfl
@[simp] theorem State.modRegion_outbox (s : State) (g : Nat) (f : Region → Region) : (s.modRegion g f).outbox = s.outbox := rfl
@[simp] theorem State.modRegion_faulty (s : State) (g : Nat) (f : Region → Region) : (s.modRegion g f).faulty = s.faulty := rfl
@[simp] theorem State.modRegion_parked (s : State) (g : Nat) (f : Region → Region) : (s.modRegion g f).parked = s.parked := rfl
@[simp] theorem State.modRegion_inbox (s : State) (g : Nat) (f : Region → Region) : (s.modRegion g f).inbox = s.inbox := rfl
@[simp] theorem State.modRegion_serial (s : State) (g : Nat) (f : Region → Region) : (s.modRegion g f).serial = s.serial := rfl
@[simp] theorem State.modRegion_agenda (s : State) (g : Nat) (f : Region → Region) : (s.modRegion g f).agenda = s.agenda := rfl
@[simp] theorem State.modRegion_stepNo (s : State) (g : Nat) (f : Region → Region) : (s.modRegion g f).stepNo = s.stepNo := rfl
@[simp] theorem State.modRegion_focus (s : State) (g : Nat) (f : Region → Region) : (s.modRegion g f).focus = s.focus := rfl

@[simp] theorem State.send_power (s : State) (m : OutMsg) : (s.send m).power = s.power := rfl
@[simp] theorem State.send_boot (s : State) (m : OutMsg) : (s.send m).boot = s.boot := rfl
@[simp] theorem State.send_flash (s : State) (m : OutMsg) : (s.send m).flash = s.flash := rfl
@[simp] theorem State.send_cfg (s : State) (m : OutMsg) : (s.send m).cfg = s.cfg := rfl
@[simp] theorem State.send_clock (s : State) (m : OutMsg) : (s.send m).clock = s.clock := rfl
@[simp] theorem State.send_throttle (s : State) (m : OutMsg) : (s.send m).throttle = s.throttle := rfl
@[simp] theorem State.send_mem (s : State) (m : OutMsg) : (s.send m).mem = s.mem := rfl
@[simp] theorem State.send_vers (s : State) (m : OutMsg) : (s.send m).vers = s.vers := rfl
@[simp] theorem State.send_full (s : State) (m : OutMsg) : (s.send m).full = s.full := rfl
@[simp] theorem State.send_stash (s : State) (m : OutMsg) : (s.send m).stash = s.stash := rfl
@[simp] theorem State.send_stashOut (s : State) (m : OutMsg) : (s.send m).stashOut = s.stashOut := rfl
@[simp] theorem State.send_parts (s : State) (m : OutMsg) : (s.send m).parts = s.parts := rfl
@[simp] theorem State.send_elems (s : State) (m : OutMsg) : (s.send m).elems = s.elems := rfl
@[simp] theorem State.send_softErr (s : State) (m : OutMsg) : (s.send m).softErr = s.softErr := rfl
@[simp] theorem State.send_discards (s : State) (m : OutMsg) : (s.send m).discards = s.discards := rfl
@[simp] theorem State.send_edges (s : State) (m : OutMsg) : (s.send m).edges = s.edges := rfl
@[simp] theorem State.send_clusters (s : State) (m : OutMsg) : (s.send m).clusters = s.clusters := rfl
@[simp] theorem State.send_dieTlb (s : State) (m : OutMsg) : (s.send m).dieTlb = s.dieTlb := rfl
@[simp] theorem State.send_chains (s : State) (m : OutMsg) : (s.send m).chains = s.chains := rfl
@[simp] theorem State.send_engines (s : State) (m : OutMsg) : (s.send m).engines = s.engines := rfl
@[simp] theorem State.send_regions (s : State) (m : OutMsg) : (s.send m).regions = s.regions := rfl
@[simp] theorem State.send_launches (s : State) (m : OutMsg) : (s.send m).launches = s.launches := rfl
@[simp] theorem State.send_binds (s : State) (m : OutMsg) : (s.send m).binds = s.binds := rfl
@[simp] theorem State.send_reqs (s : State) (m : OutMsg) : (s.send m).reqs = s.reqs := rfl
@[simp] theorem State.send_locks (s : State) (m : OutMsg) : (s.send m).locks = s.locks := rfl
@[simp] theorem State.send_thatch (s : State) (m : OutMsg) : (s.send m).thatch = s.thatch := rfl
@[simp] theorem State.send_colls (s : State) (m : OutMsg) : (s.send m).colls = s.colls := rfl
@[simp] theorem State.send_digests (s : State) (m : OutMsg) : (s.send m).digests = s.digests := rfl
@[simp] theorem State.send_refused (s : State) (m : OutMsg) : (s.send m).refused = s.refused := rfl
@[simp] theorem State.send_serial (s : State) (m : OutMsg) : (s.send m).serial = s.serial := rfl
@[simp] theorem State.send_agenda (s : State) (m : OutMsg) : (s.send m).agenda = s.agenda := rfl
@[simp] theorem State.send_stepNo (s : State) (m : OutMsg) : (s.send m).stepNo = s.stepNo := rfl
@[simp] theorem State.send_focus (s : State) (m : OutMsg) : (s.send m).focus = s.focus := rfl

@[simp] theorem State.soon_power (s : State) (l : List Instr) : (s.soon l).power = s.power := rfl
@[simp] theorem State.soon_boot (s : State) (l : List Instr) : (s.soon l).boot = s.boot := rfl
@[simp] theorem State.soon_flash (s : State) (l : List Instr) : (s.soon l).flash = s.flash := rfl
@[simp] theorem State.soon_cfg (s : State) (l : List Instr) : (s.soon l).cfg = s.cfg := rfl
@[simp] theorem State.soon_clock (s : State) (l : List Instr) : (s.soon l).clock = s.clock := rfl
@[simp] theorem State.soon_throttle (s : State) (l : List Instr) : (s.soon l).throttle = s.throttle := rfl
@[simp] theorem State.soon_mem (s : State) (l : List Instr) : (s.soon l).mem = s.mem := rfl
@[simp] theorem State.soon_vers (s : State) (l : List Instr) : (s.soon l).vers = s.vers := rfl
@[simp] theorem State.soon_full (s : State) (l : List Instr) : (s.soon l).full = s.full := rfl
@[simp] theorem State.soon_stash (s : State) (l : List Instr) : (s.soon l).stash = s.stash := rfl
@[simp] theorem State.soon_stashOut (s : State) (l : List Instr) : (s.soon l).stashOut = s.stashOut := rfl
@[simp] theorem State.soon_parts (s : State) (l : List Instr) : (s.soon l).parts = s.parts := rfl
@[simp] theorem State.soon_elems (s : State) (l : List Instr) : (s.soon l).elems = s.elems := rfl
@[simp] theorem State.soon_softErr (s : State) (l : List Instr) : (s.soon l).softErr = s.softErr := rfl
@[simp] theorem State.soon_discards (s : State) (l : List Instr) : (s.soon l).discards = s.discards := rfl
@[simp] theorem State.soon_edges (s : State) (l : List Instr) : (s.soon l).edges = s.edges := rfl
@[simp] theorem State.soon_clusters (s : State) (l : List Instr) : (s.soon l).clusters = s.clusters := rfl
@[simp] theorem State.soon_dieTlb (s : State) (l : List Instr) : (s.soon l).dieTlb = s.dieTlb := rfl
@[simp] theorem State.soon_chains (s : State) (l : List Instr) : (s.soon l).chains = s.chains := rfl
@[simp] theorem State.soon_engines (s : State) (l : List Instr) : (s.soon l).engines = s.engines := rfl
@[simp] theorem State.soon_regions (s : State) (l : List Instr) : (s.soon l).regions = s.regions := rfl
@[simp] theorem State.soon_launches (s : State) (l : List Instr) : (s.soon l).launches = s.launches := rfl
@[simp] theorem State.soon_binds (s : State) (l : List Instr) : (s.soon l).binds = s.binds := rfl
@[simp] theorem State.soon_reqs (s : State) (l : List Instr) : (s.soon l).reqs = s.reqs := rfl
@[simp] theorem State.soon_locks (s : State) (l : List Instr) : (s.soon l).locks = s.locks := rfl
@[simp] theorem State.soon_thatch (s : State) (l : List Instr) : (s.soon l).thatch = s.thatch := rfl
@[simp] theorem State.soon_colls (s : State) (l : List Instr) : (s.soon l).colls = s.colls := rfl
@[simp] theorem State.soon_digests (s : State) (l : List Instr) : (s.soon l).digests = s.digests := rfl
@[simp] theorem State.soon_refused (s : State) (l : List Instr) : (s.soon l).refused = s.refused := rfl
@[simp] theorem State.soon_outbox (s : State) (l : List Instr) : (s.soon l).outbox = s.outbox := rfl
@[simp] theorem State.soon_faulty (s : State) (l : List Instr) : (s.soon l).faulty = s.faulty := rfl
@[simp] theorem State.soon_parked (s : State) (l : List Instr) : (s.soon l).parked = s.parked := rfl
@[simp] theorem State.soon_inbox (s : State) (l : List Instr) : (s.soon l).inbox = s.inbox := rfl
@[simp] theorem State.soon_serial (s : State) (l : List Instr) : (s.soon l).serial = s.serial := rfl
@[simp] theorem State.soon_stepNo (s : State) (l : List Instr) : (s.soon l).stepNo = s.stepNo := rfl
@[simp] theorem State.soon_focus (s : State) (l : List Instr) : (s.soon l).focus = s.focus := rfl

@[simp] theorem State.setVer_power (s : State) (g : Nat) (v : BitVec 16) : (s.setVer g v).power = s.power := rfl
@[simp] theorem State.setVer_boot (s : State) (g : Nat) (v : BitVec 16) : (s.setVer g v).boot = s.boot := rfl
@[simp] theorem State.setVer_flash (s : State) (g : Nat) (v : BitVec 16) : (s.setVer g v).flash = s.flash := rfl
@[simp] theorem State.setVer_cfg (s : State) (g : Nat) (v : BitVec 16) : (s.setVer g v).cfg = s.cfg := rfl
@[simp] theorem State.setVer_clock (s : State) (g : Nat) (v : BitVec 16) : (s.setVer g v).clock = s.clock := rfl
@[simp] theorem State.setVer_throttle (s : State) (g : Nat) (v : BitVec 16) : (s.setVer g v).throttle = s.throttle := rfl
@[simp] theorem State.setVer_mem (s : State) (g : Nat) (v : BitVec 16) : (s.setVer g v).mem = s.mem := rfl
@[simp] theorem State.setVer_full (s : State) (g : Nat) (v : BitVec 16) : (s.setVer g v).full = s.full := rfl
@[simp] theorem State.setVer_stash (s : State) (g : Nat) (v : BitVec 16) : (s.setVer g v).stash = s.stash := rfl
@[simp] theorem State.setVer_stashOut (s : State) (g : Nat) (v : BitVec 16) : (s.setVer g v).stashOut = s.stashOut := rfl
@[simp] theorem State.setVer_parts (s : State) (g : Nat) (v : BitVec 16) : (s.setVer g v).parts = s.parts := rfl
@[simp] theorem State.setVer_elems (s : State) (g : Nat) (v : BitVec 16) : (s.setVer g v).elems = s.elems := rfl
@[simp] theorem State.setVer_softErr (s : State) (g : Nat) (v : BitVec 16) : (s.setVer g v).softErr = s.softErr := rfl
@[simp] theorem State.setVer_discards (s : State) (g : Nat) (v : BitVec 16) : (s.setVer g v).discards = s.discards := rfl
@[simp] theorem State.setVer_edges (s : State) (g : Nat) (v : BitVec 16) : (s.setVer g v).edges = s.edges := rfl
@[simp] theorem State.setVer_clusters (s : State) (g : Nat) (v : BitVec 16) : (s.setVer g v).clusters = s.clusters := rfl
@[simp] theorem State.setVer_dieTlb (s : State) (g : Nat) (v : BitVec 16) : (s.setVer g v).dieTlb = s.dieTlb := rfl
@[simp] theorem State.setVer_chains (s : State) (g : Nat) (v : BitVec 16) : (s.setVer g v).chains = s.chains := rfl
@[simp] theorem State.setVer_engines (s : State) (g : Nat) (v : BitVec 16) : (s.setVer g v).engines = s.engines := rfl
@[simp] theorem State.setVer_regions (s : State) (g : Nat) (v : BitVec 16) : (s.setVer g v).regions = s.regions := rfl
@[simp] theorem State.setVer_launches (s : State) (g : Nat) (v : BitVec 16) : (s.setVer g v).launches = s.launches := rfl
@[simp] theorem State.setVer_binds (s : State) (g : Nat) (v : BitVec 16) : (s.setVer g v).binds = s.binds := rfl
@[simp] theorem State.setVer_reqs (s : State) (g : Nat) (v : BitVec 16) : (s.setVer g v).reqs = s.reqs := rfl
@[simp] theorem State.setVer_locks (s : State) (g : Nat) (v : BitVec 16) : (s.setVer g v).locks = s.locks := rfl
@[simp] theorem State.setVer_thatch (s : State) (g : Nat) (v : BitVec 16) : (s.setVer g v).thatch = s.thatch := rfl
@[simp] theorem State.setVer_colls (s : State) (g : Nat) (v : BitVec 16) : (s.setVer g v).colls = s.colls := rfl
@[simp] theorem State.setVer_digests (s : State) (g : Nat) (v : BitVec 16) : (s.setVer g v).digests = s.digests := rfl
@[simp] theorem State.setVer_refused (s : State) (g : Nat) (v : BitVec 16) : (s.setVer g v).refused = s.refused := rfl
@[simp] theorem State.setVer_outbox (s : State) (g : Nat) (v : BitVec 16) : (s.setVer g v).outbox = s.outbox := rfl
@[simp] theorem State.setVer_faulty (s : State) (g : Nat) (v : BitVec 16) : (s.setVer g v).faulty = s.faulty := rfl
@[simp] theorem State.setVer_parked (s : State) (g : Nat) (v : BitVec 16) : (s.setVer g v).parked = s.parked := rfl
@[simp] theorem State.setVer_inbox (s : State) (g : Nat) (v : BitVec 16) : (s.setVer g v).inbox = s.inbox := rfl
@[simp] theorem State.setVer_serial (s : State) (g : Nat) (v : BitVec 16) : (s.setVer g v).serial = s.serial := rfl
@[simp] theorem State.setVer_agenda (s : State) (g : Nat) (v : BitVec 16) : (s.setVer g v).agenda = s.agenda := rfl
@[simp] theorem State.setVer_stepNo (s : State) (g : Nat) (v : BitVec 16) : (s.setVer g v).stepNo = s.stepNo := rfl
@[simp] theorem State.setVer_focus (s : State) (g : Nat) (v : BitVec 16) : (s.setVer g v).focus = s.focus := rfl

@[simp] theorem State.modFiring_power (s : State) (r : Nat) (f : Firing → Firing) : (s.modFiring r f).power = s.power := rfl
@[simp] theorem State.modFiring_boot (s : State) (r : Nat) (f : Firing → Firing) : (s.modFiring r f).boot = s.boot := rfl
@[simp] theorem State.modFiring_flash (s : State) (r : Nat) (f : Firing → Firing) : (s.modFiring r f).flash = s.flash := rfl
@[simp] theorem State.modFiring_cfg (s : State) (r : Nat) (f : Firing → Firing) : (s.modFiring r f).cfg = s.cfg := rfl
@[simp] theorem State.modFiring_clock (s : State) (r : Nat) (f : Firing → Firing) : (s.modFiring r f).clock = s.clock := rfl
@[simp] theorem State.modFiring_throttle (s : State) (r : Nat) (f : Firing → Firing) : (s.modFiring r f).throttle = s.throttle := rfl
@[simp] theorem State.modFiring_mem (s : State) (r : Nat) (f : Firing → Firing) : (s.modFiring r f).mem = s.mem := rfl
@[simp] theorem State.modFiring_vers (s : State) (r : Nat) (f : Firing → Firing) : (s.modFiring r f).vers = s.vers := rfl
@[simp] theorem State.modFiring_full (s : State) (r : Nat) (f : Firing → Firing) : (s.modFiring r f).full = s.full := rfl
@[simp] theorem State.modFiring_stash (s : State) (r : Nat) (f : Firing → Firing) : (s.modFiring r f).stash = s.stash := rfl
@[simp] theorem State.modFiring_stashOut (s : State) (r : Nat) (f : Firing → Firing) : (s.modFiring r f).stashOut = s.stashOut := rfl
@[simp] theorem State.modFiring_parts (s : State) (r : Nat) (f : Firing → Firing) : (s.modFiring r f).parts = s.parts := rfl
@[simp] theorem State.modFiring_softErr (s : State) (r : Nat) (f : Firing → Firing) : (s.modFiring r f).softErr = s.softErr := rfl
@[simp] theorem State.modFiring_discards (s : State) (r : Nat) (f : Firing → Firing) : (s.modFiring r f).discards = s.discards := rfl
@[simp] theorem State.modFiring_edges (s : State) (r : Nat) (f : Firing → Firing) : (s.modFiring r f).edges = s.edges := rfl
@[simp] theorem State.modFiring_clusters (s : State) (r : Nat) (f : Firing → Firing) : (s.modFiring r f).clusters = s.clusters := rfl
@[simp] theorem State.modFiring_dieTlb (s : State) (r : Nat) (f : Firing → Firing) : (s.modFiring r f).dieTlb = s.dieTlb := rfl
@[simp] theorem State.modFiring_chains (s : State) (r : Nat) (f : Firing → Firing) : (s.modFiring r f).chains = s.chains := rfl
@[simp] theorem State.modFiring_engines (s : State) (r : Nat) (f : Firing → Firing) : (s.modFiring r f).engines = s.engines := rfl
@[simp] theorem State.modFiring_regions (s : State) (r : Nat) (f : Firing → Firing) : (s.modFiring r f).regions = s.regions := rfl
@[simp] theorem State.modFiring_launches (s : State) (r : Nat) (f : Firing → Firing) : (s.modFiring r f).launches = s.launches := rfl
@[simp] theorem State.modFiring_binds (s : State) (r : Nat) (f : Firing → Firing) : (s.modFiring r f).binds = s.binds := rfl
@[simp] theorem State.modFiring_reqs (s : State) (r : Nat) (f : Firing → Firing) : (s.modFiring r f).reqs = s.reqs := rfl
@[simp] theorem State.modFiring_locks (s : State) (r : Nat) (f : Firing → Firing) : (s.modFiring r f).locks = s.locks := rfl
@[simp] theorem State.modFiring_thatch (s : State) (r : Nat) (f : Firing → Firing) : (s.modFiring r f).thatch = s.thatch := rfl
@[simp] theorem State.modFiring_colls (s : State) (r : Nat) (f : Firing → Firing) : (s.modFiring r f).colls = s.colls := rfl
@[simp] theorem State.modFiring_digests (s : State) (r : Nat) (f : Firing → Firing) : (s.modFiring r f).digests = s.digests := rfl
@[simp] theorem State.modFiring_refused (s : State) (r : Nat) (f : Firing → Firing) : (s.modFiring r f).refused = s.refused := rfl
@[simp] theorem State.modFiring_outbox (s : State) (r : Nat) (f : Firing → Firing) : (s.modFiring r f).outbox = s.outbox := rfl
@[simp] theorem State.modFiring_faulty (s : State) (r : Nat) (f : Firing → Firing) : (s.modFiring r f).faulty = s.faulty := rfl
@[simp] theorem State.modFiring_parked (s : State) (r : Nat) (f : Firing → Firing) : (s.modFiring r f).parked = s.parked := rfl
@[simp] theorem State.modFiring_inbox (s : State) (r : Nat) (f : Firing → Firing) : (s.modFiring r f).inbox = s.inbox := rfl
@[simp] theorem State.modFiring_serial (s : State) (r : Nat) (f : Firing → Firing) : (s.modFiring r f).serial = s.serial := rfl
@[simp] theorem State.modFiring_agenda (s : State) (r : Nat) (f : Firing → Firing) : (s.modFiring r f).agenda = s.agenda := rfl
@[simp] theorem State.modFiring_stepNo (s : State) (r : Nat) (f : Firing → Firing) : (s.modFiring r f).stepNo = s.stepNo := rfl
@[simp] theorem State.modFiring_focus (s : State) (r : Nat) (f : Firing → Firing) : (s.modFiring r f).focus = s.focus := rfl

@[simp] theorem State.modActor_power (s : State) (r la : Nat) (f : Actor → Actor) : (s.modActor r la f).power = s.power := rfl
@[simp] theorem State.modActor_boot (s : State) (r la : Nat) (f : Actor → Actor) : (s.modActor r la f).boot = s.boot := rfl
@[simp] theorem State.modActor_flash (s : State) (r la : Nat) (f : Actor → Actor) : (s.modActor r la f).flash = s.flash := rfl
@[simp] theorem State.modActor_cfg (s : State) (r la : Nat) (f : Actor → Actor) : (s.modActor r la f).cfg = s.cfg := rfl
@[simp] theorem State.modActor_clock (s : State) (r la : Nat) (f : Actor → Actor) : (s.modActor r la f).clock = s.clock := rfl
@[simp] theorem State.modActor_throttle (s : State) (r la : Nat) (f : Actor → Actor) : (s.modActor r la f).throttle = s.throttle := rfl
@[simp] theorem State.modActor_mem (s : State) (r la : Nat) (f : Actor → Actor) : (s.modActor r la f).mem = s.mem := rfl
@[simp] theorem State.modActor_vers (s : State) (r la : Nat) (f : Actor → Actor) : (s.modActor r la f).vers = s.vers := rfl
@[simp] theorem State.modActor_full (s : State) (r la : Nat) (f : Actor → Actor) : (s.modActor r la f).full = s.full := rfl
@[simp] theorem State.modActor_stash (s : State) (r la : Nat) (f : Actor → Actor) : (s.modActor r la f).stash = s.stash := rfl
@[simp] theorem State.modActor_stashOut (s : State) (r la : Nat) (f : Actor → Actor) : (s.modActor r la f).stashOut = s.stashOut := rfl
@[simp] theorem State.modActor_parts (s : State) (r la : Nat) (f : Actor → Actor) : (s.modActor r la f).parts = s.parts := rfl
@[simp] theorem State.modActor_softErr (s : State) (r la : Nat) (f : Actor → Actor) : (s.modActor r la f).softErr = s.softErr := rfl
@[simp] theorem State.modActor_discards (s : State) (r la : Nat) (f : Actor → Actor) : (s.modActor r la f).discards = s.discards := rfl
@[simp] theorem State.modActor_edges (s : State) (r la : Nat) (f : Actor → Actor) : (s.modActor r la f).edges = s.edges := rfl
@[simp] theorem State.modActor_clusters (s : State) (r la : Nat) (f : Actor → Actor) : (s.modActor r la f).clusters = s.clusters := rfl
@[simp] theorem State.modActor_dieTlb (s : State) (r la : Nat) (f : Actor → Actor) : (s.modActor r la f).dieTlb = s.dieTlb := rfl
@[simp] theorem State.modActor_chains (s : State) (r la : Nat) (f : Actor → Actor) : (s.modActor r la f).chains = s.chains := rfl
@[simp] theorem State.modActor_engines (s : State) (r la : Nat) (f : Actor → Actor) : (s.modActor r la f).engines = s.engines := rfl
@[simp] theorem State.modActor_regions (s : State) (r la : Nat) (f : Actor → Actor) : (s.modActor r la f).regions = s.regions := rfl
@[simp] theorem State.modActor_launches (s : State) (r la : Nat) (f : Actor → Actor) : (s.modActor r la f).launches = s.launches := rfl
@[simp] theorem State.modActor_binds (s : State) (r la : Nat) (f : Actor → Actor) : (s.modActor r la f).binds = s.binds := rfl
@[simp] theorem State.modActor_reqs (s : State) (r la : Nat) (f : Actor → Actor) : (s.modActor r la f).reqs = s.reqs := rfl
@[simp] theorem State.modActor_locks (s : State) (r la : Nat) (f : Actor → Actor) : (s.modActor r la f).locks = s.locks := rfl
@[simp] theorem State.modActor_thatch (s : State) (r la : Nat) (f : Actor → Actor) : (s.modActor r la f).thatch = s.thatch := rfl
@[simp] theorem State.modActor_colls (s : State) (r la : Nat) (f : Actor → Actor) : (s.modActor r la f).colls = s.colls := rfl
@[simp] theorem State.modActor_digests (s : State) (r la : Nat) (f : Actor → Actor) : (s.modActor r la f).digests = s.digests := rfl
@[simp] theorem State.modActor_refused (s : State) (r la : Nat) (f : Actor → Actor) : (s.modActor r la f).refused = s.refused := rfl
@[simp] theorem State.modActor_outbox (s : State) (r la : Nat) (f : Actor → Actor) : (s.modActor r la f).outbox = s.outbox := rfl
@[simp] theorem State.modActor_faulty (s : State) (r la : Nat) (f : Actor → Actor) : (s.modActor r la f).faulty = s.faulty := rfl
@[simp] theorem State.modActor_parked (s : State) (r la : Nat) (f : Actor → Actor) : (s.modActor r la f).parked = s.parked := rfl
@[simp] theorem State.modActor_inbox (s : State) (r la : Nat) (f : Actor → Actor) : (s.modActor r la f).inbox = s.inbox := rfl
@[simp] theorem State.modActor_serial (s : State) (r la : Nat) (f : Actor → Actor) : (s.modActor r la f).serial = s.serial := rfl
@[simp] theorem State.modActor_agenda (s : State) (r la : Nat) (f : Actor → Actor) : (s.modActor r la f).agenda = s.agenda := rfl
@[simp] theorem State.modActor_stepNo (s : State) (r la : Nat) (f : Actor → Actor) : (s.modActor r la f).stepNo = s.stepNo := rfl
@[simp] theorem State.modActor_focus (s : State) (r la : Nat) (f : Actor → Actor) : (s.modActor r la f).focus = s.focus := rfl

@[simp] theorem State.putOut_power (s : State) (r i h o n : Nat) (k : Kind) (t : Option (BitVec 32)) (x : Vec) : (s.putOut r i h o n k t x).power = s.power := rfl
@[simp] theorem State.putOut_boot (s : State) (r i h o n : Nat) (k : Kind) (t : Option (BitVec 32)) (x : Vec) : (s.putOut r i h o n k t x).boot = s.boot := rfl
@[simp] theorem State.putOut_flash (s : State) (r i h o n : Nat) (k : Kind) (t : Option (BitVec 32)) (x : Vec) : (s.putOut r i h o n k t x).flash = s.flash := rfl
@[simp] theorem State.putOut_cfg (s : State) (r i h o n : Nat) (k : Kind) (t : Option (BitVec 32)) (x : Vec) : (s.putOut r i h o n k t x).cfg = s.cfg := rfl
@[simp] theorem State.putOut_clock (s : State) (r i h o n : Nat) (k : Kind) (t : Option (BitVec 32)) (x : Vec) : (s.putOut r i h o n k t x).clock = s.clock := rfl
@[simp] theorem State.putOut_throttle (s : State) (r i h o n : Nat) (k : Kind) (t : Option (BitVec 32)) (x : Vec) : (s.putOut r i h o n k t x).throttle = s.throttle := rfl
@[simp] theorem State.putOut_mem (s : State) (r i h o n : Nat) (k : Kind) (t : Option (BitVec 32)) (x : Vec) : (s.putOut r i h o n k t x).mem = s.mem := rfl
@[simp] theorem State.putOut_vers (s : State) (r i h o n : Nat) (k : Kind) (t : Option (BitVec 32)) (x : Vec) : (s.putOut r i h o n k t x).vers = s.vers := rfl
@[simp] theorem State.putOut_full (s : State) (r i h o n : Nat) (k : Kind) (t : Option (BitVec 32)) (x : Vec) : (s.putOut r i h o n k t x).full = s.full := rfl
@[simp] theorem State.putOut_stash (s : State) (r i h o n : Nat) (k : Kind) (t : Option (BitVec 32)) (x : Vec) : (s.putOut r i h o n k t x).stash = s.stash := rfl
@[simp] theorem State.putOut_stashOut (s : State) (r i h o n : Nat) (k : Kind) (t : Option (BitVec 32)) (x : Vec) : (s.putOut r i h o n k t x).stashOut = s.stashOut := rfl
@[simp] theorem State.putOut_parts (s : State) (r i h o n : Nat) (k : Kind) (t : Option (BitVec 32)) (x : Vec) : (s.putOut r i h o n k t x).parts = s.parts := rfl
@[simp] theorem State.putOut_softErr (s : State) (r i h o n : Nat) (k : Kind) (t : Option (BitVec 32)) (x : Vec) : (s.putOut r i h o n k t x).softErr = s.softErr := rfl
@[simp] theorem State.putOut_discards (s : State) (r i h o n : Nat) (k : Kind) (t : Option (BitVec 32)) (x : Vec) : (s.putOut r i h o n k t x).discards = s.discards := rfl
@[simp] theorem State.putOut_edges (s : State) (r i h o n : Nat) (k : Kind) (t : Option (BitVec 32)) (x : Vec) : (s.putOut r i h o n k t x).edges = s.edges := rfl
@[simp] theorem State.putOut_clusters (s : State) (r i h o n : Nat) (k : Kind) (t : Option (BitVec 32)) (x : Vec) : (s.putOut r i h o n k t x).clusters = s.clusters := rfl
@[simp] theorem State.putOut_dieTlb (s : State) (r i h o n : Nat) (k : Kind) (t : Option (BitVec 32)) (x : Vec) : (s.putOut r i h o n k t x).dieTlb = s.dieTlb := rfl
@[simp] theorem State.putOut_chains (s : State) (r i h o n : Nat) (k : Kind) (t : Option (BitVec 32)) (x : Vec) : (s.putOut r i h o n k t x).chains = s.chains := rfl
@[simp] theorem State.putOut_engines (s : State) (r i h o n : Nat) (k : Kind) (t : Option (BitVec 32)) (x : Vec) : (s.putOut r i h o n k t x).engines = s.engines := rfl
@[simp] theorem State.putOut_regions (s : State) (r i h o n : Nat) (k : Kind) (t : Option (BitVec 32)) (x : Vec) : (s.putOut r i h o n k t x).regions = s.regions := rfl
@[simp] theorem State.putOut_launches (s : State) (r i h o n : Nat) (k : Kind) (t : Option (BitVec 32)) (x : Vec) : (s.putOut r i h o n k t x).launches = s.launches := rfl
@[simp] theorem State.putOut_binds (s : State) (r i h o n : Nat) (k : Kind) (t : Option (BitVec 32)) (x : Vec) : (s.putOut r i h o n k t x).binds = s.binds := rfl
@[simp] theorem State.putOut_reqs (s : State) (r i h o n : Nat) (k : Kind) (t : Option (BitVec 32)) (x : Vec) : (s.putOut r i h o n k t x).reqs = s.reqs := rfl
@[simp] theorem State.putOut_locks (s : State) (r i h o n : Nat) (k : Kind) (t : Option (BitVec 32)) (x : Vec) : (s.putOut r i h o n k t x).locks = s.locks := rfl
@[simp] theorem State.putOut_thatch (s : State) (r i h o n : Nat) (k : Kind) (t : Option (BitVec 32)) (x : Vec) : (s.putOut r i h o n k t x).thatch = s.thatch := rfl
@[simp] theorem State.putOut_colls (s : State) (r i h o n : Nat) (k : Kind) (t : Option (BitVec 32)) (x : Vec) : (s.putOut r i h o n k t x).colls = s.colls := rfl
@[simp] theorem State.putOut_digests (s : State) (r i h o n : Nat) (k : Kind) (t : Option (BitVec 32)) (x : Vec) : (s.putOut r i h o n k t x).digests = s.digests := rfl
@[simp] theorem State.putOut_refused (s : State) (r i h o n : Nat) (k : Kind) (t : Option (BitVec 32)) (x : Vec) : (s.putOut r i h o n k t x).refused = s.refused := rfl
@[simp] theorem State.putOut_outbox (s : State) (r i h o n : Nat) (k : Kind) (t : Option (BitVec 32)) (x : Vec) : (s.putOut r i h o n k t x).outbox = s.outbox := rfl
@[simp] theorem State.putOut_faulty (s : State) (r i h o n : Nat) (k : Kind) (t : Option (BitVec 32)) (x : Vec) : (s.putOut r i h o n k t x).faulty = s.faulty := rfl
@[simp] theorem State.putOut_parked (s : State) (r i h o n : Nat) (k : Kind) (t : Option (BitVec 32)) (x : Vec) : (s.putOut r i h o n k t x).parked = s.parked := rfl
@[simp] theorem State.putOut_inbox (s : State) (r i h o n : Nat) (k : Kind) (t : Option (BitVec 32)) (x : Vec) : (s.putOut r i h o n k t x).inbox = s.inbox := rfl
@[simp] theorem State.putOut_serial (s : State) (r i h o n : Nat) (k : Kind) (t : Option (BitVec 32)) (x : Vec) : (s.putOut r i h o n k t x).serial = s.serial := rfl
@[simp] theorem State.putOut_agenda (s : State) (r i h o n : Nat) (k : Kind) (t : Option (BitVec 32)) (x : Vec) : (s.putOut r i h o n k t x).agenda = s.agenda := rfl
@[simp] theorem State.putOut_stepNo (s : State) (r i h o n : Nat) (k : Kind) (t : Option (BitVec 32)) (x : Vec) : (s.putOut r i h o n k t x).stepNo = s.stepNo := rfl
@[simp] theorem State.putOut_focus (s : State) (r i h o n : Nat) (k : Kind) (t : Option (BitVec 32)) (x : Vec) : (s.putOut r i h o n k t x).focus = s.focus := rfl

@[simp] theorem State.holdKeep_power (s : State) (r i n : Nat) (v : Word) : (s.holdKeep r i n v).power = s.power := rfl
@[simp] theorem State.holdKeep_boot (s : State) (r i n : Nat) (v : Word) : (s.holdKeep r i n v).boot = s.boot := rfl
@[simp] theorem State.holdKeep_flash (s : State) (r i n : Nat) (v : Word) : (s.holdKeep r i n v).flash = s.flash := rfl
@[simp] theorem State.holdKeep_cfg (s : State) (r i n : Nat) (v : Word) : (s.holdKeep r i n v).cfg = s.cfg := rfl
@[simp] theorem State.holdKeep_clock (s : State) (r i n : Nat) (v : Word) : (s.holdKeep r i n v).clock = s.clock := rfl
@[simp] theorem State.holdKeep_throttle (s : State) (r i n : Nat) (v : Word) : (s.holdKeep r i n v).throttle = s.throttle := rfl
@[simp] theorem State.holdKeep_mem (s : State) (r i n : Nat) (v : Word) : (s.holdKeep r i n v).mem = s.mem := rfl
@[simp] theorem State.holdKeep_vers (s : State) (r i n : Nat) (v : Word) : (s.holdKeep r i n v).vers = s.vers := rfl
@[simp] theorem State.holdKeep_full (s : State) (r i n : Nat) (v : Word) : (s.holdKeep r i n v).full = s.full := rfl
@[simp] theorem State.holdKeep_stash (s : State) (r i n : Nat) (v : Word) : (s.holdKeep r i n v).stash = s.stash := rfl
@[simp] theorem State.holdKeep_stashOut (s : State) (r i n : Nat) (v : Word) : (s.holdKeep r i n v).stashOut = s.stashOut := rfl
@[simp] theorem State.holdKeep_parts (s : State) (r i n : Nat) (v : Word) : (s.holdKeep r i n v).parts = s.parts := rfl
@[simp] theorem State.holdKeep_softErr (s : State) (r i n : Nat) (v : Word) : (s.holdKeep r i n v).softErr = s.softErr := rfl
@[simp] theorem State.holdKeep_discards (s : State) (r i n : Nat) (v : Word) : (s.holdKeep r i n v).discards = s.discards := rfl
@[simp] theorem State.holdKeep_edges (s : State) (r i n : Nat) (v : Word) : (s.holdKeep r i n v).edges = s.edges := rfl
@[simp] theorem State.holdKeep_clusters (s : State) (r i n : Nat) (v : Word) : (s.holdKeep r i n v).clusters = s.clusters := rfl
@[simp] theorem State.holdKeep_dieTlb (s : State) (r i n : Nat) (v : Word) : (s.holdKeep r i n v).dieTlb = s.dieTlb := rfl
@[simp] theorem State.holdKeep_chains (s : State) (r i n : Nat) (v : Word) : (s.holdKeep r i n v).chains = s.chains := rfl
@[simp] theorem State.holdKeep_engines (s : State) (r i n : Nat) (v : Word) : (s.holdKeep r i n v).engines = s.engines := rfl
@[simp] theorem State.holdKeep_regions (s : State) (r i n : Nat) (v : Word) : (s.holdKeep r i n v).regions = s.regions := rfl
@[simp] theorem State.holdKeep_launches (s : State) (r i n : Nat) (v : Word) : (s.holdKeep r i n v).launches = s.launches := rfl
@[simp] theorem State.holdKeep_binds (s : State) (r i n : Nat) (v : Word) : (s.holdKeep r i n v).binds = s.binds := rfl
@[simp] theorem State.holdKeep_reqs (s : State) (r i n : Nat) (v : Word) : (s.holdKeep r i n v).reqs = s.reqs := rfl
@[simp] theorem State.holdKeep_locks (s : State) (r i n : Nat) (v : Word) : (s.holdKeep r i n v).locks = s.locks := rfl
@[simp] theorem State.holdKeep_thatch (s : State) (r i n : Nat) (v : Word) : (s.holdKeep r i n v).thatch = s.thatch := rfl
@[simp] theorem State.holdKeep_colls (s : State) (r i n : Nat) (v : Word) : (s.holdKeep r i n v).colls = s.colls := rfl
@[simp] theorem State.holdKeep_digests (s : State) (r i n : Nat) (v : Word) : (s.holdKeep r i n v).digests = s.digests := rfl
@[simp] theorem State.holdKeep_refused (s : State) (r i n : Nat) (v : Word) : (s.holdKeep r i n v).refused = s.refused := rfl
@[simp] theorem State.holdKeep_outbox (s : State) (r i n : Nat) (v : Word) : (s.holdKeep r i n v).outbox = s.outbox := rfl
@[simp] theorem State.holdKeep_faulty (s : State) (r i n : Nat) (v : Word) : (s.holdKeep r i n v).faulty = s.faulty := rfl
@[simp] theorem State.holdKeep_parked (s : State) (r i n : Nat) (v : Word) : (s.holdKeep r i n v).parked = s.parked := rfl
@[simp] theorem State.holdKeep_inbox (s : State) (r i n : Nat) (v : Word) : (s.holdKeep r i n v).inbox = s.inbox := rfl
@[simp] theorem State.holdKeep_serial (s : State) (r i n : Nat) (v : Word) : (s.holdKeep r i n v).serial = s.serial := rfl
@[simp] theorem State.holdKeep_agenda (s : State) (r i n : Nat) (v : Word) : (s.holdKeep r i n v).agenda = s.agenda := rfl
@[simp] theorem State.holdKeep_stepNo (s : State) (r i n : Nat) (v : Word) : (s.holdKeep r i n v).stepNo = s.stepNo := rfl
@[simp] theorem State.holdKeep_focus (s : State) (r i n : Nat) (v : Word) : (s.holdKeep r i n v).focus = s.focus := rfl

@[simp] theorem State.raise_power (s : State) (f : BitVec 5) : (s.raise f).power = s.power := rfl
@[simp] theorem State.raise_boot (s : State) (f : BitVec 5) : (s.raise f).boot = s.boot := rfl
@[simp] theorem State.raise_flash (s : State) (f : BitVec 5) : (s.raise f).flash = s.flash := rfl
@[simp] theorem State.raise_cfg (s : State) (f : BitVec 5) : (s.raise f).cfg = s.cfg := rfl
@[simp] theorem State.raise_clock (s : State) (f : BitVec 5) : (s.raise f).clock = s.clock := rfl
@[simp] theorem State.raise_throttle (s : State) (f : BitVec 5) : (s.raise f).throttle = s.throttle := rfl
@[simp] theorem State.raise_mem (s : State) (f : BitVec 5) : (s.raise f).mem = s.mem := rfl
@[simp] theorem State.raise_vers (s : State) (f : BitVec 5) : (s.raise f).vers = s.vers := rfl
@[simp] theorem State.raise_full (s : State) (f : BitVec 5) : (s.raise f).full = s.full := rfl
@[simp] theorem State.raise_stash (s : State) (f : BitVec 5) : (s.raise f).stash = s.stash := rfl
@[simp] theorem State.raise_stashOut (s : State) (f : BitVec 5) : (s.raise f).stashOut = s.stashOut := rfl
@[simp] theorem State.raise_parts (s : State) (f : BitVec 5) : (s.raise f).parts = s.parts := rfl
@[simp] theorem State.raise_softErr (s : State) (f : BitVec 5) : (s.raise f).softErr = s.softErr := rfl
@[simp] theorem State.raise_discards (s : State) (f : BitVec 5) : (s.raise f).discards = s.discards := rfl
@[simp] theorem State.raise_edges (s : State) (f : BitVec 5) : (s.raise f).edges = s.edges := rfl
@[simp] theorem State.raise_clusters (s : State) (f : BitVec 5) : (s.raise f).clusters = s.clusters := rfl
@[simp] theorem State.raise_dieTlb (s : State) (f : BitVec 5) : (s.raise f).dieTlb = s.dieTlb := rfl
@[simp] theorem State.raise_chains (s : State) (f : BitVec 5) : (s.raise f).chains = s.chains := rfl
@[simp] theorem State.raise_engines (s : State) (f : BitVec 5) : (s.raise f).engines = s.engines := rfl
@[simp] theorem State.raise_regions (s : State) (f : BitVec 5) : (s.raise f).regions = s.regions := rfl
@[simp] theorem State.raise_launches (s : State) (f : BitVec 5) : (s.raise f).launches = s.launches := rfl
@[simp] theorem State.raise_binds (s : State) (f : BitVec 5) : (s.raise f).binds = s.binds := rfl
@[simp] theorem State.raise_reqs (s : State) (f : BitVec 5) : (s.raise f).reqs = s.reqs := rfl
@[simp] theorem State.raise_locks (s : State) (f : BitVec 5) : (s.raise f).locks = s.locks := rfl
@[simp] theorem State.raise_thatch (s : State) (f : BitVec 5) : (s.raise f).thatch = s.thatch := rfl
@[simp] theorem State.raise_colls (s : State) (f : BitVec 5) : (s.raise f).colls = s.colls := rfl
@[simp] theorem State.raise_digests (s : State) (f : BitVec 5) : (s.raise f).digests = s.digests := rfl
@[simp] theorem State.raise_refused (s : State) (f : BitVec 5) : (s.raise f).refused = s.refused := rfl
@[simp] theorem State.raise_outbox (s : State) (f : BitVec 5) : (s.raise f).outbox = s.outbox := rfl
@[simp] theorem State.raise_faulty (s : State) (f : BitVec 5) : (s.raise f).faulty = s.faulty := rfl
@[simp] theorem State.raise_parked (s : State) (f : BitVec 5) : (s.raise f).parked = s.parked := rfl
@[simp] theorem State.raise_inbox (s : State) (f : BitVec 5) : (s.raise f).inbox = s.inbox := rfl
@[simp] theorem State.raise_serial (s : State) (f : BitVec 5) : (s.raise f).serial = s.serial := rfl
@[simp] theorem State.raise_agenda (s : State) (f : BitVec 5) : (s.raise f).agenda = s.agenda := rfl
@[simp] theorem State.raise_stepNo (s : State) (f : BitVec 5) : (s.raise f).stepNo = s.stepNo := rfl
@[simp] theorem State.raise_focus (s : State) (f : BitVec 5) : (s.raise f).focus = s.focus := rfl

@[simp] theorem State.addPend_power (s : State) (h n : Nat) : (s.addPend h n).power = s.power := rfl
@[simp] theorem State.addPend_boot (s : State) (h n : Nat) : (s.addPend h n).boot = s.boot := rfl
@[simp] theorem State.addPend_flash (s : State) (h n : Nat) : (s.addPend h n).flash = s.flash := rfl
@[simp] theorem State.addPend_cfg (s : State) (h n : Nat) : (s.addPend h n).cfg = s.cfg := rfl
@[simp] theorem State.addPend_clock (s : State) (h n : Nat) : (s.addPend h n).clock = s.clock := rfl
@[simp] theorem State.addPend_throttle (s : State) (h n : Nat) : (s.addPend h n).throttle = s.throttle := rfl
@[simp] theorem State.addPend_mem (s : State) (h n : Nat) : (s.addPend h n).mem = s.mem := rfl
@[simp] theorem State.addPend_vers (s : State) (h n : Nat) : (s.addPend h n).vers = s.vers := rfl
@[simp] theorem State.addPend_full (s : State) (h n : Nat) : (s.addPend h n).full = s.full := rfl
@[simp] theorem State.addPend_stash (s : State) (h n : Nat) : (s.addPend h n).stash = s.stash := rfl
@[simp] theorem State.addPend_stashOut (s : State) (h n : Nat) : (s.addPend h n).stashOut = s.stashOut := rfl
@[simp] theorem State.addPend_parts (s : State) (h n : Nat) : (s.addPend h n).parts = s.parts := rfl
@[simp] theorem State.addPend_softErr (s : State) (h n : Nat) : (s.addPend h n).softErr = s.softErr := rfl
@[simp] theorem State.addPend_discards (s : State) (h n : Nat) : (s.addPend h n).discards = s.discards := rfl
@[simp] theorem State.addPend_edges (s : State) (h n : Nat) : (s.addPend h n).edges = s.edges := rfl
@[simp] theorem State.addPend_clusters (s : State) (h n : Nat) : (s.addPend h n).clusters = s.clusters := rfl
@[simp] theorem State.addPend_dieTlb (s : State) (h n : Nat) : (s.addPend h n).dieTlb = s.dieTlb := rfl
@[simp] theorem State.addPend_chains (s : State) (h n : Nat) : (s.addPend h n).chains = s.chains := rfl
@[simp] theorem State.addPend_engines (s : State) (h n : Nat) : (s.addPend h n).engines = s.engines := rfl
@[simp] theorem State.addPend_regions (s : State) (h n : Nat) : (s.addPend h n).regions = s.regions := rfl
@[simp] theorem State.addPend_launches (s : State) (h n : Nat) : (s.addPend h n).launches = s.launches := rfl
@[simp] theorem State.addPend_binds (s : State) (h n : Nat) : (s.addPend h n).binds = s.binds := rfl
@[simp] theorem State.addPend_reqs (s : State) (h n : Nat) : (s.addPend h n).reqs = s.reqs := rfl
@[simp] theorem State.addPend_locks (s : State) (h n : Nat) : (s.addPend h n).locks = s.locks := rfl
@[simp] theorem State.addPend_thatch (s : State) (h n : Nat) : (s.addPend h n).thatch = s.thatch := rfl
@[simp] theorem State.addPend_colls (s : State) (h n : Nat) : (s.addPend h n).colls = s.colls := rfl
@[simp] theorem State.addPend_digests (s : State) (h n : Nat) : (s.addPend h n).digests = s.digests := rfl
@[simp] theorem State.addPend_refused (s : State) (h n : Nat) : (s.addPend h n).refused = s.refused := rfl
@[simp] theorem State.addPend_outbox (s : State) (h n : Nat) : (s.addPend h n).outbox = s.outbox := rfl
@[simp] theorem State.addPend_faulty (s : State) (h n : Nat) : (s.addPend h n).faulty = s.faulty := rfl
@[simp] theorem State.addPend_parked (s : State) (h n : Nat) : (s.addPend h n).parked = s.parked := rfl
@[simp] theorem State.addPend_inbox (s : State) (h n : Nat) : (s.addPend h n).inbox = s.inbox := rfl
@[simp] theorem State.addPend_serial (s : State) (h n : Nat) : (s.addPend h n).serial = s.serial := rfl
@[simp] theorem State.addPend_agenda (s : State) (h n : Nat) : (s.addPend h n).agenda = s.agenda := rfl
@[simp] theorem State.addPend_stepNo (s : State) (h n : Nat) : (s.addPend h n).stepNo = s.stepNo := rfl
@[simp] theorem State.addPend_focus (s : State) (h n : Nat) : (s.addPend h n).focus = s.focus := rfl

@[simp] theorem State.addDue_power (s : State) (d : List Target) (w : WaitFor) : (s.addDue d w).power = s.power := rfl
@[simp] theorem State.addDue_boot (s : State) (d : List Target) (w : WaitFor) : (s.addDue d w).boot = s.boot := rfl
@[simp] theorem State.addDue_flash (s : State) (d : List Target) (w : WaitFor) : (s.addDue d w).flash = s.flash := rfl
@[simp] theorem State.addDue_cfg (s : State) (d : List Target) (w : WaitFor) : (s.addDue d w).cfg = s.cfg := rfl
@[simp] theorem State.addDue_clock (s : State) (d : List Target) (w : WaitFor) : (s.addDue d w).clock = s.clock := rfl
@[simp] theorem State.addDue_throttle (s : State) (d : List Target) (w : WaitFor) : (s.addDue d w).throttle = s.throttle := rfl
@[simp] theorem State.addDue_mem (s : State) (d : List Target) (w : WaitFor) : (s.addDue d w).mem = s.mem := rfl
@[simp] theorem State.addDue_vers (s : State) (d : List Target) (w : WaitFor) : (s.addDue d w).vers = s.vers := rfl
@[simp] theorem State.addDue_full (s : State) (d : List Target) (w : WaitFor) : (s.addDue d w).full = s.full := rfl
@[simp] theorem State.addDue_stash (s : State) (d : List Target) (w : WaitFor) : (s.addDue d w).stash = s.stash := rfl
@[simp] theorem State.addDue_stashOut (s : State) (d : List Target) (w : WaitFor) : (s.addDue d w).stashOut = s.stashOut := rfl
@[simp] theorem State.addDue_parts (s : State) (d : List Target) (w : WaitFor) : (s.addDue d w).parts = s.parts := rfl
@[simp] theorem State.addDue_softErr (s : State) (d : List Target) (w : WaitFor) : (s.addDue d w).softErr = s.softErr := rfl
@[simp] theorem State.addDue_discards (s : State) (d : List Target) (w : WaitFor) : (s.addDue d w).discards = s.discards := rfl
@[simp] theorem State.addDue_edges (s : State) (d : List Target) (w : WaitFor) : (s.addDue d w).edges = s.edges := rfl
@[simp] theorem State.addDue_clusters (s : State) (d : List Target) (w : WaitFor) : (s.addDue d w).clusters = s.clusters := rfl
@[simp] theorem State.addDue_dieTlb (s : State) (d : List Target) (w : WaitFor) : (s.addDue d w).dieTlb = s.dieTlb := rfl
@[simp] theorem State.addDue_chains (s : State) (d : List Target) (w : WaitFor) : (s.addDue d w).chains = s.chains := rfl
@[simp] theorem State.addDue_engines (s : State) (d : List Target) (w : WaitFor) : (s.addDue d w).engines = s.engines := rfl
@[simp] theorem State.addDue_regions (s : State) (d : List Target) (w : WaitFor) : (s.addDue d w).regions = s.regions := rfl
@[simp] theorem State.addDue_launches (s : State) (d : List Target) (w : WaitFor) : (s.addDue d w).launches = s.launches := rfl
@[simp] theorem State.addDue_binds (s : State) (d : List Target) (w : WaitFor) : (s.addDue d w).binds = s.binds := rfl
@[simp] theorem State.addDue_reqs (s : State) (d : List Target) (w : WaitFor) : (s.addDue d w).reqs = s.reqs := rfl
@[simp] theorem State.addDue_locks (s : State) (d : List Target) (w : WaitFor) : (s.addDue d w).locks = s.locks := rfl
@[simp] theorem State.addDue_thatch (s : State) (d : List Target) (w : WaitFor) : (s.addDue d w).thatch = s.thatch := rfl
@[simp] theorem State.addDue_colls (s : State) (d : List Target) (w : WaitFor) : (s.addDue d w).colls = s.colls := rfl
@[simp] theorem State.addDue_digests (s : State) (d : List Target) (w : WaitFor) : (s.addDue d w).digests = s.digests := rfl
@[simp] theorem State.addDue_refused (s : State) (d : List Target) (w : WaitFor) : (s.addDue d w).refused = s.refused := rfl
@[simp] theorem State.addDue_outbox (s : State) (d : List Target) (w : WaitFor) : (s.addDue d w).outbox = s.outbox := rfl
@[simp] theorem State.addDue_faulty (s : State) (d : List Target) (w : WaitFor) : (s.addDue d w).faulty = s.faulty := rfl
@[simp] theorem State.addDue_parked (s : State) (d : List Target) (w : WaitFor) : (s.addDue d w).parked = s.parked := rfl
@[simp] theorem State.addDue_inbox (s : State) (d : List Target) (w : WaitFor) : (s.addDue d w).inbox = s.inbox := rfl
@[simp] theorem State.addDue_serial (s : State) (d : List Target) (w : WaitFor) : (s.addDue d w).serial = s.serial := rfl
@[simp] theorem State.addDue_agenda (s : State) (d : List Target) (w : WaitFor) : (s.addDue d w).agenda = s.agenda := rfl
@[simp] theorem State.addDue_stepNo (s : State) (d : List Target) (w : WaitFor) : (s.addDue d w).stepNo = s.stepNo := rfl
@[simp] theorem State.addDue_focus (s : State) (d : List Target) (w : WaitFor) : (s.addDue d w).focus = s.focus := rfl

@[simp] theorem State.dropDue_power (s : State) (r i : Nat) : (s.dropDue r i).power = s.power := rfl
@[simp] theorem State.dropDue_boot (s : State) (r i : Nat) : (s.dropDue r i).boot = s.boot := rfl
@[simp] theorem State.dropDue_flash (s : State) (r i : Nat) : (s.dropDue r i).flash = s.flash := rfl
@[simp] theorem State.dropDue_cfg (s : State) (r i : Nat) : (s.dropDue r i).cfg = s.cfg := rfl
@[simp] theorem State.dropDue_clock (s : State) (r i : Nat) : (s.dropDue r i).clock = s.clock := rfl
@[simp] theorem State.dropDue_throttle (s : State) (r i : Nat) : (s.dropDue r i).throttle = s.throttle := rfl
@[simp] theorem State.dropDue_mem (s : State) (r i : Nat) : (s.dropDue r i).mem = s.mem := rfl
@[simp] theorem State.dropDue_vers (s : State) (r i : Nat) : (s.dropDue r i).vers = s.vers := rfl
@[simp] theorem State.dropDue_full (s : State) (r i : Nat) : (s.dropDue r i).full = s.full := rfl
@[simp] theorem State.dropDue_stash (s : State) (r i : Nat) : (s.dropDue r i).stash = s.stash := rfl
@[simp] theorem State.dropDue_stashOut (s : State) (r i : Nat) : (s.dropDue r i).stashOut = s.stashOut := rfl
@[simp] theorem State.dropDue_parts (s : State) (r i : Nat) : (s.dropDue r i).parts = s.parts := rfl
@[simp] theorem State.dropDue_softErr (s : State) (r i : Nat) : (s.dropDue r i).softErr = s.softErr := rfl
@[simp] theorem State.dropDue_discards (s : State) (r i : Nat) : (s.dropDue r i).discards = s.discards := rfl
@[simp] theorem State.dropDue_edges (s : State) (r i : Nat) : (s.dropDue r i).edges = s.edges := rfl
@[simp] theorem State.dropDue_clusters (s : State) (r i : Nat) : (s.dropDue r i).clusters = s.clusters := rfl
@[simp] theorem State.dropDue_dieTlb (s : State) (r i : Nat) : (s.dropDue r i).dieTlb = s.dieTlb := rfl
@[simp] theorem State.dropDue_chains (s : State) (r i : Nat) : (s.dropDue r i).chains = s.chains := rfl
@[simp] theorem State.dropDue_engines (s : State) (r i : Nat) : (s.dropDue r i).engines = s.engines := rfl
@[simp] theorem State.dropDue_regions (s : State) (r i : Nat) : (s.dropDue r i).regions = s.regions := rfl
@[simp] theorem State.dropDue_launches (s : State) (r i : Nat) : (s.dropDue r i).launches = s.launches := rfl
@[simp] theorem State.dropDue_binds (s : State) (r i : Nat) : (s.dropDue r i).binds = s.binds := rfl
@[simp] theorem State.dropDue_reqs (s : State) (r i : Nat) : (s.dropDue r i).reqs = s.reqs := rfl
@[simp] theorem State.dropDue_locks (s : State) (r i : Nat) : (s.dropDue r i).locks = s.locks := rfl
@[simp] theorem State.dropDue_thatch (s : State) (r i : Nat) : (s.dropDue r i).thatch = s.thatch := rfl
@[simp] theorem State.dropDue_colls (s : State) (r i : Nat) : (s.dropDue r i).colls = s.colls := rfl
@[simp] theorem State.dropDue_digests (s : State) (r i : Nat) : (s.dropDue r i).digests = s.digests := rfl
@[simp] theorem State.dropDue_refused (s : State) (r i : Nat) : (s.dropDue r i).refused = s.refused := rfl
@[simp] theorem State.dropDue_outbox (s : State) (r i : Nat) : (s.dropDue r i).outbox = s.outbox := rfl
@[simp] theorem State.dropDue_faulty (s : State) (r i : Nat) : (s.dropDue r i).faulty = s.faulty := rfl
@[simp] theorem State.dropDue_parked (s : State) (r i : Nat) : (s.dropDue r i).parked = s.parked := rfl
@[simp] theorem State.dropDue_inbox (s : State) (r i : Nat) : (s.dropDue r i).inbox = s.inbox := rfl
@[simp] theorem State.dropDue_serial (s : State) (r i : Nat) : (s.dropDue r i).serial = s.serial := rfl
@[simp] theorem State.dropDue_agenda (s : State) (r i : Nat) : (s.dropDue r i).agenda = s.agenda := rfl
@[simp] theorem State.dropDue_stepNo (s : State) (r i : Nat) : (s.dropDue r i).stepNo = s.stepNo := rfl
@[simp] theorem State.dropDue_focus (s : State) (r i : Nat) : (s.dropDue r i).focus = s.focus := rfl

@[simp] theorem State.holdLg_power (s : State) (g : LaneGroups) : (s.holdLg g).power = s.power := rfl
@[simp] theorem State.holdLg_boot (s : State) (g : LaneGroups) : (s.holdLg g).boot = s.boot := rfl
@[simp] theorem State.holdLg_flash (s : State) (g : LaneGroups) : (s.holdLg g).flash = s.flash := rfl
@[simp] theorem State.holdLg_cfg (s : State) (g : LaneGroups) : (s.holdLg g).cfg = s.cfg := rfl
@[simp] theorem State.holdLg_clock (s : State) (g : LaneGroups) : (s.holdLg g).clock = s.clock := rfl
@[simp] theorem State.holdLg_throttle (s : State) (g : LaneGroups) : (s.holdLg g).throttle = s.throttle := rfl
@[simp] theorem State.holdLg_mem (s : State) (g : LaneGroups) : (s.holdLg g).mem = s.mem := rfl
@[simp] theorem State.holdLg_vers (s : State) (g : LaneGroups) : (s.holdLg g).vers = s.vers := rfl
@[simp] theorem State.holdLg_full (s : State) (g : LaneGroups) : (s.holdLg g).full = s.full := rfl
@[simp] theorem State.holdLg_stash (s : State) (g : LaneGroups) : (s.holdLg g).stash = s.stash := rfl
@[simp] theorem State.holdLg_stashOut (s : State) (g : LaneGroups) : (s.holdLg g).stashOut = s.stashOut := rfl
@[simp] theorem State.holdLg_parts (s : State) (g : LaneGroups) : (s.holdLg g).parts = s.parts := rfl
@[simp] theorem State.holdLg_softErr (s : State) (g : LaneGroups) : (s.holdLg g).softErr = s.softErr := rfl
@[simp] theorem State.holdLg_discards (s : State) (g : LaneGroups) : (s.holdLg g).discards = s.discards := rfl
@[simp] theorem State.holdLg_edges (s : State) (g : LaneGroups) : (s.holdLg g).edges = s.edges := rfl
@[simp] theorem State.holdLg_clusters (s : State) (g : LaneGroups) : (s.holdLg g).clusters = s.clusters := rfl
@[simp] theorem State.holdLg_dieTlb (s : State) (g : LaneGroups) : (s.holdLg g).dieTlb = s.dieTlb := rfl
@[simp] theorem State.holdLg_chains (s : State) (g : LaneGroups) : (s.holdLg g).chains = s.chains := rfl
@[simp] theorem State.holdLg_engines (s : State) (g : LaneGroups) : (s.holdLg g).engines = s.engines := rfl
@[simp] theorem State.holdLg_regions (s : State) (g : LaneGroups) : (s.holdLg g).regions = s.regions := rfl
@[simp] theorem State.holdLg_launches (s : State) (g : LaneGroups) : (s.holdLg g).launches = s.launches := rfl
@[simp] theorem State.holdLg_binds (s : State) (g : LaneGroups) : (s.holdLg g).binds = s.binds := rfl
@[simp] theorem State.holdLg_reqs (s : State) (g : LaneGroups) : (s.holdLg g).reqs = s.reqs := rfl
@[simp] theorem State.holdLg_locks (s : State) (g : LaneGroups) : (s.holdLg g).locks = s.locks := rfl
@[simp] theorem State.holdLg_thatch (s : State) (g : LaneGroups) : (s.holdLg g).thatch = s.thatch := rfl
@[simp] theorem State.holdLg_colls (s : State) (g : LaneGroups) : (s.holdLg g).colls = s.colls := rfl
@[simp] theorem State.holdLg_digests (s : State) (g : LaneGroups) : (s.holdLg g).digests = s.digests := rfl
@[simp] theorem State.holdLg_refused (s : State) (g : LaneGroups) : (s.holdLg g).refused = s.refused := rfl
@[simp] theorem State.holdLg_outbox (s : State) (g : LaneGroups) : (s.holdLg g).outbox = s.outbox := rfl
@[simp] theorem State.holdLg_faulty (s : State) (g : LaneGroups) : (s.holdLg g).faulty = s.faulty := rfl
@[simp] theorem State.holdLg_parked (s : State) (g : LaneGroups) : (s.holdLg g).parked = s.parked := rfl
@[simp] theorem State.holdLg_inbox (s : State) (g : LaneGroups) : (s.holdLg g).inbox = s.inbox := rfl
@[simp] theorem State.holdLg_serial (s : State) (g : LaneGroups) : (s.holdLg g).serial = s.serial := rfl
@[simp] theorem State.holdLg_agenda (s : State) (g : LaneGroups) : (s.holdLg g).agenda = s.agenda := rfl
@[simp] theorem State.holdLg_stepNo (s : State) (g : LaneGroups) : (s.holdLg g).stepNo = s.stepNo := rfl
@[simp] theorem State.holdLg_focus (s : State) (g : LaneGroups) : (s.holdLg g).focus = s.focus := rfl

@[simp] theorem State.countLaunch_power (s : State) : (s.countLaunch).power = s.power := rfl
@[simp] theorem State.countLaunch_boot (s : State) : (s.countLaunch).boot = s.boot := rfl
@[simp] theorem State.countLaunch_flash (s : State) : (s.countLaunch).flash = s.flash := rfl
@[simp] theorem State.countLaunch_cfg (s : State) : (s.countLaunch).cfg = s.cfg := rfl
@[simp] theorem State.countLaunch_clock (s : State) : (s.countLaunch).clock = s.clock := rfl
@[simp] theorem State.countLaunch_throttle (s : State) : (s.countLaunch).throttle = s.throttle := rfl
@[simp] theorem State.countLaunch_mem (s : State) : (s.countLaunch).mem = s.mem := rfl
@[simp] theorem State.countLaunch_vers (s : State) : (s.countLaunch).vers = s.vers := rfl
@[simp] theorem State.countLaunch_full (s : State) : (s.countLaunch).full = s.full := rfl
@[simp] theorem State.countLaunch_stash (s : State) : (s.countLaunch).stash = s.stash := rfl
@[simp] theorem State.countLaunch_stashOut (s : State) : (s.countLaunch).stashOut = s.stashOut := rfl
@[simp] theorem State.countLaunch_parts (s : State) : (s.countLaunch).parts = s.parts := rfl
@[simp] theorem State.countLaunch_softErr (s : State) : (s.countLaunch).softErr = s.softErr := rfl
@[simp] theorem State.countLaunch_discards (s : State) : (s.countLaunch).discards = s.discards := rfl
@[simp] theorem State.countLaunch_edges (s : State) : (s.countLaunch).edges = s.edges := rfl
@[simp] theorem State.countLaunch_clusters (s : State) : (s.countLaunch).clusters = s.clusters := rfl
@[simp] theorem State.countLaunch_dieTlb (s : State) : (s.countLaunch).dieTlb = s.dieTlb := rfl
@[simp] theorem State.countLaunch_chains (s : State) : (s.countLaunch).chains = s.chains := rfl
@[simp] theorem State.countLaunch_engines (s : State) : (s.countLaunch).engines = s.engines := rfl
@[simp] theorem State.countLaunch_regions (s : State) : (s.countLaunch).regions = s.regions := rfl
@[simp] theorem State.countLaunch_launches (s : State) : (s.countLaunch).launches = s.launches := rfl
@[simp] theorem State.countLaunch_binds (s : State) : (s.countLaunch).binds = s.binds := rfl
@[simp] theorem State.countLaunch_reqs (s : State) : (s.countLaunch).reqs = s.reqs := rfl
@[simp] theorem State.countLaunch_locks (s : State) : (s.countLaunch).locks = s.locks := rfl
@[simp] theorem State.countLaunch_thatch (s : State) : (s.countLaunch).thatch = s.thatch := rfl
@[simp] theorem State.countLaunch_colls (s : State) : (s.countLaunch).colls = s.colls := rfl
@[simp] theorem State.countLaunch_digests (s : State) : (s.countLaunch).digests = s.digests := rfl
@[simp] theorem State.countLaunch_refused (s : State) : (s.countLaunch).refused = s.refused := rfl
@[simp] theorem State.countLaunch_outbox (s : State) : (s.countLaunch).outbox = s.outbox := rfl
@[simp] theorem State.countLaunch_faulty (s : State) : (s.countLaunch).faulty = s.faulty := rfl
@[simp] theorem State.countLaunch_parked (s : State) : (s.countLaunch).parked = s.parked := rfl
@[simp] theorem State.countLaunch_inbox (s : State) : (s.countLaunch).inbox = s.inbox := rfl
@[simp] theorem State.countLaunch_serial (s : State) : (s.countLaunch).serial = s.serial := rfl
@[simp] theorem State.countLaunch_agenda (s : State) : (s.countLaunch).agenda = s.agenda := rfl
@[simp] theorem State.countLaunch_stepNo (s : State) : (s.countLaunch).stepNo = s.stepNo := rfl
@[simp] theorem State.countLaunch_focus (s : State) : (s.countLaunch).focus = s.focus := rfl

@[simp] theorem State.feSet_power (s : State) (l : List Nat) : (s.feSet l).power = s.power := rfl
@[simp] theorem State.feSet_boot (s : State) (l : List Nat) : (s.feSet l).boot = s.boot := rfl
@[simp] theorem State.feSet_flash (s : State) (l : List Nat) : (s.feSet l).flash = s.flash := rfl
@[simp] theorem State.feSet_cfg (s : State) (l : List Nat) : (s.feSet l).cfg = s.cfg := rfl
@[simp] theorem State.feSet_clock (s : State) (l : List Nat) : (s.feSet l).clock = s.clock := rfl
@[simp] theorem State.feSet_throttle (s : State) (l : List Nat) : (s.feSet l).throttle = s.throttle := rfl
@[simp] theorem State.feSet_mem (s : State) (l : List Nat) : (s.feSet l).mem = s.mem := rfl
@[simp] theorem State.feSet_vers (s : State) (l : List Nat) : (s.feSet l).vers = s.vers := rfl
@[simp] theorem State.feSet_stash (s : State) (l : List Nat) : (s.feSet l).stash = s.stash := rfl
@[simp] theorem State.feSet_stashOut (s : State) (l : List Nat) : (s.feSet l).stashOut = s.stashOut := rfl
@[simp] theorem State.feSet_parts (s : State) (l : List Nat) : (s.feSet l).parts = s.parts := rfl
@[simp] theorem State.feSet_elems (s : State) (l : List Nat) : (s.feSet l).elems = s.elems := rfl
@[simp] theorem State.feSet_softErr (s : State) (l : List Nat) : (s.feSet l).softErr = s.softErr := rfl
@[simp] theorem State.feSet_discards (s : State) (l : List Nat) : (s.feSet l).discards = s.discards := rfl
@[simp] theorem State.feSet_edges (s : State) (l : List Nat) : (s.feSet l).edges = s.edges := rfl
@[simp] theorem State.feSet_clusters (s : State) (l : List Nat) : (s.feSet l).clusters = s.clusters := rfl
@[simp] theorem State.feSet_dieTlb (s : State) (l : List Nat) : (s.feSet l).dieTlb = s.dieTlb := rfl
@[simp] theorem State.feSet_chains (s : State) (l : List Nat) : (s.feSet l).chains = s.chains := rfl
@[simp] theorem State.feSet_engines (s : State) (l : List Nat) : (s.feSet l).engines = s.engines := rfl
@[simp] theorem State.feSet_regions (s : State) (l : List Nat) : (s.feSet l).regions = s.regions := rfl
@[simp] theorem State.feSet_launches (s : State) (l : List Nat) : (s.feSet l).launches = s.launches := rfl
@[simp] theorem State.feSet_binds (s : State) (l : List Nat) : (s.feSet l).binds = s.binds := rfl
@[simp] theorem State.feSet_reqs (s : State) (l : List Nat) : (s.feSet l).reqs = s.reqs := rfl
@[simp] theorem State.feSet_locks (s : State) (l : List Nat) : (s.feSet l).locks = s.locks := rfl
@[simp] theorem State.feSet_thatch (s : State) (l : List Nat) : (s.feSet l).thatch = s.thatch := rfl
@[simp] theorem State.feSet_colls (s : State) (l : List Nat) : (s.feSet l).colls = s.colls := rfl
@[simp] theorem State.feSet_digests (s : State) (l : List Nat) : (s.feSet l).digests = s.digests := rfl
@[simp] theorem State.feSet_refused (s : State) (l : List Nat) : (s.feSet l).refused = s.refused := rfl
@[simp] theorem State.feSet_outbox (s : State) (l : List Nat) : (s.feSet l).outbox = s.outbox := rfl
@[simp] theorem State.feSet_faulty (s : State) (l : List Nat) : (s.feSet l).faulty = s.faulty := rfl
@[simp] theorem State.feSet_parked (s : State) (l : List Nat) : (s.feSet l).parked = s.parked := rfl
@[simp] theorem State.feSet_inbox (s : State) (l : List Nat) : (s.feSet l).inbox = s.inbox := rfl
@[simp] theorem State.feSet_serial (s : State) (l : List Nat) : (s.feSet l).serial = s.serial := rfl
@[simp] theorem State.feSet_agenda (s : State) (l : List Nat) : (s.feSet l).agenda = s.agenda := rfl
@[simp] theorem State.feSet_stepNo (s : State) (l : List Nat) : (s.feSet l).stepNo = s.stepNo := rfl
@[simp] theorem State.feSet_focus (s : State) (l : List Nat) : (s.feSet l).focus = s.focus := rfl

@[simp] theorem State.feClear_power (s : State) (l : List Nat) : (s.feClear l).power = s.power := rfl
@[simp] theorem State.feClear_boot (s : State) (l : List Nat) : (s.feClear l).boot = s.boot := rfl
@[simp] theorem State.feClear_flash (s : State) (l : List Nat) : (s.feClear l).flash = s.flash := rfl
@[simp] theorem State.feClear_cfg (s : State) (l : List Nat) : (s.feClear l).cfg = s.cfg := rfl
@[simp] theorem State.feClear_clock (s : State) (l : List Nat) : (s.feClear l).clock = s.clock := rfl
@[simp] theorem State.feClear_throttle (s : State) (l : List Nat) : (s.feClear l).throttle = s.throttle := rfl
@[simp] theorem State.feClear_mem (s : State) (l : List Nat) : (s.feClear l).mem = s.mem := rfl
@[simp] theorem State.feClear_vers (s : State) (l : List Nat) : (s.feClear l).vers = s.vers := rfl
@[simp] theorem State.feClear_stash (s : State) (l : List Nat) : (s.feClear l).stash = s.stash := rfl
@[simp] theorem State.feClear_stashOut (s : State) (l : List Nat) : (s.feClear l).stashOut = s.stashOut := rfl
@[simp] theorem State.feClear_parts (s : State) (l : List Nat) : (s.feClear l).parts = s.parts := rfl
@[simp] theorem State.feClear_elems (s : State) (l : List Nat) : (s.feClear l).elems = s.elems := rfl
@[simp] theorem State.feClear_softErr (s : State) (l : List Nat) : (s.feClear l).softErr = s.softErr := rfl
@[simp] theorem State.feClear_discards (s : State) (l : List Nat) : (s.feClear l).discards = s.discards := rfl
@[simp] theorem State.feClear_edges (s : State) (l : List Nat) : (s.feClear l).edges = s.edges := rfl
@[simp] theorem State.feClear_clusters (s : State) (l : List Nat) : (s.feClear l).clusters = s.clusters := rfl
@[simp] theorem State.feClear_dieTlb (s : State) (l : List Nat) : (s.feClear l).dieTlb = s.dieTlb := rfl
@[simp] theorem State.feClear_chains (s : State) (l : List Nat) : (s.feClear l).chains = s.chains := rfl
@[simp] theorem State.feClear_engines (s : State) (l : List Nat) : (s.feClear l).engines = s.engines := rfl
@[simp] theorem State.feClear_regions (s : State) (l : List Nat) : (s.feClear l).regions = s.regions := rfl
@[simp] theorem State.feClear_launches (s : State) (l : List Nat) : (s.feClear l).launches = s.launches := rfl
@[simp] theorem State.feClear_binds (s : State) (l : List Nat) : (s.feClear l).binds = s.binds := rfl
@[simp] theorem State.feClear_reqs (s : State) (l : List Nat) : (s.feClear l).reqs = s.reqs := rfl
@[simp] theorem State.feClear_locks (s : State) (l : List Nat) : (s.feClear l).locks = s.locks := rfl
@[simp] theorem State.feClear_thatch (s : State) (l : List Nat) : (s.feClear l).thatch = s.thatch := rfl
@[simp] theorem State.feClear_colls (s : State) (l : List Nat) : (s.feClear l).colls = s.colls := rfl
@[simp] theorem State.feClear_digests (s : State) (l : List Nat) : (s.feClear l).digests = s.digests := rfl
@[simp] theorem State.feClear_refused (s : State) (l : List Nat) : (s.feClear l).refused = s.refused := rfl
@[simp] theorem State.feClear_outbox (s : State) (l : List Nat) : (s.feClear l).outbox = s.outbox := rfl
@[simp] theorem State.feClear_faulty (s : State) (l : List Nat) : (s.feClear l).faulty = s.faulty := rfl
@[simp] theorem State.feClear_parked (s : State) (l : List Nat) : (s.feClear l).parked = s.parked := rfl
@[simp] theorem State.feClear_inbox (s : State) (l : List Nat) : (s.feClear l).inbox = s.inbox := rfl
@[simp] theorem State.feClear_serial (s : State) (l : List Nat) : (s.feClear l).serial = s.serial := rfl
@[simp] theorem State.feClear_agenda (s : State) (l : List Nat) : (s.feClear l).agenda = s.agenda := rfl
@[simp] theorem State.feClear_stepNo (s : State) (l : List Nat) : (s.feClear l).stepNo = s.stepNo := rfl
@[simp] theorem State.feClear_focus (s : State) (l : List Nat) : (s.feClear l).focus = s.focus := rfl

@[simp] theorem State.localStore_power (s : State) (o : Nat) (l : List Byte) : (s.localStore o l).power = s.power := rfl
@[simp] theorem State.localStore_boot (s : State) (o : Nat) (l : List Byte) : (s.localStore o l).boot = s.boot := rfl
@[simp] theorem State.localStore_flash (s : State) (o : Nat) (l : List Byte) : (s.localStore o l).flash = s.flash := rfl
@[simp] theorem State.localStore_cfg (s : State) (o : Nat) (l : List Byte) : (s.localStore o l).cfg = s.cfg := rfl
@[simp] theorem State.localStore_clock (s : State) (o : Nat) (l : List Byte) : (s.localStore o l).clock = s.clock := rfl
@[simp] theorem State.localStore_throttle (s : State) (o : Nat) (l : List Byte) : (s.localStore o l).throttle = s.throttle := rfl
@[simp] theorem State.localStore_vers (s : State) (o : Nat) (l : List Byte) : (s.localStore o l).vers = s.vers := rfl
@[simp] theorem State.localStore_full (s : State) (o : Nat) (l : List Byte) : (s.localStore o l).full = s.full := rfl
@[simp] theorem State.localStore_stash (s : State) (o : Nat) (l : List Byte) : (s.localStore o l).stash = s.stash := rfl
@[simp] theorem State.localStore_stashOut (s : State) (o : Nat) (l : List Byte) : (s.localStore o l).stashOut = s.stashOut := rfl
@[simp] theorem State.localStore_parts (s : State) (o : Nat) (l : List Byte) : (s.localStore o l).parts = s.parts := rfl
@[simp] theorem State.localStore_softErr (s : State) (o : Nat) (l : List Byte) : (s.localStore o l).softErr = s.softErr := rfl
@[simp] theorem State.localStore_discards (s : State) (o : Nat) (l : List Byte) : (s.localStore o l).discards = s.discards := rfl
@[simp] theorem State.localStore_edges (s : State) (o : Nat) (l : List Byte) : (s.localStore o l).edges = s.edges := rfl
@[simp] theorem State.localStore_clusters (s : State) (o : Nat) (l : List Byte) : (s.localStore o l).clusters = s.clusters := rfl
@[simp] theorem State.localStore_dieTlb (s : State) (o : Nat) (l : List Byte) : (s.localStore o l).dieTlb = s.dieTlb := rfl
@[simp] theorem State.localStore_chains (s : State) (o : Nat) (l : List Byte) : (s.localStore o l).chains = s.chains := rfl
@[simp] theorem State.localStore_engines (s : State) (o : Nat) (l : List Byte) : (s.localStore o l).engines = s.engines := rfl
@[simp] theorem State.localStore_regions (s : State) (o : Nat) (l : List Byte) : (s.localStore o l).regions = s.regions := rfl
@[simp] theorem State.localStore_launches (s : State) (o : Nat) (l : List Byte) : (s.localStore o l).launches = s.launches := rfl
@[simp] theorem State.localStore_binds (s : State) (o : Nat) (l : List Byte) : (s.localStore o l).binds = s.binds := rfl
@[simp] theorem State.localStore_reqs (s : State) (o : Nat) (l : List Byte) : (s.localStore o l).reqs = s.reqs := rfl
@[simp] theorem State.localStore_locks (s : State) (o : Nat) (l : List Byte) : (s.localStore o l).locks = s.locks := rfl
@[simp] theorem State.localStore_thatch (s : State) (o : Nat) (l : List Byte) : (s.localStore o l).thatch = s.thatch := rfl
@[simp] theorem State.localStore_colls (s : State) (o : Nat) (l : List Byte) : (s.localStore o l).colls = s.colls := rfl
@[simp] theorem State.localStore_digests (s : State) (o : Nat) (l : List Byte) : (s.localStore o l).digests = s.digests := rfl
@[simp] theorem State.localStore_refused (s : State) (o : Nat) (l : List Byte) : (s.localStore o l).refused = s.refused := rfl
@[simp] theorem State.localStore_outbox (s : State) (o : Nat) (l : List Byte) : (s.localStore o l).outbox = s.outbox := rfl
@[simp] theorem State.localStore_faulty (s : State) (o : Nat) (l : List Byte) : (s.localStore o l).faulty = s.faulty := rfl
@[simp] theorem State.localStore_parked (s : State) (o : Nat) (l : List Byte) : (s.localStore o l).parked = s.parked := rfl
@[simp] theorem State.localStore_inbox (s : State) (o : Nat) (l : List Byte) : (s.localStore o l).inbox = s.inbox := rfl
@[simp] theorem State.localStore_serial (s : State) (o : Nat) (l : List Byte) : (s.localStore o l).serial = s.serial := rfl
@[simp] theorem State.localStore_agenda (s : State) (o : Nat) (l : List Byte) : (s.localStore o l).agenda = s.agenda := rfl
@[simp] theorem State.localStore_stepNo (s : State) (o : Nat) (l : List Byte) : (s.localStore o l).stepNo = s.stepNo := rfl
@[simp] theorem State.localStore_focus (s : State) (o : Nat) (l : List Byte) : (s.localStore o l).focus = s.focus := rfl

@[simp] theorem State.clockTo_power (s : State) (n : Nat) : (s.clockTo n).power = s.power := rfl
@[simp] theorem State.clockTo_boot (s : State) (n : Nat) : (s.clockTo n).boot = s.boot := rfl
@[simp] theorem State.clockTo_flash (s : State) (n : Nat) : (s.clockTo n).flash = s.flash := rfl
@[simp] theorem State.clockTo_cfg (s : State) (n : Nat) : (s.clockTo n).cfg = s.cfg := rfl
@[simp] theorem State.clockTo_throttle (s : State) (n : Nat) : (s.clockTo n).throttle = s.throttle := rfl
@[simp] theorem State.clockTo_mem (s : State) (n : Nat) : (s.clockTo n).mem = s.mem := rfl
@[simp] theorem State.clockTo_vers (s : State) (n : Nat) : (s.clockTo n).vers = s.vers := rfl
@[simp] theorem State.clockTo_full (s : State) (n : Nat) : (s.clockTo n).full = s.full := rfl
@[simp] theorem State.clockTo_stash (s : State) (n : Nat) : (s.clockTo n).stash = s.stash := rfl
@[simp] theorem State.clockTo_stashOut (s : State) (n : Nat) : (s.clockTo n).stashOut = s.stashOut := rfl
@[simp] theorem State.clockTo_parts (s : State) (n : Nat) : (s.clockTo n).parts = s.parts := rfl
@[simp] theorem State.clockTo_elems (s : State) (n : Nat) : (s.clockTo n).elems = s.elems := rfl
@[simp] theorem State.clockTo_softErr (s : State) (n : Nat) : (s.clockTo n).softErr = s.softErr := rfl
@[simp] theorem State.clockTo_discards (s : State) (n : Nat) : (s.clockTo n).discards = s.discards := rfl
@[simp] theorem State.clockTo_edges (s : State) (n : Nat) : (s.clockTo n).edges = s.edges := rfl
@[simp] theorem State.clockTo_clusters (s : State) (n : Nat) : (s.clockTo n).clusters = s.clusters := rfl
@[simp] theorem State.clockTo_dieTlb (s : State) (n : Nat) : (s.clockTo n).dieTlb = s.dieTlb := rfl
@[simp] theorem State.clockTo_chains (s : State) (n : Nat) : (s.clockTo n).chains = s.chains := rfl
@[simp] theorem State.clockTo_engines (s : State) (n : Nat) : (s.clockTo n).engines = s.engines := rfl
@[simp] theorem State.clockTo_regions (s : State) (n : Nat) : (s.clockTo n).regions = s.regions := rfl
@[simp] theorem State.clockTo_launches (s : State) (n : Nat) : (s.clockTo n).launches = s.launches := rfl
@[simp] theorem State.clockTo_binds (s : State) (n : Nat) : (s.clockTo n).binds = s.binds := rfl
@[simp] theorem State.clockTo_reqs (s : State) (n : Nat) : (s.clockTo n).reqs = s.reqs := rfl
@[simp] theorem State.clockTo_locks (s : State) (n : Nat) : (s.clockTo n).locks = s.locks := rfl
@[simp] theorem State.clockTo_thatch (s : State) (n : Nat) : (s.clockTo n).thatch = s.thatch := rfl
@[simp] theorem State.clockTo_colls (s : State) (n : Nat) : (s.clockTo n).colls = s.colls := rfl
@[simp] theorem State.clockTo_digests (s : State) (n : Nat) : (s.clockTo n).digests = s.digests := rfl
@[simp] theorem State.clockTo_refused (s : State) (n : Nat) : (s.clockTo n).refused = s.refused := rfl
@[simp] theorem State.clockTo_outbox (s : State) (n : Nat) : (s.clockTo n).outbox = s.outbox := rfl
@[simp] theorem State.clockTo_faulty (s : State) (n : Nat) : (s.clockTo n).faulty = s.faulty := rfl
@[simp] theorem State.clockTo_parked (s : State) (n : Nat) : (s.clockTo n).parked = s.parked := rfl
@[simp] theorem State.clockTo_inbox (s : State) (n : Nat) : (s.clockTo n).inbox = s.inbox := rfl
@[simp] theorem State.clockTo_serial (s : State) (n : Nat) : (s.clockTo n).serial = s.serial := rfl
@[simp] theorem State.clockTo_agenda (s : State) (n : Nat) : (s.clockTo n).agenda = s.agenda := rfl
@[simp] theorem State.clockTo_stepNo (s : State) (n : Nat) : (s.clockTo n).stepNo = s.stepNo := rfl
@[simp] theorem State.clockTo_focus (s : State) (n : Nat) : (s.clockTo n).focus = s.focus := rfl

@[simp] theorem State.upset_power (s : State) (l : List Nat) : (s.upset l).power = s.power := rfl
@[simp] theorem State.upset_boot (s : State) (l : List Nat) : (s.upset l).boot = s.boot := rfl
@[simp] theorem State.upset_flash (s : State) (l : List Nat) : (s.upset l).flash = s.flash := rfl
@[simp] theorem State.upset_cfg (s : State) (l : List Nat) : (s.upset l).cfg = s.cfg := rfl
@[simp] theorem State.upset_clock (s : State) (l : List Nat) : (s.upset l).clock = s.clock := rfl
@[simp] theorem State.upset_throttle (s : State) (l : List Nat) : (s.upset l).throttle = s.throttle := rfl
@[simp] theorem State.upset_mem (s : State) (l : List Nat) : (s.upset l).mem = s.mem := rfl
@[simp] theorem State.upset_vers (s : State) (l : List Nat) : (s.upset l).vers = s.vers := rfl
@[simp] theorem State.upset_full (s : State) (l : List Nat) : (s.upset l).full = s.full := rfl
@[simp] theorem State.upset_stash (s : State) (l : List Nat) : (s.upset l).stash = s.stash := rfl
@[simp] theorem State.upset_stashOut (s : State) (l : List Nat) : (s.upset l).stashOut = s.stashOut := rfl
@[simp] theorem State.upset_parts (s : State) (l : List Nat) : (s.upset l).parts = s.parts := rfl
@[simp] theorem State.upset_elems (s : State) (l : List Nat) : (s.upset l).elems = s.elems := rfl
@[simp] theorem State.upset_softErr (s : State) (l : List Nat) : (s.upset l).softErr = s.softErr := rfl
@[simp] theorem State.upset_discards (s : State) (l : List Nat) : (s.upset l).discards = s.discards := rfl
@[simp] theorem State.upset_edges (s : State) (l : List Nat) : (s.upset l).edges = s.edges := rfl
@[simp] theorem State.upset_clusters (s : State) (l : List Nat) : (s.upset l).clusters = s.clusters := rfl
@[simp] theorem State.upset_dieTlb (s : State) (l : List Nat) : (s.upset l).dieTlb = s.dieTlb := rfl
@[simp] theorem State.upset_chains (s : State) (l : List Nat) : (s.upset l).chains = s.chains := rfl
@[simp] theorem State.upset_engines (s : State) (l : List Nat) : (s.upset l).engines = s.engines := rfl
@[simp] theorem State.upset_regions (s : State) (l : List Nat) : (s.upset l).regions = s.regions := rfl
@[simp] theorem State.upset_launches (s : State) (l : List Nat) : (s.upset l).launches = s.launches := rfl
@[simp] theorem State.upset_binds (s : State) (l : List Nat) : (s.upset l).binds = s.binds := rfl
@[simp] theorem State.upset_reqs (s : State) (l : List Nat) : (s.upset l).reqs = s.reqs := rfl
@[simp] theorem State.upset_locks (s : State) (l : List Nat) : (s.upset l).locks = s.locks := rfl
@[simp] theorem State.upset_thatch (s : State) (l : List Nat) : (s.upset l).thatch = s.thatch := rfl
@[simp] theorem State.upset_colls (s : State) (l : List Nat) : (s.upset l).colls = s.colls := rfl
@[simp] theorem State.upset_digests (s : State) (l : List Nat) : (s.upset l).digests = s.digests := rfl
@[simp] theorem State.upset_refused (s : State) (l : List Nat) : (s.upset l).refused = s.refused := rfl
@[simp] theorem State.upset_outbox (s : State) (l : List Nat) : (s.upset l).outbox = s.outbox := rfl
@[simp] theorem State.upset_parked (s : State) (l : List Nat) : (s.upset l).parked = s.parked := rfl
@[simp] theorem State.upset_inbox (s : State) (l : List Nat) : (s.upset l).inbox = s.inbox := rfl
@[simp] theorem State.upset_serial (s : State) (l : List Nat) : (s.upset l).serial = s.serial := rfl
@[simp] theorem State.upset_agenda (s : State) (l : List Nat) : (s.upset l).agenda = s.agenda := rfl
@[simp] theorem State.upset_stepNo (s : State) (l : List Nat) : (s.upset l).stepNo = s.stepNo := rfl
@[simp] theorem State.upset_focus (s : State) (l : List Nat) : (s.upset l).focus = s.focus := rfl

@[simp] theorem State.fresh_power (s : State) : s.fresh.2.power = s.power := rfl
@[simp] theorem State.fresh_boot (s : State) : s.fresh.2.boot = s.boot := rfl
@[simp] theorem State.fresh_flash (s : State) : s.fresh.2.flash = s.flash := rfl
@[simp] theorem State.fresh_cfg (s : State) : s.fresh.2.cfg = s.cfg := rfl
@[simp] theorem State.fresh_clock (s : State) : s.fresh.2.clock = s.clock := rfl
@[simp] theorem State.fresh_throttle (s : State) : s.fresh.2.throttle = s.throttle := rfl
@[simp] theorem State.fresh_mem (s : State) : s.fresh.2.mem = s.mem := rfl
@[simp] theorem State.fresh_vers (s : State) : s.fresh.2.vers = s.vers := rfl
@[simp] theorem State.fresh_full (s : State) : s.fresh.2.full = s.full := rfl
@[simp] theorem State.fresh_stash (s : State) : s.fresh.2.stash = s.stash := rfl
@[simp] theorem State.fresh_stashOut (s : State) : s.fresh.2.stashOut = s.stashOut := rfl
@[simp] theorem State.fresh_parts (s : State) : s.fresh.2.parts = s.parts := rfl
@[simp] theorem State.fresh_elems (s : State) : s.fresh.2.elems = s.elems := rfl
@[simp] theorem State.fresh_softErr (s : State) : s.fresh.2.softErr = s.softErr := rfl
@[simp] theorem State.fresh_discards (s : State) : s.fresh.2.discards = s.discards := rfl
@[simp] theorem State.fresh_edges (s : State) : s.fresh.2.edges = s.edges := rfl
@[simp] theorem State.fresh_clusters (s : State) : s.fresh.2.clusters = s.clusters := rfl
@[simp] theorem State.fresh_dieTlb (s : State) : s.fresh.2.dieTlb = s.dieTlb := rfl
@[simp] theorem State.fresh_chains (s : State) : s.fresh.2.chains = s.chains := rfl
@[simp] theorem State.fresh_engines (s : State) : s.fresh.2.engines = s.engines := rfl
@[simp] theorem State.fresh_regions (s : State) : s.fresh.2.regions = s.regions := rfl
@[simp] theorem State.fresh_launches (s : State) : s.fresh.2.launches = s.launches := rfl
@[simp] theorem State.fresh_binds (s : State) : s.fresh.2.binds = s.binds := rfl
@[simp] theorem State.fresh_reqs (s : State) : s.fresh.2.reqs = s.reqs := rfl
@[simp] theorem State.fresh_locks (s : State) : s.fresh.2.locks = s.locks := rfl
@[simp] theorem State.fresh_thatch (s : State) : s.fresh.2.thatch = s.thatch := rfl
@[simp] theorem State.fresh_colls (s : State) : s.fresh.2.colls = s.colls := rfl
@[simp] theorem State.fresh_digests (s : State) : s.fresh.2.digests = s.digests := rfl
@[simp] theorem State.fresh_refused (s : State) : s.fresh.2.refused = s.refused := rfl
@[simp] theorem State.fresh_outbox (s : State) : s.fresh.2.outbox = s.outbox := rfl
@[simp] theorem State.fresh_faulty (s : State) : s.fresh.2.faulty = s.faulty := rfl
@[simp] theorem State.fresh_parked (s : State) : s.fresh.2.parked = s.parked := rfl
@[simp] theorem State.fresh_inbox (s : State) : s.fresh.2.inbox = s.inbox := rfl
@[simp] theorem State.fresh_agenda (s : State) : s.fresh.2.agenda = s.agenda := rfl
@[simp] theorem State.fresh_stepNo (s : State) : s.fresh.2.stepNo = s.stepNo := rfl
@[simp] theorem State.fresh_focus (s : State) : s.fresh.2.focus = s.focus := rfl
@[simp] theorem State.fresh_id (s : State) : s.fresh.1 = s.serial := rfl
@[simp] theorem State.fresh_serial (s : State) : s.fresh.2.serial = s.serial + 1 := rfl
@[simp] theorem State.issued_power (s : State) (r i : Nat) : (s.issued r i).power = s.power := rfl
@[simp] theorem State.issued_boot (s : State) (r i : Nat) : (s.issued r i).boot = s.boot := rfl
@[simp] theorem State.issued_flash (s : State) (r i : Nat) : (s.issued r i).flash = s.flash := rfl
@[simp] theorem State.issued_cfg (s : State) (r i : Nat) : (s.issued r i).cfg = s.cfg := rfl
@[simp] theorem State.issued_clock (s : State) (r i : Nat) : (s.issued r i).clock = s.clock := rfl
@[simp] theorem State.issued_throttle (s : State) (r i : Nat) : (s.issued r i).throttle = s.throttle := rfl
@[simp] theorem State.issued_mem (s : State) (r i : Nat) : (s.issued r i).mem = s.mem := rfl
@[simp] theorem State.issued_vers (s : State) (r i : Nat) : (s.issued r i).vers = s.vers := rfl
@[simp] theorem State.issued_full (s : State) (r i : Nat) : (s.issued r i).full = s.full := rfl
@[simp] theorem State.issued_stash (s : State) (r i : Nat) : (s.issued r i).stash = s.stash := rfl
@[simp] theorem State.issued_stashOut (s : State) (r i : Nat) : (s.issued r i).stashOut = s.stashOut := rfl
@[simp] theorem State.issued_parts (s : State) (r i : Nat) : (s.issued r i).parts = s.parts := rfl
@[simp] theorem State.issued_softErr (s : State) (r i : Nat) : (s.issued r i).softErr = s.softErr := rfl
@[simp] theorem State.issued_discards (s : State) (r i : Nat) : (s.issued r i).discards = s.discards := rfl
@[simp] theorem State.issued_edges (s : State) (r i : Nat) : (s.issued r i).edges = s.edges := rfl
@[simp] theorem State.issued_clusters (s : State) (r i : Nat) : (s.issued r i).clusters = s.clusters := rfl
@[simp] theorem State.issued_dieTlb (s : State) (r i : Nat) : (s.issued r i).dieTlb = s.dieTlb := rfl
@[simp] theorem State.issued_chains (s : State) (r i : Nat) : (s.issued r i).chains = s.chains := rfl
@[simp] theorem State.issued_engines (s : State) (r i : Nat) : (s.issued r i).engines = s.engines := rfl
@[simp] theorem State.issued_regions (s : State) (r i : Nat) : (s.issued r i).regions = s.regions := rfl
@[simp] theorem State.issued_launches (s : State) (r i : Nat) : (s.issued r i).launches = s.launches := rfl
@[simp] theorem State.issued_binds (s : State) (r i : Nat) : (s.issued r i).binds = s.binds := rfl
@[simp] theorem State.issued_reqs (s : State) (r i : Nat) : (s.issued r i).reqs = s.reqs := rfl
@[simp] theorem State.issued_locks (s : State) (r i : Nat) : (s.issued r i).locks = s.locks := rfl
@[simp] theorem State.issued_thatch (s : State) (r i : Nat) : (s.issued r i).thatch = s.thatch := rfl
@[simp] theorem State.issued_colls (s : State) (r i : Nat) : (s.issued r i).colls = s.colls := rfl
@[simp] theorem State.issued_digests (s : State) (r i : Nat) : (s.issued r i).digests = s.digests := rfl
@[simp] theorem State.issued_refused (s : State) (r i : Nat) : (s.issued r i).refused = s.refused := rfl
@[simp] theorem State.issued_outbox (s : State) (r i : Nat) : (s.issued r i).outbox = s.outbox := rfl
@[simp] theorem State.issued_faulty (s : State) (r i : Nat) : (s.issued r i).faulty = s.faulty := rfl
@[simp] theorem State.issued_parked (s : State) (r i : Nat) : (s.issued r i).parked = s.parked := rfl
@[simp] theorem State.issued_inbox (s : State) (r i : Nat) : (s.issued r i).inbox = s.inbox := rfl
@[simp] theorem State.issued_serial (s : State) (r i : Nat) : (s.issued r i).serial = s.serial := rfl
@[simp] theorem State.issued_agenda (s : State) (r i : Nat) : (s.issued r i).agenda = s.agenda := rfl
@[simp] theorem State.issued_stepNo (s : State) (r i : Nat) : (s.issued r i).stepNo = s.stepNo := rfl
@[simp] theorem State.issued_focus (s : State) (r i : Nat) : (s.issued r i).focus = ⟨r, i⟩ := rfl
@[simp] theorem State.taken_power (s : State) : s.taken.power = s.power := by unfold State.taken; split <;> rfl
@[simp] theorem State.taken_boot (s : State) : s.taken.boot = s.boot := by unfold State.taken; split <;> rfl
@[simp] theorem State.taken_flash (s : State) : s.taken.flash = s.flash := by unfold State.taken; split <;> rfl
@[simp] theorem State.taken_cfg (s : State) : s.taken.cfg = s.cfg := by unfold State.taken; split <;> rfl
@[simp] theorem State.taken_clock (s : State) : s.taken.clock = s.clock := by unfold State.taken; split <;> rfl
@[simp] theorem State.taken_throttle (s : State) : s.taken.throttle = s.throttle := by unfold State.taken; split <;> rfl
@[simp] theorem State.taken_mem (s : State) : s.taken.mem = s.mem := by unfold State.taken; split <;> rfl
@[simp] theorem State.taken_vers (s : State) : s.taken.vers = s.vers := by unfold State.taken; split <;> rfl
@[simp] theorem State.taken_full (s : State) : s.taken.full = s.full := by unfold State.taken; split <;> rfl
@[simp] theorem State.taken_stash (s : State) : s.taken.stash = s.stash := by unfold State.taken; split <;> rfl
@[simp] theorem State.taken_stashOut (s : State) : s.taken.stashOut = s.stashOut := by unfold State.taken; split <;> rfl
@[simp] theorem State.taken_parts (s : State) : s.taken.parts = s.parts := by unfold State.taken; split <;> rfl
@[simp] theorem State.taken_elems (s : State) : s.taken.elems = s.elems := by unfold State.taken; split <;> rfl
@[simp] theorem State.taken_softErr (s : State) : s.taken.softErr = s.softErr := by unfold State.taken; split <;> rfl
@[simp] theorem State.taken_discards (s : State) : s.taken.discards = s.discards := by unfold State.taken; split <;> rfl
@[simp] theorem State.taken_edges (s : State) : s.taken.edges = s.edges := by unfold State.taken; split <;> rfl
@[simp] theorem State.taken_clusters (s : State) : s.taken.clusters = s.clusters := by unfold State.taken; split <;> rfl
@[simp] theorem State.taken_dieTlb (s : State) : s.taken.dieTlb = s.dieTlb := by unfold State.taken; split <;> rfl
@[simp] theorem State.taken_chains (s : State) : s.taken.chains = s.chains := by unfold State.taken; split <;> rfl
@[simp] theorem State.taken_engines (s : State) : s.taken.engines = s.engines := by unfold State.taken; split <;> rfl
@[simp] theorem State.taken_regions (s : State) : s.taken.regions = s.regions := by unfold State.taken; split <;> rfl
@[simp] theorem State.taken_launches (s : State) : s.taken.launches = s.launches := by unfold State.taken; split <;> rfl
@[simp] theorem State.taken_binds (s : State) : s.taken.binds = s.binds := by unfold State.taken; split <;> rfl
@[simp] theorem State.taken_reqs (s : State) : s.taken.reqs = s.reqs := by unfold State.taken; split <;> rfl
@[simp] theorem State.taken_locks (s : State) : s.taken.locks = s.locks := by unfold State.taken; split <;> rfl
@[simp] theorem State.taken_thatch (s : State) : s.taken.thatch = s.thatch := by unfold State.taken; split <;> rfl
@[simp] theorem State.taken_colls (s : State) : s.taken.colls = s.colls := by unfold State.taken; split <;> rfl
@[simp] theorem State.taken_digests (s : State) : s.taken.digests = s.digests := by unfold State.taken; split <;> rfl
@[simp] theorem State.taken_refused (s : State) : s.taken.refused = s.refused := by unfold State.taken; split <;> rfl
@[simp] theorem State.taken_outbox (s : State) : s.taken.outbox = s.outbox := by unfold State.taken; split <;> rfl
@[simp] theorem State.taken_faulty (s : State) : s.taken.faulty = s.faulty := by unfold State.taken; split <;> rfl
@[simp] theorem State.taken_parked (s : State) : s.taken.parked = s.parked := by unfold State.taken; split <;> rfl
@[simp] theorem State.taken_inbox (s : State) : s.taken.inbox = s.inbox := by unfold State.taken; split <;> rfl
@[simp] theorem State.taken_serial (s : State) : s.taken.serial = s.serial := by unfold State.taken; split <;> rfl
@[simp] theorem State.taken_focus (s : State) : s.taken.focus = s.focus := by unfold State.taken; split <;> rfl

/-! ## Reading back the entry that an update changes -/

@[simp] theorem State.modPart_part (s : State) (p : Nat) (f : Part → Part) : (s.modPart p f).part p = f (s.part p) := by
  simp [State.modPart, State.part]

theorem State.modPart_part_ne (s : State) {p q : Nat} (f : Part → Part) (h : p ≠ q) : (s.modPart p f).part q = s.part q := by
  simp [State.modPart, State.part, alGet_alSet_ne _ _ h]

@[simp] theorem State.modElem_elem (s : State) (r : Nat) (f : Elem → Elem) : (s.modElem r f).elem r = f (s.elem r) := by
  simp [State.modElem, State.elem]

theorem State.modElem_elem_ne (s : State) {r q : Nat} (f : Elem → Elem) (h : r ≠ q) : (s.modElem r f).elem q = s.elem q := by
  simp [State.modElem, State.elem, alGet_alSet_ne _ _ h]

@[simp] theorem State.modCluster_cluster (s : State) (c : Nat) (f : Cluster → Cluster) :
    (s.modCluster c f).cluster c = f (s.cluster c) := by
  simp [State.modCluster, State.cluster]

@[simp] theorem State.modEngine_engine (s : State) (d e : Nat) (f : Engine → Engine) :
    (s.modEngine d e f).engine d e = f (s.engine d e) := by
  simp [State.modEngine, State.engine]

@[simp] theorem State.modFiring_firing (s : State) (r : Nat) (f : Firing → Firing) :
    (s.modFiring r f).firing? r = (s.firing? r).map f := by
  simp [State.modFiring, State.firing?]

@[simp] theorem State.modFiring_actor (s : State) (r q la : Nat) (f : Firing → Firing) :
    (s.modFiring r f).actor? q la = s.actor? q la := by
  by_cases h : r = q
  · subst h; simp [State.modFiring, State.actor?]
  · simp [State.modFiring, State.actor?, State.modElem_elem_ne _ _ h]

theorem State.modFiring_firing_ne (s : State) {r q : Nat} (f : Firing → Firing) (h : r ≠ q) :
    (s.modFiring r f).firing? q = s.firing? q := by
  simp [State.modFiring, State.firing?, State.modElem_elem_ne _ _ h]

@[simp] theorem State.modActor_firing (s : State) (r q la : Nat) (f : Actor → Actor) :
    (s.modActor r la f).firing? q = s.firing? q := by
  by_cases h : r = q
  · subst h; simp [State.modActor, State.firing?]
  · simp [State.modActor, State.firing?, State.modElem_elem_ne _ _ h]

/-- Two changes of the same firing are one. -/
theorem State.modFiring_twice (s : State) (r : Nat) (f g : Firing → Firing) :
    (s.modFiring r f).modFiring r g = s.modFiring r (g ∘ f) := by
  simp [State.modFiring, State.modElem, State.elem, Function.comp_def]

end Sys2Proof.Machine
end

