-- ==== Sys2Proof/Laws/MemoryForm.lean ====
section
/-! SUPPORT. The memory under every shared operation: one lemma each, that it leaves memory as it was, or that it keeps the canonical form. -/

set_option Elab.async false

namespace Sys2Proof.Machine

theorem foldl_mem {α : Type} (f : State → α → State) (l : List α) (s : State) (h : ∀ s x, (f s x).mem = s.mem) : (l.foldl f s).mem = s.mem := by
  induction l generalizing s with
  | nil => rfl
  | cons x r ih => rw [List.foldl_cons, ih, h]

theorem foldl_wf {α : Type} (f : State → α → State) (l : List α) (s : State) (hw : Memory.wf s.mem = true)
    (hf : ∀ s x, Memory.wf s.mem = true → Memory.wf (f s x).mem = true) : Memory.wf (l.foldl f s).mem = true := by
  induction l generalizing s with
  | nil => exact hw
  | cons x r ih => exact ih _ (hf _ _ hw)

theorem foldl_pair_wf {α β : Type} (f : State × β → α → State × β) (l : List α) (p : State × β) (hw : Memory.wf p.1.mem = true)
    (hf : ∀ p x, Memory.wf p.1.mem = true → Memory.wf (f p x).1.mem = true) : Memory.wf (l.foldl f p).1.mem = true := by
  induction l generalizing p with
  | nil => exact hw
  | cons x r ih => exact ih _ (hf _ _ hw)

theorem Memory.filter_above {m : Memory} {n : Nat} (p : Nat × Byte → Bool) (h : Memory.above m n = true) : Memory.above (m.filter p) n = true := by
  induction m generalizing n with
  | nil => rfl
  | cons e r ih =>
    obtain ⟨k, v⟩ := e
    have hc := (Memory.above_cons k v r n).1 h
    rw [List.filter_cons]
    split
    · rw [Memory.above_cons]; exact ⟨hc.1, ih hc.2⟩
    · exact Memory.above_mono (by omega) (ih hc.2)

/-- Dropping cells keeps the canonical form. -/
theorem Memory.filter_wf {m : Memory} (p : Nat × Byte → Bool) (h : Memory.wf m = true) : Memory.wf (m.filter p) = true := by
  rw [Memory.wf_iff_above] at h ⊢
  exact Memory.filter_above p h

@[simp] theorem State.writeBytes_wf (s : State) (key : Nat) (bs : List Byte) (h : Memory.wf s.mem = true) :
    Memory.wf (s.writeBytes key bs).mem = true := Memory.writes_wf key bs h

@[simp] theorem State.inherit_mem (s : State) (part : Nat) : (State.inherit s part).mem = s.mem := by
  rfl

@[simp] theorem State.dropWaits_mem (s : State) (part : Nat) (p : WaitEntry → Bool) : (State.dropWaits s part p).mem = s.mem := by
  simp only [State.dropWaits]
  repeat' first | (simp; done) | (simp [*]; done) | split

@[simp] theorem State.stashPut_mem (s : State) (part gran : Nat) : (State.stashPut s part gran).mem = s.mem := by
  simp only [State.stashPut]
  repeat' first | (simp; done) | (simp [*]; done) | split

@[simp] theorem State.endWait_mem (s : State) (part id : Nat) : (State.endWait s part id).mem = s.mem := by
  simp [State.endWait]

@[simp] theorem State.answerVersion_mem (s : State) (gran : Nat) : (State.answerVersion s gran).mem = s.mem := by
  simp only [State.answerVersion]
  repeat' first | (simp; done) | split | refine foldl_mem _ _ _ (fun _ _ => ?_)

@[simp] theorem State.storeEvent_wf (s : State) (part : Nat) (ret : Bool) (gran : Nat) (mask : BitVec 64) (data : Vec) (h : Memory.wf s.mem = true) :
    Memory.wf (State.storeEvent s part ret gran mask data).mem = true := by
  simp only [State.storeEvent]
  repeat' first | (simp [*]; done) | split

@[simp] theorem State.ptRooted_mem (s : State) (part : Nat) : (State.ptRooted s part).2.mem = s.mem := by
  simp only [State.ptRooted]
  repeat' first | (simp; done) | split

@[simp] theorem State.tlbFlush_mem (s : State) (part base size : Nat) : (State.tlbFlush s part base size).mem = s.mem := by
  rfl

theorem State.ptWrite_eq_wf {part off level : Nat} {entry : Word} {l : List (Nat × Nat)} {table : Nat} {s t : State}
    (h : Memory.wf s.mem = true) (e : s.ptWrite part off level entry l table = some t) : Memory.wf t.mem = true := by
  induction l generalizing s table with
  | nil => simp [State.ptWrite] at e
  | cons x r ih =>
    obtain ⟨a, b⟩ := x
    simp only [State.ptWrite] at e
    split at e
    · cases e; simp [h]
    · split at e
      · exact ih h e
      · split at e
        · cases e
        · exact ih (by simp [h]) e

theorem State.ptSet_eq_wf {part off level : Nat} {entry : Word} {s t : State}
    (h : Memory.wf s.mem = true) (e : s.ptSet part off level entry = some t) : Memory.wf t.mem = true := by
  simp only [State.ptSet, Option.map_eq_some_iff] at e
  obtain ⟨u, hu, rfl⟩ := e
  rw [State.tlbFlush_mem]
  exact State.ptWrite_eq_wf (by simp [h]) hu

theorem State.decideMiss_eq_wf {part off : Nat} {s t : State}
    (h : Memory.wf s.mem = true) (e : s.decideMiss part off = some t) : Memory.wf t.mem = true := by
  simp only [State.decideMiss] at e
  split at e
  · cases e
  · exact State.ptSet_eq_wf h e

@[simp] theorem State.globalXlate_wf (s : State) (part off : Nat) (h : Memory.wf s.mem = true) :
    Memory.wf (s.globalXlate part off).1.mem = true := by
  simp only [State.globalXlate]
  repeat' split
  all_goals first | exact h | exact State.decideMiss_eq_wf h (by assumption)

@[simp] theorem State.pushTrap_mem (s : State) (t : Trap) : (State.pushTrap s t).1.mem = s.mem := by
  rfl

@[simp] theorem State.formTrap_mem (s : State) (t : Trap) : (State.formTrap s t).1.mem = s.mem := by
  simp only [State.formTrap]
  repeat' first | (simp; done) | (simp [*]; done) | split

@[simp] theorem State.ridgeTrap_mem (s : State) (lid : Nat) (code : TrapCode) (addr : Word) : (State.ridgeTrap s lid code addr).mem = s.mem := by
  simp [State.ridgeTrap]

@[simp] theorem State.completionWrite_wf (s : State) (lid : Nat) (h : Memory.wf s.mem = true) : Memory.wf (s.completionWrite lid).mem = true := by
  simp only [State.completionWrite]
  split
  · exact h
  · next l _ =>
    have g := State.globalXlate_wf s l.part (ptrOff l.cmplp) h
    repeat' split
    any_goals (simp [h]; done)
    · next e _ => rw [e] at g; simp only at g; simp [g]
    · next e _ => rw [e] at g; simp only at g; simp [g]
    · next e => rw [e] at g; simp only at g; simp [g]

@[simp] theorem State.unqueue_mem (s : State) (part lid : Nat) : (State.unqueue s part lid).mem = s.mem := by
  simp only [State.unqueue]
  repeat' first | (simp; done) | split | refine foldl_mem _ _ _ (fun _ _ => ?_)

@[simp] theorem State.endQueued_wf (s : State) (lid : Nat) (st : LState) (reason : Nat) (h : Memory.wf s.mem = true) :
    Memory.wf (s.endQueued lid st reason).mem = true := by
  simp only [State.endQueued]
  split
  · exact h
  · exact State.completionWrite_wf _ _ (by simp [h])

@[simp] theorem State.settleTable_mem (s : State) (part : Nat) : (State.settleTable s part).mem = s.mem := by
  simp only [State.settleTable]
  repeat' first | (simp; done) | (simp [*]; done) | split

@[simp] theorem State.unshelve_mem (s : State) (lid : Nat) : (State.unshelve s lid).mem = s.mem := by
  simp only [State.unshelve]
  repeat' first | (simp; done) | (simp [*]; done) | split

@[simp] theorem State.stopOne_mem (s0 : State) (lid : Nat) (st : LState) (reason : Nat) : (State.stopOne s0 lid st reason).mem = s0.mem := by
  simp [State.stopOne]

@[simp] theorem State.rejectSucc_wf (s : State) (n : Nat) (o : Option Nat) (h : Memory.wf s.mem = true) : Memory.wf (s.rejectSucc n o).mem = true := by
  induction n generalizing s o with
  | zero => exact h
  | succ n ih =>
    cases o with
    | none => exact h
    | some lid =>
      simp only [State.rejectSucc]
      split
      · exact h
      · split
        · exact h
        · exact ih _ _ (by simp [h])

@[simp] theorem State.stopLaunch_wf (s : State) (lid : Nat) (st : LState) (reason : Nat) (h : Memory.wf s.mem = true) :
    Memory.wf (s.stopLaunch lid st reason).mem = true := by
  simp only [State.stopLaunch]
  split
  · exact h
  · split
    · exact h
    · split
      · exact foldl_wf _ _ _ (foldl_wf _ _ _ h fun _ _ h => by simp [h]) fun _ _ h => by simp [h]
      · simp [h]

@[simp] theorem State.sendFor_mem (s : State) (lid rank la dest n : Nat) (m : OutMsg) : (State.sendFor s lid rank la dest n m).mem = s.mem := by
  simp only [State.sendFor]
  split <;> rfl

@[simp] theorem State.sendRemote_mem (s : State) (q : Req) : (State.sendRemote s q).mem = s.mem := by
  simp only [State.sendRemote]
  repeat' first | (simp; done) | (simp [*]; done) | split

@[simp] theorem State.escalate_wf (r : State × Trap) (h : Memory.wf r.1.mem = true) : Memory.wf (State.escalate r).mem = true := by
  simp only [State.escalate]
  split <;> simp [h]

@[simp] theorem State.notice_wf (s : State) (t : Trap) (h : Memory.wf s.mem = true) : Memory.wf (s.notice t).mem = true :=
  State.escalate_wf _ (by simp [h])

@[simp] theorem State.releaseHeld_mem (s : State) (lid g n : Nat) : (State.releaseHeld s lid g n).mem = s.mem := rfl

@[simp] theorem State.fatalTrap_wf (s : State) (t : Trap) (h : Memory.wf s.mem = true) : Memory.wf (s.fatalTrap t).mem = true := by
  have g : ∀ (l : List (Nat × Nat)), Memory.wf (l.foldl (fun s g => s.releaseHeld t.lid g.1 g.2) s).mem = true :=
    fun l => foldl_wf _ _ _ h fun _ _ h => by simp [h]
  simp only [State.fatalTrap]
  split
  · simp [h]
  · split
    · refine State.stopLaunch_wf _ _ _ _ ?_
      rw [State.formTrap_mem]
      split <;> split <;> first | exact g _ | exact h
    · split <;> simp [h]

@[simp] theorem State.fatalAt_wf (s : State) (lid g rank : Nat) (code : TrapCode) (detail : Nat) (addr aux : Word) (h : Memory.wf s.mem = true) :
    Memory.wf (State.fatalAt s lid g rank code detail addr aux).mem = true := by
  simp [State.fatalAt, h]

@[simp] theorem State.chainTake_mem (s : State) (lid g chain step : Nat) : (State.chainTake s lid g chain step).2.mem = s.mem := by
  simp only [State.chainTake]
  repeat' first | (simp; done) | (simp [*]; done) | split

@[simp] theorem State.nullRequest_mem (s : State) (rank la : Nat) (a : Actor) (chain step : Nat) : (State.nullRequest s rank la a chain step).mem = s.mem := by
  simp [State.nullRequest]

@[simp] theorem State.nullBlock_mem (s : State) (rank : Nat) (f : Firing) (a : Actor) : (State.nullBlock s rank f a).mem = s.mem := by
  simp only [State.nullBlock]
  repeat' first | (simp; done) | (simp [*]; done) | split | refine foldl_mem _ _ _ (fun _ _ => ?_)

@[simp] theorem State.preciseTrap_wf (s : State) (rank : Nat) (f : Firing) (a : Actor) (t : Trap) (h : Memory.wf s.mem = true) :
    Memory.wf (s.preciseTrap rank f a t).mem = true := by
  simp only [State.preciseTrap]
  repeat' split
  all_goals simp [h]

@[simp] theorem State.precise_wf (s : State) (rank id : Nat) (code : TrapCode) (detail : Nat) (aux : Word) (h : Memory.wf s.mem = true) :
    Memory.wf (State.precise s rank id code detail aux).mem = true := by
  simp only [State.precise]
  repeat' first | (simp [*]; done) | split

@[simp] theorem State.preciseEnd_wf (s : State) (rank : Nat) (code : TrapCode) (detail : Nat) (h : Memory.wf s.mem = true) :
    Memory.wf (State.preciseEnd s rank code detail).mem = true := by
  simp only [State.preciseEnd]
  repeat' first | (simp [*]; done) | split

@[simp] theorem State.fatalAux_wf (s : State) (rank id : Nat) (code : TrapCode) (addr aux : Word) (h : Memory.wf s.mem = true) :
    Memory.wf (State.fatalAux s rank id code addr aux).mem = true := by
  simp only [State.fatalAux]
  repeat' first | (simp [*]; done) | split

@[simp] theorem State.fatal_wf (s : State) (rank id : Nat) (code : TrapCode) (addr : Word) (h : Memory.wf s.mem = true) :
    Memory.wf (State.fatal s rank id code addr).mem = true := by
  simp only [State.fatal]
  repeat' first | (simp [*]; done) | split

@[simp] theorem State.poke_wf (s : State) (rank id h off : Nat) (kind : Kind) (tag : Option (BitVec 32)) (pay : Vec) (hw : Memory.wf s.mem = true) :
    Memory.wf (State.poke s rank id h off kind tag pay).mem = true := by
  simp only [State.poke]
  repeat' first | (simp [*]; done) | split

@[simp] theorem State.arriveAt_wf (s : State) (rank id : Nat) (q : Port) (v : Value) (h : Memory.wf s.mem = true) :
    Memory.wf (State.arriveAt s rank id q v).mem = true := by
  simp only [State.arriveAt]
  repeat' first | (simp [*]; done) | split

@[simp] theorem State.nullWords_mem (s : State) (rank id : Nat) : (State.nullWords s rank id).mem = s.mem := by
  simp only [State.nullWords]
  repeat' first | (simp; done) | split | refine foldl_mem _ _ _ (fun _ _ => ?_)

@[simp] theorem State.arrive_wf (s : State) (rank id : Nat) (q : Port) (v : Value) (h : Memory.wf s.mem = true) : Memory.wf (State.arrive s rank id q v).mem = true := by
  simp only [State.arrive]
  repeat' first | (simp [*]; done) | split | refine foldl_wf _ _ _ (by simp [*]) (fun _ _ h => ?_)

@[simp] theorem State.deliverAt_wf (s : State) (rank id base : Nat) (ord : Option (BitVec 32)) (t : Target) (v : Value) (hw : Memory.wf s.mem = true) :
    Memory.wf (State.deliverAt s rank id base ord t v).mem = true := by
  simp only [State.deliverAt]
  repeat' first | (simp [*]; done) | split

@[simp] theorem State.deliverOrd_wf (s : State) (rank id : Nat) (ord : Option (BitVec 32)) (t : Target) (v : Value) (hw : Memory.wf s.mem = true) :
    Memory.wf (State.deliverOrd s rank id ord t v).mem = true := by
  simp only [State.deliverOrd]
  repeat' first | (simp [*]; done) | split

@[simp] theorem State.deliverAll_wf (s : State) (rank id : Nat) (ord : Option (BitVec 32)) (l : List Target) (v : Value)
    (hw : Memory.wf s.mem = true) : Memory.wf (s.deliverAll rank id ord l v).mem = true := by
  induction l generalizing s with
  | nil => exact hw
  | cons t r ih => exact ih _ (State.deliverOrd_wf s rank id ord t v hw)

@[simp] theorem State.out2_wf (s : State) (a b : Target) (w : Word) (hw : Memory.wf s.mem = true) : Memory.wf (State.out2 s a b w).mem = true := by
  simp [State.out2, hw]

@[simp] theorem State.out1_wf (s : State) (a : Target) (w : Word) (hw : Memory.wf s.mem = true) : Memory.wf (State.out1 s a w).mem = true := by
  simp [State.out1, hw]

@[simp] theorem State.outV2_wf (s : State) (a b : Target) (x : Vec) (hw : Memory.wf s.mem = true) : Memory.wf (State.outV2 s a b x).mem = true := by
  simp [State.outV2, hw]

@[simp] theorem State.outV1_wf (s : State) (a : Target) (x : Vec) (hw : Memory.wf s.mem = true) : Memory.wf (State.outV1 s a x).mem = true := by
  simp [State.outV1, hw]

@[simp] theorem State.faultHere_wf (s : State) (code : TrapCode) (aux : Word) (h : Memory.wf s.mem = true) : Memory.wf (State.faultHere s code aux).mem = true := by
  simp [State.faultHere, h]

@[simp] theorem State.fatalHere_wf (s : State) (code : TrapCode) (addr : Word) (h : Memory.wf s.mem = true) : Memory.wf (State.fatalHere s code addr).mem = true := by
  simp [State.fatalHere, h]

@[simp] theorem State.touchLines_mem (s : State) (rank : Nat) (lines : List Nat) : (State.touchLines s rank lines).mem = s.mem := by
  rfl

@[simp] theorem State.fileBlock_mem (s : State) (rank lid w : Nat) (out : DecodeOutcome) : (State.fileBlock s rank lid w out).mem = s.mem := by
  rfl

@[simp] theorem State.decodeFault_wf (s : State) (rank : Nat) (code : TrapCode) (o : DecodeOutcome) (h : Memory.wf s.mem = true) :
    Memory.wf (State.decodeFault s rank code o).mem = true := by
  simp only [State.decodeFault]
  repeat' first | (simp [*]; done) | split

@[simp] theorem State.enterBlock_wf (s : State) (rank w : Nat) (h : Memory.wf s.mem = true) : Memory.wf (State.enterBlock s rank w).mem = true := by
  simp only [State.enterBlock]
  repeat' first | (simp [*]; done) | split

@[simp] theorem State.multiExit_wf (s : State) (h : Memory.wf s.mem = true) : Memory.wf (State.multiExit s).mem = true := by
  simp only [State.multiExit]
  repeat' first | (simp [*]; done) | split

@[simp] theorem State.askExit_wf (s : State) (x : ExitReq) (h : Memory.wf s.mem = true) : Memory.wf (State.askExit s x).mem = true := by
  simp only [State.askExit]
  repeat' first | (simp [*]; done) | split

@[simp] theorem State.branchTo_wf (s : State) (w : Nat) (h : Memory.wf s.mem = true) : Memory.wf (State.branchTo s w).mem = true := by
  simp only [State.branchTo]
  repeat' first | (simp [*]; done) | split

@[simp] theorem State.exitTo_wf (s : State) (x : ExitReq) (phase : Nat) (h : Memory.wf s.mem = true) : Memory.wf (State.exitTo s x phase).mem = true := by
  simp only [State.exitTo]
  repeat' first | (simp [*]; done) | split

@[simp] theorem State.streamFault_wf (s : State) (code : TrapCode) (rank la h pos : Nat) (hw : Memory.wf s.mem = true) :
    Memory.wf (State.streamFault s code rank la h pos).mem = true := by
  simp only [State.streamFault]
  repeat' first | (simp [*]; done) | split

@[simp] theorem State.flitOut_wf (s : State) (t : BitVec 4) (a : Target) (v : Bool) (x : Vec) (hw : Memory.wf s.mem = true) :
    Memory.wf (State.flitOut s t a v x).mem = true := by
  simp only [State.flitOut]
  repeat' first | (simp [*]; done) | split

@[simp] theorem State.affine_wf (s : State) (a : Target) (lg : LaneGroups) (cov : Nat → Bool) (at_ : Nat → Nat) (hw : Memory.wf s.mem = true) :
    Memory.wf (State.affine s a lg cov at_).mem = true := by
  simp [State.affine, hw]

@[simp] theorem State.localStore_wf (s : State) (o : Nat) (bs : List Byte) (h : Memory.wf s.mem = true) : Memory.wf (State.localStore s o bs).mem = true := by
  simp [State.localStore, h]

@[simp] theorem State.takeLocal_mem (s : State) (rank o : Nat) (clear : Bool) : (State.takeLocal s rank o clear).2.mem = s.mem := by
  simp only [State.takeLocal]
  repeat' first | (simp; done) | split

@[simp] theorem State.payDue_wf (s : State) (rank : Nat) (d : Due) (v : Value) (hw : Memory.wf s.mem = true) : Memory.wf (State.payDue s rank d v).mem = true := by
  simp [State.payDue, hw]

@[simp] theorem State.discardAnti_mem (s : State) (rank n : Nat) : (State.discardAnti s rank n).mem = s.mem := by
  rfl

@[simp] theorem State.streamFault2_wf (s : State) (rank la h h2 pos : Nat) (hw : Memory.wf s.mem = true) :
    Memory.wf (State.streamFault2 s rank la h h2 pos).mem = true := by
  simp only [State.streamFault2]
  repeat' first | (simp [*]; done) | split

@[simp] theorem State.sendAnti_mem (s : State) (rank la h : Nat) : (State.sendAnti s rank la h).mem = s.mem := by
  simp only [State.sendAnti]
  repeat' first | (simp; done) | (simp [*]; done) | split

@[simp] theorem State.sendAntis_mem (s : State) (rank la h n : Nat) : (s.sendAntis rank la h n).mem = s.mem := by
  induction n generalizing s with
  | zero => rfl
  | succ n ih => rw [State.sendAntis, ih, State.sendAnti_mem]

@[simp] theorem State.pushTok_mem (s : State) (i : Nat) (t : Token) : (State.pushTok s i t).mem = s.mem := by
  simp only [State.pushTok]
  repeat' first | (simp; done) | (simp [*]; done) | split

@[simp] theorem State.pushOut_mem (s : State) (rank la h : Nat) (t : Token) : (State.pushOut s rank la h t).mem = s.mem := by
  simp only [State.pushOut]
  repeat' first | (simp; done) | split

@[simp] theorem State.takeIn_wf (s : State) (i : Nat) (e : Edge) (pos : Nat) (t : Token) (hw : Memory.wf s.mem = true) :
    Memory.wf (State.takeIn s i e pos t).mem = true := by
  simp only [State.takeIn]
  repeat' first | (simp [*]; done) | split

@[simp] theorem State.inputCheck_wf (s : State) (rank la : Nat) (hw : Memory.wf s.mem = true) : Memory.wf (State.inputCheck s rank la).mem = true := by
  simp only [State.inputCheck]
  repeat' first | (simp [*]; done) | split

@[simp] theorem State.landFlit_wf (s : State) (i : Nat) (e : Edge) (f : Flight) (hw : Memory.wf s.mem = true) : Memory.wf (State.landFlit s i e f).mem = true := by
  simp only [State.landFlit]
  repeat' first | (simp [*]; done) | split

@[simp] theorem State.popIn_mem (s : State) (rank la h n : Nat) : (State.popIn s rank la h n).mem = s.mem := by
  simp only [State.popIn]
  repeat' first | (simp; done) | split

@[simp] theorem State.emitMarkers_mem (s : State) (rank la : Nat) : (State.emitMarkers s rank la).mem = s.mem := by
  simp only [State.emitMarkers]
  repeat' first | (simp; done) | (simp [*]; done) | split | refine foldl_mem _ _ _ (fun _ _ => ?_)

@[simp] theorem State.startFiring_wf (s : State) (rank la : Nat) (a : Actor) (flushing : Bool) (h : Memory.wf s.mem = true) :
    Memory.wf (State.startFiring s rank la a flushing).mem = true := by
  simp only [State.startFiring]
  repeat' first | (simp [*]; done) | split

@[simp] theorem State.consume_mem (s : State) (rank la h t : Nat) (tile : Bool) : (State.consume s rank la h t tile).mem = s.mem := by
  simp only [State.consume]
  repeat' first | (simp; done) | split

@[simp] theorem State.countSlots_mem (s : State) (rank la h n : Nat) : (State.countSlots s rank la h n).mem = s.mem := by
  simp [State.countSlots]

@[simp] theorem State.publish_mem (s : State) (rank la h : Nat) (ts : List Token) : (State.publish s rank la h ts).1.mem = s.mem := by
  have g : ∀ (l : List Token) (i : Nat) (u : State), (l.foldl (fun s t => s.pushTok i t) u).mem = u.mem :=
    fun l i u => foldl_mem _ _ _ fun _ _ => by simp
  simp only [State.publish]
  split
  · rfl
  · exact (g _ _ _).trans (g _ _ _)

@[simp] theorem State.installXop_mem (s : State) (rank : Nat) (o : Option Nat) : (State.installXop s rank o).mem = s.mem := by
  simp only [State.installXop]
  repeat' first | (simp; done) | (simp [*]; done) | split

@[simp] theorem State.closeOuts_mem (s : State) (rank la : Nat) : (State.closeOuts s rank la).mem = s.mem := by
  simp only [State.closeOuts]
  repeat' first | (simp; done) | (simp [*]; done) | split | refine foldl_mem _ _ _ (fun _ _ => ?_)

@[simp] theorem State.retireActor_mem (s : State) (rank la : Nat) : (s.retireActor rank la).mem = s.mem := by
  simp only [State.retireActor]
  split
  · rfl
  · simp only [State.dropWaits_mem, State.closeOuts_mem, State.modActor_mem]
    exact foldl_mem _ _ _ fun _ _ => by split <;> simp

@[simp] theorem State.takeInputs_mem (s : State) (rank : Nat) (f : Firing) (a : Actor) : (s.takeInputs rank f a).mem = s.mem := by
  simp only [State.takeInputs]
  refine (foldl_mem _ _ _ fun _ _ => by simp).trans ?_
  refine (foldl_mem _ _ _ fun _ _ => by simp).trans ?_
  exact foldl_mem _ _ _ fun _ _ => by simp

@[simp] theorem State.publishOuts_mem (s : State) (rank : Nat) (f : Firing) (a : Actor) (l : List Nat) :
    (s.publishOuts rank f a l).1.mem = s.mem := by
  induction l generalizing s with
  | nil => rfl
  | cons h hs ih => exact (ih _).trans (State.publish_mem _ _ _ _ _)

@[simp] theorem State.commit_wf (s : State) (rank : Nat) (f : Firing) (a : Actor) (x : ExitReq) (hw : Memory.wf s.mem = true) :
    Memory.wf (s.commit rank f a x).mem = true := by
  simp only [State.commit]
  repeat' first | (simp [hw]; done) | split | refine State.stopLaunch_wf _ _ _ _ ?_ | rw [State.emitMarkers_mem] | refine State.inputCheck_wf _ _ _ ?_ |
    refine State.streamFault_wf _ _ _ _ _ _ ?_

@[simp] theorem State.leaveBlock_mem (s : State) (rank : Nat) (f : Firing) (a : Actor) : (State.leaveBlock s rank f a).mem = s.mem := by
  simp [State.leaveBlock]

@[simp] theorem State.untrackedWait_wf (s : State) (part : Nat) (w : WaitEntry) (h : Memory.wf s.mem = true) :
    Memory.wf (State.untrackedWait s part w).mem = true := by
  simp only [State.untrackedWait]
  repeat' first | (simp [h]; done) | split

@[simp] theorem State.deadlock_wf (s : State) (part : Nat) (cycle : List WaitEntry) (h : Memory.wf s.mem = true) :
    Memory.wf (State.deadlock s part cycle).mem = true := by
  simp only [State.deadlock]
  repeat' first | (simp [*]; done) | split

@[simp] theorem State.walkAll_wf (s : State) (part : Nat) (l : List WaitEntry) (seen : List (List WaitEntry)) (hw : Memory.wf s.mem = true) :
    Memory.wf (s.walkAll part l seen).mem = true := by
  induction l generalizing s seen with
  | nil => exact hw
  | cons w r ih =>
    rw [State.walkAll]
    split
    · exact ih _ _ hw
    · repeat' first | exact ih _ _ (by simp [hw]) | split

@[simp] theorem State.walkPart_wf (s : State) (part : Nat) (hw : Memory.wf s.mem = true) : Memory.wf (s.walkPart part).mem = true := by
  simp only [State.walkPart]
  split <;> simp [hw]

@[simp] theorem State.walkCycle_wf (s : State) (hw : Memory.wf s.mem = true) : Memory.wf s.walkCycle.mem = true :=
  foldl_wf _ _ _ hw fun _ _ h => State.walkPart_wf _ _ h

@[simp] theorem State.beginWait_wf (s : State) (part : Nat) (ws : List WaitEntry) (hw : Memory.wf s.mem = true) :
    Memory.wf (s.beginWait part ws).mem = true := by
  simp only [State.beginWait, State.inherit_mem]
  repeat' first | (simp [hw]; done) | split

@[simp] theorem State.rehold_mem (s : State) (part : Nat) (hit : WaitEntry → Bool) (f : WaitEntry → WaitEntry) : (s.rehold part hit f).mem = s.mem := by
  simp only [State.rehold]
  split <;> simp

@[simp] theorem State.changeHolder_mem (s : State) (kind gran lid : Nat) : (State.changeHolder s kind gran lid).mem = s.mem :=
  foldl_mem _ _ _ fun _ _ => State.rehold_mem _ _ _ _

@[simp] theorem State.dropHeld_mem (s : State) (q : Req) : (s.dropHeld q).mem = s.mem := by
  simp only [State.dropHeld]
  split <;> simp

@[simp] theorem State.sendReq_wf (s : State) (dst : List Target) (ptr : Word) (kind : ReqKind) (h : Memory.wf s.mem = true) :
    Memory.wf (State.sendReq s dst ptr kind).mem = true := by
  simp only [State.sendReq]
  repeat' first | (simp [*]; done) | split

@[simp] theorem State.reqFatal_wf (s : State) (q : Req) (code : TrapCode) (addr aux : Word) (h : Memory.wf s.mem = true) :
    Memory.wf (State.reqFatal s q code addr aux).mem = true := by
  simp [State.reqFatal, h]

@[simp] theorem State.tlbFill_mem (s : State) (c part base size : Nat) (pte : Word) : (State.tlbFill s c part base size pte).mem = s.mem := by
  rfl

@[simp] theorem State.advanceChain_mem (s : State) (q : Req) (home : Option (Option Nat)) : (State.advanceChain s q home).mem = s.mem := by
  simp only [State.advanceChain]
  repeat' first | (simp; done) | (simp [*]; done) | split

@[simp] theorem State.takeHeld_wf (s : State) (q : Req) (evs : List (Piece × Nat)) (h : Memory.wf s.mem = true) : Memory.wf (State.takeHeld s q evs).mem = true := by
  simp only [State.takeHeld]
  repeat' first | (simp [*]; done) | split

@[simp] theorem State.fillTlbs_mem (s : State) (q : Req) (l : List Piece) : (s.fillTlbs q l).mem = s.mem := by
  induction l generalizing s with
  | nil => rfl
  | cons x r ih =>
    rw [State.fillTlbs, ih]
    split
    · split <;> simp
    all_goals rfl

@[simp] theorem State.forward_wf (s : State) (q : Req) (hw : Memory.wf s.mem = true) : Memory.wf (s.forward q).mem = true := by
  simp only [State.forward]
  repeat' first | (simp [hw]; done) | split

@[simp] theorem State.enqueue_mem (s : State) (part q lid : Nat) : (State.enqueue s part q lid).mem = s.mem := by
  rfl

@[simp] theorem State.awaitDep_wf (s : State) (l : Launch) (hw : Memory.wf s.mem = true) : Memory.wf (State.awaitDep s l).mem = true := by
  simp [State.awaitDep, hw]

@[simp] theorem State.submit_wf (s : State) (part : Nat) (recd : Vec) (params : List Word) (form : Form) (hw : Memory.wf s.mem = true) :
    Memory.wf (State.submit s part recd params form).1.mem = true := by
  simp only [State.submit]
  repeat' first | (simp [*]; done) | split

@[simp] theorem State.paramHalf_wf (s : State) (part rank : Nat) (who : Option (Nat × Nat)) (p : Word) (hw : Memory.wf s.mem = true) :
    Memory.wf (s.paramHalf part rank who p).1.mem = true := by
  have k := State.globalXlate_wf s part (ptrOff p) hw
  rcases hx : s.globalXlate part (ptrOff p) with ⟨s1, _ | ⟨pa, e⟩⟩ <;> rw [hx] at k <;> simp only [State.paramHalf, hx] <;> repeat' split
  all_goals first | exact hw | exact k

@[simp] theorem State.readParams_wf (s : State) (part rank : Nat) (who : Option (Nat × Nat)) (p : Word) (hw : Memory.wf s.mem = true) :
    Memory.wf (s.readParams part rank who p).1.mem = true := by
  have g : Memory.wf (match s.paramHalf part rank who p with
      | (s1, .error x) => ((s1, .error x) : State × Except ReadFault (List Word))
      | (s1, .ok a) => match s1.paramHalf part rank who (ptrAdd p 64) with
        | (s2, .error x) => (s2, .error x)
        | (s2, .ok b) => (s2, .ok (a ++ b))).1.mem = true := by
    have k := State.paramHalf_wf s part rank who p hw
    rcases hx : s.paramHalf part rank who p with ⟨s1, _ | a⟩ <;> rw [hx] at k
    · exact k
    · have k2 := State.paramHalf_wf s1 part rank who (ptrAdd p 64) k
      rcases hy : s1.paramHalf part rank who (ptrAdd p 64) with ⟨s2, _ | b⟩ <;> rw [hy] at k2 <;> simp only [hy] <;> exact k2
  simp only [State.readParams]
  repeat' first | exact hw | exact g | split

@[simp] theorem State.cancelLaunch_wf (s : State) (lid : Nat) (h : Memory.wf s.mem = true) : Memory.wf (State.cancelLaunch s lid).mem = true := by
  simp [State.cancelLaunch, h]

@[simp] theorem State.rocPut_mem (s : State) (q : Req) (p : Word) (v : Vec) : (State.rocPut s q p v).mem = s.mem := by
  simp only [State.rocPut]
  repeat' first | (simp; done) | (simp [*]; done) | split

@[simp] theorem State.pieceDone_mem (s : State) (q : Req) : (State.pieceDone s q).mem = s.mem := by
  rfl

@[simp] theorem State.reqDone_mem (s : State) (q : Req) (out : Vec) (ver : BitVec 16) : (State.reqDone s q out ver).mem = s.mem := by
  simp [State.reqDone]

@[simp] theorem State.reqBegin_wf (s : State) (q : Req) (kind : Nat) (holders : List Nat) (hw : Memory.wf s.mem = true) :
    Memory.wf (State.reqBegin s q kind holders).mem = true := by
  simp [State.reqBegin, hw]

@[simp] theorem State.reqWait_wf (s : State) (q : Req) (kind : Nat) (holders : List Nat) (hw : Memory.wf s.mem = true) :
    Memory.wf (State.reqWait s q kind holders).mem = true := by
  simp only [State.reqWait]
  repeat' first | (simp [*]; done) | split

@[simp] theorem State.unhold_mem (s : State) (q : Req) (x : Piece) : (s.unhold q x).mem = s.mem := by
  simp only [State.unhold]
  split <;> simp

@[simp] theorem State.storePiece_wf (s : State) (q : Req) (x : Piece) (key : Nat) (ret : Bool) (h : Memory.wf s.mem = true) :
    Memory.wf (State.storePiece s q x key ret).mem = true := by
  simp only [State.storePiece]
  repeat' first | (simp [*]; done) | split

@[simp] theorem State.versionLoad_wf (s : State) (q : Req) (x : Piece) (key : Nat) (ret : Bool) (m : LdMode) (v : BitVec 16) (hw : Memory.wf s.mem = true) :
    Memory.wf (State.versionLoad s q x key ret m v).mem = true := by
  simp only [State.versionLoad]
  repeat' first | (simp [*]; done) | split

@[simp] theorem State.reclaim_mem (s : State) (q : Req) (gran : Nat) (v : BitVec 16) : (State.reclaim s q gran v).mem = s.mem := by
  simp [State.reclaim]

@[simp] theorem State.countAtom_mem (s : State) (q : Req) : (State.countAtom s q).mem = s.mem := by
  rfl

@[simp] theorem State.atomPiece_wf (s : State) (q : Req) (x : Piece) (key : Nat) (ret : Bool) (h : Memory.wf s.mem = true) :
    Memory.wf (State.atomPiece s q x key ret).mem = true := by
  simp only [State.atomPiece]
  repeat' first | (simp [*]; done) | split

@[simp] theorem State.putGran_wf (s : State) (q : Req) (gran : Nat) (ret : Bool) (v : Vec) (h : Memory.wf s.mem = true) :
    Memory.wf (State.putGran s q gran ret v).mem = true := by
  simp [State.putGran, h]

@[simp] theorem State.barArrived_mem (s : State) (q : Req) (gran : Nat) (c : Vec) : (State.barArrived s q gran c).mem = s.mem := by
  simp only [State.barArrived]
  split
  · rfl
  · exact foldl_mem _ _ _ fun _ _ => State.dropWaits_mem _ _ _

@[simp] theorem State.barEvent_wf (s : State) (q : Req) (key : Nat) (ret : Bool) (i : Nat) (hw : Memory.wf s.mem = true) :
    Memory.wf (State.barEvent s q key ret i).mem = true := by
  simp only [State.barEvent]
  repeat' first | (simp [*]; done) | split

@[simp] theorem State.ringKey_wf (s : State) (q : Req) (p : Word) (write : Bool) (h : Memory.wf s.mem = true) : Memory.wf (State.ringKey s q p write).1.mem = true := by
  simp only [State.ringKey]
  repeat' first
    | (simp [*]; done)
    | (rename_i e; replace e := (congrArg (fun p => Memory.wf p.1.mem) e).symm.trans (State.globalXlate_wf _ _ _ (by simp [*]; done)); simp only at e)
    | split
    | refine foldl_wf _ _ _ (by simp [*]) (fun _ _ h => ?_)

@[simp] theorem State.chanPhase_mem (s : State) (q : Req) (n : Nat) : (State.chanPhase s q n).mem = s.mem := by
  simp [State.chanPhase]

@[simp] theorem State.chanArrive_wf (s : State) (q : Req) (gran : Nat) (ret send : Bool) (go : State → State) (hw : Memory.wf s.mem = true)
    (hg : ∀ s : State, Memory.wf s.mem = true → Memory.wf (go s).mem = true) : Memory.wf (s.chanArrive q gran ret send go).mem = true := by
  simp only [State.chanArrive]
  repeat' first | (simp [*]; done) | split | exact hg _ (by simp [hw])

@[simp] theorem State.chsendEvent_wf (s : State) (q : Req) (key : Nat) (ret : Bool) (x : Vec) (hw : Memory.wf s.mem = true) :
    Memory.wf (s.chsendEvent q key ret x).mem = true := by
  simp only [State.chsendEvent]
  split
  · refine State.chanArrive_wf _ _ _ _ _ _ hw fun _ h => ?_
    split <;> simp [h]
  · split <;> simp [hw]
  · split
    · next e =>
      have k := (congrArg (fun p => Memory.wf p.1.mem) e).symm.trans (State.ringKey_wf _ _ _ _ hw)
      simp only at k
      simp [k]
    · next e =>
      have k := (congrArg (fun p => Memory.wf p.1.mem) e).symm.trans (State.ringKey_wf _ _ _ _ hw)
      simp only at k
      simp [k]
  · simp [hw]

@[simp] theorem State.chrecvEvent_wf (s : State) (q : Req) (key : Nat) (ret : Bool) (hw : Memory.wf s.mem = true) :
    Memory.wf (s.chrecvEvent q key ret).mem = true := by
  simp only [State.chrecvEvent]
  split
  · refine State.chanArrive_wf _ _ _ _ _ _ hw fun _ h => ?_
    split <;> simp [h]
  · split <;> simp [hw]
  · split
    · next e =>
      have k := (congrArg (fun p => Memory.wf p.1.mem) e).symm.trans (State.ringKey_wf _ _ _ _ hw)
      simp only at k
      simp [k]
    · next e =>
      have k := (congrArg (fun p => Memory.wf p.1.mem) e).symm.trans (State.ringKey_wf _ _ _ _ hw)
      simp only at k
      split <;> simp [k]
  · simp [hw]

@[simp] theorem State.chcredEvent_wf (s : State) (q : Req) (key : Nat) (ret : Bool) (n : Word) (hw : Memory.wf s.mem = true) :
    Memory.wf (s.chcredEvent q key ret n).mem = true := by
  simp only [State.chcredEvent]
  split
  · refine State.chanArrive_wf _ _ _ _ _ _ hw fun _ h => ?_
    split <;> simp [h]
  · split <;> simp [hw]

@[simp] theorem State.grant_mem (s : State) (q : Req) : (State.grant s q).mem = s.mem := by
  simp [State.grant]

@[simp] theorem State.locktEvent_wf (s : State) (q : Req) (hw : Memory.wf s.mem = true) : Memory.wf (State.locktEvent s q).mem = true := by
  simp only [State.locktEvent]
  repeat' first | (simp [*]; done) | split

@[simp] theorem State.unlocktEvent_wf (s : State) (q : Req) (h : Memory.wf s.mem = true) : Memory.wf (State.unlocktEvent s q).mem = true := by
  simp only [State.unlocktEvent]
  repeat' first | (simp [*]; done) | split

@[simp] theorem State.lockRehold_mem (s : State) (b : Nat × Nat) (f : WaitEntry → WaitEntry) : (State.lockRehold s b f).mem = s.mem := by
  simp only [State.lockRehold]
  exact foldl_mem _ _ _ fun _ _ => by simp

@[simp] theorem State.versionEvent_wf (s : State) (q : Req) (gran : Nat) (v : BitVec 16) (go : State → BitVec 16 → State)
    (hw : Memory.wf s.mem = true) (hg : ∀ (s : State) c, Memory.wf s.mem = true → Memory.wf (go s c).mem = true) :
    Memory.wf (s.versionEvent q gran v go).mem = true := by
  simp only [State.versionEvent]
  split <;> simp [*]

@[simp] theorem State.launchiEvent_wf (s : State) (q : Req) (key : Nat) (recd : Vec) (params : List Word) (v : BitVec 16)
    (hw : Memory.wf s.mem = true) : Memory.wf (s.launchiEvent q key recd params v).mem = true := by
  simp only [State.launchiEvent]
  split
  · simp [hw]
  · exact State.versionEvent_wf _ _ _ _ _ hw fun _ _ h => by simp [h]

@[simp] theorem State.bankEvent_wf (s : State) (q : Req) (hw : Memory.wf s.mem = true) : Memory.wf (s.bankEvent q).mem = true := by
  simp only [State.bankEvent]
  split
  · split
    all_goals first | (simp [hw]; done) | exact State.versionEvent_wf _ _ _ _ _ hw fun _ _ h => by simp [h]
  · exact hw

@[simp] theorem State.answer_wf (s : State) (q : Req) (ord : Option (BitVec 32)) (v : Value) (hw : Memory.wf s.mem = true) :
    Memory.wf (State.answer s q ord v).mem = true := by
  simp only [State.answer]
  repeat' first | (simp [*]; done) | split

@[simp] theorem State.engEnter_mem (s : State) (die e : Nat) (k : EngKind) (r : Vec) (follow : Option Vec) (seq : Nat) (before : List Nat) (rank la : Nat) (a : Actor)
    : (State.engEnter s die e k r follow seq before rank la a).1.mem = s.mem := by
  rfl

@[simp] theorem State.countEngine_mem (s : State) (a : Actor) (inv : Nat) : (State.countEngine s a inv).mem = s.mem := by
  rfl

@[simp] theorem State.dieFill_mem (s : State) (die part base size : Nat) (pte : Word) : (State.dieFill s die part base size pte).mem = s.mem := by
  rfl

@[simp] theorem State.dieUsed_mem (s : State) (die part off : Nat) : (State.dieUsed s die part off).mem = s.mem := by
  simp only [State.dieUsed]
  split <;> simp

@[simp] theorem State.engAddr_wf (s : State) (die part : Nat) (p : Word) (n : Nat) (write : Bool) (h : Memory.wf s.mem = true) :
    Memory.wf (State.engAddr s die part p n write).1.mem = true := by
  simp only [State.engAddr]
  repeat' first
    | (simp [*]; done)
    | (rename_i e; replace e := (congrArg (fun p => Memory.wf p.1.mem) e).symm.trans (State.globalXlate_wf _ _ _ (by simp [*]; done)); simp only at e)
    | split
    | refine foldl_wf _ _ _ (by simp [*]) (fun _ _ h => ?_)

@[simp] theorem State.engRead_wf (s : State) (die part : Nat) (p : Word) (n : Nat) (hw : Memory.wf s.mem = true) :
    Memory.wf (s.engRead die part p n).1.mem = true := by
  induction n generalizing s p with
  | zero => exact hw
  | succ n ih =>
    have g := State.engAddr_wf s die part p 1 false hw
    rcases hx : s.engAddr die part p 1 false with ⟨s1, k | k | k⟩ <;> rw [hx] at g <;> simp only [State.engRead, hx]
    · have i := ih s1 (ptrAdd p 1) g
      split
      · exact g
      · split <;> simp_all
    · exact g
    · exact g

@[simp] theorem State.engStat_mem (s : State) (die e serial state code : Nat) : (State.engStat s die e serial state code).mem = s.mem := by
  rfl

@[simp] theorem State.modCmd_mem (s : State) (die e seq : Nat) (f : EngCmd → EngCmd) : (State.modCmd s die e seq f).mem = s.mem := by
  rfl

@[simp] theorem State.cmdFatal_wf (s : State) (lid g rank la : Nat) (c : TrapCode) (addr : Word) (h : Memory.wf s.mem = true) :
    Memory.wf (State.cmdFatal s lid g rank la c addr).mem = true := by
  simp [State.cmdFatal, h]

@[simp] theorem State.cmplAt_wf (s : State) (lid rank : Nat) (p : Word) (h : Memory.wf s.mem = true) : Memory.wf (s.cmplAt lid rank p).1.mem = true := by
  simp only [State.cmplAt]
  repeat' first
    | (simp [*]; done)
    | (rename_i e; replace e := (congrArg (fun p => Memory.wf p.1.mem) e).symm.trans (State.engAddr_wf _ _ _ _ _ _ (by simp [*]; done)); simp only at e)
    | split

@[simp] theorem State.cmplPut_wf (s : State) (lid : Nat) (k : Option (Nat × Bool)) (v : Vec) (h : Memory.wf s.mem = true) :
    Memory.wf (s.cmplPut lid k v).mem = true := by
  simp only [State.cmplPut]
  split <;> simp [h]

@[simp] theorem State.cmdWriteVec_wf (s : State) (lid g rank la : Nat) (p : Word) (v : Vec) (h : Memory.wf s.mem = true) :
    Memory.wf (State.cmdWriteVec s lid g rank la p v).mem = true := by
  have k := State.cmplAt_wf s lid rank p h
  rcases hx : s.cmplAt lid rank p with ⟨s1, x | x⟩ <;> rw [hx] at k <;> simp only [State.cmdWriteVec, hx] <;> simp only at k <;> simp [k]

@[simp] theorem State.cmdWrite_wf (s : State) (lid g rank la : Nat) (p word : Word) (h : Memory.wf s.mem = true) :
    Memory.wf (State.cmdWrite s lid g rank la p word).mem = true := by
  simp [State.cmdWrite, h]

@[simp] theorem State.engFinish_wf (s : State) (die e : Nat) (c : EngCmd) (state code : Nat) (h : Memory.wf s.mem = true) :
    Memory.wf (State.engFinish s die e c state code).mem = true := by
  have k := State.cmplAt_wf s c.lid c.rank (engCmpl c.recd) h
  rcases hx : s.cmplAt c.lid c.rank (engCmpl c.recd) with ⟨s1, x | x⟩ <;> rw [hx] at k <;> simp only [State.engFinish, hx] <;> simp only at k <;> simp [k]

/-- A fold that carries a list beside the state and leaves memory alone at each step leaves it alone. -/
theorem foldl_fst_mem {α β : Type} (f : State × β → α → State × β) (l : List α) (x : State × β) (h : ∀ x a, (f x a).1.mem = x.1.mem) :
    (l.foldl f x).1.mem = x.1.mem := by
  induction l generalizing x with
  | nil => rfl
  | cons a r ih => exact (ih _).trans (h _ _)

@[simp] theorem State.unfeed_mem (s : State) (die e : Nat) (c : EngCmd) : (s.unfeed die e c).mem = s.mem := by
  rfl

@[simp] theorem State.engFault_wf (s : State) (die e : Nat) (c : EngCmd) (acks : List Nat) (x : TrapCode × Word) (h : Memory.wf s.mem = true) :
    Memory.wf (State.engFault s die e c acks x).mem = true := by
  simp only [State.engFault]
  split <;> simp [h]

@[simp] theorem State.engAsk_mem (s : State) (die e : Nat) (c : EngCmd) (rs : List (List NumMove)) : (s.engAsk die e c rs).mem = s.mem := by
  simp only [State.engAsk]
  refine (State.modCmd_mem _ _ _ _ _).trans (foldl_fst_mem _ _ _ fun _ l => ?_)
  cases l <;> simp

@[simp] theorem State.engPaged_wf (s : State) (die e : Nat) (c : EngCmd) (p : Word) (go : State → State) (hw : Memory.wf s.mem = true)
    (hg : ∀ s : State, Memory.wf s.mem = true → Memory.wf (go s).mem = true) : Memory.wf (s.engPaged die e c p go).mem = true := by
  simp only [State.engPaged]
  repeat' first | exact hg _ hw | exact hg _ (by simp [hw]) | (simp [hw]; done) | split

@[simp] theorem State.modRegionAt_mem (s : State) (origin : Nat) (f : Region → Region) : (State.modRegionAt s origin f).mem = s.mem := by
  rfl

@[simp] theorem State.regionEnter_mem (s : State) (rg : Region) (c : RegCmd) : (State.regionEnter s rg c).1.mem = s.mem := by
  rfl

@[simp] theorem State.accPerform_wf (s : State) (op : Nat) (p : Word) (x : Vec) (n : Word) (h : Memory.wf s.mem = true) :
    Memory.wf (State.accPerform s op p x n).1.mem = true := by
  simp only [State.accPerform]
  repeat' first | (simp [*]; done) | split

@[simp] theorem State.statWrite_wf (s : State) (rg : Nat) (c : RegCmd) (fl : Bool) (h : Memory.wf s.mem = true) :
    Memory.wf (State.statWrite s rg c fl).mem = true := by
  simp only [State.statWrite]
  split
  · exact h
  · next r _ =>
    have k := State.cmplAt_wf s c.lid c.rank r.statp h
    split
    · exact h
    · rcases hx : s.cmplAt c.lid c.rank r.statp with ⟨s1, x | x⟩ <;> rw [hx] at k <;> simp only at k <;> simp [k]

@[simp] theorem State.followOn_wf (s : State) (die e : Nat) (c : EngCmd) (r : Vec) (hw : Memory.wf s.mem = true) :
    Memory.wf (s.followOn die e c r).mem = true := by
  simp only [State.followOn]
  repeat' first | (simp [hw]; done) | split

@[simp] theorem State.engLeave_wf (s : State) (die e : Nat) (c : EngCmd) (state code : Nat) (hw : Memory.wf s.mem = true) :
    Memory.wf (s.engLeave die e c state code).mem = true := by
  simp only [State.engLeave]
  split
  · simp [hw]
  · exact State.engPaged_wf _ _ _ _ _ _ hw fun _ h => by simp [h]

@[simp] theorem State.engEnd_wf (s : State) (die e : Nat) (c : EngCmd) (hw : Memory.wf s.mem = true) : Memory.wf (s.engEnd die e c).mem = true := by
  simp only [State.engEnd]
  repeat' first | (simp [hw]; done) | split

@[simp] theorem State.fibStop_wf (s : State) (la : Nat) (x : FibStop) (hw : Memory.wf s.mem = true) : Memory.wf (State.fibStop s la x).mem = true := by
  simp only [State.fibStop]
  repeat' first | (simp [*]; done) | split

@[simp] theorem State.fibWrite_mem (s : State) (oh : Nat) (outs : List FibOut) (ih t : Nat) : (State.fibWrite s oh outs ih t).mem = s.mem := by
  simp only [State.fibWrite]
  repeat' first | (simp; done) | (simp [*]; done) | split | refine foldl_mem _ _ _ (fun _ _ => ?_)

@[simp] theorem State.collFile_mem (s : State) (k : CollKind) (part lid : Nat) (p : CollPart) : (State.collFile s k part lid p).mem = s.mem := by
  simp only [State.collFile]
  repeat' first | (simp; done) | (simp [*]; done) | split

@[simp] theorem State.collEnd_wf (s : State) (c : Coll) (state : Nat) (h : Memory.wf s.mem = true) : Memory.wf (State.collEnd s c state).mem = true := by
  simp only [State.collEnd]
  repeat' first | (simp [*]; done) | split | refine foldl_wf _ _ _ (by simp [*]) (fun _ _ h => ?_)

@[simp] theorem State.collFault_wf (s : State) (c : Coll) (f : TrapCode × Word) (hw : Memory.wf s.mem = true) :
    Memory.wf (s.collFault c f).mem = true := by
  simp only [State.collFault]
  exact State.collEnd_wf _ _ _ (foldl_wf _ _ _ hw fun _ _ h => by simp [h])

@[simp] theorem State.refusePin_mem (s : State) (c : Nat) : (State.refusePin s c).mem = s.mem := by
  rfl

@[simp] theorem State.pinLine_mem (s : State) (rank la line : Nat) : (State.pinLine s rank la line).mem = s.mem := by
  simp only [State.pinLine]
  repeat' first | (simp; done) | (simp [*]; done) | split

@[simp] theorem State.pinBlock_mem (s : State) (rank la lid w : Nat) : (State.pinBlock s rank la lid w).mem = s.mem := by
  simp only [State.pinBlock]
  repeat' first | (simp; done) | (simp [*]; done) | split

@[simp] theorem State.unpinLines_mem (s : State) (rank la : Nat) (p : Nat → Bool) : (State.unpinLines s rank la p).mem = s.mem := by
  rfl

@[simp] theorem State.prefetch_mem (s : State) (d : Bool) (a : Actor) (w : Nat) : (State.prefetch s d a w).mem = s.mem := by
  simp only [State.prefetch]
  repeat' first | (simp; done) | split

@[simp] theorem State.invalidate_mem (s : State) (la : Nat) (a : Actor) (ws : List Nat) : (State.invalidate s la a ws).mem = s.mem := by
  rfl

@[simp] theorem State.readImage_wf (s : State) (die part : Nat) (p : Word) (hw : Memory.wf s.mem = true) :
    Memory.wf (State.readImage s die part p).1.mem = true := by
  simp only [State.readImage]
  repeat' first
    | (simp [*]; done)
    | (rename_i e; replace e := (congrArg (fun p => Memory.wf p.1.mem) e).symm.trans (State.engRead_wf _ _ _ _ _ (by simp [*]; done)); simp only at e)
    | split

@[simp] theorem State.reply_mem (s : State) (c : Cmd) (status : Nat) (result : List Word) : (State.reply s c status result).mem = s.mem := by
  rfl

@[simp] theorem State.thatchPay_wf (s : State) (x : ThatchSub) (v : Word) (hw : Memory.wf s.mem = true) : Memory.wf (State.thatchPay s x v).mem = true := by
  simp only [State.thatchPay]
  repeat' first | (simp [*]; done) | split

@[simp] theorem State.extend_mem (s : State) (x : List Byte) : (State.extend s x).mem = s.mem := by
  rfl

@[simp] theorem State.digestWrites_wf (s : State) (d : DigestSet) (state : Nat) (v m : Word) (h : Memory.wf s.mem = true) :
    Memory.wf (State.digestWrites s d state v m).mem = true := by
  simp only [State.digestWrites]
  repeat' first | (simp [*]; done) | split | refine foldl_wf _ _ _ (by simp [*]) (fun _ _ h => ?_)

@[simp] theorem State.digestFile_wf (s : State) (lid : Nat) (r : Vec) (p : DigestPart) (h : Memory.wf s.mem = true) :
    Memory.wf (State.digestFile s lid r p).mem = true := by
  simp only [State.digestFile]
  repeat' first | (simp [*]; done) | split

@[simp] theorem State.openVotes_mem (s : State) : (State.openVotes s).mem = s.mem := by
  rfl

@[simp] theorem State.haltPart_wf (s : State) (part : Nat) (h : Memory.wf s.mem = true) : Memory.wf (State.haltPart s part).mem = true := by
  simp only [State.haltPart]
  repeat' first | (simp [*]; done) | split | refine foldl_wf _ _ _ (by simp [*]) (fun _ _ h => ?_)

@[simp] theorem State.snapDropped_mem (s : State) (part : Nat) : (State.snapDropped s part).mem = s.mem := by
  rfl

@[simp] theorem State.snapTrigger_mem (s : State) (part : Nat) : (State.snapTrigger s part).mem = s.mem := by
  simp only [State.snapTrigger]
  repeat' first | (simp; done) | split

@[simp] theorem State.loadGrans_wf (s : State) (part : Nat) (x : Bool) (off n : Nat) (hw : Memory.wf s.mem = true) :
    Memory.wf (s.loadGrans part x off n).1.mem = true := by
  induction n generalizing s off with
  | zero => exact hw
  | succ n ih =>
    have g := State.globalXlate_wf s part (off % 2 ^ 46) hw
    rcases hx : s.globalXlate part (off % 2 ^ 46) with ⟨s1, _ | ⟨pa, e⟩⟩ <;> rw [hx] at g <;> simp only [State.loadGrans, hx]
    · exact g
    · have i := ih s1 (off + 64) g
      split
      · split <;> simp_all
      · exact g

@[simp] theorem State.loadSpans_wf (s : State) (part : Nat) (x : Bool) (base : Nat) (l : List (Nat × Nat)) (hw : Memory.wf s.mem = true) :
    Memory.wf (s.loadSpans part x base l).1.mem = true := by
  induction l generalizing s with
  | nil => exact hw
  | cons a r ih =>
    obtain ⟨o, n⟩ := a
    have g := State.loadGrans_wf s part x (base + 64 * (o / 64)) (if n = 0 then 0 else (o + n + 63) / 64 - o / 64) hw
    rcases hx : s.loadGrans part x (base + 64 * (o / 64)) (if n = 0 then 0 else (o + n + 63) / 64 - o / 64) with ⟨s1, _ | b⟩ <;>
      rw [hx] at g <;> simp only [State.loadSpans, hx]
    · exact g
    · have i := ih s1 g
      split <;> simp_all

@[simp] theorem State.loadImage_wf (s : State) (part : Nat) (p : Word) (len : Nat) (hw : Memory.wf s.mem = true) :
    Memory.wf (State.loadImage s part p len).1.mem = true := by
  simp only [State.loadImage]
  repeat' first
    | (simp [*]; done)
    | (rename_i e; replace e := (congrArg (fun p => Memory.wf p.1.mem) e).symm.trans (State.loadSpans_wf _ _ _ _ _ (by simp [*]; done)); simp only at e)
    | split

@[simp] theorem State.loadData_wf (s : State) (part : Nat) (p : Word) (nact : Nat) (hw : Memory.wf s.mem = true) :
    Memory.wf (State.loadData s part p nact).1.mem = true := by
  simp only [State.loadData]
  repeat' first
    | (simp [*]; done)
    | (rename_i e; replace e := (congrArg (fun p => Memory.wf p.1.mem) e).symm.trans (State.loadSpans_wf _ _ _ _ _ (by simp [*]; done)); simp only at e)
    | split

@[simp] theorem State.bindLaunch_mem (s : State) (l : Launch) (im : Image) : (State.bindLaunch s l im).mem = s.mem := by
  rfl

@[simp] theorem State.writeCopies_wf (s : State) (im : Image) (cb : List (Nat × Nat)) (h : Memory.wf s.mem = true) :
    Memory.wf (State.writeCopies s im cb).mem = true := by
  simp only [State.writeCopies]
  repeat' first | (simp [*]; done) | split | refine foldl_wf _ _ _ (by simp [*]) (fun _ _ h => ?_)

@[simp] theorem State.gate_wf (s : State) (p : Nat → Bool) (hw : Memory.wf s.mem = true) : Memory.wf (s.gate p).mem = true :=
  Memory.filter_wf _ hw

@[simp] theorem State.putActors_mem (s : State) (l : Launch) (im : Image) (g : Nat) : (State.putActors s l im g).mem = s.mem := by
  simp only [State.putActors]
  repeat' first | (simp; done) | split | refine foldl_mem _ _ _ (fun _ _ => ?_)

@[simp] theorem State.putEdges_mem (s : State) (l : Launch) (im : Image) (routes : List (Option (List Nat))) (g : Nat)
    : (State.putEdges s l im routes g).mem = s.mem := by
  rfl

@[simp] theorem State.putRegions_mem (s : State) (l : Launch) (im : Image) (g : Nat) : (State.putRegions s l im g).mem = s.mem := by
  rfl

@[simp] theorem State.putChains_mem (s : State) (l : Launch) (im : Image) (g : Nat) : (State.putChains s l im g).mem = s.mem := by
  rfl

@[simp] theorem State.storeGrans_wf (s : State) (part : Nat) (ret : Bool) (key : Nat) (l : List Byte) (h : Memory.wf s.mem = true) :
    Memory.wf (State.storeGrans s part ret key l).mem = true := by
  simp only [State.storeGrans]
  repeat' first | (simp [*]; done) | split | refine foldl_wf _ _ _ (by simp [*]) (fun _ _ h => ?_)

@[simp] theorem State.putGlobal_wf (s : State) (part : Nat) (segs : List Segment) (hw : Memory.wf s.mem = true) :
    Memory.wf (s.putGlobal part segs).1.mem = true := by
  simp only [State.putGlobal]
  refine foldl_pair_wf _ _ _ hw fun x g h => ?_
  split
  · exact h
  · refine foldl_pair_wf _ _ _ h fun x i h => ?_
    split
    · exact h
    · have k := State.globalXlate_wf x.1 part ((g.off + 64 * i) % 2 ^ 46) h
      split
      · next e =>
        rw [e] at k
        split
        · simp at k; simp [k]
        · exact k
      · next e => rw [e] at k; exact k

@[simp] theorem State.putLocal_wf (s : State) (rank : Nat) (g : Segment) (h : Memory.wf s.mem = true) : Memory.wf (State.putLocal s rank g).mem = true := by
  simp only [State.putLocal]
  repeat' first | (simp [*]; done) | split

@[simp] theorem State.putSegs_wf (s : State) (l : Launch) (g : Nat) (h : Memory.wf s.mem = true) : Memory.wf (State.putSegs s l g).mem = true := by
  simp only [State.putSegs]
  exact foldl_wf _ _ _ h fun _ _ h => by (repeat' split) <;> simp [h]

@[simp] theorem State.putDie_wf (s : State) (l : Launch) (die : Nat) (h : Memory.wf s.mem = true) : Memory.wf (State.putDie s l die).mem = true := by
  have g : ∀ (l1 : List Segment) (f : Segment → Nat), Memory.wf (l1.foldl (fun s sg => s.storeGrans l.part false (f sg) sg.bytes) s).mem = true :=
    fun l1 f => foldl_wf _ _ _ h fun _ _ h => by simp [h]
  simp only [State.putDie]
  split
  all_goals (split <;> first | exact h | exact g _ _)

@[simp] theorem State.putGroup_wf (s : State) (l : Launch) (im : Image) (paths : List (List Nat)) (g : Nat) (h : Memory.wf s.mem = true) :
    Memory.wf (State.putGroup s l im paths g).mem = true :=
  foldl_wf _ _ _ (by simp [h]) fun _ _ h => State.putDie_wf _ _ _ h

@[simp] theorem State.readmit_wf (s : State) (i : Nat) (ts : List Token) (hw : Memory.wf s.mem = true) : Memory.wf (State.readmit s i ts).mem = true := by
  simp only [State.readmit]
  repeat' first | (simp [*]; done) | split | refine foldl_wf _ _ _ (by simp [*]) (fun _ _ hw => ?_)

@[simp] theorem State.activate_wf (s : State) (lid : Nat) (hw : Memory.wf s.mem = true) : Memory.wf (s.activate lid).mem = true := by
  simp only [State.activate]
  refine foldl_wf _ _ _ (foldl_wf _ _ _ hw fun _ _ h => by split <;> simp [h]) fun _ _ h => ?_
  exact foldl_wf _ _ _ h fun _ _ h => by simp [h]

@[simp] theorem State.loadLaunch_wf (s : State) (l : Launch) (len : Nat) (hw : Memory.wf s.mem = true) :
    Memory.wf (State.loadLaunch s l len).1.mem = true := by
  simp only [State.loadLaunch]
  repeat' first
    | (simp [*]; done)
    | (rename_i e; replace e := (congrArg (fun p => Memory.wf p.1.mem) e).symm.trans (State.loadImage_wf _ _ _ _ (by simp [*]; done)); simp only at e)
    | (rename_i e; replace e := (congrArg (fun p => Memory.wf p.1.mem) e).symm.trans (State.loadData_wf _ _ _ _ (by simp [*]; done)); simp only at e)
    | split

@[simp] theorem State.refuse_wf (s : State) (lid reason : Nat) (h : Memory.wf s.mem = true) : Memory.wf (State.refuse s lid reason).mem = true := by
  simp [State.refuse, h]

@[simp] theorem State.install_wf (s : State) (l : Launch) (im : Image) (paths : List (List Nat)) (hw : Memory.wf s.mem = true) :
    Memory.wf (s.install l im paths).mem = true := by
  have g : ∀ (u : List Nat) (l1 : Launch) (s1 : State), Memory.wf s1.mem = true →
      Memory.wf (u.foldl (fun s g => s.putGroup l1 im paths g) s1).mem = true := fun u l1 s1 h => foldl_wf _ _ _ h fun _ _ h => by simp [h]
  simp only [State.install]
  split
  · simp only [State.inherit_mem, State.bindLaunch_mem]
    exact g _ _ _ (by simp [hw])
  · refine State.activate_wf _ _ ?_
    simp only [State.inherit_mem, State.bindLaunch_mem]
    exact g _ _ _ (by simp [hw])

@[simp] theorem State.stage_wf (s : State) (l t : Launch) (cb : List (Nat × Nat)) (len : Nat) (hw : Memory.wf s.mem = true) :
    Memory.wf (s.stage l t cb len).mem = true := by
  have k := State.loadLaunch_wf s t len hw
  simp only [State.stage]
  split
  · next e => rw [e] at k; simp at k; simp [k]
  · next s1 _ _ _ e _ =>
    rw [e] at k
    simp only at k
    split
    · simp [k]
    · split
      · simp [k]
      · split
        · exact hw
        · have g := fun x => State.putGlobal_wf s1 l.part x k
          split <;>
          · next h =>
            have g1 := (congrArg (fun p => Memory.wf p.1.mem) h).symm.trans (g _)
            simp only at g1
            simp [g1]
  · exact hw

@[simp] theorem State.depFault_wf (s : State) (l : Launch) (h : Memory.wf s.mem = true) : Memory.wf (State.depFault s l).mem = true := by
  simp [State.depFault, h]

@[simp] theorem State.passEdges_mem (s : State) (t : Launch) (im : Image) (g rank : Nat) : (State.passEdges s t im g rank).mem = s.mem := by
  rfl

@[simp] theorem State.installOn_wf (s : State) (t : Launch) (im : Image) (g rank : Nat) (hw : Memory.wf s.mem = true) :
    Memory.wf (s.installOn t im g rank).mem = true := by
  have k3 : ∀ (l : List Segment) (u : State), Memory.wf u.mem = true → Memory.wf (l.foldl (fun s sg =>
      if t.actorRank g sg.actor ≠ some rank then s else if sg.space = 2 then s.putLocal rank sg else s) u).mem = true :=
    fun l u h => foldl_wf _ _ _ h fun _ _ h => by (repeat' split) <;> simp [h]
  simp only [State.installOn]
  refine foldl_wf _ _ _ (foldl_wf _ _ _ ?_ fun _ _ h => by split <;> simp [h]) fun _ _ h => by simp [h]
  exact State.putDie_wf _ _ _ (k3 _ _ (by simp [hw]))

@[simp] theorem State.takeOver_mem (s : State) (l t : Launch) (im : Image) : (State.takeOver s l t im).mem = s.mem := by
  simp only [State.takeOver]
  repeat' first | (simp; done) | (simp [*]; done) | split | refine foldl_mem _ _ _ (fun _ _ => ?_)

@[simp] theorem State.finalStats_wf (s : State) (lid : Nat) (h : Memory.wf s.mem = true) : Memory.wf (State.finalStats s lid).mem = true := by
  simp only [State.finalStats]
  repeat' first | (simp [*]; done) | split | refine foldl_wf _ _ _ (by simp [*]) (fun _ _ h => ?_)

@[simp] theorem State.freeToken_mem (s : State) (l : Lock) : (State.freeToken s l).mem = s.mem := by
  simp [State.freeToken]

@[simp] theorem State.release_wf (s : State) (lid heir : Nat) (hw : Memory.wf s.mem = true) : Memory.wf (s.release lid heir).mem = true := by
  simp only [State.release, State.modLaunch_mem]
  refine State.gate_wf _ _ ?_
  rw [State.dropWaits_mem]
  exact (congrArg (Memory.wf ·) (foldl_mem _ _ _ fun _ _ => by simp)).trans hw

@[simp] theorem State.requeueSucc_wf (s : State) (l : Launch) (h : Memory.wf s.mem = true) : Memory.wf (State.requeueSucc s l).mem = true := by
  simp only [State.requeueSucc]
  repeat' first | (simp [*]; done) | split

@[simp] theorem State.modClock_mem (s : State) (f : Clock → Clock) : (State.modClock s f).mem = s.mem := by
  rfl

@[simp] theorem State.ringWrite_wf (s : State) (part : Nat) (t : Trap) (h : Memory.wf s.mem = true) : Memory.wf (State.ringWrite s part t).mem = true := by
  simp [State.ringWrite, h]

@[simp] theorem State.logWrite_wf (s : State) (part off : Nat) (l : List Byte) (h : Memory.wf s.mem = true) : Memory.wf (State.logWrite s part off l).mem = true := by
  simp only [State.logWrite]
  repeat' first
    | (simp [*]; done)
    | (rename_i e; replace e := (congrArg (fun p => Memory.wf p.1.mem) e).symm.trans (State.globalXlate_wf _ _ _ (by simp [*]; done)); simp only at e)
    | split
    | refine foldl_wf _ _ _ (by simp [*]) (fun _ _ h => ?_)

@[simp] theorem State.logRecord_wf (s : State) (part : Nat) (t : Trap) (h : Memory.wf s.mem = true) : Memory.wf (State.logRecord s part t).1.mem = true := by
  simp only [State.logRecord]
  repeat' first | (simp [*]; done) | split

@[simp] theorem State.thaw_mem (s : State) (part : Nat) (cycle : List WaitEntry) : (State.thaw s part cycle).mem = s.mem := by
  rfl

@[simp] theorem State.breakDeadlock_wf (s : State) (part : Nat) (cycle : List WaitEntry) (h : Memory.wf s.mem = true) :
    Memory.wf (State.breakDeadlock s part cycle).mem = true := by
  simp only [State.breakDeadlock]
  repeat' first | (simp [*]; done) | split

@[simp] theorem State.retryDeadlock_wf (s : State) (part : Nat) (cycle : List WaitEntry) (hw : Memory.wf s.mem = true) :
    Memory.wf (State.retryDeadlock s part cycle).mem = true := by
  simp [State.retryDeadlock, hw]

@[simp] theorem State.launchHandler_wf (s : State) (part : Nat) (t : Trap) (at_ : Nat) (hw : Memory.wf s.mem = true) :
    Memory.wf (s.launchHandler part t at_).mem = true := by
  simp only [State.launchHandler]
  split
  · exact hw
  · next r _ =>
    have k := State.readParams_wf s part 0 none (BitVec.ofNat 64 (bf r 383 320)) hw
    rcases hx : s.readParams part 0 none (BitVec.ofNat 64 (bf r 383 320)) with ⟨s1, x | x⟩ <;> rw [hx] at k <;> simp only at k <;> simp [k]

@[simp] theorem State.unhandled_wf (s : State) (t : Trap) (h : Memory.wf s.mem = true) : Memory.wf (State.unhandled s t).mem = true := by
  simp only [State.unhandled]
  repeat' first | (simp [*]; done) | split

@[simp] theorem State.actOn_wf (s : State) (t : Trap) (action : Nat) (hw : Memory.wf s.mem = true) : Memory.wf (s.actOn t action).mem = true := by
  simp only [State.actOn]
  repeat' first | (simp [hw]; done) | split

@[simp] theorem State.clearMarkers_mem (s : State) (lids : List Nat) : (State.clearMarkers s lids).mem = s.mem := by
  rfl

@[simp] theorem State.shelve_wf (s : State) (l : Launch) (epoch : Nat) (hw : Memory.wf s.mem = true) : Memory.wf (s.shelve l epoch).mem = true := by
  simp only [State.shelve, State.settleTable_mem, State.modPart_mem, State.dropWaits_mem]
  exact State.gate_wf _ _ hw

@[simp] theorem State.rebind_mem (s : State) (b : BindRec) : (State.rebind s b).mem = s.mem := by
  rfl

theorem State.refit_eq_wf {l : List Nat} {s t : State} (h : Memory.wf s.mem = true) (e : s.refit l = some t) : Memory.wf t.mem = true := by
  induction l generalizing s with
  | nil => cases e; exact h
  | cons a r ih =>
    simp only [State.refit] at e
    split at e
    · exact ih h e
    · split at e
      · cases e
      · exact ih (by simp [h]) e

@[simp] theorem State.restore_wf (s : State) (l : Launch) (x : Saved) (hw : Memory.wf s.mem = true) :
    Memory.wf (s.restore l x).mem = true := by
  have g : ∀ (r : Memory) (m : Memory), Memory.wf m = true → Memory.wf (r.foldl (fun m c => Memory.write m c.1 c.2) m) = true := by
    intro r
    induction r with
    | nil => exact fun _ h => h
    | cons a r ih => exact fun m h => ih _ (Memory.write_wf a.1 a.2 h)
  simp only [State.restore, State.inherit_mem, State.clearMarkers_mem]
  refine foldl_wf _ _ _ ?_ fun _ _ h => h
  simp only [State.unqueue_mem]
  exact foldl_wf _ _ _ (foldl_wf _ _ _ (g _ _ hw) fun _ _ h => by simpa using h) fun _ _ h => by simpa using h

@[simp] theorem State.remoteNext_mem (s : State) (q : Req) : (State.remoteNext s q).mem = s.mem := by
  simp only [State.remoteNext]
  repeat' first | (simp; done) | split

@[simp] theorem State.readReply_mem (s : State) (id : Nat) (l : List Byte) : (State.readReply s id l).mem = s.mem := by
  simp only [State.readReply]
  repeat' first | (simp; done) | (simp [*]; done) | split

@[simp] theorem State.writeAck_mem (s : State) (id : Nat) : (State.writeAck s id).mem = s.mem := by
  simp only [State.writeAck]
  repeat' first | (simp; done) | (simp [*]; done) | split

@[simp] theorem State.declined_wf (s : State) (id : Nat) (h : Memory.wf s.mem = true) : Memory.wf (State.declined s id).mem = true := by
  simp only [State.declined]
  repeat' first | (simp [*]; done) | split

@[simp] theorem State.hostUncorrectable_mem (s : State) (part off key : Nat) : (s.hostUncorrectable part off key).mem = s.mem := by
  simp [State.hostUncorrectable]

@[simp] theorem State.writeGlobal_wf (s : State) (part n off : Nat) (l : List Byte) (hw : Memory.wf s.mem = true) :
    Memory.wf (s.writeGlobal part n off l).1.mem = true := by
  induction n generalizing s off l with
  | zero => exact hw
  | succ n ih =>
    have g := State.globalXlate_wf s part (off % 2 ^ 46) hw
    rcases hx : s.globalXlate part (off % 2 ^ 46) with ⟨s1, _ | ⟨pa, e⟩⟩ <;> rw [hx] at g <;> simp only at g <;>
      simp only [State.writeGlobal, hx]
    all_goals repeat' first | exact hw | exact g | exact ih _ _ _ (by simp [g]) | (simp [g]; done) | split

@[simp] theorem State.readGlobal_wf (s : State) (part n off len : Nat) (hw : Memory.wf s.mem = true) :
    Memory.wf (s.readGlobal part n off len).1.mem = true := by
  induction n generalizing s off len with
  | zero => exact hw
  | succ n ih =>
    have g := State.globalXlate_wf s part (off % 2 ^ 46) hw
    rcases hx : s.globalXlate part (off % 2 ^ 46) with ⟨s1, _ | ⟨pa, e⟩⟩ <;> rw [hx] at g <;> simp only at g <;>
      simp only [State.readGlobal, hx]
    all_goals repeat' first | exact hw | exact g | exact ih _ _ _ g | (simp [g]; done) | split

@[simp] theorem State.wireIn_mem (s : State) (part pset cseq pos : Nat) (head : CollHead) (l : List Byte) :
    (State.wireIn s part pset cseq pos head l).mem = s.mem := by
  simp only [State.wireIn]
  repeat' first | (simp; done) | (simp [*]; done) | split

@[simp] theorem State.digestIn_mem (s : State) (part rset dseq index : Nat) (v : Word) : (State.digestIn s part rset dseq index v).mem = s.mem := by
  simp only [State.digestIn]
  repeat' first | (simp; done) | split

@[simp] theorem State.layoutMismatch_wf (s : State) (part id : Nat) (got bound : BitVec 16) (h : Memory.wf s.mem = true) :
    Memory.wf (State.layoutMismatch s part id got bound).mem = true := by
  simp [State.layoutMismatch, h]

@[simp] theorem State.latchSnap_mem (s : State) (part cycle n : Nat) : (State.latchSnap s part cycle n).mem = s.mem := by
  simp [State.latchSnap]

@[simp] theorem State.latchBefore_mem (s : State) (cycle : Nat) : (State.latchBefore s cycle).mem = s.mem :=
  foldl_mem _ _ _ fun _ _ => foldl_mem _ _ _ fun _ t => by
    cases t <;> dsimp only
    split <;> simp

@[simp] theorem State.closeCycle_wf (s : State) (next : Nat) (h : Memory.wf s.mem = true) : Memory.wf (s.closeCycle next).mem = true := by
  simp only [State.closeCycle]
  split <;> simp [h]

@[simp] theorem State.releaseParked_mem (s : State) : s.releaseParked.mem = s.mem := by
  simp only [State.releaseParked]
  exact foldl_mem _ _ _ fun _ _ => rfl

@[simp] theorem State.acceptSeq_mem (s : State) (c : Cmd) : (State.acceptSeq s c).mem = s.mem := by
  rfl

@[simp] theorem State.loadFirmware_mem (s : State) (ptr : Word) (l : List Byte) : (State.loadFirmware s ptr l).mem = s.mem := by
  rfl

@[simp] theorem State.cleared_wf (s : State) (power : Bool) : Memory.wf (s.cleared power).mem = true := rfl

/-! ## Runs of engine, matrix and collective commands -/

theorem EngRun.flush_wf (x : EngRun) (hw : Memory.wf x.st.mem = true) : Memory.wf x.flush.st.mem = true := by
  simp only [EngRun.flush]
  split
  · exact hw
  · split
    · simpa using hw
    · split
      · exact hw
      · split <;> simp [hw]

theorem EngRun.put_wf (x : EngRun) (key : Nat) (ret far : Bool) (ptr : Word) (b : Byte) (hw : Memory.wf x.st.mem = true) :
    Memory.wf (x.put key ret far ptr b).st.mem = true := by
  simp only [EngRun.put]
  split
  · split
    · exact hw
    · exact EngRun.flush_wf x hw
  · exact hw

theorem EngRun.putAt_wf (x : EngRun) (p : Word) (b : Byte) (hw : Memory.wf x.st.mem = true) : Memory.wf (x.putAt p b).st.mem = true := by
  have k := State.engAddr_wf x.st (x.rank / 256) (lidPart x.lid) p 1 true hw
  simp only [EngRun.putAt]
  split
  · exact hw
  · rcases hx : x.st.engAddr (x.rank / 256) (lidPart x.lid) p 1 true with ⟨s1, z | z | z⟩ <;> rw [hx] at k
    · exact EngRun.put_wf _ _ _ _ _ _ k
    · exact EngRun.put_wf _ _ _ _ _ _ k
    · exact k

/-- A run of bytes keeps the canonical form. -/
theorem EngRun.puts_wf {α : Type} (f : EngRun → α → EngRun) (l : List α) (x : EngRun) (hw : Memory.wf x.st.mem = true)
    (h : ∀ x a, Memory.wf x.st.mem = true → Memory.wf (f x a).st.mem = true) : Memory.wf (l.foldl f x).flush.st.mem = true := by
  refine EngRun.flush_wf _ ?_
  induction l generalizing x with
  | nil => exact hw
  | cons m r ih => exact ih _ (h _ _ hw)

@[simp] theorem State.engWrites_wf (s : State) (c : EngCmd) (l : List NumMove) (hw : Memory.wf s.mem = true) :
    Memory.wf (s.engWrites c l).st.mem = true := by
  simp only [State.engWrites]
  exact EngRun.puts_wf _ l _ hw fun _ _ h => EngRun.putAt_wf _ _ _ h

@[simp] theorem State.engIndex_wf (s : State) (die e : Nat) (c : EngCmd) (j : Nat) (hw : Memory.wf s.mem = true) :
    Memory.wf (s.engIndex die e c j).mem = true := by
  have k := State.engRead_wf s (c.rank / 256) (lidPart c.lid) (ptrAdd (engAux c.recd) (4 * j : Nat)) 4 hw
  simp only [State.engIndex]
  split
  · simp [hw]
  · rcases hx : s.engRead (c.rank / 256) (lidPart c.lid) (ptrAdd (engAux c.recd) (4 * j : Nat)) 4 with ⟨s1, y | y⟩ <;> rw [hx] at k <;>
      simp only at k <;> simp [k]

@[simp] theorem State.engReads_wf (s : State) (die e : Nat) (c : EngCmd) (l : List NumMove) (hw : Memory.wf s.mem = true) :
    Memory.wf (s.engReads die e c l).mem = true := by
  simp only [State.engReads]
  split
  · exact hw
  · next m r =>
    have k := State.engRead_wf s (c.rank / 256) (lidPart c.lid) (c.srcPtr m.1) (m :: r).length hw
    split
    · split <;> simp [hw]
    · rcases hx : s.engRead (c.rank / 256) (lidPart c.lid) (c.srcPtr m.1) (m :: r).length with ⟨s1, y | y⟩ <;> rw [hx] at k <;>
        simp only at k <;> simp [k]

@[simp] theorem State.engWrite_wf (s : State) (die e : Nat) (c : EngCmd) (l : List NumMove) (hw : Memory.wf s.mem = true) :
    Memory.wf (s.engWrite die e c l).mem = true := by
  simp only [State.engWrite]
  split <;> simp [hw]

@[simp] theorem State.engRun_wf (s : State) (die e : Nat) (c : EngCmd) (hw : Memory.wf s.mem = true) : Memory.wf (s.engRun die e c).mem = true := by
  simp only [State.engRun]
  split
  · exact hw
  · next v _ => exact State.engPaged_wf _ _ _ _ _ _ hw fun s h => by cases v <;> simp [h]

theorem MatRun.read_wf (x : MatRun) (c : RegCmd) (p : Word) (n : Nat) (hw : Memory.wf x.st.mem = true) :
    Memory.wf (x.read c p n).1.st.mem = true := by
  have k := State.engRead_wf x.st (c.rank / 256) (lidPart c.lid) p n hw
  simp only [MatRun.read]
  split
  · exact hw
  · split
    · exact hw
    · rcases hx : x.st.engRead (c.rank / 256) (lidPart c.lid) p n with ⟨s1, y | y⟩ <;> rw [hx] at k <;> exact k

theorem MatRun.weights_wf (x : MatRun) (c : RegCmd) (t : Ty) (k n : Nat) (hw : Memory.wf x.st.mem = true) :
    Memory.wf (x.weights c t k n).1.st.mem = true := by
  have g : ∀ (l : List Nat) (y : MatRun × List (List Byte)), Memory.wf y.1.st.mem = true →
      Memory.wf (l.foldl (fun (y : MatRun × List (List Byte)) (i : Nat) =>
        ((y.1.read c (ptrAdd (matAp c.recd) (i * matAstr c.recd)) ((n * t.width + 7) / 8)).1,
          y.2 ++ [(y.1.read c (ptrAdd (matAp c.recd) (i * matAstr c.recd)) ((n * t.width + 7) / 8)).2])) y).1.st.mem = true := by
    intro l
    induction l with
    | nil => exact fun _ h => h
    | cons i r ih => exact fun y h => ih _ (MatRun.read_wf _ _ _ _ h)
  simp only [MatRun.weights]
  have k1 := g (List.range k) (x, []) hw
  split <;> split <;> first | exact k1 | exact MatRun.read_wf _ _ _ _ k1 | exact MatRun.read_wf _ _ _ _ (MatRun.read_wf _ _ _ _ k1)

theorem MatRun.actRow_wf (x : MatRun) (c : RegCmd) (t : Ty) (k m : Nat) (feed : List Byte) (hw : Memory.wf x.st.mem = true) :
    Memory.wf (x.actRow c t k m feed).1.st.mem = true := by
  simp only [MatRun.actRow]
  repeat' first | exact hw | exact MatRun.read_wf _ _ _ _ hw | exact MatRun.read_wf _ _ _ _ (MatRun.read_wf _ _ _ _ hw) | split

theorem MatRun.cell_wf (x : MatRun) (r : Region) (c : RegCmd) (t : Ty) (row : ActRow) (m col : Nat) (hw : Memory.wf x.st.mem = true) :
    Memory.wf (x.cell r c t row m col).st.mem = true := by
  simp only [MatRun.cell]
  split <;> exact State.writeBytes_wf _ _ _ hw

theorem MatRun.promote_wf (x : MatRun) (r : Region) (c : RegCmd) (sa m col : Nat) (hw : Memory.wf x.st.mem = true) :
    Memory.wf (x.promote r c sa m col).st.mem = true :=
  State.writeBytes_wf _ _ _ (State.writeBytes_wf _ _ _ hw)

theorem MatRun.finish_wf (x : MatRun) (rg : Nat) (c : RegCmd) (token : Bool) (hw : Memory.wf x.st.mem = true) :
    Memory.wf (x.finish rg c token).mem = true := by
  have k := State.cmplAt_wf x.st c.lid c.rank (matCmpl c.recd) hw
  rcases hx : x.st.cmplAt c.lid c.rank (matCmpl c.recd) with ⟨s1, y | y⟩ <;> rw [hx] at k <;> simp only at k <;>
    simp only [MatRun.finish, hx, State.modLaunch_mem]
  all_goals repeat' first | (simp [k]; done) | split | refine State.cmplPut_wf _ _ _ _ ?_ | refine State.cmdFatal_wf _ _ _ _ _ _ _ ?_

@[simp] theorem State.feedPut_mem (s : State) (die eng : Nat) (c : EngCmd) (r : Region) (bs : List Byte) : (s.feedPut die eng c r bs).mem = s.mem := by
  rfl

@[simp] theorem State.feedRead_wf (s : State) (die eng : Nat) (c : EngCmd) (r : Region) (l : List NumMove) (hw : Memory.wf s.mem = true) :
    Memory.wf (s.feedRead die eng c r l).mem = true := by
  simp only [State.feedRead]
  split
  · exact hw
  · next m t =>
    split
    · simpa using hw
    · split
      · repeat' first | (simp [hw]; done) | split
      · refine State.engPaged_wf _ _ _ _ _ _ hw fun s h => ?_
        have k := State.engRead_wf s (c.rank / 256) (lidPart c.lid) (c.srcPtr m.1) (m :: t).length h
        rcases hx : s.engRead (c.rank / 256) (lidPart c.lid) (c.srcPtr m.1) (m :: t).length with ⟨s1, y | y⟩ <;> rw [hx] at k <;>
          simp only at k <;> simp [k]

theorem CollRun.read_wf (x : CollRun) (part rank : Nat) (p : Word) (n : Nat) (hw : Memory.wf x.st.mem = true) :
    Memory.wf (x.read part rank p n).1.st.mem = true := by
  have k := State.engRead_wf x.st (rank / 256) part p n hw
  simp only [CollRun.read]
  split
  · exact hw
  · split
    · exact hw
    · rcases hx : x.st.engRead (rank / 256) part p n with ⟨s1, y | y⟩ <;> rw [hx] at k <;> exact k

theorem CollRun.write_wf (x : CollRun) (lid rank la : Nat) (p : Word) (l : List Byte) (hw : Memory.wf x.st.mem = true) :
    Memory.wf (x.write lid rank la p l).st.mem = true := by
  simp only [CollRun.write]
  repeat' first | exact hw | split
  exact EngRun.puts_wf _ _ _ hw fun _ _ h => EngRun.putAt_wf _ _ _ h

@[simp] theorem State.wireOut_mem (s : State) (c : Coll) (p : CollPart) (l : List Byte) (modules : Nat) : (s.wireOut c p l modules).mem = s.mem := by
  simp only [State.wireOut]
  repeat' first | (simp; done) | (simp [*]; done) | split | refine foldl_mem _ _ _ (fun _ _ => ?_)

theorem CollRun.send_wf (x : CollRun) (c : Coll) (p : CollPart) (e w : Ty) (modules : Nat) (hw : Memory.wf x.st.mem = true) :
    Memory.wf (x.send c p e w modules).st.mem = true := by
  have k1 := CollRun.read_wf x c.part p.rank (collSrc p.recd) (collCount p.recd * (e.width / 8)) hw
  simp only [CollRun.send]
  repeat' first | (simp [k1]; done) | exact k1 | split | exact CollRun.read_wf _ _ _ _ _ k1 |
    exact CollRun.write_wf _ _ _ _ _ _ k1 | exact CollRun.write_wf _ _ _ _ _ _ (CollRun.read_wf _ _ _ _ _ k1) | rw [State.wireOut_mem]

end Sys2Proof.Machine
end

