-- ==== Sys2Proof/Laws/PerInstr.lean ====
section
/-! SUPPORT. Every well-formed instruction is what the decoder reads from the words that the encoder gives it, one lemma for each
constructor; event rows have no word. -/

set_option Elab.async false

/-- The instruction's own words decode to it, whatever follows them, and leave what follows. -/
def Sys2Proof.Laws.EncodesItself.Statement (i : Sys2Proof.Instr) : Prop :=
  i.wf = true → i.raw.isSome = true → ∀ rest, Sys2Proof.decodeWords (Sys2Proof.encode i ++ rest) = .ok (i, rest)

open Sys2Proof Sys2Proof.Laws

theorem Sys2Proof.Laws.EncodesItself.nop (p : Pred) : EncodesItself.Statement (.nop p) := by
  intro hw _ rest
  refine decode_encode (ls := []) p rest rfl rfl hw ?_ (by simp) (fun w h => by simp [litWords, h]) ?_
  · have := pred_code_lt p
    refine ⟨?_, ?_, ?_, ?_, ?_⟩ <;> dsimp only <;> omega
  · simp [decodeRow, decodeRow0]

theorem Sys2Proof.Laws.EncodesItself.lit (p : Pred) (t : Ty) (a : Target) (b : Target) (v : Word) : EncodesItself.Statement (.lit p t a b v) := by
  intro hw _ rest
  have ha := wf_targets rfl hw
  have hv : litFits t v = true := by
    have h : (Instr.lit p t a b v).encOk = true := by simp only [Instr.wf, Bool.and_eq_true] at hw; exact hw.1
    exact h
  have h1 := pred_code_lt p; have h2 := ty_code_lt t; have h3 := target_code_lt a; have h4 := target_code_lt b
  cases hwide : t.isWide with
  | true =>
    have hl : (Instr.lit p t a b v).lits = [v.setWidth 32, (v >>> 32).setWidth 32] := by
      show (if t.isWide = true then _ else _) = _
      rw [hwide, if_pos rfl]
    have hv2 : BitVec.ofNat 64 (v.toNat % 4294967296 + v.toNat / 4294967296 % 4294967296 * 4294967296) = v := by
      have := v.isLt
      apply BitVec.eq_of_toNat_eq
      rw [BitVec.toNat_ofNat]; omega
    refine decode_encode p rest rfl hl hw ⟨?_, ?_, ?_, ?_, ?_⟩ (by simp) (fun w h => ?_) ?_
    iterate 5 dsimp only; omega
    · cases t <;> first | (simp [Ty.isWide, Ty.width] at hwide; done) | simp [litWords, h, Ty.code]
    · simp [decodeRow, decodeRow0, ha.1, ha.2, hwide, Nat.shiftRight_eq_div_pow, hv2]
  | false =>
    have hl : (Instr.lit p t a b v).lits = [v.setWidth 32] := by
      show (if t.isWide = true then _ else _) = _
      rw [hwide, if_neg (by decide)]
    have hlt : v.toNat < 2 ^ 32 := by
      simp only [litFits, hwide, Bool.false_or, Bool.and_eq_true, decide_eq_true_eq] at hv
      exact hv.1
    have hv2 : BitVec.ofNat 64 (v.toNat % 4294967296) = v := by
      apply BitVec.eq_of_toNat_eq
      rw [BitVec.toNat_ofNat]; omega
    refine decode_encode p rest rfl hl hw ⟨?_, ?_, ?_, ?_, ?_⟩ (by simp) (fun w h => ?_) ?_
    iterate 5 dsimp only; omega
    · cases t <;> first | (simp [Ty.isWide, Ty.width] at hwide; done) | simp [litWords, h, Ty.code]
    · simp [decodeRow, decodeRow0, ha.1, ha.2, hwide, hv2]

theorem Sys2Proof.Laws.EncodesItself.imm (p : Pred) (t : Ty) (a : Target) (i : BitVec 9) : EncodesItself.Statement (.imm p t a i) := by
  intro hw _ rest
  have ha := wf_target rfl hw
  refine decode_encode (ls := []) p rest rfl rfl hw ?_ (by simp) (fun w h => by simp [litWords, h]) ?_
  · have := pred_code_lt p; have := ty_code_lt t; have := target_code_lt a; have := i.isLt
    refine ⟨?_, ?_, ?_, ?_, ?_⟩ <;> dsimp only <;> omega
  · simp [decodeRow, decodeRow0, ha]

theorem Sys2Proof.Laws.EncodesItself.mov (p : Pred) (v : Bool) (a : Target) (b : Target) : EncodesItself.Statement (.mov p v a b) := by
  intro hw _ rest
  have ha := wf_targets rfl hw
  cases v <;>
  (refine decode_encode (ls := []) p rest rfl rfl hw ?_ (by simp) (fun w h => by simp [litWords, h]) ?_
   · have := pred_code_lt p; have := target_code_lt a; have := target_code_lt b
     refine ⟨?_, ?_, ?_, ?_, ?_⟩ <;> simp <;> omega
   · simp [decodeRow, decodeRow0, ha.1, ha.2, bitAt])

theorem Sys2Proof.Laws.EncodesItself.sel (p : Pred) (v : Bool) (a : Target) (b : Target) : EncodesItself.Statement (.sel p v a b) := by
  intro hw _ rest
  have ha := wf_targets rfl hw
  cases v <;>
  (refine decode_encode (ls := []) p rest rfl rfl hw ?_ (by simp) (fun w h => by simp [litWords, h]) ?_
   · have := pred_code_lt p; have := target_code_lt a; have := target_code_lt b
     refine ⟨?_, ?_, ?_, ?_, ?_⟩ <;> simp <;> omega
   · simp [decodeRow, decodeRow0, ha.1, ha.2, bitAt])

theorem Sys2Proof.Laws.EncodesItself.rdk (p : Pred) (a : Target) (x : Bool) (n : Fin 16) : EncodesItself.Statement (.rdk p a x n) := by
  intro hw _ rest
  have ha := wf_target rfl hw
  cases x <;>
  (refine decode_encode (ls := []) p rest rfl rfl hw ?_ (by simp) (fun w h => by simp [litWords, h]) ?_
   · have := pred_code_lt p; have := target_code_lt a; have := n.isLt
     refine ⟨?_, ?_, ?_, ?_, ?_⟩ <;> simp <;> omega
   · have := n.isLt; simp [decodeRow, decodeRow0, ha, bitAt, fin16, Fin.ext_iff] <;> omega)

theorem Sys2Proof.Laws.EncodesItself.wrk (p : Pred) (x : Bool) (n : Fin 16) : EncodesItself.Statement (.wrk p x n) := by
  intro hw _ rest
  cases x <;>
  (refine decode_encode (ls := []) p rest rfl rfl hw ?_ (by simp) (fun w h => by simp [litWords, h]) ?_
   · have := pred_code_lt p; have := n.isLt
     refine ⟨?_, ?_, ?_, ?_, ?_⟩ <;> simp <;> omega
   · have := n.isLt; simp [decodeRow, decodeRow0, bitAt, fin16, Fin.ext_iff] <;> omega)

theorem Sys2Proof.Laws.EncodesItself.rdsr (p : Pred) (a : Target) (r : BitVec 9) : EncodesItself.Statement (.rdsr p a r) := by
  intro hw _ rest
  have ha := wf_target rfl hw
  refine decode_encode (ls := []) p rest rfl rfl hw ?_ (by simp) (fun w h => by simp [litWords, h]) ?_
  · have := pred_code_lt p; have := target_code_lt a; have := r.isLt
    refine ⟨?_, ?_, ?_, ?_, ?_⟩ <;> dsimp only <;> omega
  · simp [decodeRow, decodeRow0, ha]

theorem Sys2Proof.Laws.EncodesItself.wrsr (p : Pred) (r : BitVec 9) : EncodesItself.Statement (.wrsr p r) := by
  intro hw _ rest
  refine decode_encode (ls := []) p rest rfl rfl hw ?_ (by simp) (fun w h => by simp [litWords, h]) ?_
  · have := pred_code_lt p; have := r.isLt
    refine ⟨?_, ?_, ?_, ?_, ?_⟩ <;> dsimp only <;> omega
  · simp [decodeRow, decodeRow0]

theorem Sys2Proof.Laws.EncodesItself.br (p : Pred) (w : IWord) : EncodesItself.Statement (.br p w) := by
  intro hw _ rest
  refine decode_encode (ls := [w]) p rest rfl rfl hw ?_ (by simp) (fun w h => by simp [litWords, h]) ?_
  · have := pred_code_lt p
    refine ⟨?_, ?_, ?_, ?_, ?_⟩ <;> dsimp only <;> omega
  · simp [decodeRow, decodeRow0]

theorem Sys2Proof.Laws.EncodesItself.bri (p : Pred) : EncodesItself.Statement (.bri p) := by
  intro hw _ rest
  refine decode_encode (ls := []) p rest rfl rfl hw ?_ (by simp) (fun w h => by simp [litWords, h]) ?_
  · have := pred_code_lt p
    refine ⟨?_, ?_, ?_, ?_, ?_⟩ <;> dsimp only <;> omega
  · simp [decodeRow, decodeRow0]

theorem Sys2Proof.Laws.EncodesItself.exit (p : Pred) (n : Fin 8) : EncodesItself.Statement (.exit p n) := by
  intro hw _ rest
  refine decode_encode (ls := []) p rest rfl rfl hw ?_ (by simp) (fun w h => by simp [litWords, h]) ?_
  · have := pred_code_lt p; have := n.isLt
    refine ⟨?_, ?_, ?_, ?_, ?_⟩ <;> dsimp only <;> omega
  · have := n.isLt; simp [decodeRow, decodeRow0, fin8, Fin.ext_iff] <;> omega

theorem Sys2Proof.Laws.EncodesItself.exitv (p : Pred) : EncodesItself.Statement (.exitv p) := by
  intro hw _ rest
  refine decode_encode (ls := []) p rest rfl rfl hw ?_ (by simp) (fun w h => by simp [litWords, h]) ?_
  · have := pred_code_lt p
    refine ⟨?_, ?_, ?_, ?_, ?_⟩ <;> dsimp only <;> omega
  · simp [decodeRow, decodeRow0]

theorem Sys2Proof.Laws.EncodesItself.retire (p : Pred) : EncodesItself.Statement (.retire p) := by
  intro hw _ rest
  refine decode_encode (ls := []) p rest rfl rfl hw ?_ (by simp) (fun w h => by simp [litWords, h]) ?_
  · have := pred_code_lt p
    refine ⟨?_, ?_, ?_, ?_, ?_⟩ <;> dsimp only <;> omega
  · simp [decodeRow, decodeRow0]

theorem Sys2Proof.Laws.EncodesItself.trap (p : Pred) (c : BitVec 9) : EncodesItself.Statement (.trap p c) := by
  intro hw _ rest
  refine decode_encode (ls := []) p rest rfl rfl hw ?_ (by simp) (fun w h => by simp [litWords, h]) ?_
  · have := pred_code_lt p; have := c.isLt
    refine ⟨?_, ?_, ?_, ?_, ?_⟩ <;> dsimp only <;> omega
  · simp [decodeRow, decodeRow0]

theorem Sys2Proof.Laws.EncodesItself.yield (p : Pred) : EncodesItself.Statement (.yield p) := by
  intro hw _ rest
  refine decode_encode (ls := []) p rest rfl rfl hw ?_ (by simp) (fun w h => by simp [litWords, h]) ?_
  · have := pred_code_lt p
    refine ⟨?_, ?_, ?_, ?_, ?_⟩ <;> dsimp only <;> omega
  · simp [decodeRow, decodeRow0]

theorem Sys2Proof.Laws.EncodesItself.xop (p : Pred) (n : Fin 8) (a : Target) (b : Target) : EncodesItself.Statement (.xop p n a b) := by
  intro hw _ rest
  have ha := wf_targets rfl hw
  refine decode_encode (ls := []) p rest rfl rfl hw ?_ (by simp) (fun w h => by simp [litWords, h]) ?_
  · have := pred_code_lt p; have := n.isLt; have := target_code_lt a; have := target_code_lt b
    refine ⟨?_, ?_, ?_, ?_, ?_⟩ <;> dsimp only <;> omega
  · have := n.isLt; simp [decodeRow, decodeRow1, ha.1, ha.2, fin8, Fin.ext_iff] <;> omega

theorem Sys2Proof.Laws.EncodesItself.xopLoad (p : Pred) : EncodesItself.Statement (.xopLoad p) := by
  intro hw _ rest
  refine decode_encode (ls := []) p rest rfl rfl hw ?_ (by simp) (fun w h => by simp [litWords, h]) ?_
  · have := pred_code_lt p
    refine ⟨?_, ?_, ?_, ?_, ?_⟩ <;> dsimp only <;> omega
  · simp [decodeRow, decodeRow1]

theorem Sys2Proof.Laws.EncodesItself.add (p : Pred) (t : Ty) (a : Target) (b : Target) : EncodesItself.Statement (.add p t a b) := by
  intro hw _ rest
  have ha := wf_targets rfl hw
  refine decode_encode (ls := []) p rest rfl rfl hw ?_ (by simp) (fun w h => by simp [litWords, h]) ?_
  · have := pred_code_lt p; have := ty_code_lt t; have := target_code_lt a; have := target_code_lt b
    refine ⟨?_, ?_, ?_, ?_, ?_⟩ <;> dsimp only <;> omega
  · simp [decodeRow, decodeRow2, ha.1, ha.2]

theorem Sys2Proof.Laws.EncodesItself.sub (p : Pred) (t : Ty) (a : Target) (b : Target) : EncodesItself.Statement (.sub p t a b) := by
  intro hw _ rest
  have ha := wf_targets rfl hw
  refine decode_encode (ls := []) p rest rfl rfl hw ?_ (by simp) (fun w h => by simp [litWords, h]) ?_
  · have := pred_code_lt p; have := ty_code_lt t; have := target_code_lt a; have := target_code_lt b
    refine ⟨?_, ?_, ?_, ?_, ?_⟩ <;> dsimp only <;> omega
  · simp [decodeRow, decodeRow2, ha.1, ha.2]

theorem Sys2Proof.Laws.EncodesItself.addi (p : Pred) (t : Ty) (a : Target) (i : BitVec 9) : EncodesItself.Statement (.addi p t a i) := by
  intro hw _ rest
  have ha := wf_target rfl hw
  refine decode_encode (ls := []) p rest rfl rfl hw ?_ (by simp) (fun w h => by simp [litWords, h]) ?_
  · have := pred_code_lt p; have := ty_code_lt t; have := target_code_lt a; have := i.isLt
    refine ⟨?_, ?_, ?_, ?_, ?_⟩ <;> dsimp only <;> omega
  · simp [decodeRow, decodeRow2, ha]

theorem Sys2Proof.Laws.EncodesItself.mul (p : Pred) (t : Ty) (a : Target) (b : Target) : EncodesItself.Statement (.mul p t a b) := by
  intro hw _ rest
  have ha := wf_targets rfl hw
  refine decode_encode (ls := []) p rest rfl rfl hw ?_ (by simp) (fun w h => by simp [litWords, h]) ?_
  · have := pred_code_lt p; have := ty_code_lt t; have := target_code_lt a; have := target_code_lt b
    refine ⟨?_, ?_, ?_, ?_, ?_⟩ <;> dsimp only <;> omega
  · simp [decodeRow, decodeRow2, ha.1, ha.2]

theorem Sys2Proof.Laws.EncodesItself.mulh (p : Pred) (t : Ty) (a : Target) (b : Target) : EncodesItself.Statement (.mulh p t a b) := by
  intro hw _ rest
  have ha := wf_targets rfl hw
  refine decode_encode (ls := []) p rest rfl rfl hw ?_ (by simp) (fun w h => by simp [litWords, h]) ?_
  · have := pred_code_lt p; have := ty_code_lt t; have := target_code_lt a; have := target_code_lt b
    refine ⟨?_, ?_, ?_, ?_, ?_⟩ <;> dsimp only <;> omega
  · simp [decodeRow, decodeRow2, ha.1, ha.2]

theorem Sys2Proof.Laws.EncodesItself.mad (p : Pred) (t : Ty) (a : Target) (b : Target) : EncodesItself.Statement (.mad p t a b) := by
  intro hw _ rest
  have ha := wf_targets rfl hw
  refine decode_encode (ls := []) p rest rfl rfl hw ?_ (by simp) (fun w h => by simp [litWords, h]) ?_
  · have := pred_code_lt p; have := ty_code_lt t; have := target_code_lt a; have := target_code_lt b
    refine ⟨?_, ?_, ?_, ?_, ?_⟩ <;> dsimp only <;> omega
  · simp [decodeRow, decodeRow2, ha.1, ha.2]

theorem Sys2Proof.Laws.EncodesItself.div (p : Pred) (t : Ty) (a : Target) (b : Target) : EncodesItself.Statement (.div p t a b) := by
  intro hw _ rest
  have ha := wf_targets rfl hw
  refine decode_encode (ls := []) p rest rfl rfl hw ?_ (by simp) (fun w h => by simp [litWords, h]) ?_
  · have := pred_code_lt p; have := ty_code_lt t; have := target_code_lt a; have := target_code_lt b
    refine ⟨?_, ?_, ?_, ?_, ?_⟩ <;> dsimp only <;> omega
  · simp [decodeRow, decodeRow2, ha.1, ha.2]

theorem Sys2Proof.Laws.EncodesItself.rem (p : Pred) (t : Ty) (a : Target) (b : Target) : EncodesItself.Statement (.rem p t a b) := by
  intro hw _ rest
  have ha := wf_targets rfl hw
  refine decode_encode (ls := []) p rest rfl rfl hw ?_ (by simp) (fun w h => by simp [litWords, h]) ?_
  · have := pred_code_lt p; have := ty_code_lt t; have := target_code_lt a; have := target_code_lt b
    refine ⟨?_, ?_, ?_, ?_, ?_⟩ <;> dsimp only <;> omega
  · simp [decodeRow, decodeRow2, ha.1, ha.2]

theorem Sys2Proof.Laws.EncodesItself.neg (p : Pred) (t : Ty) (a : Target) (b : Target) : EncodesItself.Statement (.neg p t a b) := by
  intro hw _ rest
  have ha := wf_targets rfl hw
  refine decode_encode (ls := []) p rest rfl rfl hw ?_ (by simp) (fun w h => by simp [litWords, h]) ?_
  · have := pred_code_lt p; have := ty_code_lt t; have := target_code_lt a; have := target_code_lt b
    refine ⟨?_, ?_, ?_, ?_, ?_⟩ <;> dsimp only <;> omega
  · simp [decodeRow, decodeRow2, ha.1, ha.2]

theorem Sys2Proof.Laws.EncodesItself.abs (p : Pred) (t : Ty) (a : Target) (b : Target) : EncodesItself.Statement (.abs p t a b) := by
  intro hw _ rest
  have ha := wf_targets rfl hw
  refine decode_encode (ls := []) p rest rfl rfl hw ?_ (by simp) (fun w h => by simp [litWords, h]) ?_
  · have := pred_code_lt p; have := ty_code_lt t; have := target_code_lt a; have := target_code_lt b
    refine ⟨?_, ?_, ?_, ?_, ?_⟩ <;> dsimp only <;> omega
  · simp [decodeRow, decodeRow2, ha.1, ha.2]

theorem Sys2Proof.Laws.EncodesItself.min (p : Pred) (t : Ty) (a : Target) (b : Target) : EncodesItself.Statement (.min p t a b) := by
  intro hw _ rest
  have ha := wf_targets rfl hw
  refine decode_encode (ls := []) p rest rfl rfl hw ?_ (by simp) (fun w h => by simp [litWords, h]) ?_
  · have := pred_code_lt p; have := ty_code_lt t; have := target_code_lt a; have := target_code_lt b
    refine ⟨?_, ?_, ?_, ?_, ?_⟩ <;> dsimp only <;> omega
  · simp [decodeRow, decodeRow2, ha.1, ha.2]

theorem Sys2Proof.Laws.EncodesItself.max (p : Pred) (t : Ty) (a : Target) (b : Target) : EncodesItself.Statement (.max p t a b) := by
  intro hw _ rest
  have ha := wf_targets rfl hw
  refine decode_encode (ls := []) p rest rfl rfl hw ?_ (by simp) (fun w h => by simp [litWords, h]) ?_
  · have := pred_code_lt p; have := ty_code_lt t; have := target_code_lt a; have := target_code_lt b
    refine ⟨?_, ?_, ?_, ?_, ?_⟩ <;> dsimp only <;> omega
  · simp [decodeRow, decodeRow2, ha.1, ha.2]

theorem Sys2Proof.Laws.EncodesItself.clamp (p : Pred) (t : Ty) (a : Target) (b : Target) : EncodesItself.Statement (.clamp p t a b) := by
  intro hw _ rest
  have ha := wf_targets rfl hw
  refine decode_encode (ls := []) p rest rfl rfl hw ?_ (by simp) (fun w h => by simp [litWords, h]) ?_
  · have := pred_code_lt p; have := ty_code_lt t; have := target_code_lt a; have := target_code_lt b
    refine ⟨?_, ?_, ?_, ?_, ?_⟩ <;> dsimp only <;> omega
  · simp [decodeRow, decodeRow2, ha.1, ha.2]

theorem Sys2Proof.Laws.EncodesItself.and (p : Pred) (t : Ty) (a : Target) (b : Target) : EncodesItself.Statement (.and p t a b) := by
  intro hw _ rest
  have ha := wf_targets rfl hw
  refine decode_encode (ls := []) p rest rfl rfl hw ?_ (by simp) (fun w h => by simp [litWords, h]) ?_
  · have := pred_code_lt p; have := ty_code_lt t; have := target_code_lt a; have := target_code_lt b
    refine ⟨?_, ?_, ?_, ?_, ?_⟩ <;> dsimp only <;> omega
  · simp [decodeRow, decodeRow2, ha.1, ha.2]

theorem Sys2Proof.Laws.EncodesItself.or (p : Pred) (t : Ty) (a : Target) (b : Target) : EncodesItself.Statement (.or p t a b) := by
  intro hw _ rest
  have ha := wf_targets rfl hw
  refine decode_encode (ls := []) p rest rfl rfl hw ?_ (by simp) (fun w h => by simp [litWords, h]) ?_
  · have := pred_code_lt p; have := ty_code_lt t; have := target_code_lt a; have := target_code_lt b
    refine ⟨?_, ?_, ?_, ?_, ?_⟩ <;> dsimp only <;> omega
  · simp [decodeRow, decodeRow2, ha.1, ha.2]

theorem Sys2Proof.Laws.EncodesItself.xor (p : Pred) (t : Ty) (a : Target) (b : Target) : EncodesItself.Statement (.xor p t a b) := by
  intro hw _ rest
  have ha := wf_targets rfl hw
  refine decode_encode (ls := []) p rest rfl rfl hw ?_ (by simp) (fun w h => by simp [litWords, h]) ?_
  · have := pred_code_lt p; have := ty_code_lt t; have := target_code_lt a; have := target_code_lt b
    refine ⟨?_, ?_, ?_, ?_, ?_⟩ <;> dsimp only <;> omega
  · simp [decodeRow, decodeRow2, ha.1, ha.2]

theorem Sys2Proof.Laws.EncodesItself.not (p : Pred) (t : Ty) (a : Target) (b : Target) : EncodesItself.Statement (.not p t a b) := by
  intro hw _ rest
  have ha := wf_targets rfl hw
  refine decode_encode (ls := []) p rest rfl rfl hw ?_ (by simp) (fun w h => by simp [litWords, h]) ?_
  · have := pred_code_lt p; have := ty_code_lt t; have := target_code_lt a; have := target_code_lt b
    refine ⟨?_, ?_, ?_, ?_, ?_⟩ <;> dsimp only <;> omega
  · simp [decodeRow, decodeRow3, ha.1, ha.2]

theorem Sys2Proof.Laws.EncodesItself.andn (p : Pred) (t : Ty) (a : Target) (b : Target) : EncodesItself.Statement (.andn p t a b) := by
  intro hw _ rest
  have ha := wf_targets rfl hw
  refine decode_encode (ls := []) p rest rfl rfl hw ?_ (by simp) (fun w h => by simp [litWords, h]) ?_
  · have := pred_code_lt p; have := ty_code_lt t; have := target_code_lt a; have := target_code_lt b
    refine ⟨?_, ?_, ?_, ?_, ?_⟩ <;> dsimp only <;> omega
  · simp [decodeRow, decodeRow3, ha.1, ha.2]

theorem Sys2Proof.Laws.EncodesItself.shl (p : Pred) (t : Ty) (a : Target) (b : Target) : EncodesItself.Statement (.shl p t a b) := by
  intro hw _ rest
  have ha := wf_targets rfl hw
  refine decode_encode (ls := []) p rest rfl rfl hw ?_ (by simp) (fun w h => by simp [litWords, h]) ?_
  · have := pred_code_lt p; have := ty_code_lt t; have := target_code_lt a; have := target_code_lt b
    refine ⟨?_, ?_, ?_, ?_, ?_⟩ <;> dsimp only <;> omega
  · simp [decodeRow, decodeRow3, ha.1, ha.2]

theorem Sys2Proof.Laws.EncodesItself.shr (p : Pred) (t : Ty) (a : Target) (b : Target) : EncodesItself.Statement (.shr p t a b) := by
  intro hw _ rest
  have ha := wf_targets rfl hw
  refine decode_encode (ls := []) p rest rfl rfl hw ?_ (by simp) (fun w h => by simp [litWords, h]) ?_
  · have := pred_code_lt p; have := ty_code_lt t; have := target_code_lt a; have := target_code_lt b
    refine ⟨?_, ?_, ?_, ?_, ?_⟩ <;> dsimp only <;> omega
  · simp [decodeRow, decodeRow3, ha.1, ha.2]

theorem Sys2Proof.Laws.EncodesItself.sar (p : Pred) (t : Ty) (a : Target) (b : Target) : EncodesItself.Statement (.sar p t a b) := by
  intro hw _ rest
  have ha := wf_targets rfl hw
  refine decode_encode (ls := []) p rest rfl rfl hw ?_ (by simp) (fun w h => by simp [litWords, h]) ?_
  · have := pred_code_lt p; have := ty_code_lt t; have := target_code_lt a; have := target_code_lt b
    refine ⟨?_, ?_, ?_, ?_, ?_⟩ <;> dsimp only <;> omega
  · simp [decodeRow, decodeRow3, ha.1, ha.2]

theorem Sys2Proof.Laws.EncodesItself.rot (p : Pred) (t : Ty) (a : Target) (b : Target) : EncodesItself.Statement (.rot p t a b) := by
  intro hw _ rest
  have ha := wf_targets rfl hw
  refine decode_encode (ls := []) p rest rfl rfl hw ?_ (by simp) (fun w h => by simp [litWords, h]) ?_
  · have := pred_code_lt p; have := ty_code_lt t; have := target_code_lt a; have := target_code_lt b
    refine ⟨?_, ?_, ?_, ?_, ?_⟩ <;> dsimp only <;> omega
  · simp [decodeRow, decodeRow3, ha.1, ha.2]

theorem Sys2Proof.Laws.EncodesItself.shli (p : Pred) (t : Ty) (a : Target) (i : BitVec 9) : EncodesItself.Statement (.shli p t a i) := by
  intro hw _ rest
  have ha := wf_target rfl hw
  refine decode_encode (ls := []) p rest rfl rfl hw ?_ (by simp) (fun w h => by simp [litWords, h]) ?_
  · have := pred_code_lt p; have := ty_code_lt t; have := target_code_lt a; have := i.isLt
    refine ⟨?_, ?_, ?_, ?_, ?_⟩ <;> dsimp only <;> omega
  · simp [decodeRow, decodeRow3, ha]

theorem Sys2Proof.Laws.EncodesItself.shri (p : Pred) (t : Ty) (a : Target) (i : BitVec 9) : EncodesItself.Statement (.shri p t a i) := by
  intro hw _ rest
  have ha := wf_target rfl hw
  refine decode_encode (ls := []) p rest rfl rfl hw ?_ (by simp) (fun w h => by simp [litWords, h]) ?_
  · have := pred_code_lt p; have := ty_code_lt t; have := target_code_lt a; have := i.isLt
    refine ⟨?_, ?_, ?_, ?_, ?_⟩ <;> dsimp only <;> omega
  · simp [decodeRow, decodeRow3, ha]

theorem Sys2Proof.Laws.EncodesItself.sari (p : Pred) (t : Ty) (a : Target) (i : BitVec 9) : EncodesItself.Statement (.sari p t a i) := by
  intro hw _ rest
  have ha := wf_target rfl hw
  refine decode_encode (ls := []) p rest rfl rfl hw ?_ (by simp) (fun w h => by simp [litWords, h]) ?_
  · have := pred_code_lt p; have := ty_code_lt t; have := target_code_lt a; have := i.isLt
    refine ⟨?_, ?_, ?_, ?_, ?_⟩ <;> dsimp only <;> omega
  · simp [decodeRow, decodeRow3, ha]

theorem Sys2Proof.Laws.EncodesItself.clz (p : Pred) (t : Ty) (a : Target) (b : Target) : EncodesItself.Statement (.clz p t a b) := by
  intro hw _ rest
  have ha := wf_targets rfl hw
  refine decode_encode (ls := []) p rest rfl rfl hw ?_ (by simp) (fun w h => by simp [litWords, h]) ?_
  · have := pred_code_lt p; have := ty_code_lt t; have := target_code_lt a; have := target_code_lt b
    refine ⟨?_, ?_, ?_, ?_, ?_⟩ <;> dsimp only <;> omega
  · simp [decodeRow, decodeRow3, ha.1, ha.2]

theorem Sys2Proof.Laws.EncodesItself.ctz (p : Pred) (t : Ty) (a : Target) (b : Target) : EncodesItself.Statement (.ctz p t a b) := by
  intro hw _ rest
  have ha := wf_targets rfl hw
  refine decode_encode (ls := []) p rest rfl rfl hw ?_ (by simp) (fun w h => by simp [litWords, h]) ?_
  · have := pred_code_lt p; have := ty_code_lt t; have := target_code_lt a; have := target_code_lt b
    refine ⟨?_, ?_, ?_, ?_, ?_⟩ <;> dsimp only <;> omega
  · simp [decodeRow, decodeRow3, ha.1, ha.2]

theorem Sys2Proof.Laws.EncodesItself.popc (p : Pred) (t : Ty) (a : Target) (b : Target) : EncodesItself.Statement (.popc p t a b) := by
  intro hw _ rest
  have ha := wf_targets rfl hw
  refine decode_encode (ls := []) p rest rfl rfl hw ?_ (by simp) (fun w h => by simp [litWords, h]) ?_
  · have := pred_code_lt p; have := ty_code_lt t; have := target_code_lt a; have := target_code_lt b
    refine ⟨?_, ?_, ?_, ?_, ?_⟩ <;> dsimp only <;> omega
  · simp [decodeRow, decodeRow3, ha.1, ha.2]

theorem Sys2Proof.Laws.EncodesItself.bfx (p : Pred) (t : Ty) (a : Target) (b : Target) : EncodesItself.Statement (.bfx p t a b) := by
  intro hw _ rest
  have ha := wf_targets rfl hw
  refine decode_encode (ls := []) p rest rfl rfl hw ?_ (by simp) (fun w h => by simp [litWords, h]) ?_
  · have := pred_code_lt p; have := ty_code_lt t; have := target_code_lt a; have := target_code_lt b
    refine ⟨?_, ?_, ?_, ?_, ?_⟩ <;> dsimp only <;> omega
  · simp [decodeRow, decodeRow3, ha.1, ha.2]

theorem Sys2Proof.Laws.EncodesItself.bfi (p : Pred) (t : Ty) (a : Target) (b : Target) : EncodesItself.Statement (.bfi p t a b) := by
  intro hw _ rest
  have ha := wf_targets rfl hw
  refine decode_encode (ls := []) p rest rfl rfl hw ?_ (by simp) (fun w h => by simp [litWords, h]) ?_
  · have := pred_code_lt p; have := ty_code_lt t; have := target_code_lt a; have := target_code_lt b
    refine ⟨?_, ?_, ?_, ?_, ?_⟩ <;> dsimp only <;> omega
  · simp [decodeRow, decodeRow3, ha.1, ha.2]

theorem Sys2Proof.Laws.EncodesItself.sext (p : Pred) (t : Ty) (a : Target) (b : Target) : EncodesItself.Statement (.sext p t a b) := by
  intro hw _ rest
  have ha := wf_targets rfl hw
  refine decode_encode (ls := []) p rest rfl rfl hw ?_ (by simp) (fun w h => by simp [litWords, h]) ?_
  · have := pred_code_lt p; have := ty_code_lt t; have := target_code_lt a; have := target_code_lt b
    refine ⟨?_, ?_, ?_, ?_, ?_⟩ <;> dsimp only <;> omega
  · simp [decodeRow, decodeRow3, ha.1, ha.2]

theorem Sys2Proof.Laws.EncodesItself.zext (p : Pred) (t : Ty) (a : Target) (b : Target) : EncodesItself.Statement (.zext p t a b) := by
  intro hw _ rest
  have ha := wf_targets rfl hw
  refine decode_encode (ls := []) p rest rfl rfl hw ?_ (by simp) (fun w h => by simp [litWords, h]) ?_
  · have := pred_code_lt p; have := ty_code_lt t; have := target_code_lt a; have := target_code_lt b
    refine ⟨?_, ?_, ?_, ?_, ?_⟩ <;> dsimp only <;> omega
  · simp [decodeRow, decodeRow3, ha.1, ha.2]

theorem Sys2Proof.Laws.EncodesItself.cmpeq (p : Pred) (t : Ty) (a : Target) (b : Target) : EncodesItself.Statement (.cmpeq p t a b) := by
  intro hw _ rest
  have ha := wf_targets rfl hw
  refine decode_encode (ls := []) p rest rfl rfl hw ?_ (by simp) (fun w h => by simp [litWords, h]) ?_
  · have := pred_code_lt p; have := ty_code_lt t; have := target_code_lt a; have := target_code_lt b
    refine ⟨?_, ?_, ?_, ?_, ?_⟩ <;> dsimp only <;> omega
  · simp [decodeRow, decodeRow4, ha.1, ha.2]

theorem Sys2Proof.Laws.EncodesItself.cmpne (p : Pred) (t : Ty) (a : Target) (b : Target) : EncodesItself.Statement (.cmpne p t a b) := by
  intro hw _ rest
  have ha := wf_targets rfl hw
  refine decode_encode (ls := []) p rest rfl rfl hw ?_ (by simp) (fun w h => by simp [litWords, h]) ?_
  · have := pred_code_lt p; have := ty_code_lt t; have := target_code_lt a; have := target_code_lt b
    refine ⟨?_, ?_, ?_, ?_, ?_⟩ <;> dsimp only <;> omega
  · simp [decodeRow, decodeRow4, ha.1, ha.2]

theorem Sys2Proof.Laws.EncodesItself.cmplt (p : Pred) (t : Ty) (a : Target) (b : Target) : EncodesItself.Statement (.cmplt p t a b) := by
  intro hw _ rest
  have ha := wf_targets rfl hw
  refine decode_encode (ls := []) p rest rfl rfl hw ?_ (by simp) (fun w h => by simp [litWords, h]) ?_
  · have := pred_code_lt p; have := ty_code_lt t; have := target_code_lt a; have := target_code_lt b
    refine ⟨?_, ?_, ?_, ?_, ?_⟩ <;> dsimp only <;> omega
  · simp [decodeRow, decodeRow4, ha.1, ha.2]

theorem Sys2Proof.Laws.EncodesItself.cmple (p : Pred) (t : Ty) (a : Target) (b : Target) : EncodesItself.Statement (.cmple p t a b) := by
  intro hw _ rest
  have ha := wf_targets rfl hw
  refine decode_encode (ls := []) p rest rfl rfl hw ?_ (by simp) (fun w h => by simp [litWords, h]) ?_
  · have := pred_code_lt p; have := ty_code_lt t; have := target_code_lt a; have := target_code_lt b
    refine ⟨?_, ?_, ?_, ?_, ?_⟩ <;> dsimp only <;> omega
  · simp [decodeRow, decodeRow4, ha.1, ha.2]

theorem Sys2Proof.Laws.EncodesItself.cmpeqi (p : Pred) (t : Ty) (a : Target) (i : BitVec 9) : EncodesItself.Statement (.cmpeqi p t a i) := by
  intro hw _ rest
  have ha := wf_target rfl hw
  refine decode_encode (ls := []) p rest rfl rfl hw ?_ (by simp) (fun w h => by simp [litWords, h]) ?_
  · have := pred_code_lt p; have := ty_code_lt t; have := target_code_lt a; have := i.isLt
    refine ⟨?_, ?_, ?_, ?_, ?_⟩ <;> dsimp only <;> omega
  · simp [decodeRow, decodeRow4, ha]

theorem Sys2Proof.Laws.EncodesItself.cmplti (p : Pred) (t : Ty) (a : Target) (i : BitVec 9) : EncodesItself.Statement (.cmplti p t a i) := by
  intro hw _ rest
  have ha := wf_target rfl hw
  refine decode_encode (ls := []) p rest rfl rfl hw ?_ (by simp) (fun w h => by simp [litWords, h]) ?_
  · have := pred_code_lt p; have := ty_code_lt t; have := target_code_lt a; have := i.isLt
    refine ⟨?_, ?_, ?_, ?_, ?_⟩ <;> dsimp only <;> omega
  · simp [decodeRow, decodeRow4, ha]

theorem Sys2Proof.Laws.EncodesItself.testb (p : Pred) (a : Target) (i : BitVec 9) : EncodesItself.Statement (.testb p a i) := by
  intro hw _ rest
  have ha := wf_target rfl hw
  refine decode_encode (ls := []) p rest rfl rfl hw ?_ (by simp) (fun w h => by simp [litWords, h]) ?_
  · have := pred_code_lt p; have := target_code_lt a; have := i.isLt
    refine ⟨?_, ?_, ?_, ?_, ?_⟩ <;> dsimp only <;> omega
  · simp [decodeRow, decodeRow4, ha]

theorem Sys2Proof.Laws.EncodesItself.pnot (p : Pred) (a : Target) (b : Target) : EncodesItself.Statement (.pnot p a b) := by
  intro hw _ rest
  have ha := wf_targets rfl hw
  refine decode_encode (ls := []) p rest rfl rfl hw ?_ (by simp) (fun w h => by simp [litWords, h]) ?_
  · have := pred_code_lt p; have := target_code_lt a; have := target_code_lt b
    refine ⟨?_, ?_, ?_, ?_, ?_⟩ <;> dsimp only <;> omega
  · simp [decodeRow, decodeRow4, ha.1, ha.2]

theorem Sys2Proof.Laws.EncodesItself.pand (p : Pred) (a : Target) (b : Target) : EncodesItself.Statement (.pand p a b) := by
  intro hw _ rest
  have ha := wf_targets rfl hw
  refine decode_encode (ls := []) p rest rfl rfl hw ?_ (by simp) (fun w h => by simp [litWords, h]) ?_
  · have := pred_code_lt p; have := target_code_lt a; have := target_code_lt b
    refine ⟨?_, ?_, ?_, ?_, ?_⟩ <;> dsimp only <;> omega
  · simp [decodeRow, decodeRow4, ha.1, ha.2]

theorem Sys2Proof.Laws.EncodesItself.por (p : Pred) (a : Target) (b : Target) : EncodesItself.Statement (.por p a b) := by
  intro hw _ rest
  have ha := wf_targets rfl hw
  refine decode_encode (ls := []) p rest rfl rfl hw ?_ (by simp) (fun w h => by simp [litWords, h]) ?_
  · have := pred_code_lt p; have := target_code_lt a; have := target_code_lt b
    refine ⟨?_, ?_, ?_, ?_, ?_⟩ <;> dsimp only <;> omega
  · simp [decodeRow, decodeRow4, ha.1, ha.2]

theorem Sys2Proof.Laws.EncodesItself.lea (p : Pred) (sx : BitVec 4) (a : Target) (b : Target) : EncodesItself.Statement (.lea p sx a b) := by
  intro hw _ rest
  have ha := wf_targets rfl hw
  refine decode_encode (ls := []) p rest rfl rfl hw ?_ (by simp) (fun w h => by simp [litWords, h]) ?_
  · have := pred_code_lt p; have := sx.isLt; have := target_code_lt a; have := target_code_lt b
    refine ⟨?_, ?_, ?_, ?_, ?_⟩ <;> dsimp only <;> omega
  · simp [decodeRow, decodeRow4, ha.1, ha.2]

theorem Sys2Proof.Laws.EncodesItself.ptag (p : Pred) (a : Target) (b : Target) : EncodesItself.Statement (.ptag p a b) := by
  intro hw _ rest
  have ha := wf_targets rfl hw
  refine decode_encode (ls := []) p rest rfl rfl hw ?_ (by simp) (fun w h => by simp [litWords, h]) ?_
  · have := pred_code_lt p; have := target_code_lt a; have := target_code_lt b
    refine ⟨?_, ?_, ?_, ?_, ?_⟩ <;> dsimp only <;> omega
  · simp [decodeRow, decodeRow4, ha.1, ha.2]

theorem Sys2Proof.Laws.EncodesItself.pspc (p : Pred) (a : Target) (b : Target) : EncodesItself.Statement (.pspc p a b) := by
  intro hw _ rest
  have ha := wf_targets rfl hw
  refine decode_encode (ls := []) p rest rfl rfl hw ?_ (by simp) (fun w h => by simp [litWords, h]) ?_
  · have := pred_code_lt p; have := target_code_lt a; have := target_code_lt b
    refine ⟨?_, ?_, ?_, ?_, ?_⟩ <;> dsimp only <;> omega
  · simp [decodeRow, decodeRow4, ha.1, ha.2]

theorem Sys2Proof.Laws.EncodesItself.pown (p : Pred) (a : Target) (b : Target) : EncodesItself.Statement (.pown p a b) := by
  intro hw _ rest
  have ha := wf_targets rfl hw
  refine decode_encode (ls := []) p rest rfl rfl hw ?_ (by simp) (fun w h => by simp [litWords, h]) ?_
  · have := pred_code_lt p; have := target_code_lt a; have := target_code_lt b
    refine ⟨?_, ?_, ?_, ?_, ?_⟩ <;> dsimp only <;> omega
  · simp [decodeRow, decodeRow4, ha.1, ha.2]

theorem Sys2Proof.Laws.EncodesItself.padd (p : Pred) (sx : BitVec 4) (a : Target) (i : BitVec 9) : EncodesItself.Statement (.padd p sx a i) := by
  intro hw _ rest
  have ha := wf_target rfl hw
  refine decode_encode (ls := []) p rest rfl rfl hw ?_ (by simp) (fun w h => by simp [litWords, h]) ?_
  · have := pred_code_lt p; have := sx.isLt; have := target_code_lt a; have := i.isLt
    refine ⟨?_, ?_, ?_, ?_, ?_⟩ <;> dsimp only <;> omega
  · simp [decodeRow, decodeRow4, ha]

theorem Sys2Proof.Laws.EncodesItself.poff (p : Pred) (a : Target) (b : Target) : EncodesItself.Statement (.poff p a b) := by
  intro hw _ rest
  have ha := wf_targets rfl hw
  refine decode_encode (ls := []) p rest rfl rfl hw ?_ (by simp) (fun w h => by simp [litWords, h]) ?_
  · have := pred_code_lt p; have := target_code_lt a; have := target_code_lt b
    refine ⟨?_, ?_, ?_, ?_, ?_⟩ <;> dsimp only <;> omega
  · simp [decodeRow, decodeRow4, ha.1, ha.2]

theorem Sys2Proof.Laws.EncodesItself.fadd (p : Pred) (t : Ty) (a : Target) (b : Target) : EncodesItself.Statement (.fadd p t a b) := by
  intro hw _ rest
  have ha := wf_targets rfl hw
  refine decode_encode (ls := []) p rest rfl rfl hw ?_ (by simp) (fun w h => by simp [litWords, h]) ?_
  · have := pred_code_lt p; have := ty_code_lt t; have := target_code_lt a; have := target_code_lt b
    refine ⟨?_, ?_, ?_, ?_, ?_⟩ <;> dsimp only <;> omega
  · simp [decodeRow, decodeRow5, ha.1, ha.2]

theorem Sys2Proof.Laws.EncodesItself.fsub (p : Pred) (t : Ty) (a : Target) (b : Target) : EncodesItself.Statement (.fsub p t a b) := by
  intro hw _ rest
  have ha := wf_targets rfl hw
  refine decode_encode (ls := []) p rest rfl rfl hw ?_ (by simp) (fun w h => by simp [litWords, h]) ?_
  · have := pred_code_lt p; have := ty_code_lt t; have := target_code_lt a; have := target_code_lt b
    refine ⟨?_, ?_, ?_, ?_, ?_⟩ <;> dsimp only <;> omega
  · simp [decodeRow, decodeRow5, ha.1, ha.2]

theorem Sys2Proof.Laws.EncodesItself.fmul (p : Pred) (t : Ty) (a : Target) (b : Target) : EncodesItself.Statement (.fmul p t a b) := by
  intro hw _ rest
  have ha := wf_targets rfl hw
  refine decode_encode (ls := []) p rest rfl rfl hw ?_ (by simp) (fun w h => by simp [litWords, h]) ?_
  · have := pred_code_lt p; have := ty_code_lt t; have := target_code_lt a; have := target_code_lt b
    refine ⟨?_, ?_, ?_, ?_, ?_⟩ <;> dsimp only <;> omega
  · simp [decodeRow, decodeRow5, ha.1, ha.2]

theorem Sys2Proof.Laws.EncodesItself.ffma (p : Pred) (t : Ty) (a : Target) (b : Target) : EncodesItself.Statement (.ffma p t a b) := by
  intro hw _ rest
  have ha := wf_targets rfl hw
  refine decode_encode (ls := []) p rest rfl rfl hw ?_ (by simp) (fun w h => by simp [litWords, h]) ?_
  · have := pred_code_lt p; have := ty_code_lt t; have := target_code_lt a; have := target_code_lt b
    refine ⟨?_, ?_, ?_, ?_, ?_⟩ <;> dsimp only <;> omega
  · simp [decodeRow, decodeRow5, ha.1, ha.2]

theorem Sys2Proof.Laws.EncodesItself.fdiv (p : Pred) (t : Ty) (a : Target) (b : Target) : EncodesItself.Statement (.fdiv p t a b) := by
  intro hw _ rest
  have ha := wf_targets rfl hw
  refine decode_encode (ls := []) p rest rfl rfl hw ?_ (by simp) (fun w h => by simp [litWords, h]) ?_
  · have := pred_code_lt p; have := ty_code_lt t; have := target_code_lt a; have := target_code_lt b
    refine ⟨?_, ?_, ?_, ?_, ?_⟩ <;> dsimp only <;> omega
  · simp [decodeRow, decodeRow5, ha.1, ha.2]

theorem Sys2Proof.Laws.EncodesItself.fmin (p : Pred) (t : Ty) (a : Target) (b : Target) : EncodesItself.Statement (.fmin p t a b) := by
  intro hw _ rest
  have ha := wf_targets rfl hw
  refine decode_encode (ls := []) p rest rfl rfl hw ?_ (by simp) (fun w h => by simp [litWords, h]) ?_
  · have := pred_code_lt p; have := ty_code_lt t; have := target_code_lt a; have := target_code_lt b
    refine ⟨?_, ?_, ?_, ?_, ?_⟩ <;> dsimp only <;> omega
  · simp [decodeRow, decodeRow5, ha.1, ha.2]

theorem Sys2Proof.Laws.EncodesItself.fmax (p : Pred) (t : Ty) (a : Target) (b : Target) : EncodesItself.Statement (.fmax p t a b) := by
  intro hw _ rest
  have ha := wf_targets rfl hw
  refine decode_encode (ls := []) p rest rfl rfl hw ?_ (by simp) (fun w h => by simp [litWords, h]) ?_
  · have := pred_code_lt p; have := ty_code_lt t; have := target_code_lt a; have := target_code_lt b
    refine ⟨?_, ?_, ?_, ?_, ?_⟩ <;> dsimp only <;> omega
  · simp [decodeRow, decodeRow5, ha.1, ha.2]

theorem Sys2Proof.Laws.EncodesItself.fabs (p : Pred) (t : Ty) (a : Target) (b : Target) : EncodesItself.Statement (.fabs p t a b) := by
  intro hw _ rest
  have ha := wf_targets rfl hw
  refine decode_encode (ls := []) p rest rfl rfl hw ?_ (by simp) (fun w h => by simp [litWords, h]) ?_
  · have := pred_code_lt p; have := ty_code_lt t; have := target_code_lt a; have := target_code_lt b
    refine ⟨?_, ?_, ?_, ?_, ?_⟩ <;> dsimp only <;> omega
  · simp [decodeRow, decodeRow5, ha.1, ha.2]

theorem Sys2Proof.Laws.EncodesItself.fneg (p : Pred) (t : Ty) (a : Target) (b : Target) : EncodesItself.Statement (.fneg p t a b) := by
  intro hw _ rest
  have ha := wf_targets rfl hw
  refine decode_encode (ls := []) p rest rfl rfl hw ?_ (by simp) (fun w h => by simp [litWords, h]) ?_
  · have := pred_code_lt p; have := ty_code_lt t; have := target_code_lt a; have := target_code_lt b
    refine ⟨?_, ?_, ?_, ?_, ?_⟩ <;> dsimp only <;> omega
  · simp [decodeRow, decodeRow5, ha.1, ha.2]

theorem Sys2Proof.Laws.EncodesItself.fsqrt (p : Pred) (t : Ty) (a : Target) (b : Target) : EncodesItself.Statement (.fsqrt p t a b) := by
  intro hw _ rest
  have ha := wf_targets rfl hw
  refine decode_encode (ls := []) p rest rfl rfl hw ?_ (by simp) (fun w h => by simp [litWords, h]) ?_
  · have := pred_code_lt p; have := ty_code_lt t; have := target_code_lt a; have := target_code_lt b
    refine ⟨?_, ?_, ?_, ?_, ?_⟩ <;> dsimp only <;> omega
  · simp [decodeRow, decodeRow5, ha.1, ha.2]

theorem Sys2Proof.Laws.EncodesItself.frcp (p : Pred) (t : Ty) (a : Target) (b : Target) : EncodesItself.Statement (.frcp p t a b) := by
  intro hw _ rest
  have ha := wf_targets rfl hw
  refine decode_encode (ls := []) p rest rfl rfl hw ?_ (by simp) (fun w h => by simp [litWords, h]) ?_
  · have := pred_code_lt p; have := ty_code_lt t; have := target_code_lt a; have := target_code_lt b
    refine ⟨?_, ?_, ?_, ?_, ?_⟩ <;> dsimp only <;> omega
  · simp [decodeRow, decodeRow5, ha.1, ha.2]

theorem Sys2Proof.Laws.EncodesItself.frsq (p : Pred) (t : Ty) (a : Target) (b : Target) : EncodesItself.Statement (.frsq p t a b) := by
  intro hw _ rest
  have ha := wf_targets rfl hw
  refine decode_encode (ls := []) p rest rfl rfl hw ?_ (by simp) (fun w h => by simp [litWords, h]) ?_
  · have := pred_code_lt p; have := ty_code_lt t; have := target_code_lt a; have := target_code_lt b
    refine ⟨?_, ?_, ?_, ?_, ?_⟩ <;> dsimp only <;> omega
  · simp [decodeRow, decodeRow5, ha.1, ha.2]

theorem Sys2Proof.Laws.EncodesItself.fex2 (p : Pred) (t : Ty) (a : Target) (b : Target) : EncodesItself.Statement (.fex2 p t a b) := by
  intro hw _ rest
  have ha := wf_targets rfl hw
  refine decode_encode (ls := []) p rest rfl rfl hw ?_ (by simp) (fun w h => by simp [litWords, h]) ?_
  · have := pred_code_lt p; have := ty_code_lt t; have := target_code_lt a; have := target_code_lt b
    refine ⟨?_, ?_, ?_, ?_, ?_⟩ <;> dsimp only <;> omega
  · simp [decodeRow, decodeRow5, ha.1, ha.2]

theorem Sys2Proof.Laws.EncodesItself.flg2 (p : Pred) (t : Ty) (a : Target) (b : Target) : EncodesItself.Statement (.flg2 p t a b) := by
  intro hw _ rest
  have ha := wf_targets rfl hw
  refine decode_encode (ls := []) p rest rfl rfl hw ?_ (by simp) (fun w h => by simp [litWords, h]) ?_
  · have := pred_code_lt p; have := ty_code_lt t; have := target_code_lt a; have := target_code_lt b
    refine ⟨?_, ?_, ?_, ?_, ?_⟩ <;> dsimp only <;> omega
  · simp [decodeRow, decodeRow5, ha.1, ha.2]

theorem Sys2Proof.Laws.EncodesItself.fcls (p : Pred) (t : Ty) (a : Target) (b : Target) : EncodesItself.Statement (.fcls p t a b) := by
  intro hw _ rest
  have ha := wf_targets rfl hw
  refine decode_encode (ls := []) p rest rfl rfl hw ?_ (by simp) (fun w h => by simp [litWords, h]) ?_
  · have := pred_code_lt p; have := ty_code_lt t; have := target_code_lt a; have := target_code_lt b
    refine ⟨?_, ?_, ?_, ?_, ?_⟩ <;> dsimp only <;> omega
  · simp [decodeRow, decodeRow5, ha.1, ha.2]

theorem Sys2Proof.Laws.EncodesItself.cvt (p : Pred) (t : Ty) (a : Target) (sx : Ty) : EncodesItself.Statement (.cvt p t a sx) := by
  intro hw _ rest
  have ha := wf_target rfl hw
  refine decode_encode (ls := []) p rest rfl rfl hw ?_ (by simp) (fun w h => by simp [litWords, h]) ?_
  · have := pred_code_lt p; have := ty_code_lt t; have := target_code_lt a; have := ty_code_lt sx
    refine ⟨?_, ?_, ?_, ?_, ?_⟩ <;> dsimp only <;> omega
  · have := ty_code_lt sx
    simp [decodeRow, decodeRow5, ha]; omega

theorem Sys2Proof.Laws.EncodesItself.fcmpeq (p : Pred) (t : Ty) (a : Target) (b : Target) : EncodesItself.Statement (.fcmpeq p t a b) := by
  intro hw _ rest
  have ha := wf_targets rfl hw
  refine decode_encode (ls := []) p rest rfl rfl hw ?_ (by simp) (fun w h => by simp [litWords, h]) ?_
  · have := pred_code_lt p; have := ty_code_lt t; have := target_code_lt a; have := target_code_lt b
    refine ⟨?_, ?_, ?_, ?_, ?_⟩ <;> dsimp only <;> omega
  · simp [decodeRow, decodeRow6, ha.1, ha.2]

theorem Sys2Proof.Laws.EncodesItself.fcmplt (p : Pred) (t : Ty) (a : Target) (b : Target) : EncodesItself.Statement (.fcmplt p t a b) := by
  intro hw _ rest
  have ha := wf_targets rfl hw
  refine decode_encode (ls := []) p rest rfl rfl hw ?_ (by simp) (fun w h => by simp [litWords, h]) ?_
  · have := pred_code_lt p; have := ty_code_lt t; have := target_code_lt a; have := target_code_lt b
    refine ⟨?_, ?_, ?_, ?_, ?_⟩ <;> dsimp only <;> omega
  · simp [decodeRow, decodeRow6, ha.1, ha.2]

theorem Sys2Proof.Laws.EncodesItself.fcmple (p : Pred) (t : Ty) (a : Target) (b : Target) : EncodesItself.Statement (.fcmple p t a b) := by
  intro hw _ rest
  have ha := wf_targets rfl hw
  refine decode_encode (ls := []) p rest rfl rfl hw ?_ (by simp) (fun w h => by simp [litWords, h]) ?_
  · have := pred_code_lt p; have := ty_code_lt t; have := target_code_lt a; have := target_code_lt b
    refine ⟨?_, ?_, ?_, ?_, ?_⟩ <;> dsimp only <;> omega
  · simp [decodeRow, decodeRow6, ha.1, ha.2]

theorem Sys2Proof.Laws.EncodesItself.fcmpun (p : Pred) (t : Ty) (a : Target) (b : Target) : EncodesItself.Statement (.fcmpun p t a b) := by
  intro hw _ rest
  have ha := wf_targets rfl hw
  refine decode_encode (ls := []) p rest rfl rfl hw ?_ (by simp) (fun w h => by simp [litWords, h]) ?_
  · have := pred_code_lt p; have := ty_code_lt t; have := target_code_lt a; have := target_code_lt b
    refine ⟨?_, ?_, ?_, ?_, ?_⟩ <;> dsimp only <;> omega
  · simp [decodeRow, decodeRow6, ha.1, ha.2]

theorem Sys2Proof.Laws.EncodesItself.peek (p : Pred) (t : BitVec 4) (a : Target) (v : Bool) (h : Fin 16) (o : Fin 16) : EncodesItself.Statement (.peek p t a v h o) := by
  intro hw _ rest
  have ha := wf_target rfl hw
  cases v <;>
  (refine decode_encode (ls := []) p rest rfl rfl hw ?_ (by simp) (fun w h => by simp [litWords, h]) ?_
   · have := pred_code_lt p; have := t.isLt; have := target_code_lt a; have := h.isLt; have := o.isLt
     refine ⟨?_, ?_, ?_, ?_, ?_⟩ <;> simp <;> omega
   · have := h.isLt; have := o.isLt; simp [decodeRow, decodeRow6, ha, bitAt, fin16, Fin.ext_iff] <;> omega)

theorem Sys2Proof.Laws.EncodesItself.poke (p : Pred) (v : Bool) (h : Fin 16) (o : Fin 16) : EncodesItself.Statement (.poke p v h o) := by
  intro hw _ rest
  cases v <;>
  (refine decode_encode (ls := []) p rest rfl rfl hw ?_ (by simp) (fun w h => by simp [litWords, h]) ?_
   · have := pred_code_lt p; have := h.isLt; have := o.isLt
     refine ⟨?_, ?_, ?_, ?_, ?_⟩ <;> simp <;> omega
   · have := h.isLt; have := o.isLt; simp [decodeRow, decodeRow6, bitAt, fin16, Fin.ext_iff] <;> omega)

theorem Sys2Proof.Laws.EncodesItself.advr (p : Pred) (d : Bool) (h : Fin 16) (n : Fin 32) : EncodesItself.Statement (.advr p d h n) := by
  intro hw _ rest
  cases d <;>
  (refine decode_encode (ls := []) p rest rfl rfl hw ?_ (by simp) (fun w h => by simp [litWords, h]) ?_
   · have := pred_code_lt p; have := h.isLt; have := n.isLt
     refine ⟨?_, ?_, ?_, ?_, ?_⟩ <;> simp <;> omega
   · have := h.isLt; have := n.isLt; simp [decodeRow, decodeRow6, bitAt, fin16, fin32, Fin.ext_iff] <;> omega)

theorem Sys2Proof.Laws.EncodesItself.advw (p : Pred) (d : Bool) (h : Fin 16) (n : Fin 32) : EncodesItself.Statement (.advw p d h n) := by
  intro hw _ rest
  cases d <;>
  (refine decode_encode (ls := []) p rest rfl rfl hw ?_ (by simp) (fun w h => by simp [litWords, h]) ?_
   · have := pred_code_lt p; have := h.isLt; have := n.isLt
     refine ⟨?_, ?_, ?_, ?_, ?_⟩ <;> simp <;> omega
   · have := h.isLt; have := n.isLt; simp [decodeRow, decodeRow6, bitAt, fin16, fin32, Fin.ext_iff] <;> omega)

theorem Sys2Proof.Laws.EncodesItself.anti (p : Pred) (d : Bool) (h : Fin 16) (n : Fin 32) : EncodesItself.Statement (.anti p d h n) := by
  intro hw _ rest
  cases d <;>
  (refine decode_encode (ls := []) p rest rfl rfl hw ?_ (by simp) (fun w h => by simp [litWords, h]) ?_
   · have := pred_code_lt p; have := h.isLt; have := n.isLt
     refine ⟨?_, ?_, ?_, ?_, ?_⟩ <;> simp <;> omega
   · have := h.isLt; have := n.isLt; simp [decodeRow, decodeRow6, bitAt, fin16, fin32, Fin.ext_iff] <;> omega)

theorem Sys2Proof.Laws.EncodesItself.hcnt (p : Pred) (a : Target) (h : Fin 16) : EncodesItself.Statement (.hcnt p a h) := by
  intro hw _ rest
  have ha := wf_target rfl hw
  refine decode_encode (ls := []) p rest rfl rfl hw ?_ (by simp) (fun w h => by simp [litWords, h]) ?_
  · have := pred_code_lt p; have := target_code_lt a; have := h.isLt
    refine ⟨?_, ?_, ?_, ?_, ?_⟩ <;> dsimp only <;> omega
  · have := h.isLt; simp [decodeRow, decodeRow6, ha, fin16, Fin.ext_iff] <;> omega

theorem Sys2Proof.Laws.EncodesItself.hfree (p : Pred) (a : Target) (h : Fin 16) : EncodesItself.Statement (.hfree p a h) := by
  intro hw _ rest
  have ha := wf_target rfl hw
  refine decode_encode (ls := []) p rest rfl rfl hw ?_ (by simp) (fun w h => by simp [litWords, h]) ?_
  · have := pred_code_lt p; have := target_code_lt a; have := h.isLt
    refine ⟨?_, ?_, ?_, ?_, ?_⟩ <;> dsimp only <;> omega
  · have := h.isLt; simp [decodeRow, decodeRow6, ha, fin16, Fin.ext_iff] <;> omega

theorem Sys2Proof.Laws.EncodesItself.tkind (p : Pred) (a : Target) (h : Fin 16) (o : Fin 16) : EncodesItself.Statement (.tkind p a h o) := by
  intro hw _ rest
  have ha := wf_target rfl hw
  refine decode_encode (ls := []) p rest rfl rfl hw ?_ (by simp) (fun w h => by simp [litWords, h]) ?_
  · have := pred_code_lt p; have := target_code_lt a; have := h.isLt; have := o.isLt
    refine ⟨?_, ?_, ?_, ?_, ?_⟩ <;> dsimp only <;> omega
  · have := h.isLt; have := o.isLt; simp [decodeRow, decodeRow6, ha, fin16, Fin.ext_iff] <;> omega

theorem Sys2Proof.Laws.EncodesItself.emit (p : Pred) (k : BitVec 4) (v : Bool) (h : Fin 16) (o : Fin 16) : EncodesItself.Statement (.emit p k v h o) := by
  intro hw _ rest
  cases v <;>
  (refine decode_encode (ls := []) p rest rfl rfl hw ?_ (by simp) (fun w h => by simp [litWords, h]) ?_
   · have := pred_code_lt p; have := k.isLt; have := h.isLt; have := o.isLt
     refine ⟨?_, ?_, ?_, ?_, ?_⟩ <;> simp <;> omega
   · have := h.isLt; have := o.isLt; simp [decodeRow, decodeRow6, bitAt, fin16, Fin.ext_iff] <;> omega)

theorem Sys2Proof.Laws.EncodesItself.peekt (p : Pred) (t : BitVec 4) (a : Target) (v : Bool) (h : Fin 16) (o : Fin 16) : EncodesItself.Statement (.peekt p t a v h o) := by
  intro hw _ rest
  have ha := wf_target rfl hw
  cases v <;>
  (refine decode_encode (ls := []) p rest rfl rfl hw ?_ (by simp) (fun w h => by simp [litWords, h]) ?_
   · have := pred_code_lt p; have := t.isLt; have := target_code_lt a; have := h.isLt; have := o.isLt
     refine ⟨?_, ?_, ?_, ?_, ?_⟩ <;> simp <;> omega
   · have := h.isLt; have := o.isLt; simp [decodeRow, decodeRow6, ha, bitAt, fin16, Fin.ext_iff] <;> omega)

theorem Sys2Proof.Laws.EncodesItself.poket (p : Pred) (v : Bool) (h : Fin 16) (o : Fin 16) : EncodesItself.Statement (.poket p v h o) := by
  intro hw _ rest
  cases v <;>
  (refine decode_encode (ls := []) p rest rfl rfl hw ?_ (by simp) (fun w h => by simp [litWords, h]) ?_
   · have := pred_code_lt p; have := h.isLt; have := o.isLt
     refine ⟨?_, ?_, ?_, ?_, ?_⟩ <;> simp <;> omega
   · have := h.isLt; have := o.isLt; simp [decodeRow, decodeRow6, bitAt, fin16, Fin.ext_iff] <;> omega)

theorem Sys2Proof.Laws.EncodesItself.rngc (p : Pred) (v : Bool) (sx : Bool) (a : Target) (b : Target) : EncodesItself.Statement (.rngc p v sx a b) := by
  intro hw _ rest
  have ha := wf_targets rfl hw
  cases v <;>
  cases sx <;>
  (refine decode_encode (ls := []) p rest rfl rfl hw ?_ (by simp) (fun w h => by simp [litWords, h]) ?_
   · have := pred_code_lt p; have := target_code_lt a; have := target_code_lt b
     refine ⟨?_, ?_, ?_, ?_, ?_⟩ <;> simp <;> omega
   · simp [decodeRow, decodeRow6, ha.1, ha.2, bitAt])

theorem Sys2Proof.Laws.EncodesItself.vadd (p : Pred) (t : Ty) (a : Target) (b : Target) : EncodesItself.Statement (.vadd p t a b) := by
  intro hw _ rest
  have ha := wf_targets rfl hw
  refine decode_encode (ls := []) p rest rfl rfl hw ?_ (by simp) (fun w h => by simp [litWords, h]) ?_
  · have := pred_code_lt p; have := ty_code_lt t; have := target_code_lt a; have := target_code_lt b
    refine ⟨?_, ?_, ?_, ?_, ?_⟩ <;> dsimp only <;> omega
  · simp [decodeRow, decodeRow7, ha.1, ha.2]

theorem Sys2Proof.Laws.EncodesItself.vsub (p : Pred) (t : Ty) (a : Target) (b : Target) : EncodesItself.Statement (.vsub p t a b) := by
  intro hw _ rest
  have ha := wf_targets rfl hw
  refine decode_encode (ls := []) p rest rfl rfl hw ?_ (by simp) (fun w h => by simp [litWords, h]) ?_
  · have := pred_code_lt p; have := ty_code_lt t; have := target_code_lt a; have := target_code_lt b
    refine ⟨?_, ?_, ?_, ?_, ?_⟩ <;> dsimp only <;> omega
  · simp [decodeRow, decodeRow7, ha.1, ha.2]

theorem Sys2Proof.Laws.EncodesItself.vmul (p : Pred) (t : Ty) (a : Target) (b : Target) : EncodesItself.Statement (.vmul p t a b) := by
  intro hw _ rest
  have ha := wf_targets rfl hw
  refine decode_encode (ls := []) p rest rfl rfl hw ?_ (by simp) (fun w h => by simp [litWords, h]) ?_
  · have := pred_code_lt p; have := ty_code_lt t; have := target_code_lt a; have := target_code_lt b
    refine ⟨?_, ?_, ?_, ?_, ?_⟩ <;> dsimp only <;> omega
  · simp [decodeRow, decodeRow7, ha.1, ha.2]

theorem Sys2Proof.Laws.EncodesItself.vfma (p : Pred) (t : Ty) (a : Target) (b : Target) : EncodesItself.Statement (.vfma p t a b) := by
  intro hw _ rest
  have ha := wf_targets rfl hw
  refine decode_encode (ls := []) p rest rfl rfl hw ?_ (by simp) (fun w h => by simp [litWords, h]) ?_
  · have := pred_code_lt p; have := ty_code_lt t; have := target_code_lt a; have := target_code_lt b
    refine ⟨?_, ?_, ?_, ?_, ?_⟩ <;> dsimp only <;> omega
  · simp [decodeRow, decodeRow7, ha.1, ha.2]

theorem Sys2Proof.Laws.EncodesItself.vmin (p : Pred) (t : Ty) (a : Target) (b : Target) : EncodesItself.Statement (.vmin p t a b) := by
  intro hw _ rest
  have ha := wf_targets rfl hw
  refine decode_encode (ls := []) p rest rfl rfl hw ?_ (by simp) (fun w h => by simp [litWords, h]) ?_
  · have := pred_code_lt p; have := ty_code_lt t; have := target_code_lt a; have := target_code_lt b
    refine ⟨?_, ?_, ?_, ?_, ?_⟩ <;> dsimp only <;> omega
  · simp [decodeRow, decodeRow7, ha.1, ha.2]

theorem Sys2Proof.Laws.EncodesItself.vmax (p : Pred) (t : Ty) (a : Target) (b : Target) : EncodesItself.Statement (.vmax p t a b) := by
  intro hw _ rest
  have ha := wf_targets rfl hw
  refine decode_encode (ls := []) p rest rfl rfl hw ?_ (by simp) (fun w h => by simp [litWords, h]) ?_
  · have := pred_code_lt p; have := ty_code_lt t; have := target_code_lt a; have := target_code_lt b
    refine ⟨?_, ?_, ?_, ?_, ?_⟩ <;> dsimp only <;> omega
  · simp [decodeRow, decodeRow7, ha.1, ha.2]

theorem Sys2Proof.Laws.EncodesItself.vabs (p : Pred) (t : Ty) (a : Target) (b : Target) : EncodesItself.Statement (.vabs p t a b) := by
  intro hw _ rest
  have ha := wf_targets rfl hw
  refine decode_encode (ls := []) p rest rfl rfl hw ?_ (by simp) (fun w h => by simp [litWords, h]) ?_
  · have := pred_code_lt p; have := ty_code_lt t; have := target_code_lt a; have := target_code_lt b
    refine ⟨?_, ?_, ?_, ?_, ?_⟩ <;> dsimp only <;> omega
  · simp [decodeRow, decodeRow7, ha.1, ha.2]

theorem Sys2Proof.Laws.EncodesItself.vneg (p : Pred) (t : Ty) (a : Target) (b : Target) : EncodesItself.Statement (.vneg p t a b) := by
  intro hw _ rest
  have ha := wf_targets rfl hw
  refine decode_encode (ls := []) p rest rfl rfl hw ?_ (by simp) (fun w h => by simp [litWords, h]) ?_
  · have := pred_code_lt p; have := ty_code_lt t; have := target_code_lt a; have := target_code_lt b
    refine ⟨?_, ?_, ?_, ?_, ?_⟩ <;> dsimp only <;> omega
  · simp [decodeRow, decodeRow7, ha.1, ha.2]

theorem Sys2Proof.Laws.EncodesItself.vand (p : Pred) (a : Target) (b : Target) : EncodesItself.Statement (.vand p a b) := by
  intro hw _ rest
  have ha := wf_targets rfl hw
  refine decode_encode (ls := []) p rest rfl rfl hw ?_ (by simp) (fun w h => by simp [litWords, h]) ?_
  · have := pred_code_lt p; have := target_code_lt a; have := target_code_lt b
    refine ⟨?_, ?_, ?_, ?_, ?_⟩ <;> dsimp only <;> omega
  · simp [decodeRow, decodeRow7, ha.1, ha.2]

theorem Sys2Proof.Laws.EncodesItself.vor (p : Pred) (a : Target) (b : Target) : EncodesItself.Statement (.vor p a b) := by
  intro hw _ rest
  have ha := wf_targets rfl hw
  refine decode_encode (ls := []) p rest rfl rfl hw ?_ (by simp) (fun w h => by simp [litWords, h]) ?_
  · have := pred_code_lt p; have := target_code_lt a; have := target_code_lt b
    refine ⟨?_, ?_, ?_, ?_, ?_⟩ <;> dsimp only <;> omega
  · simp [decodeRow, decodeRow7, ha.1, ha.2]

theorem Sys2Proof.Laws.EncodesItself.vxor (p : Pred) (a : Target) (b : Target) : EncodesItself.Statement (.vxor p a b) := by
  intro hw _ rest
  have ha := wf_targets rfl hw
  refine decode_encode (ls := []) p rest rfl rfl hw ?_ (by simp) (fun w h => by simp [litWords, h]) ?_
  · have := pred_code_lt p; have := target_code_lt a; have := target_code_lt b
    refine ⟨?_, ?_, ?_, ?_, ?_⟩ <;> dsimp only <;> omega
  · simp [decodeRow, decodeRow7, ha.1, ha.2]

theorem Sys2Proof.Laws.EncodesItself.vshl (p : Pred) (t : Ty) (a : Target) (b : Target) : EncodesItself.Statement (.vshl p t a b) := by
  intro hw _ rest
  have ha := wf_targets rfl hw
  refine decode_encode (ls := []) p rest rfl rfl hw ?_ (by simp) (fun w h => by simp [litWords, h]) ?_
  · have := pred_code_lt p; have := ty_code_lt t; have := target_code_lt a; have := target_code_lt b
    refine ⟨?_, ?_, ?_, ?_, ?_⟩ <;> dsimp only <;> omega
  · simp [decodeRow, decodeRow7, ha.1, ha.2]

theorem Sys2Proof.Laws.EncodesItself.vshr (p : Pred) (t : Ty) (a : Target) (b : Target) : EncodesItself.Statement (.vshr p t a b) := by
  intro hw _ rest
  have ha := wf_targets rfl hw
  refine decode_encode (ls := []) p rest rfl rfl hw ?_ (by simp) (fun w h => by simp [litWords, h]) ?_
  · have := pred_code_lt p; have := ty_code_lt t; have := target_code_lt a; have := target_code_lt b
    refine ⟨?_, ?_, ?_, ?_, ?_⟩ <;> dsimp only <;> omega
  · simp [decodeRow, decodeRow7, ha.1, ha.2]

theorem Sys2Proof.Laws.EncodesItself.vsar (p : Pred) (t : Ty) (a : Target) (b : Target) : EncodesItself.Statement (.vsar p t a b) := by
  intro hw _ rest
  have ha := wf_targets rfl hw
  refine decode_encode (ls := []) p rest rfl rfl hw ?_ (by simp) (fun w h => by simp [litWords, h]) ?_
  · have := pred_code_lt p; have := ty_code_lt t; have := target_code_lt a; have := target_code_lt b
    refine ⟨?_, ?_, ?_, ?_, ?_⟩ <;> dsimp only <;> omega
  · simp [decodeRow, decodeRow7, ha.1, ha.2]

theorem Sys2Proof.Laws.EncodesItself.vcmpeq (p : Pred) (t : Ty) (a : Target) (b : Target) : EncodesItself.Statement (.vcmpeq p t a b) := by
  intro hw _ rest
  have ha := wf_targets rfl hw
  refine decode_encode (ls := []) p rest rfl rfl hw ?_ (by simp) (fun w h => by simp [litWords, h]) ?_
  · have := pred_code_lt p; have := ty_code_lt t; have := target_code_lt a; have := target_code_lt b
    refine ⟨?_, ?_, ?_, ?_, ?_⟩ <;> dsimp only <;> omega
  · simp [decodeRow, decodeRow7, ha.1, ha.2]

theorem Sys2Proof.Laws.EncodesItself.vcmplt (p : Pred) (t : Ty) (a : Target) (b : Target) : EncodesItself.Statement (.vcmplt p t a b) := by
  intro hw _ rest
  have ha := wf_targets rfl hw
  refine decode_encode (ls := []) p rest rfl rfl hw ?_ (by simp) (fun w h => by simp [litWords, h]) ?_
  · have := pred_code_lt p; have := ty_code_lt t; have := target_code_lt a; have := target_code_lt b
    refine ⟨?_, ?_, ?_, ?_, ?_⟩ <;> dsimp only <;> omega
  · simp [decodeRow, decodeRow7, ha.1, ha.2]

theorem Sys2Proof.Laws.EncodesItself.vcmple (p : Pred) (t : Ty) (a : Target) (b : Target) : EncodesItself.Statement (.vcmple p t a b) := by
  intro hw _ rest
  have ha := wf_targets rfl hw
  refine decode_encode (ls := []) p rest rfl rfl hw ?_ (by simp) (fun w h => by simp [litWords, h]) ?_
  · have := pred_code_lt p; have := ty_code_lt t; have := target_code_lt a; have := target_code_lt b
    refine ⟨?_, ?_, ?_, ?_, ?_⟩ <;> dsimp only <;> omega
  · simp [decodeRow, decodeRow8, ha.1, ha.2]

theorem Sys2Proof.Laws.EncodesItself.vsel (p : Pred) (t : Ty) (a : Target) (b : Target) : EncodesItself.Statement (.vsel p t a b) := by
  intro hw _ rest
  have ha := wf_targets rfl hw
  refine decode_encode (ls := []) p rest rfl rfl hw ?_ (by simp) (fun w h => by simp [litWords, h]) ?_
  · have := pred_code_lt p; have := ty_code_lt t; have := target_code_lt a; have := target_code_lt b
    refine ⟨?_, ?_, ?_, ?_, ?_⟩ <;> dsimp only <;> omega
  · simp [decodeRow, decodeRow8, ha.1, ha.2]

theorem Sys2Proof.Laws.EncodesItself.vbcast (p : Pred) (t : Ty) (a : Target) (b : Target) : EncodesItself.Statement (.vbcast p t a b) := by
  intro hw _ rest
  have ha := wf_targets rfl hw
  refine decode_encode (ls := []) p rest rfl rfl hw ?_ (by simp) (fun w h => by simp [litWords, h]) ?_
  · have := pred_code_lt p; have := ty_code_lt t; have := target_code_lt a; have := target_code_lt b
    refine ⟨?_, ?_, ?_, ?_, ?_⟩ <;> dsimp only <;> omega
  · simp [decodeRow, decodeRow8, ha.1, ha.2]

theorem Sys2Proof.Laws.EncodesItself.vext (p : Pred) (t : Ty) (a : Target) (b : Target) : EncodesItself.Statement (.vext p t a b) := by
  intro hw _ rest
  have ha := wf_targets rfl hw
  refine decode_encode (ls := []) p rest rfl rfl hw ?_ (by simp) (fun w h => by simp [litWords, h]) ?_
  · have := pred_code_lt p; have := ty_code_lt t; have := target_code_lt a; have := target_code_lt b
    refine ⟨?_, ?_, ?_, ?_, ?_⟩ <;> dsimp only <;> omega
  · simp [decodeRow, decodeRow8, ha.1, ha.2]

theorem Sys2Proof.Laws.EncodesItself.vins (p : Pred) (t : Ty) (a : Target) (b : Target) : EncodesItself.Statement (.vins p t a b) := by
  intro hw _ rest
  have ha := wf_targets rfl hw
  refine decode_encode (ls := []) p rest rfl rfl hw ?_ (by simp) (fun w h => by simp [litWords, h]) ?_
  · have := pred_code_lt p; have := ty_code_lt t; have := target_code_lt a; have := target_code_lt b
    refine ⟨?_, ?_, ?_, ?_, ?_⟩ <;> dsimp only <;> omega
  · simp [decodeRow, decodeRow8, ha.1, ha.2]

theorem Sys2Proof.Laws.EncodesItself.vperm (p : Pred) (t : Ty) (a : Target) (b : Target) : EncodesItself.Statement (.vperm p t a b) := by
  intro hw _ rest
  have ha := wf_targets rfl hw
  refine decode_encode (ls := []) p rest rfl rfl hw ?_ (by simp) (fun w h => by simp [litWords, h]) ?_
  · have := pred_code_lt p; have := ty_code_lt t; have := target_code_lt a; have := target_code_lt b
    refine ⟨?_, ?_, ?_, ?_, ?_⟩ <;> dsimp only <;> omega
  · simp [decodeRow, decodeRow8, ha.1, ha.2]

theorem Sys2Proof.Laws.EncodesItself.vshuf (p : Pred) (t : Ty) (a : Target) (b : Target) : EncodesItself.Statement (.vshuf p t a b) := by
  intro hw _ rest
  have ha := wf_targets rfl hw
  refine decode_encode (ls := []) p rest rfl rfl hw ?_ (by simp) (fun w h => by simp [litWords, h]) ?_
  · have := pred_code_lt p; have := ty_code_lt t; have := target_code_lt a; have := target_code_lt b
    refine ⟨?_, ?_, ?_, ?_, ?_⟩ <;> dsimp only <;> omega
  · simp [decodeRow, decodeRow8, ha.1, ha.2]

theorem Sys2Proof.Laws.EncodesItself.vred (p : Pred) (t : Ty) (a : Target) (m : Bool) (o : RedOp) : EncodesItself.Statement (.vred p t a m o) := by
  intro hw _ rest
  have ha := wf_target rfl hw
  cases m <;>
  cases o <;>
  (refine decode_encode (ls := []) p rest rfl rfl hw ?_ (by simp) (fun w h => by simp [litWords, h]) ?_
   · have := pred_code_lt p; have := ty_code_lt t; have := target_code_lt a
     refine ⟨?_, ?_, ?_, ?_, ?_⟩ <;> simp [RedOp.code] <;> omega
   · simp [decodeRow, decodeRow8, ha, bitAt, RedOp.code, RedOp.ofCode])

theorem Sys2Proof.Laws.EncodesItself.vscan (p : Pred) (t : Ty) (a : Target) (b : Target) : EncodesItself.Statement (.vscan p t a b) := by
  intro hw _ rest
  have ha := wf_targets rfl hw
  refine decode_encode (ls := []) p rest rfl rfl hw ?_ (by simp) (fun w h => by simp [litWords, h]) ?_
  · have := pred_code_lt p; have := ty_code_lt t; have := target_code_lt a; have := target_code_lt b
    refine ⟨?_, ?_, ?_, ?_, ?_⟩ <;> dsimp only <;> omega
  · simp [decodeRow, decodeRow8, ha.1, ha.2]

theorem Sys2Proof.Laws.EncodesItself.vcvt (p : Pred) (t : Ty) (a : Target) (sx : Bool) (q : Fin 16) (c : Ty) : EncodesItself.Statement (.vcvt p t a sx q c) := by
  intro hw _ rest
  have ha := wf_target rfl hw
  have hc : BitVec.ofNat 4 (sx.toNat * 256 + q.val * 16 + c.code.toNat) = c.code := by
    have := c.code.isLt
    apply BitVec.eq_of_toNat_eq
    rw [BitVec.toNat_ofNat]; omega
  refine decode_encode (ls := []) p rest rfl rfl hw ?_ (by simp) (fun w h => by simp [litWords, h]) ?_
  · have := pred_code_lt p; have := ty_code_lt t; have := target_code_lt a; have := ty_code_lt c; have := q.isLt; have := sx.toNat_lt
    refine ⟨?_, ?_, ?_, ?_, ?_⟩ <;> dsimp only <;> omega
  · have := ty_code_lt c; have := q.isLt
    have hq : fin16 ((sx.toNat * 256 + q.val * 16 + c.code.toNat) / 16) = q := by
      apply Fin.ext; simp only [fin16]; omega
    have hs : bitAt (sx.toNat * 256 + q.val * 16 + c.code.toNat) 8 = sx := by
      cases sx <;> simp [bitAt] <;> omega
    simp [decodeRow, decodeRow8, ha, hc, hq, hs]

theorem Sys2Proof.Laws.EncodesItself.vex2 (p : Pred) (t : Ty) (a : Target) (b : Target) : EncodesItself.Statement (.vex2 p t a b) := by
  intro hw _ rest
  have ha := wf_targets rfl hw
  refine decode_encode (ls := []) p rest rfl rfl hw ?_ (by simp) (fun w h => by simp [litWords, h]) ?_
  · have := pred_code_lt p; have := ty_code_lt t; have := target_code_lt a; have := target_code_lt b
    refine ⟨?_, ?_, ?_, ?_, ?_⟩ <;> dsimp only <;> omega
  · simp [decodeRow, decodeRow8, ha.1, ha.2]

theorem Sys2Proof.Laws.EncodesItself.vrcp (p : Pred) (t : Ty) (a : Target) (b : Target) : EncodesItself.Statement (.vrcp p t a b) := by
  intro hw _ rest
  have ha := wf_targets rfl hw
  refine decode_encode (ls := []) p rest rfl rfl hw ?_ (by simp) (fun w h => by simp [litWords, h]) ?_
  · have := pred_code_lt p; have := ty_code_lt t; have := target_code_lt a; have := target_code_lt b
    refine ⟨?_, ?_, ?_, ?_, ?_⟩ <;> dsimp only <;> omega
  · simp [decodeRow, decodeRow8, ha.1, ha.2]

theorem Sys2Proof.Laws.EncodesItself.vrsq (p : Pred) (t : Ty) (a : Target) (b : Target) : EncodesItself.Statement (.vrsq p t a b) := by
  intro hw _ rest
  have ha := wf_targets rfl hw
  refine decode_encode (ls := []) p rest rfl rfl hw ?_ (by simp) (fun w h => by simp [litWords, h]) ?_
  · have := pred_code_lt p; have := ty_code_lt t; have := target_code_lt a; have := target_code_lt b
    refine ⟨?_, ?_, ?_, ?_, ?_⟩ <;> dsimp only <;> omega
  · simp [decodeRow, decodeRow8, ha.1, ha.2]

theorem Sys2Proof.Laws.EncodesItself.vtopk (p : Pred) (t : Ty) (a : Target) (x : Bool) (k : Fin 128) : EncodesItself.Statement (.vtopk p t a x k) := by
  intro hw _ rest
  have ha := wf_target rfl hw
  cases x <;>
  (refine decode_encode (ls := []) p rest rfl rfl hw ?_ (by simp) (fun w h => by simp [litWords, h]) ?_
   · have := pred_code_lt p; have := ty_code_lt t; have := target_code_lt a; have := k.isLt
     refine ⟨?_, ?_, ?_, ?_, ?_⟩ <;> simp <;> omega
   · have := k.isLt; simp [decodeRow, decodeRow8, ha, bitAt, fin128, Fin.ext_iff] <;> omega)

theorem Sys2Proof.Laws.EncodesItself.vcmprs (p : Pred) (t : Ty) (a : Target) (b : Target) : EncodesItself.Statement (.vcmprs p t a b) := by
  intro hw _ rest
  have ha := wf_targets rfl hw
  refine decode_encode (ls := []) p rest rfl rfl hw ?_ (by simp) (fun w h => by simp [litWords, h]) ?_
  · have := pred_code_lt p; have := ty_code_lt t; have := target_code_lt a; have := target_code_lt b
    refine ⟨?_, ?_, ?_, ?_, ?_⟩ <;> dsimp only <;> omega
  · simp [decodeRow, decodeRow8, ha.1, ha.2]

theorem Sys2Proof.Laws.EncodesItself.vexpnd (p : Pred) (t : Ty) (a : Target) (b : Target) : EncodesItself.Statement (.vexpnd p t a b) := by
  intro hw _ rest
  have ha := wf_targets rfl hw
  refine decode_encode (ls := []) p rest rfl rfl hw ?_ (by simp) (fun w h => by simp [litWords, h]) ?_
  · have := pred_code_lt p; have := ty_code_lt t; have := target_code_lt a; have := target_code_lt b
    refine ⟨?_, ?_, ?_, ?_, ?_⟩ <;> dsimp only <;> omega
  · simp [decodeRow, decodeRow8, ha.1, ha.2]

theorem Sys2Proof.Laws.EncodesItself.vdot (p : Pred) (t : Ty) (a : Target) (m : Bool) (c : Ty) : EncodesItself.Statement (.vdot p t a m c) := by
  intro hw _ rest
  have ha := wf_target rfl hw
  have hc : BitVec.ofNat 4 (m.toNat * 16 + c.code.toNat) = c.code := by
    have := c.code.isLt
    apply BitVec.eq_of_toNat_eq
    rw [BitVec.toNat_ofNat]; omega
  refine decode_encode (ls := []) p rest rfl rfl hw ?_ (by simp) (fun w h => by simp [litWords, h]) ?_
  · have := pred_code_lt p; have := ty_code_lt t; have := target_code_lt a; have := ty_code_lt c; have := m.toNat_lt
    refine ⟨?_, ?_, ?_, ?_, ?_⟩ <;> dsimp only <;> omega
  · have := ty_code_lt c
    have hm : bitAt (m.toNat * 16 + c.code.toNat) 4 = m := by
      cases m <;> simp [bitAt] <;> omega
    have hz : (m.toNat * 16 + c.code.toNat) / 32 % 16 = 0 := by
      cases m <;> simp <;> omega
    simp [decodeRow, decodeRow9, ha, hc, hm, hz]

theorem Sys2Proof.Laws.EncodesItself.viota (p : Pred) (t : Ty) (a : Target) (b : Target) : EncodesItself.Statement (.viota p t a b) := by
  intro hw _ rest
  have ha := wf_targets rfl hw
  refine decode_encode (ls := []) p rest rfl rfl hw ?_ (by simp) (fun w h => by simp [litWords, h]) ?_
  · have := pred_code_lt p; have := ty_code_lt t; have := target_code_lt a; have := target_code_lt b
    refine ⟨?_, ?_, ?_, ?_, ?_⟩ <;> dsimp only <;> omega
  · simp [decodeRow, decodeRow9, ha.1, ha.2]

theorem Sys2Proof.Laws.EncodesItself.vcnt (p : Pred) (t : Ty) (a : Target) (b : Target) : EncodesItself.Statement (.vcnt p t a b) := by
  intro hw _ rest
  have ha := wf_targets rfl hw
  refine decode_encode (ls := []) p rest rfl rfl hw ?_ (by simp) (fun w h => by simp [litWords, h]) ?_
  · have := pred_code_lt p; have := ty_code_lt t; have := target_code_lt a; have := target_code_lt b
    refine ⟨?_, ?_, ?_, ?_, ?_⟩ <;> dsimp only <;> omega
  · simp [decodeRow, decodeRow9, ha.1, ha.2]

theorem Sys2Proof.Laws.EncodesItself.lglen (p : Pred) (a : Target) (e : Bool) (w : Fin 4) : EncodesItself.Statement (.lglen p a e w) := by
  intro hw _ rest
  have ha := wf_target rfl hw
  cases e <;>
  (refine decode_encode (ls := []) p rest rfl rfl hw ?_ (by simp) (fun w h => by simp [litWords, h]) ?_
   · have := pred_code_lt p; have := target_code_lt a; have := w.isLt
     refine ⟨?_, ?_, ?_, ?_, ?_⟩ <;> simp <;> omega
   · have := w.isLt; simp [decodeRow, decodeRow9, ha, bitAt, fin4, Fin.ext_iff] <;> omega)

theorem Sys2Proof.Laws.EncodesItself.lgpack (p : Pred) (a : Target) (i : Fin 16) (o : Fin 16) : EncodesItself.Statement (.lgpack p a i o) := by
  intro hw _ rest
  have ha := wf_target rfl hw
  refine decode_encode (ls := []) p rest rfl rfl hw ?_ (by simp) (fun w h => by simp [litWords, h]) ?_
  · have := pred_code_lt p; have := target_code_lt a; have := i.isLt; have := o.isLt
    refine ⟨?_, ?_, ?_, ?_, ?_⟩ <;> dsimp only <;> omega
  · have := i.isLt; have := o.isLt; simp [decodeRow, decodeRow9, ha, fin16, Fin.ext_iff] <;> omega

theorem Sys2Proof.Laws.EncodesItself.lgdone (p : Pred) (a : Target) (b : Target) : EncodesItself.Statement (.lgdone p a b) := by
  intro hw _ rest
  have ha := wf_targets rfl hw
  refine decode_encode (ls := []) p rest rfl rfl hw ?_ (by simp) (fun w h => by simp [litWords, h]) ?_
  · have := pred_code_lt p; have := target_code_lt a; have := target_code_lt b
    refine ⟨?_, ?_, ?_, ?_, ?_⟩ <;> dsimp only <;> omega
  · simp [decodeRow, decodeRow9, ha.1, ha.2]

theorem Sys2Proof.Laws.EncodesItself.bmv (p : Pred) (a : Target) : EncodesItself.Statement (.bmv p a) := by
  intro hw _ rest
  have ha := wf_target rfl hw
  refine decode_encode (ls := []) p rest rfl rfl hw ?_ (by simp) (fun w h => by simp [litWords, h]) ?_
  · have := pred_code_lt p; have := target_code_lt a
    refine ⟨?_, ?_, ?_, ?_, ?_⟩ <;> dsimp only <;> omega
  · simp [decodeRow, decodeRow9, ha]

theorem Sys2Proof.Laws.EncodesItself.bmm (p : Pred) (a : Target) (q : Fin 4) : EncodesItself.Statement (.bmm p a q) := by
  intro hw _ rest
  have ha := wf_target rfl hw
  refine decode_encode (ls := []) p rest rfl rfl hw ?_ (by simp) (fun w h => by simp [litWords, h]) ?_
  · have := pred_code_lt p; have := target_code_lt a; have := q.isLt
    refine ⟨?_, ?_, ?_, ?_, ?_⟩ <;> dsimp only <;> omega
  · have := q.isLt; simp [decodeRow, decodeRow9, ha, fin4, Fin.ext_iff] <;> omega

theorem Sys2Proof.Laws.EncodesItself.ldl (p : Pred) (t : Ty) (a : Target) (b : Target) : EncodesItself.Statement (.ldl p t a b) := by
  intro hw _ rest
  have ha := wf_targets rfl hw
  refine decode_encode (ls := []) p rest rfl rfl hw ?_ (by simp) (fun w h => by simp [litWords, h]) ?_
  · have := pred_code_lt p; have := ty_code_lt t; have := target_code_lt a; have := target_code_lt b
    refine ⟨?_, ?_, ?_, ?_, ?_⟩ <;> dsimp only <;> omega
  · simp [decodeRow, decodeRowA, ha.1, ha.2]

theorem Sys2Proof.Laws.EncodesItself.stl (p : Pred) (t : Ty) : EncodesItself.Statement (.stl p t) := by
  intro hw _ rest
  refine decode_encode (ls := []) p rest rfl rfl hw ?_ (by simp) (fun w h => by simp [litWords, h]) ?_
  · have := pred_code_lt p; have := ty_code_lt t
    refine ⟨?_, ?_, ?_, ?_, ?_⟩ <;> dsimp only <;> omega
  · simp [decodeRow, decodeRowA]

theorem Sys2Proof.Laws.EncodesItself.ldlv (p : Pred) (c : Bool) (w : Bool) (a : Target) (b : Target) : EncodesItself.Statement (.ldlv p c w a b) := by
  intro hw _ rest
  have ha := wf_targets rfl hw
  cases c <;>
  cases w <;>
  (refine decode_encode (ls := []) p rest rfl rfl hw ?_ (by simp) (fun w h => by simp [litWords, h]) ?_
   · have := pred_code_lt p; have := target_code_lt a; have := target_code_lt b
     refine ⟨?_, ?_, ?_, ?_, ?_⟩ <;> simp <;> omega
   · simp [decodeRow, decodeRowA, ha.1, ha.2, bitAt])

theorem Sys2Proof.Laws.EncodesItself.stlv (p : Pred) (sx : Bool) : EncodesItself.Statement (.stlv p sx) := by
  intro hw _ rest
  cases sx <;>
  (refine decode_encode (ls := []) p rest rfl rfl hw ?_ (by simp) (fun w h => by simp [litWords, h]) ?_
   · have := pred_code_lt p
     refine ⟨?_, ?_, ?_, ?_, ?_⟩ <;> simp <;> omega
   · simp [decodeRow, decodeRowA, bitAt])

theorem Sys2Proof.Laws.EncodesItself.feset (p : Pred) (q : Bool) : EncodesItself.Statement (.feset p q) := by
  intro hw _ rest
  cases q <;>
  (refine decode_encode (ls := []) p rest rfl rfl hw ?_ (by simp) (fun w h => by simp [litWords, h]) ?_
   · have := pred_code_lt p
     refine ⟨?_, ?_, ?_, ?_, ?_⟩ <;> simp <;> omega
   · simp [decodeRow, decodeRowA, bitAt])

theorem Sys2Proof.Laws.EncodesItself.feclr (p : Pred) (q : Bool) : EncodesItself.Statement (.feclr p q) := by
  intro hw _ rest
  cases q <;>
  (refine decode_encode (ls := []) p rest rfl rfl hw ?_ (by simp) (fun w h => by simp [litWords, h]) ?_
   · have := pred_code_lt p
     refine ⟨?_, ?_, ?_, ?_, ?_⟩ <;> simp <;> omega
   · simp [decodeRow, decodeRowA, bitAt])

theorem Sys2Proof.Laws.EncodesItself.fetest (p : Pred) (q : Bool) (a : Target) (b : Target) : EncodesItself.Statement (.fetest p q a b) := by
  intro hw _ rest
  have ha := wf_targets rfl hw
  cases q <;>
  (refine decode_encode (ls := []) p rest rfl rfl hw ?_ (by simp) (fun w h => by simp [litWords, h]) ?_
   · have := pred_code_lt p; have := target_code_lt a; have := target_code_lt b
     refine ⟨?_, ?_, ?_, ?_, ?_⟩ <;> simp <;> omega
   · simp [decodeRow, decodeRowA, ha.1, ha.2, bitAt])

theorem Sys2Proof.Laws.EncodesItself.ldg (p : Pred) (t : Ty) (a : Target) (d : Bool) (m : LdMode) : EncodesItself.Statement (.ldg p t a d m) := by
  intro hw _ rest
  have ha := wf_target rfl hw
  cases d <;>
  cases m <;>
  (refine decode_encode (ls := []) p rest rfl rfl hw ?_ (by simp) (fun w h => by simp [litWords, h]) ?_
   · have := pred_code_lt p; have := ty_code_lt t; have := target_code_lt a
     refine ⟨?_, ?_, ?_, ?_, ?_⟩ <;> simp [LdMode.code] <;> omega
   · simp [decodeRow, decodeRowA, ha, bitAt, LdMode.code, LdMode.ofCode])

theorem Sys2Proof.Laws.EncodesItself.stg (p : Pred) (t : Ty) (a : Target) (b : Target) : EncodesItself.Statement (.stg p t a b) := by
  intro hw _ rest
  have ha := wf_targets rfl hw
  refine decode_encode (ls := []) p rest rfl rfl hw ?_ (by simp) (fun w h => by simp [litWords, h]) ?_
  · have := pred_code_lt p; have := ty_code_lt t; have := target_code_lt a; have := target_code_lt b
    refine ⟨?_, ?_, ?_, ?_, ?_⟩ <;> dsimp only <;> omega
  · simp [decodeRow, decodeRowA, ha.1, ha.2]

theorem Sys2Proof.Laws.EncodesItself.ldgv (p : Pred) (d : Bool) (m : LdMode) (a : Target) (b : Target) : EncodesItself.Statement (.ldgv p d m a b) := by
  intro hw _ rest
  have ha := wf_targets rfl hw
  cases d <;>
  cases m <;>
  (refine decode_encode (ls := []) p rest rfl rfl hw ?_ (by simp) (fun w h => by simp [litWords, h]) ?_
   · have := pred_code_lt p; have := target_code_lt a; have := target_code_lt b
     refine ⟨?_, ?_, ?_, ?_, ?_⟩ <;> simp [LdMode.code] <;> omega
   · simp [decodeRow, decodeRowA, ha.1, ha.2, bitAt, LdMode.code, LdMode.ofCode])

theorem Sys2Proof.Laws.EncodesItself.stgv (p : Pred) (m : Bool) (a : Target) (b : Target) : EncodesItself.Statement (.stgv p m a b) := by
  intro hw _ rest
  have ha := wf_targets rfl hw
  cases m <;>
  (refine decode_encode (ls := []) p rest rfl rfl hw ?_ (by simp) (fun w h => by simp [litWords, h]) ?_
   · have := pred_code_lt p; have := target_code_lt a; have := target_code_lt b
     refine ⟨?_, ?_, ?_, ?_, ?_⟩ <;> simp <;> omega
   · simp [decodeRow, decodeRowA, ha.1, ha.2, bitAt])

theorem Sys2Proof.Laws.EncodesItself.gath (p : Pred) (t : Ty) (a : Target) (b : Target) : EncodesItself.Statement (.gath p t a b) := by
  intro hw _ rest
  have ha := wf_targets rfl hw
  refine decode_encode (ls := []) p rest rfl rfl hw ?_ (by simp) (fun w h => by simp [litWords, h]) ?_
  · have := pred_code_lt p; have := ty_code_lt t; have := target_code_lt a; have := target_code_lt b
    refine ⟨?_, ?_, ?_, ?_, ?_⟩ <;> dsimp only <;> omega
  · simp [decodeRow, decodeRowA, ha.1, ha.2]

theorem Sys2Proof.Laws.EncodesItself.scat (p : Pred) (t : Ty) (a : Target) (b : Target) : EncodesItself.Statement (.scat p t a b) := by
  intro hw _ rest
  have ha := wf_targets rfl hw
  refine decode_encode (ls := []) p rest rfl rfl hw ?_ (by simp) (fun w h => by simp [litWords, h]) ?_
  · have := pred_code_lt p; have := ty_code_lt t; have := target_code_lt a; have := target_code_lt b
    refine ⟨?_, ?_, ?_, ?_, ?_⟩ <;> dsimp only <;> omega
  · simp [decodeRow, decodeRowA, ha.1, ha.2]

theorem Sys2Proof.Laws.EncodesItself.vrcl (p : Pred) (a : Target) (b : Target) : EncodesItself.Statement (.vrcl p a b) := by
  intro hw _ rest
  have ha := wf_targets rfl hw
  refine decode_encode (ls := []) p rest rfl rfl hw ?_ (by simp) (fun w h => by simp [litWords, h]) ?_
  · have := pred_code_lt p; have := target_code_lt a; have := target_code_lt b
    refine ⟨?_, ?_, ?_, ?_, ?_⟩ <;> dsimp only <;> omega
  · simp [decodeRow, decodeRowA, ha.1, ha.2]

theorem Sys2Proof.Laws.EncodesItself.vqry (p : Pred) (a : Target) (b : Target) : EncodesItself.Statement (.vqry p a b) := by
  intro hw _ rest
  have ha := wf_targets rfl hw
  refine decode_encode (ls := []) p rest rfl rfl hw ?_ (by simp) (fun w h => by simp [litWords, h]) ?_
  · have := pred_code_lt p; have := target_code_lt a; have := target_code_lt b
    refine ⟨?_, ?_, ?_, ?_, ?_⟩ <;> dsimp only <;> omega
  · simp [decodeRow, decodeRowA, ha.1, ha.2]

theorem Sys2Proof.Laws.EncodesItself.atom (p : Pred) (t : Ty) (a : Target) (o : AtomOp) : EncodesItself.Statement (.atom p t a o) := by
  intro hw _ rest
  have ha := wf_target rfl hw
  cases o <;>
  (refine decode_encode (ls := []) p rest rfl rfl hw ?_ (by simp) (fun w h => by simp [litWords, h]) ?_
   · have := pred_code_lt p; have := ty_code_lt t; have := target_code_lt a
     refine ⟨?_, ?_, ?_, ?_, ?_⟩ <;> simp [AtomOp.code] <;> omega
   · simp [decodeRow, decodeRowB, ha, AtomOp.code, AtomOp.ofCode])

theorem Sys2Proof.Laws.EncodesItself.atomr (p : Pred) (t : Ty) (a : Target) (o : AtomOp) : EncodesItself.Statement (.atomr p t a o) := by
  intro hw _ rest
  have ha := wf_target rfl hw
  cases o <;>
  (refine decode_encode (ls := []) p rest rfl rfl hw ?_ (by simp) (fun w h => by simp [litWords, h]) ?_
   · have := pred_code_lt p; have := ty_code_lt t; have := target_code_lt a
     refine ⟨?_, ?_, ?_, ?_, ?_⟩ <;> simp [AtomOp.code] <;> omega
   · simp [decodeRow, decodeRowB, ha, AtomOp.code, AtomOp.ofCode])

theorem Sys2Proof.Laws.EncodesItself.cas (p : Pred) (t : Ty) (a : Target) (b : Target) : EncodesItself.Statement (.cas p t a b) := by
  intro hw _ rest
  have ha := wf_targets rfl hw
  refine decode_encode (ls := []) p rest rfl rfl hw ?_ (by simp) (fun w h => by simp [litWords, h]) ?_
  · have := pred_code_lt p; have := ty_code_lt t; have := target_code_lt a; have := target_code_lt b
    refine ⟨?_, ?_, ?_, ?_, ?_⟩ <;> dsimp only <;> omega
  · simp [decodeRow, decodeRowB, ha.1, ha.2]

theorem Sys2Proof.Laws.EncodesItself.vatom (p : Pred) (t : Ty) (a : Target) (o : AtomOp) : EncodesItself.Statement (.vatom p t a o) := by
  intro hw _ rest
  have ha := wf_target rfl hw
  cases o <;>
  (refine decode_encode (ls := []) p rest rfl rfl hw ?_ (by simp) (fun w h => by simp [litWords, h]) ?_
   · have := pred_code_lt p; have := ty_code_lt t; have := target_code_lt a
     refine ⟨?_, ?_, ?_, ?_, ?_⟩ <;> simp [AtomOp.code] <;> omega
   · simp [decodeRow, decodeRowB, ha, AtomOp.code, AtomOp.ofCode])

theorem Sys2Proof.Laws.EncodesItself.faadd (p : Pred) (t : Ty) (a : Target) (r : Bool) : EncodesItself.Statement (.faadd p t a r) := by
  intro hw _ rest
  have ha := wf_target rfl hw
  cases r <;>
  (refine decode_encode (ls := []) p rest rfl rfl hw ?_ (by simp) (fun w h => by simp [litWords, h]) ?_
   · have := pred_code_lt p; have := ty_code_lt t; have := target_code_lt a
     refine ⟨?_, ?_, ?_, ?_, ?_⟩ <;> simp <;> omega
   · simp [decodeRow, decodeRowB, ha, bitAt])

theorem Sys2Proof.Laws.EncodesItself.lockt (p : Pred) (a : Target) (b : Target) : EncodesItself.Statement (.lockt p a b) := by
  intro hw _ rest
  have ha := wf_targets rfl hw
  refine decode_encode (ls := []) p rest rfl rfl hw ?_ (by simp) (fun w h => by simp [litWords, h]) ?_
  · have := pred_code_lt p; have := target_code_lt a; have := target_code_lt b
    refine ⟨?_, ?_, ?_, ?_, ?_⟩ <;> dsimp only <;> omega
  · simp [decodeRow, decodeRowB, ha.1, ha.2]

theorem Sys2Proof.Laws.EncodesItself.unlockt (p : Pred) (a : Target) (b : Target) : EncodesItself.Statement (.unlockt p a b) := by
  intro hw _ rest
  have ha := wf_targets rfl hw
  refine decode_encode (ls := []) p rest rfl rfl hw ?_ (by simp) (fun w h => by simp [litWords, h]) ?_
  · have := pred_code_lt p; have := target_code_lt a; have := target_code_lt b
    refine ⟨?_, ?_, ?_, ?_, ?_⟩ <;> dsimp only <;> omega
  · simp [decodeRow, decodeRowB, ha.1, ha.2]

theorem Sys2Proof.Laws.EncodesItself.qcopy (p : Pred) (x : Bool) (e : Fin 8) (a : Target) (b : Target) : EncodesItself.Statement (.qcopy p x e a b) := by
  intro hw _ rest
  have ha := wf_targets rfl hw
  cases x <;>
  (refine decode_encode (ls := []) p rest rfl rfl hw ?_ (by simp) (fun w h => by simp [litWords, h]) ?_
   · have := pred_code_lt p; have := e.isLt; have := target_code_lt a; have := target_code_lt b
     refine ⟨?_, ?_, ?_, ?_, ?_⟩ <;> simp <;> omega
   · have := e.isLt; simp [decodeRow, decodeRowB, ha.1, ha.2, bitAt, fin8, Fin.ext_iff] <;> omega)

theorem Sys2Proof.Laws.EncodesItself.qgath (p : Pred) (x : Bool) (e : Fin 8) (a : Target) (b : Target) : EncodesItself.Statement (.qgath p x e a b) := by
  intro hw _ rest
  have ha := wf_targets rfl hw
  cases x <;>
  (refine decode_encode (ls := []) p rest rfl rfl hw ?_ (by simp) (fun w h => by simp [litWords, h]) ?_
   · have := pred_code_lt p; have := e.isLt; have := target_code_lt a; have := target_code_lt b
     refine ⟨?_, ?_, ?_, ?_, ?_⟩ <;> simp <;> omega
   · have := e.isLt; simp [decodeRow, decodeRowB, ha.1, ha.2, bitAt, fin8, Fin.ext_iff] <;> omega)

theorem Sys2Proof.Laws.EncodesItself.qunf (p : Pred) (x : Bool) (e : Fin 8) (a : Target) (b : Target) : EncodesItself.Statement (.qunf p x e a b) := by
  intro hw _ rest
  have ha := wf_targets rfl hw
  cases x <;>
  (refine decode_encode (ls := []) p rest rfl rfl hw ?_ (by simp) (fun w h => by simp [litWords, h]) ?_
   · have := pred_code_lt p; have := e.isLt; have := target_code_lt a; have := target_code_lt b
     refine ⟨?_, ?_, ?_, ?_, ?_⟩ <;> simp <;> omega
   · have := e.isLt; simp [decodeRow, decodeRowB, ha.1, ha.2, bitAt, fin8, Fin.ext_iff] <;> omega)

theorem Sys2Proof.Laws.EncodesItself.qwait (p : Pred) (a : Target) (b : Target) : EncodesItself.Statement (.qwait p a b) := by
  intro hw _ rest
  have ha := wf_targets rfl hw
  refine decode_encode (ls := []) p rest rfl rfl hw ?_ (by simp) (fun w h => by simp [litWords, h]) ?_
  · have := pred_code_lt p; have := target_code_lt a; have := target_code_lt b
    refine ⟨?_, ?_, ?_, ?_, ?_⟩ <;> dsimp only <;> omega
  · simp [decodeRow, decodeRowB, ha.1, ha.2]

theorem Sys2Proof.Laws.EncodesItself.qstat (p : Pred) (a : Target) (b : Target) : EncodesItself.Statement (.qstat p a b) := by
  intro hw _ rest
  have ha := wf_targets rfl hw
  refine decode_encode (ls := []) p rest rfl rfl hw ?_ (by simp) (fun w h => by simp [litWords, h]) ?_
  · have := pred_code_lt p; have := target_code_lt a; have := target_code_lt b
    refine ⟨?_, ?_, ?_, ?_, ?_⟩ <;> dsimp only <;> omega
  · simp [decodeRow, decodeRowB, ha.1, ha.2]

theorem Sys2Proof.Laws.EncodesItself.mloadw (p : Pred) (a : Target) (b : Target) : EncodesItself.Statement (.mloadw p a b) := by
  intro hw _ rest
  have ha := wf_targets rfl hw
  refine decode_encode (ls := []) p rest rfl rfl hw ?_ (by simp) (fun w h => by simp [litWords, h]) ?_
  · have := pred_code_lt p; have := target_code_lt a; have := target_code_lt b
    refine ⟨?_, ?_, ?_, ?_, ?_⟩ <;> dsimp only <;> omega
  · simp [decodeRow, decodeRowC, ha.1, ha.2]

theorem Sys2Proof.Laws.EncodesItself.mswap (p : Pred) (a : Target) (b : Target) : EncodesItself.Statement (.mswap p a b) := by
  intro hw _ rest
  have ha := wf_targets rfl hw
  refine decode_encode (ls := []) p rest rfl rfl hw ?_ (by simp) (fun w h => by simp [litWords, h]) ?_
  · have := pred_code_lt p; have := target_code_lt a; have := target_code_lt b
    refine ⟨?_, ?_, ?_, ?_, ?_⟩ <;> dsimp only <;> omega
  · simp [decodeRow, decodeRowC, ha.1, ha.2]

theorem Sys2Proof.Laws.EncodesItself.mma (p : Pred) (a : Target) (b : Target) : EncodesItself.Statement (.mma p a b) := by
  intro hw _ rest
  have ha := wf_targets rfl hw
  refine decode_encode (ls := []) p rest rfl rfl hw ?_ (by simp) (fun w h => by simp [litWords, h]) ?_
  · have := pred_code_lt p; have := target_code_lt a; have := target_code_lt b
    refine ⟨?_, ?_, ?_, ?_, ?_⟩ <;> dsimp only <;> omega
  · simp [decodeRow, decodeRowC, ha.1, ha.2]

theorem Sys2Proof.Laws.EncodesItself.mscale (p : Pred) (t : ScaleSel) (a : Target) (b : Target) : EncodesItself.Statement (.mscale p t a b) := by
  intro hw _ rest
  have ha := wf_targets rfl hw
  cases t <;>
  (refine decode_encode (ls := []) p rest rfl rfl hw ?_ (by simp) (fun w h => by simp [litWords, h]) ?_
   · have := pred_code_lt p; have := target_code_lt a; have := target_code_lt b
     refine ⟨?_, ?_, ?_, ?_, ?_⟩ <;> simp [ScaleSel.code] <;> omega
   · simp [decodeRow, decodeRowC, ha.1, ha.2, ScaleSel.code, ScaleSel.ofCode])

theorem Sys2Proof.Laws.EncodesItself.accrd (p : Pred) (a : Target) (b : Target) : EncodesItself.Statement (.accrd p a b) := by
  intro hw _ rest
  have ha := wf_targets rfl hw
  refine decode_encode (ls := []) p rest rfl rfl hw ?_ (by simp) (fun w h => by simp [litWords, h]) ?_
  · have := pred_code_lt p; have := target_code_lt a; have := target_code_lt b
    refine ⟨?_, ?_, ?_, ?_, ?_⟩ <;> dsimp only <;> omega
  · simp [decodeRow, decodeRowC, ha.1, ha.2]

theorem Sys2Proof.Laws.EncodesItself.accwr (p : Pred) (a : Target) (b : Target) : EncodesItself.Statement (.accwr p a b) := by
  intro hw _ rest
  have ha := wf_targets rfl hw
  refine decode_encode (ls := []) p rest rfl rfl hw ?_ (by simp) (fun w h => by simp [litWords, h]) ?_
  · have := pred_code_lt p; have := target_code_lt a; have := target_code_lt b
    refine ⟨?_, ?_, ?_, ?_, ?_⟩ <;> dsimp only <;> omega
  · simp [decodeRow, decodeRowC, ha.1, ha.2]

theorem Sys2Proof.Laws.EncodesItself.accz (p : Pred) (a : Target) (b : Target) : EncodesItself.Statement (.accz p a b) := by
  intro hw _ rest
  have ha := wf_targets rfl hw
  refine decode_encode (ls := []) p rest rfl rfl hw ?_ (by simp) (fun w h => by simp [litWords, h]) ?_
  · have := pred_code_lt p; have := target_code_lt a; have := target_code_lt b
    refine ⟨?_, ?_, ?_, ?_, ?_⟩ <;> dsimp only <;> omega
  · simp [decodeRow, decodeRowC, ha.1, ha.2]

theorem Sys2Proof.Laws.EncodesItself.mpromo (p : Pred) (a : Target) (b : Target) : EncodesItself.Statement (.mpromo p a b) := by
  intro hw _ rest
  have ha := wf_targets rfl hw
  refine decode_encode (ls := []) p rest rfl rfl hw ?_ (by simp) (fun w h => by simp [litWords, h]) ?_
  · have := pred_code_lt p; have := target_code_lt a; have := target_code_lt b
    refine ⟨?_, ?_, ?_, ?_, ?_⟩ <;> dsimp only <;> omega
  · simp [decodeRow, decodeRowC, ha.1, ha.2]

theorem Sys2Proof.Laws.EncodesItself.fscan (p : Pred) (a : Target) (b : Target) (ih : Fin 16) (oh : Fin 16) (d : Fin 4) (root : Bool) : EncodesItself.Statement (.fscan p a b ih oh d root) := by
  intro hw _ rest
  have ha := wf_targets rfl hw
  have hi := ih.isLt; have ho := oh.isLt; have hd := d.isLt; have hr := root.toNat_lt
  obtain ⟨l0, hl0⟩ : ∃ n, n = ih.val * 268435456 + oh.val * 16777216 + d.val * 4194304 + root.toNat * 2097152 := ⟨_, rfl⟩
  refine decode_encode (ls := [BitVec.ofNat 32 l0]) p rest rfl (by rw [hl0]; rfl) hw ?_ (by simp) (fun w h => by simp [litWords, h]) ?_
  · have := pred_code_lt p; have := target_code_lt a; have := target_code_lt b
    refine ⟨?_, ?_, ?_, ?_, ?_⟩ <;> dsimp only <;> omega
  · have hc : (BitVec.ofNat 32 l0).toNat = l0 := by rw [BitVec.toNat_ofNat]; omega
    have e1 : fin16 (l0 / 268435456) = ih := by apply Fin.ext; simp only [fin16]; omega
    have e2 : fin16 (l0 / 16777216) = oh := by apply Fin.ext; simp only [fin16]; omega
    have e3 : fin4 (l0 / 4194304) = d := by apply Fin.ext; simp only [fin4]; omega
    have e4 : bitAt l0 21 = root := by
      have h : l0 / 2 ^ 21 % 2 = root.toNat := by omega
      rw [bitAt, h]; cases root <;> rfl
    have e5 : l0 % 2097152 = 0 := by omega
    rw [List.cons_append, List.getD_cons_zero, hc]
    simp [decodeRow, decodeRowC, ha.1, ha.2, e1, e2, e3, e4, e5]

theorem Sys2Proof.Laws.EncodesItself.fisect (p : Pred) (t : BitVec 4) (a : Target) (v : Bool) (sx : Bool) : EncodesItself.Statement (.fisect p t a v sx) := by
  intro hw _ rest
  have ha := wf_target rfl hw
  cases v <;>
  cases sx <;>
  (refine decode_encode (ls := []) p rest rfl rfl hw ?_ (by simp) (fun w h => by simp [litWords, h]) ?_
   · have := pred_code_lt p; have := t.isLt; have := target_code_lt a
     refine ⟨?_, ?_, ?_, ?_, ?_⟩ <;> simp <;> omega
   · simp [decodeRow, decodeRowC, ha, bitAt])

theorem Sys2Proof.Laws.EncodesItself.funion (p : Pred) (t : BitVec 4) (a : Target) (v : Bool) (w : Bool) : EncodesItself.Statement (.funion p t a v w) := by
  intro hw _ rest
  have ha := wf_target rfl hw
  cases v <;>
  cases w <;>
  (refine decode_encode (ls := []) p rest rfl rfl hw ?_ (by simp) (fun w h => by simp [litWords, h]) ?_
   · have := pred_code_lt p; have := t.isLt; have := target_code_lt a
     refine ⟨?_, ?_, ?_, ?_, ?_⟩ <;> simp <;> omega
   · simp [decodeRow, decodeRowC, ha, bitAt])

theorem Sys2Proof.Laws.EncodesItself.frep (p : Pred) (a : Target) (b : Target) (ih : Fin 16) (oh : Fin 16) (d : Fin 4) : EncodesItself.Statement (.frep p a b ih oh d) := by
  intro hw _ rest
  have ha := wf_targets rfl hw
  refine decode_encode (ls := [BitVec.ofNat 32 (ih.val * 268435456 + oh.val * 16777216 + d.val * 4194304)]) p rest rfl rfl hw ?_ (by simp) (fun w h => by simp [litWords, h]) ?_
  · have := pred_code_lt p; have := target_code_lt a; have := target_code_lt b; have := ih.isLt; have := oh.isLt; have := d.isLt
    refine ⟨?_, ?_, ?_, ?_, ?_⟩ <;> dsimp only <;> omega
  · have := ih.isLt; have := oh.isLt; have := d.isLt; simp [decodeRow, decodeRowC, ha.1, ha.2, fin16, fin4, Fin.ext_iff] <;> omega

theorem Sys2Proof.Laws.EncodesItself.fred (p : Pred) (t : Ty) (a : Target) (b : Target) (ih : Fin 16) (oh : Fin 16) (d : Fin 4) (e : Bool) (o : RedOp) : EncodesItself.Statement (.fred p t a b ih oh d e o) := by
  intro hw _ rest
  have ha := wf_targets rfl hw
  have hi := ih.isLt; have ho := oh.isLt; have hd := d.isLt; have hr := e.toNat_lt
  have hoc : o.code < 3 := by cases o <;> decide
  obtain ⟨l0, hl0⟩ : ∃ n, n = ih.val * 268435456 + oh.val * 16777216 + d.val * 4194304 + e.toNat * 1048576 + o.code * 262144 := ⟨_, rfl⟩
  refine decode_encode (ls := [BitVec.ofNat 32 l0]) p rest rfl (by rw [hl0]; rfl) hw ?_ (by simp) (fun w h => by simp [litWords, h]) ?_
  · have := pred_code_lt p; have := ty_code_lt t; have := target_code_lt a; have := target_code_lt b
    refine ⟨?_, ?_, ?_, ?_, ?_⟩ <;> dsimp only <;> omega
  · have hc : (BitVec.ofNat 32 l0).toNat = l0 := by rw [BitVec.toNat_ofNat]; omega
    have e1 : fin16 (l0 / 268435456) = ih := by apply Fin.ext; simp only [fin16]; omega
    have e2 : fin16 (l0 / 16777216) = oh := by apply Fin.ext; simp only [fin16]; omega
    have e3 : fin4 (l0 / 4194304) = d := by apply Fin.ext; simp only [fin4]; omega
    have e4 : bitAt l0 20 = e := by
      have h : l0 / 2 ^ 20 % 2 = e.toNat := by omega
      rw [bitAt, h]; cases e <;> rfl
    have e5 : l0 / 262144 % 4 = o.code := by omega
    have e6 : l0 / 2097152 % 2 = 0 := by omega
    have e7 : l0 % 262144 = 0 := by omega
    rw [List.cons_append, List.getD_cons_zero, hc]
    simp [decodeRow, decodeRowC, ha.1, ha.2, e1, e2, e3, e4, e5, e6, e7]

theorem Sys2Proof.Laws.EncodesItself.fstop (p : Pred) (d : Fin 4) (k : Fin 4) (h : Fin 16) (o : Fin 16) : EncodesItself.Statement (.fstop p d k h o) := by
  intro hw _ rest
  refine decode_encode (ls := []) p rest rfl rfl hw ?_ (by simp) (fun w h => by simp [litWords, h]) ?_
  · have := pred_code_lt p; have := d.isLt; have := k.isLt; have := h.isLt; have := o.isLt
    refine ⟨?_, ?_, ?_, ?_, ?_⟩ <;> dsimp only <;> omega
  · have := d.isLt; have := k.isLt; have := h.isLt; have := o.isLt; simp [decodeRow, decodeRowC, fin16, fin4, Fin.ext_iff] <;> omega

theorem Sys2Proof.Laws.EncodesItself.fchk (p : Pred) (d : Fin 4) (a : Target) (h : Fin 16) (o : Fin 16) : EncodesItself.Statement (.fchk p d a h o) := by
  intro hw _ rest
  have ha := wf_target rfl hw
  refine decode_encode (ls := []) p rest rfl rfl hw ?_ (by simp) (fun w h => by simp [litWords, h]) ?_
  · have := pred_code_lt p; have := d.isLt; have := target_code_lt a; have := h.isLt; have := o.isLt
    refine ⟨?_, ?_, ?_, ?_, ?_⟩ <;> dsimp only <;> omega
  · have := d.isLt; have := h.isLt; have := o.isLt; simp [decodeRow, decodeRowC, ha, fin16, fin4, Fin.ext_iff] <;> omega

theorem Sys2Proof.Laws.EncodesItself.fcrd (p : Pred) (d : Fin 4) (a : Target) (h : Fin 16) (o : Fin 16) : EncodesItself.Statement (.fcrd p d a h o) := by
  intro hw _ rest
  have ha := wf_target rfl hw
  refine decode_encode (ls := []) p rest rfl rfl hw ?_ (by simp) (fun w h => by simp [litWords, h]) ?_
  · have := pred_code_lt p; have := d.isLt; have := target_code_lt a; have := h.isLt; have := o.isLt
    refine ⟨?_, ?_, ?_, ?_, ?_⟩ <;> dsimp only <;> omega
  · have := d.isLt; have := h.isLt; have := o.isLt; simp [decodeRow, decodeRowC, ha, fin16, fin4, Fin.ext_iff] <;> omega

theorem Sys2Proof.Laws.EncodesItself.bar (p : Pred) (a : Target) (b : Target) : EncodesItself.Statement (.bar p a b) := by
  intro hw _ rest
  have ha := wf_targets rfl hw
  refine decode_encode (ls := []) p rest rfl rfl hw ?_ (by simp) (fun w h => by simp [litWords, h]) ?_
  · have := pred_code_lt p; have := target_code_lt a; have := target_code_lt b
    refine ⟨?_, ?_, ?_, ?_, ?_⟩ <;> dsimp only <;> omega
  · simp [decodeRow, decodeRowD, ha.1, ha.2]

theorem Sys2Proof.Laws.EncodesItself.wreg (p : Pred) (h : Bool) (a : Target) (b : Target) : EncodesItself.Statement (.wreg p h a b) := by
  intro hw _ rest
  have ha := wf_targets rfl hw
  cases h <;>
  (refine decode_encode (ls := []) p rest rfl rfl hw ?_ (by simp) (fun w h => by simp [litWords, h]) ?_
   · have := pred_code_lt p; have := target_code_lt a; have := target_code_lt b
     refine ⟨?_, ?_, ?_, ?_, ?_⟩ <;> simp <;> omega
   · simp [decodeRow, decodeRowD, ha.1, ha.2, bitAt])

theorem Sys2Proof.Laws.EncodesItself.wdrop (p : Pred) (a : Target) (b : Target) : EncodesItself.Statement (.wdrop p a b) := by
  intro hw _ rest
  have ha := wf_targets rfl hw
  refine decode_encode (ls := []) p rest rfl rfl hw ?_ (by simp) (fun w h => by simp [litWords, h]) ?_
  · have := pred_code_lt p; have := target_code_lt a; have := target_code_lt b
    refine ⟨?_, ?_, ?_, ?_, ?_⟩ <;> dsimp only <;> omega
  · simp [decodeRow, decodeRowD, ha.1, ha.2]

theorem Sys2Proof.Laws.EncodesItself.wqry (p : Pred) (a : Target) (b : Target) : EncodesItself.Statement (.wqry p a b) := by
  intro hw _ rest
  have ha := wf_targets rfl hw
  refine decode_encode (ls := []) p rest rfl rfl hw ?_ (by simp) (fun w h => by simp [litWords, h]) ?_
  · have := pred_code_lt p; have := target_code_lt a; have := target_code_lt b
    refine ⟨?_, ?_, ?_, ?_, ?_⟩ <;> dsimp only <;> omega
  · simp [decodeRow, decodeRowD, ha.1, ha.2]

theorem Sys2Proof.Laws.EncodesItself.chsend (p : Pred) (a : Target) (b : Target) : EncodesItself.Statement (.chsend p a b) := by
  intro hw _ rest
  have ha := wf_targets rfl hw
  refine decode_encode (ls := []) p rest rfl rfl hw ?_ (by simp) (fun w h => by simp [litWords, h]) ?_
  · have := pred_code_lt p; have := target_code_lt a; have := target_code_lt b
    refine ⟨?_, ?_, ?_, ?_, ?_⟩ <;> dsimp only <;> omega
  · simp [decodeRow, decodeRowD, ha.1, ha.2]

theorem Sys2Proof.Laws.EncodesItself.chrecv (p : Pred) (a : Target) (b : Target) : EncodesItself.Statement (.chrecv p a b) := by
  intro hw _ rest
  have ha := wf_targets rfl hw
  refine decode_encode (ls := []) p rest rfl rfl hw ?_ (by simp) (fun w h => by simp [litWords, h]) ?_
  · have := pred_code_lt p; have := target_code_lt a; have := target_code_lt b
    refine ⟨?_, ?_, ?_, ?_, ?_⟩ <;> dsimp only <;> omega
  · simp [decodeRow, decodeRowD, ha.1, ha.2]

theorem Sys2Proof.Laws.EncodesItself.chcred (p : Pred) (a : Target) (b : Target) : EncodesItself.Statement (.chcred p a b) := by
  intro hw _ rest
  have ha := wf_targets rfl hw
  refine decode_encode (ls := []) p rest rfl rfl hw ?_ (by simp) (fun w h => by simp [litWords, h]) ?_
  · have := pred_code_lt p; have := target_code_lt a; have := target_code_lt b
    refine ⟨?_, ?_, ?_, ?_, ?_⟩ <;> dsimp only <;> omega
  · simp [decodeRow, decodeRowD, ha.1, ha.2]

theorem Sys2Proof.Laws.EncodesItself.waitv (p : Pred) (a : Target) (b : Target) : EncodesItself.Statement (.waitv p a b) := by
  intro hw _ rest
  have ha := wf_targets rfl hw
  refine decode_encode (ls := []) p rest rfl rfl hw ?_ (by simp) (fun w h => by simp [litWords, h]) ?_
  · have := pred_code_lt p; have := target_code_lt a; have := target_code_lt b
    refine ⟨?_, ?_, ?_, ?_, ?_⟩ <;> dsimp only <;> omega
  · simp [decodeRow, decodeRowD, ha.1, ha.2]

theorem Sys2Proof.Laws.EncodesItself.tkwait (p : Pred) (a : Target) (b : Target) : EncodesItself.Statement (.tkwait p a b) := by
  intro hw _ rest
  have ha := wf_targets rfl hw
  refine decode_encode (ls := []) p rest rfl rfl hw ?_ (by simp) (fun w h => by simp [litWords, h]) ?_
  · have := pred_code_lt p; have := target_code_lt a; have := target_code_lt b
    refine ⟨?_, ?_, ?_, ?_, ?_⟩ <;> dsimp only <;> omega
  · simp [decodeRow, decodeRowD, ha.1, ha.2]

theorem Sys2Proof.Laws.EncodesItself.tkrd (p : Pred) (a : Target) (b : Target) : EncodesItself.Statement (.tkrd p a b) := by
  intro hw _ rest
  have ha := wf_targets rfl hw
  refine decode_encode (ls := []) p rest rfl rfl hw ?_ (by simp) (fun w h => by simp [litWords, h]) ?_
  · have := pred_code_lt p; have := target_code_lt a; have := target_code_lt b
    refine ⟨?_, ?_, ?_, ?_, ?_⟩ <;> dsimp only <;> omega
  · simp [decodeRow, decodeRowD, ha.1, ha.2]

theorem Sys2Proof.Laws.EncodesItself.cred (p : Pred) (a : Target) (b : Target) : EncodesItself.Statement (.cred p a b) := by
  intro hw _ rest
  have ha := wf_targets rfl hw
  refine decode_encode (ls := []) p rest rfl rfl hw ?_ (by simp) (fun w h => by simp [litWords, h]) ?_
  · have := pred_code_lt p; have := target_code_lt a; have := target_code_lt b
    refine ⟨?_, ?_, ?_, ?_, ?_⟩ <;> dsimp only <;> omega
  · simp [decodeRow, decodeRowD, ha.1, ha.2]

theorem Sys2Proof.Laws.EncodesItself.cbcast (p : Pred) (a : Target) (b : Target) : EncodesItself.Statement (.cbcast p a b) := by
  intro hw _ rest
  have ha := wf_targets rfl hw
  refine decode_encode (ls := []) p rest rfl rfl hw ?_ (by simp) (fun w h => by simp [litWords, h]) ?_
  · have := pred_code_lt p; have := target_code_lt a; have := target_code_lt b
    refine ⟨?_, ?_, ?_, ?_, ?_⟩ <;> dsimp only <;> omega
  · simp [decodeRow, decodeRowD, ha.1, ha.2]

theorem Sys2Proof.Laws.EncodesItself.cgath (p : Pred) (a : Target) (b : Target) : EncodesItself.Statement (.cgath p a b) := by
  intro hw _ rest
  have ha := wf_targets rfl hw
  refine decode_encode (ls := []) p rest rfl rfl hw ?_ (by simp) (fun w h => by simp [litWords, h]) ?_
  · have := pred_code_lt p; have := target_code_lt a; have := target_code_lt b
    refine ⟨?_, ?_, ?_, ?_, ?_⟩ <;> dsimp only <;> omega
  · simp [decodeRow, decodeRowD, ha.1, ha.2]

theorem Sys2Proof.Laws.EncodesItself.fence (p : Pred) (sc : Fin 8) (a : Target) (b : Target) (chain : Fin 1024) (st : Fin 4096) : EncodesItself.Statement (.fence p sc a b chain st) := by
  intro hw _ rest
  have ha := wf_targets rfl hw
  refine decode_encode (ls := [BitVec.ofNat 32 (chain.val * 4096 + st.val)]) p rest rfl rfl hw ?_ (by simp) (fun w h => by simp [litWords, h]) ?_
  · have := pred_code_lt p; have := sc.isLt; have := target_code_lt a; have := target_code_lt b; have := chain.isLt; have := st.isLt
    refine ⟨?_, ?_, ?_, ?_, ?_⟩ <;> dsimp only <;> omega
  · have := sc.isLt; have := chain.isLt; have := st.isLt; simp [decodeRow, decodeRowD, ha.1, ha.2, fin1024, fin4096, fin8, Fin.ext_iff] <;> omega

theorem Sys2Proof.Laws.EncodesItself.launch (p : Pred) (a : Target) (b : Target) : EncodesItself.Statement (.launch p a b) := by
  intro hw _ rest
  have ha := wf_targets rfl hw
  refine decode_encode (ls := []) p rest rfl rfl hw ?_ (by simp) (fun w h => by simp [litWords, h]) ?_
  · have := pred_code_lt p; have := target_code_lt a; have := target_code_lt b
    refine ⟨?_, ?_, ?_, ?_, ?_⟩ <;> dsimp only <;> omega
  · simp [decodeRow, decodeRowE, ha.1, ha.2]

theorem Sys2Proof.Laws.EncodesItself.launchi (p : Pred) (a : Target) (b : Target) : EncodesItself.Statement (.launchi p a b) := by
  intro hw _ rest
  have ha := wf_targets rfl hw
  refine decode_encode (ls := []) p rest rfl rfl hw ?_ (by simp) (fun w h => by simp [litWords, h]) ?_
  · have := pred_code_lt p; have := target_code_lt a; have := target_code_lt b
    refine ⟨?_, ?_, ?_, ?_, ?_⟩ <;> dsimp only <;> omega
  · simp [decodeRow, decodeRowE, ha.1, ha.2]

theorem Sys2Proof.Laws.EncodesItself.launcht (p : Pred) (a : Target) (b : Target) : EncodesItself.Statement (.launcht p a b) := by
  intro hw _ rest
  have ha := wf_targets rfl hw
  refine decode_encode (ls := []) p rest rfl rfl hw ?_ (by simp) (fun w h => by simp [litWords, h]) ?_
  · have := pred_code_lt p; have := target_code_lt a; have := target_code_lt b
    refine ⟨?_, ?_, ?_, ?_, ?_⟩ <;> dsimp only <;> omega
  · simp [decodeRow, decodeRowE, ha.1, ha.2]

theorem Sys2Proof.Laws.EncodesItself.splice (p : Pred) (a : Target) (b : Target) : EncodesItself.Statement (.splice p a b) := by
  intro hw _ rest
  have ha := wf_targets rfl hw
  refine decode_encode (ls := []) p rest rfl rfl hw ?_ (by simp) (fun w h => by simp [litWords, h]) ?_
  · have := pred_code_lt p; have := target_code_lt a; have := target_code_lt b
    refine ⟨?_, ?_, ?_, ?_, ?_⟩ <;> dsimp only <;> omega
  · simp [decodeRow, decodeRowE, ha.1, ha.2]

theorem Sys2Proof.Laws.EncodesItself.lstat (p : Pred) (a : Target) (b : Target) : EncodesItself.Statement (.lstat p a b) := by
  intro hw _ rest
  have ha := wf_targets rfl hw
  refine decode_encode (ls := []) p rest rfl rfl hw ?_ (by simp) (fun w h => by simp [litWords, h]) ?_
  · have := pred_code_lt p; have := target_code_lt a; have := target_code_lt b
    refine ⟨?_, ?_, ?_, ?_, ?_⟩ <;> dsimp only <;> omega
  · simp [decodeRow, decodeRowE, ha.1, ha.2]

theorem Sys2Proof.Laws.EncodesItself.lcancel (p : Pred) (a : Target) (b : Target) : EncodesItself.Statement (.lcancel p a b) := by
  intro hw _ rest
  have ha := wf_targets rfl hw
  refine decode_encode (ls := []) p rest rfl rfl hw ?_ (by simp) (fun w h => by simp [litWords, h]) ?_
  · have := pred_code_lt p; have := target_code_lt a; have := target_code_lt b
    refine ⟨?_, ?_, ?_, ?_, ?_⟩ <;> dsimp only <;> omega
  · simp [decodeRow, decodeRowE, ha.1, ha.2]

theorem Sys2Proof.Laws.EncodesItself.ipf (p : Pred) (d : Bool) : EncodesItself.Statement (.ipf p d) := by
  intro hw _ rest
  cases d <;>
  (refine decode_encode (ls := []) p rest rfl rfl hw ?_ (by simp) (fun w h => by simp [litWords, h]) ?_
   · have := pred_code_lt p
     refine ⟨?_, ?_, ?_, ?_, ?_⟩ <;> simp <;> omega
   · simp [decodeRow, decodeRowE, bitAt])

theorem Sys2Proof.Laws.EncodesItself.ipin (p : Pred) (d : Bool) : EncodesItself.Statement (.ipin p d) := by
  intro hw _ rest
  cases d <;>
  (refine decode_encode (ls := []) p rest rfl rfl hw ?_ (by simp) (fun w h => by simp [litWords, h]) ?_
   · have := pred_code_lt p
     refine ⟨?_, ?_, ?_, ?_, ?_⟩ <;> simp <;> omega
   · simp [decodeRow, decodeRowE, bitAt])

theorem Sys2Proof.Laws.EncodesItself.iunpin (p : Pred) : EncodesItself.Statement (.iunpin p) := by
  intro hw _ rest
  refine decode_encode (ls := []) p rest rfl rfl hw ?_ (by simp) (fun w h => by simp [litWords, h]) ?_
  · have := pred_code_lt p
    refine ⟨?_, ?_, ?_, ?_, ?_⟩ <;> dsimp only <;> omega
  · simp [decodeRow, decodeRowE]

theorem Sys2Proof.Laws.EncodesItself.iinv (p : Pred) (x : Bool) : EncodesItself.Statement (.iinv p x) := by
  intro hw _ rest
  cases x <;>
  (refine decode_encode (ls := []) p rest rfl rfl hw ?_ (by simp) (fun w h => by simp [litWords, h]) ?_
   · have := pred_code_lt p
     refine ⟨?_, ?_, ?_, ?_, ?_⟩ <;> simp <;> omega
   · simp [decodeRow, decodeRowE, bitAt])

theorem Sys2Proof.Laws.EncodesItself.thatch (p : Pred) (a : Target) (b : Target) : EncodesItself.Statement (.thatch p a b) := by
  intro hw _ rest
  have ha := wf_targets rfl hw
  refine decode_encode (ls := []) p rest rfl rfl hw ?_ (by simp) (fun w h => by simp [litWords, h]) ?_
  · have := pred_code_lt p; have := target_code_lt a; have := target_code_lt b
    refine ⟨?_, ?_, ?_, ?_, ?_⟩ <;> dsimp only <;> omega
  · simp [decodeRow, decodeRowF, ha.1, ha.2]

theorem Sys2Proof.Laws.EncodesItself.snap (p : Pred) (k : Bool) (a : Target) (b : Target) : EncodesItself.Statement (.snap p k a b) := by
  intro hw _ rest
  have ha := wf_targets rfl hw
  cases k <;>
  (refine decode_encode (ls := []) p rest rfl rfl hw ?_ (by simp) (fun w h => by simp [litWords, h]) ?_
   · have := pred_code_lt p; have := target_code_lt a; have := target_code_lt b
     refine ⟨?_, ?_, ?_, ?_, ?_⟩ <;> simp <;> omega
   · simp [decodeRow, decodeRowF, ha.1, ha.2, bitAt])

theorem Sys2Proof.Laws.EncodesItself.digest (p : Pred) (a : Target) (b : Target) : EncodesItself.Statement (.digest p a b) := by
  intro hw _ rest
  have ha := wf_targets rfl hw
  refine decode_encode (ls := []) p rest rfl rfl hw ?_ (by simp) (fun w h => by simp [litWords, h]) ?_
  · have := pred_code_lt p; have := target_code_lt a; have := target_code_lt b
    refine ⟨?_, ?_, ?_, ?_, ?_⟩ <;> dsimp only <;> omega
  · simp [decodeRow, decodeRowF, ha.1, ha.2]

theorem Sys2Proof.Laws.EncodesItself.statf (p : Pred) (a : Target) (b : Target) : EncodesItself.Statement (.statf p a b) := by
  intro hw _ rest
  have ha := wf_targets rfl hw
  refine decode_encode (ls := []) p rest rfl rfl hw ?_ (by simp) (fun w h => by simp [litWords, h]) ?_
  · have := pred_code_lt p; have := target_code_lt a; have := target_code_lt b
    refine ⟨?_, ?_, ?_, ?_, ?_⟩ <;> dsimp only <;> omega
  · simp [decodeRow, decodeRowF, ha.1, ha.2]

theorem Sys2Proof.Laws.EncodesItself.firingSelection (rank : Nat) : EncodesItself.Statement (.firingSelection rank) := by
  intro _ h; exact absurd h (by simp [Instr.raw])

theorem Sys2Proof.Laws.EncodesItself.blockQuiescence (rank : Nat) : EncodesItself.Statement (.blockQuiescence rank) := by
  intro _ h; exact absurd h (by simp [Instr.raw])

theorem Sys2Proof.Laws.EncodesItself.firingCancellation (rank : Nat) (la : Nat) : EncodesItself.Statement (.firingCancellation rank la) := by
  intro _ h; exact absurd h (by simp [Instr.raw])

theorem Sys2Proof.Laws.EncodesItself.actorRetirement (rank : Nat) (la : Nat) : EncodesItself.Statement (.actorRetirement rank la) := by
  intro _ h; exact absurd h (by simp [Instr.raw])

theorem Sys2Proof.Laws.EncodesItself.flitArrival (e : Nat) (err : FlitErr) : EncodesItself.Statement (.flitArrival e err) := by
  intro _ h; exact absurd h (by simp [Instr.raw])

theorem Sys2Proof.Laws.EncodesItself.antiTokenArrival (e : Nat) : EncodesItself.Statement (.antiTokenArrival e) := by
  intro _ h; exact absurd h (by simp [Instr.raw])

theorem Sys2Proof.Laws.EncodesItself.joinInputStep (rank : Nat) (la : Nat) : EncodesItself.Statement (.joinInputStep rank la) := by
  intro _ h; exact absurd h (by simp [Instr.raw])

theorem Sys2Proof.Laws.EncodesItself.forkCopy (rank : Nat) (la : Nat) : EncodesItself.Statement (.forkCopy rank la) := by
  intro _ h; exact absurd h (by simp [Instr.raw])

theorem Sys2Proof.Laws.EncodesItself.turnTokenIntake (rank : Nat) (la : Nat) : EncodesItself.Statement (.turnTokenIntake rank la) := by
  intro _ h; exact absurd h (by simp [Instr.raw])

theorem Sys2Proof.Laws.EncodesItself.turnTokenPublish (rank : Nat) (la : Nat) : EncodesItself.Statement (.turnTokenPublish rank la) := by
  intro _ h; exact absurd h (by simp [Instr.raw])

theorem Sys2Proof.Laws.EncodesItself.ownerUpdate (rank : Nat) (la : Nat) : EncodesItself.Statement (.ownerUpdate rank la) := by
  intro _ h; exact absurd h (by simp [Instr.raw])

theorem Sys2Proof.Laws.EncodesItself.memoryRequestForward (req : Nat) : EncodesItself.Statement (.memoryRequestForward req) := by
  intro _ h; exact absurd h (by simp [Instr.raw])

theorem Sys2Proof.Laws.EncodesItself.homeBankEvent (req : Nat) (err : SoftErr) : EncodesItself.Statement (.homeBankEvent req err) := by
  intro _ h; exact absurd h (by simp [Instr.raw])

theorem Sys2Proof.Laws.EncodesItself.waitingRequestPerform (req : Nat) : EncodesItself.Statement (.waitingRequestPerform req) := by
  intro _ h; exact absurd h (by simp [Instr.raw])

theorem Sys2Proof.Laws.EncodesItself.loadAnswer (req : Nat) : EncodesItself.Statement (.loadAnswer req) := by
  intro _ h; exact absurd h (by simp [Instr.raw])

theorem Sys2Proof.Laws.EncodesItself.completionValueDelivery (req : Nat) : EncodesItself.Statement (.completionValueDelivery req) := by
  intro _ h; exact absurd h (by simp [Instr.raw])

theorem Sys2Proof.Laws.EncodesItself.translationMissDecision (req : Nat) : EncodesItself.Statement (.translationMissDecision req) := by
  intro _ h; exact absurd h (by simp [Instr.raw])

theorem Sys2Proof.Laws.EncodesItself.invocationEnd (lid : Nat) (g : Nat) : EncodesItself.Statement (.invocationEnd lid g) := by
  intro _ h; exact absurd h (by simp [Instr.raw])

theorem Sys2Proof.Laws.EncodesItself.ldlvWfRelease (rank : Nat) (slot : Nat) : EncodesItself.Statement (.ldlvWfRelease rank slot) := by
  intro _ h; exact absurd h (by simp [Instr.raw])

theorem Sys2Proof.Laws.EncodesItself.lockGrant (req : Nat) : EncodesItself.Statement (.lockGrant req) := by
  intro _ h; exact absurd h (by simp [Instr.raw])

theorem Sys2Proof.Laws.EncodesItself.unlockRelease (req : Nat) : EncodesItself.Statement (.unlockRelease req) := by
  intro _ h; exact absurd h (by simp [Instr.raw])

theorem Sys2Proof.Laws.EncodesItself.fenceComplete (req : Nat) : EncodesItself.Statement (.fenceComplete req) := by
  intro _ h; exact absurd h (by simp [Instr.raw])

theorem Sys2Proof.Laws.EncodesItself.tkwaitRelease (rank : Nat) (slot : Nat) : EncodesItself.Statement (.tkwaitRelease rank slot) := by
  intro _ h; exact absurd h (by simp [Instr.raw])

theorem Sys2Proof.Laws.EncodesItself.qwaitRelease (rank : Nat) (slot : Nat) : EncodesItself.Statement (.qwaitRelease rank slot) := by
  intro _ h; exact absurd h (by simp [Instr.raw])

theorem Sys2Proof.Laws.EncodesItself.engineCommandEnqueue (rank : Nat) (slot : Nat) : EncodesItself.Statement (.engineCommandEnqueue rank slot) := by
  intro _ h; exact absurd h (by simp [Instr.raw])

theorem Sys2Proof.Laws.EncodesItself.engineCommandExecute (die : Nat) (eng : Nat) : EncodesItself.Statement (.engineCommandExecute die eng) := by
  intro _ h; exact absurd h (by simp [Instr.raw])

theorem Sys2Proof.Laws.EncodesItself.regionFeed (die : Nat) (eng : Nat) : EncodesItself.Statement (.regionFeed die eng) := by
  intro _ h; exact absurd h (by simp [Instr.raw])

theorem Sys2Proof.Laws.EncodesItself.regionCommandEnqueue (rank : Nat) (slot : Nat) : EncodesItself.Statement (.regionCommandEnqueue rank slot) := by
  intro _ h; exact absurd h (by simp [Instr.raw])

theorem Sys2Proof.Laws.EncodesItself.mloadwExecute (rg : Nat) : EncodesItself.Statement (.mloadwExecute rg) := by
  intro _ h; exact absurd h (by simp [Instr.raw])

theorem Sys2Proof.Laws.EncodesItself.mscaleExecute (rg : Nat) : EncodesItself.Statement (.mscaleExecute rg) := by
  intro _ h; exact absurd h (by simp [Instr.raw])

theorem Sys2Proof.Laws.EncodesItself.mswapExecute (rg : Nat) : EncodesItself.Statement (.mswapExecute rg) := by
  intro _ h; exact absurd h (by simp [Instr.raw])

theorem Sys2Proof.Laws.EncodesItself.mmaExecute (rg : Nat) : EncodesItself.Statement (.mmaExecute rg) := by
  intro _ h; exact absurd h (by simp [Instr.raw])

theorem Sys2Proof.Laws.EncodesItself.mpromoExecute (rg : Nat) : EncodesItself.Statement (.mpromoExecute rg) := by
  intro _ h; exact absurd h (by simp [Instr.raw])

theorem Sys2Proof.Laws.EncodesItself.statfExecute (rg : Nat) : EncodesItself.Statement (.statfExecute rg) := by
  intro _ h; exact absurd h (by simp [Instr.raw])

theorem Sys2Proof.Laws.EncodesItself.accQueuedAccess (rg : Nat) : EncodesItself.Statement (.accQueuedAccess rg) := by
  intro _ h; exact absurd h (by simp [Instr.raw])

theorem Sys2Proof.Laws.EncodesItself.collectiveExecution (c : Nat) : EncodesItself.Statement (.collectiveExecution c) := by
  intro _ h; exact absurd h (by simp [Instr.raw])

theorem Sys2Proof.Laws.EncodesItself.digestComplete (rank : Nat) (slot : Nat) : EncodesItself.Statement (.digestComplete rank slot) := by
  intro _ h; exact absurd h (by simp [Instr.raw])

theorem Sys2Proof.Laws.EncodesItself.thatchVerification : EncodesItself.Statement (.thatchVerification) := by
  intro _ h; exact absurd h (by simp [Instr.raw])

theorem Sys2Proof.Laws.EncodesItself.thatchTakeEffect : EncodesItself.Statement (.thatchTakeEffect) := by
  intro _ h; exact absurd h (by simp [Instr.raw])

theorem Sys2Proof.Laws.EncodesItself.ridgePlacement (part : Nat) (ch : Place) : EncodesItself.Statement (.ridgePlacement part ch) := by
  intro _ h; exact absurd h (by simp [Instr.raw])

theorem Sys2Proof.Laws.EncodesItself.launchDependenceMet (lid : Nat) : EncodesItself.Statement (.launchDependenceMet lid) := by
  intro _ h; exact absurd h (by simp [Instr.raw])

theorem Sys2Proof.Laws.EncodesItself.armedClear (lid : Nat) : EncodesItself.Statement (.armedClear lid) := by
  intro _ h; exact absurd h (by simp [Instr.raw])

theorem Sys2Proof.Laws.EncodesItself.reconfActorFinish (rank : Nat) (la : Nat) : EncodesItself.Statement (.reconfActorFinish rank la) := by
  intro _ h; exact absurd h (by simp [Instr.raw])

theorem Sys2Proof.Laws.EncodesItself.elementSuccessorInstall (rank : Nat) : EncodesItself.Statement (.elementSuccessorInstall rank) := by
  intro _ h; exact absurd h (by simp [Instr.raw])

theorem Sys2Proof.Laws.EncodesItself.launchEnd (lid : Nat) : EncodesItself.Statement (.launchEnd lid) := by
  intro _ h; exact absurd h (by simp [Instr.raw])

theorem Sys2Proof.Laws.EncodesItself.tickBoundary : EncodesItself.Statement (.tickBoundary) := by
  intro _ h; exact absurd h (by simp [Instr.raw])

theorem Sys2Proof.Laws.EncodesItself.tickPeriodChange : EncodesItself.Statement (.tickPeriodChange) := by
  intro _ h; exact absurd h (by simp [Instr.raw])

theorem Sys2Proof.Laws.EncodesItself.detQuantumRelease (e : Nat) : EncodesItself.Statement (.detQuantumRelease e) := by
  intro _ h; exact absurd h (by simp [Instr.raw])

theorem Sys2Proof.Laws.EncodesItself.watchdog (lid : Nat) : EncodesItself.Statement (.watchdog lid) := by
  intro _ h; exact absurd h (by simp [Instr.raw])

theorem Sys2Proof.Laws.EncodesItself.trapRecordWrite (part : Nat) : EncodesItself.Statement (.trapRecordWrite part) := by
  intro _ h; exact absurd h (by simp [Instr.raw])

theorem Sys2Proof.Laws.EncodesItself.ridgeTrapNotify (part : Nat) : EncodesItself.Statement (.ridgeTrapNotify part) := by
  intro _ h; exact absurd h (by simp [Instr.raw])

theorem Sys2Proof.Laws.EncodesItself.handlerAction (part : Nat) (seq : Nat) : EncodesItself.Statement (.handlerAction part seq) := by
  intro _ h; exact absurd h (by simp [Instr.raw])

theorem Sys2Proof.Laws.EncodesItself.preemptionOpen (lid : Nat) : EncodesItself.Statement (.preemptionOpen lid) := by
  intro _ h; exact absurd h (by simp [Instr.raw])

theorem Sys2Proof.Laws.EncodesItself.markerRecord (e : Nat) : EncodesItself.Statement (.markerRecord e) := by
  intro _ h; exact absurd h (by simp [Instr.raw])

theorem Sys2Proof.Laws.EncodesItself.cutComplete (lid : Nat) : EncodesItself.Statement (.cutComplete lid) := by
  intro _ h; exact absurd h (by simp [Instr.raw])

theorem Sys2Proof.Laws.EncodesItself.preemptionAbandon (lid : Nat) : EncodesItself.Statement (.preemptionAbandon lid) := by
  intro _ h; exact absurd h (by simp [Instr.raw])

theorem Sys2Proof.Laws.EncodesItself.preemptionResume (lid : Nat) : EncodesItself.Statement (.preemptionResume lid) := by
  intro _ h; exact absurd h (by simp [Instr.raw])

theorem Sys2Proof.Laws.EncodesItself.replicaVote (part : Nat) (rset : Nat) (dseq : Nat) : EncodesItself.Statement (.replicaVote part rset dseq) := by
  intro _ h; exact absurd h (by simp [Instr.raw])

theorem Sys2Proof.Laws.EncodesItself.snapshotLatch (part : Nat) (external : Bool) : EncodesItself.Statement (.snapshotLatch part external) := by
  intro _ h; exact absurd h (by simp [Instr.raw])

theorem Sys2Proof.Laws.EncodesItself.bridgeReplay (f : FlitAt) : EncodesItself.Statement (.bridgeReplay f) := by
  intro _ h; exact absurd h (by simp [Instr.raw])

theorem Sys2Proof.Laws.EncodesItself.uePacketReceive (k : UePacket) : EncodesItself.Statement (.uePacketReceive k) := by
  intro _ h; exact absurd h (by simp [Instr.raw])

theorem Sys2Proof.Laws.EncodesItself.ptpMessage (port time : Nat) : EncodesItself.Statement (.ptpMessage port time) := by
  intro _ h; exact absurd h (by simp [Instr.raw])

theorem Sys2Proof.Laws.EncodesItself.load (c : Cmd) (ptr : Word) (bytes : List Byte) : EncodesItself.Statement (.load c ptr bytes) := by
  intro _ h; exact absurd h (by simp [Instr.raw])

theorem Sys2Proof.Laws.EncodesItself.start (c : CmdHead) (body : List Byte) : EncodesItself.Statement (.start c body) := by
  intro _ h; exact absurd h (by simp [Instr.raw])

theorem Sys2Proof.Laws.EncodesItself.stop (c : Cmd) (lid : Nat) : EncodesItself.Statement (.stop c lid) := by
  intro _ h; exact absurd h (by simp [Instr.raw])

theorem Sys2Proof.Laws.EncodesItself.query (c : Cmd) (q : QueryKind) : EncodesItself.Statement (.query c q) := by
  intro _ h; exact absurd h (by simp [Instr.raw])

theorem Sys2Proof.Laws.EncodesItself.attest (c : CmdHead) (nonce : List Byte) : EncodesItself.Statement (.attest c nonce) := by
  intro _ h; exact absurd h (by simp [Instr.raw])

theorem Sys2Proof.Laws.EncodesItself.thatchCommand (c : CmdHead) (image : List Byte) : EncodesItself.Statement (.thatchCommand c image) := by
  intro _ h; exact absurd h (by simp [Instr.raw])

theorem Sys2Proof.Laws.EncodesItself.mapPage (c : Cmd) (off : Nat) (level : Nat) (entry : Word) : EncodesItself.Statement (.mapPage c off level entry) := by
  intro _ h; exact absurd h (by simp [Instr.raw])

theorem Sys2Proof.Laws.EncodesItself.setTickPeriod (c : Cmd) (period : TickSetting) : EncodesItself.Statement (.setTickPeriod c period) := by
  intro _ h; exact absurd h (by simp [Instr.raw])

theorem Sys2Proof.Laws.EncodesItself.setTickEpoch (c : Cmd) (epoch : Nat) : EncodesItself.Statement (.setTickEpoch c epoch) := by
  intro _ h; exact absurd h (by simp [Instr.raw])

theorem Sys2Proof.Laws.EncodesItself.setWdt (c : Cmd) (ticks : Nat) : EncodesItself.Statement (.setWdt c ticks) := by
  intro _ h; exact absurd h (by simp [Instr.raw])

theorem Sys2Proof.Laws.EncodesItself.setSnapshotTick (c : Cmd) (tick : Nat) : EncodesItself.Statement (.setSnapshotTick c tick) := by
  intro _ h; exact absurd h (by simp [Instr.raw])

theorem Sys2Proof.Laws.EncodesItself.bind (c : Cmd) (b : BindReq) : EncodesItself.Statement (.bind c b) := by
  intro _ h; exact absurd h (by simp [Instr.raw])

theorem Sys2Proof.Laws.EncodesItself.handler (c : Cmd) (rec : Vec) (logBase : Nat) : EncodesItself.Statement (.handler c rec logBase) := by
  intro _ h; exact absurd h (by simp [Instr.raw])

theorem Sys2Proof.Laws.EncodesItself.reclaim (c : Cmd) : EncodesItself.Statement (.reclaim c) := by
  intro _ h; exact absurd h (by simp [Instr.raw])

theorem Sys2Proof.Laws.EncodesItself.moduleReset (modpos : BitVec 6) (bootsrc : Bool) (recov : Bool) : EncodesItself.Statement (.moduleReset modpos bootsrc recov) := by
  intro _ h; exact absurd h (by simp [Instr.raw])

theorem Sys2Proof.Laws.EncodesItself.powerLoss : EncodesItself.Statement (.powerLoss) := by
  intro _ h; exact absurd h (by simp [Instr.raw])

theorem Sys2Proof.Laws.EncodesItself.thermalThrottle (die : Nat) (hot : Bool) : EncodesItself.Statement (.thermalThrottle die hot) := by
  intro _ h; exact absurd h (by simp [Instr.raw])

theorem Sys2Proof.Laws.EncodesItself.thermalShutdown : EncodesItself.Statement (.thermalShutdown) := by
  intro _ h; exact absurd h (by simp [Instr.raw])

theorem Sys2Proof.Laws.EncodesItself.functionReady (f : ReadyFn) : EncodesItself.Statement (.functionReady f) := by
  intro _ h; exact absurd h (by simp [Instr.raw])

theorem Sys2Proof.Laws.EncodesItself.memoryScrub (granule : Nat) (err : SoftErr) : EncodesItself.Statement (.memoryScrub granule err) := by
  intro _ h; exact absurd h (by simp [Instr.raw])
end

