-- ==== Sys2Proof/Laws/Signature.lean ====
section
/-! SUPPORT. A signature that verifies exists for every message: under a key whose exponent is 1 the encoded message is its own signature (R154, R365). -/

namespace Sys2Proof.Machine

theorem natOfBytes_lt (l : List Byte) : natOfBytes l < 2 ^ (8 * l.length) := by
  induction l with
  | nil => simp [natOfBytes]
  | cons b r ih =>
    have hb := b.isLt
    have h : 2 ^ (8 * (b :: r).length) = 256 * 2 ^ (8 * r.length) := by rw [List.length_cons, Nat.mul_add, Nat.pow_add]; ring
    rw [h, natOfBytes]
    omega

theorem bytesOfNat_succ (k n : Nat) : bytesOfNat (k + 1) n = BitVec.ofNat 8 n :: bytesOfNat k (n / 256) := by
  simp only [bytesOfNat, List.range_succ_eq_map, List.map_cons, List.map_map]
  congr 1
  · simp
  · refine List.map_congr_left fun i _ => ?_
    have h : 2 ^ (8 * (i + 1)) = 256 * 2 ^ (8 * i) := by rw [Nat.mul_add, Nat.pow_add]; ring
    simp only [Function.comp, Nat.succ_eq_add_one, h, Nat.div_div_eq_div_mul]

theorem bytesOfNat_natOfBytes (l : List Byte) : bytesOfNat l.length (natOfBytes l) = l := by
  induction l with
  | nil => rfl
  | cons b r ih =>
    have hb := b.isLt
    have hd : natOfBytes (b :: r) / 256 = natOfBytes r := by rw [natOfBytes]; omega
    rw [List.length_cons, bytesOfNat_succ, hd, ih]
    congr 1
    apply BitVec.eq_of_toNat_eq
    simp only [natOfBytes, BitVec.toNat_ofNat]
    omega

theorem natOfOctets_eq (l : List Byte) : natOfOctets l = natOfBytes l.reverse := by
  have h : ∀ (l : List Byte) n, l.foldl (fun n b => 256 * n + b.toNat) n = natOfBytes l.reverse + n * 256 ^ l.length := by
    intro l
    induction l with
    | nil => simp [natOfBytes]
    | cons b r ih =>
      have app : ∀ (x : List Byte) y, natOfBytes (x ++ [y]) = natOfBytes x + y.toNat * 256 ^ x.length := by
        intro x y
        induction x with
        | nil => simp [natOfBytes]
        | cons z w iw => simp only [List.cons_append, natOfBytes, iw, List.length_cons, Nat.pow_succ]; ring
      intro n
      simp only [List.foldl_cons, ih, List.reverse_cons, app, List.length_reverse, List.length_cons, Nat.pow_succ]
      ring
  simpa [natOfOctets] using h l 0

theorem octetsOf_natOfOctets (l : List Byte) : octetsOf l.length (natOfOctets l) = l := by
  have h := bytesOfNat_natOfBytes l.reverse
  rw [List.length_reverse] at h
  rw [octetsOf, natOfOctets_eq, h, List.reverse_reverse]

theorem powMod_one (n k x : Nat) (hn : 1 < n) (hx : x < n) : powMod n (k + 1) x 1 = x := by
  have zero : ∀ k b, powMod n k b 0 = 1 := by
    intro k
    induction k with
    | zero => intro b; simp [powMod, Nat.mod_eq_of_lt hn]
    | succ k ih => intro b; simp [powMod, ih, Nat.mod_eq_of_lt hn]
  simp [powMod, zero, Nat.mod_eq_of_lt hx]

theorem xor_twice : ∀ a b : List Byte, a.length ≤ b.length → List.zipWith (fun x y => x ^^^ y) (List.zipWith (fun x y => x ^^^ y) a b) b = a
  | [], _, _ => by simp
  | x :: a, [], h => by simp at h
  | x :: a, y :: b, h => by
    simp only [List.zipWith_cons_cons, xor_twice a b (by simpa using h), BitVec.xor_assoc, BitVec.xor_self, BitVec.xor_zero]

theorem vecBytes_length (v : Vec) : (vecBytes v).length = 64 := by simp [vecBytes, bytesOfNat]

theorem mgf1_cons (h : List Byte) : ∃ m r, mgf1 h 7 = m :: r ∧ 446 ≤ r.length := by
  have hl : (mgf1 h 7).length = 448 := by simp [mgf1, List.length_flatMap, vecBytes_length]
  match hm : mgf1 h 7 with
  | [] => simp [hm] at hl
  | m :: r => exact ⟨m, r, rfl, by rw [hm, List.length_cons] at hl; omega⟩

/-- Every message has an encoded message. -/
theorem pssEncoded_exists (msg : List Byte) : ∃ em, em.length = 512 ∧ pssEncoded msg em = true := by
  let h := vecBytes (sha512 (List.replicate 8 0 ++ vecBytes (sha512 msg) ++ List.replicate 64 0))
  let ls : List Byte := (List.replicate 381 0 ++ [1]) ++ List.replicate 64 0
  obtain ⟨m, r, hm, hr⟩ := mgf1_cons h
  have hh : h.length = 64 := vecBytes_length _
  let masked := (m &&& 0x7F) :: List.zipWith (fun x y => x ^^^ y) ls r
  have hls : ls.length = 446 := by simp only [ls, List.length_append, List.length_replicate, List.length_cons, List.length_nil]
  have hmask : masked.length = 447 := by simp only [masked, List.length_cons, List.length_zipWith, hls]; omega
  refine ⟨masked ++ (h ++ [0xBC]), by simp [hmask, hh], ?_⟩
  have t : (masked ++ (h ++ [0xBC])).take 447 = masked := List.take_left' hmask
  have d : (masked ++ (h ++ [0xBC])).drop 447 = h ++ [0xBC] := List.drop_left' hmask
  have u : ((masked ++ (h ++ [0xBC])).drop 447).take 64 = h := by rw [d]; exact List.take_left' hh
  have b : ∀ m : Byte, ((m &&& 0x7F) ^^^ m) &&& 0x7F = 0 := by decide
  have s : ∀ m : Byte, (m &&& 0x7F).toNat < 128 := by decide
  have x : List.zipWith (fun x y => x ^^^ y) masked (mgf1 h 7) = ((m &&& 0x7F) ^^^ m) :: ls := by
    rw [hm, List.zipWith_cons_cons, xor_twice ls r (by omega)]
  have e : (masked ++ (h ++ [0xBC])).getD 511 0 = 0xBC := by
    rw [List.getD_append_right _ _ _ _ (by omega), hmask, List.getD_append_right _ _ _ _ (by omega), hh]; rfl
  have z : (masked ++ (h ++ [0xBC])).length = 512 := by simp [hmask, hh]
  simp only [pssEncoded, t, u, x, e, z, b]
  have hp : (0 :: (List.replicate 381 0 ++ [1]) : List Byte) = List.replicate 382 0 ++ [1] := by rw [List.replicate_succ (n := 381), List.cons_append]
  have hq : (List.replicate 382 0 ++ [1] : List Byte).length = 383 := by
    simp only [List.length_append, List.length_replicate, List.length_cons, List.length_nil]
  have hw : (0 :: ls : List Byte) = (List.replicate 382 0 ++ [1]) ++ List.replicate 64 0 := by rw [← hp, List.cons_append]
  rw [hw, List.drop_left' hq, List.take_left' hq]
  have hf : (masked ++ (h ++ [0xBC])).getD 0 0 = m &&& 0x7F := rfl
  simp only [hf, s, decide_true, beq_self_eq_true, Bool.and_self, Bool.true_and, h]

theorem pssVerify_self (n : Nat) (msg em : List Byte) (hn : 1 < n) (hl : em.length = 512) (he : pssEncoded msg em = true) (hlt : natOfOctets em < n) :
    pssVerify n 1 msg em = true := by
  have hp : powMod n (4095 + 1) (natOfOctets em) 1 = natOfOctets em := powMod_one n 4095 _ hn hlt
  have ho := octetsOf_natOfOctets em
  rw [hl] at ho
  rw [pssVerify]
  simp only [hp, ho, he, hl, hlt, decide_true, beq_self_eq_true, Bool.and_self]

/-- Every message has a signature under the modulus 2^4096 and the exponent 1. -/
theorem pssVerify_exists (msg : List Byte) : ∃ sig, pssVerify (2 ^ 4096) 1 msg sig = true := by
  obtain ⟨em, hl, he⟩ := pssEncoded_exists msg
  have hlt : natOfOctets em < 2 ^ 4096 := by
    have := natOfBytes_lt em.reverse
    rwa [List.length_reverse, hl, ← natOfOctets_eq] at this
  exact ⟨em, pssVerify_self _ msg em (Nat.one_lt_two_pow (by decide)) hl he hlt⟩

end Sys2Proof.Machine
end

