-- ==== Sys2Proof/Tests/Slice0.lean ====
section
/-! SUPPORT. Tests: ill-formed terms that are refused, words of the manual written out and decoded, one step at a time on small states, and a
state and operands that meet the hypotheses of each statement. -/

set_option Elab.async false

namespace Sys2Proof.Tests

open Sys2Proof Sys2Proof.Machine Sys2Proof.Safety

/-! ## Small states -/

/-- Element 0 in a firing whose slot 0 holds NOP. -/
def base : State := State.reset.withFetchWord 32 0

/-- Scalars on the ports of slot 0. -/
def ports (a b c : Word) (s : State) : State :=
  s.modFiring 0 fun f => f.modSlot 0 fun z => { z with a := some (.s a), b := some (.s b), c := some (.s c) }

/-- Vectors on the ports of slot 0. -/
def vports (a b c : Vec) (s : State) : State :=
  s.modFiring 0 fun f => f.modSlot 0 fun z => { z with a := some (.v a), b := some (.v b), c := some (.v c) }

/-- The firing's actor as a function changes it. -/
def actor (f : Actor → Actor) (s : State) : State := s.modActor 0 0 f

/-- A LOCAL pointer of element 0. -/
def loc (off : Nat) : Word := mkPtr 2 0 off

/-- The state that an operation leaves. -/
def after (r : Host.Outcome State Fault Refusal) : State := match r with | .next t => t | .fault _ | .refused _ => State.reset

/-- The values that the firing on element 0 holds for keep registers, and the flags it has raised. -/
def kept (r : Host.Outcome State Fault Refusal) : List Nat × Nat :=
  match (after r).firing? 0 with | some f => (f.keepW.map (·.val.toNat), f.flags.toNat) | none => ([], 99)

/-- The vector on port A of slot 1, and the flags. -/
def vec1 (r : Host.Outcome State Fault Refusal) : Option Value × Nat :=
  match (after r).firing? 0 with
  | some f => (match f.slotAt 1 with | some z => z.a | none => none, f.flags.toNat)
  | none => (none, 99)

/-- The codes of the trap records that wait in partition 0. -/
def codes (r : Host.Outcome State Fault Refusal) : List TrapCode := ((after r).part 0).pending.map (·.code)

/-- Slot 1 of the block is an empty slot of an instruction. -/
def room : State := base.modFiring 0 fun f => f.modSlot 1 fun z => { z with kind := .ins }

/-- A keep register as consumer. -/
def k1 : Target := .keep 1

/-- Port A of slot 1 as consumer. -/
def s1a : Target := .slot 1 .a

/-! ## Instructions on values of the manual -/
/-- R35. -/
theorem test_add_wraps : kept (exec (.add .always .i16 k1 .discard) (ports 0x7FFF 1 0 base)) = ([0xFFFFFFFFFFFF8000], 0) := by decide
/-- R190, chapter 08: 12,150 × 3 wraps to −29,086. -/
theorem test_mul_wraps : kept (exec (.mul .always .i16 k1 .discard) (ports 12150 3 0 base)) = ([0xFFFFFFFFFFFF8E62], 0) := by decide
theorem test_sub_unsigned : kept (exec (.sub .always .n8 k1 .discard) (ports 1 2 0 base)) = ([0xFF], 0) := by decide
/-- R187's text: DIV.I8 of −128 by −1, REM.I8 of the same, SAR.N16 of 0x8000 by 3. -/
theorem test_div : kept (exec (.div .always .i8 k1 .discard) (ports 0x80 0xFF 0 base)) = ([0xFFFFFFFFFFFFFF80], 0) := by decide
theorem test_rem : kept (exec (.rem .always .i8 k1 .discard) (ports 0x80 0xFF 0 base)) = ([0], 0) := by decide
theorem test_sar : kept (exec (.sar .always .n16 k1 .discard) (ports 0x8000 3 0 base)) = ([0xF000], 0) := by decide
theorem test_div_zero : kept (exec (.div .always .n32 k1 .discard) (ports 5 0 0 base)) = ([0xFFFFFFFF], 0) := by decide
theorem test_mulh : kept (exec (.mulh .always .i32 k1 .discard) (ports 0xFFFFFFFF 1 0 base)) = ([0xFFFFFFFFFFFFFFFF], 0) := by decide
/-- R75: IMM.I4 #9, IMM.N8 #300, IMM.F16 #−256. -/
theorem test_imm_i4 : kept (exec (.imm .always .i4 k1 9) base) = ([0xFFFFFFFFFFFFFFF9], 0) := by decide
theorem test_imm_n8 : kept (exec (.imm .always .n8 k1 300) base) = ([44], 0) := by decide
theorem test_imm_f16 : kept (exec (.imm .always .f16 k1 256) base) = ([0xDC00], 0) := by decide
/-- R37, R38, R45: NaN, ∞ − ∞, a division by 0, and the sum of a number and its negative. -/
theorem test_fadd_nan : kept (exec (.fadd .always .f32 k1 .discard) (ports 0x7F800001 0 0 base)) = ([0x7FC00000], 1) := by decide
theorem test_fsub_inf : kept (exec (.fsub .always .f32 k1 .discard) (ports 0x7F800000 0x7F800000 0 base)) = ([0x7FC00000], 1) := by decide
theorem test_fdiv_zero : kept (exec (.fdiv .always .f32 k1 .discard) (ports 0x3F800000 0x80000000 0 base)) = ([0xFF800000], 2) := by decide
theorem test_fsub_zero : kept (exec (.fsub .always .f32 k1 .discard) (ports 0x3F800000 0x3F800000 0 base)) = ([0], 0) := by decide
/-- R50's worked sum: 2^24 + 1 is a tie. -/
theorem test_fadd_tie : kept (exec (.fadd .always .f32 k1 .discard) (ports 0x4B800000 0x3F800000 0 base)) = ([0x4B800000], 16) := by decide
theorem test_fex2 : kept (exec (.fex2 .always .f32 k1 .discard) (ports 0x40400000 0 0 base)) = ([0x41000000], 0) := by decide
theorem test_flg2 : kept (exec (.flg2 .always .f32 k1 .discard) (ports 0x41000000 0 0 base)) = ([0x40400000], 0) := by decide
theorem test_fsqrt : kept (exec (.fsqrt .always .f32 k1 .discard) (ports 0xBF800000 0 0 base)) = ([0x7FC00000], 1) := by decide
/-- R206's worked value. -/
theorem test_rngc : kept (exec (.rngc .always false false k1 .discard) (ports 0 1 0 base)) = ([0xF333DB84], 0) := by decide
/-- R50's reduction: 2^24, 1, 1, 1. -/
theorem test_vred : kept (exec (.vred .always .f32 k1 false .add)
    (vports 0x3F8000003F8000003F8000004B800000 0 0 base)) = ([0x4B800001], 16) := by decide +kernel
/-- R42's example. -/
theorem test_vcvt_stochastic : vec1 (exec (.vcvt .always .bf16 s1a true 0 .f32)
    (vports 0x3F804000 0 0x3FFFFFFF room)) = (some (.v 0x3F81), 16) := by decide +kernel
/-- R214's pointer, taken apart. -/
theorem test_pown : kept (exec (.pown .always k1 .discard) (ports 0x2254C00000000100 0 0 base)) = ([0x953], 0) := by decide
theorem test_poff : kept (exec (.poff .always k1 .discard) (ports 0x2254C00000000100 0 0 base)) = ([0x100], 0) := by decide
/-- R225: a store and a load of local memory, and a misaligned one. -/
theorem test_stl : ((after (exec (.stl .always .i32) (ports (loc 0x100) 0x11223344 0 base))).mem.map fun c => (c.1, c.2.toNat)) =
    [(2 ^ 49 + 0x100, 0x44), (2 ^ 49 + 0x101, 0x33), (2 ^ 49 + 0x102, 0x22), (2 ^ 49 + 0x103, 0x11)] := by decide
theorem test_ldl_misaligned : codes (exec (.ldl .always .i32 k1 .discard) (ports (loc 0x102) 0 0 base)) = [.alignment] := by decide
/-- R184. -/
theorem test_trap : codes (exec (.trap .always 5) base) = [.softwareTrap] := by decide
theorem test_exit : ((after (exec (.exit .always 0) (actor (fun x => { x with desc := { x.desc with entry := List.replicate 8 0 } }) base))).firing? 0).map (·.exit) =
  some (some (.exit 0)) := by decide
/-! ## Ill-formed terms are refused, one for each check -/

/-- R187. -/
theorem test_ill_ints : Instr.wf (.add .always .f32 .discard .discard) = false := by decide
/-- R187. -/
theorem test_ill_imm_ints : Instr.wf (.addi .always .f32 .discard 0) = false := by decide
/-- R194. -/
theorem test_ill_floats : Instr.wf (.fadd .always .i32 .discard .discard) = false := by decide
/-- R200. -/
theorem test_ill_vectors : Instr.wf (.vadd .always .e4m3 .discard .discard) = false := by decide
/-- R225. -/
theorem test_ill_bytes : Instr.wf (.ldl .always .i4 .discard .discard) = false := by decide
/-- R74. -/
theorem test_ill_literal : Instr.wf (.lit .always .i8 .discard .discard 0x80) = false := by decide
/-- R75. -/
theorem test_ill_imm : Instr.wf (.imm .always .e5m2 .discard 0) = false := by decide
/-- R181. -/
theorem test_ill_rdsr : Instr.wf (.rdsr .always .discard 16) = false := by decide
/-- R181. -/
theorem test_ill_wrsr : Instr.wf (.wrsr .always 0) = false := by decide
/-- R188. -/
theorem test_ill_testb : Instr.wf (.testb .always .discard 64) = false := by decide
/-- R217. -/
theorem test_ill_lea : Instr.wf (.lea .always 7 .discard .discard) = false := by decide
/-- R185. -/
theorem test_ill_peek_vector : Instr.wf (.peek .always 2 .discard true 0 0) = false := by decide
/-- R185. -/
theorem test_ill_peek_type : Instr.wf (.peek .always 15 .discard false 0 0) = false := by decide
/-- R199. -/
theorem test_ill_vcvt : Instr.wf (.vcvt .always .f32 .discard false 4 .e4m3) = false := by decide
/-- R204. -/
theorem test_ill_vtopk : Instr.wf (.vtopk .always .f32 .discard false 16) = false := by decide
/-- R205. -/
theorem test_ill_vdot : Instr.wf (.vdot .always .bf16 .discard true .bf16) = false := by decide
/-- R208. -/
theorem test_ill_lglen : Instr.wf (.lglen .always .discard false 3) = false := by decide
/-- R299. -/
theorem test_ill_atom : Instr.wf (.atom .always .i16 .discard .add) = false := by decide
/-- R299. -/
theorem test_ill_cas : Instr.wf (.cas .always .f32 .discard .discard) = false := by decide
/-- R301. -/
theorem test_ill_vatom : Instr.wf (.vatom .always .f32 .discard .min) = false := by decide
/-- R302. -/
theorem test_ill_faadd : Instr.wf (.faadd .always .f16 .discard false) = false := by decide
/-- R259. -/
theorem test_ill_fscan_root : Instr.wf (.fscan .always .discard .discard 1 0 0 true) = false := by decide
/-- R259. -/
theorem test_ill_fscan_depth : Instr.wf (.fscan .always .discard .discard 0 0 3 false) = false := by decide
/-- R256. -/
theorem test_ill_fisect : Instr.wf (.fisect .always 1 .discard true false) = false := by decide
/-- R256. -/
theorem test_ill_funion : Instr.wf (.funion .always 0 .discard true true) = false := by decide
/-- R263. -/
theorem test_ill_fstop : Instr.wf (.fstop .always 0 1 0 0) = false := by decide
/-- R59. -/
theorem test_ill_target : Instr.wf (.pnot .always (.orig false) .discard) = false := by decide
/-- R59. -/
theorem test_ill_target_reserved : Instr.wf (.pnot .always .discard (.reserved 0x11)) = false := by decide
/-- R6. -/
theorem test_ill_rank : Instr.wf (.firingSelection 16384) = false := by decide
/-- R9. -/
theorem test_ill_actor : Instr.wf (.actorRetirement 0 8) = false := by decide
/-- R240. -/
theorem test_ill_engine : Instr.wf (.engineCommandExecute 0 8) = false := by decide
/-- R106. -/
theorem test_ill_partition : Instr.wf (.trapRecordWrite 32) = false := by decide
/-- R365. -/
theorem test_ill_channel : Instr.wf (.reclaim ⟨33, 0, [], []⟩) = false := by decide
/-- R1. -/
theorem test_ill_die : Instr.wf (.thermalThrottle 64 true) = false := by decide

/-! ## Words written out by the manual -/

/-- Words of the early multiplexer program, chapter 08. -/
theorem test_words_08 :
    [0x64140800, 0x03001E0B, 0x648A4610, 0x644A4620, 0x67020061, 0x0B020000].map (fun w => decodeWords [w]) =
      [.ok (.peek .always 5 (.slot 1 .a) false 0 0, []), .ok (.mov .always false (.slot 3 .p) (.slot 2 .p), []), .ok (.peek .onFalse 2 (.out 3) false 1 0, []), .ok (.peek .onTrue 2 (.out 3) false 2 0, []), .ok (.advw .always false 3 1, []), .ok (.exit .always 0, [])] := by decide +kernel
/-- Words of the top-p program, chapter 10. -/
theorem test_words_10 :
    [0x87205002, 0x8D20980F, 0x8D21588F, 0x2A1CE2CD, 0x6F010900, 0x5F212805, 0x52214100].map (fun w => decodeWords [w]) =
      [.ok (.vred .always .f32 (.slot 10 .a) false .max, []), .ok (.vtopk .always .f32 (.slot 19 .a) false 15, []), .ok (.vtopk .always .f32 (.slot 43 .a) true 15, []), .ok (.min .always .n64 (.slot 28 .b) (.slot 51 .b), []), .ok (.rngc .always false false (.slot 33 .a) .discard, []), .ok (.cvt .always .f32 (.slot 37 .a) .n32, []), .ok (.fmul .always .f32 (.slot 40 .a) .discard, [])] := by decide +kernel
/-- Words of the sparse program, chapter 13. -/
theorem test_words_13 :
    [0x05001000, 0x225E0201, 0xCA000801, 0x6C820020, 0xCD520020, 0xCD560020].map (fun w => decodeWords [w]) =
      [.ok (.rdk .always (.slot 2 .a) false 0, []), .ok (.addi .onTrue .n64 (.keep 0) 1, []), .ok (.funion .always 0 (.slot 1 .a) false true, []), .ok (.emit .onFalse 0 false 2 0, []), .ok (.fstop .onTrue 1 0 2 0, []), .ok (.fstop .onTrue 1 1 2 0, [])] := by decide +kernel
/-- Words of the mixture-of-experts program, chapter 17. -/
theorem test_words_17 :
    [0x64002100, 0x820C2300, 0x72245B00, 0x6B003000, 0x371C520A, 0xAB020100, 0x66020001, 0x44056003, 0x65020130, 0x67060060, 0x05005100, 0x06020100, 0xAA04DB00].map (fun w => decodeWords [w]) =
      [.ok (.peek .always 0 (.slot 4 .a) true 0 0, []), .ok (.vbcast .always .n16 (.slot 4 .b) .discard, []), .ok (.vmul .always .bf16 (.slot 11 .b) .discard, []), .ok (.tkind .always (.slot 6 .a) 0 0, []), .ok (.shri .always .n64 (.slot 10 .b) 10, []), .ok (.stgv .always false .discard .discard, []), .ok (.advr .always false 0 1, []), .ok (.cmpeqi .always .n8 (.slot 44 .a) 3, []), .ok (.poke .always true 3 0, []), .ok (.advw .always true 3 0, []), .ok (.rdk .always (.slot 10 .a) true 0, []), .ok (.wrk .always true 0, []), .ok (.ldgv .always false .ge (.slot 27 .b) .discard, [])] := by decide +kernel
/-- Words of the credit-chain program, chapter 19. -/
theorem test_words_19 :
    [0xD5002834, 0xD4020100, 0x48009700, 0xD6420100, 0x421CD66F].map (fun w => decodeWords [w]) =
      [.ok (.chrecv .always (.slot 5 .a) (.slot 13 .a), []), .ok (.chsend .always .discard .discard, []), .ok (.pand .always (.slot 18 .p) .discard, []), .ok (.chcred .onTrue .discard .discard, []), .ok (.cmplt .always .n64 (.slot 26 .p) (.slot 27 .p), [])] := by decide +kernel
/-- R259, R262: literal words follow; a prefix is no instruction. -/
theorem test_words_literal : decodeWords [0xCC220100, 0x01000000] = .ok (.fred .always .f32 .discard .discard 0 1 0 false .add, []) ∧
    decodeWords [0xCC202700, 0x01500000] = .ok (.fred .always .f32 (.slot 4 .p) .discard 0 1 1 true .add, []) ∧
    decodeWords [0x01241900, 0x4000] = .ok (.lit .always .bf16 (.slot 3 .a) .discard 0x4000, []) ∧
    decodeWords [0x011C5100, 1, 2] = .ok (.lit .always .n64 (.slot 10 .a) .discard 0x200000001, []) := by decide +kernel

/-- The fields of R55 put together. -/
def fields (op pr ty t0 t1 : Nat) : IWord := BitVec.ofNat 32 (op * 2 ^ 24 + pr * 2 ^ 22 + ty * 2 ^ 18 + t0 * 2 ^ 9 + t1)


/-- R184, R186. -/
theorem test_fields_control : decodeWords [fields 0x0D 0 0 0x100 0x100] = .ok (.retire .always, []) := by decide +kernel
/-- R217. -/
theorem test_fields_pointer : decodeWords [fields 0x4E 0 3 0x101 0x1FF] = .ok (.padd .always 3 (.keep 0) 511, []) := by decide +kernel
/-- R208 to R210. -/
theorem test_fields_lanes : decodeWords [fields 0x94 0 0 0x101 0b0_0010_0011] = .ok (.lgpack .always (.keep 0) 2 3, []) := by decide +kernel
/-- R225. -/
theorem test_fields_local : decodeWords [fields 0xA2 0 0b0010 0x101 0x100] = .ok (.ldlv .always true false (.keep 0) .discard, []) := by decide +kernel
/-- R225. -/
theorem test_fields_full_empty : decodeWords [fields 0xA4 0 1 0x100 0x100] = .ok (.feset .always true, []) := by decide +kernel
/-- R299. -/
theorem test_fields_atomic : decodeWords [fields 0xB2 2 5 0x101 0x100] = .ok (.cas .onFalse .n32 (.keep 0) .discard, []) := by decide +kernel
/-- R247. -/
theorem test_fields_engine : decodeWords [fields 0xB8 0 0b0101 0x101 0x100] = .ok (.qcopy .always false 5 (.keep 0) .discard, []) := by decide +kernel
/-- R277. -/
theorem test_fields_matrix : decodeWords [fields 0xC3 0 1 0x101 0x100] = .ok (.mscale .always .mx (.keep 0) .discard, []) := by decide +kernel
/-- R308. -/
theorem test_fields_bar : decodeWords [fields 0xD0 0 0 0x101 0x100] = .ok (.bar .always (.keep 0) .discard, []) := by decide +kernel
/-- R312. -/
theorem test_fields_wreg : decodeWords [fields 0xD1 0 1 0x101 0x100] = .ok (.wreg .always true (.keep 0) .discard, []) := by decide +kernel
/-- R124. -/
theorem test_fields_launch : decodeWords [fields 0xE3 1 0 0x101 0x100] = .ok (.splice .onTrue (.keep 0) .discard, []) := by decide +kernel
/-- R144. -/
theorem test_fields_fetch : decodeWords [fields 0xE9 0 1 0x100 0x100] = .ok (.ipin .always true, []) := by decide +kernel
/-- R157. -/
theorem test_fields_thatch : decodeWords [fields 0xF0 0 0 0x101 0x100] = .ok (.thatch .always (.keep 0) .discard, []) := by decide +kernel

/-! ## States and operands that meet the hypotheses of the statements -/

/-- The firing and the actor of the word that issues meet a test. -/
def on (s : State) (p : Firing → Actor → Bool) : Bool := match s.here with | some (f, x) => p f x | none => false

/-- The launch is deterministic. -/
def det (s : State) : State := s.modLaunch 1 fun l => { l with recd := l.recd ||| BitVec.twoPow 512 43 }

/-- PFX.SAT stands in slot 0, and the word in slot 1 issues. -/
def sat : State :=
  { base.modFiring 0 fun f => f.modSlot 0 fun z => { z with kind := .pfx, word := 0x10000000 } with focus := ⟨0, 1⟩ }

/-- An input handle and an output handle of rate 1. -/
def hin : HandleWord := { used := true, out := false, var := false, tile := false, rate := 1, max := 1 }
def hout : HandleWord := { hin with out := true }

/-- An edge between two handles of actors 0. -/
def edge (p ph c ch : Nat) : Edge :=
  { lid := 1, g := 0, eidx := 0, prank := p, pla := 0, ph, crank := c, cla := 0, ch, depth := 64, bridges := [], fifo := [], link := [],
    arrived := 0, burst := none, owed := 0, antis := 0, lastCrd := none, lastKind := none, marker := none, dropping := false, det := false, quantum := false }

/-- The actor has an input on handle 0, on which some tokens stand, and an output on handle 1. -/
def wired (l : List Token) : State :=
  { actor (fun x => { x with desc := { x.desc with hnd := [hin, hout] } }) base with
    edges := [{ edge 1 1 0 0 with fifo := l.zipIdx.map fun t => ⟨t.1, t.2⟩ }, edge 0 1 2 0] }

/-- A record in local memory, named by port A. -/
def recorded (r : Vec) (s : State) : State := (ports (loc 0x100) 0 0 s).writeBytes (localKey 0 0x100) (vecBytes r)

/-- The checks of `localOk`, as a test. -/
def localBool (s : State) (n : Nat) : Bool :=
  ptrSpace (s.portS .a) == 2 && ptrOwner (s.portS .a) == s.focus.rank && ptrOff (s.portS .a) % n == 0 && decide (ptrOff (s.portS .a) + n ≤ 32768) &&
    !s.meetsFifo s.focus.rank (ptrOff (s.portS .a)) n

/-- EncodeDecodeRoundTrip, DecodingKeepsEveryBit. -/
theorem test_wit_roundtrip : ([.nop .always, .lit .always .i64 (.slot 63 .p) .discard 0xFFFFFFFFFFFFFFFF, .br .onFalse 0xFFFFFFFF] : List Instr).all
    (fun i => i.wf && i.raw.isSome) = true := by decide +kernel

/-- DecodedWords: the opcodes at the ends of the unassigned ranges. -/
theorem test_wit_unassigned : [0x10, 0x13, 0x15, 0x1F, 0x98, 0x9F, 0xA7, 0xB7, 0xBD, 0xBF, 0xDE, 0xDF, 0xE6, 0xE7, 0xEC, 0xEF, 0xF4, 0xFF].all
    (fun op => (decodeIns (BitVec.ofNat 32 (op * 2 ^ 24)) 0 0).isNone) = true := by decide +kernel

/-- StepRunsDecoded: an issue, a predicated issue, an event, and no power. -/
def issuing (s : State) : Bool :=
  s.power && (match s.turn.op with
    | .issue rank id => match s.active rank with
      | some (f, x) => match f.slotAt id with
        | some sl => sl.kind == .ins && !sl.issued && (match decodeIns sl.word 0 0 with
          | some i => (portUseOf i .a == .none || sl.a.isSome) && (portUseOf i .b == .none || sl.b.isSome) && (portUseOf i .c == .none || sl.c.isSome) &&
              !((s.taken.upset s.turn.upset).pass s.turn.dt).stalls rank id i
          | none => false) && (sl.word.toNat / 2 ^ 22 % 4 == 0 || (match sl.p with | some v => !senseWrong sl.word v | none => false)) && f.gateMet id &&
            ((s.taken.upset s.turn.upset).pass s.turn.dt).inTurn rank f id && s.running x.lid && !s.ringFrozen x.lid
        | none => false
      | none => false
    | .event _ => false)
theorem test_wit_issue : issuing (State.reset.withFetchWord 32 0x200A0900) = true ∧ issuing (State.reset.withFetchWord 32 0x204A0900) = true := by decide +kernel
theorem test_wit_event : ({ State.reset with agenda := [⟨.event .tickBoundary, 0, []⟩] } : State).power = true ∧ Instr.raw .tickBoundary = none := by decide +kernel

/-- StepKeepsMemoryForm, EveryOperationGoesOn. -/
theorem test_wit_form : Memory.wf base.mem = true ∧ base.power = true ∧ (after (step base)).focus = ⟨0, 0⟩ ∧ (after (step base)).launches ≠ [] := by decide +kernel

/-- IntegerArithmetic, Shifts: a divisor of 0 and another, with and without PFX.SAT. -/
theorem test_wit_integers : opd (ports 5 0 0 base) .n32 .b = 0 ∧ opd (ports 5 1 0 base) .n32 .b ≠ 0 ∧ sat.effSat = true ∧ base.effSat = false := by decide +kernel

/-- ConstantsAndMoves, RegisterReadsAndHeldWrites: a word of a firing, in a launch that is not deterministic, and in one that is. -/
theorem test_wit_here : (on base fun _ x => (base.launch? x.lid).any fun l => !l.det) = true ∧ (on (det base) fun _ _ => (det base).hereDet) = true := by decide +kernel

/-- A launch whose image has code with a header at words 0 and 2. -/
def coded : State := actor (fun x => { x with range := (0, 4) }) (base.modLaunch 1 fun l => { l with img := l.img.map fun im =>
  { im with code := [0, 0, 0, 0], starts := [true, false, true, false] } })

/-- ExitRequests, PreciseFaults. -/
theorem test_wit_branch : (on (ports 2 0 0 coded) fun f x => f.exit.isNone && coded.running x.lid && !f.cancel &&
    match coded.launch? x.lid with
    | some l => match l.img with
      | some im => decide (2 < im.code.length ∧ x.range.1 ≤ 2 ∧ 2 < x.range.2) && im.starts.getD 2 false
      | none => false
    | none => false) = true := by decide +kernel
theorem test_wit_exit : (on (actor (fun x => { x with desc := { x.desc with entry := List.replicate 8 0 } }) base) fun f x =>
    f.exit.isNone && x.desc.entry.getD 7 0xFFFF != 0xFFFF && x.desc.entry.getD f.phase 0xFFFF != 0xFFFF) = true := by decide +kernel
theorem test_wit_noExit : (on base fun f x => f.exit.isNone && x.desc.entry.getD 7 0xFFFF == 0xFFFF && base.fltSlot 1 (lidPart x.lid) == none) = true := by decide +kernel
theorem test_wit_secondExit : (on (base.modFiring 0 fun f => { f with exit := some .retire }) fun f _ => f.exit.isSome && !f.cancel) = true := by decide +kernel
theorem test_wit_noImage : (on (base.modLaunch 1 fun l => { l with img := none }) fun f x =>
    f.exit.isNone && ((base.modLaunch 1 fun l => { l with img := none }).launch? x.lid).any fun l => l.img.isNone) = true := by decide +kernel

/-- LutPatch: no patch, a patch, and a bitstream that XOP.LOAD can take. -/
theorem test_wit_patch : (base.elem 0).xopBits = [] ∧ ((base.modElem 0 fun e => { e with xopBits := [1] }).elem 0).xopBits ≠ [] := by decide +kernel
theorem test_wit_patchLoad : localBool (ports (loc 24576) 0 0 base) 8192 = true ∧ localBool (ports (loc 0) 0 0 base) 64 = true := by decide +kernel

/-- FloatArithmetic, FloatSignsAndClasses, FloatCompares, Conversions: values of each class. -/
theorem test_wit_floats : (floatOf .f32 0x7F800001) = .nan true ∧ floatOf .f32 0x7FC00000 = .nan false ∧ floatOf .f32 0xFF800000 = .inf true ∧
    floatOf .f32 0x80000000 = .zero true ∧ floatOf .f32 0 = .zero false ∧ floatOf .f32 0xBF800000 = .num (-8388608) (-23) ∧
    floatOf .f32 1 = .num 1 (-149) ∧ finite (floatOf .e4m3 0x7E) = true ∧ (floatOf .bf16 0xFFFF).isNan = true := by decide +kernel

/-- A DATA token with a tag and a payload. -/
def dataTok (t : Nat) : Token := ⟨.data, BitVec.ofNat 32 t, BitVec.ofNat 512 t⟩
def stopTok : Token := ⟨.stop 0, 0, 0⟩

/-- HandleAccesses: a token below the bound, an offset at the bound, room to write; the same under DET. -/
def peekable (s : State) (h o : Nat) : Bool := on s fun f x =>
  (s.unitAt s.focus.rank f.la h o (x.desc.handle h).tile).length == 1 && decide (o < handleBound f x.desc h)
theorem test_wit_handles : peekable (wired [dataTok 7]) 0 0 = true ∧ (on (wired []) fun f x => decide (handleBound f x.desc 1 ≤ 1) && decide (0 < handleBound f x.desc 1) &&
    !(wired []).hereDet) = true := by decide +kernel
theorem test_wit_handlesDet : peekable (det (wired [dataTok 7])) 0 0 = true ∧ (det (wired [dataTok 7])).hereDet = true ∧ hin.var = false := by decide +kernel
theorem test_wit_emit : Kind.ofCode 0 = some .data ∧ Kind.ofCode 8 = some .eos ∧ ((wired []).portS .a).toNat ≤ 63 := by decide +kernel
theorem test_wit_poket : ((ports 1 0 0 base).portS .a).toNat = 1 ∧ ((ports 16 0 0 base).portS .a).toNat = 16 ∧ bf ((ports 0 0 0 base).portV .b) 511 508 ≠ 15 := by decide +kernel

/-- LaneGroupsAndFibres: LGPACK with a token and room; four lanes a group for BMM; a lane-group and a fibre instruction that has run. -/
theorem test_wit_lgpack : (on (wired [dataTok 7]) fun f x => let s := wired [dataTok 7]
    !f.lgUsed && !f.fibUsed && handleBound f x.desc 1 == 1 && match s.inEdge 0 f.la 0 with
    | some (_, e) =>
      let toks := (e.fifo.take (handleBound f x.desc 0)).map (·.tok)
      let takes := fun g => !x.lg.occ.getLsbD g && decide (((List.range g).filter fun k => !x.lg.occ.getLsbD k).length < toks.length)
      x.lg.occ == 0 && x.lg.w == 0 && toks.all (fun t => t.kind == .data) &&
        (List.range 16).all fun g => (1 : BitVec 16).getLsbD g == takes g && laneW 32 (7 : Vec) g == (if takes g then 7 else laneW 32 (s.portV .a) g)
    | none => false) = true := by decide +kernel
theorem test_wit_bmm : (3 : Nat) < 2 ^ ({ LaneGroups.fresh with w := 2 } : LaneGroups).w ∧ (on (base.modFiring 0 fun f => { f with lgUsed := true, fibUsed := true })
    fun f _ => f.lgUsed && f.fibUsed) = true := by decide +kernel

/-- A dense level with one fibre of two elements, in local memory, and a cursor. -/
def levelled (cur : Word) (l : List Token) : State :=
  (ports (loc 0x2000) cur 0 (wired l)).writeBytes (localKey 0 0x2000) (vecBytes (BitVec.ofNat 512 (2 ^ 288 + 2 * 2 ^ 256 + 2 ^ 222)))
/-- The state of a fibre instruction after its depths are recorded. -/
def fibred (din dout : Nat) (s : State) : Option State :=
  ((s.modFiring 0 fun f => { f with fibUsed := true }).recordDepth 0 0 din).bind fun s => s.recordDepth 0 1 dout
def fibred1 (din dout : Nat) (s : State) : State := (fibred din dout s).getD State.reset
def rooted (s : State) : State := ((s.modFiring 0 fun f => { f with fibUsed := true }).recordDepth 0 1 1).getD State.reset
def levelBytes (s : State) : Vec := BitVec.ofNat 512 (wordFrom s 0 (s.portS .a) 0 64)
/-- A handle shows a token. -/
def shows (s : State) (h : Nat) (t : Token) : Prop := ((s.unitAt s.focus.rank 0 h 0 false).head?.map fun q => q.tok) = some t
theorem tokenAt_of_shows {s : State} {h : Nat} {t : Token} (e : shows s h t) : tokenAt s 0 h 0 t := by
  simpa [shows, tokenAt] using e

/-- LaneGroupsAndFibres: FSCAN at a root with each cursor. -/
theorem test_wit_rootCursors : [(0 : Word), 2 ^ 62, 2 ^ 32].all (fun c => let s := rooted (levelled c [])
      ((levelled c []).modFiring 0 fun f => { f with fibUsed := true }).recordDepth 0 1 1 == some s && ptrSpace (s.portS .a) == 2 && ptrOwner (s.portS .a) == 0 &&
        ptrOff (s.portS .a) % 64 == 0) = true ∧ (levelView (rooted (levelled 0 [])) 0 (levelBytes (rooted (levelled 0 [])))).nfib = 1 ∧
    (ScanAt.ofCursor 0).pend = false ∧ (ScanAt.ofCursor (2 ^ 62)).pend = true ∧ (ScanAt.ofCursor (2 ^ 32)).f = 1 := by decide +kernel
theorem test_wit_fscanRoot : Safety.readable (rooted (levelled 0 [])) 0 (loc 0x2000) 0 64 ∧ levelOk 0 (levelBytes (rooted (levelled 0 []))) := by
  unfold levelOk Safety.readable
  dsimp only
  decide +kernel
theorem test_wit_fibre : fibreOk (rooted (levelled 0 [])) 0 (levelBytes (rooted (levelled 0 []))) 0 ∧
    positionOk (rooted (levelled 0 [])) 0 (levelBytes (rooted (levelled 0 []))) 0 := by
  unfold fibreOk positionOk Safety.readable
  dsimp only
  decide +kernel
/-- FSCAN enters a fibre of two elements and writes the one for which it has room. -/
theorem scan_stuck (v : LevelView) (tok : Nat → Token) (h0 : v.start 0 = 0) (h1 : v.stop 0 = 2) (hn : v.nfib = 1) (hk : (tok 0).kind = .data)
    (hp : bf (tok 0).pay 127 64 = 0) :
    ∃ c, Relation.ReflTransGen (ScanStep v tok 1 1) (ScanAt.ofCursor 0) c ∧ (∀ c', ¬ ScanStep v tok 1 1 c c') ∧ c.act = true ∧ c.t = 1 := by
  have e0 : ScanAt.ofCursor 0 = ⟨false, false, 0, 0, [], 0⟩ := rfl
  have s1 := ScanStep.enter (v := v) (tok := tok) (bi := 1) (bo := 1) ⟨false, false, 0, 0, [], 0⟩ rfl rfl Nat.one_pos hk (by rw [hp, hn]; exact Nat.one_pos)
  simp only [hp, h0] at s1
  have s2 := ScanStep.element (v := v) (tok := tok) (bi := 1) (bo := 1) ⟨true, false, 0, 0, [], 1⟩ rfl (by simp [h1]) Nat.one_pos
  refine ⟨_, (Relation.ReflTransGen.single (e0 ▸ s1)).tail s2, fun c' hc => ?_, rfl, rfl⟩
  cases hc <;> simp_all
theorem test_wit_fscan : (fibred 1 2 (levelled 0 [dataTok 0])).isSome = true ∧ shows (fibred1 1 2 (levelled 0 [dataTok 0])) 0 (dataTok 0) ∧
    Safety.readable (fibred1 1 2 (levelled 0 [dataTok 0])) 0 (loc 0x2000) 0 64 ∧ levelOk 0 (levelBytes (fibred1 1 2 (levelled 0 [dataTok 0]))) ∧
    (on (levelled 0 [dataTok 0]) fun f x => handleBound f x.desc 0 == 1 && handleBound f x.desc 1 == 1) = true := by
  unfold shows Safety.readable levelOk
  dsimp only
  decide +kernel
theorem test_wit_scanStuck : ∃ c, Relation.ReflTransGen (ScanStep (levelView (fibred1 1 2 (levelled 0 [dataTok 0])) 0
    (levelBytes (fibred1 1 2 (levelled 0 [dataTok 0])))) (fun _ => dataTok 0) 1 1) (ScanAt.ofCursor 0) c ∧ (∀ c', ¬ ScanStep (levelView
    (fibred1 1 2 (levelled 0 [dataTok 0])) 0 (levelBytes (fibred1 1 2 (levelled 0 [dataTok 0])))) (fun _ => dataTok 0) 1 1 c c') ∧ c.act = true ∧ c.t = 1 :=
  scan_stuck _ _ (by decide +kernel) (by decide +kernel) (by decide +kernel) rfl (by decide +kernel)
/-- FSCAN of a descriptor in die memory. -/
def scanDie : State := rooted (ports (mkPtr 1 0 0x40) 0 0 (wired []))
theorem test_wit_scanDie : ptrSpace (scanDie.portS .a) = 1 ∧ scanDie.hereDet = false ∧ scanDie.fibSpace (scanDie.portS .a) = true ∧
    ptrOff (scanDie.portS .a) % 64 = 0 ∧ scanDie.reqFault scanDie.herePart (.ldgv .plain 0) (scanDie.portS .a) = none := by decide +kernel
/-- FREP, FRED: a DATA token and a stop token below the bound; a close that has room and one that has not. -/
theorem test_wit_frepFred : (fibred 1 1 (wired [dataTok 7])).isSome = true ∧ shows (fibred1 1 1 (wired [dataTok 7])) 0 (dataTok 7) ∧
    (fibred 2 2 (wired [stopTok])).isSome = true ∧ shows (fibred1 2 2 (wired [stopTok])) 0 stopTok ∧ (fibred 2 1 (wired [⟨.stop 1, 0, 0⟩])).isSome = true ∧
    shows (fibred1 2 1 (wired [⟨.stop 1, 0, 0⟩])) 0 ⟨.stop 1, 0, 0⟩ ∧
    (on (wired []) fun f x => handleBound f x.desc 0 == 1 && handleBound f x.desc 1 == 1 && x.fn == 0) = true := by
  unfold shows
  decide +kernel
theorem test_wit_fibToken : ((wired [dataTok 7]).recordDepth 0 0 1).isSome = true ∧ shows (((wired [dataTok 7]).recordDepth 0 0 1).getD base) 0 (dataTok 7) ∧
    shows (((wired [stopTok]).recordDepth 0 0 1).getD base) 0 stopTok ∧ Ty.ofCode 0 = some .i8 ∧ Ty.ofCode 14 = some .n4 := by
  unfold shows
  decide +kernel

/-- LocalAccesses: the lowest and the highest place of an access, a granule that is full, one that is not, and a wait that is met. -/
theorem test_wit_local : localBool (ports (loc 0) 0 0 base) 1 = true ∧ localBool (ports (loc 32704) 0 0 base) 64 = true ∧ localBool (ports (loc 32760) 0 0 base) 8 = true ∧
    Memory.wf base.mem = true ∧ (2044 : Nat) ∉ base.full := by decide +kernel
theorem test_wit_fullEmpty : (({ base with full := [16, 17, 18, 19] } : State).feFull (feSpan 0 0x100 64)) = true ∧
    ((base.modFiring 0 fun f => { f with due := [⟨0, [k1], .fullEmpty 0x100 true⟩] }).dueAt 0 0).isSome = true := by decide +kernel
/-- LocalAccesses: each check that fails. -/
theorem test_wit_localBad : ptrSpace ((ports 0 0 0 base).portS .a) ≠ 2 ∧ ptrOwner ((ports (mkPtr 2 1 0) 0 0 base).portS .a) ≠ 0 ∧
    ptrOff ((ports (loc 4) 0 0 base).portS .a) % 8 ≠ 0 ∧ 32768 < ptrOff ((ports (loc 32768) 0 0 base).portS .a) + 64 ∧
    (wired []).meetsFifo 0 4032 64 = true ∧ (wired []).meetsFifo 0 4096 64 = false := by decide +kernel

/-- Deliveries, ValueInstructionFrame: two consumers that can take a value, a port that is filled, and a handle without room. -/
theorem test_wit_deliver : (on room fun f x => free f x.desc s1a && free f x.desc k1 && apart s1a k1) = true ∧
    (on (ports 1 2 3 base) fun f x => ((f.slotAt 0).bind (·.port .a)).isSome && handleBound f x.desc 1 == 0) = true ∧ base.focus.id < 64 := by decide +kernel
/-- Deliveries: an EMULATE slot whose INMAP sends port A on to port A of inserted word 0, and a chained word that waits for its predicate. -/
def emulated : State := base.modFiring 0 fun f => { f with slots := [{ id := 2, kind := .emu 0 0, word := 0, a := none, b := none, c := none, p := none, issued := false },
  { id := 72, kind := .ins, word := 0, a := none, b := none, c := none, p := none, issued := false }] }
theorem test_wit_emulate : (on emulated fun f _ => match f.slotAt 2 with
    | some sl => sl.kind == .emu 0 0 && sl.port .a == none && (emuInputs 0 2 .a).all fun m => match f.slotAt m with | some z => z.port .a == none | none => false
    | none => false) = true := by decide +kernel
def sequenced : State := base.modFiring 0 fun f => { f with slots := [
  { id := 0, kind := .pfx, word := 0x12005003, a := none, b := none, c := none, p := none, issued := false },
  { id := 1, kind := .ins, word := 0xA8540001, a := none, b := none, c := none, p := none, issued := false }] }
theorem test_wit_chained : (on sequenced fun f _ => match f.slotAt 1 with
    | some sl => sl.kind == .ins && sl.p.isNone && f.seqOf 1 == some (5, 3) && senseWrong sl.word (.s 0) && !senseWrong sl.word (.s 1)
    | none => false) = true := by decide +kernel

/-- A request of the firing, queued, for the die memory of die 0. -/
def req (k : ReqKind) : Req :=
  { id := 5, fid := 0, rank := 0, la := 0, lid := 1, g := 0, slot := 0, dst := [k1], ptr := mkPtr 1 0 0x40, kind := k, chain := none, scp := none, inv := 0,
    stage := .queued, next := 0, pas := [], out := 0, ver := 0, count := 0, arr := 5, sub := 0 }

/-- A state with one request, for whose value the firing waits. -/
def asked (q : Req) : State := { base.modFiring 0 fun f => { f with due := [⟨0, [k1], .request 5⟩] } with reqs := [q] }

/-- A page of 64 GiB from offset 0 of partition 0. -/
def mapped (e : Word) (s : State) : State :=
  match (s.modPart 0 fun p => { p with ptRoot := some 0x100000 }).ptSet 0 0 3 e with | some t => t | none => State.reset

/-- MemoryRequests: a pointer that passes, one that does not, a scope code above 4, and a form that DET forbids. -/
theorem test_wit_request : (ports (mkPtr 1 0 0x40) 0 0 base).reqFault 0 (.stg .n64 0) (mkPtr 1 0 0x40) = none ∧
    (ports (mkPtr 1 0 0x41) 0 0 base).reqFault 0 (.stg .n64 0) (mkPtr 1 0 0x41) = some (.alignment, mkPtr 1 0 0x41) ∧
    scopeOk base = true ∧ base.here.isSome = true ∧ base.hereDet = false := by decide +kernel
theorem test_wit_requestDet : (det base).hereDet = true ∧ detForbidden (det (ports (mkPtr 1 0 0x40) 0 0 base)) (.cas .always .n32 k1 .discard) = true ∧
    detForbidden (det (ports (mkPtr 1 0 0x40) 0 0 base)) (.stg .always .n32 k1 .discard) = false := by decide +kernel
def inScope (w : IWord) : State := { base.modFiring 0 fun f => { f with slots := [
  { id := 0, kind := .pfx, word := w, a := none, b := none, c := none, p := none, issued := false },
  { id := 1, kind := .ins, word := 0xA8140001, a := none, b := none, c := none, p := none, issued := false }] } with focus := ⟨0, 1⟩ }
theorem test_wit_scope : scopeOk (inScope 0x13000084) = true ∧ scopeOk (inScope 0x13000085) = false := by decide +kernel

/-- AddressChecks: each space at its edges, and each level of a walk. -/
theorem test_wit_spaces : ptrSpace (mkPtr 0 0 0) = 0 ∧ ptrOwner (mkPtr 0 0 0) = 0 ∧ ptrOwner (mkPtr 0 1 0) ≠ 0 ∧ ptrSpace (mkPtr 1 0 0) = 1 ∧
    ptrOwner (mkPtr 1 1 0) % 256 ≠ 0 ∧ base.dieEnabled 64 = false ∧ base.partOfDie 2 ≠ some 0 ∧ base.partOfDie 0 = some 0 ∧
    14 * 2 ^ 20 < ptrOff (mkPtr 1 0 0xDFFFF9) + 8 ∧ ptrOff (mkPtr 1 0 0xDFFFF8) + 8 ≤ 14 * 2 ^ 20 ∧ ptrSpace (mkPtr 5 0 0) = 5 ∧ ptrSpace (mkPtr 15 0 0) = 15 := by decide +kernel
theorem test_wit_walk : ((mapped 0x1F base).part 0).ptRoot.isSome = true ∧ (mapped 0x1F base).walk 0 5 = .hit 5 (2 ^ 36) 0x1F ∧
    (mapped 0x1F base).walk 0 (2 ^ 36) = .miss := by decide +kernel

/-- HomeEvents: a request at its home, each kind of it, and a page that retains. -/
def atHome (k : ReqKind) : State := asked { req k with stage := .home, pas := [some (dieKey 0 0x40)] }
theorem test_wit_home : [ReqKind.ldg .n64 .plain 0, .stg .i8 0, .atom true .min .i16 5, .cas .n32 0 1, .vqry].all (fun k => match (atHome k).req? 5 with
    | some q => q.stage == .home && !(atHome k).blockedAtHome q && q.next == 0 && q.pas == [some (dieKey 0 0x40)] && q.sub == 0 && q.out == 0 &&
      decide (dieKey 0 0x40 % 64 = ptrOff q.ptr % 64) && ((atHome k).cluster 0).held.isEmpty && Memory.wf (atHome k).mem
    | none => false) = true ∧ ptrOff (mkPtr 1 0 0x40) % 8 = 0 ∧ (64 : Nat) < hbmSize ∧ 0 < (base.partCfg 0).stash := by decide +kernel

/-- RequestProgress: a queued request that goes home, misses, is denied, goes out, or is held. -/
def forwards (s : State) (p : Req → Piece → Bool) : Bool := match s.req? 5 with
  | some q => q.id == 5 && q.stage == .queued && q.chain.isNone && s.firstReady q && !s.shelved q.lid && (match q.kind.pieces q.ptr with
    | [x] => p q x
    | _ => false)
  | none => false
def goes (s : State) (q : Req) (x : Piece) : Xlate := s.xlate (lidPart q.lid) x.ptr q.kind.reads q.kind.writes
theorem test_wit_forward : (forwards (asked (req (.stg .n64 1))) fun q x => !(asked q).holds q && (asked q).rocHit q [(x, goes (asked q) q x)] == none &&
      goes (asked q) q x == .home (dieKey 0 0x40) false false) = true ∧
    (forwards (asked { req (.stg .n64 1) with ptr := mkPtr 0 0 0x40 }) fun q x => goes (asked q) q x == .miss) = true ∧
    (forwards (mapped 0x19 (asked { req (.stg .n64 1) with ptr := mkPtr 0 0 0x40 })) fun q x => goes (mapped 0x19 (asked q)) q x == .denied) = true ∧
    (forwards (asked { req (.ldg .n64 .plain 0) with ptr := mkPtr 5 0 0x40 }) fun q x => goes (asked q) q x == .remote) = true := by decide +kernel
def holding (q : Req) : State := (asked q).modLaunch 1 fun l => { l with img := l.img.map fun im => { im with invm := true } }
theorem test_wit_hold : (forwards (holding (req (.stg .n64 1))) fun q x => (holding q).holds q && (q.kind.storeOf x).1 != 0 &&
    decide ((holding q).heldCount 0 < 512) && goes (holding q) q x == .home (dieKey 0 0x40) false false) = true := by decide +kernel
def missing (off : Nat) : State := asked { req (.stg .n64 1) with ptr := mkPtr 0 0 off, stage := .missed }
def misses (s : State) (mapped : Bool) : Bool := match s.req? 5 with
  | some q => q.stage == .missed && (match q.kind.pieces q.ptr with
    | [x] => goes s q x == .miss && (s.decideMiss 0 (ptrOff x.ptr)).isSome == mapped
    | _ => false)
  | none => false
theorem test_wit_missed : misses (missing 0x40) true = true ∧ misses (missing (2 ^ 45)) false = true := by decide +kernel
theorem test_wit_waiting : (match (asked { req (.waitv 0) with stage := .waiting, pas := [some (dieKey 0 0x40)] }).req? 5 with
    | some q => q.stage == .waiting && !(asked q).frozenReq q && decide (((asked q).ver (dieKey 0 0x40 / 64) - 0).toNat < 2 ^ 15)
    | none => false) = true := by decide +kernel
theorem test_wit_answer : (match (asked { req (.ldg .n64 .plain 0) with stage := .done, out := 7 }).req? 5, (asked (req .vqry)).firing? 0 with
    | some q, some f => q.stage == .done && q.value.isSome && f.fid == q.fid && f.due.any (fun d => d.what == .request 5)
    | _, _ => false) = true ∧
    ({ req (.stg .n64 1) with stage := .done } : Req).stage = .done := by decide +kernel
theorem test_wit_fence : (asked (req (.fence 2))).chainTurn (req (.fence 2)) = true ∧ (asked (req (.fence 2))).reqs.all (fun r => !chainBefore r (req (.fence 2))) = true := by decide +kernel
theorem test_wit_lock : let q := { req .lockt with stage := .waiting, pas := [some (dieKey 0 0x40)] }
    (asked q).frozenReq q = false ∧ (asked q).locks = [] ∧ (asked q).engines = [] ∧ ((asked q).firing? 0).map (·.due) = some [⟨0, [k1], .request 5⟩] := by decide +kernel

/-! ### Launches, engines and regions -/

/-- A launch record stands in local memory, and the next launch gets serial 5. -/
def launching (r : Nat) : State := (recorded (BitVec.ofNat 512 r) base).modPart 0 fun p => { p with lidSerial := 4 }
def isOk (c : PtrCheck) : Bool := match c with | .ok _ => true | .bad _ => false
def record (s : State) : Vec := match s.recordCheck (s.portS .a) with | .ok o => s.localVec o | .bad _ => 0

/-- LaunchRecords: a good record, a bad one, a full queue, a dependence, and a splice behind launch 1. -/
theorem test_wit_records : isOk ((launching (2 ^ 64)).recordCheck ((launching (2 ^ 64)).portS .a)) = true ∧ (base.readParams 0 0 none 0) = (base, .ok (List.replicate 16 0)) ∧
    badRecord (record (launching (2 ^ 64))) .launch = false ∧ badRecord (record (launching (2 ^ 64 + 1))) .launch = true ∧
    badRecord (record (launching (2 ^ 64 + 2 ^ 41))) .launch = false ∧ (launching (2 ^ 64)).herePart = 0 ∧
    (((launching (2 ^ 64)).part 0).queueOf 0).length < 64 ∧
    64 ≤ (((base.modPart 0 fun p => { p with queues := [(0, List.replicate 64 9)] }).part 0).queueOf 0).length := by decide +kernel
theorem test_wit_splice : badRecord (record (launching (2 ^ 64 + 2 ^ 96))) .splice = false ∧ bf (record (launching (2 ^ 64 + 2 ^ 96))) 127 96 = 1 ∧
    ((launching 0).launch? 1).any (fun l => l.st == .running && l.succ.isNone) = true ∧ nextSerial 27 ((launching 0).part 0).lidSerial = 5 ∧
    bf ((launching 0).statusOf 0 1) 63 60 ≠ 8 ∧ (launching 0).reqFault 0 (.launchi 0 [] 0) (mkPtr 0 0 0) = none := by decide +kernel
/-- LaunchRecords: a record of PRIO 1 in a launch of PRIO 0 of partition 1. -/
def elsewhere : State := actor (fun x => { x with lid := 2 ^ 27 + 1 }) { recorded (BitVec.ofNat 512 (2 ^ 64 + 2 ^ 50)) base with
  launches := [{ Launch.probe with lid := 2 ^ 27 + 1, part := 1 }] }
theorem test_wit_notAllowed : elsewhere.herePart = 1 ∧ elsewhere.hereLaunch.isSome = true ∧ bf (record elsewhere) 53 50 = 1 ∧
    (elsewhere.hereLaunch.map (·.prio)) = some 0 := by decide +kernel

/-- LaunchStatusAndStops: an unknown id, a running launch, one that has ended, and one in its queue. -/
def launches (st : LState) : State := { base with launches := [{ Launch.probe with lid := 2, st }, Launch.probe] }
theorem test_wit_status : (base.launches.all fun l => l.lid != bf ((ports 99 0 0 base).portS .a) 31 0) = true ∧ LState.done.final = true ∧ 3 < LState.done.code ∧
    LState.running.code ≤ 3 ∧ (base.hereLaunch.map (·.lid)) = some 1 ∧ ((launches .queued).launch? 2).any (fun l => l.saved.isNone && l.succ.isNone && l.cmplp == 0) = true ∧
    ((launches .running).launches.all fun x => x.succ != some 2) = true := by decide +kernel

/-- An engine command record in local memory: one byte, and a record error. -/
def commanding (r : Nat) : State := recorded (BitVec.ofNat 512 r) base
/-- A copy of 64 bytes from one place of local memory to another. -/
def copyRec : Vec := BitVec.ofNat 512 ((loc 0x2000).toNat * 2 ^ 448 + (loc 0x3000).toNat * 2 ^ 384 + 64 * 2 ^ 240)
def command (k : EngKind) (r : Vec) : EngCmd :=
  { serial := 3, seq := 9, kind := k, recd := r, follow := none, rank := 0, la := 0, lid := 1, g := 0, det := false, before := [], sent := 0, asked := [],
    got := [], acks := [], ran := false, fol := none }
def engined (l : List EngCmd) : State := base.modEngine 0 0 fun x => { x with queue := l, stats := [⟨3, 0, 2, 0⟩, ⟨4, 0, 0, 0⟩] }

/-- EngineCommands. -/
theorem test_wit_engines : (commanding (2 ^ 240)).engBad .copy (record (commanding (2 ^ 240))) = false ∧ (commanding 0).engBad .copy (record (commanding 0)) = true ∧
    ((commanding 0).engine 0 0).queue.length < 32 ∧ 32 ≤ ((engined (List.replicate 32 (command .copy copyRec))).engine 0 0).queue.length ∧
    (on base fun f _ => !f.waitsEngine 0 0 base.serial) = true ∧ ((ports (loc 1) 0 0 base).recordCheck (loc 1)) = .bad .alignment := by decide +kernel
theorem test_wit_engineStatus : bf ((engined []).engStatus 0 (engId 0 0 3)) 63 60 = 2 ∧ bf ((engined []).engStatus 0 (engId 0 0 4)) 63 60 = 0 ∧
    (engined []).engStatus 0 (engId 0 0 5) = 4#4 ++ 0#60 := by decide +kernel
def due (w : WaitFor) (s : State) : State := s.modFiring 0 fun f => { f with due := [⟨0, [k1], w⟩] }
theorem test_wit_engineRoom : ((due (.engineRoom 0 0 0 copyRec none 9 []) base).dueAt 0 0).isSome = true ∧
    (on (due (.engineRoom 0 0 0 copyRec none 9 []) base) fun f _ => !f.waitsEngine 0 0 9) = true ∧
    ((due (.engineStatus (engId 0 0 3)) (engined [])).dueAt 0 0).isSome = true := by decide +kernel

/-- EngineExecution: a copy, one that has run, and a QUNF of one byte that feeds the region. -/
theorem test_wit_copy : let c := command .copy copyRec
    ((engined [c]).engine 0 0).queue = [c] ∧ Memory.wf (engined [c]).mem = true ∧ (engined [c]).engHeld c = false ∧ engLen c.recd = 64 ∧
    engCnt c.recd 1 = 1 ∧ engCnt c.recd 4 = 1 ∧ ptrSpace (engSrc c.recd) = 2 ∧ ptrSpace (engDst c.recd) = 2 ∧ (engined [c]).localAny 0 (engSrc c.recd) 64 = none ∧
    (engined [c]).localAny 0 (engDst c.recd) 64 = none ∧ ptrOff (engDst c.recd) % 64 + 64 ≤ 64 ∧ ptrOff (engSrc c.recd) + 64 ≤ ptrOff (engDst c.recd) := by decide +kernel
theorem test_wit_copyRan : let c := { command .copy copyRec with ran := true }
    bf c.recd 20 20 = 0 ∧ (engined [c]).followDone c = true ∧ engCmpl c.recd = 0 := by decide +kernel

/-- A region of one element, at the origin of the launch's one shingle. -/
def region (q : List RegCmd) : Region :=
  { lid := 1, g := 0, rgn := 0, origin := 0, w := 1, h := 1, act := [TileReg.zero], load := [TileReg.zero], queue := q, serial := 0, stats := Stats.zero,
    statp := mkPtr 1 0 0x40, seq := 0, feed := [], feeder := none }
def regCmd (op ty : Nat) (r : Vec) : RegCmd :=
  { op, ty, recd := r, b := 0, ptr := mkPtr 3 0 0, serial := 1, rank := 0, la := 0, fid := 0, slot := 0, dst := [k1], detach := false, lid := 1, g := 0 }
def shingled : State := base.modLaunch 1 fun l => { l with img := l.img.map fun im =>
  { im with shingles := [{ w := 1, h := 1, align := 0, matrix := true, ports := [], routes := [] }] } }
def regional (s : State) (q : List RegCmd) : State := { s with regions := [region q] }

def feeding : EngCmd := command .unf (BitVec.ofNat 512 ((loc 0x2000).toNat * 2 ^ 448 + (loc 0).toNat * 2 ^ 384 + (2 ^ 52 + 2 ^ 40) * 2 ^ 320 + 2 ^ 240))
def passOf : RegCmd := regCmd opMma 0 (BitVec.ofNat 512 (11 * 2 ^ 128 + 2 ^ 125))
theorem test_wit_feed : let s := regional (engined [feeding]) [passOf]
    s.engHeld feeding = false ∧ s.regionDst (engDst feeding.recd) = some (0, region [passOf]) ∧ s.regionAt 0 = some (region [passOf]) ∧
    (region [passOf]).startBad passOf = none ∧ (region [passOf]).feed.length < (region [passOf]).feedNeed passOf ∧ feeding.sent < feeding.moves.length ∧
    0 < (unfoldOf (engAux feeding.recd)).oh ∧ 0 < (unfoldOf (engAux feeding.recd)).ow ∧ 0 < engLen feeding.recd ∧
    feeding.moves.all (fun m => m.1.isSome && s.localAny 0 (feeding.srcPtr m) 1 == none && ptrSpace (feeding.srcPtr m) == 2) = true := by decide +kernel

/-- MatrixCommands: a good and a bad record, room, no room, and no region. -/
theorem test_wit_regions : (regional shingled []).regionOf 1 0 0 = some (region []) ∧ base.regionOf 1 0 0 = none ∧ matBad 0xC0 0 (region []) = false ∧
    matBad 0xC0 1 (region []) = true ∧ matBad 0xC2 0 (region []) = false ∧ matBad 0xC7 (BitVec.ofNat 512 (2 ^ 384 * 64 + 2 ^ 142)) (region []) = false ∧
    base.precedes 1 0 = false ∧ base.regWaiters 0 = [] ∧ 8 ≤ (region (List.replicate 8 (regCmd 0xC1 0 0))).queue.length := by decide +kernel
def waitsRegion : State := due (.regionRoom 0 0xC1 0 0 0 0 4) (regional base [])
theorem test_wit_regionRoom : (waitsRegion.dueAt 0 0).isSome = true ∧ isAccOp 0xC1 = false ∧ waitsRegion.regEarlier 0 0 4 = false ∧ waitsRegion.precedes 1 0 = false ∧
    waitsRegion.regWaiters 0 ≠ [] := by decide +kernel
/-- MatrixCommands: the accumulator store, its last 64 bytes and its last row, and a count of rows that is too high. -/
theorem test_wit_accumulators : base.accCheck (mkPtr 3 0 262080) 64 = .ok 262080 ∧ base.regionOfStore 0 = none ∧ base.accCheck (mkPtr 3 0 261888) 256 = .ok 261888 ∧
    (261888 : Nat) / 256 + 1 ≤ 1024 ∧ 1024 < (261888 : Nat) / 256 + 2 ∧ ((regional base []).regionOfStore 0).isSome = true := by decide +kernel
theorem test_wit_accQueued : let s := due (.regionDone 0 1) (regional base [regCmd 0xC5 0 0])
    (s.region? 0).isSome = true ∧ (s.firing? 0).any (fun g => g.fid == 0 && (g.due.find? fun y => y.what == .regionDone 0 1).isSome) = true := by decide +kernel

/-- MatrixLoads: a command of each kind at the head of its queue. -/
theorem test_wit_matrixHeads : [0xC0, 0xC1, 0xC2, 0xC3, 0xC7, 0xF3].all (fun op => (region [regCmd op 0 0]).next op == some (regCmd op 0 0)) = true ∧
    matStatp 0 = 0 ∧ matCmpl 0 = 0 ∧ matStatw 0 = false ∧ TileReg.zero.ty = .e4m3 ∧ (region []).statp ≠ 0 ∧ ptrSpace (region []).statp = 1 := by decide +kernel
theorem test_wit_weights : (MatRun.weights { st := base, stats := Stats.zero, fault := none } (regCmd 0xC0 0 (BitVec.ofNat 512 ((loc 0).toNat * 2 ^ 448))) .i8 32 16).1.fault = none ∧
    weightTy 0 = some .i8 ∧ Ty.width .i8 * kb .i8 * 16 ≤ 4096 ∧
    (match base.engAddr 0 0 (mkPtr 1 0 0x40) 64 true with | (_, .key k _) => k == dieKey 0 0x40 | _ => false) = true := by decide +kernel

/-- MatrixPasses: a pass whose type and mode are those of T.ACT, one whose type is not, and a promotion whose rows are apart. -/
theorem test_wit_pass : let c := regCmd 0xC2 0 (BitVec.ofNat 512 ((loc 0).toNat * 2 ^ 448 + 11 * 2 ^ 128))
    let x := MatRun.actRow { st := base, stats := Stats.zero, fault := none } c .e4m3 32 0 []
    actTy (matAty c.recd) = some .e4m3 ∧ (region [c]).feedNeed c ≤ 0 ∧ tyAgree .e4m3 TileReg.zero.ty = true ∧ TileReg.zero.smode = matSmode c.recd ∧ x.1.fault = none ∧
    tyAgree .i8 TileReg.zero.ty = false ∧ matM c.recd = 1 := by decide +kernel
theorem test_wit_promotion : let r : Vec := BitVec.ofNat 512 ((loc 0x40).toNat * 2 ^ 384 + 2 ^ 142 + 2 * 2 ^ 126)
    matSmode r = 2 ∧ (region []).cellKey (matSrow r) 0 = (region []).cellKey (matArow r) 0 + 256 ∧
    (MatRun.read { st := base, stats := Stats.zero, fault := none } (regCmd 0xC7 0 r) (ptrAdd (matScp r) 0) 4).1.fault = none := by decide +kernel

/-! ### Actors, streams, collectives and digests -/

/-- The firing has ended. -/
def idle (s : State) : State := s.modElem 0 fun e => { e with firing := none }
/-- The actor is of a built-in kind. -/
def ofKind (k : ActorKind) (kp : BitVec 32) (s : State) : State := actor (fun x => { x with desc := { x.desc with kind := k, kparam := kp } }) s
def first (s : State) (p : Actor → Bool) : Bool := match s.actor? 0 0 with | some x => p x | none => false
def headTok (s : State) (p : Token → Bool) : Bool := match s.headOf 0 0 0 with | some q => p q.tok | none => false

/-- BuiltInActors: TURN with a DATA token, an end inside a block, a stop token, and a block that is ready; OWN with an index inside and outside its table. -/
theorem test_wit_turn : (first (ofKind .turn 0 (wired [dataTok 7])) fun x => (ofKind .turn 0 (wired [dataTok 7])).builtin 0 0 x .turn && x.turnIn.isEmpty) = true ∧
    (headTok (wired [dataTok 7]) fun t => t.kind == .data) = true ∧ (headTok (wired [⟨.eos, 0, 0⟩]) fun t => t.kind == .eos) = true ∧
    (headTok (wired [stopTok]) fun t => t.kind == .stop 0) = true ∧
    ((wired []).outEdge 0 0 1).any (fun e => decide (1 ≤ freeOf e.2)) = true ∧ (List.replicate 32 (dataTok 0)).length = 32 := by decide +kernel
theorem test_wit_owner : (first (ofKind .own 0x400000 (wired [dataTok 15])) fun x =>
      (ofKind .own 0x400000 (wired [dataTok 15])).builtin 0 0 x .own &&
      ((ofKind .own 0x400000 (wired [dataTok 15])).ownInput 0 0 x false).any (fun h => h.1 == 0 && h.2.tok.kind == .data && decide (bf h.2.tok.pay 31 0 < 16)) &&
      ((ofKind .own 0x400000 (wired [dataTok 16])).ownInput 0 0 x false).any (fun h => decide (16 ≤ bf h.2.tok.pay 31 0)) &&
      ((ofKind .own 0x400000 (wired [stopTok])).ownInput 0 0 x false).any (fun h => h.2.tok.kind != .data) &&
      decide ((bf x.desc.kparam 17 9 + 1) * 64 / 4 = 16)) = true ∧ Memory.wf (wired []).mem = true := by decide +kernel

/-- TicksAndManualWaits: a tick that is reached and one that is not, room for an entry, and an entry that a handle names. -/
def manual (m : Bool) : WaitEntry :=
  { idx := 2, serial := 9, kind := 7, obj := 0, wlid := 0, wrank := 0, wact := 0, wl := false, wprio := 0, man := m, hlid := 1, hrank := 0, hact := 0, ha := false,
    spill := false, req := none, frozen := false }
def waited (m : Bool) : State := base.modPart 0 fun p => { p with waits := [manual m] }
theorem test_wit_ticks : ((ports 0 0 0 base).portS .a).toNat ≤ base.clock.tick ∧ base.clock.tick < ((ports 1 0 0 base).portS .a).toNat ∧
    (placeFor (base.part 0).waits).isSome = true ∧ bf ((ports 0 1 0 base).portS .b) 31 0 ≠ 0 ∧
    ((due (.tick 0 false) base).dueAt 0 0).isSome = true := by decide +kernel
theorem test_wit_entry : [true, false].all (fun m => ((waited m).part 0).waits.any fun w =>
    w.serial == bf (mkPtr 8 0 (2 * 2 ^ 32 + 9)) 31 0 && w.idx == bf (mkPtr 8 0 (2 * 2 ^ 32 + 9)) 51 32 && bf (mkPtr 8 0 (2 * 2 ^ 32 + 9)) 63 63 == 1 && w.man == m) = true ∧
    ((waited true).part 0).waits.all (fun w => w.serial != 8) = true := by decide +kernel

/-- A collective record: one I32 from 0x2000 to 0x3000. -/
def collRec : Vec := BitVec.ofNat 512 ((loc 0x2000).toNat * 2 ^ 448 + (loc 0x3000).toNat * 2 ^ 384 + 2 ^ 224 + 4 * 2 ^ 152 + 4 * 2 ^ 148)
def collPart (k : Nat) : CollPart := { kind := k, g := 0, rank := 0, la := 0, recd := collRec, before := [] }
def coll (k : Nat) : Coll := { id := 3, kind := k, part := 0, lid := 1, pset := 0, cseq := 0, parts := [collPart k], wires := [] }
def collected (k : Nat) : State := { base with colls := [coll k] }
/-- Collectives: a good record of each kind, a bad one, and one that is performed. -/
theorem test_wit_collectives : base.collBad .red 0 1 collRec = false ∧ base.collBad .bcast 0 1 collRec = false ∧ base.collBad .gath 0 1 collRec = false ∧
    base.collBad .gath 0 1 0 = true ∧ (recorded collRec base).recordCheck (loc 0x100) = .ok 0x100 ∧ (recorded collRec base).localVec 0x100 = collRec ∧
    collTys collRec = some (.i32, .i32) ∧ collCount collRec = 1 ∧ collRoot collRec = 0 := by decide +kernel
theorem test_wit_collective : [0, 1, 2].all (fun k => let x := (collected k).collSend (coll k) .i32 .i32 1 1
    x.fault.isNone && (match x.st.colls with
      | [c] => c.id == 3 && c.parts == [collPart k] && (match alGet c.wires 0 with
        | some wire => (CollRun.write { st := x.st, fault := none } 1 0 0 (collDst collRec) (collResult k collRec .i32 .i32 [wire.2])).fault.isNone
        | none => false)
      | _ => false)) = true := by decide +kernel

/-- DigestsAndSnapshots: a good record, two bad ones, a digest whose bytes are read, and votes that pass and fail. -/
def digRec : Vec := BitVec.ofNat 512 ((loc 0x2000).toNat * 2 ^ 448 + 2 ^ 372 + 2 ^ 356)
def extent : State := base.writeBytes (localKey 0 0x2000) (bytesOfNat 8 (loc 0x3000).toNat ++ bytesOfNat 8 4)
theorem test_wit_digest : bf digRec 307 0 = 0 ∧ bf digRec 383 372 = 1 ∧ bf digRec 371 356 = 1 ∧ (extent.digestBytes 0 0 digRec).1.fault = none ∧
    (extent.digestBytes 0 0 digRec).2.length = 4 ∧ ((due (.digest digRec []) extent).dueAt 0 0).isSome = true := by decide +kernel
def voted (own : Word) (others : List (Nat × Word)) : State :=
  let d : DigestSet := { lid := 1, part := 0, rset := 1, dseq := 0, sk := 1, parts := [], value := some own, remote := others, voteAt := some 0 }
  { base.modPart 0 fun p => { p with replicas := [{ id := 1, size := 3, index := 0 }] } with digests := [d] }
def voteOf (s : State) (p : Nat → List (Option Word) → Bool) : Bool := match s.digests with
  | [d] => d.voteAt.isSome && p (s.replicaSet d.part d.rset).1 (d.held (s.replicaSet d.part d.rset).1 (s.replicaSet d.part d.rset).2)
  | _ => false
theorem test_wit_votes : (voteOf (voted 5 [(1, 5), (2, 5)]) fun n h => h.all (· == some 5) && decide (n < 2 * h.count (some 5))) = true ∧
    (voteOf (voted 5 [(1, 6), (2, 6)]) fun n h => !h.contains none && !decide (n < 2 * h.count (some 5)) && decide (n < 2 * h.count (some 6))) = true ∧
    (voteOf (voted 5 [(1, 6), (2, 7)]) fun n h => !h.contains none && h.all fun x => !decide (n < 2 * h.count x)) = true ∧
    (voteOf (voted 5 []) fun _ h => h.contains none) = true ∧ (voted 5 []).clock.tick < 0 + 16 * 1 ∧
    0 + 16 * 1 ≤ ({ voted 5 [] with clock := { Clock.fresh with tick := 16 } } : State).clock.tick := by decide +kernel
def triggered (l : List SnapTrig) (n : Nat) : Part := { Part.fresh with
  trigs := l, latched := List.replicate n { serial := 1, cycle := 0, tick := 0, softErr := [], discards := [], pinRef := [], suppress := [], stash := [], refused := [], counters := [] } }
theorem test_wit_snapshots : (triggered [] 0).snapRoom = true ∧ (triggered [] 2).snapRoom = false ∧ (triggered [.atCycle 64 3, .atBoundary 3] 1).snapRoom = false ∧
    (triggered [.atTick 9, .atCycle 64 3] 0).trigs.find? (fun t => match t with | .atCycle c _ => c == 64 | .atBoundary _ | .atTick _ => false) = some (.atCycle 64 3) ∧
    base.clock.cycle + 64 = 64 ∧ base.herePart = 0 := by decide +kernel

/-- FetchAndThatch: a block that an id names and an id that names none; a line that is not held, one that may be pinned. -/
def blocked : State := base.modLaunch 1 fun l => { l with img := l.img.map fun im => { im with blocks := [(3, 0)] }, cbase := [(0, 0)] }
theorem test_wit_blocks : blocked.blockNamed 3 = some 0 ∧ blocked.blockNamed 4 = none ∧ blocked.blockLines 0 1 0 = [0] ∧
    (blocked.hereLaunch.bind (·.img)).isSome = true ∧ (base.cluster 0).code = [] := by decide +kernel
theorem test_wit_pins : ((base.modCluster 0 fun c => { c with code := [⟨5, []⟩] }).cluster 0).code.find? (fun y => y.line == 5) = some ⟨5, []⟩ ∧
    512 ≤ ((List.replicate 512 (⟨5, [(0, 1)]⟩ : CodeLine)).filter fun y => y.pins.any fun e => e.2 != 0).length := by decide +kernel
/-- FetchAndThatch: THATCH at each check; the checks 1, 2 and 3 of an image; a submission and an accepted image. -/
def thatchImage (magic iver : Nat) : List Byte := vecBytes (BitVec.ofNat 512 (magic * 2 ^ 480 + 2 ^ 464 + iver * 2 ^ 432 + 576 * 2 ^ 320)) ++ List.replicate 512 0
theorem test_wit_thatch : elsewhere.herePart ≠ 0 ∧ (det base).hereDet = true ∧ ptrSpace (loc 0) ≠ 0 ∧ ptrOff (mkPtr 0 0 4) % 64 ≠ 0 ∧
    (match (mapped 0x1F base).readImage 0 0 (mkPtr 0 0 0) with | (_, .ok _) => true | (_, .error _) => false) = true := by decide +kernel
/-- SHA-512 of the three bytes of abc: the example of FIPS 180-4. -/
theorem test_sha512 : sha512 [0x61, 0x62, 0x63] =
    0x9fa44ca54fc99a2a0ee83c6423444d45bdebfea3233cba36a8c14f272a9992219ad3554be6ee9e0aa27ea9894efae612314120ae497341ccba7a6193a135afdd#512 := by
  decide +kernel
theorem test_wit_thatchChecks : (thatchHdr (thatchImage 0x4B565448 2)).magic = 0x4B565448 ∧ (thatchHdr (thatchImage 0x4B565448 2)).totsz = 576 ∧
    (thatchImage 0x4B565448 2).length = 576 ∧ (thatchHdr (thatchImage 0x4B565448 2)).iver = 2 ∧ (thatchHdr (thatchImage 0 2)).magic ≠ 0x4B565448 ∧
    (thatchHdr (thatchImage 0x4B565448 2)).rsv = false ∧ (thatchHdr (thatchImage 0x4B565448 2)).fmt = 1 := by decide +kernel
def thatched : State := { due .thatch base with thatch := { Thatch.empty with
  subs := [⟨thatchImage 0x4B565448 2, 0, 0, 0, [k1], none⟩], pending := [thatchImage 0x4B565448 2], due := true } }
theorem test_wit_thatchQueue : thatched.thatch.subs.length = 1 ∧ thatched.thatch.pending.length = 1 ∧ thatched.thatch.due = true ∧
    (thatched.firing? 0).any (fun f => f.fid == 0) = true ∧ (thatched.dueAt 0 0).any (fun d => d.what == .thatch) = true := by decide +kernel

/-- FiringSelections: an actor that fires on the token at its input. -/
def ready : State := idle (actor (fun x => { x with desc := { x.desc with entry := List.replicate 8 3 } })
  (((wired [dataTok 7]).modLaunch 1 fun l => { l with img := l.img.map fun im => { im with blocks := [(3, 0)], code := [0, 0] }, cbase := [(0, 0)] }).writeBytes
    (dieKey 0 0xE00000) ((0xD0000003#32 :: encode (.retire .always)).flatMap bytesOfWord)))
theorem test_wit_selection : ready.firing? 0 = none ∧ ready.chooseActor 0 (ready.fireables 0) = some (0, false) ∧
    (first ready fun x => ready.fireKind 0 0 x == some false && x.desc.join == .all && !x.yld && decide (x.pass < 64) &&
      (ready.decodeAt 0 x (ready.headerOf x.lid (x.desc.entry.getD x.phase 0xFFFF))).2.code.isNone && (ready.inputCheck 0 0) == ready) = true := by decide +kernel

/-- BlockEnds: no word that is ready, and each exit. -/
def quiet (e : Option ExitReq) (s : State) : State := s.modFiring 0 fun f => { f with exit := e, slots := [] }
theorem test_wit_block : [none, some (ExitReq.branch 2), some (.exit 7), some .retire, some .yield].all (fun e => on (quiet e base) fun f x =>
    !f.anyReady && f.due.isEmpty && f.exit == e && base.running x.lid && !f.cancel && (List.range 16).all fun h => !totalBad f x h) = true ∧
    (base.part 0).preempt = none := by decide +kernel
theorem test_wit_rates : (on (quiet (some .retire) (wired [dataTok 7])) fun f x => totalBad f x 0) = true ∧
    (on ((quiet (some .yield) (wired [dataTok 7])).modFiring 0 fun f => { f with pend := [1, 1] ++ List.replicate 14 0, snap := List.replicate 16 1 }) fun f x =>
      (List.range 16).all fun h => !totalBad f x h) = true := by decide +kernel

/-- ActorEvents: EOS and RECONF at the input, a FORK with a token, and an invocation that may end. -/
def resting (l : List Token) : State := idle (wired l)
theorem test_wit_ends : [Kind.eos, .reconf].all (fun k => first (resting [⟨k, 0, 0⟩]) fun x => (resting []).running x.lid && !x.retired && !x.done && x.susp.isNone &&
    (resting [⟨k, 0, 0⟩]).allHeads 0 0 x.desc k && !x.desc.eosv && x.turnIn.isEmpty && x.turnOut.isEmpty && ((resting [⟨k, 0, 0⟩]).headFault 0 0 x).isNone) = true := by decide +kernel
def forked (owed : Nat) : State := let s := ofKind .fork 0 (resting [dataTok 7]); { s with edges := s.edges.modify 1 fun e => { e with owed } }
theorem test_wit_fork : (first (forked 0) fun x => ((forked 0).markEpoch 0 0 x).isNone && !(forked 0).owesAll 0 0 x.desc && (forked 1).owesAll 0 0 x.desc &&
    ((forked 0).inEdge 0 0 0).any fun e => (liveUnits (x.desc.handle 0).tile e.2.fifo).length == 1) = true := by decide +kernel
def owing : State := { actor (fun x => { x with desc := { x.desc with isPure := true } }) (resting [dataTok 7]) with
  edges := (resting [dataTok 7]).edges.modify 1 fun e => { e with owed := 1 } }
theorem test_wit_cancel : (first owing fun x => owing.cancellable x && owing.owesAll 0 0 x.desc && !owing.allHeads 0 0 x.desc .eos && !owing.allHeads 0 0 x.desc .reconf) = true := by decide +kernel
def invoked : State := actor (fun x => { x with fcount := 1 }) ((resting []).modLaunch 1 fun l => { l with img := l.img.map fun im => { im with invm := true } })
theorem test_wit_invocation : (first invoked fun x => (invoked.launch? 1).any fun l => (l.img.any fun im => im.invm) && l.st == .running && decide (0 < l.ngroup) &&
    decide (l.endedOf 0 * l.perInv x.aidx < x.fcount) && invoked.invDone l 0 (l.endedOf 0)) = true := by decide +kernel

/-- EdgeEvents: flits that travel and land, anti-tokens, heads that are annihilated, joins and markers. -/
def flying (t : Token) (hops retries antis : Nat) : State := let s := resting []; { s with edges := s.edges.modify 0 fun e => { e with
  link := [⟨t, hops, retries, false, false⟩], antis, bridges := [1] } }
theorem test_wit_flits : ((flying (dataTok 7) 1 0 0).edges[0]?.map fun e => (e.link.length, e.det, e.antis)) = some (1, false, 0) ∧ (flying (dataTok 7) 0 0 0).running 1 = true ∧
    burstStep false none (dataTok 7) = some none ∧ burstStep true none ⟨.tail, 0, 0⟩ = none ∧ (first (flying (dataTok 7) 0 0 0) fun x => !x.retired && !x.desc.inJoin 0) = true := by decide +kernel
theorem test_wit_antis : ((flying stopTok 0 0 1).edges[0]?.map fun e => (flying stopTok 0 0 1).tileEdge e) = some false ∧
    ((({ resting [] with edges := (resting []).edges.modify 0 fun e => { e with antis := 1, owed := 255 } } : State).edges[0]?).map fun e =>
      (e.link.isEmpty, e.owed, (resting []).eosCarried e)) = some (true, 255, false) ∧ ((resting [dataTok 7]).inEdge 0 0 0).any (fun e => e.2.antis == 0) = true := by decide +kernel
def joined (j : Join) (a b : Token) : State := { actor (fun x => { x with desc := { x.desc with hnd := [hin, hin], join := j, dmask := 3 } }) (resting []) with
  edges := [{ edge 1 1 0 0 with fifo := [⟨a, 0⟩] }, { edge 1 2 0 1 with fifo := [⟨b, 0⟩] }] }
theorem test_wit_joins : (first (joined .isect (dataTok 1) (dataTok 2)) fun x => x.desc.ins.filter x.desc.inJoin == [0, 1]) = true ∧
    ((joined .isect (dataTok 1) (dataTok 2)).headOf 0 0 0).isSome = true ∧ ((joined .isect (dataTok 1) stopTok).headOf 0 0 1).map (·.tok.kind) = some (.stop 0) ∧
    (match (joined .isect (dataTok 1) (dataTok 2)).joinStep 0 0 { ActorDesc.blank with hnd := [hin, hin], join := .isect, dmask := 3 } with | .skip _ => true | _ => false) = true ∧
    (match (joined .union (dataTok 1) (dataTok 2)).joinStep 0 0 { ActorDesc.blank with hnd := [hin, hin], join := .union, dmask := 3 } with | .fire _ => true | _ => false) = true := by decide +kernel
def marking : State := (flying ⟨.marker, 3, 0⟩ 0 0 0).modPart 0 fun p => { p with preempt := some ⟨1, 3, 0⟩ }
theorem test_wit_markers : (marking.part 0).preempt = some ⟨1, 3, 0⟩ ∧ ((flying ⟨.marker, 3, 0⟩ 0 0 0).part 0).preempt = none ∧ marking.running 1 = true := by decide +kernel

/-! ### Ridge, the clock, traps and the host -/

/-- The bytes of the smallest image: one actor, one shingle of one element, and a block that retires. -/
def imageBytes : List Byte :=
  vecBytes (BitVec.ofNat 512 (0x4B56434E * 2 ^ 480 + 2 ^ 464 + 64 * 2 ^ 456 + 2 ^ 432 + 2 ^ 400 + 8 * 2 ^ 352 + 64 * 2 ^ 288 + 128 * 2 ^ 256 +
      192 * 2 ^ 224 + 256 * 2 ^ 192 + 320 * 2 ^ 160)) ++
    vecBytes (BitVec.ofNat 512 ((2 ^ 112 - 1) * 2 ^ 400)) ++ List.replicate 128 0 ++ (0xD0000000#32 :: encode (.retire .always)).flatMap bytesOfWord ++
    List.replicate 56 0 ++ [1]

/-- Launch 5, at the head of queue 0, asks for that image at offset 0x8000. -/
def asking (r : Nat) : Launch := { Launch.probe with lid := 5, st := .queued, img := none, origins := [], shingles := [], recd := BitVec.ofNat 512 (r + 2 ^ 64 + 0x8000 * 2 ^ 448) }
def ridge (r : Nat) : State :=
  let s := ((mapped 0x1F base).writeBytes 0x8000 imageBytes).modPart 0 fun p => { p with queues := [(0, [5])] }
  { s with boot := { s.boot with dieReady := 1 }, launches := [Launch.probe, asking r] }
def choice : Place := { origins := [(1, 0)], shingles := [(0, 0)], cbase := [(0, 0)], paths := [], len := imageBytes.length }
/-- The image as the loader reads it. -/
def loaded (s : State) : Option (Image × List Segment) := match s.loadLaunch (asking 0) imageBytes.length with | (_, .ok x) => some x | (_, .error _) => none

/-- Placements: the best head; one that the loader refuses, one that never fits, one that cannot be placed now, and one that can. -/
theorem test_wit_head : (ridge 0).bestHead 0 = some (asking 0) ∧ (asking 0).part = 0 ∧ (asking 0).saved = none ∧ choice.origins ≠ [] := by decide +kernel
theorem test_wit_refused : (match ({ ridge 0 with mem := [] } : State).loadLaunch (asking 0) imageBytes.length with | (_, .error _) => true | (_, .ok _) => false) = true := by decide +kernel
theorem test_wit_placed : (match (ridge 0).loadLaunch (asking 0) imageBytes.length with
    | (s1, .ok (im, segs)) =>
      let x := { asking 0 with img := some im, segs, origins := choice.origins, shingles := choice.shingles, cbase := choice.cbase }
      s1.placeOk x im choice.paths && !s1.ringHit x && (s1.putGlobal 0 segs).2 && (ridge 0).fitsPart 0 (asking 0).rw (asking 0).rh &&
        ((ridge 0).formerPred (asking 0)).isNone && !s1.placeOk { x with origins := [(0, 0)] } im choice.paths && im.actors.length == 1
    | (_, .error _) => false) = true := by decide +kernel
theorem test_wit_wide : (ridge (31 * 2 ^ 59)).fitsPart 0 (asking (31 * 2 ^ 59)).rw (asking (31 * 2 ^ 59)).rh = false := by decide +kernel

/-- SpliceWavefronts: launch 5 is the successor of launch 1, with a compatible image and another; an element whose actors have finished. -/
def spliced (im : Option Image) (st : LState) : State :=
  let s := ridge 0
  { s with launches := [{ Launch.probe with succ := some 5, img := im, cbase := [(0, 8)] }, { asking 0 with st, img := if st = .queued then none else im }] }
def staging (im : Image) (good : Bool) : Bool := match (spliced (some im) .queued).unstaged 0 with
  | some (l, t) => l.lid == 1 && t.lid == 5 && (match (spliced (some im) .queued).loadLaunch t imageBytes.length with
    | (s1, .ok (im', segs)) => compatible l { t with st := .loading } im im' segs == good && (s1.putGlobal 0 segs).2 && s1.copiesOk l.allDies [(0, 0)] im'
    | (_, .error _) => false)
  | none => false
theorem test_wit_stage : (match loaded (ridge 0) with | some (im, _) => staging im true | none => false) = true ∧ staging Image.probe false = true := by decide +kernel
def finishing (st : LState) : State := idle (actor (fun x => { x with done := true }) (spliced (some Image.probe) st))
theorem test_wit_finished : [LState.loading, .running].all (fun st => ((finishing st).elem 0).finished == some (1, 0) && ((finishing st).staged 1).any (fun t => t.img.isSome) &&
    ((finishing st).firing? 0).isNone && ((finishing st).launch? 1).any fun l => l.st == .running) = true ∧ (base.elem 0).finished = none := by decide +kernel

/-- LaunchStartsAndEnds: a dependence that is met, one that is not, a page that Ridge may not read, an armed launch, and a launch that is over. -/
def depending (e : Word) (v : Nat) : State := { mapped e base with launches := [{ Launch.probe with st := .waiting, recd := BitVec.ofNat 512 (2 ^ 64 + v * 2 ^ 80) }] }
theorem test_wit_dependence : [(0x1F, 0, true), (0x1F, 1, false)].all (fun x => ((depending x.1 x.2.1).launch? 1).any fun l =>
      match (depending x.1 x.2.1).globalXlate 0 (ptrOff l.depp) with
      | (s1, some (pa, e)) => pteR e && versionGe (s1.ver (pa / 64)) l.depv == x.2.2
      | (_, none) => false) = true ∧
    (match (depending 0x1D 0).globalXlate 0 0 with | (_, some (_, e)) => !pteR e | _ => false) = true ∧ (depending 0x1F 0).waitsOf 0 = [] := by decide +kernel
def armed (n : Nat) : State := { base with launches := [{ Launch.probe with st := .loading, armed := some n, timed := true }] }
theorem test_wit_armed : [0, 1].all (fun n => ((armed n).launch? 1).any fun l => l.armed == some n && l.st == .loading) = true ∧ base.clock.tick = 0 := by decide +kernel
def ended (st : LState) : State := actor (fun x => { x with retired := true }) { idle base with launches := [{ Launch.probe with st, cbase := [(0, 0)] }] }
theorem test_wit_over : [LState.running, .cancelled].all (fun st => ((ended st).launch? 1).any fun l => (ended st).over_ l && !(ended st).counts 1 && l.succ.isNone && l.cmplp == 0 &&
    ((ended st).staged 1).isNone) = true ∧ (base.launch? 1).any (fun l => !base.over_ l) = true := by decide +kernel
theorem test_wit_completion : let l := { Launch.probe with recd := BitVec.ofNat 512 (0x40 * 2 ^ 256) }
    l.cmplp ≠ 0 ∧ ptrSpace l.cmplp = 0 ∧ ptrOff l.cmplp % 64 = 0 ∧ (match (mapped 0x1F base).globalXlate 0 (ptrOff l.cmplp) with | (_, some (_, e)) => pteW e | _ => false) = true := by decide +kernel

/-- TickAndClockEvents: a new period that is due, an epoch, a stream whose flits wait for a tick, and a launch that has gone too long without progress. -/
def ticking : State := { base with clock := { Clock.fresh with newPer := some 500, perDue := true, epoch := some 4 }, edges := [{ edge 1 1 0 0 with
  link := [⟨dataTok 7, 1, 0, false, false⟩], det := true, quantum := true }] }
theorem test_wit_clock : ticking.clock.newPer = some 500 ∧ ticking.clock.perDue = true ∧ ticking.clock.n0 ≤ ticking.clock.tick ∧
    (0 : Nat) < ticking.clock.t0 + (ticking.clock.tick + 1 - ticking.clock.n0) * ticking.clock.period ∧ (ticking.edges[0]?).map (·.waitsTick) = some true ∧
    (ticking.edges[0]?).map (·.quantum) = some true ∧ ticking.running 1 = true ∧ base.clock.newPer = none := by decide +kernel
def stuck : State := (base.modLaunch 1 fun l => { l with idle := 2 ^ 20 })
theorem test_wit_watchdog : (stuck.launch? 1).any (fun l => l.st == .running && !l.moved && (stuck.part l.part).wdt != 0 && decide ((stuck.part l.part).wdt ≤ l.idle)) = true ∧
    (base.launch? 1).any (fun l => decide (l.idle < (base.part 0).wdt)) = true := by decide +kernel

/-- TrapRecords: a fatal record of a running launch, a slot of each action, and rings with and without room. -/
def trap (code : TrapCode) : Trap := { base.mkTrap 0 1 0 0 code 0 0 0 with seq := 4 }
def slotted (act : Nat) : State := { base with thatch := { Thatch.empty with flt := [BitVec.ofNat 256 (0x10 * 2 ^ 248 + 2 ^ 216 + act * 2 ^ 213 + 5 * 2 ^ 201)] } }
theorem test_wit_fatal : base.fltSlot 0x10 0 = none ∧ (base.launch? 1).any (fun l => l.st == .running && l.img.any fun im => !im.invm) = true ∧ (trap .layoutMismatch).code.num = 0x10 := by decide +kernel
theorem test_wit_faultSlots : [1, 2, 3].all (fun a => match (slotted a).fltSlot 0x10 0 with | some (0, v) => bf v 215 213 == a | _ => false) = true ∧ (base.part 0).logged = [] := by decide +kernel
def trapped (full : Bool) (code : TrapCode) : Part := { Part.fresh with pending := [trap code], ring := if full then List.replicate 256 (trap code) else [] }
theorem test_wit_ring : (trapped false .badSlot).ring.length < 256 ∧ (trapped false .badSlot).nextTrap 1 = some (trap .badSlot) ∧ 256 ≤ (trapped true .badSlot).ring.length ∧
    (trapped true .layoutMismatch).pending.find? Trap.notice = some (trap .layoutMismatch) ∧ (trap .badSlot).notice = false := by decide +kernel

/-- TrapHandling: a record without a log, one with a log, a handled one with a handler, and a handler that has ended with each action. -/
def notified (log : Option Nat) (handled : Bool) : State := (mapped 0x1F base).modPart 0 fun p => { p with
  ring := [{ trap .badSlot with handled, precise := true }], logBase := log, handler := some (BitVec.ofNat 512 (2 ^ 64)) }
theorem test_wit_notify : ((notified none false).part 0).ring.length = 1 ∧ (match (notified (some 0x40) true).globalXlate 0 0x40 with
    | (_, some (_, e)) => pteW e | _ => false) = true ∧ (trap .badSlot).ocode ≠ .deadlock ∧ ((notified (some 0x40) true).part 0).handler = some (BitVec.ofNat 512 (2 ^ 64)) ∧
    ((notified (some 0x40) true).readParams 0 0 none 0).2 = .ok (List.replicate 16 0) := by decide +kernel
def logged : Logged := { trap := { trap .badSlot with precise := true, handled := true }, gaddr := 0x40, handler := 5, action := none }
def acting (a : Nat) : State := actor (fun x => { x with susp := some 4 }) { ((mapped 0x1F base).writeBytes 0x78 (bytesOfNat 1 a)).modPart 0 fun p => { p with logged := [logged] } with
  launches := [Launch.probe, { asking 0 with st := .done }] }
theorem test_wit_action : [0, 1, 2].all (fun a => (acting a).handlerOver 5 && (acting a).readAction logged == a && (acting a).running 1 && !(acting a).shelved 1 &&
    first (acting a) fun x => x.lid == 1 && x.susp == some 4) = true ∧ ({ acting 0 with launches := [Launch.probe, asking 0] } : State).handlerOver 5 = false := by decide +kernel

/-- Preemptions: a queued head of higher PRIO, a cut that is complete and one that is not, an epoch that is old, and a launch that may resume. -/
def preempting (p : Option Preempt) (tick : Nat) : State :=
  { (ridge (2 ^ 50)).modPart 0 (fun q => { q with preempt := p }) with clock := { Clock.fresh with tick } }
theorem test_wit_preemption : ((preempting none 0).launch? 1).any (fun l => l.part == lidPart 1 && l.st == .running && (preempting none 0).wavefront l == [] &&
      ((preempting none 0).bestHead 0).any fun h => decide (l.prio < h.prio)) = true ∧
    (preempting (some ⟨1, 3, 0⟩) 0).cutDone [1] 3 = false ∧ (idle (actor (fun x => { x with marked := true }) (preempting (some ⟨1, 3, 0⟩) 0))).cutDone [1] 3 = true ∧
    ((preempting (some ⟨1, 3, 0⟩) 1023).clock.tick + 2 ^ 64 - 0) % 2 ^ 64 < 1024 ∧ 1024 ≤ ((preempting (some ⟨1, 3, 0⟩) 1024).clock.tick + 2 ^ 64 - 0) % 2 ^ 64 := by decide +kernel
def resumable : State :=
  let l := { asking 0 with img := some Image.probe, origins := [(1, 0)], saved := some { Saved.with_ 0 with mate := none, elems := base.elems } }
  { ridge 0 with launches := [Launch.probe, l] }
theorem test_wit_resume : (resumable.launch? 5).any (fun l => l.saved.any (fun y => y.elems.map (·.1) == [0]) && l.img.isSome && resumable.bestHead 0 == some l && resumable.regionsOk l && resumable.slotsOk l) = true := by decide +kernel

/-- HostCommands: a module that is up and one that is not, and a good packet of each command on its channel. -/
def openKey : PubKey := ⟨2 ^ 4096, 1⟩
def up (b : Bool) : State := { mapped 0x1F base with
  cfg := base.cfg.map fun p => (p.1, { p.2 with key := openKey }),
  boot := { Boot.fresh with stage := if b then 3 else 0, hbm := 0xFFFFFF, akey := true, modKey := openKey }, clock := { Clock.fresh with locked := true } }
def packet (chan code seq blen : Nat) : Cmd :=
  { chan, hdr := BitVec.ofNat 512 (0x4B56434D * 2 ^ 480 + 2 ^ 464 + code * 2 ^ 456 + (if chan = 32 then 0 else chan) * 2 ^ 451 + seq * 2 ^ 384 + blen * 2 ^ 352), body := List.replicate blen 0, sig := [] }
def goodBool (s : State) (c : Cmd) (code : Nat) : Bool :=
  s.boot.stage == 3 && !s.boot.recovery && s.hasChan c.chan && cmdRev c == 1 && s.chanKey c.chan == openKey && decide (s.lastSeq c.chan < cmdSeq c) && !cmdBad c code
/-- A packet that is good but for its signature has one that makes it good. -/
theorem signed_exists (s : State) (c : Cmd) (h : s.chanKey c.chan = openKey) : ∃ sig, s.signed { c with sig } = true := by
  obtain ⟨sig, e⟩ := pssVerify_exists (vecBytes c.hdr ++ c.body)
  refine ⟨sig, ?_⟩
  unfold State.signed
  dsimp only
  rw [h]
  exact e
theorem good_of_bool {s : State} {c : Cmd} {code : Nat} (h : goodBool s c code = true) : ∃ sig, good s { c with sig } code := by
  simp only [goodBool, Bool.and_eq_true, beq_iff_eq, Bool.not_eq_true', decide_eq_true_eq] at h
  obtain ⟨⟨⟨⟨⟨⟨h1, h2⟩, h3⟩, h4⟩, h5⟩, h6⟩, h7⟩ := h
  obtain ⟨sig, e⟩ := signed_exists s c h5
  exact ⟨sig, ⟨h1, h2, h3, h4⟩, e, h6, h7⟩
theorem test_wit_commands : (List.range 11).all (fun k => [0, 32].all fun ch => goodBool (up true) (packet ch (k + 1) 1 64) (k + 1)) = true ∧ (up false).boot.stage ≠ 3 ∧
    cmdRev { packet 0 1 1 64 with hdr := 0 } ≠ 1 ∧ cmdSeq (packet 0 1 0 64) ≤ (up true).lastSeq 0 ∧ cmdBad { packet 0 1 1 65600 with body := [] } 1 = true ∧ cmdBad (packet 0 1 1 128) 1 = false := by
  decide +kernel
theorem test_wit_unsigned : (up true).signed (packet 0 1 1 64) = false := by
  unfold State.signed pssVerify packet
  simp

theorem test_wit_bodies : (up true).mayWrite 0 0x40 64 = true ∧ (up true).stacksReady 0 0x40 64 = true ∧ ((up true).readParams 0 0 none 0).2 = .ok (List.replicate 16 0) ∧
    ((up true).ptSet 0 (2 ^ 36) 3 0x1F).isSome = true ∧ pteMalformed 3 36 0x1F = false ∧ ((up true).part 0).bindOk (.endpoint 15 1 []) = true ∧
    bf ((up true).statusOf 0 1) 63 60 ≤ 3 ∧ bf ((up true).statusOf 0 9) 63 60 = 8 ∧ ((up true).launches.map (·.lid)).Nodup ∧ (up true).clock.locked = true := by decide +kernel
theorem test_wit_latched : ((up true).part 0).latched = [] ∧ (triggered [] 1).latched.length = 1 ∧ (0 : Nat) < (up true).clock.period ∧
    ({ up true with launches := [] } : State).launches.all (fun l => l.st != .running) = true := by decide +kernel

/-- ModuleEvents. -/
theorem test_wit_module : State.reset.flash.bankA.stage1Ok = true ∧ State.reset.flash.bankB.ridgeOk = true ∧ State.reset.flash.mapOk = true ∧
    State.reset.flash.bankA.recordKey = State.reset.flash.opKey ∧ State.reset.flash.opKey ≠ 0 ∧ State.reset.flash.bankB.digests = [0, 0, 0] ∧
    ((32, State.reset.flash.bankA.modKey) :: State.reset.flash.bankA.record.map fun p => (p.1, p.2.key)).filter (fun p => p.1 == 5) = [(5, PubKey.standard 5)] ∧
    State.reset.boot.crec = false ∧ State.reset.dieEnabled 63 = true ∧ State.reset.fltSlot 0x15 0 = none ∧ (hbmSize / 64 - 1) * 64 < hbmSize ∧ (up true).boot.stage = 3 := by decide +kernel

/-! ### The further clauses of the statements -/

/-- StepRunsDecoded: a cycle in which no walk and no latch is due, with a trigger that is not and one that waits for a tick. -/
theorem test_wit_quiet : (State.reset.parts.all fun p => p.2.walks.isEmpty) = true ∧
    ([SnapTrig.atTick 9, .atBoundary 1, .atCycle 64 2].all fun t => match t with | .atCycle k _ => decide (64 ≤ k) | .atBoundary _ | .atTick _ => true) = true := by decide +kernel

/-- PreciseFaults: a target inside a block, one past the code, and one outside the actor's range, each at its edge; a second exit of a slot of the block. -/
def badTarget (s : State) (n : Nat) : Bool := on s fun f x => f.exit.isNone && !f.cancel && s.running x.lid && match s.launch? x.lid with
  | some l => match l.img with
    | some im => decide (im.code.length ≤ n) || decide (n < x.range.1) || decide (x.range.2 ≤ n) || !im.starts.getD n false
    | none => false
  | none => false
theorem test_wit_badTargets : badTarget coded 1 = true ∧ badTarget coded 4 = true ∧ badTarget coded 2 = false ∧ badTarget (actor (fun x => { x with range := (0, 2) }) coded) 2 = true ∧
    badTarget (actor (fun x => { x with range := (1, 4) }) coded) 0 = true ∧ base.focus.id < 64 ∧ [TrapCode.softwareTrap, .multiExit, .badTarget, .privilege].all (fun c => base.fltSlot c.num (lidPart 1) == none) = true := by decide +kernel

/-- FloatArithmetic: the value of a whole power and of a power of two, and a negative operand. -/
theorem test_wit_wholePowers : floatOf .f32 0x40400000 = .num 12582912 (-22) ∧ floatOf .f32 0x41000000 = .num 8388608 (-20) ∧ floatOf .f32 0x7F800000 = .inf false ∧
    floatOf .f32 0x80000000 = .zero true := by decide +kernel
theorem test_wit_reals : real (.num 12582912 (-22)) = ((3 : Int) : ℚ) ∧ real (.num 8388608 (-20)) = 2 ^ (3 : Int) ∧ real (.num (-8388608) (-23)) < 0 := by
  simp only [real]; norm_num

/-- FloatSignsAndClasses: the edges of each format, and normal and subnormal operands of both signs. -/
theorem test_wit_encodings : floatOf .e4m3 0x7F = .nan false ∧ floatOf .e4m3 0x7E = .num 14 5 ∧ floatOf .e5m2 0x7C = .inf false ∧ floatOf .e5m2 0x7D = .nan true ∧
    floatOf .e5m2 0x7E = .nan false ∧ floatOf .bf16 0x7F7F = .num 255 120 ∧ floatOf .f16 1 = .num 1 (-24) ∧ floatOf .f32 0x80000001 = .num (-1) (-149) := by decide +kernel

/-- HandleAccesses, Reductions: a float type, a masked lane and one that the mask keeps. -/
theorem test_wit_masks : laneOf .f32 ((vports 0 0xFFFFFFFF 0 base).portV .b) 0 ≠ 0 ∧ laneOf .f32 ((vports 0 0xFFFFFFFF 0 base).portV .b) 1 = 0 ∧ Ty.f32.isFloat = true ∧ Ty.i8.isFloat = false := by
  decide +kernel
/-- MemoryRequests: a FENCE with the highest scope, and a scope that is too high in a launch that is not deterministic. -/
theorem test_wit_fenceScope : (inScope 0x13000085).here.isSome = true ∧ (inScope 0x13000085).hereDet = false ∧ (inScope 0x13000084).here.isSome = true ∧
    (4 : Fin 8).val ≤ 4 ∧ 4 < (5 : Fin 8).val := by decide +kernel

/-- AddressChecks: a HOST window, its last bytes and the next, and a die of another partition. -/
def windowed (ws : List Window) (s : State) : State := s.modPart 0 fun p => { p with endpoints := [⟨0, 1, ws⟩], windows := ws }
theorem test_wit_windows : (windowed [⟨0, 65536⟩, ⟨65536, 65536⟩] base).remoteOk 0 (mkPtr 5 0 65532) 8 = true ∧ (windowed [⟨0, 65536⟩] base).remoteOk 0 (mkPtr 5 0 65532) 8 = false ∧
    ptrSpace (mkPtr 6 0 0) = 6 ∧ base.dieEnabled 2 = true ∧ base.partOfDie 2 ≠ some 0 := by decide +kernel

/-- HomeEvents: a granule with an uncorrectable word, at which a store does not cover the granule. -/
def spoiled : State := { atHome (.stg .n64 1) with faulty := [dieKey 0 0x40 / 64] }
theorem test_wit_faulty : (match (spoiled.modReq 5 fun q => { q with pas := [some 64] }).req? 5 with
    | some q => (q.kind.pieces q.ptr).length == 1 && q.stage == .home && q.pas[q.next]? == some (some 64) && !spoiled.blockedAtHome q &&
      (match q.kind.pieces q.ptr with | [x] => (q.kind.storeOf x).1 != BitVec.allOnes 64 | _ => false)
    | none => false) = true ∧ (64 : Nat) < hbmSize ∧ (dieKey 0 0x40 / 64 ∈ spoiled.faulty) := by decide +kernel

/-- RequestProgress: a store to a HOST endpoint that is held, and a load of one from a deterministic launch. -/
def hostStore : Req := { req (.stg .n64 1) with ptr := mkPtr 5 0 0x40 }
theorem test_wit_holdRemote : (forwards (holding hostStore) fun q x => (holding hostStore).holds q && goes (holding hostStore) q x == .remote && (q.kind.storeOf x).1 != 0 &&
    decide ((holding hostStore).heldCount 0 < 512)) = true := by decide +kernel
def hostLoad : Req := { req (.ldg .n64 .plain 0) with ptr := mkPtr 5 0 0x40 }
theorem test_wit_loadRemote : [(false : Bool), true].all (fun d => let s := if d then det (asked hostLoad) else asked hostLoad
    ((s.launch? 1).any Launch.det) == d && forwards s fun q x => goes s q x == .remote && q.next == 0) = true := by decide +kernel
/-- RequestProgress: the walker of a miss; a held store, a finished fence of a chain, and a token with its holder and without. -/
theorem test_wit_walker : (lidPart 1, ptrOff (mkPtr 0 0 0x40) / 2 ^ 16) ∈ (missing 0x40).walkers 0 := by decide +kernel
def awaits (q : Req) : Bool := match (asked q).req? 5, (asked q).firing? 0 with
  | some r, some f => r == q && f.fid == q.fid && f.due.any fun d => d.what == .request 5
  | _, _ => false
theorem test_wit_values : awaits { req (.stg .n64 1) with stage := .held } = true ∧ awaits { req (.fence 2) with stage := .done, chain := some (0, 1, 0) } = true ∧
    awaits { req .unlockt with stage := .waiting, pas := [some (dieKey 0 0x40)] } = true := by decide +kernel
def unlocking : Req := { req .unlockt with stage := .waiting, pas := [some (dieKey 0 0x40)] }
def locked (la : Nat) : State := { asked unlocking with locks := [⟨unlocking.token.1, unlocking.token.2, 1, 0, la⟩] }
theorem test_wit_unlock : [0, 1].map (fun la => (match (locked la).req? 5 with
      | some q => ((locked la).locks.find? fun l => l.bank == q.token.1 && l.tok == q.token.2).map fun l => (l.lid, l.rank, l.la)
      | none => none)) = [some (1, 0, 0), some (1, 0, 1)] ∧ (locked 0).engines = [] ∧ ((locked 0).firing? 0).map (·.due) = some [⟨0, [k1], .request 5⟩] := by decide +kernel

/-- LaunchRecords: a LAUNCHI whose scope code is too high. -/
theorem test_wit_launchScope : scopeOk (inScope 0x13000086) = false ∧ (launching 0).launches.all (fun y => y.lid != 5) = true ∧ scopeOk (launching 0) = true := by decide +kernel

/-- EngineCommands: an element that waits for room, and two of which the one of higher priority enters. -/
def waitsRoom : State := due (.engineRoom 0 0 0 copyRec none 9 []) base
theorem test_wit_engineFirst : waitsRoom.engWaiters 0 0 = [⟨0, 0, 0⟩] ∧ base.engWaiters 0 0 = [] ∧ (on waitsRoom fun f _ => !f.waitsEngine 0 0 9) = true ∧
    arbTurn [⟨0, 0, 0⟩] 0 0 = true ∧ arbTurn [⟨0, 0, 0⟩, ⟨1, 1, 0⟩] 0 0 = false ∧ arbTurn [⟨0, 0, 0⟩, ⟨1, 1, 0⟩] 0 1 = true ∧
    arbTurn [⟨0, 0, 0⟩, ⟨1, 0, 3⟩] 0 1 = true ∧ arbTurn [⟨0, 0, 0⟩, ⟨1, 0, 0⟩] 0 1 = true := by decide +kernel
/-- EngineExecution: a command that failed, and one whose remote writes are not acknowledged. -/
theorem test_wit_engineEnds : ({ command .copy copyRec with ran := true, failed := some .permission } : EngCmd).failed = some .permission ∧
    ({ command .copy copyRec with ran := true, acks := [3] } : EngCmd).acks ≠ [] ∧ base.ringFrozen 1 = false := by decide +kernel
/-- EngineExecution: a QUNF of a deterministic launch that no other goes before. -/
theorem test_wit_feedDet : let c := { command .unf copyRec with det := true }
    (engined [c]).engines.all (fun y => y.2.queue.all fun z => z.kind != .unf || z.ran || decide (c.ent ≤ z.ent)) = true ∧ (region []).feeder = none := by decide +kernel

/-- MatrixCommands: an element that waits for its region, the rank that a deterministic launch wants, and a store of another partition's die. -/
theorem test_wit_regionFirst : arbTurn (waitsRegion.regWaiters 0) (region []).last 0 = true ∧ (regional base []).regWaiters 0 = [] ∧ base.focus.rank = (region []).origin ∧
    (region (List.replicate 7 (regCmd 0xC1 0 0))).queue.length < 8 := by decide +kernel
theorem test_wit_otherStore : ptrSpace (mkPtr 3 32 0) = 3 ∧ base.dieEnabled (ptrOwner (mkPtr 3 32 0) / 16) = true ∧
    base.partOfDie (ptrOwner (mkPtr 3 32 0) / 16) ≠ some base.herePart := by decide +kernel

/-- MatrixLoads: an MMA that has started before an MSWAP, and what a weight element holds. -/
theorem test_wit_started : (region [{ regCmd 0xC2 0 (BitVec.ofNat 512 (11 * 2 ^ 128)) with started := true }, regCmd 0xC1 0 0]).next 0xC1 = some (regCmd 0xC1 0 0) ∧
    Ty.i8 ≠ .i4 ∧ Ty.i8 ≠ .n4 ∧ Ty.width .i8 * kb .i8 * 16 = 4096 ∧ (regCmd 0xC3 1 0).ty = 1 := by decide +kernel
/-- MatrixPasses: an MMA that keeps the tiles of before an MSWAP, a promotion of a command without tiles, and a cell that is not staged. -/
theorem test_wit_keptTiles : ({ regCmd 0xC2 0 0 with tiles := some [TileReg.zero] } : RegCmd).tiles ≠ none ∧ (regCmd 0xC7 0 0).tiles = none ∧ matStg 0 = false ∧ matAccm 0 = false := by decide +kernel
/-- BuiltInActors: a table that ends past local memory, and one that meets the FIFO area. -/
theorem test_wit_ownTable : (let d := { ActorDesc.blank with kparam := 0x3FFFF }
    decide (bf d.kparam 8 0 * 64 + 100 * 4 = 33104) && decide (100 < (bf d.kparam 17 9 + 1) * 64 / 4) && decide (32768 < 33104 + 4)) = true ∧
    (wired []).meetsFifo 0 4092 4 = true := by decide +kernel

/-- Collectives: parts that differ here, and a module that sent another head. -/
def wireHead (p : CollPart) : CollHead := ⟨p.kind, collCount p.recd, collOp p.recd, bf p.recd 155 152, bf p.recd 151 148, collRoot p.recd⟩
theorem test_wit_heads : wireHead (collPart 0) ≠ wireHead (collPart 1) ∧ (⟨0, 2, 0, 4, 4, 0⟩ : CollHead) ≠ wireHead (collPart 0) ∧ wireHead (collPart 0) = ⟨0, 1, 0, 4, 4, 0⟩ ∧
    base.modulesOf 0 0 = some 1 ∧ base.ringFrozen (coll 0).lid = false := by decide +kernel

/-- DigestsAndSnapshots: a trigger of a tick, and one at the same boundary. -/
theorem test_wit_tickTrigger : (triggered [.atTick 0] 0).trigs = [.atTick 0] ∧ (0 : Nat) ≤ base.clock.tick ∧ base.clock.nextAt = 4000 ∧
    (triggered [.atBoundary 3] 0).trigs = [.atBoundary 3] := by decide +kernel

/-- BlockEnds: a firing that a full trap queue freezes, and an emulated RETIRE whose inserted words asked for no exit. -/
def frozen : State := (quiet none base).modPart 0 fun p => { p with ring := List.replicate 256 (trap .badSlot), pending := [trap .badSlot] }
theorem test_wit_frozen : (on frozen fun _ x => !frozen.live x.lid) = true := by decide +kernel
def emuRetire : State := actor (fun x => { x with desc := { x.desc with entry := List.replicate 8 0 } }) (base.modFiring 0 fun f => { f with exit := none, slots :=
  [{ id := 2, kind := .emu 0 0, word := 0x0D000000, a := none, b := none, c := none, p := none, issued := true }] })
theorem test_wit_emulatedExit : (on emuRetire fun f x => !f.anyReady && f.due.isEmpty && f.exit.isNone && emuRetire.live x.lid &&
    f.emulatedExits.any (fun sl => (Raw.ofWord sl.word).op == 0x0D) && x.desc.entry.getD f.phase 0xFFFF != 0xFFFF) = true ∧ (on (quiet none base) fun f _ => f.emulatedExits.isEmpty) = true := by decide +kernel

/-- ActorEvents: an actor of a built-in kind whose EOSV is set, and one outside every wavefront that is pre-empted. -/
theorem test_wit_builtInEnd : (first (actor (fun x => { x with desc := { x.desc with eosv := true } }) (ofKind .fork 0 (resting [⟨.eos, 0, 0⟩]))) fun x =>
    x.desc.eosv && x.desc.kind != .ordinary && ((resting []).markEpoch 0 0 x).isNone && (resting []).live x.lid) = true := by decide +kernel

/-- EdgeEvents: a flit that was sent and one that was not, a full allowance, a turn that has not come, an edge whose launch has ended, and a slot of a FIFO. -/
def crossing (depth : Nat) (l : List Flight) (lid : Nat) : State := let s := resting [dataTok 7]
  { s with edges := s.edges.modify 0 fun e => { e with link := l, bridges := [1], depth, lid } }
def flit (hops : Nat) (sent : Bool) : Flight := ⟨dataTok 7, hops, 0, false, sent⟩
def crosses (s : State) (n : Nat) (p : Edge → Flight → Bool) : Bool := match s.edges[0]? with
  | some e => match e.link[n]? with
    | some f => f.hops != 0 && !e.det && p e f
    | none => false
  | none => false
def hasRoom (s : State) (e : Edge) (f : Flight) : Bool := decide ((e.link.filter fun y => (y.hops == f.hops && y.sent) || (y.hops + 1 == f.hops && !y.sent)).length <
  Nat.min e.depth 32) && decide (s.unacked 1 < 256)
theorem test_wit_crossing : crosses (crossing 64 [flit 1 true] 1) 0 (fun e f => f.sent && e.bridges[e.bridges.length - f.hops]? == some 1) = true ∧
    crosses (crossing 64 [flit 1 false] 1) 0 (fun e f => !f.sent && hasRoom (crossing 64 [flit 1 false] 1) e f) = true ∧
    crosses (crossing 1 [flit 1 true, flit 1 false] 1) 1 (fun e f => !f.sent && !hasRoom (crossing 1 [flit 1 true, flit 1 false] 1) e f &&
      (match e.link[0]? with | some y => y.hops == f.hops && y.sent && !f.sent | none => false)) = true ∧
    crosses (crossing 64 [flit 1 false, flit 1 false] 1) 1 (fun e f => match e.link[0]? with | some y => y.hops == f.hops && !y.sent | none => false) = true ∧
    crosses (crossing 64 [flit 1 true] 0) 0 (fun e _ => e.lid == 0) = true ∧ (crossing 64 [] 1).edges[0]?.bind (fun e => e.fifo[0]?) = some ⟨dataTok 7, 0⟩ := by decide +kernel
/-- EdgeEvents: a burst of two flits of which one has landed. -/
def burstHead : Token := ⟨.head, 0, BitVec.ofNat 512 (2 ^ 492)⟩
def landing : State := let s := actor (fun x => { x with desc := { x.desc with hnd := [{ hin with tile := true }, hout] } }) (resting [])
  { s with edges := s.edges.modify 0 fun e => { e with fifo := [⟨burstHead, 0⟩], burst := some { ndata := headNdata burstHead.pay, seen := 0 } } }
theorem test_wit_partBurst : (landing.inEdge 0 0 0).any (fun e => e.2.antis == 0 && landing.tileEdge e.2 && (e.2.fifo.head?.any fun q => q.tok.kind == .head &&
    decide (0 < headNdata q.tok.pay)) && e.2.fifo.length == 1) = true := by decide +kernel
/-- EdgeEvents: a MARKER of another epoch, and one of another launch. -/
theorem test_wit_otherMarker : 1 ∈ marking.wave 1 ∧ 9 ∉ marking.wave 1 ∧ (⟨1, 3, 0⟩ : Preempt).epoch ≠ (Token.mk .marker 4 0).tag.toNat := by decide +kernel
/-- A placement of an image whose first shingle is wider than the launch's region fails wherever it is put. -/
theorem placeOk_wide (s : State) (l : Launch) (im : Image) (sh : ShingleDesc) (r : List ShingleDesc) (ps : List (List Nat)) (h : im.shingles = sh :: r)
    (hw : 4 * l.rw < sh.w) (hg : 0 < l.ngroup) : s.placeOk l im ps = false := by
  have hin : ∀ x y u v w k a, 4 * l.rw < w → shinglePlaced (x, y, 4 * l.rw, k) (x + u, v, w, a) sh.align = false := by
    intro x y u v w k a hlt
    have : ¬ x + u + w ≤ x + 4 * l.rw := by omega
    simp [shinglePlaced, this]
  have hbad : l.shinglesOk im 0 = false := by
    simp [Launch.shinglesOk, Launch.rects, h, List.zipIdx_cons, Launch.regionRect, hin _ _ _ _ _ _ _ hw]
  have hall : (List.range l.ngroup).all (l.shinglesOk im) = false := by
    rw [List.all_eq_false]
    exact ⟨0, by simpa using hg, by simp [hbad]⟩
  simp only [State.placeOk, hall, Bool.and_false, Bool.false_and]
theorem placeable_wide (s : State) (l : Launch) (im : Image) (sh : ShingleDesc) (r : List ShingleDesc) (h : im.shingles = sh :: r) (hw : 4 * l.rw < sh.w)
    (hg : 0 < l.ngroup) : s.placeable l im = false := by
  simp only [State.placeable]
  refine List.any_eq_false.mpr fun o _ => ?_
  simp only [Bool.not_eq_true]
  refine List.any_eq_false.mpr fun q _ => ?_
  simp only [Bool.not_eq_true]
  refine List.any_eq_false.mpr fun ps _ => ?_
  simp only [Bool.not_eq_true]
  exact placeOk_wide s.emptied { l with origins := o, shingles := q, cbase := (List.range 64).map fun d => (d, 0) } im sh r ps h hw hg
/-- Placements: the loader accepts that image; GLOBAL segments that were written before; a chain over two clusters; and a pre-empted head behind whose
actor one of higher priority waits. -/
def wide : State := (ridge 0).writeBytes (0x8000 + 223) [0x40]
def wideImage (p : Image → Bool) : Bool := match wide.loadLaunch (asking 0) imageBytes.length with | (_, .ok (im, _)) => p im | (_, .error _) => false
theorem test_wit_unplaceable : (wide.bestHead 0 == some (asking 0) && wideImage fun im => match im.shingles with
    | sh :: _ => decide (4 * (asking 0).rw < sh.w) && decide (0 < (asking 0).ngroup)
    | [] => false) = true ∧ wide.fitsPart 0 (asking 0).rw (asking 0).rh = true ∧ (wide.formerPred (asking 0)).isNone = true := by decide +kernel
theorem test_wit_globDone : ({ asking 0 with globDone := true } : Launch).globDone = true ∧ (asking 0).globDone = false ∧ (asking 0).timed = false := by decide +kernel
def one : ShingleDesc := { w := 1, h := 1, align := 0, matrix := false, ports := [], routes := [] }
def twoClusters (far : Nat) : Bool :=
  let im := { Image.probe with
    actors := [ActorDesc.blank, { ActorDesc.blank with shg := 1 }], shingles := [one, one], steps := [⟨3, 0, 0⟩, ⟨3, 1, 1⟩] }
  ({ Launch.probe with img := some im, origins := [(0, 0)], shingles := [(0, 0), (far, 0)] } : Launch).chainsOk im 0
theorem test_wit_chainApart : twoClusters 4 = false ∧ twoClusters 3 = true := by decide +kernel
/-- Placements: the placement of `choice` is one that an empty module holds. -/
theorem test_wit_placeable : (match (ridge 0).loadLaunch (asking 0) imageBytes.length with
    | (s1, .ok (im, segs)) => s1.emptied.placeOk { asking 0 with img := some im, segs, origins := [(1, 0)], shingles := [(0, 0)], cbase := (List.range 64).map fun d => (d, 0) } im []
    | (_, .error _) => false) = true ∧ [((1, 0) : Nat × Nat)].length = (asking 0).ngroup := by decide +kernel

/-- SpliceWavefronts: an actor that has sent its MARKER, and a pre-emption that is open. -/
theorem test_wit_markedActor : ((actor (fun x => { x with marked := true }) (finishing .loading)).elem 0).actors.any (·.marked) = true ∧
    (((finishing .loading).modPart 0 fun p => { p with preempt := some ⟨1, 3, 0⟩ }).part 0).preempt ≠ none ∧ (finishing .loading |>.part 0).preempt = none ∧
    ((finishing .loading).elem 0).actors.all (fun k => !k.marked) = true := by decide +kernel

/-- LaunchStartsAndEnds: a VRCL that is on its way, an edge with a flit on a bridge, and every CMPLP that is turned away or goes out. -/
def completing (p : Word) (s : State) : State := s.modLaunch 1 fun l => { l with recd := BitVec.ofNat 512 (p.toNat * 2 ^ 256) }
theorem test_wit_completions : (completing (mkPtr 5 0 0x40) base).launches.map (·.cmplp) = [mkPtr 5 0 0x40] ∧ ptrSpace (mkPtr 2 0 0) = 2 ∧ ptrOwner (mkPtr 0 1 0) = 1 ∧
    ptrOff (mkPtr 5 0 8) % 64 ≠ 0 ∧ (completing (mkPtr 5 0 0x40) base).remoteOk 0 (mkPtr 5 0 0x40) 64 = false ∧
    (windowed [⟨0, 65536⟩] base).remoteOk 0 (mkPtr 5 0 0x40) 64 = true := by decide +kernel
theorem test_wit_leftEdges : (crossing 64 [flit 1 true] 1).edges.any (fun e => e.lid == 1 && !e.link.isEmpty) = true ∧ (req (.vrcl 0)).kind = .vrcl 0 := by decide +kernel

/-- TickAndClockEvents: streams over a port whose oldest messages go, and a message of the grandmaster at the port that the host chose and at another. -/
def parked (n : Nat) : Parked := { stage := 0, stream := (0, 0, 0, 0), left := n, msg := .digest 0 0 0 }
theorem test_wit_streams : (releaseStream 4096 [parked 4000, parked 96, parked 1]) = ([parked 1], [.digest 0 0 0, .digest 0 0 0]) ∧
    (releaseStream 4096 [parked 4097]) = ([parked 1], []) ∧ base.clock.gmPort = 0 ∧ (1 : Nat) ≠ base.clock.gmPort := by decide +kernel
theorem test_wit_offsets : base.clock.ptp + 20 ≤ base.clock.ptp + 20 ∧ base.clock.epoch = none ∧ ticking.clock.epoch.isSome = true ∧ ticking.clock.n0 ≤ ticking.clock.tick + 1 := by decide +kernel

/-- TrapRecords: the one record of a cycle with a lower SEQ; a notice remapped with ESC; and a record of an earlier cycle. -/
theorem test_wit_lowest : (let q := trapped false .badSlot
    (((q.ring ++ q.pending).filter fun u => u.lid == 1 && u.cyc == 0 && u.fatal).length == 0) &&
    (({ q with pending := [{ trap .badSlot with fatal := true }] } : Part).pending.filter fun u => u.lid == 1 && u.cyc == 0 && u.fatal) == [{ trap .badSlot with fatal := true }]) = true ∧
    0 < (5 + 2 ^ 32 - 4) % 2 ^ 32 ∧ (5 + 2 ^ 32 - 4) % 2 ^ 32 < 2 ^ 31 := by decide +kernel
def escalating : State := { base with thatch := { Thatch.empty with flt := [BitVec.ofNat 256 (0x10 * 2 ^ 248 + 2 ^ 216 + 2 ^ 213 + 2 ^ 209 + 5 * 2 ^ 201)] } }
theorem test_wit_escalated : (escalating.formTrap (trap .layoutMismatch)).2.esc = true ∧ (escalating.formTrap (trap .layoutMismatch)).1.running 1 = true ∧
    (base.formTrap (trap .layoutMismatch)).2.esc = false := by decide +kernel
theorem test_wit_earlier : (trap .badSlot).cyc < 1 ∧ ((trapped false .badSlot).pending.all fun u => (trap .badSlot).before u) = true ∧
    ((trapped false .badSlot).pending.map (·.seq)).Nodup ∧ ¬ (trap .badSlot).cyc < base.clock.cycle := by decide +kernel

/-- TrapHandling: the reason of a record is the lowest one's, and the id of a handler that ended before is taken again. -/
theorem test_wit_reason : (notified none false).reasonOf { trap .badSlot with handled := false, precise := true } = (trap .badSlot).code.num ∧ LState.done.final = true := by decide +kernel

/-- Preemptions: the launches of a wavefront, a head that outranks one but not the other, and places for the copies. -/
def wavefront : State := { preempting none 0 with launches := [{ Launch.probe with spliced := true, succ := some 7 }, { asking (2 ^ 50) with recd := BitVec.ofNat 512 (2 ^ 50 + 2 ^ 64) },
  { Launch.probe with lid := 7, spliced := true, recd := BitVec.ofNat 512 (2 ^ 50 + 2 ^ 64) }] }
theorem test_wit_wavefront : 1 ∈ base.wave 1 ∧ wavefront.wave 1 = [1, 7] ∧ (wavefront.bestHead 0).any (fun h => h.lid == 5 && decide (1 ≤ h.prio)) = true := by decide +kernel
theorem test_wit_refit : (resumable.refit (resumable.train 5)).isSome = true ∧ resumable.train 5 = [5] ∧ (base.elems.map (·.1)).Nodup := by decide +kernel
theorem test_wit_fit (s : State) (die : Nat) : s.fitAt die 2097153 = none := by
  refine List.find?_eq_none.mpr fun c _ => ?_
  simp
/-- HostCommands: a module in recovery, a key that is not the channel's, a window and its edges, a START record whose PARAMP names LOCAL, and bodies at their
bounds. -/
def recovering : State := { up true with boot := { (up true).boot with recovery := true } }
theorem test_wit_recovery : cmdRev (packet 32 4 1 64) = 1 ∧ recovering.chanKey 32 = openKey ∧ recovering.lastSeq 32 < cmdSeq (packet 32 4 1 64) ∧
    [1, 4, 5, 6].all (fun k => !cmdBad (packet 32 k 1 64) k) = true ∧ (packet 32 5 1 64).body.length = 64 := by decide +kernel
def host (ws : List Window) : State := windowed ws (up true)
def lowWindow : Window := ⟨0, 65536⟩
def nextWindow : Window := ⟨65536, 65536⟩
theorem test_wit_loads : (host [lowWindow, nextWindow]).inWindows 0 65472 128 = true ∧ (host [lowWindow]).inWindows 0 65472 64 = true ∧ (host [lowWindow]).inWindows 0 65472 65 = false ∧
    (host []).inWindows 0 0x40 1 = false ∧ (host [lowWindow]).mayWrite 0 0x40 64 = true ∧ (host [lowWindow]).stacksReady 0 0x40 64 = true ∧ ptrSpace (mkPtr 0 0 0x40) = 0 ∧
    ptrOwner (mkPtr 0 0 0x40) = 0 := by decide +kernel
theorem test_wit_starts : ptrSpace (BitVec.ofNat 64 (bf (BitVec.ofNat 512 (2 ^ 381) : Vec) 383 320)) = 2 ∧ badRecord (BitVec.ofNat 512 (2 ^ 64 + 2 ^ 381)) .start = true ∧
    badRecord (BitVec.ofNat 512 (2 ^ 64)) .start = false := by decide +kernel
theorem test_wit_binds : (Part.fresh.bindOk (.endpoint 16 1 [])) = false ∧ ((host [lowWindow]).part 0).bindOk (.window .global nextWindow) = true ∧
    ((host [lowWindow]).part 0).bindOk (.dropWindow .global lowWindow) = true ∧ ((host [lowWindow]).part 0).bindOk (.dropWindow .global nextWindow) = false := by decide +kernel
theorem test_wit_replies : [(0 : Word), 1, 2, 3, 4, 5].length ≤ 6 ∧ (5 : Nat) < 256 ∧ (packet 32 8 1 64).chan = 32 ∧ ((some 7 : Option Nat).all fun g => decide (g < 8)) = true := by decide +kernel

/-- ModuleEvents: a bank whose record another key signed, a channel whose key is that of its count and one whose key is new, and a read and a write in a window. -/
theorem test_wit_banks : ({ State.reset.flash.bankA with recordKey := 9 } : FlashBank).recordKey ≠ State.reset.flash.opKey ∧
    alGet ({ State.reset.flash with seqKey := [(5, openKey)] } : Flash).seqKey 5 = some openKey ∧ alGet State.reset.flash.seqKey 5 ≠ some openKey := by decide +kernel
theorem test_wit_rdma : (host [lowWindow]).inWindows 0 0x40 8 = true ∧ (match (host [lowWindow]).globalXlate 0 0x40 with
    | (_, some (_, e)) => pteW e && pteR e | _ => false) = true ∧ 0x40 % 64 + 8 ≤ 64 ∧ (host [lowWindow]).boot.stage = 3 := by decide +kernel
def sentOut : State := { up true with reqs := [{ hostStore with stage := .remote }] }
theorem test_wit_answers : (sentOut.req? 5).any (fun q => q.id == 5 && q.stage == .remote && q.next == 0 && q.kind == .stg .n64 1) = true ∧ sentOut.boot.stage = 3 := by decide +kernel
theorem test_wit_votesIn : (voted 5 []).digests.map (fun d => (d.part, d.rset, d.dseq, alGet d.remote 1)) = [(0, 1, 0, none)] := by decide +kernel

/-! ### Every phase at a home, chains, and held stores -/

/-- A request at its home, whose granule holds a descriptor. -/
def homed (q : Req) (d : Nat) : State :=
  (asked { q with stage := .home, pas := [some (dieKey 0 0x40)] }).writeBytes (dieKey 0 0x40) (bytesOfNat 64 d)
/-- The next piece of request 5 is at its home and may be performed. -/
def performs (s : State) (p : Req → Vec → Bool) : Bool := match s.req? 5 with
  | some q => match (q.kind.pieces q.ptr)[q.next]?, q.pas[q.next]? with
    | some x, some (some key) => q.id == 5 && q.stage == .home && !s.ringFrozen q.lid && !s.blockedAtHome q && key % 64 == ptrOff x.ptr % 64 &&
        decide (key % 64 + x.n ≤ 64) && !s.faulty.contains (key / 64) && Memory.wf s.mem && decide (2 * (s.part 0).waits.length + 8 ≤ 2048) && p q (s.readVec (key / 64 * 64))
    | _, _ => false
  | none => false
/-- HomeEvents: each kind that moves bytes, with its first piece at its home. -/
theorem test_wit_pieces : [ReqKind.ldg .n64 .plain 0, .ldgv .plain 0, .gath .n32 0, .stg .n64 1, .scat .n32 0 1, .stgv 1 3, .atom false .add .n64 1, .faadd false .f32 1,
    .vatom .add .n32 0 1, .vrcl 1, .lockt, .unlockt].all (fun k => performs (homed (req k) 0) fun _ _ => true) = true ∧ Ty.isFloat .f32 = true := by decide +kernel
/-- HomeEvents: a load of each version: there, to come, retained, and gone. -/
theorem test_wit_versions : [ReqKind.ldg .n64 .ge 0, .ldg .n64 .ge 1, .ldg .n64 .eq 0, .ldg .n64 .eq 1, .ldg .n64 .eq 0xFFFF, .waitv 0, .waitv 1].map (fun k =>
      performs (homed (req k) 0) fun q _ => !q.sub.testBit q.next) = List.replicate 7 true ∧ base.ver (dieKey 0 0x40 / 64) = 0 ∧ ((0 : BitVec 16) - 1).toNat = 65535 ∧
    ((0 : BitVec 16) - 0xFFFF).toNat = 1 ∧ performs ({ homed { req (.ldg .n64 .eq 0xFFFF) with sub := 1 } 0 with stash := [⟨0, 0, dieKey 0 0x40 / 64, 0xFFFF, 9⟩] } : State) (fun q _ =>
      q.sub.testBit q.next) = true := by decide +kernel
theorem test_wit_tokens : performs ({ homed (req .lockt) 0 with locks := [⟨(req .lockt).token.1, (req .lockt).token.2, 7, 0, 0⟩] } : State) (fun q _ => q.kind == .lockt) = true ∧
    (homed (req .lockt) 0).lockWaiters (req .lockt).token = [] := by decide +kernel
/-- HomeEvents: BAR at a bad descriptor, as the last, as the first of two, and before the others of its generation. -/
def bar (d : Nat) (p : Nat → Nat → Nat → Bool) : Bool := performs (homed (req (.bar 0)) d) fun q c => q.sub / 2 != 1 && p (bf c 39 32) (bf c 47 40) (bf c 95 64)
theorem test_wit_bar : bar 0 (fun n _ _ => n == 0) = true ∧ bar (2 ^ 64 + 2 ^ 32) (fun n h l => n == 1 && h == 0 && l == 1) = true ∧
    bar (2 ^ 64 + 2 ^ 33) (fun n h l => n == 2 && h == 0 && l == 1) = true ∧ bar (2 ^ 64 + 2 ^ 40 + 2 ^ 33) (fun n h l => n == 2 && h == 1 && l == 1) = true := by decide +kernel
/-- HomeEvents: a channel at each phase: its ring at 0x100 of die memory, or at 0x100 of global memory. -/
def ring (depth sent rcvd cred tx rx : Nat) : Nat :=
  (mkPtr 1 0 0x100).toNat * 2 ^ 448 + depth * 2 ^ 432 + sent * 2 ^ 384 + rcvd * 2 ^ 352 + cred * 2 ^ 320 + tx * 2 ^ 288 + rx * 2 ^ 256
def channel (k : ReqKind) (count d : Nat) : State := homed { req k with count } d
theorem test_wit_arrivals : [ReqKind.chsend 1, .chrecv, .chcred 1].all (fun k => [0, ring 4 0 0 0 0 0, ring 4 0 0 0 9 9, ring 4 0 0 0 1 1].all fun d =>
    performs (channel k 0 d) fun q _ => q.count == 0) = true := by decide +kernel
theorem test_wit_channel : [(ReqKind.chsend 1, 1, ring 4 0 0 0 1 0), (.chsend 1, 1, ring 4 4 0 0 1 0), (.chsend 1, 1, ring 4 4 0 0 1 1), (.chsend 1, 2, ring 4 0 0 0 1 1),
    (.chsend 1, 3, ring 4 0 0 0 1 1), (.chrecv, 1, ring 4 1 0 0 1 1), (.chrecv, 1, ring 4 0 0 0 0 1), (.chrecv, 2, ring 4 1 0 0 1 1), (.chrecv, 3, ring 4 1 0 0 1 1),
    (.chcred 2, 1, ring 4 1 1 1 1 1), (.chcred 2, 1, ring 4 1 1 0 1 1)].all (fun x => performs (channel x.1 x.2.1 x.2.2) fun q _ => q.count == x.2.1) = true := by decide +kernel
def ringOk (s : State) (write : Bool) (p : State → Nat → Bool) : Bool := match s.ringKey (req .chrecv) (mkPtr 1 0 0x100) write with
  | (s1, .ok (k, _)) => k % 64 == 0 && p s1 k
  | (_, .error _) => false
theorem test_wit_ringSlot : ringOk base true (fun s1 _ => Memory.wf s1.mem) = true ∧ ringOk base false (fun s1 k => !s1.uncorrectable k) = true ∧
    (match ({ mapped 0x1F base with faulty := [4] } : State).ringKey (req .chrecv) (mkPtr 0 0 0x100) false with
    | (s1, .ok (k, _)) => k % 64 == 0 && s1.uncorrectable k
    | (_, .error _) => false) = true := by decide +kernel

/-- RequestProgress: a launch whose record waits on a full trap queue. -/
theorem test_wit_requestFrozen : (((asked (req (.stg .n64 1))).modPart 0 fun p => { p with ring := List.replicate 256 (trap .badSlot), pending := [trap .badSlot] }).ringFrozen 1) = true ∧
    ((asked (req (.stg .n64 1))).ringFrozen 1) = false := by decide +kernel
/-- RequestProgress: a chained request in its turn, out of its turn, behind another at its home and elsewhere, and behind a held one. -/
def chained (k : ReqKind) (p : Word) (at_ : Nat) (last : Option (Nat × Nat)) (st : Stage) : State :=
  { asked { req k with ptr := p, chain := some (0, 0, 0) } with
    chains := [⟨1, 0, 0, [(0, 0), (1, 0)], 0, at_, [], last⟩], reqs := [{ req k with ptr := p, chain := some (0, 0, 0) }, { req k with id := 4, stage := st, chain := some (0, 1, 0) }] }
def inChain (s : State) (p : Req → ChainPos → Bool) : Bool := match s.req? 5 with
  | some q => q.stage == .queued && !s.shelved q.lid && s.scopeOk q && !(q.kind.pieces q.ptr).isEmpty && (match s.chainOf q with
    | some c => p q c
    | none => false)
  | none => false
def turnOf (q : Req) (c : ChainPos) : Bool := q.chain == some (0, (c.steps.getD c.at_ (0, 0)).1, c.round)
def homesOf (s : State) (q : Req) : List Nat := (q.kind.pieces q.ptr).filterMap fun x => match goes s q x with | .home k _ false => some (homeOf k) | _ => none
theorem test_wit_chains : inChain (chained (.stg .n64 1) (mkPtr 1 0 0x40) 0 none .done) (fun q c => turnOf q c && !(chained (.stg .n64 1) (mkPtr 1 0 0x40) 0 none .done).holds q &&
      homesOf base q == [homeOf (dieKey 0 0x40)]) = true ∧
    inChain (chained (.stg .n64 1) (mkPtr 1 0 0x40) 1 none .done) (fun q c => !turnOf q c) = true ∧
    [(homeOf (dieKey 0 0x40), Stage.home, true), (homeOf (dieKey 0 0x40) + 1, .home, false), (homeOf (dieKey 0 0x40), .held, false), (0, .done, true)].all (fun y =>
      inChain (chained (.stg .n64 1) (mkPtr 1 0 0x40) 0 (some (4, y.1)) y.2.1) fun q c => turnOf q c && c.last == some (4, y.1)) = true ∧
    inChain (chained (.stg .n64 1) (mkPtr 0 0 0x40) 0 none .done) (fun q c => turnOf q c && (q.kind.pieces q.ptr).any fun x => goes base q x == .miss) = true ∧
    inChain (mapped 0x19 (chained (.stg .n64 1) (mkPtr 0 0 0x40) 0 none .done)) (fun q c => turnOf q c &&
      (q.kind.pieces q.ptr).all fun x => goes (mapped 0x19 (chained (.stg .n64 1) (mkPtr 0 0 0x40) 0 none .done)) q x == .denied) = true := by decide +kernel
/-- RequestProgress: a load of sixteen pieces, and one behind another of its cluster. -/
theorem test_wit_manyPieces : ((req (.gath .n32 0)).kind.pieces (mkPtr 1 0 0x40)).length = 16 ∧ homesOf base (req (.gath .n32 0)) ≠ [] ∧
    ({ asked (req (.gath .n32 0)) with reqs := [req (.gath .n32 0), { req .vqry with id := 4 }] } : State).reqs.any (fun r => r.id < 5 && r.chain.isNone && r.stage == .queued) = true := by
  decide +kernel
/-- RequestProgress: a held store that its invocation's end has let go, for die memory and for a host, alone and behind another; one not yet let go. -/
def letGo (q : Req) (l : List Req) : State := { asked { q with stage := .held, released := true } with reqs := { q with stage := .held, released := true } :: l }
theorem test_wit_released : ((letGo { req (.stg .n64 1) with pas := [some (dieKey 0 0x40)] } []).req? 5).any (fun q => q.stage == .held && q.released && q.chain.isNone && q.pas != []) = true ∧
    ((letGo { req (.stg .n64 1) with ptr := mkPtr 5 0 0x40, pas := [none] } []).req? 5).any (fun q => q.pas.all (·.isNone) && q.next == 0) = true ∧
    (letGo (req (.stg .n64 1)) [{ req .vqry with id := 4, stage := .held, arr := 2 }]).reqs.any (fun r => r.stage == .held && r.id != 5 && decide (r.arr < 5)) = true := by decide +kernel
/-- RequestProgress: one of two reads of an FSCAN is answered. -/
def scanning : State := due (.scan ⟨0, 1, true, 1, 0, 1, mkPtr 1 0 0x40, 0⟩ [(⟨mkPtr 1 0 0x40, 64, 0⟩, 5), (⟨mkPtr 1 0 0x80, 64, 0⟩, 6)] [])
  { asked { req (.ldgv .plain 0) with dst := [], stage := .done } with serial := 9 }
theorem test_wit_scanAnswer : (scanning.req? 5).any (fun q => q.value.isSome && q.stage == .done) = true ∧ (scanning.active 0).isSome = true ∧
    (scanning.firing? 0).any (fun f => f.fid == 0 && (f.due.find? fun d => d.slot == 0).isSome) = true := by decide +kernel

/-! ### Engine events, collectives of several parts, the wait-for table, and dissent -/

def allEvents (c : EngCmd) (p : EngEvent → Bool) : Bool := !c.events.isEmpty && c.events.all p
def gathRec : Vec := copyRec ||| BitVec.ofNat 512 ((loc 0x2800).toNat * 2 ^ 320)
/-- EngineExecution: a copy that reads, one that writes, a gather that needs its index, and one whose source has no translation; from a host. -/
theorem test_wit_engineEvents : allEvents (command .copy copyRec) (fun v => match v with | .read l => !l.isEmpty | _ => false) = true ∧
    allEvents { command .copy copyRec with rd := (List.range 64).map fun i => (i, 0) } (fun v => match v with | .write l => !l.isEmpty | _ => false) = true ∧
    allEvents (command .gath gathRec) (fun v => match v with | .index j => j == 0 | _ => false) = true ∧
    (command .copy copyRec).moves.all (fun m => base.localAny 0 ((command .copy copyRec).srcPtr m) 1 == none && base.localAny 0 ((command .copy copyRec).dstPtr m) 1 == none) = true ∧
    (List.range 4).all (fun i => base.localAny 0 (ptrAdd (engAux gathRec) i) 1 == none) = true ∧ base.engMisses 0 (mkPtr 0 0 0x40) = true ∧
    (windowed [⟨0, 65536⟩] base).remoteOk 0 (mkPtr 5 0 0x40) 64 = true ∧ alGet ({ command .gath gathRec with idxs := [(0, 3)] } : EngCmd).idxs (0 / 64) = some 3 := by decide +kernel

/-- Collectives: two groups of a launch, one of two modules, a source that cannot be read, and a record that is no root's. -/
def parts2 (r r' : Vec) : List CollPart := [{ collPart 0 with recd := r }, { collPart 0 with recd := r', g := 1 }]
def coll2 (r r' : Vec) (ws : List (Nat × CollHead × List Byte)) : Coll := { coll 0 with parts := parts2 r r', wires := ws }
def sending (n : Nat) (c : Coll) : State := { base with launches := [{ Launch.probe with recd := BitVec.ofNat 512 (n * 2 ^ 64) }], colls := [c] }
def sent (n : Nat) (c : Coll) (e w : Ty) (m : Nat) : CollRun := (sending n c).collSend c e w m (m * n)
def wiresOf (x : CollRun) : List (Nat × Nat) := match x.st.colls with | [c] => c.wires.map fun y => (y.1, y.2.2.length) | _ => []
def collFar : Vec := BitVec.ofNat 512 ((mkPtr 2 1 0x2000).toNat * 2 ^ 448 + (loc 0x3000).toNat * 2 ^ 384 + 2 ^ 224 + 4 * 2 ^ 152 + 4 * 2 ^ 148)
theorem test_wit_collectives2 : (sent 2 (coll2 collRec collRec []) .i32 .i32 1).fault = none ∧ wiresOf (sent 2 (coll2 collRec collRec []) .i32 .i32 1) = [(0, 4), (1, 4)] ∧
    wiresOf (sent 2 (coll2 collRec collRec []) .i32 .i32 2) = [(0, 4), (1, 4)] ∧ (sent 2 (coll2 collFar collFar []) .i32 .i32 1).fault.isSome = true ∧
    wireHead { collPart 0 with recd := collRec } = wireHead { collPart 0 with recd := collRec, g := 1 } ∧
    wireHead { collPart 0 with recd := collRec } ≠ wireHead { collPart 0 with recd := collRec ||| 2 ^ 156 } := by decide +kernel
/-- Collectives: a record of BF16 wires for F32 elements with a residual, one of a root elsewhere, and one that waits for earlier requests. -/
def collFloat : Vec := BitVec.ofNat 512 ((loc 0x2000).toNat * 2 ^ 448 + (loc 0x3000).toNat * 2 ^ 384 + (loc 0x2800).toNat * 2 ^ 320 + 2 ^ 224 + 2 ^ 176 + 8 * 2 ^ 152 + 9 * 2 ^ 148)
theorem test_wit_collFloat : collTys collFloat = some (.f32, .bf16) ∧ collRes collFloat = loc 0x2800 ∧ collRoot collFloat = 1 ∧ (collPart 0).g ≠ collRoot collFloat ∧
    ((CollRun.mk base none).read 0 0 (collSrc collFloat) 4).1.fault = none ∧ ((CollRun.mk base none).read 0 0 (collRes collFloat) 4).1.fault = none ∧
    (∃ n ∈ (asked (req (.stg .n64 1))).pendingOf 0, n ∈ ({ collPart 0 with before := [5] } : CollPart).before) ∧ (up true).boot.stage = 3 ∧ alGet (coll 0).wires 1 = none ∧
    (List.range 4).all (fun i => base.localAny 0 (ptrAdd (collSrc collRec) i) 1 == none && base.localAny 0 (ptrAdd (collDst collRec) i) 1 == none) = true := by decide +kernel

/-- The wait-for table: entries by launch, waiter and holder. -/
def entry (serial lid rank hlid : Nat) (ha : Bool) (hrank : Nat) : WaitEntry :=
  { manual false with idx := serial, serial, kind := 2, wlid := lid, wrank := rank, hlid, ha, hrank }
def table (l : List WaitEntry) (walks : List Nat) : State := base.modPart 0 fun p => { p with waits := l, walks }
/-- Element 0 of launch 8 waits for launch 9, which waits for it. -/
def loop : List WaitEntry := [entry 1 8 0 9 false 0, entry 2 9 3 8 true 0]
/-- Two such cycles. -/
def loops : List WaitEntry := [entry 1 8 0 9 false 0, entry 2 9 3 8 true 0, entry 3 8 1 10 false 0, entry 4 10 3 8 true 1]
def fan : List WaitEntry := entry 1 8 0 9 false 0 :: (List.range 300).map fun i => entry (2 + i) 9 i 7 true 0
def walked (s : State) (w : WaitEntry) : Option (List Nat) × Nat := ((s.walkWaits 0 w 16 [w] 256).1.map fun c => c.map (·.serial), (s.walkWaits 0 w 16 [w] 256).2)
theorem test_wit_walks : (table loop [1]).blocked (entry 1 8 0 9 false 0) = true ∧ (walked (table loop []) (entry 1 8 0 9 false 0)).1 = some [1, 2] ∧
    ((walked (table [entry 1 8 0 9 false 0] []) (entry 1 8 0 9 false 0)).1 = none ∧ (walked (table [entry 1 8 0 9 false 0] []) (entry 1 8 0 9 false 0)).2 ≠ 0) ∧
    walked (table fan []) (entry 1 8 0 9 false 0) = (none, 0) ∧ ((table loop [1]).part 0).walks = [1] ∧
    (((table loop [1]).part 0).waits.filter fun y => y.serial == 1) = [entry 1 8 0 9 false 0] := by decide +kernel
def performed : State := { table [{ entry 1 1 0 9 false 0 with req := some 5 }] [1] with reqs := [{ req (.waitv 0) with stage := .waiting, pas := [some 64] }] }
theorem test_wit_walkDone : performed.blocked { entry 1 1 0 9 false 0 with req := some 5 } = false ∧ (performed.part 0).walks = [1] := by decide +kernel
theorem test_wit_twoWalks : [(loop, 2, some [2, 1]), (loops, 3, some [3, 4])].all (fun x =>
    let s := table x.1 []
    let w := if x.2.1 = 2 then entry 2 9 3 8 true 0 else entry 3 8 1 10 false 0
    let t := s.deadlock 0 loop
    s.blocked (entry 1 8 0 9 false 0) && (walked s (entry 1 8 0 9 false 0)).1 == some [1, 2] && t.blocked w && (walked t w).1 == x.2.2) = true := by decide +kernel
/-- A table without room loses the wait. -/
def crowd (a b : Nat) : List WaitEntry := List.replicate a (manual false) ++ List.replicate b { manual false with spill := true }
theorem crowd_table (a b : Nat) : ((crowd a b).filter fun y => !y.spill).length = a ∧ (crowd a b).length = a + b := by
  simp [crowd, manual, List.filter_append]
def crowded (inc : Bool) (a b : Nat) : Part := { Part.fresh with waits := crowd a b, wtInc := inc }
theorem crowded_full (inc : Bool) (a b : Nat) (ha : a = 2048) (hb : b = 2 ^ 20) : 2048 ≤ ((crowded inc a b).waits.filter fun y => !y.spill).length ∧
    ((crowded inc a b).waits.filter fun y => !y.spill).length + 2 ^ 20 ≤ (crowded inc a b).waits.length := by
  have h := crowd_table a b
  simp only [crowded]
  omega
theorem test_wit_lost (inc : Bool) (w : WaitEntry) (a b : Nat) (ha : a = 2048) (hb : b = 2 ^ 20) :
    ((crowded inc a b).addWait w).waits.length ≠ (crowded inc a b).waits.length + 1 ∧ (crowded inc a b).wtInc = inc := by
  have h := crowd_table a b
  have e : placeFor (crowded inc a b).waits = none := by
    simp only [placeFor, crowded, h.1, h.2, tableSize, spillSize]
    rw [if_neg (by omega), if_neg (by omega)]
  refine ⟨?_, rfl⟩
  simp only [Part.addWait, e]
  omega
theorem test_wit_room : ¬ (2048 ≤ ((table loop []).part 0).waits.length) ∧ (((table loop []).part 0).waits.map (·.serial)).Nodup ∧ (base.parts.map (·.1)).Nodup ∧
    Memory.wf (table loop []).mem = true ∧ ((table loop []).parts.map (·.1)) = [0] := by decide +kernel
/-- WREG with B = 0: a launch that holds the granule, and none. -/
theorem test_wit_wregAll : bf ((ports 0 0 0 base).portS .b) 31 0 = 0 ∧ ((waited true).part 0).waits.map (fun w => (w.kind, w.obj, w.hlid)) = [(7, 0, 1)] ∧
    ((waited true).part 0).waits.length + Nat.max 1 1 ≤ 2048 + 2 ^ 20 ∧ (base.part 0).waits = [] := by decide +kernel
/-- A deadlock's record without a handler, and one whose handler has ended with each action. -/
def dlk (handled : Bool) : Trap := { trap .deadlock with handled, cycle := loop }
def dlkLogged : Logged := { trap := dlk true, gaddr := 0x40, handler := 5, action := none }
def dlkActing (a : Nat) : State := { ((mapped 0x1F base).writeBytes 0x78 (bytesOfNat 1 a)).modPart 0 fun p => { p with logged := [dlkLogged], waits := loop } with
  launches := [Launch.probe, { asking 0 with st := .done }] }
theorem test_wit_dlk : (dlk false).ocode = .deadlock ∧ (dlk false).cycle = loop ∧ (dlk true).precise = false ∧ [0, 1, 2].all (fun a => (dlkActing a).handlerOver 5 &&
    (dlkActing a).readAction dlkLogged == a) = true ∧ (table loop []).waitsOf 0 = loop := by decide +kernel
/-- DigestsAndSnapshots: most replicas agree and one dissents, or one is silent when the time is up. -/
theorem test_wit_dissent : (voteOf (voted 5 [(1, 5), (2, 6)]) fun n h => !h.contains none && decide (n < 2 * h.count (some 5)) && h.any (· != some 5)) = true ∧
    (voteOf (voted 5 [(1, 5)]) fun n h => h.contains none && decide (n < 2 * h.count (some 5))) = true := by decide +kernel

/-! ### Full rings, handlers, packets of a host, and what waits for a boundary -/

def stopped (s : State) : State := s.modPart 0 fun p => { p with ring := List.replicate 256 (trap .badSlot), pending := [trap .badSlot] }
/-- LaunchStartsAndEnds, TrapRecords: a launch that is over but whose record waits at a full ring; a record that waits for the stores of ended invocations. -/
theorem test_wit_endFrozen : (stopped (ended .running)).ringFrozen 1 = true ∧ (ended .running).ringFrozen 1 = false := by decide +kernel
def invved : Part := { Part.fresh with pending := [{ trap .badSlot with invv := true }] }
theorem test_wit_storesDue : (invved.nextTrap 1).any (fun t => t.invv && t.lid == 1) = true ∧
    (letGo (req (.stg .n64 1)) []).reqs.any (fun q => q.lid == 1 && q.released && !q.acked) = true := by decide +kernel
/-- TrapHandling: a handler record whose PARAMP lies outside the partition's memory. -/
def badHandler : Vec := BitVec.ofNat 512 (2 ^ 64 + (mkPtr 1 1 0).toNat * 2 ^ 320)
theorem test_wit_badHandler : (match (notified (some 0x40) true).readParams 0 0 none (BitVec.ofNat 64 (bf badHandler 383 320)) with | (_, .error x) => x.1 == .spaceViolation | _ => false) = true := by
  decide +kernel
/-- BlockEnds: an emulated exit beside another exit; one of the same emulation is not. -/
def twoExits : State := emuRetire.modFiring 0 fun f => { f with exit := some .retire, exitBy := 5 }
theorem test_wit_twoExits : (on twoExits fun f _ => f.exit.isSome && f.emulatedExits.any (fun sl => !(f.exit.isSome && f.exitBy == sl.id) && !sameEmulation f.exitBy sl.id)) = true := by decide +kernel
/-- EdgeEvents: a cluster of the edge's launch, which its flits may cross. -/
theorem test_wit_router : (({ base with binds := [{ die := 0, slot := 0, lid := 1, g := 0, ngroup := 1, part := 0, prio := 0, iprio := 0, valid := true, matrix := false, det := false, armed := false, succ := false, rx := 0, ry := 0, rw := 1, rh := 1, imgp := 0, tickb := 0 }] } : State).bindAt 0).any
    (fun b => b.lid == (edge 1 1 0 0).lid && b.g == (edge 1 1 0 0).g) = true := by decide +kernel
/-- ModuleEvents: a page that may only be read, one that may not be read, and a granule with an uncorrectable error, in a window of the host's. -/
def page (e : Word) (bad : List Nat) : State := { windowed [lowWindow] (mapped e base) with faulty := bad, boot := (up true).boot }
def pageIs (s : State) (r w u : Bool) : Bool := s.boot.stage == 3 && s.inWindows 0 0x40 8 && (match s.globalXlate 0 0x40 with
  | (s1, some (pa, e)) => pteR e == r && pteW e == w && s1.uncorrectable pa == u
  | (_, none) => false)
theorem test_wit_pages : pageIs (page 0x1F []) true true false = true ∧ pageIs (page 0x1B []) true false false = true ∧ pageIs (page 0x1D []) false true false = true ∧
    pageIs (page 0x1F [1]) true true true = true := by decide +kernel
/-- HostCommands: a START whose record's PARAMP is 0, cannot be read, names LOCAL, or names a stack that is not ready; and a MAP and a LOAD that need one. -/
def starting (p : Word) : Cmd := { packet 0 2 1 64 with body := vecBytes (BitVec.ofNat 512 (2 ^ 64 + p.toNat * 2 ^ 320)) }
def cold : State := { up true with boot := { (up true).boot with hbm := 0 } }
theorem test_wit_startBodies : [0, mkPtr 1 1 0, loc 0x100, mkPtr 0 0 0x40].all (fun p => goodBool (up true) (starting p) 2 && goodBool cold (starting p) 2 &&
      BitVec.ofNat 64 (bf (vecOfBytes (starting p).body) 383 320) == p) = true ∧
    (match ((up true).readParams 0 0 none (mkPtr 1 1 0)).2 with | .error _ => true | .ok _ => false) = true ∧ (up true).paramsReady 0 (mkPtr 1 1 0) = true ∧
    cold.paramsReady 0 (mkPtr 0 0 0x40) = false ∧ cold.boot.hbm ≠ BitVec.allOnes 24 ∧ (up true).boot.hbm = BitVec.allOnes 24 ∧ cold.stacksReady 0 0x40 64 = false ∧
    (cold.ptSet 0 (2 ^ 36) 3 0x1F).isSome = true := by decide +kernel
/-- TickAndClockEvents: a quantum that has arrived whole and one that has not, a SNAP.TICK, and a pre-emption open for 1,024 ticks. -/
theorem test_wit_quanta : (let l : List Arrived := [⟨7, false, .writeAck 5⟩, ⟨7, true, .writeAck 6⟩, ⟨8, false, .writeAck 7⟩]
    l.map fun x => l.any fun y => y.quantum == x.quantum && y.last) = [true, true, false] ∧
    1024 ≤ (2 ^ 64 + (preempting (some ⟨1, 3, 0⟩) 1024).clock.tick - 0) % 2 ^ 64 := by decide +kernel
/-- MatrixCommands: a successor's element while an actor of its predecessor has not finished. -/
theorem test_wit_precedes : (spliced (some Image.probe) .running).precedes 5 0 = true := by decide +kernel

end Sys2Proof.Tests
end

