-- ==== Sys2Proof/Proofs/Launch.lean ====
section
/-! Launching (R110 to R128): the steps by which a record is accepted, what they leave of the list of launches, and the state that refutes
LaunchRecords, in which the new id is still that of a running launch. -/

namespace Sys2Proof.Machine

/-! ## What leaves the list of launches as it was -/

@[simp] theorem State.inherit_launches (s : State) (part : Nat) : (s.inherit part).launches = s.launches := rfl

@[simp] theorem State.dropWaits_launches (s : State) (part : Nat) (p : WaitEntry → Bool) : (s.dropWaits part p).launches = s.launches := by
  unfold State.dropWaits; split <;> rfl

@[simp] theorem State.settleTable_launches (s : State) (part : Nat) : (s.settleTable part).launches = s.launches := by
  unfold State.settleTable; split <;> rfl

theorem State.launch?_congr {s t : State} (h : t.launches = s.launches) (lid : Nat) : t.launch? lid = s.launch? lid := by
  simp only [State.launch?, h]

theorem State.running_congr {s t : State} (h : t.launches = s.launches) (lid : Nat) : t.running lid = s.running lid := by
  simp only [State.running, State.launch?_congr h]

/-! ## Stopping a launch that runs alone (R133) -/

/-- A launch as its stop leaves it. -/
def Launch.stopped (st : LState) (reason : Nat) (l : Launch) : Launch := { l with st, reason, succ := none }

theorem State.unshelve_of_unsaved {s : State} {lid : Nat} {l : Launch} (hl : s.launch? lid = some l) (hs : l.saved = none) :
    s.unshelve lid = s := by
  simp [State.unshelve, hl, hs]

theorem State.stopOne_launches {s : State} {lid : Nat} {l : Launch} (st : LState) (reason : Nat) (hl : s.launch? lid = some l)
    (hs : l.saved = none) : (s.stopOne lid st reason).launches = modWhere (fun x => x.lid == lid) (Launch.stopped st reason) s.launches := by
  unfold State.stopOne
  rw [State.unshelve_of_unsaved hl hs]
  simp only [State.settleTable_launches, State.modLaunch, State.modPart_launches, State.dropWaits_launches]
  rfl

theorem State.wavefront_of_sameLid {s : State} {l : Launch} (h : ∀ x ∈ s.launches, x.lid = l.lid) : s.wavefront l = [] := by
  unfold State.wavefront
  split
  · exact List.filter_eq_nil_iff.2 fun x hx => by simp [h x hx]
  · rfl

@[simp] theorem State.rejectSucc_none (s : State) (n : Nat) : s.rejectSucc n none = s := by
  cases n <;> rfl

/-- Every launch of the id takes the end state: the stop goes by the id, not by the launch. -/
theorem State.stopLaunch_launches {s : State} {l : Launch} (st : LState) (reason : Nat) (hl : s.launch? l.lid = some l) (hrun : l.st = .running)
    (hs : l.saved = none) (hsucc : l.succ = none) (hone : ∀ x ∈ s.launches, x.lid = l.lid) :
    (s.stopLaunch l.lid st reason).launches = modWhere (fun x => x.lid == l.lid) (Launch.stopped st reason) s.launches := by
  simp only [State.stopLaunch, hl, hrun, LState.final, State.wavefront_of_sameLid hone]
  simp [hsucc, State.stopOne_launches st reason hl hs]

/-! ## A fault-path slot that escalates (R152, R341) -/

/-- A slot that remaps its code with ESC. -/
def escalates (v : BitVec 256) : Bool := bf v 215 213 == 1 && v.getLsbD 209

theorem State.formTrap_of_escalates {s : State} {t : Trap} {i : Nat} {v : BitVec 256} (h : s.fltSlot t.code.num t.part = some (i, v))
    (hv : escalates v = true) : (s.formTrap t).1.launches = s.launches ∧ (s.formTrap t).2.esc = true ∧ (s.formTrap t).2.lid = t.lid := by
  obtain ⟨hact, hesc⟩ : bf v 215 213 = 1 ∧ v.getLsbD 209 = true := by simpa [escalates] using hv
  simp [State.formTrap, h, hact, hesc, State.pushTrap]

/-- The notice stops the launch that its record names when it runs. -/
theorem State.notice_of_escalates {s : State} {t : Trap} {i : Nat} {v : BitVec 256} {l : Launch}
    (h : s.fltSlot t.code.num t.part = some (i, v)) (hv : escalates v = true) (ht : t.lid = l.lid) (hl : s.launch? l.lid = some l)
    (hrun : l.st = .running) (hs : l.saved = none) (hsucc : l.succ = none) (hone : ∀ x ∈ s.launches, x.lid = l.lid) :
    ∃ reason, (s.notice t).launches = modWhere (fun x => x.lid == l.lid) (Launch.stopped .faulted reason) s.launches := by
  obtain ⟨hform, hesc, hlid⟩ := State.formTrap_of_escalates h hv
  have hfound : (s.formTrap t).1.launch? l.lid = some l := by rw [State.launch?_congr hform, hl]
  have hruns : (s.formTrap t).1.running l.lid = true := by simp [State.running, hfound, hrun]
  refine ⟨(s.formTrap t).1.reasonOf (s.formTrap t).2, ?_⟩
  rw [State.notice, State.escalate, hesc, hlid, ht, hruns, Bool.and_self, if_pos rfl,
    State.stopLaunch_launches _ _ hfound hrun hs hsucc (by rwa [hform]), hform]

/-! ## A wait for which both stores are full (R319) -/

theorem placeFor_of_full {l : List WaitEntry} (ht : (l.filter fun w => !w.spill).length = tableSize) (hl : l.length = tableSize + spillSize) :
    placeFor l = none := by
  simp [placeFor, ht, hl]

theorem Part.addWait_of_full {p : Part} (h : placeFor p.waits = none) (w : WaitEntry) : p.addWait w = p := by
  simp only [Part.addWait, h]

theorem Part.addWaits_of_full {p : Part} (h : placeFor p.waits = none) (ws : List WaitEntry) : ws.foldl Part.addWait p = p := by
  induction ws with
  | nil => rfl
  | cons w ws ih => rw [List.foldl_cons, Part.addWait_of_full h, ih]

theorem State.beginWait_of_full {s : State} {part : Nat} (h : placeFor (s.part part).waits = none) (w : WaitEntry) (ws : List WaitEntry) :
    s.beginWait part (w :: ws) = ((s.modPart part id).untrackedWait part w).inherit part := by
  have hadd : s.modPart part (fun p => (w :: ws).foldl Part.addWait p) = s.modPart part id := by
    simp only [State.modPart, Part.addWaits_of_full h, id]
  have hlost : (s.part part).waits.length + (w :: ws).length ≠ (s.part part).waits.length := by simp
  simp only [State.beginWait, hadd, State.modPart_part, id, bne_iff_ne, ne_eq, hlost, not_false_eq_true, if_true]

/-- One entry at least stands for a wait, and its waiter is the one given. -/
theorem WaitEntry.held_eq_cons (w : WaitEntry) (lids : List Nat) : ∃ x xs, w.held lids = x :: xs ∧ x.wlid = w.wlid := by
  cases lids with
  | nil => exact ⟨w, [], rfl, rfl⟩
  | cons l lids => exact ⟨{ w with hlid := l }, lids.map fun l => { w with hlid := l }, rfl, rfl⟩

/-- The version wait of a new launch that finds both stores full: the notice of it carries the new id, so a slot that escalates stops the
launches of that id, the running one and the new one (R319, R341). -/
theorem State.awaitDep_of_full {s : State} {l old : Launch} {i : Nat} {v : BitVec 256} (hfull : placeFor (s.part l.part).waits = none)
    (hfirst : (s.part l.part).wtInc = false) (hslot : s.fltSlot TrapCode.waitTableIncomplete.num l.part = some (i, v))
    (hv : escalates v = true) (hlid : l.lid = old.lid) (hold : s.launch? old.lid = some old) (hrun : old.st = .running)
    (hs : old.saved = none) (hsucc : old.succ = none) (hone : ∀ x ∈ s.launches, x.lid = old.lid) :
    ∃ reason, (s.awaitDep l).launches = modWhere (fun x => x.lid == old.lid) (Launch.stopped .faulted reason) s.launches := by
  obtain ⟨w, ws, hw, hwl⟩ := WaitEntry.held_eq_cons
    { WaitEntry.blank 5 l.depp with wlid := l.lid, wl := true, wprio := l.prio } (s.holdersOf l.part l.depp)
  rw [State.awaitDep, hw, State.beginWait_of_full hfull, State.inherit_launches, State.untrackedWait]
  simp only [State.modPart_part, id, hfirst]
  exact State.notice_of_escalates hslot hv (hwl.trans hlid) hold hrun hs hsucc hone

/-! ## Accepting a record (R111, R124) -/

/-- The launch that a record becomes. -/
def State.newLaunch (s : State) (part : Nat) (recd : Vec) (params : List Word) (form : Form) : Launch :=
  { Launch.fresh (2 ^ 27 * part + nextSerial 27 (s.part part).lidSerial) part (withCountOf recd form) params form s.clock.cycle with
    st := (s.acceptance part recd form).1, reason := (s.acceptance part recd form).2 }

/-- A launch has its id and stands last in the list and in its queue. -/
def State.queued (s : State) (part : Nat) (l : Launch) : State :=
  ({ s with launches := (s.launches.filter fun (x : Launch) => x.lid != l.lid || !x.st.final) ++ [l] }.modPart part fun p =>
    { p with lidSerial := nextSerial 27 (s.part part).lidSerial }).enqueue part l.queue l.lid

theorem State.submit_of_waiting {s : State} {part : Nat} {recd : Vec} {params : List Word} {form : Form}
    (h : (s.acceptance part recd form).1 = .waiting) (hform : form ≠ .splice) :
    s.submit part recd params form = ((s.queued part (s.newLaunch part recd params form)).awaitDep (s.newLaunch part recd params form),
      (s.newLaunch part recd params form).status) := by
  rcases hacc : s.acceptance part recd form with ⟨st, reason⟩
  obtain rfl : st = .waiting := by rwa [hacc] at h
  simp only [State.submit, State.newLaunch, hacc, hform, LState.final, if_false, if_true, Bool.false_eq_true]
  rfl

/-- The launch instructions once the record and its parameters are read and the priority is allowed. -/
theorem State.launchHere_of_read {s : State} {o : Nat} {ps : List Word} (a b : Target) (form : Form)
    (hrec : s.recordCheck (s.portS .a) = .ok o) (hpart : s.herePart = 0)
    (hread : s.readParams s.herePart s.focus.rank (s.here.map fun x => (x.2.lid, x.2.g)) (BitVec.ofNat 64 (bf (s.localVec o) 383 320)) = (s, .ok ps)) :
    s.launchHere a b form = .next ((s.countLaunch.submit s.herePart (s.localVec o) ps form).1.out2 a b
      (s.countLaunch.submit s.herePart (s.localVec o) ps form).2) := by
  simp only [State.launchHere, State.launchRecord, hrec, hread]
  simp [hpart]

theorem State.out2_discard (s : State) (w : Word) : s.out2 .discard .discard w = s := by
  unfold State.out2 State.deliverAll State.deliverAll State.deliverAll State.deliverOrd
  split <;> rfl

/-! ## A record whose id is still that of the running launch that issues it -/

/-- Both stores of a wait-for table full of entries. -/
def fullWaits : List WaitEntry :=
  List.replicate tableSize (WaitEntry.blank 0 0) ++ List.replicate spillSize { WaitEntry.blank 0 0 with spill := true }

theorem placeFor_fullWaits : placeFor fullWaits = none :=
  placeFor_of_full (by simp [fullWaits, WaitEntry.blank]) (by simp [fullWaits])

/-- A fault-path slot of partition 0 that remaps WaitTableIncomplete to itself with ESC. -/
def escalatingSlot : BitVec 256 := BitVec.ofNat 256 (0x18 * 2 ^ 248 + 2 ^ 216 + 2 ^ 213 + 2 ^ 209 + 0x18 * 2 ^ 201)

/-- A launch record of one group with a dependence (NGROUP 1, DEPK 1). -/
def dependentRecord : Vec := BitVec.ofNat 512 (2 ^ 64 + 2 ^ 41)

/-- Launch 1 of partition 0 runs and issues LAUNCH, with the record in its local memory; the serials of the partition have wrapped, so the next id is
1 again. The wait-for table and its spill region are full, and the escalating slot is in force. -/
def wrapped : State :=
  let s := ((State.reset.withFetchWord 32 0).modPart 0 fun p => { p with lidSerial := 2 ^ 27 - 1, waits := fullWaits }).modFiring 0 fun f =>
    f.modSlot 0 fun z => { z with a := some (.s (mkPtr 2 0 0x100)) }
  { s with thatch := { s.thatch with flt := [escalatingSlot] } }.writeBytes (localKey 0 0x100) (vecBytes dependentRecord)

theorem wrapped_record : wrapped.recordCheck (wrapped.portS .a) = .ok 0x100 := by rfl

theorem wrapped_localVec : wrapped.localVec 0x100 = dependentRecord := by decide +kernel

theorem wrapped_herePart : wrapped.herePart = 0 := by decide +kernel

theorem wrapped_readParams (rank : Nat) (who : Option (Nat × Nat)) :
    wrapped.readParams 0 rank who (BitVec.ofNat 64 (bf dependentRecord 383 320)) = (wrapped, .ok (List.replicate 16 0)) := by
  have hp : BitVec.ofNat 64 (bf dependentRecord 383 320) = 0 := by decide +kernel
  simp [State.readParams, hp]

/-- The launch that the record becomes, with the id of the issuing one. -/
def aliased : Launch := wrapped.countLaunch.newLaunch 0 dependentRecord (List.replicate 16 0) .launch

/-- The state in which its wait begins. -/
def aliasing : State := wrapped.countLaunch.queued 0 aliased

theorem aliased_waiting : (wrapped.countLaunch.acceptance 0 dependentRecord .launch).1 = .waiting := by decide +kernel

theorem wrapped_submit :
    (wrapped.countLaunch.submit 0 dependentRecord (List.replicate 16 0) .launch).1 = aliasing.awaitDep aliased := by
  rw [State.submit_of_waiting aliased_waiting (by decide), aliasing, aliased]

theorem aliasing_launches : aliasing.launches = [Launch.probe, aliased] := by decide +kernel

theorem aliasing_waits : (aliasing.part 0).waits = fullWaits := by rfl

/-- The running launch and the one that waits for its dependence are stopped together. -/
theorem aliased_faulted : ∃ reason, (aliasing.awaitDep aliased).launches =
    [Launch.probe, aliased].map (Launch.stopped .faulted reason) := by
  have hsame : aliased.lid = Launch.probe.lid := by decide +kernel
  obtain ⟨reason, h⟩ := State.awaitDep_of_full (s := aliasing) (l := aliased) (old := Launch.probe) (i := 0) (v := escalatingSlot)
    (by rw [show aliased.part = 0 from rfl, aliasing_waits, placeFor_fullWaits]) (by decide +kernel) (by decide +kernel) (by decide +kernel)
    hsame (by decide +kernel) rfl rfl rfl (by simp [aliasing_launches, hsame])
  exact ⟨reason, by rw [h, aliasing_launches]; simp [modWhere, hsame]⟩

/-- Refutes O36: the new id may still be that of a running launch, here the issuing one, 2^27 launches later. LAUNCH answers WAITING for a record with a
dependence, but its wait finds both stores of the wait-for table full; the notice of that names the id, a REMAP slot with ESC finds a running launch
under it, and the stop leaves every launch of the id FAULTED, the new one among them. -/
theorem not_launchRecords : ¬ Obligations.LaunchRecords := by
  unfold Obligations.LaunchRecords
  intro h
  obtain ⟨⟨f, x⟩, hhere⟩ : ∃ y, wrapped.here = some y := Option.isSome_iff_exists.1 (by decide +kernel)
  have hread := wrapped_readParams wrapped.focus.rank (some (x.lid, x.g))
  have hexec : exec (.launch .always .discard .discard) wrapped = .next (aliasing.awaitDep aliased) := by
    rw [exec_launch, execLaunch, State.launchHere_of_read _ _ _ wrapped_record wrapped_herePart
      (by rw [wrapped_localVec, wrapped_herePart, hhere]; exact hread), wrapped_localVec, wrapped_herePart, State.out2_discard, wrapped_submit]
  obtain ⟨-, -, hlaunch, -⟩ := h .always .discard .discard wrapped f x 0x100 (List.replicate 16 0) hhere wrapped_record
    (by rw [wrapped_localVec, wrapped_herePart]; exact hread)
  obtain ⟨-, -, hqueued⟩ := hlaunch .launch _ (.inl ⟨rfl, rfl⟩) (.inl wrapped_herePart)
  obtain ⟨u, l, ⟨hnext, hlast, -, -, -, -, hst, -⟩, -⟩ := hqueued (by rw [wrapped_localVec]; decide +kernel)
    (by rw [wrapped_localVec, wrapped_herePart]; decide +kernel)
  obtain ⟨reason, hstop⟩ := aliased_faulted
  rw [hexec, State.out2_discard, Host.Outcome.next.injEq] at hnext
  rw [← hnext, hstop] at hlast
  have hdep : bf (wrapped.localVec 0x100) 42 41 = 1 := by rw [wrapped_localVec]; decide +kernel
  rw [if_pos hdep, ← Option.some.inj hlast] at hst
  exact absurd hst (by simp [Launch.stopped])

end Sys2Proof.Machine
end

section
/-! Floats: the fields of an encoding and its value (R36), the numeric order as an order of encodings, and what FABS, FNEG, FMIN, FMAX and FCLS
deliver (R194 to R196). -/

namespace Sys2Proof.Machine

open Sys2Proof.Safety

/-! ## The fields of an encoding (R36) -/

/-- The sign field of an encoding. -/
def signOf (t : Ty) (n : Nat) : Bool := n / 2 ^ (t.width - 1) % 2 == 1

/-- An encoding without its sign. -/
def magOf (t : Ty) (n : Nat) : Nat := n % 2 ^ (t.width - 1)

/-- The exponent field of an encoding. -/
def expOf (t : Ty) (n : Nat) : Nat := magOf t n / 2 ^ Ty.manBits t

/-- The significand field of an encoding. -/
def fracOf (t : Ty) (n : Nat) : Nat := n % 2 ^ Ty.manBits t

/-- The greatest exponent field. -/
def topExp (t : Ty) : Nat := 2 ^ Ty.expBits t - 1

/-- The magnitude of the infinities, in the formats that have them. -/
def infMag (t : Ty) : Nat := topExp t * 2 ^ Ty.manBits t

/-- A number with a sign. -/
def signed (neg : Bool) (k : Nat) : Int := if neg then -k else k

section Encodings

variable {t : Ty} {n : Nat}

theorem width_of_isFloat (ht : t.isFloat = true) : t.width - 1 = Ty.manBits t + Ty.expBits t := by
  cases t <;> simp_all [Ty.isFloat, Ty.manBits, Ty.width, Ty.expBits]

theorem digits_of_isFloat (ht : t.isFloat = true) : digits t - 1 = Ty.manBits t := by
  cases t <;> simp_all [Ty.isFloat, Ty.manBits, Ty.width, Ty.expBits, digits]

theorem lowest_of_isFloat (ht : t.isFloat = true) : lowest t = 1 - Ty.bias t - Ty.manBits t := by
  cases t <;> simp_all [Ty.isFloat, Ty.manBits, Ty.width, Ty.expBits, Ty.bias, lowest]

theorem topExp_pos (t : Ty) : 0 < topExp t := by cases t <;> decide

theorem canonNan_lt (ht : t.isFloat = true) : canonNan t < 2 ^ t.width := by
  cases t <;> simp_all [Ty.isFloat] <;> decide

theorem expOf_eq (ht : t.isFloat = true) (n : Nat) : n / 2 ^ Ty.manBits t % 2 ^ Ty.expBits t = expOf t n := by
  rw [expOf, magOf, width_of_isFloat ht, pow_add, Nat.mod_mul_right_div_self]

theorem fracOf_eq (ht : t.isFloat = true) (n : Nat) : magOf t n % 2 ^ Ty.manBits t = fracOf t n := by
  rw [fracOf, magOf, width_of_isFloat ht, pow_add, Nat.mod_mul_right_mod]

theorem magOf_eq (ht : t.isFloat = true) (n : Nat) : magOf t n = 2 ^ Ty.manBits t * expOf t n + fracOf t n := by
  rw [← fracOf_eq ht, expOf, Nat.div_add_mod]

theorem expOf_le_topExp (ht : t.isFloat = true) (n : Nat) : expOf t n ≤ topExp t := by
  have h := Nat.mod_lt (n / 2 ^ Ty.manBits t) (Nat.two_pow_pos (Ty.expBits t))
  rw [expOf_eq ht] at h
  exact Nat.le_sub_one_of_lt h

theorem sign_mul (neg : Bool) (k : Nat) : (if neg = true then (-1 : Int) else 1) * k = signed neg k := by
  cases neg <;> simp [signed]

theorem signed_mul (neg : Bool) (k l : Nat) : signed neg (k * l) = signed neg k * l := by
  cases neg <;> simp [signed]

theorem signOf_eq_testBit (t : Ty) (n : Nat) : signOf t n = n.testBit (t.width - 1) := by
  rw [signOf, Nat.testBit_eq_decide_div_mod_eq, Bool.beq_eq_decide_eq]

/-- Nothing stands above the sign field of an encoding. -/
theorem signField_lt (hn : n < 2 ^ t.width) : n / 2 ^ (t.width - 1) < 2 := by
  have hw : 2 ^ t.width = 2 ^ (t.width - 1) * 2 := by rw [← pow_succ, Nat.sub_add_cancel (Laws.width_pos t)]
  exact Nat.div_lt_of_lt_mul (hw ▸ hn)

theorem topExp_eq (ht : t.isFloat = true) : 2 ^ (t.width - 1 - Ty.manBits t) - 1 = topExp t := by
  rw [width_of_isFloat ht, Nat.add_sub_cancel_left, topExp]

theorem signOf_of_lt (hn : n < 2 ^ t.width) : signOf t n = decide (2 ^ (t.width - 1) ≤ n) := by
  have hb := signField_lt hn
  rw [signOf, Nat.mod_eq_of_lt hb, Bool.beq_eq_decide_eq, decide_eq_decide, ← Nat.one_le_div_iff (by positivity)]
  omega

theorem compareKey_eq (t : Ty) (n : Nat) : compareKey t n = signed (signOf t n) (magOf t n) := by
  simp [compareKey, signed, signOf, magOf]

theorem orderKey_eq (t : Ty) (n : Nat) : orderKey t n = if signOf t n then -(magOf t n : Int) - 1 else magOf t n := by
  simp [orderKey, signOf, magOf]

/-! ## The value of an encoding, class by class (R36) -/

/-- The encodings of finite numbers. -/
def finiteCode (t : Ty) (n : Nat) : Prop := expOf t n < topExp t ∨ (t = .e4m3 ∧ fracOf t n < 7)

/-- The value of an encoding by its fields. -/
theorem floatOf_eq (ht : t.isFloat = true) (n : Nat) : floatOf t n =
    if expOf t n = topExp t ∧ t ≠ .e4m3 then
      (if fracOf t n = 0 then .inf (signOf t n) else .nan (fracOf t n / 2 ^ (Ty.manBits t - 1) % 2 == 0))
    else if t = .e4m3 ∧ expOf t n = 15 ∧ fracOf t n = 7 then .nan false
    else if expOf t n = 0 then (if fracOf t n = 0 then .zero (signOf t n) else .num (signed (signOf t n) (fracOf t n)) (lowest t))
    else .num (signed (signOf t n) (2 ^ Ty.manBits t + fracOf t n)) (expOf t n - 1 + lowest t) := by
  have hexp : (expOf t n : Int) - 1 + lowest t = expOf t n - Ty.bias t - Ty.manBits t := by rw [lowest_of_isFloat ht]; ring
  rw [hexp, lowest_of_isFloat ht]
  simp only [floatOf, expOf_eq ht, sign_mul]
  rfl

theorem floatOf_of_top (ht : t.isFloat = true) (h : t ≠ .e4m3) (he : expOf t n = topExp t) :
    floatOf t n = if fracOf t n = 0 then .inf (signOf t n) else .nan (fracOf t n / 2 ^ (Ty.manBits t - 1) % 2 == 0) := by
  rw [floatOf_eq ht, if_pos ⟨he, h⟩]

/-- The top bit of a NaN's significand is 0 when it is signalling. -/
theorem signalling_eq (ht : t.isFloat = true) (n : Nat) :
    (fracOf t n / 2 ^ (Ty.manBits t - 1) % 2 == 0) = decide (fracOf t n < 2 ^ (Ty.manBits t - 1)) := by
  have hmb : 1 ≤ Ty.manBits t := by cases t <;> simp_all [Ty.isFloat, Ty.manBits, Ty.width, Ty.expBits]
  have hw : 2 ^ Ty.manBits t = 2 ^ (Ty.manBits t - 1) * 2 := by rw [← pow_succ, Nat.sub_add_cancel hmb]
  have hb : fracOf t n / 2 ^ (Ty.manBits t - 1) < 2 := Nat.div_lt_of_lt_mul (hw ▸ Nat.mod_lt _ (by positivity))
  rw [Nat.mod_eq_of_lt hb, Bool.beq_eq_decide_eq, decide_eq_decide, Nat.div_eq_zero_iff_lt (by positivity)]

theorem floatOf_of_e4m3Nan (he : expOf .e4m3 n = topExp .e4m3) (hm : fracOf .e4m3 n = 7) : floatOf .e4m3 n = .nan false := by
  rw [floatOf_eq rfl, if_neg fun h => h.2 rfl, if_pos ⟨rfl, he, hm⟩]

theorem floatOf_of_finiteCode (ht : t.isFloat = true) (h : finiteCode t n) :
    floatOf t n = if expOf t n = 0 then (if fracOf t n = 0 then .zero (signOf t n) else .num (signed (signOf t n) (fracOf t n)) (lowest t))
      else .num (signed (signOf t n) (2 ^ Ty.manBits t + fracOf t n)) (expOf t n - 1 + lowest t) := by
  have hnotTop : ¬ (expOf t n = topExp t ∧ t ≠ .e4m3) := by
    rintro ⟨he, h4⟩
    rcases h with h | ⟨h, -⟩
    · exact absurd he h.ne
    · exact h4 h
  have hnotNan : ¬ (t = .e4m3 ∧ expOf t n = 15 ∧ fracOf t n = 7) := by
    rintro ⟨rfl, he, hm⟩
    rcases h with h | ⟨-, h⟩
    · exact absurd he h.ne
    · exact absurd hm h.ne
  rw [floatOf_eq ht, if_neg hnotTop, if_neg hnotNan]

/-- An encoding is that of a finite number, of an infinity, or of a NaN. -/
theorem floatOf_classes (ht : t.isFloat = true) (n : Nat) :
    finiteCode t n ∨ (floatOf t n = .inf (signOf t n) ∧ t ≠ .e4m3 ∧ magOf t n = infMag t) ∨ (floatOf t n).isNan = true := by
  rcases Nat.lt_or_eq_of_le (expOf_le_topExp ht n) with he | he
  · exact .inl (.inl he)
  by_cases h4 : t = .e4m3
  · subst h4
    have hm : fracOf .e4m3 n < 8 := Nat.mod_lt _ (by decide)
    rcases Nat.lt_or_eq_of_le (Nat.le_of_lt_succ hm) with hm | hm
    · exact .inl (.inr ⟨rfl, hm⟩)
    · exact .inr (.inr (by rw [floatOf_of_e4m3Nan he hm]; rfl))
  · rw [floatOf_of_top ht h4 he]
    split
    · next hm => exact .inr (.inl ⟨rfl, h4, by rw [magOf_eq ht, he, hm, Nat.add_zero, Nat.mul_comm]; rfl⟩)
    · exact .inr (.inr rfl)

theorem finite_floatOf (ht : t.isFloat = true) (h : finiteCode t n) : finite (floatOf t n) = true := by
  rw [floatOf_of_finiteCode ht h]
  split
  · split <;> rfl
  · rfl

theorem real_floatOf_of_finiteCode (ht : t.isFloat = true) (h : finiteCode t n) :
    real (floatOf t n) = if expOf t n = 0 then (signed (signOf t n) (fracOf t n) : ℚ) * 2 ^ lowest t
      else (signed (signOf t n) (2 ^ Ty.manBits t + fracOf t n) : ℚ) * 2 ^ ((expOf t n : Int) - 1 + lowest t) := by
  rw [floatOf_of_finiteCode ht h]
  split
  · split
    · next hm => simp [real, hm, signed]
    · rfl
  · rfl

/-- A finite value as R36 writes it: sign, power of two, and a significand that is a fraction. -/
theorem real_floatOf_fraction (ht : t.isFloat = true) (h : finiteCode t n) (sign : ℚ) (hsign : sign = if signOf t n then -1 else 1)
    (bias : Int) (hbias : bias = 1 - lowest t - Ty.manBits t) :
    real (floatOf t n) = if expOf t n = 0 then sign * 2 ^ (1 - bias) * (fracOf t n / 2 ^ Ty.manBits t)
      else sign * 2 ^ ((expOf t n : Int) - bias) * (1 + fracOf t n / 2 ^ Ty.manBits t) := by
  have hs (k : Nat) : (signed (signOf t n) k : ℚ) = sign * k := by rw [hsign, signed]; split <;> simp
  have hlow : 1 - bias = lowest t + Ty.manBits t := by rw [hbias]; ring
  have hexp : (expOf t n : Int) - bias = expOf t n - 1 + lowest t + Ty.manBits t := by rw [hbias]; ring
  have hmb : (2 : ℚ) ^ Ty.manBits t ≠ 0 := by positivity
  rw [real_floatOf_of_finiteCode ht h, hs, hs, hlow, hexp, zpow_add₀ two_ne_zero (lowest t), zpow_add₀ two_ne_zero (_ + lowest t), zpow_natCast]
  split
  · field_simp
  · push_cast; field_simp

/-- A number that is not 0 has the sign of its encoding. -/
theorem num_neg_iff (ht : t.isFloat = true) {z e : Int} (h : floatOf t n = .num z e) : z < 0 ↔ signOf t n = true := by
  have hsig : ∀ k : Nat, 0 < k → (signed (signOf t n) k < 0 ↔ signOf t n = true) := by
    intro k hk
    cases signOf t n
    · simp [signed]
    · simpa [signed] using hk
  rcases floatOf_classes ht n with hf | ⟨hi, -⟩ | hn
  · rw [floatOf_of_finiteCode ht hf] at h
    split at h
    · split at h
      · cases h
      · next hm => cases h; exact hsig _ (Nat.pos_of_ne_zero hm)
    · cases h; exact hsig _ (by positivity)
  · rw [hi] at h; cases h
  · rw [h] at hn; cases hn

/-! ## The numeric order is the order of encodings (R195, R197) -/

/-- A finite magnitude in units of the smallest subnormal number: the significand, moved up by the exponent. -/
def scaledMag (mb k : Nat) : Nat := if k / 2 ^ mb = 0 then k else (2 ^ mb + k % 2 ^ mb) * 2 ^ (k / 2 ^ mb - 1)

theorem scaledMag_zero (mb : Nat) : scaledMag mb 0 = 0 := by simp [scaledMag]

theorem scaledMag_lt (mb k : Nat) : scaledMag mb k < 2 ^ (mb + k / 2 ^ mb) := by
  unfold scaledMag
  split
  · next h => rw [h, Nat.add_zero]; exact Nat.lt_of_div_eq_zero (by positivity) h
  · next h =>
    obtain ⟨e, he⟩ := Nat.exists_eq_succ_of_ne_zero h
    have hm := Nat.mod_lt k (Nat.two_pow_pos mb)
    calc (2 ^ mb + k % 2 ^ mb) * 2 ^ (k / 2 ^ mb - 1) < (2 ^ mb + 2 ^ mb) * 2 ^ (k / 2 ^ mb - 1) := by gcongr
      _ = 2 ^ (mb + k / 2 ^ mb) := by rw [he, Nat.succ_sub_one, Nat.succ_eq_add_one]; ring

theorem le_scaledMag {mb k : Nat} (h : 0 < k / 2 ^ mb) : 2 ^ (mb + (k / 2 ^ mb - 1)) ≤ scaledMag mb k := by
  rw [scaledMag, if_neg h.ne', pow_add]
  exact Nat.mul_le_mul_right _ (Nat.le_add_right _ _)

theorem scaledMag_strictMono (mb : Nat) : StrictMono (scaledMag mb) := by
  intro j k hjk
  rcases Nat.lt_or_eq_of_le (Nat.div_le_div_right (c := 2 ^ mb) hjk.le) with he | he
  · calc scaledMag mb j < 2 ^ (mb + j / 2 ^ mb) := scaledMag_lt mb j
      _ ≤ 2 ^ (mb + (k / 2 ^ mb - 1)) := Nat.pow_le_pow_right (by decide) (Nat.add_le_add_left (Nat.le_sub_one_of_lt he) mb)
      _ ≤ scaledMag mb k := le_scaledMag (Nat.zero_lt_of_lt he)
  · have hj := Nat.div_add_mod j (2 ^ mb)
    have hk := Nat.div_add_mod k (2 ^ mb)
    rw [← he] at hk
    have hm : j % 2 ^ mb < k % 2 ^ mb := by omega
    unfold scaledMag
    rw [← he]
    split
    · exact hjk
    · gcongr

theorem real_eq_scaledMag (ht : t.isFloat = true) (h : finiteCode t n) :
    real (floatOf t n) = (signed (signOf t n) (scaledMag (Ty.manBits t) (magOf t n)) : ℚ) * 2 ^ lowest t := by
  rw [real_floatOf_of_finiteCode ht h, scaledMag, ← expOf, fracOf_eq ht]
  split
  · next he => rw [magOf_eq ht, he, Nat.mul_zero, Nat.zero_add]
  · next he =>
    have hz : (expOf t n : Int) - 1 = (expOf t n - 1 : Nat) := by omega
    rw [zpow_add₀ (by norm_num), hz, zpow_natCast, signed_mul]
    push_cast
    ring

/-- Signed numbers keep their order under a rising map of their magnitudes. -/
theorem signed_lt_signed_iff {f : Nat → Nat} (hf : StrictMono f) (h0 : f 0 = 0) (s u : Bool) (j k : Nat) :
    signed s (f j) < signed u (f k) ↔ signed s j < signed u k := by
  have hlt : f j < f k ↔ j < k := hf.lt_iff_lt
  have hgt : f k < f j ↔ k < j := hf.lt_iff_lt
  have hpos (l : Nat) : 0 < f l ↔ 0 < l := by rw [← hf.lt_iff_lt (a := 0) (b := l), h0]
  have hj := hpos j
  have hk := hpos k
  cases s <;> cases u <;> simp only [signed, if_true, if_false, Bool.false_eq_true] <;> omega

theorem less_of_finite : ∀ {x y : FVal}, finite x = true → finite y = true → less x y = decide (real x < real y)
  | .zero _, .zero _, _, _ | .zero _, .num _ _, _, _ | .num _ _, .zero _, _, _ | .num _ _, .num _ _, _, _ => rfl

/-- Above a finite number stands +∞ alone, and below it −∞ alone. -/
theorem less_inf_left : ∀ {y : FVal} (s : Bool), finite y = true → less (.inf s) y = s
  | .zero _, _, _ | .num _ _, _, _ => rfl

theorem less_inf_right : ∀ {x : FVal} (s : Bool), finite x = true → less x (.inf s) = !s
  | .zero _, _, _ | .num _ _, _, _ => rfl

theorem less_floatOf_finite {m : Nat} (ht : t.isFloat = true) (hn : finiteCode t n) (hm : finiteCode t m) :
    less (floatOf t n) (floatOf t m) = decide (compareKey t n < compareKey t m) := by
  have hpos : (0 : ℚ) < 2 ^ lowest t := by positivity
  rw [less_of_finite (finite_floatOf ht hn) (finite_floatOf ht hm), real_eq_scaledMag ht hn, real_eq_scaledMag ht hm, decide_eq_decide,
    mul_lt_mul_iff_left₀ hpos, Int.cast_lt, signed_lt_signed_iff (scaledMag_strictMono _) (scaledMag_zero _), compareKey_eq, compareKey_eq]

/-- The magnitude of an infinity is above every finite one. -/
theorem magOf_lt_infMag (h4 : t ≠ .e4m3) (hn : finiteCode t n) : magOf t n < infMag t := by
  rcases hn with hn | ⟨hn, -⟩
  · exact (Nat.div_lt_iff_lt_mul (by positivity)).1 hn
  · exact absurd hn h4

theorem infMag_pos (t : Ty) : 0 < infMag t := Nat.mul_pos (topExp_pos t) (by positivity)

theorem decide_signed_lt_of_lt {j k : Nat} (h : j < k) (s u : Bool) : decide (signed s j < signed u k) = !u := by
  cases s <;> cases u <;> simp [signed] <;> omega

theorem decide_signed_gt_of_lt {j k : Nat} (h : j < k) (s u : Bool) : decide (signed u k < signed s j) = u := by
  cases s <;> cases u <;> simp [signed] <;> omega

theorem decide_signed_lt_same {k : Nat} (h : 0 < k) (s u : Bool) : decide (signed s k < signed u k) = (s && !u) := by
  cases s <;> cases u <;> simp [signed]; omega

/-- Of values that are no NaN, the lesser is the one whose encoding has the lesser key. -/
theorem less_floatOf {m : Nat} (ht : t.isFloat = true) (hn : (floatOf t n).isNan = false) (hm : (floatOf t m).isNan = false) :
    less (floatOf t n) (floatOf t m) = decide (compareKey t n < compareKey t m) := by
  rcases floatOf_classes ht n with hfn | ⟨hvn, h4, hkn⟩ | nan
  case inr.inr => rw [hn] at nan; cases nan
  all_goals rcases floatOf_classes ht m with hfm | ⟨hvm, h4', hkm⟩ | nan
  case inl.inr.inr | inr.inl.inr.inr => rw [hm] at nan; cases nan
  case inl.inl => exact less_floatOf_finite ht hfn hfm
  case inl.inr.inl =>
    rw [hvm, less_inf_right _ (finite_floatOf ht hfn), compareKey_eq, compareKey_eq, hkm, decide_signed_lt_of_lt (magOf_lt_infMag h4' hfn)]
  case inr.inl.inl =>
    rw [hvn, less_inf_left _ (finite_floatOf ht hfm), compareKey_eq, compareKey_eq, hkn, decide_signed_gt_of_lt (magOf_lt_infMag h4 hfm)]
  case inr.inl.inr.inl =>
    rw [hvn, hvm, compareKey_eq, compareKey_eq, hkn, hkm, decide_signed_lt_same (infMag_pos t)]; rfl

/-- The zeros are the encodings whose magnitude is 0. -/
theorem floatOf_eq_zero_iff (ht : t.isFloat = true) (s : Bool) : floatOf t n = .zero s ↔ magOf t n = 0 ∧ signOf t n = s := by
  have hmag := magOf_eq ht n
  constructor
  · intro h
    rcases floatOf_classes ht n with hf | ⟨hi, -⟩ | hn
    · rw [floatOf_of_finiteCode ht hf] at h
      split at h
      · next he =>
        split at h
        · next hm => cases h; exact ⟨by rw [hmag, he, hm, Nat.mul_zero], rfl⟩
        · cases h
      · cases h
    · rw [hi] at h; cases h
    · rw [h] at hn; cases hn
  · rintro ⟨h, rfl⟩
    have he : expOf t n = 0 := by rw [expOf, h, Nat.zero_div]
    have hm : fracOf t n = 0 := by rw [← fracOf_eq ht, h, Nat.zero_mod]
    rw [floatOf_of_finiteCode ht (.inl (he ▸ topExp_pos t)), if_pos he, if_pos hm]

/-- The order of minima and maxima is that of the keys in which −0 stands below +0. -/
theorem below_floatOf {m : Nat} (ht : t.isFloat = true) (hn : (floatOf t n).isNan = false) (hm : (floatOf t m).isNan = false) :
    below (floatOf t n) (floatOf t m) = decide (orderKey t n < orderKey t m) := by
  rw [below, less_floatOf ht hn hm, Bool.eq_iff_iff]
  simp only [Bool.or_eq_true, Bool.and_eq_true, beq_iff_eq, decide_eq_true_eq, floatOf_eq_zero_iff ht, compareKey_eq, orderKey_eq]
  cases signOf t n <;> cases signOf t m <;> simp [signed] <;> omega

/-! ## FABS and FNEG (R194, R195) -/

theorem lowBits_eq (s : State) (t : Ty) (q : Port) : lowBits t (s.portS q) = (opd s t q).toNat := by
  rw [lowBits, opd, BitVec.toNat_setWidth]

/-- Without its sign bit, an encoding is its magnitude. -/
theorem toNat_clearSign (x : BitVec t.width) : (x &&& ~~~BitVec.twoPow t.width (t.width - 1)).toNat = magOf t x.toNat := by
  have hw := Laws.width_pos t
  apply Nat.eq_of_testBit_eq
  intro i
  rw [BitVec.testBit_toNat, magOf, Nat.testBit_mod_two_pow, BitVec.testBit_toNat]
  by_cases hi : i < t.width
  · have htop : t.width - 1 = i ↔ ¬ i < t.width - 1 := by omega
    simp only [BitVec.getLsbD_and, BitVec.getLsbD_not, BitVec.getLsbD_twoPow, hi, htop, decide_true, Bool.true_and, decide_not, Bool.not_not,
      show t.width - 1 < t.width by omega, Bool.and_comm]
  · simp [hi, BitVec.getLsbD_of_ge x i (by omega)]

/-- With its sign bit inverted, it is its magnitude under the other sign. -/
theorem toNat_flipSign (x : BitVec t.width) :
    (x ^^^ BitVec.twoPow t.width (t.width - 1)).toNat = magOf t x.toNat + signBit t (!signOf t x.toNat) := by
  have hw := Laws.width_pos t
  have hmag : magOf t x.toNat < 2 ^ (t.width - 1) := Nat.mod_lt _ (by positivity)
  apply Nat.eq_of_testBit_eq
  intro i
  rw [Nat.add_comm, signBit, Nat.mul_comm, Nat.testBit_two_pow_mul_add _ hmag, signOf_eq_testBit, BitVec.testBit_toNat, BitVec.testBit_toNat,
    BitVec.getLsbD_xor, BitVec.getLsbD_twoPow]
  rcases lt_trichotomy i (t.width - 1) with hi | rfl | hi
  · have hne : t.width - 1 ≠ i := hi.ne'
    simp [hi, hne, magOf, BitVec.testBit_toNat]
  · have hlt : t.width - 1 < t.width := by omega
    cases hb : x.getLsbD (t.width - 1) <;> simp [hlt]
  · have hne : t.width - 1 ≠ i := hi.ne
    have h0 : i - (t.width - 1) ≠ 0 := by omega
    rw [BitVec.getLsbD_of_ge x i (by omega)]
    simp [hne, hi.not_gt, h0, Nat.testBit_bool_toNat]

/-- Negating a value that is no NaN inverts its sign bit. -/
theorem floatSign_neg {x : BitVec t.width} (h : (floatOf t x.toNat).isNan = false) :
    floatSign t true x.toNat = ((x ^^^ BitVec.twoPow t.width (t.width - 1)).toNat, 0) := by
  have hs : (x.toNat / 2 ^ (t.width - 1) % 2 == 0) = !signOf t x.toNat := by
    rw [signOf]
    rcases Nat.mod_two_eq_zero_or_one (x.toNat / 2 ^ (t.width - 1)) with h | h <;> rw [h] <;> rfl
  rw [toNat_flipSign, floatSign, h, ← hs]; rfl

/-- The absolute value of one that is no NaN clears it. -/
theorem floatSign_abs {x : BitVec t.width} (h : (floatOf t x.toNat).isNan = false) :
    floatSign t false x.toNat = ((x &&& ~~~BitVec.twoPow t.width (t.width - 1)).toNat, 0) := by
  rw [toNat_clearSign, floatSign, h]; rfl

theorem exec_fneg_of_not_nan (p : Pred) (a b : Target) {s : State} (h : (floatOf t (opd s t .a).toNat).isNan = false) :
    exec (.fneg p t a b) s = .next ((s.raise 0).out2 a b ((opd s t .a ^^^ BitVec.twoPow t.width (t.width - 1)).setWidth 64)) := by
  rw [exec_fneg, execFneg, lowBits_eq, floatSign_neg h, State.floatOut, BitVec.ofNat_toNat]

theorem exec_fabs_of_not_nan (p : Pred) (a b : Target) {s : State} (h : (floatOf t (opd s t .a).toNat).isNan = false) :
    exec (.fabs p t a b) s = .next ((s.raise 0).out2 a b ((opd s t .a &&& ~~~BitVec.twoPow t.width (t.width - 1)).setWidth 64)) := by
  rw [exec_fabs, execFabs, lowBits_eq, floatSign_abs h, State.floatOut, BitVec.ofNat_toNat]

/-! ## FMIN and FMAX (R195) -/

theorem toNat_eq_sign_add_magOf (x : BitVec t.width) : x.toNat = 2 ^ (t.width - 1) * (signOf t x.toNat).toNat + magOf t x.toNat := by
  have hb := signField_lt x.isLt
  have hs : (signOf t x.toNat).toNat = x.toNat / 2 ^ (t.width - 1) := by
    rw [signOf, Nat.mod_eq_of_lt hb]
    interval_cases x.toNat / 2 ^ (t.width - 1) <;> rfl
  rw [hs, magOf, Nat.div_add_mod]

/-- No two encodings have one key. -/
theorem orderKey_injective {x y : BitVec t.width} (h : orderKey t x.toNat = orderKey t y.toNat) : x = y := by
  have hx := toNat_eq_sign_add_magOf x
  have hy := toNat_eq_sign_add_magOf y
  rw [orderKey_eq, orderKey_eq] at h
  apply BitVec.eq_of_toNat_eq
  cases hs : signOf t x.toNat <;> cases hu : signOf t y.toNat <;> simp only [hs, hu, if_true, if_false, Bool.false_eq_true] at h hx hy <;> omega

/-- The minimum and the maximum of two encodings, with the flags of signalling operands. -/
theorem floatMinMax_ordered (ht : t.isFloat = true) (x y : BitVec t.width) :
    ∃ l h, floatMinMax t false x.toNat y.toNat = (BitVec.toNat l, (floatOf t x.toNat).sigFlag ||| (floatOf t y.toNat).sigFlag) ∧
      floatMinMax t true x.toNat y.toNat = (BitVec.toNat h, (floatOf t x.toNat).sigFlag ||| (floatOf t y.toNat).sigFlag) ∧ ordered t x y l h := by
  have hcanon : canonNan t = (BitVec.ofNat t.width (canonNan t)).toNat := by rw [BitVec.toNat_ofNat, Nat.mod_eq_of_lt (canonNan_lt ht)]
  simp only [floatMinMax, ordered]
  cases hx : (floatOf t x.toNat).isNan <;> cases hy : (floatOf t y.toNat).isNan
  case true.true => exact ⟨BitVec.ofNat _ (canonNan t), BitVec.ofNat _ (canonNan t), by simp [← hcanon]⟩
  case true.false => exact ⟨y, y, by simp⟩
  case false.true => exact ⟨x, x, by simp⟩
  case false.false =>
    rw [below_floatOf ht hx hy]
    rcases lt_trichotomy (orderKey t x.toNat) (orderKey t y.toNat) with h | h | h
    · exact ⟨x, y, by simp [h, h.le]⟩
    · obtain rfl := orderKey_injective h
      exact ⟨x, x, by simp⟩
    · exact ⟨y, x, by simp [h.not_ge, h.not_gt]⟩

/-! ## FCLS (R196) -/

/-- The number of the bit of a class (R196); `sub` says that the exponent field is 0. -/
def classBit (sub : Bool) : FVal → Nat
  | .inf neg => if neg then 0 else 7
  | .num z _ => if z < 0 then (if sub then 2 else 1) else (if sub then 5 else 6)
  | .zero neg => if neg then 3 else 4
  | .nan sig => if sig then 8 else 9

theorem floatClass_eq (ht : t.isFloat = true) (n : Nat) : floatClass t n = 2 ^ classBit (decide (expOf t n = 0)) (floatOf t n) := by
  unfold floatClass
  cases h : floatOf t n with
  | nan sig => cases sig <;> rfl
  | inf neg => cases neg <;> rfl
  | zero neg => cases neg <;> rfl
  | num z e =>
    simp only [classBit, expOf_eq ht, num_neg_iff ht h, signOf, beq_iff_eq, decide_eq_true_eq]
    split <;> split <;> rfl

/-- The exponent field does not see the bits above the encoding. -/
theorem expOf_eq_of_word (ht : t.isFloat = true) (n : Nat) : n / 2 ^ Ty.manBits t % 2 ^ Ty.expBits t = expOf t (n % 2 ^ t.width) := by
  rw [expOf_eq ht, expOf, expOf, magOf, magOf, Nat.mod_mod_of_dvd _ (Nat.pow_dvd_pow 2 (Nat.sub_le _ _))]

/-- FCLS delivers the bit of the operand's class and raises nothing. -/
theorem exec_fcls_eq (ht : t.isFloat = true) (p : Pred) (a b : Target) (s : State) :
    let n := (s.portS .a).toNat % 2 ^ t.width
    exec (.fcls p t a b) s = .next (s.out2 a b (BitVec.twoPow 64 (classBit (decide (expOf t n = 0)) (floatOf t n)))) := by
  have hbit (k : Nat) : BitVec.ofNat 64 (2 ^ k) = BitVec.twoPow 64 k := by apply BitVec.eq_of_toNat_eq; simp
  rw [exec_fcls, execFcls, floatClass_eq ht, hbit, lowBits]

end Encodings

/-- Settles O19: the classes of the encodings, the sign bit, the order of the keys, and the class mask, one clause each. -/
theorem floatSignsAndClasses : Obligations.FloatSignsAndClasses := by
  unfold Obligations.FloatSignsAndClasses
  refine ⟨?values, ?signs, ?extremes, ?classes⟩
  case values =>
    intro t n ht hn mb m e top neg sign bias
    have hmb : mb = Ty.manBits t := digits_of_isFloat ht
    have hm : m = fracOf t n := by simp only [m, hmb, fracOf]
    have he : e = expOf t n := by simp only [e, hmb, expOf, magOf]
    have htop : top = topExp t := by simp only [top, hmb, topExp_eq ht]
    have hneg : neg = signOf t n := (signOf_of_lt hn).symm
    have hsign : sign = if signOf t n = true then -1 else 1 := by simp only [sign, hneg]
    have hbias : bias = 1 - lowest t - Ty.manBits t := by simp only [bias, hmb]
    rw [hm, he, htop, hneg, hmb]
    refine ⟨fun h4 h => ?_, ?_, fun h => ⟨finite_floatOf ht h, fun h0 hm0 => ?_, real_floatOf_fraction ht h sign hsign bias hbias⟩⟩
    · rw [floatOf_of_top ht h4 h, signalling_eq ht]
      exact ⟨fun hm0 => if_pos hm0, fun hm0 => if_neg hm0⟩
    · rintro rfl h h7
      exact floatOf_of_e4m3Nan h h7
    · rw [floatOf_of_finiteCode ht h, if_pos h0, if_pos hm0]
  case signs =>
    intro p t a b s _ hnan
    have hnan : (floatOf t (opd s t .a).toNat).isNan = false := by rwa [← lowBits_eq]
    exact ⟨exec_fneg_of_not_nan p a b hnan, exec_fabs_of_not_nan p a b hnan⟩
  case extremes =>
    intro p t a b s ht sig
    obtain ⟨l, h, hmin, hmax, hord⟩ := floatMinMax_ordered ht (opd s t .a) (opd s t .b)
    refine ⟨l, h, ?_, ?_, hord⟩
    · rw [exec_fmin, execFmin, lowBits_eq, lowBits_eq, hmin, State.floatOut, BitVec.ofNat_toNat]
    · rw [exec_fmax, execFmax, lowBits_eq, lowBits_eq, hmax, State.floatOut, BitVec.ofNat_toNat]
  case classes =>
    intro p t a b s ht x normal is
    have hnormal : normal ↔ expOf t ((s.portS .a).toNat % 2 ^ t.width) ≠ 0 := by simp only [normal, expOf_eq_of_word ht]
    have his (v : FVal) (h : x = v) : is (classBit (decide (¬ normal)) v) := by
      rw [← h, decide_eq_decide.2 (hnormal.not.trans not_not)]
      exact exec_fcls_eq ht p a b s
    refine ⟨his (.inf true), fun z e h hz => ?negative, his (.zero true), his (.zero false), fun z e h hz => ?positive, his (.inf false),
      his (.nan true), his (.nan false)⟩
    case negative => exact ⟨fun hn => by simpa [classBit, hz, hn] using his _ h, fun hn => by simpa [classBit, hz, hn] using his _ h⟩
    case positive =>
      exact ⟨fun hn => by simpa [classBit, hz.not_gt, hn] using his _ h, fun hn => by simpa [classBit, hz.not_gt, hn] using his _ h⟩

end Sys2Proof.Machine
end

section
/-! Pointers (R214, R217): a pointer as the concatenation of its three fields, how its offset moves, and what the address instructions deliver. -/

namespace Sys2Proof.Machine

/-! ## Fields of a word (R71) -/

/-- A field in its own width is the slice of the word. -/
theorem ofNat_bf_eq_extractLsb' {w : Nat} (v : BitVec w) (hi lo : Nat) :
    BitVec.ofNat (hi + 1 - lo) (bf v hi lo) = v.extractLsb' lo (hi + 1 - lo) := by
  apply BitVec.eq_of_toNat_eq
  simp [bf, bits, Nat.shiftRight_eq_div_pow]

/-- A field in the width of its word is the word shifted down and masked. -/
theorem ofNat_bf_eq_ushiftRight_and {w : Nat} (v : BitVec w) (hi lo : Nat) (h : hi + 1 - lo ≤ w) :
    BitVec.ofNat w (bf v hi lo) = (v >>> lo) &&& BitVec.ofNat w (2 ^ (hi + 1 - lo) - 1) := by
  have hk : 2 ^ (hi + 1 - lo) ≤ 2 ^ w := Nat.pow_le_pow_right (by decide) h
  have hmask : 2 ^ (hi + 1 - lo) - 1 < 2 ^ w := by have := Nat.two_pow_pos (hi + 1 - lo); omega
  have hfield : bf v hi lo < 2 ^ w := (Nat.mod_lt _ (Nat.two_pow_pos _)).trans_le hk
  apply BitVec.eq_of_toNat_eq
  rw [BitVec.toNat_ofNat, Nat.mod_eq_of_lt hfield, BitVec.toNat_and, BitVec.toNat_ofNat, Nat.mod_eq_of_lt hmask, BitVec.toNat_ushiftRight,
    Nat.and_two_pow_sub_one_eq_mod, Nat.shiftRight_eq_div_pow, bf, bits]

/-! ## A pointer and its fields (R214) -/

/-- SPACE, OWNER and OFFSET stand one below the other. -/
theorem mkPtr_eq_append (space owner off : Nat) : mkPtr space owner off = BitVec.ofNat 4 space ++ BitVec.ofNat 14 owner ++ BitVec.ofNat 46 off := by
  apply BitVec.eq_of_toNat_eq
  rw [BitVec.toNat_append, ← Nat.shiftLeft_add_eq_or_of_lt (BitVec.isLt _), BitVec.toNat_append, ← Nat.shiftLeft_add_eq_or_of_lt (BitVec.isLt _)]
  simp only [mkPtr, BitVec.toNat_ofNat, Nat.shiftLeft_eq]
  omega

/-- The offset moves modulo 2^46, and the space and the owner above it stay (R217). -/
theorem ptrAdd_eq_append (p : Word) (n : Int) : ptrAdd p n = p.extractLsb' 46 18 ++ (p.setWidth 46 + BitVec.ofInt 46 n) := by
  have hspace : BitVec.ofNat 4 (ptrSpace p) = p.extractLsb' 60 4 := ofNat_bf_eq_extractLsb' p 63 60
  have howner : BitVec.ofNat 14 (ptrOwner p) = p.extractLsb' 46 14 := ofNat_bf_eq_extractLsb' p 59 46
  have hoff : BitVec.ofNat 46 (ptrOff p) = p.setWidth 46 := by
    rw [BitVec.setWidth_eq_extractLsb' (by decide)]; exact ofNat_bf_eq_extractLsb' p 45 0
  rw [ptrAdd, mkPtr_eq_append, hspace, howner, Laws.wrapNat_eq, BitVec.ofNat_toNat, BitVec.setWidth_eq, BitVec.ofInt_add, BitVec.ofInt_natCast,
    hoff, BitVec.extractLsb'_append_extractLsb'_eq_extractLsb' (show 60 = 46 + 14 from rfl)]

/-- The space and the owner of a pointer whose offset has moved. -/
theorem ptrAdd_space_owner (p : Word) (n : Int) : (ptrAdd p n).extractLsb' 46 18 = p.extractLsb' 46 18 := by
  rw [ptrAdd_eq_append, BitVec.extractLsb'_append_eq_left]

/-- The offset of a pointer whose offset has moved. -/
theorem ptrAdd_offset (p : Word) (n : Int) : (ptrAdd p n).setWidth 46 = p.setWidth 46 + BitVec.ofInt 46 n := by
  rw [ptrAdd_eq_append, BitVec.setWidth_append_eq_right]

/-! ## The amount by which LEA and PADD move the offset (R217) -/

/-- A signed index times a power of two, modulo 2^v, is the index extended and shifted up. -/
theorem ofInt_toInt_mul_two_pow {w : Nat} (v : Nat) (i : BitVec w) (k : Nat) : BitVec.ofInt v (i.toInt * 2 ^ k) = i.signExtend v <<< k := by
  have hpow : BitVec.ofInt v (2 ^ k) = BitVec.twoPow v k := by
    apply BitVec.eq_of_toNat_eq
    rw [BitVec.toNat_twoPow, ← BitVec.toNat_ofNat, ← BitVec.ofInt_natCast]; norm_cast
  rw [BitVec.ofInt_mul, hpow, BitVec.mul_twoPow_eq_shiftLeft, BitVec.signExtend]

/-- LEA's index has more bits than the offset, so its sign is not seen. -/
theorem ofInt_index_mul_two_pow (i : Word) (k : Nat) : BitVec.ofInt 46 (i.toInt * 2 ^ k) = (i <<< k).setWidth 46 := by
  rw [ofInt_toInt_mul_two_pow, BitVec.signExtend_eq_setWidth_of_le i (by decide), BitVec.setWidth_shiftLeft_of_le (by decide)]

/-- The signed immediate as a bit vector. -/
theorem simm9_eq_toInt (i : BitVec 9) : simm9 i = i.toInt := by
  rw [simm9, Laws.toSigned_eq (by decide), BitVec.ofNat_toNat, BitVec.setWidth_eq]

/-! ## What the field instructions deliver (R217) -/

/-- PTAG joins the low bits of its three operands. -/
theorem mkPtr_bf_eq_append (a b c : Word) :
    mkPtr (bf a 3 0) (bf b 13 0) (bf c 45 0) = a.setWidth 4 ++ b.setWidth 14 ++ c.setWidth 46 := by
  rw [mkPtr_eq_append, BitVec.setWidth_eq_extractLsb' (by decide), BitVec.setWidth_eq_extractLsb' (by decide),
    BitVec.setWidth_eq_extractLsb' (by decide), ← ofNat_bf_eq_extractLsb' a 3 0, ← ofNat_bf_eq_extractLsb' b 13 0,
    ← ofNat_bf_eq_extractLsb' c 45 0]

theorem ofNat_ptrSpace (p : Word) : BitVec.ofNat 64 (ptrSpace p) = p >>> 60 := by
  apply BitVec.eq_of_toNat_eq
  rw [BitVec.toNat_ofNat, BitVec.toNat_ushiftRight, Nat.shiftRight_eq_div_pow, ptrSpace, bf, bits]
  omega

theorem ofNat_ptrOwner (p : Word) : BitVec.ofNat 64 (ptrOwner p) = (p >>> 46) &&& 0x3FFF :=
  ofNat_bf_eq_ushiftRight_and p 59 46 (by decide)

theorem ofNat_ptrOff (p : Word) : BitVec.ofNat 64 (ptrOff p) = p &&& 0x3FFFFFFFFFFF := by
  rw [ptrOff, ofNat_bf_eq_ushiftRight_and p 45 0 (by decide), BitVec.ushiftRight_zero]; rfl

/-- Settles O12: LEA and PADD move the offset by one shared addition on the fields, and the other four join or take fields. -/
theorem pointerFields : Obligations.PointerFields := by
  unfold Obligations.PointerFields
  refine ⟨?lea, ?padd, ?ptag, ?pspc, ?pown, ?poff⟩
  case lea =>
    intro p sh a b s
    exact ⟨_, exec_lea, ptrAdd_space_owner _ _, by rw [ptrAdd_offset, ofInt_index_mul_two_pow]⟩
  case padd =>
    intro p sh a i s
    exact ⟨_, exec_padd, ptrAdd_space_owner _ _, by rw [ptrAdd_offset, simm9_eq_toInt, ofInt_toInt_mul_two_pow]⟩
  case ptag => intro p a b s; rw [exec_ptag, execPtag, mkPtr_bf_eq_append]
  case pspc => intro p a b s; rw [exec_pspc, execPspc, ofNat_ptrSpace]
  case pown => intro p a b s; rw [exec_pown, execPown, ofNat_ptrOwner]
  case poff => intro p a b s; rw [exec_poff, execPoff, ofNat_ptrOff]

end Sys2Proof.Machine
end
